-- ==== Sys2Proof/Word.lean ====
section
/-!
DEFINITION. The word types of the Phoelm 9 model. The device is little-endian everywhere (00 R8).
-/

namespace Sys2Proof

/-- A 64-bit word: a register of the control core or of a register block. -/
abbrev Word := BitVec 64

/-- A byte of a memory. -/
abbrev Byte := BitVec 8

end Sys2Proof
end

