-- ==== Sys2Proof/Syntax.lean ====
section
/-!
DEFINITION. The commands the Phoelm 9 module takes, as syntax: one constructor of `Instr` per row of
spec/opcode_table.json, with the operands of the row. The control-core rows carry one syllable each
(02 R55-R69); the other rows carry what the event or the register write says. Nothing here gives a meaning.
-/

namespace Sys2Proof

/-! ## Names of parts of the module -/

/-- A mast number m = die * 64 + row * 8 + column (01 Table 1-1). -/
abbrev MastId := Fin 128
/-- A die. -/
abbrev DieId := Fin 2
/-- An array of a mast: 0 main, 1 mizzen. -/
abbrev ArrId := Fin 2
/-- An engine of a mast, numbered as the ENGINE field of a token address (01 Table 1-7), 0 to 5. -/
abbrev EngId := Fin 6
/-- A Shroud port (15 R381). -/
abbrev PortId := Fin 16
/-- A reduction channel of the module (15 R399). -/
abbrev ChanId := Fin 64
/-- A job slot of the module (15 R393). -/
abbrev JobSlot := Fin 8
/-- A host port (16). -/
abbrev HostPort := Fin 2
/-- A local physical address PA[37:0] (01 R14). -/
abbrev LocalPA := BitVec 38
/-- The address of the first byte of a line, as PA[37:7]. -/
abbrev Line := BitVec 31
/-- A 64-byte descriptor, word 0 in the low bits. -/
abbrev Desc := BitVec 512

/-- A host function: a port and a function number, 0 the physical function, 1 to 16 the virtual ones (16 R410). -/
structure FnId where
  port : HostPort
  fn : Fin 17
  deriving DecidableEq, Repr

/-- A host command in progress: its function, its submission queue (none: the admin queue) and its CID (16 R417). -/
structure CmdRef where
  fn : FnId
  q : Option (BitVec 20)
  cid : BitVec 32
  deriving DecidableEq, Repr

/-- Who posts a token (01 R32, R34); a message of another module has the plane it arrived in (15 R391). -/
inductive Poster where
  | engine (m : MastId) (e : EngId)
  | chan (c : ChanId)
  | host (p : HostPort)
  | remote (plane : Fin 2) (node : BitVec 14) (jobid : BitVec 16)
  deriving DecidableEq, Repr

/-- A token slot: slot i (flat index of 01 Table 1-8) of a mast, or the slot of a reduction channel. -/
inductive SlotId where
  | mast (m : MastId) (i : Fin 96)
  | chan (c : ChanId)
  deriving DecidableEq, Repr

/-- Who reads or writes HBM through a home without a data cache (12 R316), or sends an Atom; another member in a plane and a priority class. -/
inductive Requester where
  | core (m : MastId)
  | vec (m : MastId)
  | hal (m : MastId)
  | walker (d : DieId)
  | host (p : HostPort)
  | remote (plane : Fin 2) (cls : Fin 3) (node : BitVec 14) (jobid : BitVec 16)
  deriving DecidableEq, Repr

/-- What an error-correcting memory finds on one read (11 R275, R288). -/
inductive Ecc where
  | clean | corrected | uncorrectable
  deriving DecidableEq, Repr

/-- What a passing message is to the port that forwards it (15 R391): its class, its job, its source and target nodes, its flits. -/
structure LinkMsg where
  cls : Fin 3
  jobid : BitVec 16
  src : BitVec 14
  dst : BitVec 14
  flits : Nat
  payload : List Byte
  deriving DecidableEq, Repr

/-- What REPLAY_REQUEST brings to a port (15 R384, R395): with `here`, this module dropped a flit, and asks its peer for a replay; without it, the peer asks, and
has not received the last `lost` of the messages that the port keeps. `uncorr` says that the dropped flit had a codeword that was not corrected, `corrected`
how many codewords were corrected since the last request, `burst` that the port has made more than 32 replays within 250 ao. -/
structure ReplayReq where
  port : PortId
  here : Bool
  uncorr : Bool
  corrected : Nat
  lost : Nat
  burst : Bool
  deriving DecidableEq, Repr

/-- What the identity and version exchange and the round-trip measurement of a training find (15 R383-R389). -/
structure TrainResult where
  peerNode : BitVec 14
  peerPort : BitVec 4
  peerV3 : Bool
  lat : BitVec 12
  rtt : Nat
  deriving DecidableEq, Repr

/-- The fields that every member must give a channel alike (15 R399): the digest a channel message carries. -/
structure ChanKey where
  mode : BitVec 2
  op : BitVec 2
  ef : BitVec 4
  nelem : BitVec 24
  p : Nat
  deriving DecidableEq, Repr

/-- A channel message that arrives from a rank of another module (15 R401, R402). -/
structure SegMsg where
  plane : Fin 2
  run : BitVec 64
  key : ChanKey
  node : BitVec 14
  jobid : BitVec 16
  src : Nat
  dst : Nat
  seg : Nat
  data : List Byte
  deriving DecidableEq, Repr

/-- What another module answers reads with: the JOBID of the answer (15 R393), and whether it is a refusal; the bytes and the POISON bit of its data responses (12 R331), and, for a verifier, the checks of the blocks, in
the order of the blocks: the check entry of a canvas block, with its VALID bit as bit 32, or the checksum word of another one (11 R279, R280; log entry 43). -/
structure RemoteData where
  jobid : BitVec 16
  refused : Bool
  bytes : List Byte
  poison : Bool
  checks : List Word
  deriving DecidableEq, Repr

/-- What COPY_OUT brings: its command, what other modules answer for the pages of theirs that it copies, and whether the port's accesses of host memory succeed
(16 R420). -/
structure CopyOutRun where
  ref : CmdRef
  data : RemoteData
  hostOk : Bool
  deriving DecidableEq, Repr

/-- What LOAD_DATA_RETURN brings: with `reach`, the request of that load of the core's order reaches its canvas tier or register block (01 R474; log
entry 90); without it, the data return, and `data` is what another module answers. -/
structure LoadAnswer where
  reach : Option Nat
  data : RemoteData
  deriving DecidableEq, Repr

/-- What WRITE_ACK tells of an engine: with `reach`, that store of the core's order reaches its canvas tier or register block (01 R474; log entry 90);
without it, its oldest acknowledgement arrives, with the JOBID of an answer of another module and whether that is a refusal (15 R393); with `post`, another
module has refused a post of the engine. -/
structure AckAnswer where
  e : EngId
  reach : Option Nat
  jobid : BitVec 16
  refused : Bool
  post : Bool
  deriving DecidableEq, Repr

/-- What TRAP_ENTRY finds at the pc of a mast: the words of a bundle whose exception is taken (02 R58), or none for a deferrable exception or an
interrupt (log entry 59). -/
structure TrapWords where
  m : MastId
  words : List (BitVec 32)
  deriving DecidableEq, Repr

/-- The bytes that a WrU writes, and the CRC that goes with the last write to a checksummed canvas block of another module (11 R279; log entry 43). -/
structure WruData where
  bytes : List Byte
  crc : Option (BitVec 32)
  deriving DecidableEq, Repr

/-- A unit that copies its counters on the snapshot token (17 R442, R443): a router, an engine of a mast, the fabric counters and the walkers of a die, a
slice, an HBM controller, a Shroud port, a reduction channel. -/
inductive SnapUnit where
  | router (n : Fin 128)
  | engine (m : MastId) (e : EngId)
  | die (d : DieId)
  | slice (d : DieId) (k : Fin 64)
  | hbm (d : DieId) (k : Fin 4)
  | port (p : PortId)
  | chan (c : ChanId)
  deriving DecidableEq, Repr

/-- A unit that applies a trim change (17 R440). -/
inductive TrimUnit where
  | arr (m : MastId) (a : ArrId)
  | vec (m : MastId)
  | sheet (m : MastId)
  deriving DecidableEq, Repr

/-- The results of the checks that rest on SHA-512 and ECDSA P-521 (18 R461 checks 2, 3 and 4), as the hardware finds them. -/
structure CryptoFindings where
  key : Bool
  sig : Bool
  digest : Bool
  deriving DecidableEq, Repr, Inhabited

/-- What a start-up meets (18 Table 18-1): the rails, the HBM training, and the checks of the four flash images. -/
structure BootInput where
  railsOk : Bool
  hbmOk : Bool
  cnA : CryptoFindings
  cnB : CryptoFindings
  mastA : CryptoFindings
  mastB : CryptoFindings
  deriving DecidableEq, Repr

/-- A privilege level (14 R358). -/
inductive Level where
  | u | s | m
  deriving DecidableEq, Repr

/-- Who makes a register access (01 R474, 14 R360, 15 R408): a host port through the window, the module's firmware
or Crowsnest, or a mast's control core at a level. -/
inductive Who where
  | host (p : HostPort)
  | crowsnest
  | core (m : MastId) (l : Level)
  deriving DecidableEq, Repr

/-- The register a write names: an address of the register window (01 R18), or an offset of a host function's
own registers (16 R430). -/
inductive RegAddr where
  | window (pa : LocalPA)
  | bar (f : FnId) (off : Nat)
  deriving DecidableEq, Repr

/-! ## Bodies of syllables -/

/-- The M-form body of C and L syllables without OP (02 Table 2-6), its I payload if one follows, and STOP. -/
structure MBody where
  sz : BitVec 2
  sgn : Bool
  mode : BitVec 3
  field : BitVec 16
  ext : Option (BitVec 28)
  stop : Bool
  deriving DecidableEq, Repr

/-- The B-form body without OP (02 Table 2-9a). -/
structure BBody where
  cond : BitVec 4
  off : BitVec 19
  ext : Option (BitVec 28)
  stop : Bool
  deriving DecidableEq, Repr

/-- The V0 body without OP (04 Table 4-2). -/
structure V0Body where
  sc : Bool
  vd : BitVec 5
  vs1 : BitVec 5
  vs2 : BitVec 5
  km : BitVec 3
  fn : BitVec 3
  ext : Option (BitVec 28)
  stop : Bool
  deriving DecidableEq, Repr

/-- The V1 body without OP (04 Table 4-3). -/
structure V1Body where
  vr : BitVec 5
  vi : BitVec 5
  am : BitVec 2
  str : BitVec 2
  km : BitVec 3
  fn : BitVec 5
  ext : Option (BitVec 28)
  stop : Bool
  deriving DecidableEq, Repr

/-- The X body without OP (06 Table 6-3). -/
structure XBody where
  arr : BitVec 2
  q : BitVec 2
  rsv : BitVec 6
  daddr : BitVec 12
  ext : Option (BitVec 28)
  stop : Bool
  deriving DecidableEq, Repr

/-- The S body without OP (08 Table 8-1). -/
structure SBody where
  rsv : BitVec 10
  daddr : BitVec 12
  ext : Option (BitVec 28)
  stop : Bool
  deriving DecidableEq, Repr

/-- The C-slot operations (02 Table 2-7). -/
inductive COp where
  | ld | add | adc | sub | sbc | and | or | xor
  | cmp | tst | shl | shr | sar | rol | min | max
  | minu | maxu | mul | mulu | mac | macu | neg | not
  | sext | clz | popc | movh | mfsr | mtsr
  deriving DecidableEq, Repr

/-- The opcode of each COp in its slot's OP field. -/
def COp.code : COp → Nat
  | .ld => 0x0
  | .add => 0x1
  | .adc => 0x2
  | .sub => 0x3
  | .sbc => 0x4
  | .and => 0x5
  | .or => 0x6
  | .xor => 0x7
  | .cmp => 0x8
  | .tst => 0x9
  | .shl => 0xa
  | .shr => 0xb
  | .sar => 0xc
  | .rol => 0xd
  | .min => 0xe
  | .max => 0xf
  | .minu => 0x10
  | .maxu => 0x11
  | .mul => 0x12
  | .mulu => 0x13
  | .mac => 0x14
  | .macu => 0x15
  | .neg => 0x16
  | .not => 0x17
  | .sext => 0x18
  | .clz => 0x19
  | .popc => 0x1a
  | .movh => 0x1b
  | .mfsr => 0x1c
  | .mtsr => 0x1d

/-- The L-slot operations (02 Table 2-8, 12 Table 12-8). -/
inductive LOp where
  | ldx | ldy | lda | sta | stx | sty | leax | leay
  | push | pop | ldg | stg | post | fence | aadd | aand
  | aor | axor | amin | amax | aminu | amaxu | aswap | acas
  | afadd | radd | rfadd | rmin | rmax
  deriving DecidableEq, Repr

/-- The opcode of each LOp in its slot's OP field. -/
def LOp.code : LOp → Nat
  | .ldx => 0x0
  | .ldy => 0x1
  | .lda => 0x2
  | .sta => 0x3
  | .stx => 0x4
  | .sty => 0x5
  | .leax => 0x6
  | .leay => 0x7
  | .push => 0x8
  | .pop => 0x9
  | .ldg => 0xa
  | .stg => 0xb
  | .post => 0xc
  | .fence => 0xd
  | .aadd => 0x30
  | .aand => 0x31
  | .aor => 0x32
  | .axor => 0x33
  | .amin => 0x34
  | .amax => 0x35
  | .aminu => 0x36
  | .amaxu => 0x37
  | .aswap => 0x38
  | .acas => 0x39
  | .afadd => 0x3a
  | .radd => 0x3b
  | .rfadd => 0x3c
  | .rmin => 0x3d
  | .rmax => 0x3e

/-- The B-slot operations (02 Table 2-9). -/
inductive BOp where
  | br | call | calla | ja | ret | loop | twait | gate
  | rfe | halt | ifence
  deriving DecidableEq, Repr

/-- The opcode of each BOp in its slot's OP field. -/
def BOp.code : BOp → Nat
  | .br => 0x0
  | .call => 0x1
  | .calla => 0x2
  | .ja => 0x3
  | .ret => 0x4
  | .loop => 0x5
  | .twait => 0x6
  | .gate => 0x7
  | .rfe => 0x8
  | .halt => 0xa
  | .ifence => 0xb

/-- The V0-slot operations (04 Table 4-5). -/
inductive V0Op where
  | vfadd | vfsub | vfrsub | vfmul | vfma | vfms | vfdiv | vfsqrt
  | vfmin | vfmax | vfabs | vfneg | vfcmp | vfcvt | vfredsum | vfredmax
  | vfredmin | vadd | vsub | vmul | vmin | vmax | vand | vor
  | vxor | vshl | vshr | vcmp | vredsum | vredmax | vredmin | vmerge
  | vmv | vid | kop | kpop
  deriving DecidableEq, Repr

/-- The opcode of each V0Op in its slot's OP field. -/
def V0Op.code : V0Op → Nat
  | .vfadd => 0x0
  | .vfsub => 0x1
  | .vfrsub => 0x2
  | .vfmul => 0x3
  | .vfma => 0x4
  | .vfms => 0x5
  | .vfdiv => 0x6
  | .vfsqrt => 0x7
  | .vfmin => 0x8
  | .vfmax => 0x9
  | .vfabs => 0xa
  | .vfneg => 0xb
  | .vfcmp => 0xc
  | .vfcvt => 0xd
  | .vfredsum => 0xe
  | .vfredmax => 0xf
  | .vfredmin => 0x10
  | .vadd => 0x11
  | .vsub => 0x12
  | .vmul => 0x13
  | .vmin => 0x14
  | .vmax => 0x15
  | .vand => 0x16
  | .vor => 0x17
  | .vxor => 0x18
  | .vshl => 0x19
  | .vshr => 0x1a
  | .vcmp => 0x1b
  | .vredsum => 0x1c
  | .vredmax => 0x1d
  | .vredmin => 0x1e
  | .vmerge => 0x1f
  | .vmv => 0x20
  | .vid => 0x21
  | .kop => 0x22
  | .kpop => 0x23

/-- The V1-slot operations (04 Table 4-6). -/
inductive V1Op where
  | vsetvl | vld | vst | vlds | vsts | vldx | vstx | vkld
  | vkst | vtbl | vtbl2 | vcompress | vpost | vwait
  deriving DecidableEq, Repr

/-- The opcode of each V1Op in its slot's OP field. -/
def V1Op.code : V1Op → Nat
  | .vsetvl => 0x0
  | .vld => 0x1
  | .vst => 0x2
  | .vlds => 0x3
  | .vsts => 0x4
  | .vldx => 0x5
  | .vstx => 0x6
  | .vkld => 0x7
  | .vkst => 0x8
  | .vtbl => 0x9
  | .vtbl2 => 0xa
  | .vcompress => 0xb
  | .vpost => 0xc
  | .vwait => 0xd

/-- The X-slot operations (06 Table 6-3). -/
inductive XOp where
  | xpass | xbfill | xbdisarm
  deriving DecidableEq, Repr

/-- The opcode of each XOp in its slot's OP field. -/
def XOp.code : XOp → Nat
  | .xpass => 0x0
  | .xbfill => 0x1
  | .xbdisarm => 0x2

/-- The S-slot operations (08 Table 8-1, 11 R293). -/
inductive SOp where
  | srun | hrun
  deriving DecidableEq, Repr

/-- The opcode of each SOp in its slot's OP field. -/
def SOp.code : SOp → Nat
  | .srun => 0x0
  | .hrun => 0x20

/-- An atomic operation or memory reduction on its way to the home (12 R326-R329): which, its size, its operand, the
compare value of ACAS, and the modes of the issuing mast's NUM_CTL. -/
structure AtomReq where
  op : LOp
  dbl : Bool
  val : Word
  cmp : Word
  ovm : Bool
  ftz : Bool
  deriving DecidableEq, Repr

/-- One syllable of a bundle with its slot (02 R55): what the control-core rows carry, kept while a bundle is
put together and in the loop head buffers. -/
inductive Syl where
  | c (op : COp) (b : MBody)
  | l (op : LOp) (b : MBody)
  | v0 (op : V0Op) (b : V0Body)
  | v1 (op : V1Op) (b : V1Body)
  | x (op : XOp) (b : XBody)
  | s (op : SOp) (b : SBody)
  | b (op : BOp) (b : BBody)
  deriving DecidableEq, Repr

/-- The commands the block takes: one constructor per row of the opcode table, in the table's order. -/
inductive Instr where
  | ld (m : MastId) (b : MBody)
  | add (m : MastId) (b : MBody)
  | adc (m : MastId) (b : MBody)
  | sub (m : MastId) (b : MBody)
  | sbc (m : MastId) (b : MBody)
  | and (m : MastId) (b : MBody)
  | or (m : MastId) (b : MBody)
  | xor (m : MastId) (b : MBody)
  | cmp (m : MastId) (b : MBody)
  | tst (m : MastId) (b : MBody)
  | shl (m : MastId) (b : MBody)
  | shr (m : MastId) (b : MBody)
  | sar (m : MastId) (b : MBody)
  | rol (m : MastId) (b : MBody)
  | min (m : MastId) (b : MBody)
  | max (m : MastId) (b : MBody)
  | minu (m : MastId) (b : MBody)
  | maxu (m : MastId) (b : MBody)
  | mul (m : MastId) (b : MBody)
  | mulu (m : MastId) (b : MBody)
  | mac (m : MastId) (b : MBody)
  | macu (m : MastId) (b : MBody)
  | neg (m : MastId) (b : MBody)
  | not (m : MastId) (b : MBody)
  | sext (m : MastId) (b : MBody)
  | clz (m : MastId) (b : MBody)
  | popc (m : MastId) (b : MBody)
  | movh (m : MastId) (b : MBody)
  | mfsr (m : MastId) (b : MBody)
  | mtsr (m : MastId) (b : MBody)
  | ldx (m : MastId) (b : MBody)
  | ldy (m : MastId) (b : MBody)
  | lda (m : MastId) (b : MBody)
  | sta (m : MastId) (b : MBody)
  | stx (m : MastId) (b : MBody)
  | sty (m : MastId) (b : MBody)
  | leax (m : MastId) (b : MBody)
  | leay (m : MastId) (b : MBody)
  | push (m : MastId) (b : MBody)
  | pop (m : MastId) (b : MBody)
  | ldg (m : MastId) (b : MBody)
  | stg (m : MastId) (b : MBody)
  | post (m : MastId) (b : MBody)
  | fence (m : MastId) (b : MBody)
  | aadd (m : MastId) (b : MBody)
  | aand (m : MastId) (b : MBody)
  | aor (m : MastId) (b : MBody)
  | axor (m : MastId) (b : MBody)
  | amin (m : MastId) (b : MBody)
  | amax (m : MastId) (b : MBody)
  | aminu (m : MastId) (b : MBody)
  | amaxu (m : MastId) (b : MBody)
  | aswap (m : MastId) (b : MBody)
  | acas (m : MastId) (b : MBody)
  | afadd (m : MastId) (b : MBody)
  | radd (m : MastId) (b : MBody)
  | rfadd (m : MastId) (b : MBody)
  | rmin (m : MastId) (b : MBody)
  | rmax (m : MastId) (b : MBody)
  | br (m : MastId) (b : BBody)
  | call (m : MastId) (b : BBody)
  | calla (m : MastId) (b : BBody)
  | ja (m : MastId) (b : BBody)
  | ret (m : MastId) (b : BBody)
  | loop (m : MastId) (b : BBody)
  | twait (m : MastId) (b : BBody)
  | gate (m : MastId) (b : BBody)
  | rfe (m : MastId) (b : BBody)
  | halt (m : MastId) (b : BBody)
  | ifence (m : MastId) (b : BBody)
  | vsetvl (m : MastId) (b : V1Body)
  | vfadd (m : MastId) (b : V0Body)
  | vfsub (m : MastId) (b : V0Body)
  | vfrsub (m : MastId) (b : V0Body)
  | vfmul (m : MastId) (b : V0Body)
  | vfma (m : MastId) (b : V0Body)
  | vfms (m : MastId) (b : V0Body)
  | vfdiv (m : MastId) (b : V0Body)
  | vfsqrt (m : MastId) (b : V0Body)
  | vfmin (m : MastId) (b : V0Body)
  | vfmax (m : MastId) (b : V0Body)
  | vfabs (m : MastId) (b : V0Body)
  | vfneg (m : MastId) (b : V0Body)
  | vfcmp (m : MastId) (b : V0Body)
  | vfcvt (m : MastId) (b : V0Body)
  | vfredsum (m : MastId) (b : V0Body)
  | vfredmax (m : MastId) (b : V0Body)
  | vfredmin (m : MastId) (b : V0Body)
  | vadd (m : MastId) (b : V0Body)
  | vsub (m : MastId) (b : V0Body)
  | vmul (m : MastId) (b : V0Body)
  | vmin (m : MastId) (b : V0Body)
  | vmax (m : MastId) (b : V0Body)
  | vand (m : MastId) (b : V0Body)
  | vor (m : MastId) (b : V0Body)
  | vxor (m : MastId) (b : V0Body)
  | vshl (m : MastId) (b : V0Body)
  | vshr (m : MastId) (b : V0Body)
  | vcmp (m : MastId) (b : V0Body)
  | vredsum (m : MastId) (b : V0Body)
  | vredmax (m : MastId) (b : V0Body)
  | vredmin (m : MastId) (b : V0Body)
  | vmerge (m : MastId) (b : V0Body)
  | vmv (m : MastId) (b : V0Body)
  | vid (m : MastId) (b : V0Body)
  | kop (m : MastId) (b : V0Body)
  | kpop (m : MastId) (b : V0Body)
  | vld (m : MastId) (b : V1Body)
  | vst (m : MastId) (b : V1Body)
  | vlds (m : MastId) (b : V1Body)
  | vsts (m : MastId) (b : V1Body)
  | vldx (m : MastId) (b : V1Body)
  | vstx (m : MastId) (b : V1Body)
  | vkld (m : MastId) (b : V1Body)
  | vkst (m : MastId) (b : V1Body)
  | vtbl (m : MastId) (b : V1Body)
  | vtbl2 (m : MastId) (b : V1Body)
  | vcompress (m : MastId) (b : V1Body)
  | vpost (m : MastId) (b : V1Body)
  | vwait (m : MastId) (b : V1Body)
  | vectorLoadReturn (m : MastId) (remote : RemoteData)
  | xpass (m : MastId) (b : XBody)
  | xbfill (m : MastId) (b : XBody)
  | xbdisarm (m : MastId) (b : XBody)
  | passStart (m : MastId) (a : ArrId)
  | kStepWrite (m : MastId) (t : Fin 16)
  | operandRelease (m : MastId) (a : ArrId)
  | repeatStart (m : MastId) (a : ArrId)
  | batchFire (m : MastId) (a : ArrId) (q : Fin 4)
  | fillTimerExpiry (m : MastId) (a : ArrId) (q : Fin 4)
  | fireAssembly (m : MastId) (a : ArrId)
  | batchPassStart (m : MastId) (a : ArrId)
  | srun (m : MastId) (b : SBody)
  | drain (m : MastId)
  | map (m : MastId)
  | ewise (m : MastId)
  | reduce (m : MastId)
  | save (m : MastId)
  | load (m : MastId)
  | bload (m : MastId)
  | softmax (m : MastId)
  | rmsnorm (m : MastId)
  | stats (m : MastId)
  | sheetBeat (m : MastId)
  | rowReply (m : MastId)
  | sheetDescDone (m : MastId)
  | hrun (m : MastId) (b : SBody)
  | copy (m : MastId)
  | skew (m : MastId)
  | tskew (m : MastId)
  | trans (m : MastId)
  | fill (m : MastId)
  | halLineWrite (m : MastId) (ch : Fin 2) (remote : RemoteData)
  | halDescComplete (m : MastId) (ch : Fin 2)
  | tokenPost (addr : BitVec 32) (src : Poster)
  | heldPostLand (slot : SlotId)
  | tokenStallEvent (m : MastId) (e : EngId)
  | reefEntry (m : MastId) (e : EngId)
  | reefWakeDone (m : MastId) (e : EngId)
  | furlEntry (m : MastId)
  | furlWakeDone (m : MastId)
  | multiplyWrite (m : MastId)
  | loadDataReturn (m : MastId) (remote : LoadAnswer)
  | storeWriteSlot (m : MastId)
  | writeAck (m : MastId) (e : AckAnswer)
  | haltComplete (m : MastId)
  | trapEntry (m : TrapWords)
  | walkRequest (m : MastId) (e : EngId) (va : BitVec 56)
  | walkComplete (d : DieId) (asid : BitVec 12) (vpn : BitVec 40)
  | faultRecordWrite (m : MastId) (e : EngId)
  | faultRecordAck (m : MastId) (e : EngId)
  | fqTimeout (m : MastId)
  | boundExceeded (m : MastId) (e : EngId)
  | gets (m : MastId) (line : Line)
  | getm (m : MastId) (line : Line)
  | upg (m : MastId) (line : Line)
  | putm (m : MastId) (line : Line)
  | puto (m : MastId) (line : Line)
  | pute (m : MastId) (line : Line)
  | rdu (r : Requester) (line : Line) (off : Fin 128) (len : Nat)
  | wru (r : Requester) (line : Line) (off : Fin 128) (data : WruData)
  | atom (r : Requester) (line : Line) (off : Fin 128) (op : AtomReq)
  | homeFill (line : Line) (ecc : Ecc)
  | datas (m : MastId) (line : Line)
  | datae (m : MastId) (line : Line)
  | datam (m : MastId) (line : Line)
  | upgack (m : MastId) (line : Line)
  | putack (m : MastId) (line : Line)
  | nack (m : MastId) (line : Line)
  | nackRetry (m : MastId) (line : Line)
  | inv (m : MastId) (line : Line)
  | fwds (m : MastId) (line : Line)
  | fwdm (m : MastId) (line : Line)
  | fwdr (m : MastId) (line : Line)
  | invack (m : MastId) (line : Line)
  | fwddata (m : MastId) (line : Line)
  | hbmWriteTurn (k : Fin 8) (pc : Fin 32)
  | hbmRefresh (k : Fin 8) (pc : Fin 32) (bank : BitVec 8)
  | hbmScrubRead (k : Fin 8) (ecc : Ecc)
  | canvasScrub (m : MastId) (t : Fin 4) (ecc : Ecc)
  | shroudForward (pin : PortId) (pout : PortId) (msg : LinkMsg)
  | replayRequest (r : ReplayReq)
  | laneLockLoss (p : PortId)
  | trainingComplete (p : PortId) (r : TrainResult)
  | plugDetect (p : PortId) (present : Bool)
  | linkLossWindowExpiry (p : PortId)
  | linkLostNotice (p : PortId) (n1 : BitVec 14) (n2 : BitVec 14)
  | fenceNotice (jobid : BitVec 16) (fromFault : Bool)
  | allreduceRun (c : ChanId)
  | reduceRun (c : ChanId)
  | broadcastRun (c : ChanId)
  | channelSegment (c : ChanId) (msg : SegMsg)
  | channelSegmentSend (c : ChanId) (m : MastId)
  | channelCommand (c : ChanId) (m : MastId)
  | channelRunComplete (c : ChanId)
  | jobFaultMessage (m : MastId)
  | nop (r : CmdRef)
  | copyIn (r : CmdRef) (data : List Byte)
  | copyOut (r : CopyOutRun)
  | postCmd (r : CmdRef)
  | invalidate (r : CmdRef)
  | jobLoad (r : CmdRef) (image : List Byte) (param : List Byte)
  | jobStart (r : CmdRef)
  | jobFence (r : CmdRef)
  | jobEnd (r : CmdRef)
  | createSq (r : CmdRef)
  | deleteSq (r : CmdRef)
  | createCq (r : CmdRef)
  | deleteCq (r : CmdRef)
  | grantQids (r : CmdRef)
  | sqFetch (f : FnId) (q : Option (BitVec 20)) (entry : List Byte)
  | commandCompletion (r : CmdRef)
  | doorbell (f : FnId) (v : Word)
  | adminDoorbell (f : FnId) (v : Word)
  | cqDoorbell (f : FnId) (v : Word)
  | hostVerReq (f : FnId) (v : BitVec 16)
  | hostEvtCtl (f : FnId) (v : Word)
  | attentionPulse (h : HostPort)
  | attentionPulseEnd (h : HostPort)
  | busyEnd (h : HostPort)
  | functionLevelReset (f : FnId)
  | hotReset (h : HostPort)
  | portLinkDown (h : HostPort)
  | perstAssert (h : HostPort)
  | portReady (h : HostPort)
  | ccCtlStart (m : MastId)
  | ccCtlStop (m : MastId)
  | ccIrqSet (m : MastId) (v : BitVec 8)
  | tokenCtlClear (m : MastId)
  | vecCtlStop (m : MastId)
  | vecStopped (m : MastId)
  | vecCtlRun (m : MastId)
  | vecCtlDiscard (m : MastId)
  | arrCtlStop (m : MastId) (a : ArrId)
  | arrStopped (m : MastId) (a : ArrId)
  | arrCtlRun (m : MastId) (a : ArrId)
  | arrCtlDiscard (m : MastId) (a : ArrId)
  | sheetCtlStop (m : MastId)
  | sheetStopped (m : MastId)
  | sheetCtlRun (m : MastId)
  | sheetCtlDiscard (m : MastId)
  | halCtlStop (m : MastId)
  | halStopped (m : MastId)
  | halCtlRun (m : MastId)
  | halCtlDiscard (m : MastId)
  | dcCtlFlush (m : MastId)
  | scCtlFlush (d : DieId) (k : Fin 64)
  | scFlushDone (d : DieId) (k : Fin 64)
  | fqBaseWrite (m : MastId) (v : Word)
  | fqHeadWrite (m : MastId) (v : Word)
  | xlInvCmd (v : Word)
  | invApply
  | invComplete
  | shrPctlRetrain (p : PortId)
  | shrJctlFence (j : JobSlot)
  | rcCtlDiscard (c : ChanId)
  | snapCtlReq
  | snapshotToken (u : SnapUnit)
  | snapMarker (n : Fin 128) (inp : Fin 6) (k : Fin 3) (infl : BitVec 16)
  | pwrTrimReq (v : BitVec 2)
  | trimApply (u : TrimUnit)
  | trimChangeDone
  | governorWindow (vin : BitVec 16) (iin : BitVec 16) (pin : BitVec 16)
  | thermalReading (tmax : BitVec 8)
  | vinLow
  | standbyLoss
  | vinHigh
  | iinHigh
  | iinTrip
  | prechargeDone
  | prechargeTimeout
  | aoResetExit (b : BootInput)
  | strikeButtonPress
  | forcedStrike
  | drainTimeout
  | drainComplete
  | leverOpen
  | leverClose
  | locateTouch
  | locateTimeout
  | strike
  | unstrike
  | locate
  | locateOff
  | fwCtlBegin
  | fwCtlFinish (c : CryptoFindings)
  | fwCtlAbort
  | fwCtlCommit
  | modRstGo (b : BootInput)
  | attCtlReq
  | attestationRequest (nonce : List Byte)
  | attReportDone (sig : List Byte)
  | nodeRecordWrite (node : BitVec 14) (cfg : Word)
  | registerWrite (who : Who) (addr : RegAddr) (size : Nat) (v : Word)
  | cmpMessage (m : MastId) (line : Line)
  deriving DecidableEq, Repr

end Sys2Proof
end

