-- ==== Sys2Proof/Machine/Bits.lean ====
section
/-!
DEFINITION. Bit fields, sign extension, byte order and integer helpers used by every block (00 R8: bit 0 is the
least significant bit and the device is little-endian).
-/

namespace Sys2Proof.Machine

/-- The field of `w` bits from bit `lo` of `n`. -/
def fld (n lo w : Nat) : Nat := n / 2 ^ lo % 2 ^ w

/-- The field of `w` bits from bit `lo` of a word. -/
def wfld (v : Word) (lo w : Nat) : Nat := fld v.toNat lo w

/-- Bit `i` of a word. -/
def wbit (v : Word) (i : Nat) : Bool := v.getLsbD i

/-- A Boolean as 0 or 1. -/
def b2n (b : Bool) : Nat := if b then 1 else 0

/-- The signed value of the low `w` bits of `n`. -/
def signedOf (w n : Nat) : Int :=
  let k := n % 2 ^ w
  if w = 0 then 0 else if k < 2 ^ (w - 1) then Int.ofNat k else Int.ofNat k - Int.ofNat (2 ^ w)

/-- An integer modulo 2^w, as a natural number. -/
def wrapInt (w : Nat) (z : Int) : Nat := (z % (2 ^ w : Int)).toNat

/-- Sign-extend the low `w` bits of `n` to 64 bits. -/
def sext64 (w n : Nat) : Word := BitVec.ofNat 64 (wrapInt 64 (signedOf w n))

/-- The little-endian bytes of a number, `n` of them. -/
def toBytes : Nat → Nat → List Byte
  | 0, _ => []
  | n + 1, v => BitVec.ofNat 8 v :: toBytes n (v / 256)

/-- The number that little-endian bytes spell. -/
def ofBytes : List Byte → Nat
  | [] => 0
  | b :: bs => b.toNat + 256 * ofBytes bs

/-- ⌈a / b⌉, 0 for b = 0. -/
def cdiv (a b : Nat) : Nat := if b = 0 then 0 else (a + b - 1) / b

/-- The index of the highest 1 bit (0 for 0). -/
def ilog2 (n : Nat) : Nat := Nat.log2 n

/-- ⌈log2 n⌉ for n ≥ 1. -/
def clog2 (n : Nat) : Nat := if n ≤ 1 then 0 else Nat.log2 (n - 1) + 1

/-- The number of 1 bits among the low `w` bits. -/
def popcount (w n : Nat) : Nat := (List.range w).foldl (fun a i => a + n / 2 ^ i % 2) 0

/-- The number of 0 bits below the lowest 1 bit of a number of `w` bits; `w` for 0. -/
def ctz (w n : Nat) : Nat := (List.range w).foldr (fun i a => if n / 2 ^ i % 2 = 1 then i else a) w

/-- Whether a natural number of bytes is a multiple of `k` (every `k` ≥ 1). -/
def aligned (a k : Nat) : Bool := a % k = 0

/-- Bits [31:0] or [63:32] of `old` replaced by the 32-bit value `v`. -/
def half32 (old : Word) (hi : Bool) (v : Nat) : Word :=
  if hi then BitVec.ofNat 64 (old.toNat % 2 ^ 32 + v % 2 ^ 32 * 2 ^ 32)
  else BitVec.ofNat 64 (old.toNat / 2 ^ 32 * 2 ^ 32 + v % 2 ^ 32)

/-- Saturating count of a field of `w` bits. -/
def satInc (w n : Nat) : Nat := if n + 1 < 2 ^ w then n + 1 else 2 ^ w - 1

/-- A word `i` of a 64-byte descriptor. -/
def dword (d : Desc) (i : Nat) : Nat := d.toNat / 2 ^ (64 * i) % 2 ^ 64

/-- A field of word `i` of a descriptor. -/
def dfld (d : Desc) (i lo w : Nat) : Nat := fld (dword d i) lo w

/-- Bit `b` of word `i` of a descriptor. -/
def dbit (d : Desc) (i b : Nat) : Bool := dfld d i b 1 = 1

/-- Replace element `i` of a list; a list that is too short is unchanged. -/
def listSet {α : Type} : List α → Nat → α → List α
  | [], _, _ => []
  | _ :: xs, 0, y => y :: xs
  | x :: xs, n + 1, y => x :: listSet xs n y

/-- Remove the first element that satisfies `p`, and give it. -/
def takeFirst {α : Type} (p : α → Bool) : List α → Option (α × List α)
  | [] => none
  | x :: xs => if p x then some (x, xs) else
    match takeFirst p xs with
    | none => none
    | some (y, ys) => some (y, x :: ys)

/-- Replace the first element that satisfies `p` by its image. -/
def updFirst {α : Type} (p : α → Bool) (f : α → α) : List α → List α
  | [] => []
  | x :: xs => if p x then f x :: xs else x :: updFirst p f xs

/-- Every element of a finite type of `n` numbers, in increasing order. -/
def fins (n : Nat) : List (Fin n) := List.finRange n

/-- Fold over every number below `n`, in increasing order. -/
def forUpTo {α : Type} (n : Nat) (f : Nat → α → α) (a : α) : α := (List.range n).foldl (fun x i => f i x) a

end Sys2Proof.Machine
end

