-- ==== Sys2Proof/Machine/Flt.lean ====
section
/-!
DEFINITION. Number formats and conversions (chapter 05): exact dyadic values, the two-stage rounding of R140, and
the operations every engine shares. A result is computed exactly and narrowed once.
-/

namespace Sys2Proof.Machine

/-- A float format (05 Table 5-1): width, significand bits M, bias; `e4m3` marks the format without infinity. -/
structure FFmt where
  w : Nat
  mb : Nat
  bias : Nat
  e4m3 : Bool
  deriving DecidableEq, Repr

def fp64 : FFmt := ⟨64, 52, 1023, false⟩
def fp32 : FFmt := ⟨32, 23, 127, false⟩
def bf16 : FFmt := ⟨16, 7, 127, false⟩
def fp16 : FFmt := ⟨16, 10, 15, false⟩
def fe5m2 : FFmt := ⟨8, 2, 15, false⟩
def fe4m3 : FFmt := ⟨8, 3, 7, true⟩

/-- The sticky flags of 05 Table 5-6. -/
structure NF where
  iv : Bool := false
  dz : Bool := false
  ov : Bool := false
  uf : Bool := false
  ix : Bool := false
  fz : Bool := false
  si : Bool := false
  deriving DecidableEq, Repr

/-- Both sets of flags. -/
def NF.or (a b : NF) : NF :=
  ⟨a.iv || b.iv, a.dz || b.dz, a.ov || b.ov, a.uf || b.uf, a.ix || b.ix, a.fz || b.fz, a.si || b.si⟩

/-- The flags as the seven bits of a group of NUM_FLAGS, IV lowest (05 Table 5-11). -/
def NF.toNat (a : NF) : Nat :=
  b2n a.iv + 2 * b2n a.dz + 4 * b2n a.ov + 8 * b2n a.uf + 16 * b2n a.ix + 32 * b2n a.fz + 64 * b2n a.si

/-- The number of exponent bits. -/
def FFmt.eb (f : FFmt) : Nat := f.w - 1 - f.mb
/-- The largest biased exponent of a finite number. -/
def FFmt.emaxB (f : FFmt) : Nat := if f.e4m3 then 2 ^ f.eb - 1 else 2 ^ f.eb - 2
/-- The exponent of the smallest normal number. -/
def FFmt.emin (f : FFmt) : Int := 1 - (f.bias : Int)
/-- The sign bit. -/
def FFmt.signBit (f : FFmt) (n : Nat) : Bool := n / 2 ^ (f.w - 1) % 2 = 1
/-- Put a sign on an encoding without one. -/
def FFmt.withSign (f : FFmt) (s : Bool) (n : Nat) : Nat := if s then n + 2 ^ (f.w - 1) else n
/-- The encoding of the largest finite value. -/
def FFmt.maxFin (f : FFmt) : Nat :=
  if f.e4m3 then 2 ^ (f.w - 1) - 2 else (2 ^ f.eb - 1) * 2 ^ f.mb - 1
/-- The encoding of +infinity (formats that have one). -/
def FFmt.inf (f : FFmt) : Nat := (2 ^ f.eb - 1) * 2 ^ f.mb
/-- The default NaN (05 Table 5-1). -/
def FFmt.nan (f : FFmt) : Nat := if f.e4m3 then 2 ^ (f.w - 1) - 1 else f.inf + 2 ^ (f.mb - 1)

/-- A decoded value: a finite nonzero value is (−1)^s × m × 2^e with m ≠ 0. `nan true` is signalling. -/
inductive FVal where
  | zero (s : Bool)
  | fin (s : Bool) (m : Nat) (e : Int)
  | inf (s : Bool)
  | nan (sig : Bool)
  deriving DecidableEq, Repr

/-- An encoding is subnormal. -/
def FFmt.isSub (f : FFmt) (n : Nat) : Bool := fld n f.mb f.eb = 0 && fld n 0 f.mb ≠ 0

/-- Decode an encoding (R131, R132). -/
def FFmt.decode (f : FFmt) (n : Nat) : FVal :=
  let s := f.signBit n
  let e := fld n f.mb f.eb
  let m := fld n 0 f.mb
  if e = 0 then (if m = 0 then .zero s else .fin s m (f.emin - f.mb))
  else if f.e4m3 then
    if e = 2 ^ f.eb - 1 ∧ m = 2 ^ f.mb - 1 then .nan false
    else .fin s (2 ^ f.mb + m) ((e : Int) - f.bias - f.mb)
  else if e = 2 ^ f.eb - 1 then
    if m = 0 then .inf s else .nan (decide (m < 2 ^ (f.mb - 1)))
  else .fin s (2 ^ f.mb + m) ((e : Int) - f.bias - f.mb)

/-- Take an operand under FTZ (R144): a subnormal becomes zero of its sign and FZ is set. -/
def FFmt.take (f : FFmt) (ftz : Bool) (n : Nat) : FVal × NF :=
  if ftz && f.isSub n then (.zero (f.signBit n), { fz := true }) else (f.decode n, {})

/-- A magnitude shifted right by `k` with round to nearest, ties to even; `sticky` says that a part below was cut
off before. Gives the rounded value and whether it is inexact. -/
def rneShift (m k : Nat) (sticky : Bool) : Nat × Bool :=
  if k = 0 then (m, sticky)
  else
    let q := m / 2 ^ k
    let r := m % 2 ^ k
    let h := 2 ^ (k - 1)
    let up := decide (r > h) || (decide (r = h) && (sticky || decide (q % 2 = 1)))
    (if up then q + 1 else q, sticky || decide (r ≠ 0))

/-- Round (m + δ) × 2^e to a multiple of 2^t, ties to even: the multiple, and whether inexact. -/
def rneTo (m : Nat) (e t : Int) (sticky : Bool) : Nat × Bool :=
  if t ≤ e then (m * 2 ^ (e - t).toNat, sticky)
  else rneShift m (t - e).toNat sticky

/-- m1 × 2^e1 ≤ m2 × 2^e2. -/
def dyLe (m1 : Nat) (e1 : Int) (m2 : Nat) (e2 : Int) : Bool :=
  if e1 ≤ e2 then decide (m1 ≤ m2 * 2 ^ (e2 - e1).toNat) else decide (m1 * 2 ^ (e1 - e2).toNat ≤ m2)

/-- The result of arithmetic before it is narrowed: exact, or exact apart from a cut-off part (`sticky`). -/
inductive XVal where
  | zero (s : Bool)
  | fin (s : Bool) (m : Nat) (e : Int) (sticky : Bool)
  | inf (s : Bool)
  | nan
  deriving DecidableEq, Repr

/-- Deliver a finite nonzero result (R140, R141, R145). -/
def FFmt.roundFin (f : FFmt) (ovm ftz s : Bool) (m : Nat) (e : Int) (sticky : Bool) : Nat × NF :=
  let p := f.mb + 1
  let l := Nat.log2 m
  let k := l + 1 - p
  let r1 := rneShift m k sticky
  let q := r1.1
  let e' := e + k
  let ex := (Nat.log2 q : Int) + e'
  let mx := f.decode f.maxFin
  let large := match mx with
    | .fin _ mm me => !dyLe q e' mm me
    | _ => false
  if large then
    (if ovm then (if f.e4m3 then f.nan else f.withSign s f.inf) else f.withSign s f.maxFin, { ov := true, ix := true })
  else if ex < f.emin then
    if ftz then (f.withSign s 0, { uf := true, ix := true, fz := true })
    else
      let r2 := rneTo m e (f.emin - f.mb) sticky
      (f.withSign s r2.1, { uf := r2.2, ix := r2.2 })
  else
    -- q × 2^e' with exponent ex: make the significand p bits long
    let sig := q * 2 ^ f.mb / 2 ^ Nat.log2 q
    (f.withSign s (((ex + f.bias).toNat - 1) * 2 ^ f.mb + sig), { ix := r1.2 })

/-- Deliver a result. An infinity in a format without one is, in saturate mode, the largest finite value, and
otherwise the default NaN, with OV and IX (Table 5-7). -/
def FFmt.deliver (f : FFmt) (ovm ftz : Bool) : XVal → Nat × NF
  | .zero s => (f.withSign s 0, {})
  | .nan => (f.nan, {})
  | .inf s => if f.e4m3 then (if ovm then f.nan else f.withSign s f.maxFin, { ov := true, ix := true })
              else (f.withSign s f.inf, {})
  | .fin s m e st => if m = 0 then (f.withSign s 0, { ix := st }) else f.roundFin ovm ftz s m e st

/-- A decoded value that is no NaN, as a result. -/
def FVal.toX : FVal → XVal
  | .zero s => .zero s
  | .fin s m e => .fin s m e false
  | .inf s => .inf s
  | .nan _ => .nan

/-- Whether a value is a signalling NaN. -/
def FVal.isSig : FVal → Bool
  | .nan true => true
  | _ => false

/-- Whether a value is a NaN. -/
def FVal.isNan : FVal → Bool
  | .nan _ => true
  | _ => false

/-- The sign of a value (false for NaNs). -/
def FVal.sign : FVal → Bool
  | .zero s => s
  | .fin s _ _ => s
  | .inf s => s
  | .nan _ => false

/-- The value with the opposite sign. -/
def FVal.neg : FVal → FVal
  | .zero s => .zero !s
  | .fin s m e => .fin (!s) m e
  | .inf s => .inf !s
  | .nan b => .nan b

/-- A signed dyadic number z × 2^e as a result; an exact zero takes the sign `zs`. -/
def xOfInt (z : Int) (e : Int) (zs : Bool) : XVal :=
  if z = 0 then .zero zs else .fin (decide (z < 0)) z.natAbs e false

/-- The signed integer of a sign and a magnitude. -/
def sgnInt (s : Bool) (m : Nat) : Int := if s then -(m : Int) else (m : Int)

/-- Exact sum of two finite dyadic numbers; an exact zero sum of opposite signs is +0 (R147). -/
def addFin (s1 : Bool) (m1 : Nat) (e1 : Int) (s2 : Bool) (m2 : Nat) (e2 : Int) : XVal :=
  let e := if e1 ≤ e2 then e1 else e2
  xOfInt (sgnInt s1 (m1 * 2 ^ (e1 - e).toNat) + sgnInt s2 (m2 * 2 ^ (e2 - e).toNat)) e false

/-- Sum (R142, R147); the second component is IV. -/
def FVal.add (a b : FVal) : XVal × Bool :=
  if a.isNan || b.isNan then (.nan, a.isSig || b.isSig)
  else match a, b with
  | .inf s, .inf t => if s = t then (.inf s, false) else (.nan, true)
  | .inf s, _ => (.inf s, false)
  | _, .inf t => (.inf t, false)
  | .zero s, .zero t => (.zero (s && t), false)
  | .zero _, v => (v.toX, false)
  | v, .zero _ => (v.toX, false)
  | .fin s1 m1 e1, .fin s2 m2 e2 => (addFin s1 m1 e1 s2 m2 e2, false)
  | _, _ => (.nan, false)

/-- Product. -/
def FVal.mul (a b : FVal) : XVal × Bool :=
  if a.isNan || b.isNan then (.nan, a.isSig || b.isSig)
  else
    let s := a.sign != b.sign
    match a, b with
    | .inf _, .zero _ => (.nan, true)
    | .zero _, .inf _ => (.nan, true)
    | .inf _, _ => (.inf s, false)
    | _, .inf _ => (.inf s, false)
    | .zero _, _ => (.zero s, false)
    | _, .zero _ => (.zero s, false)
    | .fin _ m1 e1, .fin _ m2 e2 => (.fin s (m1 * m2) (e1 + e2) false, false)
    | _, _ => (.nan, false)

/-- c + a × b with one rounding. A product 0 × ∞ is invalid even beside a quiet NaN addend (R142). -/
def FVal.fma (a b c : FVal) : XVal × Bool :=
  let bad := match a, b with
    | .inf _, .zero _ => true
    | .zero _, .inf _ => true
    | _, _ => false
  if bad then (.nan, true)
  else if a.isNan || b.isNan || c.isNan then (.nan, a.isSig || b.isSig || c.isSig)
  else match (a.mul b).1, c with
    | .inf s, .inf t => if s = t then (.inf s, false) else (.nan, true)
    | .inf s, _ => (.inf s, false)
    | _, .inf t => (.inf t, false)
    | .zero s, .zero t => (.zero (s && t), false)
    | .zero _, v => (v.toX, false)
    | x, .zero _ => (x, false)
    | .fin s1 m1 e1 _, .fin s2 m2 e2 => (addFin s1 m1 e1 s2 m2 e2, false)
    | _, _ => (.nan, false)

/-- Quotient a / b, with IV and DZ. -/
def FVal.div (a b : FVal) : XVal × Bool × Bool :=
  if a.isNan || b.isNan then (.nan, a.isSig || b.isSig, false)
  else
    let s := a.sign != b.sign
    match a, b with
    | .inf _, .inf _ => (.nan, true, false)
    | .zero _, .zero _ => (.nan, true, false)
    | .inf _, _ => (.inf s, false, false)
    | _, .inf _ => (.zero s, false, false)
    | .zero _, _ => (.zero s, false, false)
    | .fin _ _ _, .zero _ => (.inf s, false, true)
    | .fin _ m1 e1, .fin _ m2 e2 =>
      let k := 64 + Nat.log2 m2
      (.fin s (m1 * 2 ^ k / m2) (e1 - e2 - k) (decide (m1 * 2 ^ k % m2 ≠ 0)), false, false)
    | _, _ => (.nan, false, false)

/-- The integer square root, bit by bit from 2^k downward. -/
def isqrtGo (n : Nat) : Nat → Nat → Nat
  | 0, r => r
  | k + 1, r => let t := r + 2 ^ k; isqrtGo n k (if t * t ≤ n then t else r)

/-- The integer square root. -/
def isqrt (n : Nat) : Nat := isqrtGo n (Nat.log2 n / 2 + 1) 0

/-- Square root. -/
def FVal.sqrt (a : FVal) : XVal × Bool :=
  match a with
  | .nan g => (.nan, g)
  | .zero s => (.zero s, false)
  | .inf s => if s then (.nan, true) else (.inf false, false)
  | .fin s m e =>
    if s then (.nan, true)
    else
      let odd := e % 2 ≠ 0
      let m' := (if odd then 2 * m else m) * 2 ^ 130
      let e' := (if odd then e - 1 else e) - 130
      let r := isqrt m'
      (.fin false r (e' / 2) (decide (r * r ≠ m')), false)

/-- Three-way comparison of two values that are no NaNs: -0 equals +0 (R148). -/
def FVal.cmp (a b : FVal) : Ordering :=
  let toZ : FVal → FVal → Int × Int := fun p q =>
    match p, q with
    | .fin s1 m1 e1, .fin s2 m2 e2 =>
      let e := if e1 ≤ e2 then e1 else e2
      (sgnInt s1 (m1 * 2 ^ (e1 - e).toNat), sgnInt s2 (m2 * 2 ^ (e2 - e).toNat))
    | .fin s _ _, .inf t => (sgnInt s 1, sgnInt t 2)
    | .inf s, .fin t _ _ => (sgnInt s 2, sgnInt t 1)
    | .inf s, .inf t => (sgnInt s 2, sgnInt t 2)
    | .fin s _ _, _ => (sgnInt s 1, 0)
    | .inf s, _ => (sgnInt s 1, 0)
    | _, .fin t _ _ => (0, sgnInt t 1)
    | _, .inf t => (0, sgnInt t 1)
    | _, _ => (0, 0)
  compare (toZ a b).1 (toZ a b).2

/-- minimumNumber or maximumNumber of two encodings (R148): -0 below +0; a single NaN gives the other operand. -/
def FFmt.minmax (f : FFmt) (ftz isMax : Bool) (a b : Nat) : Nat × NF :=
  let (va, fa) := f.take ftz a
  let (vb, fb) := f.take ftz b
  let enc : FVal → Nat → Nat := fun v n => match v with
    | .zero s => f.withSign s 0
    | _ => n
  let fl := (fa.or fb).or { iv := va.isSig || vb.isSig }
  if va.isNan && vb.isNan then (f.nan, fl)
  else if va.isNan then (enc vb b, fl)
  else if vb.isNan then (enc va a, fl)
  else
    let aLess := match va.cmp vb with
      | .lt => true
      | .gt => false
      | .eq => va.sign && !vb.sign
    (if aLess != isMax then enc va a else enc vb b, fl)

/-- The value of an integer. -/
def fOfInt (z : Int) : FVal := if z = 0 then .zero false else .fin (decide (z < 0)) z.natAbs 0

/-- Convert a value to an integer of width w (Table 5-7), giving its bits. -/
def FVal.toIntBits (v : FVal) (w : Nat) (signed : Bool) : Nat × NF :=
  let lo : Int := if signed then -(2 ^ (w - 1) : Int) else 0
  let hi : Int := if signed then (2 ^ (w - 1) : Int) - 1 else (2 ^ w : Int) - 1
  match v with
  | .nan _ => (0, { iv := true })
  | .zero _ => (0, {})
  | .inf s => (wrapInt w (if s then lo else hi), { ov := true, ix := true })
  | .fin s m e =>
    let r := rneTo m e 0 false
    let z := sgnInt s r.1
    if z < lo then (wrapInt w lo, { ov := true, ix := true })
    else if z > hi then (wrapInt w hi, { ov := true, ix := true })
    else (wrapInt w z, { ix := r.2 })

/-- A source or target of a conversion: a float format or an integer. -/
inductive NFmt where
  | flt (f : FFmt)
  | int (w : Nat) (signed : Bool)
  deriving DecidableEq, Repr

/-- The width of a format in bits. -/
def NFmt.width : NFmt → Nat
  | .flt f => f.w
  | .int w _ => w

/-- Take a value of a format as an operand, with the flags of the take. -/
def NFmt.take (n : NFmt) (ftz : Bool) (v : Nat) : FVal × NF :=
  match n with
  | .flt f => f.take ftz v
  | .int w sg => (fOfInt (if sg then signedOf w v else (v % 2 ^ w : Nat)), {})

/-- Deliver a value into a format. A NaN sets IV when it is signalling, or when the target is an integer. -/
def NFmt.put (n : NFmt) (ovm ftz : Bool) (v : FVal) : Nat × NF :=
  match n with
  | .flt f => let r := f.deliver ovm ftz v.toX; (r.1, r.2.or { iv := v.isSig })
  | .int w sg => v.toIntBits w sg

/-- Convert an encoding (R149). -/
def convert (src dst : NFmt) (ovm ftz : Bool) (n : Nat) : Nat × NF :=
  let (v, f1) := src.take ftz n
  let (r, f2) := dst.put ovm ftz v
  (r, f1.or f2)

/-- The value of a result that is exact (used where an engine keeps a result unrounded). -/
def XVal.toF : XVal → FVal
  | .zero s => .zero s
  | .fin s m e _ => if m = 0 then .zero s else .fin s m e
  | .inf s => .inf s
  | .nan => .nan false

/-- An addition of two encodings of one format. -/
def FFmt.addE (f : FFmt) (ovm ftz : Bool) (a b : Nat) : Nat × NF :=
  let (va, fa) := f.take ftz a
  let (vb, fb) := f.take ftz b
  let (x, iv) := va.add vb
  let (r, fr) := f.deliver ovm ftz x
  (r, ((fa.or fb).or fr).or { iv := iv })

/-- A product of two encodings of one format. -/
def FFmt.mulE (f : FFmt) (ovm ftz : Bool) (a b : Nat) : Nat × NF :=
  let (va, fa) := f.take ftz a
  let (vb, fb) := f.take ftz b
  let (x, iv) := va.mul vb
  let (r, fr) := f.deliver ovm ftz x
  (r, ((fa.or fb).or fr).or { iv := iv })

/-- c + a × b of three encodings of one format with one rounding; `neg` subtracts the product. -/
def FFmt.fmaE (f : FFmt) (ovm ftz neg : Bool) (a b c : Nat) : Nat × NF :=
  let (va, fa) := f.take ftz a
  let (vb, fb) := f.take ftz b
  let (vc, fc) := f.take ftz c
  let (x, iv) := (if neg then va.neg else va).fma vb vc
  let (r, fr) := f.deliver ovm ftz x
  (r, (((fa.or fb).or fc).or fr).or { iv := iv })

/-- A quotient a / b. -/
def FFmt.divE (f : FFmt) (ovm ftz : Bool) (a b : Nat) : Nat × NF :=
  let (va, fa) := f.take ftz a
  let (vb, fb) := f.take ftz b
  let (x, iv, dz) := va.div vb
  let (r, fr) := f.deliver ovm ftz x
  (r, ((fa.or fb).or fr).or { iv := iv, dz := dz })

/-- A square root. -/
def FFmt.sqrtE (f : FFmt) (ovm ftz : Bool) (a : Nat) : Nat × NF :=
  let (va, fa) := f.take ftz a
  let (x, iv) := va.sqrt
  let (r, fr) := f.deliver ovm ftz x
  (r, (fa.or fr).or { iv := iv })

end Sys2Proof.Machine
end

