-- ==== Sys2Proof/Machine/Mem.lean ====
section
/-!
DEFINITION. Memories as lists of (address, value) pairs in one canonical form: addresses strictly rising and no
entry equal to what an unlisted address reads as, which is zero (log entry 2). A byte memory holds 8-bit values; a
table of counting fields or of opaque words holds 64-bit values. Wider accesses are built here from the smallest
unit, little-endian (00 R8).
-/

namespace Sys2Proof.Machine

/-- Values of `w` bits by address; an address not listed reads as zero. -/
abbrev Sparse (w : Nat) := List (Nat × BitVec w)

/-- A byte memory. -/
abbrev Mem := Sparse 8

/-- A table of 64-bit words. -/
abbrev Tab := Sparse 64

/-- What an unlisted address reads as. -/
abbrev Sparse.blank (w : Nat) : BitVec w := 0#w

/-- Read one value. -/
def Sparse.get {w : Nat} : Sparse w → Nat → BitVec w
  | [], _ => Sparse.blank w
  | (k, v) :: t, a => if a = k then v else Sparse.get t a

/-- Write one value: the list stays in canonical form, and writing the blank value removes the entry. -/
def Sparse.set {w : Nat} : Sparse w → Nat → BitVec w → Sparse w
  | [], a, v => if v = Sparse.blank w then [] else [(a, v)]
  | (k, x) :: t, a, v =>
    if a < k then (if v = Sparse.blank w then (k, x) :: t else (a, v) :: (k, x) :: t)
    else if a = k then (if v = Sparse.blank w then t else (a, v) :: t)
    else (k, x) :: Sparse.set t a v

/-- Every address of the list is above `a`. -/
def Sparse.above {w : Nat} (a : Nat) : Sparse w → Bool
  | [] => true
  | (k, _) :: t => decide (a < k) && Sparse.above a t

/-- The canonical form. -/
def Sparse.wf {w : Nat} : Sparse w → Bool
  | [] => true
  | (k, v) :: t => decide (v ≠ Sparse.blank w) && Sparse.above k t && Sparse.wf t

/-- Read `n` bytes from `a` upward. -/
def Mem.bytes (m : Mem) (a : Nat) : Nat → List Byte
  | 0 => []
  | n + 1 => Sparse.get m a :: Mem.bytes m (a + 1) n

/-- Write bytes from `a` upward. -/
def Mem.put (m : Mem) (a : Nat) : List Byte → Mem
  | [] => m
  | b :: bs => Mem.put (Sparse.set m a b) (a + 1) bs

/-- Read an `n`-byte little-endian number. -/
def Mem.load (m : Mem) (a n : Nat) : Nat := ofBytes (Mem.bytes m a n)

/-- Write an `n`-byte little-endian number. -/
def Mem.store (m : Mem) (a n v : Nat) : Mem := Mem.put m a (toBytes n v)

/-- Remove every listed address in [a, a + n): those addresses then read as zero. -/
def Sparse.erase {w : Nat} (m : Sparse w) (a n : Nat) : Sparse w :=
  m.filter fun e => decide (e.1 < a ∨ a + n ≤ e.1)

/-- Add 1 to a 64-bit entry, wrapping. -/
def Tab.inc (t : Tab) (a : Nat) : Tab := Sparse.set t a (Sparse.get t a + 1)

/-- Add `n` to a 64-bit entry, wrapping. -/
def Tab.add (t : Tab) (a n : Nat) : Tab := Sparse.set t a (Sparse.get t a + BitVec.ofNat 64 n)

/-- The shadow set after a copy of the counting fields at the offsets that `p` picks (17 R443). -/
def Tab.copied (cnt shadow : Tab) (p : Nat → Bool) : Tab :=
  (cnt.filter fun e => p e.1).foldl (fun t e => Sparse.set t e.1 e.2) (shadow.filter fun e => !p e.1)

end Sys2Proof.Machine
end

