-- ==== Sys2Proof/Machine/CoreState.lean ====
section
/-!
DEFINITION. The state of one mast's control core, its data cache, its translation and its long-vector unit, and
the state of the homes and of the walkers (chapters 01 to 05 and 12 to 14). Plain data throughout.
-/

namespace Sys2Proof.Machine

/-! ## The control core (02, 03, 14) -/

/-- An STA to a loop register that the loop-end tests do not yet use (02 R75): register code 8 to 16, the value,
and how many more cc of issue must pass. -/
structure LoopWrite where
  code : Nat
  val : BitVec 32
  age : Nat
  deriving DecidableEq, Repr

/-- The registers of one shadow bank (02 Table 2-1, 04 R105) and its loop head buffers (03 R97). `arm` counts, for each level, the cc until its
end bundle may issue for the first time (03 R98), and `aDue` the cc until the A of a load of exact latency that has returned can be used (03 Table 3-4). -/
structure CoreBank where
  a : Word
  x : Word
  y : Word
  sp : Word
  pl : Word
  ph : Word
  flags : Word
  ls : Vector (BitVec 17) 3
  le : Vector (BitVec 17) 3
  lc : Vector (BitVec 32) 3
  vl : Word
  vtype : Word
  heads : Vector (List Syl) 3
  arm : Vector Nat 3
  loopWrites : List LoopWrite
  aDue : Nat
  deriving DecidableEq, Repr

/-- The system registers that banks 1, 2 and 3 hold each (14 R359); bank 0 holds none, and its copy is never used. -/
structure SysBank where
  cause : Word
  epc : Word
  estatus : Word
  tvec : Word
  tval : Word
  scratch : Word
  deriving DecidableEq, Repr

/-- A multiply that has not yet written PL and PH (02 R65-R68): the cc of its bank that are left until bundles read the product. `frozen` counts the traps
into its own bank that its code has not returned from: while it is not 0, no cc counts. -/
structure MulPend where
  bank : Fin 4
  acc : Bool
  prod : BitVec 128
  left : Nat
  frozen : Nat
  deriving DecidableEq, Repr

/-- Where a part of a global load finds its bytes. -/
inductive LoadSrc where
  | ready (data : List Byte)     -- a cache hit, a forward, or data that has arrived
  | line                         -- a cacheable HBM line that has been requested
  | canvas                       -- a canvas line of the module
  | canvasUc                     -- canvas mapped uncached
  | register                     -- the register window
  | got (data : List Byte) (bad : Bool)   -- sampled at its tier or register block, on its way back (01 R474)
  | gotLine (data : List Byte) (line : BitVec 1024) (bad : Bool)   -- the same of a canvas line that will be installed
  | rdu                          -- an uncached read of a home of this module
  | atom                         -- the result of an Atom at a home of this module
  | remote                       -- a read or an Atom on another module
  deriving DecidableEq, Repr

/-- One part of a global load: all of it, or one half of a split access (03 R93). -/
structure LoadPart where
  pa : BitVec 52
  n : Nat
  src : LoadSrc
  deriving DecidableEq, Repr

/-- A global load or an atomic that has issued and not written A (03 R87, R88); `seq` is its place in the order of issue, and `left` the cc until bundles
can use its A where 03 Table 3-4 makes them exact (log entry 73). -/
structure LoadPend where
  bank : Fin 4
  level : BitVec 2
  size : Nat
  sgn : Bool
  seq : Nat
  left : Option Nat
  parts : List LoadPart
  deriving DecidableEq, Repr

/-- A store of the store buffer (03 R89). `seq` orders stores and posts of one core (01 R37). -/
structure StoreEnt where
  pa : BitVec 52
  data : List Byte
  wp : BitVec 2
  level : BitVec 2
  seq : Nat
  deriving DecidableEq, Repr

/-- Where a write-queue entry stands (12 R308). -/
inductive WqState where
  | queued      -- behind another request for its line
  | requested   -- its request, or its write to canvas or to a register, is on its way
  | performed   -- performed, its acknowledgement not yet arrived
  deriving DecidableEq, Repr

/-- A store or a memory reduction in the write queue (12 R308, R329). -/
structure WqEnt where
  pa : BitVec 52
  data : List Byte
  wp : BitVec 2
  level : BitVec 2
  seq : Nat
  st : WqState
  deriving DecidableEq, Repr

/-- What a bundle that has not issued waits on (02 R79, 14 R365). -/
inductive Wait where
  | tokens (mask : BitVec 8)
  | queue (e : EngId)
  | store
  | overlap (n : Nat)   -- the first n stores of the buffer (03 R91)
  | data
  | fence
  | walk (va : BitVec 56)
  | fault
  deriving DecidableEq, Repr

/-- The control core of one mast. `ag` counts the cc until X, Y and SP can be used for addresses (03 Table 3-2); `stalls` numbers the waits whose
length the spec does not fix (log entry 73), and `returned` says that a load of no exact latency has written A since the last bundle issued. -/
structure Core where
  banks : Vector CoreBank 4
  sys : Vector SysBank 4
  level : BitVec 2
  im : Bool
  bank : Fin 4
  halted : Bool
  stopReq : Bool
  xwerr : Bool
  pc : BitVec 17
  npc : BitVec 18
  startPc : BitVec 17
  ldm : Mem
  imem : Mem
  muls : List MulPend
  opening : List Syl
  ag : Vector Nat 3
  stalls : Nat
  returned : Bool
  waiting : Option Wait
  loads : List LoadPend
  sb : List StoreEnt
  wq : List WqEnt
  seq : Nat
  fenced : Bool
  gate : Mem
  gateUsed : Mem
  glimit : BitVec 9
  ipend : BitVec 16
  ien : BitVec 16
  ilvl : BitVec 8
  ulim : BitVec 19
  mlim : BitVec 19
  deriving DecidableEq, Repr

/-! ## The data cache (12) -/

/-- The state of a line in a data cache (12 Table 12-4); `canv` is a canvas line (12 R312). -/
inductive CacheSt where
  | s | e | m | o | canv
  deriving DecidableEq, Repr

/-- A line of a data cache, a victim cache or a writeback buffer. A line address is PA[37:7]. -/
structure CacheLine where
  addr : Line
  st : CacheSt
  data : BitVec 1024
  deriving DecidableEq, Repr

/-- A line in the writeback buffer; `backoff` while its refused Put waits to be sent again (12 R307, R323). -/
structure WbLine where
  line : CacheLine
  backoff : Bool
  deriving DecidableEq, Repr

/-- The kinds of request a cache or a core sends to a home (12 Table 12-2). -/
inductive ReqKind where
  | getS (wt : Bool) | getM | upg | wru | rdu | atom
  deriving DecidableEq, Repr

/-! ## Homes (12) -/

/-- The directory state of a home line (12 R315). -/
inductive DirSt where
  | i | s | em | o
  deriving DecidableEq, Repr

/-- The messages of 12 Table 12-2, between the data caches and the homes of this module. `dirty` and `evicting` are
the bits of FwdData; `poison` is the bit of every data response. -/
inductive Msg where
  | req (m : MastId) (line : Line) (kind : ReqKind)
  | put (m : MastId) (line : Line) (st : CacheSt) (data : BitVec 1024)
  | wru (m : MastId) (line : Line) (off : Nat) (data : List Byte) (wt : Bool)
  | rdu (m : MastId) (line : Line) (off len : Nat)
  | atom (m : MastId) (line : Line) (off : Nat) (op : AtomReq)
  | grant (m : MastId) (line : Line) (st : CacheSt) (data : BitVec 1024) (poison : Bool)
  | upgAck (m : MastId) (line : Line)
  | putAck (m : MastId) (line : Line)
  | nack (m : MastId) (line : Line) (put : Bool)
  | inv (m : MastId) (line : Line)
  | fwdS (m : MastId) (line : Line)
  | fwdM (m : MastId) (line : Line)
  | fwdR (m : MastId) (line : Line)
  | invAck (m : MastId) (line : Line)
  | fwdData (m : MastId) (line : Line) (data : BitVec 1024) (dirty evicting : Bool)
  | cmp (m : MastId) (line : Line)
  deriving DecidableEq, Repr

/-- A request of a data cache that the home has not answered (12 R308: one per line): the message that is sent again after a Nack, and its
Nacks (R324). -/
structure CacheReq where
  line : Line
  kind : ReqKind
  msg : Msg
  nacks : Nat
  backoff : Bool
  deriving DecidableEq, Repr

/-- The data cache of one mast: 48 lines, most recently used first; 8 victim lines, oldest first; 4 writebacks. -/
structure DCache where
  lines : List CacheLine
  victims : List CacheLine
  wb : List WbLine
  reqs : List CacheReq
  flushing : Bool
  deriving DecidableEq, Repr

/-- A request that a home has accepted, with who it answers; `evict` is the recall of a line whose way is needed (12 R314). -/
inductive HomeReq where
  | getS (m : MastId) (wt : Bool)
  | getM (m : MastId)
  | upg (m : MastId)
  | rdu (r : Requester) (off len : Nat)
  | wru (r : Requester) (off : Nat) (data : List Byte) (wt : Bool)
  | atom (r : Requester) (off : Nat) (op : AtomReq)
  | evict
  deriving DecidableEq, Repr

/-- What a busy line waits for (12 R321): the HBM data of a miss, the answers of contacts (`invs` and the one
forward, `fwd`), or the requester's Cmp. `noRoom` while a miss has no way for its line; `fwdTo` is the cache a Fwd was sent to; `heldPuts` are the Puts
held at the line. -/
structure Busy where
  req : HomeReq
  needFill : Bool
  noRoom : Bool
  invs : List MastId
  fwd : Option MastId
  fwdTo : Option MastId
  gotDirty : Bool
  gotEvict : Bool
  needCmp : Option MastId
  heldPuts : List MastId
  deriving DecidableEq, Repr

/-- A line of a home slice (12 R314, R315). `putting` from an accepted Put until the home is known to be past its 4 cc (12 R321; log entry 100). -/
structure HomeLine where
  addr : Line
  data : BitVec 1024
  dirty : Bool
  dir : DirSt
  owner : MastId
  sharers : BitVec 128
  poison : Bool
  busy : Option Busy
  putting : Bool
  deriving DecidableEq, Repr

/-- A reservation of a slice (12 R324). -/
structure Resv where
  line : Line
  who : Requester
  deriving DecidableEq, Repr

/-- A refused request of a requester without a data cache: its Nacks, and whether its backoff still runs (12 R323, R324). -/
structure Attempt where
  line : Line
  who : Requester
  nacks : Nat
  backoff : Bool
  deriving DecidableEq, Repr

/-! ## Translation (13) -/

/-- A leaf held by a translation buffer: its level (0: 64 KiB, 1: 128 MiB, 2: 256 GiB), its page number, its PA. -/
structure TlbEnt where
  asid : BitVec 12
  lvl : Nat
  vpage : Nat
  pa : BitVec 52
  r : Bool
  w : Bool
  u : Bool
  wp : BitVec 2
  deriving DecidableEq, Repr

/-- An entry of a walk cache (13 R345): its level, the VA bits down to the lowest it indexes, the entry read. -/
structure WcEnt where
  asid : BitVec 12
  lvl : Nat
  vtag : Nat
  ent : Word
  deriving DecidableEq, Repr

/-- A walk in progress or queued (13 R345-R349), with the requesters it serves; `fromTop` once an invalidation has
restarted it from level 3 (13 R354). -/
structure Walk where
  asid : BitVec 12
  vpn : BitVec 40
  root : BitVec 42
  who : List (MastId × EngId)
  running : Bool
  fromTop : Bool
  deriving DecidableEq, Repr

/-- Where a translation fault stands (13 R350-R352): its record is yet to be written, held by a full ring, or
written; or the job has faulted and no exception follows. -/
inductive FaultSt where
  | pending | held | written | dead
  deriving DecidableEq, Repr

/-- The fields of a fault record (13 Table 13-4) before ASID and SEQ. KIND 1 to 4. -/
structure XFault where
  e : EngId
  kind : BitVec 3
  lvl : BitVec 2
  wr : Bool
  plv : BitVec 2
  side : BitVec 2
  va : BitVec 56
  pc : BitVec 17
  detail : BitVec 32
  slot : BitVec 3
  st : FaultSt
  deriving DecidableEq, Repr

/-- The translation state of one mast (13 R336, R344, R356). -/
structure Xl where
  root : BitVec 42
  asid : BitVec 12
  fqSize : BitVec 4
  fqBase : BitVec 40
  fqHead : BitVec 12
  fqTail : BitVec 12
  fqEn : Bool
  fqOvf : Bool
  fqTimeout : Bool
  fqSeq : BitVec 32
  fullPeriod : Bool
  faults : List XFault
  miss : List XFault
  tlbCore : List TlbEnt
  tlbVec : List TlbEnt
  tlbHal : List TlbEnt
  deriving DecidableEq, Repr

/-! ## The long-vector unit (04) -/

/-- A queued vector command with what it captured at issue (04 R108). -/
structure VCmd where
  v0 : Option (V0Op × V0Body)
  v1 : Option (V1Op × V1Body)
  vl : Nat
  vtype : Word
  scalar : Word
  ea : Word
  stride : Word
  level : BitVec 2
  pc : BitVec 17
  numctl : Option (Bool × Bool)
  deriving DecidableEq, Repr, Inhabited

/-- An element of a line or element request of the memory pipe that has not returned (04 R123): elements with one `grp`
return together. `mask` marks the mask register of VKLD, `cls` is the class that the request travels in, and `ord` its place among the posts and writes of
the engines (01 R28). -/
structure VReq where
  grp : Nat
  elem : Nat
  n : Nat
  pa : BitVec 52
  reg : Nat
  mask : Bool
  cls : Nat
  ord : Nat
  deriving DecidableEq, Repr

/-- The last command that the arithmetic pipe started: the element it began at, the registers before it, the flags that it set first, and whether
it is older than the memory pipe's command. A STOP may find it at any of its beat boundaries (04 R126; log entry 27). -/
structure ArithRun where
  cmd : VCmd
  lo : Nat
  vreg : Mem
  kreg : Mem
  flags : BitVec 8
  first : Bool
  deriving DecidableEq, Repr

/-- The long-vector unit of one mast. `extra` counts the commands that entry 0 of the queue stands for beyond one (log entry 92); `qent` holds the
words of the queue entries that have been written while it is stopped (04 Table 4-11), by entry; `saved` the entries that a save may name: those that left
the queue unfinished. `mem` is the memory pipe's command, `mnext` the element it checks next, and `ready` its checked elements that are not yet accessed, by
request; `tail` holds the checked elements of a line that the next beat may go on with. `failing` marks a recorded fault whose stop is not complete; `stops` numbers the stops. -/
structure Vec where
  vreg : Mem
  kreg : Mem
  queue : List VCmd
  extra : Nat
  qent : List (Nat × List Word)
  saved : List (List VCmd)
  mem : Option VCmd
  mnext : Nat
  ready : List (List (Nat × BitVec 52))
  tail : List (Nat × BitVec 52)
  arith : Option ArithRun
  failing : Bool
  stops : Nat
  reqs : List VReq
  nextGrp : Nat
  stopped : Bool
  stopReq : Bool
  faulted : Bool
  xwerr : Bool
  vidxA : BitVec 10
  vidxM : BitVec 10
  faultVa : BitVec 56
  faultPc : BitVec 17
  faultWr : Bool
  faultKind : BitVec 3
  faultElem : BitVec 10
  deriving DecidableEq, Repr

/-! ## Tokens (01) -/

/-- A token post on its way or held (01 R34, R37): its token address, its poster, and its place among the stores and
posts of a control core. -/
structure Post where
  addr : BitVec 32
  src : Poster
  seq : Nat
  deriving DecidableEq, Repr

/-- A write of an engine without a cache that left the module and is not yet acknowledged (01 R37, 04 R124, 11 R299). `tag` is the class of a write
of the long-vector unit, and the descriptor of a write of the halyard; `pa` is the address that was written (13 R354). -/
structure AckDue where
  m : MastId
  e : EngId
  seq : Nat
  tag : Nat
  pa : BitVec 52
  deriving DecidableEq, Repr

/-- The token slots of a mast (01 R34, R43). `woken` marks the engines that a token, or for the control core a START, has reached since they reefed (01 R39, 03
R101). -/
structure Toks where
  count : Sparse 8
  stallEn : Bool
  stallSent : BitVec 6
  woken : BitVec 6
  deriving DecidableEq, Repr

end Sys2Proof.Machine
end

