-- ==== Sys2Proof/Machine/ModState.lean ====
section
/-!
DEFINITION. The state of the parts of the module that are not in a mast or a die: Shroud ports, job slots and
reduction channels (15), host ports and queues (16), power, snapshots and the panel (17), start-up and security (18).
-/

namespace Sys2Proof.Machine

/-! ## Shroud links (15) -/

/-- What a module sends on its Shroud ports: the order of sending is kept, the port is named. -/
inductive OutMsg where
  | linkLost (n1 n2 : BitVec 14)
  | fence (jobid : BitVec 16) (fromFault : Bool) (node : BitVec 14)
  | forward (msg : LinkMsg)
  | post (addr : BitVec 32) (jobid : BitVec 16)
  | segment (c : ChanId) (msg : SegMsg) (node : BitVec 14)
  | wru (pa : BitVec 52) (data : List Byte) (jobid : BitVec 16) (crc : Option (BitVec 32))
  | wruMask (pa : BitVec 52) (data : List (Option Byte)) (jobid : BitVec 16)
  | rdu (pa : BitVec 52) (n : Nat) (jobid : BitVec 16)
  | atom (pa : BitVec 52) (op : AtomReq) (jobid : BitVec 16)
  | rduReply (node : BitVec 14) (data : List Byte) (poison : Bool) (check : Option Word)
  | wruAck (node : BitVec 14)
  | atomReply (node : BitVec 14) (old : Nat) (poison : Bool)
  | refusal (node : BitVec 14) (jobid : BitVec 16)
  | replay
  deriving DecidableEq, Repr

/-- Credits of a port's receive buffer of 512 flits (15 R388): those reserved for each class, and the shared ones. -/
structure Credits where
  own : Vector Nat 3
  shared : Nat
  deriving DecidableEq, Repr

/-- All of them: 16 for each class and 464 shared. -/
def Credits.full : Credits := { own := Vector.replicate 3 16, shared := 464 }

/-- A message that waits for a port, in its class; one that came from another port has its place in that port's receive buffer: its port, and how many
reserved and shared credits it holds there. -/
structure Waiting where
  msg : OutMsg
  cls : Fin 3
  src : Option (PortId × Nat × Nat)
  deriving DecidableEq, Repr

/-- A Shroud port (15 R381-R395). `trainFull` is the kind of training in progress; `window` is set while the
link-loss window runs; `stuck` says that the port is lost, and stays down until a cable is plugged or RETRAIN is written; `peerKnown` says that the port has been
up, and `linkNode`, `linkPort` and `peerVer` are what it then found. `tx` are the credits that it holds for the buffer of its peer, `rx` the places that are
free in its own, `kept` the messages of its replay buffer (R384). -/
structure SPort where
  en : Bool
  v2only : Bool
  plugged : Bool
  up : Bool
  training : Bool
  trainFull : Bool
  window : Bool
  ver : BitVec 2
  downv2 : Bool
  miscable : Bool
  lost : Bool
  stuck : Bool
  peerKnown : Bool
  peerNode : BitVec 14
  peerPort : BitVec 4
  linkNode : BitVec 14
  linkPort : BitVec 4
  peerVer : BitVec 2
  lat : BitVec 12
  rtt : BitVec 12
  waiting : List Waiting
  kept : List OutMsg
  tx : Credits
  rx : Credits
  deriving DecidableEq, Repr

/-- SHR_CFG (15 R408). -/
structure ShrCfg where
  size0 : BitVec 4
  size1 : BitVec 4
  size2 : BitVec 3
  size3 : BitVec 3
  planes : Bool
  deriving DecidableEq, Repr

/-- A job slot: SHR_JOB, SHR_JBLK (15), JOB_FLT and JOB_FLT_CNT (18), and what the JOB command keeps (18 R467);
`bundles` holds CC_BUNDLES of each of its masts as START found it. -/
structure Job where
  jobid : BitVec 16
  valid : Bool
  fenced : Bool
  reason : BitVec 3
  jblk : Word
  fltValid : Bool
  fltMast : BitVec 7
  fltEng : BitVec 3
  fltKind : BitVec 4
  fltCnt : BitVec 32
  owner : Option FnId
  loaded : Bool
  started : Bool
  masts : BitVec 128
  startPc : BitVec 17
  asid : BitVec 12
  bundles : Tab
  deriving DecidableEq, Repr

/-- What a contributor of a running channel does next (15 R402): combine up the tree, send up, wait for the result
of its parent, write and send down, or nothing more. -/
inductive RankPhase where
  | load | up | sendUp | waitDown | write | sendDown | done
  deriving DecidableEq, Repr

/-- One contributor of this module in a running channel: its mast, its rank, the segment it works on, its level in
the tree, and the values it holds in the combine format or in the element format. -/
structure Rank where
  m : MastId
  g : Nat
  seg : Nat
  lvl : Nat
  phase : RankPhase
  val : List Nat
  deriving DecidableEq, Repr

/-- A segment in one of the four places of the staging area of a contributor (15 R402): its ranks, its number, its place and its bytes, which lie in canvas. -/
structure Staged where
  dst : Nat
  src : Nat
  seg : Nat
  place : Fin 4
  len : Nat
  deriving DecidableEq, Repr

/-- A reduction channel (15 R399-R408). -/
structure Chan where
  desc : Desc
  st : BitVec 2
  flags : BitVec 5
  fault : BitVec 3
  count : BitVec 8
  run : BitVec 64
  ranks : List Rank
  staged : List Staged
  early : List SegMsg
  deriving DecidableEq, Repr

/-! ## Host ports (16) -/

/-- A created submission queue (16 R413). -/
structure Sq where
  qid : BitVec 20
  fn : FnId
  base : Word
  sz : Nat
  cq : BitVec 12
  head : Nat
  tail : Nat
  stopped : Bool
  deriving DecidableEq, Repr

/-- A created completion queue, or an admin one (16 R413, R420): `hold` are completions held while it is full. -/
structure Cq where
  num : BitVec 12
  base : Word
  sz : Nat
  head : Nat
  tail : Nat
  phase : Bool
  hold : List (List Byte)
  deriving DecidableEq, Repr

/-- A command that a port fetched and has not completed (16 R417-R420). `ver` is the version that its function had then (R428); `fence` is FLAGS.FENCE; `status`
is none until its action is done; the completion of a `silent` command is not written (16 R414, R426). `step` is 1 while a LOAD or END waits for its
invalidation, and 2 from its completion (13 R357), and 1 once a copy has sent its accesses to other modules; `pas` are the pieces that it translated. -/
structure HCmd where
  ref : CmdRef
  ver : BitVec 16
  entry : List Byte
  sqHead : Nat
  seq : Nat
  fence : Bool
  started : Bool
  step : Nat
  status : Option (BitVec 8)
  silent : Bool
  pas : List (BitVec 52 × Nat)
  deriving DecidableEq, Repr

/-- A range of QIDs granted to a virtual function (16 R412). -/
structure Grant where
  first : Nat
  count : Nat
  fn : FnId
  deriving DecidableEq, Repr

/-- One host function (16 R430). `rrQ` is the queue its last fetch served: 0 the admin queue, QID + 1 another. -/
structure Fn where
  ver : BitVec 16
  aqSz : BitVec 4
  aqBase : BitVec 52
  acqSz : BitVec 4
  acqBase : BitVec 52
  evSz : BitVec 4
  evBase : BitVec 52
  arm : Bool
  evHead : BitVec 12
  evTail : BitVec 12
  lost : BitVec 16
  evPhase : Bool
  ovfDue : Bool
  dbOwn : BitVec 16
  verErr : Bool
  cqh : Bool
  ctxMiss : Word
  asqHead : Nat
  asqTail : Nat
  asqStopped : Bool
  acq : Cq
  cqs : List Cq
  rrQ : Nat
  deriving DecidableEq, Repr

/-- The level of an HSIG pin (16 R423-R425): high and busy, low and ready, high in a pulse, low after a pulse. -/
inductive Hsig where
  | busy | ready | pulse | gap
  deriving DecidableEq, Repr

/-- How an access of a host to a register completes (16 R411, R430): with data for a read, as a write, with Unsupported Request or with Completer Abort. -/
inductive Cpl where
  | data (v : Word)
  | wrote
  | ur
  | ca
  deriving DecidableEq, Repr

/-- One host port. `rrFn` is the function its last fetch served; `cpl` is how its last register write completed; `mem` is host memory as this module has
written it. -/
structure HPort where
  fns : Vector Fn 17
  attn : BitVec 17
  linkUp : Bool
  perst : Bool
  hsig : Hsig
  attnReq : Bool
  causeReset : Bool
  rrFn : Fin 17
  cpl : Option Cpl
  mem : Mem
  deriving DecidableEq, Repr

/-- The host side of the module. `dbs` are the doorbells, in order of arrival, that wait for room for their context, with those of completion queues marked
(16 R414, R415). -/
structure Hosts where
  ports : Vector HPort 2
  sqs : List Sq
  grants : List Grant
  cmds : List HCmd
  seq : Nat
  resident : List (FnId × Bool × Nat)
  dbs : List (Bool × FnId × Word)
  deriving DecidableEq, Repr

/-! ## Power, the control tree and the panel (17) -/

/-- The operation on the control tree (17 R442), with the units it has not yet reached; `profile` marks a trim change that PWR_TRIM.REQ
asked for, not a change of the governor. -/
inductive TreeOp where
  | idle
  | trim (profile : Bool) (units : List TrimUnit)
  | snap (units : List SnapUnit)
  deriving DecidableEq, Repr

/-- Power, clocks and trim (17 R431-R441). `noStart` says that the precharge timed out since the always-on domain came up (R432). -/
structure Power where
  trimReq : BitVec 2
  trimCur : BitVec 2
  changing : Bool
  gov : BitVec 4
  overcap : Bool
  thermal : Bool
  infault : Bool
  cap : BitVec 16
  vin : BitVec 16
  iin : BitVec 16
  pin : BitVec 16
  tmax : BitVec 8
  furl : BitVec 24
  below : Nat
  cool : Nat
  hotDrain : Bool
  aoOn : Bool
  compOn : Bool
  inSwitch : Bool
  noStart : Bool
  tree : TreeOp
  govWait : Bool
  snapWait : Bool
  deriving DecidableEq, Repr

/-- The snapshot of the module (17 R443, R444). `markers` are the (router, input, class) whose marker is due. -/
structure Snap where
  busy : Bool
  seq : BitVec 32
  infl : Tab
  markers : List Nat
  cnt : Tab
  shadow : Tab
  deriving DecidableEq, Repr

/-- The strike state (17 Table 17-4). -/
inductive Strike where
  | idle | draining | clear
  deriving DecidableEq, Repr

/-- The service panel (17 R446-R450). -/
structure Svc where
  strike : Strike
  forced : Bool
  lever : Bool
  locate : Bool
  drained : Bool
  deriving DecidableEq, Repr

/-! ## Start-up and security (18) -/

/-- The header facts of a firmware image that is running (18 R461, R466). -/
structure ImgFacts where
  digest : BitVec 512
  svn : BitVec 32
  keyidx : BitVec 2
  revoke : BitVec 4
  deriving DecidableEq, Repr

/-- Start-up, firmware update, fuses and attestation. The flash holds bank A then bank B, each a Crowsnest image
then a mast image, 1 MiB apart. -/
structure Boot where
  stage : BitVec 3
  cnBank : Bool
  fail : BitVec 4
  fallback : Bool
  resets : BitVec 32
  fuseCn : BitVec 7
  fuseMast : BitVec 7
  fuseKeys : Vector (BitVec 512) 4
  revoked : BitVec 4
  runCn : ImgFacts
  runMast : ImgFacts
  flash : Mem
  marked : Bool
  inactiveBad : Bool
  railsOk : Bool
  hbmOk : Bool
  foundCn : Vector CryptoFindings 2
  foundMast : Vector CryptoFindings 2
  fwBusy : Bool
  fwResult : BitVec 3
  stageMem : Mem
  recValid : Bool
  recNode : BitVec 14
  recCfg : Word
  attBusy : Bool
  attDone : Bool
  nonce : Mem
  reqNonce : List Byte
  report : Mem
  cert : Mem
  serial : BitVec 128
  deriving DecidableEq, Repr

end Sys2Proof.Machine
end

