-- ==== Sys2Proof/Machine/EngState.lean ====
section
/-!
DEFINITION. The state of a mast's arrays and tiles (06, 07), sheet engine (08, 09), canvas, HBM stacks and halyard (11).
-/

namespace Sys2Proof.Machine

/-- What an X command does when it reaches the head of its array's queue (06 R163, R177). -/
inductive AKind where
  | pass | bfill | bdisarm
  deriving DecidableEq, Repr, Inhabited

/-- A command in an array's queue, captured at issue (06 R164). A stopped pass goes back to the head of the queue with
the NUM_CTL it started with (OVM, FTZ; log entry 26); `rept` says that its repeat is pending. -/
structure ACmd where
  kind : AKind
  desc : Desc
  daddr : BitVec 12
  pc : BitVec 17
  twin : Bool
  q : Fin 4
  modes : Option (Bool × Bool)
  rept : Bool
  deriving DecidableEq, Repr, Inhabited

/-- The operands of a pass as its reads found them: canvas bytes by slice offset, bank bytes by offset (06 R171). -/
structure OpCap where
  canvas : Mem
  bank : Mem
  deriving DecidableEq, Repr

/-- A pass that has started and is not final (06 R167-R171, R176, R181). `mizzen` marks the mizzen half of a twin pass;
`done` counts its written k-steps; `issued` is set once its issue has ended and `cap` then holds its operands; `bad` is
the first k-step whose reads met an error, with the fault kind; `rept` is a pending repeat. `total` is the number of its k-steps and `sigma` is −σ
(07 R193); `halted` marks a stopped pass whose last issued k-step is written (06 R183). A batch pass has its rows. -/
structure APass where
  cmd : ACmd
  tile : Fin 16
  mizzen : Bool
  modes : Bool × Bool
  total : Nat
  sigma : Nat
  done : Nat
  issued : Bool
  halted : Bool
  cap : Option OpCap
  bad : Option (Nat × Nat)
  rept : Bool
  batch : Option (Fin 4)
  rows : List (List Byte)
  fire : Nat
  deriving DecidableEq, Repr

/-- A fire of a batch queue (06 R179-R181): its descriptor, its row entries, its tile set, the assembled rows (none
until assembly) and how many of its passes have started. -/
structure Fire where
  id : Nat
  q : Fin 4
  desc : Desc
  set : Bool
  entries : List (List Byte)
  rows : Option (List (List Byte))
  started : Nat
  deriving DecidableEq, Repr

/-- A batch-fill queue (06 R177, R179). -/
structure BQueue where
  cfg : Desc
  armed : Bool
  head : BitVec 10
  set : Bool
  trun : Bool
  timer : BitVec 20
  deriving DecidableEq, Repr

/-- The PASS_K register of a tile (06 Table 6-16). -/
structure PassK where
  kdone : BitVec 10
  ktotal : BitVec 10
  st : BitVec 2
  rig : Bool
  rows : BitVec 7
  deriving DecidableEq, Repr

/-- One array of a mast. -/
structure Arr where
  queue : List ACmd
  extra : Nat
  qent : List (Nat × List Word)
  saved : List (List ACmd)
  stopped : Bool
  stopReq : Bool
  faulted : Bool
  xwerr : Bool
  passes : List APass
  prevRig : Bool
  prevFolub : Bool
  fKind : BitVec 4
  fTile : BitVec 4
  fKdone : BitVec 10
  fDaddr : BitVec 12
  fBatch : Bool
  fBq : BitVec 2
  fPc : BitVec 17
  passK : Vector PassK 8
  bqs : Vector BQueue 4
  fires : List Fire
  nextFire : Nat
  sticky : BitVec 5
  deriving DecidableEq, Repr

/-- An accumulator tile: its 4,096 entries of 64 bits and its record (07 R188, R189). -/
structure Tile where
  ents : Tab
  type : BitVec 2
  rig : Bool
  folub : Bool
  repeats : BitVec 3
  shift : BitVec 6
  inflight : BitVec 5
  rscale : BitVec 32
  cscale : BitVec 32
  deriving DecidableEq, Repr

/-- What a started sheet descriptor holds: the NUM_CTL it started with (OVM, FTZ; 08 R220), and the tiles that it has read, each with its record as its
first read found it (08 R222, 07 R211; log entry 99). -/
structure SRun where
  modes : Bool × Bool
  recs : List (Fin 16 × Tile)
  deriving DecidableEq, Repr, Inhabited

/-- A command in the sheet engine's queue, captured at issue (08 R216). `bad` marks an uncorrectable error of the words it captured. -/
structure SCmd where
  desc : Desc
  daddr : BitVec 12
  pc : BitVec 17
  level : BitVec 2
  bad : Bool
  run : Option SRun
  deriving DecidableEq, Repr, Inhabited

/-- The sheet engine of a mast (08 Table 8-10). `beat` counts the beats of the row SHEET_PROG.ROW names that have issued; `fin` holds the
descriptors whose beats have all issued and which have not completed, `replies` the REPLY tokens that are due, and `owed` how many of them each descriptor of `fin` still has to post. `vals` are the values of the beats of the
present row that a row operation has taken, as encodings of W, and `hist` the bins of OPK 9 once they have been read (09 R263). -/
structure Sheet where
  queue : List SCmd
  extra : Nat
  qent : List (Nat × List Word)
  saved : List (List SCmd)
  stopped : Bool
  stopReq : Bool
  faulted : Bool
  xwerr : Bool
  row : BitVec 16
  st : BitVec 2
  beat : Nat
  fin : List SCmd
  replies : List (BitVec 32)
  owed : List Nat
  vals : List Nat
  hist : Option Tab
  fKind : BitVec 4
  fDaddr : BitVec 12
  fRow : BitVec 16
  fPc : BitVec 17
  sticky : BitVec 4
  breg : Mem
  deriving DecidableEq, Repr

/-- A command in the halyard's queue, captured at issue (11 R293). `started` marks a stopped descriptor, whose WMASK slots are consumed. -/
structure HalCmd where
  id : Nat
  desc : Desc
  daddr : BitVec 12
  pc : BitVec 17
  level : BitVec 2
  started : Bool
  deriving DecidableEq, Repr, Inhabited

/-- A source line that has been read, or asked for, and is held in a landing buffer (11 R292, R297): its number, as its address over 128, the stripe it was
read for, and its bytes; `far` while it is to come from another module, `due` while its block is to be verified with what comes from there; `drawn` if a
destination line draws from it, which needs its place in the buffer. `word` is the checksum word of its block, with its poison, where it is read already. `err`
is the error that its read met: kind, side, first byte and index of the block. -/
structure HalLand where
  grp : Nat
  line : Nat
  data : List Byte
  far : Bool
  due : Bool
  drawn : Bool
  word : Option (Nat × Bool)
  err : Option (Nat × Nat × Nat × Nat)
  deriving DecidableEq, Repr

/-- A descriptor between its read start and its posts (11 R296-R299): its pages translated so far, in the order of R296, by 64 KiB page of its
VAs, and all of them once all are known; the destination line it starts from, the lines whose sources have been read, its half of the landing buffer, and the
checksum of the destination block that it writes, as far as it has come. `bad` once a destination line has met an error of its source, `wrote` once its last
write is made, and `done` once it has completed and only its posts are due. -/
structure HalRun where
  cmd : HalCmd
  got : List (Nat × BitVec 52)
  pages : Option (List (Nat × BitVec 52))
  start : Nat
  ahead : Nat
  land : List HalLand
  sum : Nat
  bad : Bool
  wrote : Bool
  done : Bool
  deriving DecidableEq, Repr

/-- HAL_PROG of a channel. -/
structure HalProg where
  lines : BitVec 30
  st : BitVec 2
  dwok : Bool
  deriving DecidableEq, Repr

/-- The halyard of a mast (11 Table 11-10). `exc` is the deferrable exception HAL_FAULT. -/
structure Hal where
  queue : List HalCmd
  extra : Nat
  qent : List (Nat × List Word)
  saved : List (List HalCmd)
  act : List HalRun
  nextId : Nat
  stopped : Bool
  stopReq : Bool
  faulted : Bool
  xwerr : Bool
  exc : Bool
  faultVa : BitVec 56
  fKind : BitVec 4
  fSide : BitVec 2
  fCh : Bool
  fDaddr : BitVec 12
  fPc : BitVec 17
  fBlock : BitVec 24
  prog : Vector HalProg 2
  deriving DecidableEq, Repr

/-- The canvas registers of a mast (11 Table 11-10) and the place of the scrub of each tier, as a line of the tier. -/
structure Canvas where
  scrub : Bool
  ce : BitVec 60
  ue : Bool
  sel : BitVec 2
  pos : Vector (BitVec 17) 4
  deriving DecidableEq, Repr

/-- One HBM stack of a die (11 Table 11-3), and the place of its scrub, as a line of the stack. -/
structure Hbm where
  scrub : Bool
  interval : BitVec 16
  trained : Bool
  ueSeen : Bool
  errPa : LocalPA
  errValid : Bool
  errScrub : Bool
  pos : Nat
  deriving DecidableEq, Repr

end Sys2Proof.Machine
end

