-- ==== Sys2Proof/Config.lean ====
section
/-!
DEFINITION. What the spec leaves open. Each `opaque` constant is a free value: it has no body, so nothing can be
proved of its values, and every claim holds whatever they are. Each is named in the assumption log.
-/

namespace Sys2Proof

/-- The TYPE byte of each type of event entry, by the number the model gives the type: 16 R422 names the types and
gives no codes (log entry 10). -/
opaque Config.eventCode : Nat → BitVec 8

/-- The 28 detail bytes of an event other than a job fault, by type and by what it names: 16 R422 gives no layout
(log entry 10). -/
opaque Config.eventDetail : Nat → Nat → BitVec 224

/-- The saved form of a queue context in the queue-context region of HBM, by the line and the eviction: opaque (16 R415, R416; log entry 115). -/
opaque Config.ctxSaved : Nat → Nat → BitVec 512

/-- Whether a host's post that has left for another module is visible there: 15 R394 gives the end by time (log entry 116). -/
opaque Config.postVisible : Nat → Bool

/-- The coefficients of the quadratics of the special-function unit, as what they differ by from those of the Taylor series, by table (by the number the model
gives it), segment and power: 09 R242, R243 and R246 give none (log entry 40). -/
opaque Config.sfuCoef : Nat → Nat → Nat → Int

/-- Where the values of a table of the special-function unit step up, by the rounding of their evaluation: for a table and a value of it, the least input that
gives that value, in units of 2^-1100. 09 R242 and R243 give the evaluation at least 32 significant bits (log entry 40). -/
opaque Config.sfuBreak : Nat → Int → Int

/-- The words of the saved form of an entry in the queue of the long-vector unit, an array, the sheet engine and the halyard: opaque (04 Table 4-11,
06 Table 6-16, 08 Table 8-10, 11 Table 11-10; log entries 14 and 92). -/
opaque Config.vecSaved : List Machine.VCmd → Nat → Word
@[inherit_doc Config.vecSaved] opaque Config.arrSaved : List Machine.ACmd → Nat → Word
@[inherit_doc Config.vecSaved] opaque Config.sheetSaved : List Machine.SCmd → Nat → Word
@[inherit_doc Config.vecSaved] opaque Config.halSaved : List Machine.HalCmd → Nat → Word

/-- How many beats beyond the first the arithmetic pipe has done of its command when stop number `n` of the unit takes effect: 04 R126 gives the beat by
time (log entry 27). -/
opaque Config.stopBeat : Nat → Nat

/-- Whether the arithmetic pipe still runs the command that it started last: 04 R110 gives its end by time (log entry 27). -/
opaque Config.arithBusy : Nat → Bool

/-- How many destination lines a read stage of the halyard has the sources of read when it may go on: 11 R297 gives the reads by time (log entry 43). -/
opaque Config.halReads : Nat → Nat

/-- Whether a request that reaches a home after a Put for its line finds the line still busy with that Put: 12 R321 gives the end by time (log entry 100). -/
opaque Config.putBusy : Nat → Bool

/-- How many credits of a pool (0 to 2 those of a class, 3 the shared ones) a peer has given back: 15 R388 gives them back when flits leave its buffer
(log entry 103). -/
opaque Config.credits : Nat → Nat → Nat

/-- Which classes have waited so long at a port that they take the next grant ahead of class 0, as bits, by grant: 01 R25 counts 8 and 32 cc (log entry 122). -/
opaque Config.aged : Nat → Nat → Nat

/-- How many of the messages in a port's replay buffer its peer has acknowledged: 15 R384 gives the acknowledgements by time (log entry 123). -/
opaque Config.acked : Nat → Nat

/-- Whether a link elsewhere in the block of a job runs version 2 (15 R386; log entry 32). -/
opaque Config.farMixed : Word → Bool

/-- Whether a contributor of another module has a free place in its staging area: 15 R402 gives no message that says so (log entry 124). -/
opaque Config.placeFree : Nat → Bool

/-- Which of the free places of a staging area a segment takes: 15 R402 names four places and no order (log entry 124). -/
opaque Config.stagePlace : Nat → Nat

/-- Whether another module has refused a host's post by the time it would be visible (15 R393; log entry 116). -/
opaque Config.postRefused : Nat → Bool

/-- The data that a load or an atomic leaves in A when this module refuses the answer of another one (15 R393; log entry 125). -/
opaque Config.refusedData : Nat → Word

/-- The command that words which no saved form here spells restore (log entry 14). -/
opaque Config.vecRestored : List Word → Machine.VCmd
@[inherit_doc Config.vecRestored] opaque Config.arrRestored : List Word → Machine.ACmd
@[inherit_doc Config.vecRestored] opaque Config.sheetRestored : List Word → Machine.SCmd
@[inherit_doc Config.vecRestored] opaque Config.halRestored : List Word → Machine.HalCmd

/-- CC_TSTATE.NPC as it reads while the core runs: 14 Table 14-8 calls it valid only while HALTED is 1 (log entry 15). -/
opaque Config.npcRunning : BitVec 18 → BitVec 17

/-- The values that the firmware writes when it loads a job and LOAD does not carry: by the number the model gives the field, the mast, and the
SQ entry (14 R380, 13 R357, 05 R155, 17 R455; log entry 13). -/
opaque Config.jobValue : Nat → Nat → List Byte → Word

/-- CC_START_PC[16:2] of each mast as the firmware loads it in step 9 of start-up (00 R12, 02 Table 2-11, 18 Table 18-1; log entry 1). -/
opaque Config.startPc : Nat → BitVec 15

/-- The cc of wait number `n` of a control core beyond the first, where the spec gives the wait no length: on load data, a full queue, tokens, a
walk, a full buffer, an earlier FENCE (log entry 73). -/
opaque Config.stallCc : Nat → Nat

/-- What the checks that rest on SHA-512 and ECDSA find of an image that a register write asks to check (18 R461; log entry 20). -/
opaque Config.findings : List Byte → CryptoFindings

/-- The queue length that a QLEN value above 16 gives, and the ring size that a host writes outside 4 to 12: the tables name the ranges and say
nothing of other values (log entry 57). -/
opaque Config.queueLen : Nat → Nat
@[inherit_doc Config.queueLen] opaque Config.ringSize : BitVec 4 → BitVec 4

end Sys2Proof
end

