-- ==== Sys2Proof/Machine/State.lean ====
section
/-!
DEFINITION. The state of the module as plain data, its value right after reset, and the reasons a step can end in
something other than a next state.
-/

namespace Sys2Proof.Machine

/-- A fault that stops the model. No meaning raises one: every fault of the manual is a next state of the module. -/
inductive Fault where
  /-- Never raised; kept so that the type is not empty. Safe: it is not reached. -/
  | unreachable
  deriving DecidableEq, Repr

/-- A refusal: no meaning for a command. -/
inductive Refusal where
  /-- Raised by the dispatch alone, for a command whose meaning is not written. Safe: no effect is claimed. -/
  | notModelled (mnemonic : String)
  deriving DecidableEq, Repr

/-- The number-format registers of a mast (05 R152). -/
structure NumRegs where
  ovm : Bool
  ftz : Bool
  flags : BitVec 32
  deriving DecidableEq, Repr

/-- One mast. -/
structure Mast where
  core : Core
  dc : DCache
  xl : Xl
  vec : Vec
  tok : Toks
  num : NumRegs
  arr : Vector Arr 2
  tiles : Vector Tile 16
  wsel : BitVec 4
  bankMem : Mem
  rowmap : Mem
  sheet : Sheet
  hal : Hal
  canv : Canvas
  sail : BitVec 12
  jslot : JobSlot
  jvalid : Bool
  cnt : Tab
  shadow : Tab
  snapTag : BitVec 32
  deriving DecidableEq, Repr

/-- One die: its walk cache, its walks, its HBM stacks, the slices that write back for a flush (12 R333), and its counting fields by
offset in the per-die block. -/
structure Die where
  wc : List WcEnt
  walks : List Walk
  hbm : Vector Hbm 4
  scFlush : BitVec 64
  cnt : Tab
  shadow : Tab
  snapTag : BitVec 32
  deriving DecidableEq, Repr

/-- The fault message of a mast on its way to the per-module block (18 R469). -/
structure FltMsg where
  m : MastId
  e : BitVec 3
  kind : BitVec 4
  deriving DecidableEq, Repr

/-- The uses of removed translations by a mast that were under way when an invalidation was applied (13 R354): the physical pages of the translations, as
their numbers and the bits of their offsets; the accesses to them of the core before a place in its order, of the long-vector unit up to a group of requests and,
where they leave the module, before a place in the order of writes, with the elements that are translated and not yet requested; halyard descriptors; and
lines of the writeback buffer. -/
structure InvUse where
  m : MastId
  pages : List (Nat × Nat)
  seq : Nat
  grp : Nat
  ord : Nat
  elems : List (Nat × BitVec 52)
  hal : List Nat
  wb : List Line
  deriving DecidableEq, Repr

/-- A queued invalidation (13 R353, R354): `applied` once its step 1 is done, with the uses it then drains; `host` the
host command that waits. -/
structure Inval where
  scope : BitVec 2
  asid : BitVec 12
  npages : BitVec 20
  va : BitVec 40
  applied : Bool
  uses : List InvUse
  host : Option CmdRef
  deriving DecidableEq, Repr

/-- A cell of an error-correcting memory: a 64-bit word of LDM, a bank, the assembly buffer of an array, a tile, a bias register, canvas or a data
cache line, a syllable of IMEM, or an HBM line (02 R51, 06 R162, 08 R215, 11 R275, R288, 12 R305). -/
inductive Cell where
  | ldm (m : MastId) (w : Nat)
  | imem (m : MastId) (w : Nat)
  | bank (m : MastId) (w : Nat)
  | asm (m : MastId) (a : ArrId) (w : Nat)
  | tile (m : MastId) (t : Fin 16) (e : Nat)
  | breg (m : MastId) (w : Nat)
  | canvas (w : Nat)
  | cache (m : MastId) (l : Line) (w : Nat)
  | hbm (l : Line)
  deriving DecidableEq, Repr

/-- What the code of a memory finds in a cell: a correctable error, an uncorrectable one, or, in HBM, one that the stack itself corrected. -/
inductive Flaw where
  | corr | bad | onDie
  deriving DecidableEq, Repr

/-- An error that a cell holds. Errors arise outside the commands (log entry 83). -/
structure Upset where
  cell : Cell
  flaw : Flaw
  deriving DecidableEq, Repr

/-- A canvas block that an engine writes with a checksum and has not completed: the bytes it wrote there that others have written over (11 R279). -/
structure Making where
  m : MastId
  e : EngId
  blk : Nat
  foreign : List (Nat × Byte)
  deriving DecidableEq, Repr

/-- The whole module. `upsets` are the errors that its memories hold; `acks` are the acknowledgements due to engines without a cache, and `order` counts their writes that left the module.
`making` are the checksummed blocks that are being written, and `frees` numbers the free answers of the machine: how far the halyard has read (log
entry 43), whether a home is still busy with a Put (log entry 100), what credits a port has back (log entry 103), and those of log entries 115, 116 and 122 to 125. -/
structure State where
  masts : Vector Mast 128
  dies : Vector Die 2
  ram : Mem
  hbmPoison : List Nat
  hbmWq : List Line
  hbmRef : Sparse 8
  canvasBad : List Nat
  upsets : List Upset
  check : Tab
  making : List Making
  homes : List HomeLine
  frees : Nat
  resvs : List Resv
  tries : List Attempt
  msgs : List Msg
  posts : List Post
  acks : List AckDue
  order : Nat
  held : List (SlotId × Post)
  flts : List FltMsg
  nodeId : BitVec 14
  shrCfg : ShrCfg
  sports : Vector SPort 16
  sent : List (PortId × OutMsg)
  seenLost : List (BitVec 14 × BitVec 14)
  jobs : Vector Job 8
  chans : Vector Chan 64
  invs : List Inval
  invVa : BitVec 40
  invDone : Bool
  invOvf : Bool
  hosts : Hosts
  pow : Power
  snap : Snap
  svc : Svc
  boot : Boot
  pending : List Instr
  deriving DecidableEq, Repr

/-! ## Reset values -/

/-- A register bank after module reset (02 R45, 04 R105). -/
def CoreBank.reset : CoreBank :=
  { a := 0, x := 0, y := 0, sp := 0x40000, pl := 0, ph := 0, flags := 0
    ls := Vector.replicate 3 0, le := Vector.replicate 3 0, lc := Vector.replicate 3 0
    vl := 0, vtype := 0x13, heads := Vector.replicate 3 [], arm := Vector.replicate 3 0, loopWrites := [], aDue := 0 }

/-- The system registers of a bank after reset (14 Table 14-3). -/
def SysBank.reset : SysBank := { cause := 0, epc := 0, estatus := 0, tvec := 0, tval := 0, scratch := 0 }

/-- A control core after reset (02 Table 2-11, 14 Table 14-3). START_PC is loaded by firmware (log entry 1). -/
def Core.reset : Core :=
  { banks := Vector.replicate 4 CoreBank.reset, sys := Vector.replicate 4 SysBank.reset
    level := 2, im := true, bank := 2, halted := true, stopReq := false, xwerr := false
    pc := 0, npc := 0, startPc := 0, ldm := [], imem := [], muls := [], opening := [], ag := Vector.replicate 3 0, stalls := 0, returned := false
    waiting := none, loads := [], sb := [], wq := [], seq := 0, fenced := false, gate := [], gateUsed := []
    glimit := 0, ipend := 0, ien := 0, ilvl := 0, ulim := 0x40000, mlim := 0x40000 }

/-- A data cache after reset (12 R332). -/
def DCache.reset : DCache := { lines := [], victims := [], wb := [], reqs := [], flushing := false }

/-- The translation state of a mast after reset (13 Table 13-8). -/
def Xl.reset : Xl :=
  { root := 0, asid := 0, fqSize := 4, fqBase := 0, fqHead := 0, fqTail := 0, fqEn := false, fqOvf := false
    fqTimeout := false, fqSeq := 0, fullPeriod := false, faults := [], miss := [], tlbCore := [], tlbVec := [], tlbHal := [] }

/-- A long-vector unit after reset (04 Table 4-11). -/
def Vec.reset : Vec :=
  { vreg := [], kreg := [], queue := [], extra := 0, qent := [], saved := [], mem := none, mnext := 0, ready := [], tail := [], arith := none, failing := false
    stops := 0, reqs := [], nextGrp := 0, stopped := false, stopReq := false
    faulted := false, xwerr := false, vidxA := 0, vidxM := 0, faultVa := 0, faultPc := 0, faultWr := false
    faultKind := 0, faultElem := 0 }

/-- The token slots of a mast after reset (01 Table 1-10). -/
def Toks.reset : Toks := { count := [], stallEn := true, stallSent := 0, woken := 0 }

/-- The number-format registers after reset (05 Table 5-11). -/
def NumRegs.reset : NumRegs := { ovm := false, ftz := false, flags := 0 }

/-- An array after reset (06 R187). -/
def Arr.reset : Arr :=
  { queue := [], extra := 0, qent := [], saved := [], stopped := false, stopReq := false, faulted := false, xwerr := false, passes := []
    prevRig := false, prevFolub := false, fKind := 0, fTile := 0, fKdone := 0, fDaddr := 0, fBatch := false
    fBq := 0, fPc := 0
    passK := Vector.replicate 8 { kdone := 0, ktotal := 0, st := 0, rig := false, rows := 0 }
    bqs := Vector.replicate 4 { cfg := 0, armed := false, head := 0, set := false, trun := false, timer := 0 }
    fires := [], nextFire := 0, sticky := 0 }

/-- An accumulator tile after reset (07 Table 7-8). -/
def Tile.reset : Tile :=
  { ents := [], type := 0, rig := false, folub := false, repeats := 0, shift := 0, inflight := 0
    rscale := 0x3F800000, cscale := 0x3F800000 }

/-- The sheet engine after reset (08 R239). -/
def Sheet.reset : Sheet :=
  { queue := [], extra := 0, qent := [], saved := [], stopped := false, stopReq := false, faulted := false, xwerr := false, row := 0, st := 0, beat := 0
    fin := [], replies := [], owed := [], vals := [], hist := none, fKind := 0, fDaddr := 0, fRow := 0, fPc := 0, sticky := 0, breg := [] }

/-- HAL_PROG after reset. -/
def HalProg.reset : HalProg := { lines := 0, st := 0, dwok := false }

/-- The halyard after reset (11 R303). -/
def Hal.reset : Hal :=
  { queue := [], extra := 0, qent := [], saved := [], act := [], nextId := 0, stopped := false, stopReq := false, faulted := false, xwerr := false, exc := false
    faultVa := 0, fKind := 0, fSide := 0, fCh := false, fDaddr := 0, fPc := 0, fBlock := 0, prog := Vector.replicate 2 HalProg.reset }

/-- The canvas registers after reset (11 Table 11-10). -/
def Canvas.reset : Canvas := { scrub := true, ce := 0, ue := false, sel := 0, pos := Vector.replicate 4 0 }

/-- A stack after reset (11 Table 11-3). -/
def Hbm.reset : Hbm :=
  { scrub := true, interval := 64, trained := false, ueSeen := false, errPa := 0, errValid := false, errScrub := false, pos := 0 }

/-- A mast after reset. Every engine is furled (17 SAIL_STATUS). -/
def Mast.reset : Mast :=
  { core := Core.reset, dc := DCache.reset, xl := Xl.reset, vec := Vec.reset, tok := Toks.reset
    num := NumRegs.reset, arr := Vector.replicate 2 Arr.reset, tiles := Vector.replicate 16 Tile.reset, wsel := 0, bankMem := []
    rowmap := [], sheet := Sheet.reset, hal := Hal.reset, canv := Canvas.reset
    sail := 0xAAA, jslot := 0, jvalid := false, cnt := [], shadow := [], snapTag := 0 }

/-- A die after reset. -/
def Die.reset : Die :=
  { wc := [], walks := [], hbm := Vector.replicate 4 Hbm.reset, scFlush := 0, cnt := [], shadow := [], snapTag := 0 }

/-- A Shroud port after reset (15 Table 15-7). -/
def SPort.reset : SPort :=
  { en := true, v2only := false, plugged := false, up := false, training := false, trainFull := false
    window := false, ver := 0, downv2 := false, miscable := false, lost := false, stuck := false, peerKnown := false
    peerNode := 0, peerPort := 0, linkNode := 0, linkPort := 0, peerVer := 0, lat := 0, rtt := 0, waiting := [], kept := [], tx := Credits.full, rx := Credits.full }

/-- A job slot after reset. -/
def Job.reset : Job :=
  { jobid := 0, valid := false, fenced := false, reason := 0, jblk := 0, fltValid := false, fltMast := 0
    fltEng := 0, fltKind := 0, fltCnt := 0, owner := none, loaded := false, started := false, masts := 0
    startPc := 0, asid := 0, bundles := [] }

/-- A reduction channel after reset. -/
def Chan.reset : Chan :=
  { desc := 0, st := 0, flags := 0, fault := 0, count := 0, run := 0, ranks := [], staged := [], early := [] }

/-- A completion queue as it is created (16 R420, R421). -/
def Cq.fresh (num : BitVec 12) (base : Word) (sz : Nat) : Cq :=
  { num := num, base := base, sz := sz, head := 0, tail := 0, phase := true, hold := [] }

/-- A host function after reset (16 Table 16-8). -/
def Fn.reset : Fn :=
  { ver := 0, aqSz := 4, aqBase := 0, acqSz := 4, acqBase := 0, evSz := 4, evBase := 0, arm := false
    evHead := 0, evTail := 0, lost := 0, evPhase := true, ovfDue := false, dbOwn := 0, verErr := false
    cqh := false, ctxMiss := 0, asqHead := 0, asqTail := 0, asqStopped := false, acq := Cq.fresh 0 0 16, cqs := [], rrQ := 0 }

/-- A host port after power-on: busy with WHY = reset (16 R425, 18 R459); its link is down and PERST_N asserted
(log entry 3). -/
def HPort.reset : HPort :=
  { fns := Vector.replicate 17 Fn.reset, attn := 0, linkUp := false, perst := true, hsig := .busy
    attnReq := false, causeReset := true, rrFn := 0, cpl := none, mem := [] }

/-- The host side after power-on. -/
def Hosts.reset : Hosts :=
  { ports := Vector.replicate 2 HPort.reset, sqs := [], grants := [], cmds := [], seq := 0, resident := [], dbs := [] }

/-- Power after power-on (17 Table 17-9): the always-on domain is on, the compute domain off and the input switch
open (log entry 3). -/
def Power.reset : Power :=
  { trimReq := 0, trimCur := 0, changing := false, gov := 0, overcap := false, thermal := false, infault := false
    cap := 1400, vin := 0, iin := 0, pin := 0, tmax := 0, furl := 25000, below := 0, cool := 0, hotDrain := false
    aoOn := true, compOn := false, inSwitch := false, noStart := false, tree := .idle, govWait := false, snapWait := false }

/-- The snapshot state after reset. -/
def Snap.reset : Snap := { busy := false, seq := 0, infl := [], markers := [], cnt := [], shadow := [] }

/-- The panel after reset. -/
def Svc.reset : Svc :=
  { strike := .idle, forced := false, lever := false, locate := false, drained := false }

/-- No findings. -/
def CryptoFindings.none : CryptoFindings := { key := false, sig := false, digest := false }

/-- No image. -/
def ImgFacts.none : ImgFacts := { digest := 0, svn := 0, keyidx := 0, revoke := 0 }

/-- Start-up and security before the first start (log entry 1). -/
def Boot.reset : Boot :=
  { stage := 0, cnBank := false, fail := 0, fallback := false, resets := 0, fuseCn := 0, fuseMast := 0
    fuseKeys := Vector.replicate 4 0, revoked := 0, runCn := ImgFacts.none, runMast := ImgFacts.none
    flash := [], marked := false, inactiveBad := false, railsOk := true, hbmOk := true, foundCn := Vector.replicate 2 CryptoFindings.none
    foundMast := Vector.replicate 2 CryptoFindings.none, fwBusy := false, fwResult := 0, stageMem := []
    recValid := false, recNode := 0, recCfg := 0, attBusy := false, attDone := false, nonce := [], reqNonce := []
    report := [], cert := [], serial := 0 }

/-- SHR_CFG before firmware loads it (log entry 1). -/
def ShrCfg.reset : ShrCfg := { size0 := 0, size1 := 0, size2 := 0, size3 := 0, planes := false }

/-- The module right after reset, with no command waiting. -/
def State.reset : State :=
  { masts := Vector.replicate 128 Mast.reset, dies := Vector.replicate 2 Die.reset, ram := [], hbmPoison := [], hbmWq := [], hbmRef := []
    canvasBad := [], upsets := [], check := [], making := [], homes := [], frees := 0, resvs := [], tries := [], msgs := [], posts := [], acks := [], order := 0, held := [], flts := [], nodeId := 0
    shrCfg := ShrCfg.reset, sports := Vector.replicate 16 SPort.reset, sent := [], seenLost := []
    jobs := Vector.replicate 8 Job.reset, chans := Vector.replicate 64 Chan.reset, invs := [], invVa := 0
    invDone := false, invOvf := false, hosts := Hosts.reset, pow := Power.reset, snap := Snap.reset
    svc := Svc.reset, boot := Boot.reset, pending := [] }

end Sys2Proof.Machine
end

