-- ==== Sys2Proof/Machine/Ops.lean ====
section
/-!
DEFINITION. The named operations over the state that every block shares: parts of the module by number, the
local physical memory map (01), token posts (01), events and the HSIG pins (16), and the faults and the fencing of
jobs (15, 18).
-/

namespace Sys2Proof.Machine

/-! ## Parts of the state -/

/-- Mast `m`. -/
def State.mast (s : State) (m : MastId) : Mast := s.masts.get m
/-- Put a mast back. -/
def State.setMast (s : State) (m : MastId) (x : Mast) : State := { s with masts := s.masts.set m.val x m.isLt }
/-- Change mast `m`. -/
def State.modMast (s : State) (m : MastId) (f : Mast → Mast) : State := s.setMast m (f (s.mast m))
/-- Change the control core of mast `m`. -/
def State.modCore (s : State) (m : MastId) (f : Core → Core) : State := s.modMast m fun x => { x with core := f x.core }
/-- Change the data cache of mast `m`. -/
def State.modDc (s : State) (m : MastId) (f : DCache → DCache) : State := s.modMast m fun x => { x with dc := f x.dc }
/-- Change the translation state of mast `m`. -/
def State.modXl (s : State) (m : MastId) (f : Xl → Xl) : State := s.modMast m fun x => { x with xl := f x.xl }
/-- Change the long-vector unit of mast `m`. -/
def State.modVec (s : State) (m : MastId) (f : Vec → Vec) : State := s.modMast m fun x => { x with vec := f x.vec }
/-- Change the sheet engine of mast `m`. -/
def State.modSheet (s : State) (m : MastId) (f : Sheet → Sheet) : State :=
  s.modMast m fun x => { x with sheet := f x.sheet }
/-- Change the halyard of mast `m`. -/
def State.modHal (s : State) (m : MastId) (f : Hal → Hal) : State := s.modMast m fun x => { x with hal := f x.hal }
/-- Array `a` of mast `m`. -/
def State.array (s : State) (m : MastId) (a : ArrId) : Arr := (s.mast m).arr.get a
/-- Change array `a` of mast `m`. -/
def State.modArr (s : State) (m : MastId) (a : ArrId) (f : Arr → Arr) : State :=
  s.modMast m fun x => { x with arr := x.arr.set a.val (f (x.arr.get a)) a.isLt }
/-- Die `d`. -/
def State.die (s : State) (d : DieId) : Die := s.dies.get d
/-- Change die `d`. -/
def State.modDie (s : State) (d : DieId) (f : Die → Die) : State :=
  { s with dies := s.dies.set d.val (f (s.die d)) d.isLt }
/-- Job slot `j`. -/
def State.job (s : State) (j : JobSlot) : Job := s.jobs.get j
/-- Change job slot `j`. -/
def State.modJob (s : State) (j : JobSlot) (f : Job → Job) : State :=
  { s with jobs := s.jobs.set j.val (f (s.job j)) j.isLt }
/-- Channel `c`. -/
def State.chan (s : State) (c : ChanId) : Chan := s.chans.get c
/-- Change channel `c`. -/
def State.modChan (s : State) (c : ChanId) (f : Chan → Chan) : State :=
  { s with chans := s.chans.set c.val (f (s.chan c)) c.isLt }
/-- Shroud port `p`. -/
def State.sport (s : State) (p : PortId) : SPort := s.sports.get p
/-- Change Shroud port `p`. -/
def State.modSport (s : State) (p : PortId) (f : SPort → SPort) : State :=
  { s with sports := s.sports.set p.val (f (s.sport p)) p.isLt }
/-- Host port `h`. -/
def State.hport (s : State) (h : HostPort) : HPort := s.hosts.ports.get h
/-- Change the host side. -/
def State.modHosts (s : State) (f : Hosts → Hosts) : State := { s with hosts := f s.hosts }
/-- Change host port `h`. -/
def State.modHport (s : State) (h : HostPort) (f : HPort → HPort) : State :=
  s.modHosts fun x => { x with ports := x.ports.set h.val (f (x.ports.get h)) h.isLt }
/-- Host function `f`. -/
def State.hfn (s : State) (f : FnId) : Fn := (s.hport f.port).fns.get f.fn
/-- Change host function `f`. -/
def State.modFn (s : State) (f : FnId) (g : Fn → Fn) : State :=
  s.modHport f.port fun x => { x with fns := x.fns.set f.fn.val (g (x.fns.get f.fn)) f.fn.isLt }
/-- Change the power state. -/
def State.modPow (s : State) (f : Power → Power) : State := { s with pow := f s.pow }
/-- Change the snapshot state. -/
def State.modSnap (s : State) (f : Snap → Snap) : State := { s with snap := f s.snap }
/-- Change the panel. -/
def State.modSvc (s : State) (f : Svc → Svc) : State := { s with svc := f s.svc }
/-- Change the start-up state. -/
def State.modBoot (s : State) (f : Boot → Boot) : State := { s with boot := f s.boot }

/-- Apply an operation for every mast, in increasing number. -/
def State.eachMast (s : State) (f : MastId → State → State) : State := (fins 128).foldl (fun t m => f m t) s
/-- Apply an operation for every job slot. -/
def State.eachJob (s : State) (f : JobSlot → State → State) : State := (fins 8).foldl (fun t j => f j t) s
/-- Apply an operation for every channel. -/
def State.eachChan (s : State) (f : ChanId → State → State) : State := (fins 64).foldl (fun t c => f c t) s

/-- Count one in the counting field at offset `off` of a mast's block (17 R445). -/
def State.bump (s : State) (m : MastId) (off : Nat) : State := s.modMast m fun x => { x with cnt := Tab.inc x.cnt off }
/-- Count `n` in the counting field at offset `off` of a mast's block. -/
def State.bumpBy (s : State) (m : MastId) (off n : Nat) : State :=
  s.modMast m fun x => { x with cnt := Tab.add x.cnt off n }
/-- Count one in a counting field of a die's block. -/
def State.bumpDie (s : State) (d : DieId) (off : Nat) : State := s.modDie d fun x => { x with cnt := Tab.inc x.cnt off }
/-- Count one in a counting field of the per-module block. -/
def State.bumpMod (s : State) (off : Nat) : State := s.modSnap fun x => { x with cnt := Tab.inc x.cnt off }
/-- Count one in a saturating field of `w` bits at bit `lo` of a word of a table. -/
def Tab.satField (t : Tab) (off lo w : Nat) : Tab :=
  let v := Sparse.get t off
  let n := wfld v lo w
  Sparse.set t off (BitVec.ofNat 64 (v.toNat - n * 2 ^ lo + satInc w n * 2 ^ lo))

/-! ## Command queues (01 R40) -/

/-- How many commands beyond one entry 0 of a queue stands for at least: 16 entries hold all of it. -/
def surplus {α : Type} (q : List α) : Nat := q.length - 16

/-- The entries of a queue: entry 0 stands for its first commands, `extra` beyond one or as many as 16 entries need, every other entry for one (log
entry 92). -/
def packs {α : Type} (extra : Nat) : List α → List (List α)
  | [] => []
  | q => q.take (max extra (surplus q) + 1) :: (q.drop (max extra (surplus q) + 1)).map fun c => [c]

/-! ## Errors of memories (02 R51, 11 R275) -/

/-- The errors of a kind that cells hold. -/
def State.flaws (s : State) (k : Flaw) (p : Cell → Bool) : Nat := (s.upsets.filter fun u => u.flaw == k && p u.cell).length

/-- Whether a cell among those read holds an uncorrectable error. -/
def State.bad (s : State) (p : Cell → Bool) : Bool := s.upsets.any fun u => u.flaw == .bad && p u.cell

/-- Cells are written whole: their errors are gone. -/
def State.mend (s : State) (p : Cell → Bool) : State := { s with upsets := s.upsets.filter fun u => !p u.cell }

/-- Count `n` in a saturating field of `w` bits of a word of a table. -/
def Tab.satAdd (t : Tab) (off lo w n : Nat) : Tab := (List.range n).foldl (fun t _ => Tab.satField t off lo w) t

/-! ## The memory map (01) -/

/-- Whether `off` lies in a range of `n` bytes from `lo`. -/
def within (off lo n : Nat) : Bool := decide (lo ≤ off ∧ off < lo + n)

/-- What lies at a local physical address (01 Table 1-3). -/
inductive Place where
  | hbm | canvas (m : MastId) | reserved | regs
  deriving DecidableEq, Repr

/-- The first address of canvas. -/
def canvasBase : Nat := 0x3000000000
/-- The first address of the register window. -/
def regBase : Nat := 0x3F00000000

/-- The place of a local physical address. -/
def placeOf (pa : Nat) : Place :=
  if pa < canvasBase then .hbm
  else if pa < 0x3200000000 then .canvas (Fin.ofNat 128 ((pa - canvasBase) / 0x4000000))
  else if pa < regBase then .reserved
  else if pa < 0x4000000000 then .regs
  else .reserved

/-- The first local address of a mast's canvas slice. -/
def sliceBase (m : MastId) : Nat := canvasBase + m.val * 0x4000000
/-- The local address of an offset into the own slice. -/
def sliceAddr (m : MastId) (off : Nat) : Nat := sliceBase m + off % 0x4000000
/-- The tier of an offset into a slice (01 R16). -/
def tierOf (off : Nat) : Nat := fld off 24 2
/-- The die of a mast. -/
def dieOf (m : MastId) : DieId := if m.val < 64 then 0 else 1
/-- The stack of an HBM address (01 R15). -/
def stackOf (pa : Nat) : Fin 8 :=
  Fin.ofNat 8 ((if pa < 0x1800000000 then 0 else 4) + fld pa 12 2)
/-- The die and slice that are the home of an HBM address (01 R17). -/
def homeOf (pa : Nat) : DieId × Fin 64 :=
  (if pa < 0x1800000000 then 0 else 1, Fin.ofNat 64 (fld pa 7 6))
/-- The queue-context region (16 R416). -/
def inCtxRegion (pa : Nat) : Bool := decide (0x2FF8000000 ≤ pa ∧ pa < 0x3000000000)
/-- The node field of a PA. -/
def nodeOf (pa : BitVec 52) : BitVec 14 := BitVec.ofNat 14 (pa.toNat / 2 ^ 38)
/-- The local part of a PA. -/
def localOf (pa : BitVec 52) : Nat := pa.toNat % 2 ^ 38
/-- Whether a PA lies on this module (01 R21). -/
def State.isOwn (s : State) (pa : BitVec 52) : Bool := nodeOf pa == s.nodeId

/-! ## Sail states -/

/-- The sail state of an engine: 0 set, 1 reefed, 2 furled (17 SAIL_STATUS). -/
def sailOf (x : Mast) (e : EngId) : Nat := fld x.sail.toNat (2 * e.val) 2
/-- Set the sail state of an engine. -/
def setSail (x : Mast) (e : EngId) (v : Nat) : Mast :=
  { x with sail := BitVec.ofNat 12 (x.sail.toNat - sailOf x e * 4 ^ e.val + v * 4 ^ e.val) }
/-- Whether an engine is set. -/
def State.engSet (s : State) (m : MastId) (e : EngId) : Bool := sailOf (s.mast m) e = 0

/-! ## Tokens (01 R32-R42) -/

/-- The first flat slot index and the number of slots of an engine (01 Table 1-8). -/
def slotRange : Nat → Nat × Nat
  | 0 => (0, 8) | 1 => (8, 8) | 2 => (16, 16) | 3 => (32, 16) | 4 => (48, 16) | 5 => (64, 32) | _ => (0, 0)

/-- The slot that a token address names, whatever its NODE; none if a post to it does not post (01 R33). -/
def slotOf (addr : BitVec 32) : Option SlotId :=
  let n := addr.toNat
  let slot := fld n 0 6
  let e := fld n 6 3
  let mast := fld n 9 7
  if fld n 30 2 ≠ 0 then none
  else if e = 6 then (if mast = 0 then some (.chan (Fin.ofNat 64 slot)) else none)
  else
    let r := slotRange e
    if slot < r.2 then some (.mast (Fin.ofNat 128 mast) (Fin.ofNat 96 (r.1 + slot))) else none

/-- A token address that no post may name (01 R33). -/
def badToken (addr : BitVec 32) : Bool := (slotOf addr).isNone

/-- The node a token address names. -/
def tokenNode (addr : BitVec 32) : BitVec 14 := BitVec.ofNat 14 (fld addr.toNat 16 14)

/-- The count of a slot. -/
def State.slotCount (s : State) : SlotId → BitVec 8
  | .mast m i => Sparse.get (s.mast m).tok.count i.val
  | .chan c => (s.chan c).count

/-- Set the count of a slot. -/
def State.setSlot (s : State) (i : SlotId) (v : BitVec 8) : State :=
  match i with
  | .mast m k => s.modMast m fun x => { x with tok := { x.tok with count := Sparse.set x.tok.count k.val v } }
  | .chan c => s.modChan c fun x => { x with count := v }

/-- The job slot that a channel belongs to. -/
def Chan.jslot (c : Chan) : JobSlot := Fin.ofNat 8 (dfld c.desc 0 10 3)

/-- The job slot of a token slot's job, if it has one. -/
def State.slotJob (s : State) : SlotId → Option JobSlot
  | .mast m _ => if (s.mast m).jvalid then some (s.mast m).jslot else none
  | .chan c => if (s.job (s.chan c).jslot).valid then some (s.chan c).jslot else none

/-- Whether the job of a slot is fenced, so that tokens for it are discarded (01 R42). -/
def State.slotFenced (s : State) (i : SlotId) : Bool :=
  match s.slotJob i with
  | some j => (s.job j).fenced
  | none => false

/-- Send a token on its way (01 R37): its address has been checked. -/
def State.post (s : State) (addr : BitVec 32) (src : Poster) (seq : Nat) : State :=
  { s with posts := s.posts ++ [{ addr := addr, src := src, seq := seq }] }

/-- Post from an engine without a store buffer: the post waits for the acknowledgements of its earlier writes (01 R37). -/
def State.postFrom (s : State) (m : MastId) (e : EngId) (addr : BitVec 32) : State := s.post addr (.engine m e) s.order

/-- Whether an acknowledgement of engine `e` of a mast is due for a write that satisfies `p`. -/
def State.acksDue (s : State) (m : MastId) (e : EngId) (p : AckDue → Bool) : Bool := s.acks.any fun a => decide (a.m = m ∧ a.e = e) && p a

/-- An acknowledgement becomes due for a write of an engine that leaves the module. -/
def State.awaitAck (s : State) (m : MastId) (e : EngId) (tag : Nat) (pa : BitVec 52) : State :=
  { s with acks := s.acks ++ [{ m := m, e := e, seq := s.order, tag := tag, pa := pa }], order := s.order + 1 }

/-- The posts held at a slot. -/
def State.heldAt (s : State) (i : SlotId) : List Post := (s.held.filter fun p => p.1 == i).map (·.2)

/-- An engine of a mast has a cause to wake (01 R39, 03 R101). -/
def State.wake (s : State) (m : MastId) (e : EngId) : State :=
  s.modMast m fun x => { x with tok := { x.tok with woken := x.tok.woken ||| BitVec.ofNat 6 (2 ^ e.val) } }

/-- The engine that a flat slot belongs to (01 Table 1-7). -/
def slotEngine (k : Fin 96) : EngId :=
  if k.val < 8 then 0 else if k.val < 16 then 1 else if k.val < 32 then 2 else if k.val < 48 then 3 else if k.val < 64 then 4 else 5

/-- The oldest post held at a slot that has room again is counted (01 R34). -/
def State.landHeld (s : State) (i : SlotId) : State :=
  if 255 ≤ (s.slotCount i).toNat then s
  else
    match takeFirst (fun h => h.1 == i) s.held with
    | none => s
    | some (_, rest) => { s with held := rest }.setSlot i (s.slotCount i + 1)

/-- A token reaches a slot: it is counted, held while the slot is full or an older post is held there, or discarded with a fenced job. A post
that is held is applied ahead of every post that arrives (01 R34). -/
def State.land (s : State) (i : SlotId) (p : Post) : State :=
  if s.slotFenced i then s
  else
    let s := s.landHeld i
    if (s.slotCount i).toNat < 255 ∧ (s.heldAt i).isEmpty then s.setSlot i (s.slotCount i + 1)
    else { s with held := s.held ++ [(i, p)] }

/-- Whether every named slot of a list of flat indices of a mast holds a token (01 R35). -/
def State.haveTokens (s : State) (m : MastId) (is : List (Fin 96)) : Bool :=
  is.all fun i => decide (0 < (s.slotCount (.mast m i)).toNat)

/-- Take one token from each named slot (01 R35). -/
def State.consume (s : State) (m : MastId) (is : List (Fin 96)) : State :=
  is.foldl (fun t i => t.setSlot (.mast m i) (t.slotCount (.mast m i) - 1)) s

/-- A waiting command of engine `e` has started or gone: its token-stall event counts no more (01 R41). -/
def State.clearStall (s : State) (m : MastId) (e : EngId) : State :=
  s.modMast m fun x =>
    { x with tok := { x.tok with stallSent := BitVec.ofNat 6 (x.tok.stallSent.toNat - fld x.tok.stallSent.toNat e.val 1 * 2 ^ e.val) } }

/-- The flat indices of the slots of engine `e` that a mask of `w` bits names. -/
def maskSlots (e mask w : Nat) : List (Fin 96) :=
  ((List.range w).filter fun i => mask / 2 ^ i % 2 = 1).map fun i => Fin.ofNat 96 ((slotRange e).1 + i)

/-! ## Shroud ports: sending (15 R391) -/

/-- The coordinate of a node in a dimension (15 R382). -/
def coord (n : BitVec 14) : Nat → Nat
  | 0 => fld n.toNat 0 4 | 1 => fld n.toNat 4 4 | 2 => fld n.toNat 8 3 | _ => fld n.toNat 11 3
/-- The ring size of a dimension. -/
def ShrCfg.size (c : ShrCfg) : Nat → Nat
  | 0 => c.size0.toNat + 1 | 1 => c.size1.toNat + 1 | 2 => c.size2.toNat + 1 | _ => c.size3.toNat + 1
/-- The dimension of a port (15 Table 15-1). -/
def portDim (p : PortId) : Nat := p.val % 8 / 2
/-- Whether the module uses a port: not in a dimension of size 1, and plane 0 alone with PLANES = 1 (15 R382, R386). -/
def State.portUsed (s : State) (p : PortId) : Bool := decide (s.shrCfg.size (portDim p) ≠ 1) && !(s.shrCfg.planes && decide (8 ≤ p.val))
/-- START of a dimension in a SHR_JBLK value. -/
def blkStart (b : Word) : Nat → Nat
  | 0 => wfld b 0 4 | 1 => wfld b 4 4 | 2 => wfld b 8 3 | _ => wfld b 12 3
/-- The block length of a dimension in a SHR_JBLK value. -/
def blkLen (b : Word) : Nat → Nat
  | 0 => wfld b 16 4 + 1 | 1 => wfld b 20 4 + 1 | 2 => wfld b 24 3 + 1 | _ => wfld b 28 3 + 1
/-- The position of a node in a block in a dimension (15 R400). -/
def blkPos (cfg : ShrCfg) (b : Word) (n : BitVec 14) (d : Nat) : Nat :=
  (coord n d + cfg.size d - blkStart b d % cfg.size d) % cfg.size d
/-- Whether a node lies in a block (15 R393). -/
def inBlock (cfg : ShrCfg) (b : Word) (n : BitVec 14) : Bool :=
  (List.range 4).all fun d => decide (blkPos cfg b n d < blkLen b d)
/-- The module rank of a node in a block (15 R400). -/
def blkRank (cfg : ShrCfg) (b : Word) (n : BitVec 14) : Nat :=
  blkPos cfg b n 0 + blkLen b 0 * (blkPos cfg b n 1 + blkLen b 1 * (blkPos cfg b n 2 + blkLen b 2 * blkPos cfg b n 3))
/-- The number of members of a block. -/
def blkMembers (b : Word) : Nat := blkLen b 0 * blkLen b 1 * blkLen b 2 * blkLen b 3
/-- The node of a module rank of a block. -/
def blkNode (cfg : ShrCfg) (b : Word) (r : Nat) : BitVec 14 :=
  let p0 := r % blkLen b 0
  let r1 := r / blkLen b 0
  let p1 := r1 % blkLen b 1
  let r2 := r1 / blkLen b 1
  let p2 := r2 % blkLen b 2
  let p3 := r2 / blkLen b 2
  let c := fun d p => (blkStart b d + p) % cfg.size d
  BitVec.ofNat 14 (c 0 p0 + 16 * c 1 p1 + 256 * c 2 p2 + 2048 * c 3 p3)

/-- Whether a message for a job's block goes in the + direction of a dimension: the way inside the block, or the shorter way of a whole ring (15 R391). -/
def goesPlus (cfg : ShrCfg) (b : Word) (src dst : BitVec 14) (d : Nat) : Bool :=
  let n := cfg.size d
  if blkLen b d ≥ n then decide (2 * ((coord dst d + n - coord src d % n) % n) ≤ n) else decide (blkPos cfg b src d ≤ blkPos cfg b dst d)

/-- The exit port of a message from this module to `dst` for a job's block, in a plane: in the first dimension that differs (15 R391). -/
def exitPort (cfg : ShrCfg) (b : Word) (src dst : BitVec 14) (plane : Nat) : PortId :=
  let pl := if cfg.planes then 0 else plane
  match (List.range 4).find? fun d => coord src d ≠ coord dst d with
  | none => Fin.ofNat 16 (pl * 8)
  | some d => Fin.ofNat 16 (pl * 8 + 2 * d + b2n (!goesPlus cfg b src dst d))

/-- The port by which a message from `src` enters this module: in the last dimension that differs, from the side it comes (15 R391). -/
def entryPort (cfg : ShrCfg) (b : Word) (src dst : BitVec 14) (plane : Nat) : PortId :=
  let pl := if cfg.planes then 0 else plane
  match (List.range 4).reverse.find? fun d => coord src d ≠ coord dst d with
  | none => Fin.ofNat 16 (pl * 8)
  | some d => Fin.ofNat 16 (pl * 8 + 2 * d + b2n (goesPlus cfg b src dst d))

/-- The flits that a message takes: 256 payload bytes each; the notices of link control take none (15 R384, R390). -/
def OutMsg.flits : OutMsg → Nat
  | .linkLost _ _ | .fence _ _ _ | .replay => 0
  | .forward m => m.flits
  | .segment _ m _ => max 1 (cdiv m.data.length 256)
  | _ => 1

/-- A message leaves on a port that is up, which keeps its flits for a replay (15 R384). -/
def State.emit (s : State) (p : PortId) (msg : OutMsg) : State :=
  { (s.modSnap fun x => { x with cnt := Tab.add x.cnt (0x10120 + 0x40 * p.val) msg.flits }).modSport p fun x =>
      { x with kept := if msg.flits = 0 then x.kept else x.kept ++ [msg] } with sent := s.sent ++ [(p, msg)] }

/-- Spend credits for `n` flits of a class: the reserved ones first, then shared ones (15 R388). Gives how many of each were spent. -/
def Credits.take (c : Credits) (k : Fin 3) (n : Nat) : Option (Credits × Nat × Nat) :=
  let own := min n (c.own.get k)
  if n - own ≤ c.shared then some ({ own := c.own.set k.val (c.own.get k - own) k.isLt, shared := c.shared - (n - own) }, own, n - own) else none

/-- Give credits back to the pools they came from. -/
def Credits.give (c : Credits) (k : Fin 3) (own shared : Nat) : Credits :=
  { own := c.own.set k.val (min 16 (c.own.get k + own)) k.isLt, shared := min 464 (c.shared + shared) }

/-- The credits that a peer has given back since the port was last looked at (log entry 103). -/
def Credits.refill (c : Credits) (n : Nat) : Credits :=
  (fins 3).foldl (fun c k => c.give k (Config.credits n k.val) 0) (c.give 0 0 (Config.credits n 3))

/-- The message that a port grants next, the credits after it, and the messages that wait on: link control ahead of every class and without a credit
(15 R390); else the oldest message of a class, if it has credits: class 0 first, but class 1, or else class 2, where it has waited as long as 01 R25 says, which
`aged` tells as bits. Within a class the order is kept (R392). -/
def grantNext (aged : Nat) (c : Credits) (ws : List Waiting) : Option (Waiting × Credits × List Waiting) :=
  match takeFirst (fun w => decide (w.msg.flits = 0)) ws with
  | some (w, rest) => some (w, c, rest)
  | none =>
    let pick := fun (k : Fin 3) =>
      match takeFirst (fun w => decide (w.cls = k)) ws with
      | some (w, rest) => (c.take k w.msg.flits).map fun q => (w, q.1, rest)
      | none => none
    let old := ([1, 2] : List (Fin 3)).filter fun k => aged.testBit k.val
    (old ++ fins 3).findSome? pick

/-- The messages that leave, in order, and those that wait on for credits. -/
def sendable (aged : Nat → Nat) : Nat → Credits → List Waiting → Credits × List Waiting × List Waiting
  | 0, c, ws => (c, [], ws)
  | fuel + 1, c, ws =>
    match grantNext (aged fuel) c ws with
    | none => (c, [], ws)
    | some (w, c', rest) => let r := sendable aged fuel c' rest; (r.1, w :: r.2.1, r.2.2)

/-- A message that waited leaves, and its place in the receive buffer of the port it came by is free. -/
def State.leaveBy (s : State) (p : PortId) (w : Waiting) : State :=
  let s := s.emit p w.msg
  match w.src with
  | some (q, own, shared) => s.modSport q fun x => { x with rx := x.rx.give w.cls own shared }
  | none => s

/-- What waits for a port that is up leaves, as far as the port has credits. -/
def State.pump (s : State) (p : PortId) : State :=
  let x := s.sport p
  if !x.up then s
  else
    let r := sendable (Config.aged s.frees) x.waiting.length (x.tx.refill s.frees) x.waiting
    let s := { s with frees := s.frees + 1 }.modSport p fun x => { x with tx := r.1, waiting := r.2.2, kept := x.kept.drop (Config.acked s.frees) }
    r.2.1.foldl (fun t w => t.leaveBy p w) s

/-- Hand a message to a Shroud port: it leaves while the port is up and has credits, and waits otherwise (15 R388, R395). -/
def State.sendOn (s : State) (p : PortId) (k : Fin 3) (src : Option (PortId × Nat × Nat)) (msg : OutMsg) : State :=
  (s.modSport p fun x => { x with waiting := x.waiting ++ [{ msg := msg, cls := k, src := src }] }).pump p

/-- Send a message to another module of a job, in a priority class (15 R391). -/
def State.sendTo (s : State) (b : Word) (dst : BitVec 14) (plane : Nat) (k : Fin 3) (msg : OutMsg) : State :=
  s.sendOn (exitPort s.shrCfg b s.nodeId dst plane) k none msg

/-! ## Messages of other members (15 R393) -/

/-- The bits of SHR_JBLK that are not Reserved (15 Table 15-7). -/
def jblkMask : Word := 0x77FF77FF

/-- A field of a queue entry of a host. -/
def eb (e : List Byte) (off n : Nat) : Nat := ofBytes ((e.drop off).take n)

/-- Whether this module accepts a message of a member: a valid slot holds its JOBID, is not fenced, and its block holds the sender. -/
def State.accepts (s : State) (node : BitVec 14) (jobid : BitVec 16) : Bool :=
  (fins 8).any fun j =>
    let x := s.job j
    x.valid && !x.fenced && x.jobid == jobid && inBlock s.shrCfg x.jblk node

/-- The block that routes an answer to a member: that of a valid slot with its JOBID, else the block of every module (log entry 31). -/
def State.replyBlock (s : State) (jobid : BitVec 16) : Word :=
  match (fins 8).find? fun j => (s.job j).valid && (s.job j).jobid == jobid with
  | some j => (s.job j).jblk
  | none => BitVec.ofNat 64 (s.shrCfg.size0.toNat * 2 ^ 16 + s.shrCfg.size1.toNat * 2 ^ 20 + s.shrCfg.size2.toNat * 2 ^ 24 +
      s.shrCfg.size3.toNat * 2 ^ 28)

/-- Flits of a member's message that ends here are counted at the port they came by (15 R391, Table 15-7). -/
def State.flitsIn (s : State) (plane : Fin 2) (node : BitVec 14) (jobid : BitVec 16) (n : Nat) : State :=
  let p := entryPort s.shrCfg (s.replyBlock jobid) node s.nodeId plane.val
  s.modSnap fun x => { x with cnt := Tab.add x.cnt (0x10128 + 0x40 * p.val) n }

/-- An answer leaves for a member, in the plane and the class of its request (15 R391). -/
def State.reply (s : State) (plane : Fin 2) (k : Fin 3) (node : BitVec 14) (jobid : BitVec 16) (msg : OutMsg) : State :=
  s.sendTo (s.replyBlock jobid) node plane.val k msg

/-- A message of a member is refused. -/
def State.refuse (s : State) (plane : Fin 2) (k : Fin 3) (node : BitVec 14) (jobid : BitVec 16) : State := s.reply plane k node jobid (.refusal node jobid)

/-! ## Events and attention (16 R422-R425) -/

/-- The types of event entries (16 R422). -/
inductive EvType where
  | tokenStall | hbmError | fqFull | jobFenced | jobFault | linkLost | queueError | cqFull | locate | strike | lever
  | overflow
  deriving DecidableEq, Repr

/-- The number the model gives a type; its code is `Config.eventCode` of it. -/
def EvType.num : EvType → Nat
  | .tokenStall => 0 | .hbmError => 1 | .fqFull => 2 | .jobFenced => 3 | .jobFault => 4 | .linkLost => 5
  | .queueError => 6 | .cqFull => 7 | .locate => 8 | .strike => 9 | .lever => 10 | .overflow => 11

/-- Whether a function negotiated to `ver` is written events of a type (16 R428, R429); a function that has
negotiated nothing is written none (log entry 11). -/
def evAllowed (ver : BitVec 16) (t : EvType) : Bool :=
  let major := fld ver.toNat 8 8
  let minor := fld ver.toNat 0 8
  if major = 2 then
    match t with
    | .tokenStall | .jobFenced | .jobFault | .overflow => true
    | _ => false
  else if major = 3 then
    match t with
    | .locate | .strike | .lever => decide (1 ≤ minor)
    | _ => true
  else false

/-- Write an entry at the tail of a function's event ring: entry, index, phase, HOST_ATTN and, with ARM, the
request for attention. The ring has room. -/
def State.writeEvent (s : State) (f : FnId) (t : EvType) (jobid : BitVec 16) (detail : List Byte) : State :=
  let x := s.hfn f
  let n := 2 ^ x.evSz.toNat
  let at' := x.evBase.toNat * 4096 + 32 * x.evTail.toNat
  let entry := [Config.eventCode t.num, BitVec.ofNat 8 (b2n x.evPhase)] ++ toBytes 2 jobid.toNat ++ detail
  let tail := (x.evTail.toNat + 1) % n
  let s := s.modFn f fun y =>
    { y with evTail := BitVec.ofNat 12 tail, evPhase := if tail = 0 then !y.evPhase else y.evPhase }
  s.modHport f.port fun p =>
    { p with mem := Mem.put p.mem at' entry, attn := p.attn ||| BitVec.ofNat 17 (2 ^ f.fn.val)
             attnReq := p.attnReq || x.arm }

/-- Whether a function's event ring is full. -/
def Fn.evFull (x : Fn) : Bool := decide ((x.evTail.toNat + 1) % 2 ^ x.evSz.toNat = x.evHead.toNat)

/-- Post an event to a function's ring (16 R422): dropped and counted when the ring is full or the version has not
the type. -/
def State.event (s : State) (f : FnId) (t : EvType) (jobid : BitVec 16) (detail : List Byte) : State :=
  let x := s.hfn f
  if !evAllowed x.ver t then s.modFn f fun y => { y with lost := BitVec.ofNat 16 (satInc 16 y.lost.toNat) }
  else if x.evFull then
    s.modFn f fun y => { y with lost := BitVec.ofNat 16 (satInc 16 y.lost.toNat), ovfDue := true }
  else s.writeEvent f t jobid detail

/-- The detail bytes of an event whose layout the spec does not give. -/
def evDetail (t : EvType) (info : Nat) : List Byte := toBytes 28 (Config.eventDetail t.num info).toNat

/-- Post a module event to the PF ring of both ports (16 R422). -/
def State.moduleEvent (s : State) (t : EvType) (info : Nat) : State :=
  (s.event ⟨0, 0⟩ t 0 (evDetail t info)).event ⟨1, 0⟩ t 0 (evDetail t info)

/-- Post an event about a job to the ring of its owning function. -/
def State.jobEvent (s : State) (j : JobSlot) (t : EvType) (detail : List Byte) : State :=
  match (s.job j).owner with
  | some f => s.event f t (s.job j).jobid detail
  | none => s

/-- Drive a pin busy: a cause has arisen (16 R425). A pulse in progress is cut. -/
def State.raiseBusy (s : State) (h : HostPort) : State :=
  s.modHport h fun p => { p with hsig := .busy }
/-- Drive both pins busy. -/
def State.raiseBusyBoth (s : State) : State := (s.raiseBusy 0).raiseBusy 1

/-- Whether the pin of a port has a busy cause, and WHY: 0 reset, 1 firmware update, 2 strike, 3 drain (16 R425). -/
def State.busyWhy (s : State) (h : HostPort) : Option Nat :=
  if (s.hport h).causeReset then some 0
  else if s.boot.fwBusy then some 1
  else if s.svc.strike ≠ .idle then some 2
  else if s.pow.hotDrain then some 3
  else none

/-! ## Faults of jobs and fencing (15 R396-R398, 18 R468-R470) -/

/-- A mast's engine enters a fault of the job: IPEND bit 8 is set and the fault message leaves (18 R469). -/
def State.jobFault (s : State) (m : MastId) (e : Nat) (kind : Nat) : State :=
  let s := s.modCore m fun c => { c with ipend := c.ipend ||| 0x100 }
  { s with flts := s.flts ++ [{ m := m, e := BitVec.ofNat 3 e, kind := BitVec.ofNat 4 kind }] }

/-- An answer of another module arrives for an access of an engine to `pa`, in `n` flits: one that names no job that this module takes answers of, and a refusal,
are a fault of the job (15 R393, R398). Gives whether the answer is taken. -/
def State.answered (s : State) (m : MastId) (e : EngId) (pa : BitVec 52) (jobid : BitVec 16) (refused : Bool) (n : Nat) : State × Bool :=
  let s := s.flitsIn (dieOf m) (nodeOf pa) jobid n
  if refused || !s.accepts (nodeOf pa) jobid then (s.jobFault m e.val 7, false) else (s, true)

/-- Whether a mast runs the job of a slot. -/
def Mast.runs (x : Mast) (j : JobSlot) : Bool := x.jvalid && decide (x.jslot = j)

/-- Ask every engine of a mast but its control core to stop, as if through its STOP bit (15 R398). -/
def stopEngines (x : Mast) : Mast :=
  { x with
    vec := { x.vec with stopReq := x.vec.stopReq || !x.vec.stopped }
    arr := x.arr.map fun a => { a with stopReq := a.stopReq || !a.stopped }
    sheet := { x.sheet with stopReq := x.sheet.stopReq || !x.sheet.stopped }
    hal := { x.hal with stopReq := x.hal.stopReq || !x.hal.stopped } }

/-- Fence a job on this module with a reason (15 R398): nothing happens to a slot not valid or already fenced. -/
def State.fenceJob (s : State) (j : JobSlot) (reason : Nat) : State :=
  let jb := s.job j
  if !jb.valid || jb.fenced then s
  else
    let s := s.modJob j fun x => { x with fenced := true, reason := BitVec.ofNat 3 reason }
    let s := s.eachMast fun m t =>
      if (t.mast m).runs j then
        (t.modMast m stopEngines).modCore m fun c => { c with ipend := c.ipend ||| 0x200 }
      else t
    let s := { s with
      posts := s.posts.filter fun p => !(tokenNode p.addr == s.nodeId &&
        match slotOf p.addr with | some i => decide (s.slotJob i = some j) | none => false)
      held := s.held.filter fun h => !decide (s.slotJob h.1 = some j) }
    let s := s.eachChan fun c t =>
      if (t.chan c).jslot = j then
        t.modChan c fun x => { x with ranks := [], staged := [], early := [], st := if x.st = 1 then 0 else x.st }
      else t
    s.jobEvent j .jobFenced (evDetail .jobFenced reason)

/-- Send a fence notice of a job to every other member (15 R397). -/
def State.sendFenceNotices (s : State) (j : JobSlot) (fromFault : Bool) : State :=
  let b := (s.job j).jblk
  (List.range (blkMembers b)).foldl (fun t r =>
    let n := blkNode s.shrCfg b r
    if n = s.nodeId then t else t.sendTo b n 0 0 (.fence (s.job j).jobid fromFault n)) s

/-- A write of SHR_JCTL.FENCE (15 R397): the job is fenced here and its members are told. -/
def State.fenceWrite (s : State) (j : JobSlot) (fromFault : Bool) : State :=
  if !(s.job j).valid || (s.job j).fenced then s
  else (s.fenceJob j 4).sendFenceNotices j fromFault

/-- The two JOB_FLT words, as an event's detail (18 R469). -/
def Job.fltWord (x : Job) : Nat :=
  b2n x.fltValid + 2 * x.fltMast.toNat + 256 * x.fltEng.toNat + 2048 * x.fltKind.toNat

/-- Record a fault of a job: the first is kept, every one is counted, and the owner is told (18 R469, R470). -/
def State.recordFault (s : State) (j : JobSlot) (mast : Nat) (e kind : Nat) : State :=
  let s := s.modJob j fun x =>
    let x := { x with fltCnt := BitVec.ofNat 32 (satInc 32 x.fltCnt.toNat) }
    if x.fltValid then x
    else { x with fltValid := true, fltMast := BitVec.ofNat 7 mast, fltEng := BitVec.ofNat 3 e
                  fltKind := BitVec.ofNat 4 kind }
  let det :=
    match (s.job j).owner with
    | some f => if (s.hfn f).ver = 0x300 then toBytes 28 0
                else toBytes 8 (s.job j).fltWord ++ toBytes 8 (s.job j).fltCnt.toNat ++ toBytes 12 0
    | none => []
  s.jobEvent j .jobFault det

/-- A fault recorded by the module directly (18 R469): kinds 9 to 14, without the fence. -/
def State.moduleFault (s : State) (j : JobSlot) (kind : Nat) : State :=
  if (s.job j).valid then s.recordFault j 0 7 kind else s

/-- A fault of every job that uses the module (18 R468, kinds 11 to 13): recorded, and the jobs fenced. -/
def State.faultAllJobs (s : State) (kind : Nat) : State :=
  s.eachJob fun j t => if (t.job j).valid then (t.moduleFault j kind).fenceWrite j true else t

end Sys2Proof.Machine
end

