-- ==== Sys2Proof/Machine/Flags.lean ====
section
/-!
DEFINITION. The flags of the control core (02 Table 2-2) and every computation of them that the C slot makes
(02 Table 2-7), and the tests that conditional branches make of them (02 Table 2-8a).
-/

namespace Sys2Proof.Machine

/-- Bits of FLAGS. -/
def flagC (f : Word) : Bool := wbit f 0
def flagZ (f : Word) : Bool := wbit f 1
def flagN (f : Word) : Bool := wbit f 2
def flagV (f : Word) : Bool := wbit f 3

/-- FLAGS from its five bits; the reserved bits read 0. -/
def mkFlags (c z n v sv : Bool) : Word :=
  BitVec.ofNat 64 (b2n c + 2 * b2n z + 4 * b2n n + 8 * b2n v + 16 * b2n sv)

/-- Z and N from a result; the other flags unchanged ("ZN"). -/
def flagsZN (f r : Word) : Word := mkFlags (flagC f) (r = 0) (wbit r 63) (flagV f) (wbit f 4)

/-- Z, N and C from a result; V unchanged. -/
def flagsZNC (f r : Word) (c : Bool) : Word := mkFlags c (r = 0) (wbit r 63) (flagV f) (wbit f 4)

/-- Z, N, C and V; SV is sticky. -/
def flagsAll (f r : Word) (c v : Bool) : Word := mkFlags c (r = 0) (wbit r 63) v (wbit f 4 || v)

/-- a + b + carry with its flags. -/
def addFlags (f a b : Word) (cin : Bool) : Word × Word :=
  let n := a.toNat + b.toNat + b2n cin
  let z : Int := a.toInt + b.toInt + b2n cin
  let r := BitVec.ofNat 64 n
  (r, flagsAll f r (decide (2 ^ 64 ≤ n)) (decide (r.toInt ≠ z)))

/-- a − b − borrow with its flags; C is the borrow out of bit 63. -/
def subFlags (f a b : Word) (bin : Bool) : Word × Word :=
  let z : Int := a.toInt - b.toInt - b2n bin
  let r := a - b - BitVec.ofNat 64 (b2n bin)
  (r, flagsAll f r (decide (a.toNat < b.toNat + b2n bin)) (decide (r.toInt ≠ z)))

/-- A shift or rotate with amount n = op mod 64: Z and N, and C as the last bit out when the amount is not 0. -/
def shiftFlags (f r : Word) (n : Nat) (out : Bool) : Word := flagsZNC f r (if n = 0 then flagC f else out)

/-- The test of a condition code (02 Table 2-8a). Code 15 is illegal and never reaches it. -/
def condHolds (cond : BitVec 4) (f : Word) : Bool :=
  let t : Bool :=
    match fld cond.toNat 0 3 with
    | 0 => flagZ f
    | 1 => flagC f
    | 2 => flagN f
    | 3 => flagV f
    | 4 => flagC f || flagZ f
    | 5 => flagN f != flagV f
    | 6 => flagZ f || (flagN f != flagV f)
    | _ => true
  if cond.getLsbD 3 then !t else t

end Sys2Proof.Machine
end

