-- ==== Sys2Proof/Machine/Operands.lean ====
section
/-!
DEFINITION. The operand forms of the control core (02 R53, R54, R60), its register codes (02 Table 2-5), the local
data memory checks (02 R49, 14 R361), and the words the syllables encode to (02 R55, R60, R69; 04 R113, R115; 06, 08).
-/

namespace Sys2Proof.Machine

/-! ## Registers by code -/

/-- The current register bank of a core. -/
def Core.cur (c : Core) : CoreBank := c.banks.get c.bank
/-- Change the current register bank. -/
def Core.modCur (c : Core) (f : CoreBank → CoreBank) : Core :=
  { c with banks := c.banks.set c.bank.val (f c.cur) c.bank.isLt }
/-- Change a register bank. -/
def Core.modBank (c : Core) (b : Fin 4) (f : CoreBank → CoreBank) : Core :=
  { c with banks := c.banks.set b.val (f (c.banks.get b)) b.isLt }
/-- Change the system registers of a bank. -/
def Core.modSys (c : Core) (b : Fin 4) (f : SysBank → SysBank) : Core :=
  { c with sys := c.sys.set b.val (f (c.sys.get b)) b.isLt }

/-- The newest STA value of a loop register that has not yet taken effect (02 R75), if any. -/
def CoreBank.pendingLoop (b : CoreBank) (code : Nat) : Option (BitVec 32) :=
  (b.loopWrites.reverse.find? fun w => w.code = code).map (·.val)

/-- A register by its code (02 Table 2-5): by R47 a read sees every earlier write. -/
def CoreBank.reg (b : CoreBank) (code : Nat) : Word :=
  match code with
  | 0 => b.a | 1 => b.x | 2 => b.y | 3 => b.sp | 4 => b.pl | 5 => b.ph | 6 => b.flags
  | 8 | 9 | 10 => (match b.pendingLoop code with
      | some v => v.zeroExtend 64 | none => (b.ls.get (Fin.ofNat 3 (code - 8))).zeroExtend 64)
  | 11 | 12 | 13 => (match b.pendingLoop code with
      | some v => v.zeroExtend 64 | none => (b.le.get (Fin.ofNat 3 (code - 11))).zeroExtend 64)
  | 14 | 15 | 16 => (match b.pendingLoop code with
      | some v => v.zeroExtend 64 | none => (b.lc.get (Fin.ofNat 3 (code - 14))).zeroExtend 64)
  | _ => 0

/-- Bits [16:2] of a value, with bits [1:0] clear: how LS, LE, EPC and TVEC take a write. -/
def off17 (v : Word) : BitVec 17 := BitVec.ofNat 17 (wfld v 2 15 * 4)

/-- The value that a loop register code stores (02 R60). -/
def loopVal (code : Nat) (v : Word) : BitVec 32 :=
  if code < 14 then (off17 v).zeroExtend 32 else BitVec.ofNat 32 v.toNat

/-- Write a loop register at once. -/
def CoreBank.setLoop (b : CoreBank) (code : Nat) (v : BitVec 32) : CoreBank :=
  if code < 11 then { b with ls := b.ls.set (Fin.ofNat 3 (code - 8)).val (v.setWidth 17) (Fin.ofNat 3 (code - 8)).isLt }
  else if code < 14 then
    { b with le := b.le.set (Fin.ofNat 3 (code - 11)).val (v.setWidth 17) (Fin.ofNat 3 (code - 11)).isLt }
  else { b with lc := b.lc.set (Fin.ofNat 3 (code - 14)).val v (Fin.ofNat 3 (code - 14)).isLt }

/-- STA in register mode (02 R60, R63, R75): loop registers are used by the end tests 4 cc later. -/
def CoreBank.setReg (b : CoreBank) (code : Nat) (v : Word) : CoreBank :=
  match code with
  | 0 => { b with a := v } | 1 => { b with x := v } | 2 => { b with y := v } | 3 => { b with sp := v }
  | 4 => { b with pl := v } | 5 => { b with ph := v } | 6 => { b with flags := v &&& 0x1F }
  | 8 | 9 | 10 | 11 | 12 | 13 | 14 | 15 | 16 =>
    { b with loopWrites := b.loopWrites ++ [{ code := code, val := loopVal code v, age := 4 }] }
  | _ => b

/-- Time passes for the STA writes of loop registers (02 R75): those that are due take effect, in order. -/
def CoreBank.ageLoops (b : CoreBank) (n : Nat) : CoreBank :=
  let due := b.loopWrites.filter fun w => w.age ≤ n
  let b := { b with loopWrites := (b.loopWrites.filter fun w => n < w.age).map fun w => { w with age := w.age - n } }
  due.foldl (fun b w => b.setLoop w.code w.val) b

/-- A value of n bytes extended to 64 bits (02 R54). -/
def extend (n v : Nat) (sgn : Bool) : Word :=
  if sgn then sext64 (8 * n) v else BitVec.ofNat 64 (v % 2 ^ (8 * n))

/-! ## Core time (02 R65-R68, R75; 03 R84, R98) -/

/-- A multiply writes PL and PH of its bank (02 R66). -/
def Core.landMul (c : Core) (p : MulPend) : Core :=
  c.modBank p.bank fun b =>
    let old := b.ph.toNat * 2 ^ 64 + b.pl.toNat
    let n := (if p.acc then old + p.prod.toNat else p.prod.toNat) % 2 ^ 128
    { b with pl := BitVec.ofNat 64 n, ph := BitVec.ofNat 64 (n / 2 ^ 64) }

/-- Every outstanding multiply writes now, in issue order (02 R68, at a halt). -/
def Core.landMuls (c : Core) : Core := { c.muls.foldl Core.landMul c with muls := [] }

/-- Whether a multiply counts the cc of bank `b`: it is of that bank, and no trap into that bank holds its code (02 R68). -/
def MulPend.counts (p : MulPend) (b : Fin 4) : Bool := decide (p.bank = b) && p.frozen == 0

/-- `k` counted cc of bank `b` pass for its multiplies: those that are due write, in issue order (02 R65, R68). -/
def Core.passMuls (c : Core) (b : Fin 4) (k : Nat) : Core :=
  let due := c.muls.filter fun p => p.counts b && decide (p.left ≤ k)
  let rest := (c.muls.filter fun p => !(p.counts b && decide (p.left ≤ k))).map fun p => if p.counts b then { p with left := p.left - k } else p
  { due.foldl Core.landMul c with muls := rest }

/-- `n` cc pass for the loop registers, the first passes of loops, the registers that form addresses and the A of loads (02 R75; 03 R84, R86, R98). -/
def Core.age (c : Core) (n : Nat) : Core :=
  { c with banks := c.banks.map fun x => { x.ageLoops n with arm := x.arm.map fun a => a - n, aDue := x.aDue - n }
           ag := c.ag.map fun a => a - n, loads := c.loads.map fun l => { l with left := l.left.map fun a => a - n } }

/-- `n` cc of a core pass, `k` of them counted for the multiplies of bank `b`. -/
def Core.pass (c : Core) (b : Fin 4) (k n : Nat) : Core := (c.passMuls b k).age n

/-- Count cc in the low or the high half of a counter of two 32-bit fields, each of which wraps (03 Table 3-9). -/
def State.countHalf (s : State) (m : MastId) (off : Nat) (hi : Bool) (n : Nat) : State :=
  s.modMast m fun x =>
    let v := Sparse.get x.cnt off
    { x with cnt := Sparse.set x.cnt off (half32 v hi (wfld v (if hi then 32 else 0) 32 + n)) }

/-- cc pass that are counted in a field of CC_STALL0 or CC_STALL1. -/
def State.stallFor (s : State) (m : MastId) (off : Nat) (hi : Bool) (n : Nat) : State :=
  (s.countHalf m off hi n).modCore m fun c => c.pass c.bank n n

/-! ## Local data memory (02 R49, 14 R361) -/

/-- What stops an LDM access of n bytes: LDM_ALIGN 5, LDM_RANGE 6, LDM_PROT 7, in the order of 14 R368. -/
def ldmCheck (c : Core) (a : Word) (n : Nat) : Option Nat :=
  if !aligned a.toNat n then some 5
  else if 0x40000 < a.toNat + n then some 6
  else if c.level = 0 ∧ c.ulim.toNat < a.toNat + n then some 7
  else if c.level = 1 ∧ c.mlim.toNat < a.toNat + n then some 7
  else none

end Sys2Proof.Machine

namespace Sys2Proof

open Machine

/-! ## Operand values and effective addresses -/

/-- The 44-bit value of an extended FIELD, or the 16-bit FIELD, sign-extended. -/
def MBody.signed (b : MBody) : Word :=
  match b.ext with
  | none => sext64 16 b.field.toNat
  | some i => sext64 44 (b.field.toNat + i.toNat * 2 ^ 16)

/-- FIELD or its 44-bit extension, zero-extended. -/
def MBody.unsigned (b : MBody) : Word :=
  match b.ext with
  | none => b.field.zeroExtend 64
  | some i => BitVec.ofNat 64 (b.field.toNat + i.toNat * 2 ^ 16)

/-- Whether the mode names memory. -/
def MBody.isMem (b : MBody) : Bool := decide (2 ≤ b.mode.toNat ∧ b.mode.toNat ≤ 5)

/-- The effective address of a memory mode (02 Table 2-3). -/
def MBody.ea (b : MBody) (r : CoreBank) : Word :=
  match b.mode.toNat with
  | 2 => r.x + b.signed
  | 3 => r.y + b.signed
  | 4 => r.x + r.y
  | _ => b.unsigned

/-- The operand size in bytes. -/
def MBody.bytes (b : MBody) : Nat := 2 ^ b.sz.toNat

/-- The operand: an immediate, a register or local memory (02 Table 2-3). -/
def MBody.operand (b : MBody) (c : Core) : Word :=
  match b.mode.toNat with
  | 0 => b.signed
  | 1 => c.cur.reg (fld b.field.toNat 0 5)
  | _ => extend b.bytes (Mem.load c.ldm (b.ea c.cur).toNat b.bytes) b.sgn

/-! ## The word a syllable encodes to -/

/-- STOP of the syllable itself: an I syllable that follows ends the bundle instead. -/
def stopBit (ext : Option (BitVec 28)) (stop : Bool) : Nat := if ext.isNone && stop then 1 else 0

/-- The 32-bit word of a syllable (02 Table 2-4, Table 2-6, Table 2-9a; 04 Tables 4-2, 4-3; 06 Table 6-3; 08 Table 8-1). -/
def Syl.word (y : Syl) : Nat :=
  let hd := fun (slot op w : Nat) (ext : Option (BitVec 28)) (stop : Bool) (body : Nat) =>
    stopBit ext stop * 2 ^ 31 + slot * 2 ^ 28 + op * 2 ^ w + body
  let mb := fun (b : MBody) => b.sz.toNat * 2 ^ 20 + b2n b.sgn * 2 ^ 19 + b.mode.toNat * 2 ^ 16 + b.field.toNat
  match y with
  | .c op d => hd 0 op.code 22 d.ext d.stop (mb d)
  | .l op d => hd 1 op.code 22 d.ext d.stop (mb d)
  | .v0 op d => hd 2 op.code 22 d.ext d.stop
      (b2n d.sc * 2 ^ 21 + d.vd.toNat * 2 ^ 16 + d.vs1.toNat * 2 ^ 11 + d.vs2.toNat * 2 ^ 6 + d.km.toNat * 8 + d.fn.toNat)
  | .v1 op d => hd 3 op.code 22 d.ext d.stop
      (d.vr.toNat * 2 ^ 17 + d.vi.toNat * 2 ^ 12 + d.am.toNat * 2 ^ 10 + d.str.toNat * 2 ^ 8 + d.km.toNat * 32 + d.fn.toNat)
  | .x op d => hd 4 op.code 22 d.ext d.stop
      (d.arr.toNat * 2 ^ 20 + d.q.toNat * 2 ^ 18 + d.rsv.toNat * 2 ^ 12 + d.daddr.toNat)
  | .s op d => hd 5 op.code 22 d.ext d.stop (d.rsv.toNat * 2 ^ 12 + d.daddr.toNat)
  | .b op bb => hd 6 op.code 23 bb.ext bb.stop (bb.cond.toNat * 2 ^ 19 + bb.off.toNat)

end Sys2Proof
end

