-- ==== Sys2Proof/Machine/Startup.lean ====
section
/-!
DEFINITION. Start-up and module reset (18 R456-R463): the steps of Table 18-1 as operations over the state. What
SHA-512 and ECDSA find of an image is not computed: it comes with the start-up (log entry 20).
-/

namespace Sys2Proof.Machine

/-- The first flash address of an image: bank A then B, a Crowsnest image (type 1) then a mast image (type 2). -/
def flashBase (bank : Bool) (typ : Nat) : Nat := b2n bank * 0x200000 + (typ - 1) * 0x100000

/-- The largest body of an image type (18 Table 18-2). -/
def bodyMax (typ : Nat) : Nat := if typ = 1 then 0x80000 else 0x4000

/-- Check 1 of R461 on a header at `a` of a memory: MAGIC, TYPE, LENGTH and the reserved fields. -/
def headerOk (m : Mem) (a typ : Nat) : Bool :=
  decide (Mem.load m a 4 = 0x394D4850) && decide (Mem.load m (a + 4) 2 = typ) && decide (Mem.load m (a + 6) 1 ≤ 3) &&
  decide (Mem.load m (a + 7) 1 < 16) && decide (Mem.load m (a + 16) 4 ≤ bodyMax typ) &&
  decide (Mem.load m (a + 20) 4 = 0) && decide (Mem.load m (a + 352) 32 = 0)

/-- The header facts the module keeps of an image that runs. -/
def headerFacts (m : Mem) (a : Nat) : ImgFacts :=
  { digest := BitVec.ofNat 512 (Mem.load m (a + 24) 64), svn := BitVec.ofNat 32 (Mem.load m (a + 8) 4)
    keyidx := BitVec.ofNat 2 (Mem.load m (a + 6) 1), revoke := BitVec.ofNat 4 (Mem.load m (a + 7) 1) }

/-- The first failing check of R461, as its FAIL code (8, 1, 2, 3, 4), or 0. -/
def imageCheck (b : Boot) (m : Mem) (a typ : Nat) (f : CryptoFindings) : Nat :=
  let k := Mem.load m (a + 6) 1
  if !headerOk m a typ then 8
  else if !f.key || b.revoked.getLsbD k then 1
  else if !f.sig then 2
  else if !f.digest then 3
  else if Mem.load m (a + 8) 4 < (if typ = 1 then b.fuseCn.toNat else b.fuseMast.toNat) then 4
  else 0

/-- The findings of a bank's image. -/
def Boot.found (b : Boot) (bank : Bool) (typ : Nat) : CryptoFindings :=
  (if typ = 1 then b.foundCn else b.foundMast).get (if bank then 1 else 0)

/-- The check of the image of a bank; an inactive bank that an abandoned update invalidated fails check 1 (R464). -/
def Boot.checkBank (b : Boot) (bank : Bool) (typ : Nat) : Nat :=
  if b.inactiveBad && bank != b.marked then 8 else imageCheck b b.flash (flashBase bank typ) typ (b.found bank typ)

/-- Recovery (R461): the compute domain is off, STAGE is 6, both pins are busy. -/
def State.recovery (s : State) (fail : Nat) : State :=
  ((s.modBoot fun b => { b with stage := 6, fail := BitVec.ofNat 4 fail }).modPow fun p =>
    { p with compOn := false }).raiseBusyBoth

/-- Step 7 of Table 18-1: zero to canvas and the region of queue contexts; HBM otherwise keeps its contents. -/
def zeroRam (m : Mem) : Mem := m.filter fun e => decide (e.1 < canvasBase) && !inCtxRegion e.1

/-- The compute domain and the host functions at their reset values (00 R12, 18 R460). What is plugged stays
plugged, and the host links stay as they are. -/
def State.computeReset (s : State) : State :=
  { s with
    upsets := s.upsets.filter fun u => match u.cell with | .hbm _ => true | _ => false
    masts := Vector.replicate 128 Mast.reset, dies := Vector.replicate 2 Die.reset, canvasBad := [], hbmWq := [], hbmRef := [], check := [], making := [], homes := []
    resvs := [], tries := [], msgs := [], posts := [], acks := [], held := [], flts := [], nodeId := 0, shrCfg := ShrCfg.reset
    sports := s.sports.map fun p => { SPort.reset with plugged := p.plugged }
    seenLost := [], jobs := Vector.replicate 8 Job.reset, chans := Vector.replicate 64 Chan.reset
    invs := [], invVa := 0, invDone := false, invOvf := false, snap := Snap.reset
    hosts := { s.hosts with
      ports := s.hosts.ports.map fun p => { HPort.reset with linkUp := p.linkUp, perst := p.perst, mem := p.mem }
      sqs := [], grants := [], cmds := [], resident := [], dbs := [] } }

/-- Step 9: the node record is applied, and the Shroud ports with a cable start training (R458). -/
def State.applyRecord (s : State) : State :=
  let s :=
    if s.boot.recValid then
      let c := s.boot.recCfg
      { s with nodeId := s.boot.recNode
               shrCfg := { size0 := BitVec.ofNat 4 (wfld c 0 4), size1 := BitVec.ofNat 4 (wfld c 4 4)
                           size2 := BitVec.ofNat 3 (wfld c 8 3), size3 := BitVec.ofNat 3 (wfld c 12 3)
                           planes := wbit c 16 } }
    else { s with nodeId := 0, sports := s.sports.map fun p => { p with en := false } }
  (fins 16).foldl (fun t p => if (t.sport p).en && (t.sport p).plugged && t.portUsed p then t.modSport p fun x => { x with training := true, trainFull := true, up := false } else t) s

/-- Step 9: the firmware loads CC_START_PC of every mast, with a value that the spec does not give (log entry 1). -/
def State.loadStartPcs (s : State) : State :=
  s.eachMast fun m t => t.modCore m fun c => { c with startPc := BitVec.ofNat 17 (4 * (Config.startPc m.val).toNat) }

/-- Step 8: the mast image of the marked bank, or else of the other one, goes into every IMEM at 0x1_C000 (R463). -/
def State.loadMastImage (s : State) : Option State :=
  let go := fun (bank : Bool) =>
    let a := flashBase bank 2
    let body := Mem.bytes s.boot.flash (a + 384) (Mem.load s.boot.flash (a + 16) 4)
    let im := Mem.put [] 0x1C000 body
    (s.modBoot fun b => { b with runMast := headerFacts b.flash a }).eachMast fun m t =>
      t.modCore m fun c => { c with imem := im }
  if s.boot.checkBank s.boot.marked 2 = 0 then some (go s.boot.marked)
  else if s.boot.checkBank (!s.boot.marked) 2 = 0 then some (go (!s.boot.marked))
  else none

/-- Steps 5 to 9 of Table 18-1 on a compute domain at its reset values. -/
def State.startTail (s : State) (hbmOk : Bool) : State :=
  let s := s.modBoot fun b => { b with stage := 2 }
  if !hbmOk then s.recovery 6
  else
    let ds := s.dies.map fun d => { d with hbm := d.hbm.map fun h => { h with trained := true } }
    let s := { s with ram := zeroRam s.ram, dies := ds }
    let s := s.modBoot fun b => { b with stage := 3 }
    match s.loadMastImage with
    | none => s.recovery 7
    | some s => (s.loadStartPcs.applyRecord).modBoot fun b => { b with stage := 5 }

/-- The registers of the always-on blocks that module reset returns to their reset values (00 R12). BOOT_STATUS.BANK and SVC_STATE.LEVER stay what they
are: their meaning is the bank that runs and the lever as it stands (DESIGN CHOICE, log entry 121). -/
def State.aoRegsReset (s : State) : State :=
  let s := s.modPow fun p =>
    { p with trimReq := 0, trimCur := 0, changing := false, gov := 0, overcap := false, thermal := false, infault := false
             cap := 1400, vin := 0, iin := 0, pin := 0, tmax := 0, furl := 25000, below := 0, cool := 0
             hotDrain := false, tree := .idle, govWait := false, snapWait := false }
  let s := s.modSvc fun v => { v with strike := .idle, forced := false, locate := false, drained := false }
  s.modBoot fun b =>
    { b with fail := 0, fallback := false, fwBusy := false, fwResult := 0, stageMem := [], attBusy := false, attDone := false
             nonce := [], report := [] }

/-- Module reset (18 R460): every valid job slot is fenced as a fault of kind 11, both pins go busy, the compute
domain is reset, and Table 18-1 runs again from step 5. -/
def State.moduleReset (s : State) : State :=
  let s := s.faultAllJobs 11
  let s := (s.computeReset.aoRegsReset).raiseBusyBoth
  let s := s.modBoot fun b => { b with resets := BitVec.ofNat 32 (satInc 32 b.resets.toNat) }
  s.startTail s.boot.hbmOk

/-- Step 4 onward, once the main switch has closed (step 3): the rails come up or the module enters recovery (R457). -/
def State.railsUp (s : State) : State :=
  if !s.boot.railsOk then s.recovery 5
  else (s.modPow fun p => { p with compOn := true }).startTail s.boot.hbmOk

/-- Power-on (18 R456, Table 18-1), with what the checks and the rails find. -/
def State.powerOn (s : State) (i : BootInput) : State :=
  let s := s.modBoot fun b =>
    { b with foundCn := ⟨#[i.cnA, i.cnB], rfl⟩, foundMast := ⟨#[i.mastA, i.mastB], rfl⟩, stage := 0, fail := 0
             fallback := false, resets := 0 }
  let s := (s.computeReset.aoRegsReset).raiseBusyBoth
  let s := s.modBoot fun b => { b with railsOk := i.railsOk, hbmOk := i.hbmOk }
  let f0 := s.boot.checkBank s.boot.marked 1
  let run := fun (bank : Bool) (s : State) =>
    let s := s.modBoot fun b =>
      { b with stage := 1, cnBank := bank, runCn := headerFacts b.flash (flashBase bank 1) }
    if s.pow.inSwitch then s.railsUp else s
  if f0 = 0 then run s.boot.marked s
  else if s.boot.checkBank (!s.boot.marked) 1 = 0 then
    run (!s.boot.marked) (s.modBoot fun b => { b with fallback := true, fail := BitVec.ofNat 4 f0 })
  else s.recovery f0

end Sys2Proof.Machine
end

