-- ==== Sys2Proof/Machine/Traps.lean ====
section
/-!
DEFINITION. Taking a trap and what chooses it (14 R365-R373): trap entry is one operation, and so are the choice of
its target, escalation, and the choice among deferrable exceptions and interrupts.
-/

namespace Sys2Proof.Machine

/-- Why a bundle does not issue: an exception (its cause, the slot and half that raised it, its TVAL), a wait, a
translation-buffer miss (with the record it would write if the walk finds nothing), or a translation fault, whose exception comes once its record is written (13 R350). -/
inductive Hold where
  | trap (code slot : Nat) (half : Bool) (tval : Word)
  | wait (w : Wait)
  | miss (f : XFault)
  | xfault (f : XFault)
  deriving DecidableEq, Repr

/-- The bank that serves a level. -/
def bankOf (l : BitVec 2) : Fin 4 := Fin.ofNat 4 l.toNat

/-- A CAUSE value (14 Table 14-3). -/
def causeWord (code : Nat) (int esc : Bool) (slot : Nat) (half : Bool) : Word :=
  BitVec.ofNat 64 (code + 256 * b2n int + 512 * b2n esc + 1024 * slot + 8192 * b2n half)

/-- An ESTATUS value. -/
def estatusWord (plv : BitVec 2) (pim : Bool) (tag : Nat) (gate : Bool) : Word :=
  BitVec.ofNat 64 (plv.toNat + 4 * b2n pim + 16 * tag + 64 * b2n gate)

/-- Trap entry into bank `b` at level `l` (14 R367): the waiting bundle has not issued, and a translation fault it
met is withdrawn (14 R365, 13 R351). Where `b` is the bank of the code it interrupts, the multiplies of that code count no cc of the handler (02 R68). -/
def Core.enter (c : Core) (b : Fin 4) (l : BitVec 2) (cause tval : Word) : Core :=
  let c' := c.modSys b fun y =>
    { y with epc := BitVec.ofNat 64 (c.npc.toNat % 2 ^ 17), cause := cause, tval := tval
             estatus := estatusWord c.level c.im b.val false }
  { c' with level := l, im := true, bank := b, npc := BitVec.ofNat 18 (c'.sys.get b).tvec.toNat
            waiting := none, opening := []
            muls := c'.muls.map fun p => if p.bank = b ∧ b = c.bank then { p with frozen := p.frozen + 1 } else p }

/-- Withdraw the translation faults of the core's bundle. -/
def Xl.withdraw (x : Xl) : Xl :=
  { x with faults := x.faults.filter fun f => f.e ≠ 0, miss := x.miss.filter fun f => f.e ≠ 0 }

/-- Trap entry with its counters CC_TRAPS and CC_ESCALATE (14 R367, R372). The handler's first bundle issues 8 cc later, and no multiply counts
them (02 R68, 03 Table 3-6). -/
def State.trapEntry (s : State) (m : MastId) (b : Fin 4) (l : BitVec 2) (cause tval : Word) : State :=
  let s := (s.modCore m fun c => (c.enter b l cause tval).age 8).modXl m Xl.withdraw
  let s := s.countHalf m 0x30 false 8
  let s := s.bump m 0x4010
  if wbit cause 9 then s.bump m 0x4018 else s

/-- Raise a non-deferrable exception of the core (14 R366, R372, R373): to the bank of level max(level, S); while IM
is 1 in bank 1 or 2, to bank 3; in bank 3 the module resets. -/
def State.raise (s : State) (m : MastId) (code slot : Nat) (half : Bool) (tval : Word) : State :=
  let c := (s.mast m).core
  if c.bank = 3 then s.moduleReset
  else if c.im ∧ c.bank ≠ 0 then s.trapEntry m 3 2 (causeWord code false true slot half) tval
  else
    let l : BitVec 2 := if c.level = 2 then 2 else 1
    s.trapEntry m (bankOf l) l (causeWord code false false slot half) tval

/-- RETURN_PRIVILEGE (14 R377): taken at the current level in the current bank, whatever IM is. -/
def State.raiseReturn (s : State) (m : MastId) (tval : Word) : State :=
  let c := (s.mast m).core
  if c.bank = 3 then s.moduleReset
  else s.trapEntry m c.bank c.level (causeWord 20 false false 6 false) tval

/-- Whether interrupt source `i` targets M (14 Table 14-3: sources 8 and 9 always). -/
def Core.srcM (c : Core) (i : Nat) : Bool := decide (8 ≤ i) || c.ilvl.getLsbD i

/-- The interrupt that can be taken now (14 R368, R369): M targets first, lowest number first. -/
def Core.interrupt (c : Core) : Option Nat :=
  let on := fun (i : Nat) => c.ipend.getLsbD i && c.ien.getLsbD i
  let okM := (List.range 16).find? fun i => on i && c.srcM i
  let okS := (List.range 16).find? fun i => on i && !c.srcM i && decide (c.level.toNat ≤ 1)
  if c.im || decide (c.bank = 3) then none else okM.orElse fun _ => okS

/-- Take the deferrable exception or interrupt that can be taken now, if there is one (14 R368, R370). -/
def State.takeDeferrable (s : State) (m : MastId) : Option State :=
  let x := s.mast m
  let c := x.core
  let l : BitVec 2 := if c.level = 2 then 2 else 1
  if c.im || decide (c.bank = 3) then none
  else if x.vec.faulted then
    some (s.trapEntry m (bankOf l) l (causeWord 15 false false 0 false) (x.vec.faultVa.zeroExtend 64))
  else if x.hal.exc then
    some (s.trapEntry m (bankOf l) l (causeWord 16 false false 0 false) (x.hal.faultVa.zeroExtend 64))
  else
    match c.interrupt with
    | some i =>
      let t : BitVec 2 := if c.srcM i then 2 else 1
      some (s.trapEntry m (bankOf t) t (causeWord i true false 0 false) 0)
    | none => none

/-- A halt of the core begins (02 R68, R79): the bundle that waits is not issued, a held fault of it is withdrawn,
and every multiply writes. HALTED sets with HALT_COMPLETE. -/
def State.beginHalt (s : State) (m : MastId) : State :=
  (s.modCore m fun c => { c.landMuls with stopReq := true, waiting := none, opening := [] }).modXl m Xl.withdraw

end Sys2Proof.Machine
end

