-- ==== Sys2Proof/Machine/Homes.lean ====
section
/-!
DEFINITION. The shared-cache homes and what an access to HBM does there (12 R314-R331): as one step for the engines
that have no data cache (the coherent read and the coherent write), and message by message for the control cores.
-/

namespace Sys2Proof.Machine

/-! ## Lines -/

/-- The local address of a line. -/
def lineAddr (l : Line) : Nat := l.toNat * 128
/-- The line of a local address. -/
def lineOf (pa : Nat) : Line := BitVec.ofNat 31 (pa / 128)
/-- Bytes of a line. -/
def lineGet (d : BitVec 1024) (off n : Nat) : List Byte := toBytes n (d.toNat / 2 ^ (8 * off))
/-- A line with bytes replaced. -/
def linePut (d : BitVec 1024) (off : Nat) (bs : List Byte) : BitVec 1024 :=
  let n := bs.length
  let old := fld d.toNat (8 * off) (8 * n)
  BitVec.ofNat 1024 (d.toNat - old * 2 ^ (8 * off) + ofBytes bs * 2 ^ (8 * off))
/-- A line of memory. -/
def ramLine (m : Mem) (l : Line) : BitVec 1024 := BitVec.ofNat 1024 (Mem.load m (lineAddr l) 128)
/-- The offset of a counter of a slice in its per-die block (12 Table 12-11). -/
def scOff (slice : Fin 64) (reg : Nat) : Nat := 0x300000 + 0x100 * slice.val + reg

/-- Count in a register of the home slice of a line. -/
def State.scBump (s : State) (l : Line) (reg : Nat) : State :=
  let h := homeOf (lineAddr l)
  s.bumpDie h.1 (scOff h.2 reg)

/-- Whether a line is marked poisoned in HBM (11 R288). -/
def State.ramPoison (s : State) (l : Line) : Bool := s.hbmPoison.contains l.toNat

/-! ## The stacks (11 R282-R290) -/

/-- Whether a line is of pseudo-channel `pc` of stack `k` (11 R283). -/
def onPc (k : Fin 8) (pc : Nat) (l : Line) : Bool := decide (stackOf (lineAddr l) = k ∧ fld (lineAddr l) 7 5 = pc)

/-- A turn of a pseudo-channel to writes: up to eight lines of its queue leave, and HBM_WR counts them (11 R285). -/
def State.hbmDrain (s : State) (k : Fin 8) (pc : Nat) : State :=
  let out := (s.hbmWq.filter (onPc k pc)).take 8
  { s with hbmWq := s.hbmWq.filter fun l => !out.contains l }.modDie (Fin.ofNat 2 (k.val / 4)) fun d =>
    { d with cnt := Tab.add d.cnt (0x200000 + 0x1000 * (k.val % 4) + 0x38) out.length }

/-- A line is written to its stack: reads find it from now on, and it waits in the write queue of its pseudo-channel, which holds 32 lines; one that
finds the queue full waits for a turn, which is made at once (11 R285; log entry 102). A poisoned line stays poisoned there (11 R289). -/
def State.hbmWrite (s : State) (l : Line) (d : BitVec 1024) (poison : Bool) : State :=
  let k := stackOf (lineAddr l)
  let pc := fld (lineAddr l) 7 5
  let s := if 32 ≤ ((s.hbmWq.filter (onPc k pc)).filter (· ≠ l)).length then s.hbmDrain k pc else s
  let ps := s.hbmPoison.filter (· ≠ l.toNat)
  { s with ram := Mem.store s.ram (lineAddr l) 128 d.toNat, hbmWq := s.hbmWq.filter (· ≠ l) ++ [l]
           hbmPoison := if poison then l.toNat :: ps else ps }.mend fun c => decide (c = Cell.hbm l)

/-- The offset of a register of the stack of an address in its per-die block, and its die. -/
def hbmOff (pa reg : Nat) : DieId × Nat :=
  let k := stackOf pa
  (Fin.ofNat 2 (k.val / 4), 0x200000 + 0x1000 * (k.val % 4) + reg)

/-- Count `n` in a saturating half of a register of the stack of a line. -/
def State.hbmSat (s : State) (l : Line) (reg lo n : Nat) : State :=
  let o := hbmOff (lineAddr l) reg
  s.modDie o.1 fun d => { d with cnt := Tab.satAdd d.cnt o.2 lo 32 n }

/-- Change the stack of a line. -/
def State.modHbm (s : State) (k : Fin 8) (f : Hbm → Hbm) : State :=
  s.modDie (Fin.ofNat 2 (k.val / 4)) fun d =>
    let i : Fin 4 := Fin.ofNat 4 k.val
    { d with hbm := d.hbm.set i.val (f (d.hbm.get i)) i.isLt }

/-- An uncorrectable line: counted, logged, and poisoned in the stack until it is wholly written (11 R288). -/
def State.hbmBad (s : State) (l : Line) (scrub : Bool) : State :=
  let s := s.hbmSat l 0x18 0 1
  let s := s.modHbm (stackOf (lineAddr l)) fun h =>
    { h with ueSeen := true, errPa := BitVec.ofNat 38 (lineAddr l), errValid := true, errScrub := scrub }
  { s with hbmPoison := if s.ramPoison l then s.hbmPoison else l.toNat :: s.hbmPoison }

/-- A line is read from its stack (HBM_RD), with what the code of the controller and of the stack find (11 R288); a line that waits in the write
queue is served from it (11 R285). -/
def State.hbmRead (s : State) (l : Line) (scrub : Bool) : State :=
  let o := hbmOff (lineAddr l) 0x30
  let s := s.bumpDie o.1 o.2
  if s.hbmWq.contains l then s
  else
    let at' := fun (c : Cell) => decide (c = .hbm l)
    let s := (s.hbmSat l 0x10 32 (s.flaws .onDie at')).hbmSat l 0x10 0 (s.flaws .corr at')
    if s.bad at' then s.hbmBad l scrub else s

/-! ## Canvas (11 R275) -/

/-- The canvas words that `n` bytes at a local address touch. -/
def wordsAt (pa n : Nat) : Cell → Bool
  | .canvas w => decide (pa < w * 8 + 8 ∧ w * 8 < pa + n)
  | _ => false

/-- Count a corrected word of a tier in CANV_ECC.CE. -/
def ceInc (ce : BitVec 60) (t : Nat) : BitVec 60 :=
  let n := fld ce.toNat (15 * t) 15
  BitVec.ofNat 60 (ce.toNat - n * 2 ^ (15 * t) + satInc 15 n * 2 ^ (15 * t))

/-- Change the canvas registers of the mast whose slice holds a local address. -/
def State.modCanvas (s : State) (pa : Nat) (f : Canvas → Canvas) : State :=
  s.modMast (Fin.ofNat 128 ((pa - canvasBase) / 0x4000000)) fun x => { x with canv := f x.canv }

/-- A corrected word is counted in its tier. -/
def State.canvasCe (s : State) (w : Nat) : State :=
  s.modCanvas (8 * w) fun c => { c with ce := ceInc c.ce (tierOf ((8 * w - canvasBase) % 0x4000000)) }

/-- An uncorrectable word is found: CANV_ECC.UE is set, and the word is poisoned until it is wholly written. -/
def State.canvasUe (s : State) (w : Nat) : State :=
  let s := s.modCanvas (8 * w) fun c => { c with ue := true }
  { s with canvasBad := if s.canvasBad.contains w then s.canvasBad else w :: s.canvasBad }

/-- Canvas words are read, with what their code finds. -/
def State.canvasRead (s : State) (pa n : Nat) : State :=
  (s.upsets.filter fun u => wordsAt pa n u.cell).foldl (fun t u =>
    match u.cell, u.flaw with
    | .canvas w, .corr => t.canvasCe w
    | .canvas w, .bad => t.canvasUe w
    | _, _ => t) s

/-- Whether a range of local canvas addresses holds a word with an uncorrectable error, found or not. -/
def State.badWords (s : State) (pa n : Nat) : Bool :=
  (s.canvasBad.any fun w => decide (pa < w * 8 + 8 ∧ w * 8 < pa + n)) || s.bad (wordsAt pa n)

/-! ## Data caches as the home sees them -/

/-- A line of a data cache, its victim cache or its writeback buffer, and whether it is being written back. -/
def DCache.find (c : DCache) (l : Line) : Option (CacheLine × Bool) :=
  match (c.lines ++ c.victims).find? fun x => x.addr = l with
  | some x => some (x, false)
  | none => ((c.wb.map (·.line)).find? fun x => x.addr = l).map fun x => (x, true)

/-- Remove a line from a data cache and its victim cache. -/
def DCache.drop (c : DCache) (l : Line) : DCache :=
  { c with lines := c.lines.filter fun x => x.addr ≠ l, victims := c.victims.filter fun x => x.addr ≠ l }

/-- Set the state of a held line. -/
def DCache.setSt (c : DCache) (l : Line) (st : CacheSt) : DCache :=
  { c with lines := updFirst (fun x => x.addr = l) (fun x => { x with st := st }) c.lines
           victims := updFirst (fun x => x.addr = l) (fun x => { x with st := st }) c.victims }

/-- Whether a state holds data newer than the home's. -/
def CacheSt.isDirty : CacheSt → Bool
  | .m | .o => true
  | _ => false

/-! ## Home lines -/

/-- The home line of an address. -/
def State.home (s : State) (l : Line) : Option HomeLine := s.homes.find? fun h => h.addr = l
/-- Put a home line back, as the most recently used. -/
def State.putHome (s : State) (h : HomeLine) : State :=
  { s with homes := h :: s.homes.filter fun x => x.addr ≠ h.addr }
/-- Whether a line is busy (12 R321), with a transaction or, in the 4 cc after its arrival, with a Put. -/
def State.lineBusy (s : State) (l : Line) : Bool :=
  match s.home l with
  | some h => h.busy.isSome || (h.putting && Config.putBusy s.frees)
  | none => false
/-- Bit `m` of a sharer vector. -/
def sharerBit (m : MastId) : BitVec 128 := BitVec.ofNat 128 (2 ^ m.val)
/-- The masts of a sharer vector. -/
def sharerList (v : BitVec 128) : List MastId := (fins 128).filter fun m => v.getLsbD m.val

/-- The words of a cache line that bytes of it touch (12 R305). -/
def cacheWords (m : MastId) (l : Line) (off n : Nat) : Cell → Bool
  | .cache k x w => decide (k = m ∧ x = l ∧ off < 8 * w + 8 ∧ 8 * w < off + n)
  | _ => false

/-- A cache reads bytes of a line that it holds: an uncorrectable error is a fault of the job (12 R305). -/
def State.cacheRead (s : State) (m : MastId) (l : Line) (off n : Nat) : State :=
  if s.bad (cacheWords m l off n) then s.jobFault m 0 1 else s

/-- The copy an owner holds, if it still holds one. -/
def State.ownerCopy (s : State) (h : HomeLine) : Option (CacheLine × Bool) :=
  match h.dir with
  | .em | .o => (s.mast h.owner).dc.find h.addr
  | _ => none

/-- The owner's cache reads the line that it supplies (12 R305, R318). -/
def State.ownerRead (s : State) (h : HomeLine) : State :=
  if (s.ownerCopy h).isSome then s.cacheRead h.owner h.addr 0 128 else s

/-- Pull every copy of a line back to its home: the owner's data if it is dirty, and no copy left but those in a
writeback buffer, whose Put is then stale (12 R318, R325). -/
def State.recallLine (s : State) (h : HomeLine) : State × HomeLine :=
  let h' := match s.ownerCopy h with
    | some (x, _) => if x.st.isDirty then { h with data := x.data, dirty := true } else h
    | none => h
  let s := s.ownerRead h
  let s := (match h.dir with | .em | .o => [h.owner] | _ => []).foldl (fun t m => t.modDc m fun c => c.drop h.addr) s
  let s := (sharerList h.sharers).foldl (fun t m => t.modDc m fun c => c.drop h.addr) s
  (s, { h' with dir := .i, sharers := 0 })

/-- The set of a line in its slice: the lines of one slice with one value of PA[22:13] (12 R314). -/
def sameSet (a b : Line) : Bool :=
  homeOf (lineAddr a) == homeOf (lineAddr b) && fld (lineAddr a) 13 10 == fld (lineAddr b) 13 10

/-- Remove a home line: it is written to HBM if it is dirty. -/
def State.dropHome (s : State) (h : HomeLine) : State :=
  let s := if h.dirty then s.hbmWrite h.addr h.data h.poison else s
  { s with homes := s.homes.filter fun x => x.addr ≠ h.addr }

/-- Whether a home line has a way: a miss that waits for one has not. -/
def HomeLine.hasWay (h : HomeLine) : Bool := match h.busy with | some b => !b.noRoom | none => true

/-- Whether a home line is being recalled. -/
def HomeLine.recalled (h : HomeLine) : Bool := match h.busy with | some b => decide (b.req = .evict) | none => false

/-- The ways of the set of a line that are taken. -/
def State.waysOf (s : State) (l : Line) : List HomeLine := s.homes.filter fun h => sameSet h.addr l && h.hasWay

/-- Whether a way of the set of a line is free, or its least recently used line in state I can go (12 R314). -/
def State.roomFor (s : State) (l : Line) : Bool :=
  decide ((s.waysOf l).length < 16) || (s.waysOf l).any fun h => h.busy.isNone && decide (h.dir = .i)

/-- Make room for a line in its set (12 R314): the least recently used way in state I goes. -/
def State.makeRoom (s : State) (l : Line) : State :=
  let set := s.waysOf l
  if set.length < 16 then s
  else
    match set.reverse.find? fun h => h.busy.isNone && decide (h.dir = .i) with
    | some h => s.dropHome h
    | none => s

/-- The home line of an address, filled from HBM if it is not there, with SC_HIT or SC_MISS counted. -/
def State.touchHome (s : State) (l : Line) : State × HomeLine :=
  match s.home l with
  | some h => let h := { h with putting := false }; ((s.putHome h).scBump l 0x10, h)
  | none =>
    let s := ((s.makeRoom l).scBump l 0x18).hbmRead l false
    let h : HomeLine := { addr := l, data := ramLine s.ram l, dirty := false, dir := .i, owner := 0, sharers := 0
                          poison := s.ramPoison l, busy := none, putting := false }
    (s.putHome h, h)

/-- A coherent read of a line by an engine without a cache: RdU (12 Table 12-3). The line is not busy. Gives the
data and its POISON bit. -/
def State.readLine (s : State) (l : Line) : State × BitVec 1024 × Bool :=
  let r := s.touchHome l
  let d := match r.1.ownerCopy r.2 with
    | some (x, _) => x.data
    | none => r.2.data
  (r.1.ownerRead r.2, d, r.2.poison)

/-- A coherent write of bytes of a line by an engine without a cache: WrU (12 Table 12-3, R331). -/
def State.writeLine (s : State) (l : Line) (off : Nat) (bs : List Byte) : State :=
  let r := s.touchHome l
  let q := r.1.recallLine r.2
  q.1.putHome { q.2 with data := linePut q.2.data off bs, dirty := true
                         poison := q.2.poison && decide (bs.length < 128) }

/-- What the memory system reads as at a local HBM or canvas address now, without an access being made. -/
def State.peekByte (s : State) (pa : Nat) : Byte :=
  let l := lineOf pa
  match s.home l with
  | some h =>
    let d := match s.ownerCopy h with | some (x, _) => x.data | none => h.data
    BitVec.ofNat 8 (fld d.toNat (8 * (pa % 128)) 8)
  | none => Sparse.get s.ram pa

/-- Read bytes of HBM or canvas coherently, line by line; `true` if a poisoned line or a poisoned canvas word was met. -/
def readGo (s : State) (pa : Nat) : Nat → State × List Byte × Bool
  | 0 => (s, [], false)
  | n + 1 =>
    let r := readGo s pa n
    let a := pa + n
    match placeOf a with
    | .hbm =>
      let q := if n = 0 ∨ a % 128 = 0 then r.1.readLine (lineOf a)
               else (r.1, (match r.1.home (lineOf a) with
                 | some h => (match r.1.ownerCopy h with | some (x, _) => x.data | none => h.data)
                 | none => ramLine r.1.ram (lineOf a)), false)
      (q.1, r.2.1 ++ [BitVec.ofNat 8 (fld q.2.1.toNat (8 * (a % 128)) 8)], r.2.2 || q.2.2)
    | _ => (r.1, r.2.1 ++ [Sparse.get r.1.ram a], r.2.2 || r.1.canvasBad.contains (a / 8))

/-- Read bytes of HBM or canvas coherently, with the errors that canvas holds there. -/
def State.readBytes (s : State) (pa n : Nat) : State × List Byte × Bool := readGo (s.canvasRead pa n) pa n

/-- The pieces of an access by line: (address, bytes). -/
def linePieces (pa : Nat) (bs : List Byte) : List (Nat × List Byte) :=
  let first := 128 - pa % 128
  let rest := bs.drop first
  (pa, bs.take first) ::
    (List.range (cdiv rest.length 128)).map fun i => (pa + first + 128 * i, (rest.drop (128 * i)).take 128)

/-- The check-array index, over all masts and tiers, of the 4 KiB canvas block of a local address (11 R278). -/
def blockOf (pa : Nat) : Nat := (pa - canvasBase) / 4096

/-- Clear VALID (bit 32) of a check entry. -/
def clearValid (t : Tab) (b : Nat) : Tab := Sparse.set t b (BitVec.ofNat 64 (wfld (Sparse.get t b) 0 32))

/-- The checksummed blocks in writing as a write of `bs` at `pa` leaves them (11 R279): what its own writer wrote there stands again, and bytes of
other writers are kept. `w` is the engine that writes with checksums, if the write is such a write. -/
def makingPut (ks : List Making) (ram : Mem) (w : Option (MastId × EngId)) (pa n : Nat) : List Making :=
  let blocks := (List.range (cdiv (pa % 4096 + n) 4096)).map fun i => blockOf pa + i
  let inside := fun (a : Nat) => decide (pa ≤ a ∧ a < pa + n)
  let ks := ks.map fun k =>
    if !blocks.contains k.blk then k
    else if w = some (k.m, k.e) then { k with foreign := k.foreign.filter fun p => !inside p.1 }
    else
      let new := (List.range n).filterMap fun i =>
        let a := pa + i
        if blockOf a = k.blk ∧ !(k.foreign.any fun p => p.1 = a) then some (a, Sparse.get ram a) else none
      { k with foreign := k.foreign ++ new }
  match w with
  | none => ks
  | some (m, e) =>
    ks ++ (blocks.filter fun b => !ks.any fun k => decide (k.m = m ∧ k.e = e ∧ k.blk = b)).map fun b => { m := m, e := e, blk := b, foreign := [] }

/-- A write reaches canvas. One of an engine that keeps checksums leaves the check entry to it; every other clears VALID of every 4 KiB block that it
touches (11 R279). A partly written bad word stays bad (11 R275). -/
def State.canvasPut (s : State) (w : Option (MastId × EngId)) (pa : Nat) (bs : List Byte) : State :=
  let whole := fun (v : Nat) => decide (pa ≤ v * 8 ∧ v * 8 + 8 ≤ pa + bs.length)
  { s with ram := Mem.put s.ram pa bs
           canvasBad := s.canvasBad.filter fun v => !whole v
           making := makingPut s.making s.ram w pa bs.length
           check := if w.isSome then s.check
             else (List.range (cdiv (pa % 4096 + bs.length) 4096)).foldl (fun t i => clearValid t (blockOf pa + i)) s.check }.mend fun c =>
    match c with | .canvas v => whole v | _ => false

/-- A write of an engine that keeps no checksums reaches canvas. -/
def State.canvasWrite (s : State) (pa : Nat) (bs : List Byte) : State := s.canvasPut none pa bs

/-- Write bytes to HBM or canvas. -/
def State.writeBytes (s : State) (pa : Nat) (bs : List Byte) : State :=
  (linePieces pa bs).foldl (fun t p =>
    if p.2.isEmpty then t
    else match placeOf p.1 with
    | .hbm => t.writeLine (lineOf p.1) (p.1 % 128) p.2
    | _ => t.canvasWrite p.1 p.2) s

/-! ## Requests of engines without a data cache (12 R321-R324) -/

/-- The oldest reservation of a line (12 R324). -/
def State.resvOf (s : State) (l : Line) : Option Resv := s.resvs.find? fun r => r.line = l

/-- Whether a home takes a request of a requester now: the line is not busy, and its oldest reservation, if it has one, is the requester's. -/
def State.homeOpen (s : State) (who : Requester) (l : Line) : Bool :=
  !s.lineBusy l && match s.resvOf l with | some v => decide (v.who = who) | none => true

/-- A request that is taken: its reservation and its count of Nacks are gone. -/
def State.taken (s : State) (who : Requester) (l : Line) : State :=
  { s with resvs := s.resvs.filter fun v => !decide (v.line = l ∧ v.who = who)
           tries := s.tries.filter fun t => !decide (t.line = l ∧ t.who = who) }

/-- A reservation for a request with `n` Nacks, if its slice has room for one (12 R324). -/
def State.reserve (s : State) (who : Requester) (l : Line) (n : Nat) : State :=
  let used := (s.resvs.filter fun v => homeOf (lineAddr v.line) == homeOf (lineAddr l)).length
  if 8 ≤ n ∧ !(s.resvs.any fun v => decide (v.line = l ∧ v.who = who)) ∧ used < 32 then
    { s.scBump l 0x28 with resvs := s.resvs ++ [{ line := l, who := who }] }
  else s

/-- The mast whose DC_NACK counts the Nacks of a requester. -/
def nackMast : Requester → Option MastId
  | .core m | .vec m | .hal m => some m
  | _ => none

/-- A request of an engine without a data cache is refused (12 R323). An engine of a mast tries again once its backoff is over; a walker, a host port or another
member with the next command that makes the request. -/
def State.refused (s : State) (who : Requester) (l : Line) : State :=
  let s := { s with frees := s.frees + 1 }.scBump l 0x20
  let s : State := match nackMast who with | some m => s.bump m 0x2028 | none => s
  let mine := fun (t : Attempt) => decide (t.line = l ∧ t.who = who)
  let n := match s.tries.find? mine with | some t => t.nacks + 1 | none => 1
  let rest := s.tries.filter fun t => !mine t
  { s with tries := rest ++ [({ line := l, who := who, nacks := n, backoff := (nackMast who).isSome } : Attempt)] }.reserve who l n

/-- The HBM lines of an access. -/
def linesOf (pa n : Nat) : List Line :=
  if placeOf pa = .hbm then (List.range (cdiv (pa % 128 + n) 128)).map fun i => lineOf (pa + 128 * i) else []

end Sys2Proof.Machine
end

