-- ==== Sys2Proof/Machine/Coh.lean ====
section
/-!
DEFINITION. The coherence protocol between the data caches and the homes, message by message (12 R305-R331): what a
home does with a request it accepts, what a cache does with a message, and the atomics.
-/

namespace Sys2Proof

/-- Whether an atomic gives a result to A, and so is no memory reduction. -/
def LOp.hasResult (o : LOp) : Bool :=
  match o with
  | .radd | .rfadd | .rmin | .rmax => false
  | _ => true

end Sys2Proof

namespace Sys2Proof.Machine

/-- Put a message on its way. -/
def State.send (s : State) (x : Msg) : State := { s with msgs := s.msgs ++ [x] }

/-- Where a message travels: towards a home or towards a cache, the mast, and the line. -/
def Msg.route : Msg → Bool × MastId × Line
  | .req m l _ => (true, m, l)
  | .put m l _ _ => (true, m, l)
  | .wru m l _ _ _ => (true, m, l)
  | .rdu m l _ _ => (true, m, l)
  | .atom m l _ _ => (true, m, l)
  | .invAck m l => (true, m, l)
  | .fwdData m l _ _ _ => (true, m, l)
  | .cmp m l => (true, m, l)
  | .grant m l _ _ _ => (false, m, l)
  | .upgAck m l => (false, m, l)
  | .putAck m l => (false, m, l)
  | .nack m l _ => (false, m, l)
  | .inv m l => (false, m, l)
  | .fwdS m l => (false, m, l)
  | .fwdM m l => (false, m, l)
  | .fwdR m l => (false, m, l)

/-- Whether two messages have one source and one destination: a mast and a home slice. All of them travel in class 0 (12 R316). -/
def Msg.sameRoute (x y : Msg) : Bool :=
  x.route.1 == y.route.1 && x.route.2.1 == y.route.2.1 && homeOf (lineAddr x.route.2.2) == homeOf (lineAddr y.route.2.2)

/-- Take the first message that satisfies `p`: it arrives unless one sent before it from its source to its destination has not (01 R28). -/
def State.takeMsg (s : State) (p : Msg → Bool) : Option (Msg × State) :=
  match takeFirst p s.msgs with
  | some (x, rest) =>
    if (s.msgs.takeWhile fun y => !p y).any x.sameRoute then none else some (x, { s with msgs := rest })
  | none => none

/-! ## Atomics (12 R326-R330) -/

/-- The new value of a word under an atomic operation (12 Table 12-8); `n` is its size in bytes. -/
def atomNew (r : AtomReq) (n old : Nat) : Nat :=
  let w := 8 * n
  let v := r.val.toNat % 2 ^ w
  let so := signedOf w old
  let sv := signedOf w v
  let fadd := ((if n = 8 then fp64 else fp32).addE r.ovm r.ftz old v).1
  match r.op with
  | .aadd | .radd => (old + v) % 2 ^ w
  | .aand => Nat.land old v
  | .aor => Nat.lor old v
  | .axor => Nat.xor old v
  | .amin | .rmin => if sv < so then v else old
  | .amax | .rmax => if so < sv then v else old
  | .aminu => if v < old then v else old
  | .amaxu => if old < v then v else old
  | .aswap => v
  | .acas => if old = r.cmp.toNat % 2 ^ w then v else old
  | .afadd | .rfadd => fadd
  | _ => old

/-! ## Answers to a control core -/

/-- Give data to the oldest part of a load of mast `m` that waits for it. -/
def State.feedPart (s : State) (m : MastId) (p : LoadPart → Bool) (bs : LoadPart → List Byte) : State :=
  s.modCore m fun c =>
    { c with loads := updFirst (fun l => l.parts.any p)
               (fun l => { l with parts := updFirst p (fun q => { q with src := .ready (bs q) }) l.parts }) c.loads }

/-- The write-queue entry whose request on a line was answered is performed. -/
def State.wqDone (s : State) (m : MastId) (l : Line) : State :=
  s.modCore m fun c =>
    { c with wq := updFirst (fun e => decide (e.st = .requested ∧ lineOf (localOf e.pa) = l))
               (fun e => { e with st := .performed }) c.wq }

/-- The request of a cache on a line has been answered. -/
def DCache.reqDone (c : DCache) (l : Line) : DCache := { c with reqs := c.reqs.filter fun r => r.line ≠ l }

/-- The bytes of a line merged with the write-queue entries for it, in store order (12 R309). -/
def mergeWq (c : Core) (l : Line) (d : BitVec 1024) : BitVec 1024 :=
  c.wq.foldl (fun d e =>
    if lineOf (localOf e.pa) = l ∧ e.st ≠ .performed then linePut d (localOf e.pa % 128) e.data else d) d

/-- Loads that waited for a line take it, merged with the write queue. -/
def State.feedLine (s : State) (m : MastId) (l : Line) (d : BitVec 1024) : State :=
  s.modCore m fun c =>
    let d := mergeWq c l d
    { c with loads := c.loads.map fun x =>
        { x with parts := x.parts.map fun q =>
            if q.src = .line ∧ lineOf (localOf q.pa) = l then { q with src := .ready (lineGet d (localOf q.pa % 128) q.n) }
            else q } }

/-! ## Data cache: replacement (12 R306, R307) -/

/-- A line held by a cache outside its writeback buffer. -/
def DCache.held (c : DCache) (l : Line) : Option CacheLine := (c.lines ++ c.victims).find? fun x => x.addr = l

/-- The lines that the outstanding requests of a cache will bring: a GetS, a GetM, or an Upg whose line has gone. -/
def DCache.fills (c : DCache) : Nat :=
  (c.reqs.filter fun r => match r.kind with | .getS _ | .getM => true | .upg => (c.held r.line).isNone | _ => false).length

/-- Whether `n` more lines find room: each line beyond the 56 of both caches evicts one, which may need a free entry of the writeback buffer, and those that
outstanding requests bring count first (12 R307; log entry 101). -/
def DCache.canInstall (c : DCache) (n : Nat) : Bool :=
  decide (c.lines.length + c.victims.length + c.fills + n ≤ 56 + (4 - c.wb.length))

/-- Bytes of a line are written into a cache: the words that they fill hold no error. -/
def State.cacheMend (s : State) (m : MastId) (l : Line) (off n : Nat) : State :=
  s.mend fun c => match c with
    | .cache k x w => decide (k = m ∧ x = l ∧ off ≤ 8 * w ∧ 8 * w + 8 ≤ off + n)
    | _ => false

/-- The Put of a line in the writeback buffer is sent; that of an M or O line carries its data. -/
def State.sendPut (s : State) (m : MastId) (x : CacheLine) : State :=
  ((if x.st = .e then s else s.cacheRead m x.addr 0 128).send (.put m x.addr x.st x.data)).bump m 0x2030

/-- A line leaves the victim cache: an M, O or E line goes to the writeback buffer and its Put is sent. In a flush, a line beyond the four entries waits
for an entry (12 R307). -/
def State.leave (s : State) (m : MastId) (x : CacheLine) : State :=
  match x.st with
  | .s | .canv => s
  | _ =>
    let full := decide (4 ≤ (s.mast m).dc.wb.length)
    let s := s.modDc m fun c => { c with wb := c.wb ++ [{ line := x, backoff := false }] }
    if full then s else s.sendPut m x

/-- The first `n` of lines that may leave, oldest first, and the lines that stay: a line whose Upg is outstanding stays (log entry 101). -/
def leaving (c : DCache) : Nat → List CacheLine → List CacheLine × List CacheLine
  | 0, vs => ([], vs)
  | n + 1, vs =>
    match takeFirst (fun (v : CacheLine) => !c.reqs.any fun r => decide (r.line = v.addr ∧ r.kind = .upg)) vs with
    | some (v, rest) => let r := leaving c n rest; (v :: r.1, r.2)
    | none => ([], vs)

/-- Install a line as the most recently used one; the least recently used line goes to the victim cache, and the
oldest victim leaves. -/
def State.install (s : State) (m : MastId) (x : CacheLine) : State :=
  let c := (s.mast m).dc.drop x.addr
  let ls := x :: c.lines
  if ls.length ≤ 48 then s.modDc m fun _ => { c with lines := ls }
  else
    let vs := c.victims ++ (ls.drop 48)
    let q := leaving c (vs.length - 8) vs
    let s := s.modDc m fun _ => { c with lines := ls.take 48, victims := q.2 }
    q.1.foldl (fun t v => t.leave m v) s

/-- A hit makes a line the most recently used one; a victim line moves back into the data cache, and the least
recently used line takes its place (12 R306). -/
def State.touchLine (s : State) (m : MastId) (l : Line) : State :=
  let c := (s.mast m).dc
  match c.lines.find? fun x => x.addr = l with
  | some x => s.modDc m fun c => { c with lines := x :: c.lines.filter fun y => y.addr ≠ l }
  | none =>
    match c.victims.find? fun x => x.addr = l with
    | some x => s.install m x
    | none => s

/-- Change the data or state of a held line. -/
def DCache.upd (c : DCache) (l : Line) (f : CacheLine → CacheLine) : DCache :=
  { c with lines := updFirst (fun x => x.addr = l) f c.lines, victims := updFirst (fun x => x.addr = l) f c.victims }

/-! ## Requests of a cache -/

/-- Send a request for a line; one per line is outstanding from one cache (12 R308). -/
def State.sendReq (s : State) (m : MastId) (l : Line) (k : ReqKind) (x : Msg) : State :=
  (s.modDc m fun c => { c with reqs := c.reqs ++ [{ line := l, kind := k, msg := x, nacks := 0, backoff := false }] }).send x

/-- Whether a request for a line is outstanding. -/
def DCache.hasReq (c : DCache) (l : Line) : Bool := c.reqs.any fun r => r.line = l

/-- Act on one write-queue entry that has no request outstanding for its line (12 R308, Table 12-1): write it into a
line held in M or E, or send Upg, GetM or WrU. A miss that finds no room for its line waits (12 R307). -/
def State.issueWq (s : State) (m : MastId) (e : WqEnt) : State :=
  let l := lineOf (localOf e.pa)
  let off := localOf e.pa % 128
  let setSt := fun (st : WqState) (t : State) => t.modCore m fun c =>
    { c with wq := updFirst (fun x => x.seq = e.seq ∧ x.pa = e.pa) (fun x => { x with st := st }) c.wq }
  let held := (s.mast m).dc.held l
  let excl : Bool := match held with | some x => decide (x.st = .m ∨ x.st = .e) | none => false
  -- a store that writes into a held copy is a use of that line (12 R306)
  let s := if excl ∨ e.wp = 0 ∨ e.wp = 1 then s.touchLine m l else s
  if excl ∧ (e.wp = 0 ∨ e.wp = 2) then
    let s := s.modDc m fun c => c.upd l fun x => { x with st := .m, data := linePut x.data off e.data }
    let s := s.cacheMend m l off e.data.length
    s.modCore m fun c => { c with wq := c.wq.filter fun x => !decide (x.seq = e.seq ∧ x.pa = e.pa) }
  else if e.wp = 0 ∧ held.isNone ∧ !(s.mast m).dc.canInstall 1 then s
  else if e.wp = 0 then
    let s := setSt .requested (s.bump m 0x2020)
    if held.isSome then s.sendReq m l .upg (.req m l .upg) else s.sendReq m l .getM (.req m l .getM)
  else
    let s := setSt .requested (s.bump m 0x2020)
    let s := if e.wp = 1 then s.modDc m fun c => c.upd l fun x => { x with data := linePut x.data off e.data } else s
    s.sendReq m l .wru (.wru m l off e.data (e.wp = 1))

/-- Act on the write-queue entries of a line that wait behind a request that has been answered (12 R308). -/
def State.kickWq (s : State) (m : MastId) (l : Line) : State :=
  (s.mast m).core.wq.foldl (fun t e =>
    if e.st = .queued ∧ lineOf (localOf e.pa) = l ∧ !(t.mast m).dc.hasReq l then t.issueWq m e else t) s

/-- Act on every write-queue entry that waits: a place for a line may have become free (12 R307). -/
def State.kickAll (s : State) (m : MastId) : State :=
  (((s.mast m).core.wq.map fun e => lineOf (localOf e.pa)).eraseDups).foldl (fun t l => t.kickWq m l) s

/-! ## The home (12 R317, R321) -/

/-- The contacts a request needs (12 Table 12-3): the caches to invalidate, and the owner to send a Fwd. -/
def contacts (h : HomeLine) (r : HomeReq) : List MastId × Option (MastId → Line → Msg) :=
  let others := fun (m : MastId) => (sharerList h.sharers).filter (· ≠ m)
  let holder := fun (m : MastId) => h.sharers.getLsbD m.val
  match h.dir with
  | .i => ([], none)
  | .s =>
    match r with
    | .getS _ _ | .rdu _ _ _ => ([], none)
    | .getM m | .upg m => (others m, none)
    | .wru (.core m) _ _ true => (if holder m then others m else sharerList h.sharers, none)
    | .wru _ _ _ _ | .atom _ _ _ | .evict => (sharerList h.sharers, none)
  | .em =>
    match r with
    | .getS _ _ => ([], some .fwdS)
    | .rdu _ _ _ => ([], some .fwdR)
    | .upg m => if m = h.owner then ([], none) else ([], some .fwdM)
    | _ => ([], some .fwdM)
  | .o =>
    match r with
    | .getS _ _ | .rdu _ _ _ => ([], some .fwdR)
    | .upg m =>
      if m = h.owner then (sharerList h.sharers, none)
      else if holder m then (h.owner :: others m, none)
      else (sharerList h.sharers, some .fwdM)
    | .getM m => (others m, some .fwdM)
    | .wru (.core m) _ _ true => (if holder m then others m else sharerList h.sharers, some .fwdM)
    | _ => (sharerList h.sharers, some .fwdM)

/-- Tell a requester without a cache line that its access was performed, with its data. -/
def State.answer (s : State) (r : Requester) (l : Line) (kind : ReqKind) (red : Bool) (bs : List Byte) (poison : Bool) :
    State :=
  match r with
  | .core m =>
    let s := if poison then s.jobFault m 0 1 else s
    let s := s.modDc m fun c => c.reqDone l
    let s :=
      match kind with
      | .rdu => s.feedPart m (fun q => decide (q.src = LoadSrc.rdu ∧ lineOf (localOf q.pa) = l)) fun _ => bs
      | .atom => if red then s.wqDone m l
                 else s.feedPart m (fun q => decide (q.src = LoadSrc.atom ∧ lineOf (localOf q.pa) = l)) fun _ => bs
      | _ => s.wqDone m l
    s.kickWq m l
  | .remote plane k node jobid =>
    match kind with
    | .rdu => s.reply plane k node jobid (.rduReply node bs poison none)
    | .atom => s.reply plane k node jobid (.atomReply node (ofBytes bs) poison)
    | _ => s.reply plane k node jobid (.wruAck node)
  | _ => s

/-- A home line whose contacts have all answered completes its request (12 Table 12-3). A poisoned line is kept by no cache, so its requester becomes neither
sharer nor owner (12 R331). -/
def State.complete (s : State) (h : HomeLine) (b : Busy) : State :=
  let h := if b.gotEvict then { h with dir := if h.dir = .o ∧ h.sharers ≠ 0 then .s else .i } else h
  let free := fun (h : HomeLine) (t : State) =>
    (b.heldPuts.foldl (fun t m => t.send (.putAck m h.addr)) t).putHome { h with busy := none }
  let grant := fun (m : MastId) (h : HomeLine) (t : State) =>
    t.putHome { h with busy := some { b with needFill := false, invs := [], fwd := none, needCmp := some m } }
  let add := fun (m : MastId) => if h.poison then (0 : BitVec 128) else sharerBit m
  let own := fun (m : MastId) => if h.poison then { h with dir := .i, sharers := 0 } else { h with dir := .em, owner := m, sharers := 0 }
  match b.req with
  | .getS m wt =>
    match h.dir with
    | .i =>
      if h.poison then (grant m h s).send (.grant m h.addr .s h.data true)
      else if wt then (grant m { h with dir := .s, sharers := sharerBit m } s).send (.grant m h.addr .s h.data h.poison)
      else (grant m { h with dir := .em, owner := m, sharers := 0 } s).send (.grant m h.addr .e h.data h.poison)
    | .em =>
      let h' := if b.gotDirty then { h with dir := .o, sharers := add m }
                else { h with dir := .s, sharers := add m ||| sharerBit h.owner }
      (grant m h' s).send (.grant m h.addr .s h.data h.poison)
    | _ => (grant m { h with sharers := h.sharers ||| add m } s).send (.grant m h.addr .s h.data h.poison)
  | .getM m =>
    (grant m (own m) s).send (.grant m h.addr .m h.data h.poison)
  | .upg m =>
    let holds := h.sharers.getLsbD m.val || (decide (h.dir = .em ∨ h.dir = .o) && decide (h.owner = m))
    let t := grant m (if holds then { h with dir := .em, owner := m, sharers := 0 } else own m) s
    if holds then t.send (.upgAck m h.addr) else t.send (.grant m h.addr .m h.data h.poison)
  | .rdu r off len => (free h s).answer r h.addr .rdu false (lineGet h.data off len) h.poison
  | .wru r off bs wt =>
    let keep : Bool := match r with | .core m => wt && decide (h.dir = .s ∨ h.dir = .o) && h.sharers.getLsbD m.val | _ => false
    let only : BitVec 128 := match r with | .core m => sharerBit m | _ => 0
    let h := { h with data := linePut h.data off bs, dirty := true, poison := h.poison && decide (bs.length < 128)
                      dir := if keep then .s else .i, sharers := if keep then only else 0 }
    (free h s).answer r h.addr .wru false [] false
  | .atom r off op =>
    let n := if op.dbl then 8 else 4
    let old := ofBytes (lineGet h.data off n)
    let h := { h with dir := .i, sharers := 0 }
    if h.poison then (free h s).answer r h.addr .atom (!op.op.hasResult) (toBytes n old) true
    else
      let h := { h with data := linePut h.data off (toBytes n (atomNew op n old)), dirty := true }
      ((free h s).scBump h.addr 0x38).answer r h.addr .atom (!op.op.hasResult) (toBytes n old) false
  | .evict => ((b.heldPuts.foldl (fun t m => t.send (.putAck m h.addr)) s).dropHome { h with dir := .i, sharers := 0, busy := none }).scBump h.addr 0x30

/-- Start the contacts of an accepted request, or complete it when there are none. -/
def State.contact (s : State) (h : HomeLine) (r : HomeReq) : State :=
  let c := contacts h r
  let b : Busy := { req := r, needFill := false, noRoom := false, invs := c.1, fwd := c.2.map fun _ => h.owner, fwdTo := c.2.map fun _ => h.owner, gotDirty := false
                    gotEvict := false, needCmp := none, heldPuts := [] }
  if c.1.isEmpty ∧ c.2.isNone then s.complete h b
  else
    let s := c.1.foldl (fun t m => t.send (.inv m h.addr)) s
    let s := match c.2 with | some f => s.send (f h.owner h.addr) | none => s
    s.putHome { h with busy := some b }

/-- A way is needed in the set of a line and no copy-free one is there: the least recently used line that is not busy is recalled (12 R314). One recall is under
way in a set at a time (log entry 80). -/
def State.recallFor (s : State) (l : Line) : State :=
  if s.roomFor l ∨ (s.waysOf l).any (fun h => h.recalled) then s
  else match (s.waysOf l).reverse.find? fun h => h.busy.isNone with
    | some h => s.contact h .evict
    | none => s

/-- The home accepts a request on a line that is not busy (12 R317): a miss waits for HBM, and for a way. -/
def State.accept (s : State) (l : Line) (r : HomeReq) : State :=
  match s.home l with
  | some h => let h := { h with putting := false }; ((s.putHome h).scBump l 0x10).contact h r
  | none =>
    let room := s.roomFor l
    let s := (if room then s.makeRoom l else s.recallFor l).scBump l 0x18
    s.putHome { addr := l, data := 0, dirty := false, dir := .i, owner := 0, sharers := 0, poison := false, putting := false
                busy := some { req := r, needFill := true, noRoom := !room, invs := [], fwd := none, fwdTo := none, gotDirty := false
                               gotEvict := false, needCmp := none, heldPuts := [] } }

/-- Whether an engine without a data cache may make its accesses to lines now: a home that is busy or reserved refuses its line with a Nack, after which
nothing is tried until the backoff is over; a line that finds no way in its set waits for a recall (12 R314, R321-R324). -/
def State.ask (s : State) (who : Requester) (ls : List Line) : State × Bool :=
  if s.tries.any fun t => t.backoff && decide (t.who = who) && ls.contains t.line then (s, false)
  else
  match ls.find? fun l => !s.homeOpen who l with
  | some l => (s.refused who l, false)
  | none =>
    match ls.find? fun l => (s.home l).isNone && !s.roomFor l with
    | some l => (s.recallFor l, false)
    | none => (ls.foldl (fun t l => t.taken who l) s, true)

/-- A refusal of a request of mast `m` (12 R323, R324): at its eighth Nack it is given a reservation, if the slice's
table has room. -/
def State.nack (s : State) (m : MastId) (l : Line) : State :=
  let s := ({ s with frees := s.frees + 1 }.send (.nack m l false)).scBump l 0x20
  let s := s.modDc m fun c => { c with reqs := updFirst (fun r => r.line = l) (fun r => { r with nacks := r.nacks + 1 }) c.reqs }
  match (s.mast m).dc.reqs.find? fun r => r.line = l with
  | some r => s.reserve (.core m) l r.nacks
  | none => s

/-- A request of mast `m` arrives at the home: it is accepted or refused (12 R321, R324). -/
def State.arrive (s : State) (m : MastId) (l : Line) (r : HomeReq) : State :=
  if s.homeOpen (.core m) l then (s.taken (.core m) l).accept l r else s.nack m l

/-- A Put arrives at the home (12 R317, R321). The line is busy with an accepted one for 4 cc. -/
def State.putArrives (s : State) (m : MastId) (l : Line) (st : CacheSt) (d : BitVec 1024) : State :=
  let refuse := ({ s with frees := s.frees + 1 }.send (.nack m l true)).scBump l 0x20
  match s.home l with
  | none => s.send (.putAck m l)
  | some h =>
    match h.busy with
    | some b =>
      if b.fwdTo = some m then s.putHome { h with busy := some { b with heldPuts := b.heldPuts ++ [m] } }
      else refuse
    | none =>
      if s.lineBusy l then refuse
      else
        let owns := decide (h.owner = m) && decide (h.dir = .em ∨ h.dir = .o)
        let s := s.send (.putAck m l)
        if !owns then s.putHome { h with putting := true }
        else
          let h := if st = .e then h else { h with data := d, dirty := true }
          s.putHome { h with dir := if h.dir = .o ∧ h.sharers ≠ 0 then .s else .i
                             sharers := if h.dir = .o then h.sharers else 0, putting := true }

/-- An answer of a contact has been counted: the request completes once none is due. -/
def State.settle (s : State) (h : HomeLine) (b : Busy) : State :=
  if b.invs.isEmpty ∧ b.fwd.isNone then s.complete h b else s.putHome { h with busy := some b }

/-! ## A cache takes a message of the home (12 Table 12-4) -/

/-- The answer to an Inv: the line is dropped. -/
def State.cacheInv (s : State) (m : MastId) (l : Line) : State :=
  ((s.modDc m fun c => c.drop l).send (.invAck m l)).kickAll m

/-- The answer to a Fwd: the data of the line as the cache or its writeback buffer holds it. -/
def State.cacheFwd (s : State) (m : MastId) (l : Line) (after : CacheSt → Option CacheSt) : State :=
  match (s.mast m).dc.find l with
  | some (x, evicting) =>
    let s := (s.cacheRead m l 0 128).send (.fwdData m l x.data x.st.isDirty evicting)
    if evicting then s
    else match after x.st with
      | none => s.modDc m fun c => c.drop l
      | some st => s.modDc m fun c => c.setSt l st
  | none => s

/-- A grant arrives at a cache: the line is installed, loads and stores of the line are served, and Cmp is sent. A
poisoned line is kept by no cache, and the job faults (12 R331). Its place was kept since its request was sent (12 R307). -/
def State.cacheGrant (s : State) (m : MastId) (l : Line) (st : CacheSt) (d : BitVec 1024) (poison : Bool) : State :=
  let s := (s.modDc m fun c => c.reqDone l).send (.cmp m l)
  -- no cache keeps a poisoned line: loads are delivered, and stores that waited for it are lost (log entry 45)
  if poison then
    let s := (s.jobFault m 0 1).feedLine m l d
    let lost := fun (e : WqEnt) => decide (st = .m ∧ lineOf (localOf e.pa) = l ∧ e.wp = 0 ∧ e.st = .requested)
    (s.modCore m fun c => { c with wq := c.wq.filter fun e => !lost e }).kickWq m l
  else
    let s := s.feedLine m l d
    -- stores whose bytes merge on an owned grant (12 R308, R475)
    let mine := fun (e : WqEnt) => decide (st = .m ∧ lineOf (localOf e.pa) = l ∧ e.wp = 0 ∧ e.st ≠ .performed)
    let d := (s.mast m).core.wq.foldl (fun d e => if mine e then linePut d (localOf e.pa % 128) e.data else d) d
    let s := s.modCore m fun c => { c with wq := c.wq.filter fun e => !mine e }
    ((s.cacheMend m l 0 128).install m { addr := l, st := st, data := d }).kickAll m

/-- An UpgAck arrives at a cache: the line becomes M and the waiting stores are written into it. The line is there: it stays while its Upg is outstanding
(log entry 101), and a line that an Inv took is granted with its data. -/
def State.cacheUpg (s : State) (m : MastId) (l : Line) : State :=
  let s := ((s.modDc m fun c => (c.reqDone l).upd l fun x => { x with st := .m }).touchLine m l).send (.cmp m l)
  let mine := fun (e : WqEnt) => decide (lineOf (localOf e.pa) = l ∧ e.wp = 0 ∧ e.st ≠ .performed)
  let es := (s.mast m).core.wq.filter mine
  let s := s.modDc m fun c => c.upd l fun x =>
    { x with data := es.foldl (fun d e => linePut d (localOf e.pa % 128) e.data) x.data }
  (s.modCore m fun c => { c with wq := c.wq.filter fun e => !mine e }).kickWq m l

end Sys2Proof.Machine
end

