-- ==== Sys2Proof/Machine/Xlate.lean ====
section
/-!
DEFINITION. Address translation (13): the translation buffers, the check of an access against its leaf and its
place, walks, and the recording of translation faults.
-/

namespace Sys2Proof.Machine

/-- The result of a translation. A fault has a KIND (2 permission, 3 region) and the LEVEL of the leaf. -/
inductive XRes where
  | ok (pa : BitVec 52) (wp : BitVec 2)
  | miss
  | fault (kind lvl : Nat)
  deriving DecidableEq, Repr

/-- The offset bits of a page at a level (13 Table 13-1). -/
def pageBits : Nat → Nat
  | 0 => 16 | 1 => 27 | _ => 38

/-- The translation buffer of an engine: 0 control core, 1 long-vector unit, 5 halyard. -/
def Xl.tlb (x : Xl) (e : EngId) : List TlbEnt := if e = 0 then x.tlbCore else if e = 1 then x.tlbVec else x.tlbHal
/-- Set it. -/
def Xl.setTlb (x : Xl) (e : EngId) (t : List TlbEnt) : Xl :=
  if e = 0 then { x with tlbCore := t } else if e = 1 then { x with tlbVec := t } else { x with tlbHal := t }
/-- Its size (13 R344). -/
def tlbSize (e : EngId) : Nat := if e = 5 then 64 else 32

/-- Whether an entry maps a VA in an address space. -/
def TlbEnt.maps (t : TlbEnt) (asid : BitVec 12) (va : Nat) : Bool :=
  t.asid == asid && decide (t.vpage = va / 2 ^ pageBits t.lvl)

/-- The entry of an engine's buffer for a VA. -/
def Xl.find (x : Xl) (e : EngId) (va : Nat) : Option TlbEnt := (x.tlb e).find? fun t => t.maps x.asid va

/-- A use of an entry makes it the most recently used. -/
def Xl.touch (x : Xl) (e : EngId) (va : Nat) : Xl :=
  match x.find e va with
  | some t => x.setTlb e (t :: (x.tlb e).filter (· ≠ t))
  | none => x

/-- Accesses of an engine use the entries of its buffer for some VAs (13 R344). -/
def State.useXlate (s : State) (m : MastId) (e : EngId) (vas : List Nat) : State := s.modXl m fun x => vas.foldl (fun x a => x.touch e a) x

/-- Whether a translated PA is a fault of kind REGION for an engine (13 Table 13-3). -/
def State.regionFault (s : State) (e : EngId) (pa : BitVec 52) : Bool :=
  let p := localOf pa
  match placeOf p with
  | .hbm => s.isOwn pa && inCtxRegion p
  | .canvas _ => false
  | .reserved => true
  | .regs => !(s.isOwn pa && decide (e = 0))

/-- Translate an access of an engine (13 R341, R342) at level `plv` that reads, writes or both. -/
def State.xlate (s : State) (m : MastId) (e : EngId) (va : Nat) (plv : BitVec 2) (rd wr : Bool) : XRes :=
  match (s.mast m).xl.find e va with
  | none => .miss
  | some t =>
    if (rd && !t.r) || (wr && !t.w) || (decide (plv = 0) && !t.u) then .fault 2 t.lvl
    else
      let pa : BitVec 52 := BitVec.ofNat 52 (t.pa.toNat + va % 2 ^ pageBits t.lvl)
      if s.regionFault e pa then .fault 3 t.lvl else .ok pa t.wp

/-! ## Walks (13 R337-R349) -/

/-- The VA field that a level indexes, and the bit it starts at. -/
def levelLo : Nat → Nat
  | 0 => 16 | 1 => 27 | 2 => 38 | _ => 49
/-- The index into the table of a level. -/
def levelIdx (lvl va : Nat) : Nat := fld va (levelLo lvl) (if lvl = 3 then 7 else 11)

/-- What a walk ends with; `refused` is a table line whose home is busy or reserved, or has no way (12 R321, R324): the walk is made again. -/
inductive WRes where
  | leaf (lvl : Nat) (ent : Word)
  | noTrans (lvl : Nat)
  | malformed (lvl : Nat)
  | poisoned
  | refused
  deriving DecidableEq, Repr

/-- Whether a valid entry read at a level is malformed (13 R340). -/
def entryBad (node : BitVec 14) (lvl : Nat) (e : Word) : Bool :=
  let leaf := wbit e 1
  let addr := wfld e 14 38 * 2 ^ 14
  decide (wfld e 7 7 ≠ 0) || decide (wfld e 52 4 ≠ 0) ||
  (if leaf then decide (lvl = 3) || decide (addr % 2 ^ pageBits lvl ≠ 0)
   else decide (wfld e 2 5 ≠ 0) || decide (lvl = 0) || decide (addr / 2 ^ 38 ≠ node.toNat) ||
     decide (canvasBase ≤ addr % 2 ^ 38))

/-- Read tables from a level downward. `tab` is the PA of the table. Every valid entry read is collected for the
walk cache. -/
def walkGo (who : Requester) (asid : BitVec 12) (va : Nat) : Nat → Nat → State → List WcEnt → State × List WcEnt × WRes
  | lvl, tab, s, acc =>
    let a := tab % 2 ^ 38 + 8 * levelIdx lvl va
    let q := s.ask who [lineOf a]
    if !q.2 then (q.1, acc, .refused) else
    let r := q.1.readLine (lineOf a)
    let e : Word := BitVec.ofNat 64 (ofBytes (lineGet r.2.1 (a % 128) 8))
    if r.2.2 then (r.1, acc, .poisoned)
    else if !wbit e 0 then (r.1, acc, .noTrans lvl)
    else if entryBad s.nodeId lvl e then (r.1, acc, .malformed lvl)
    else
      let acc := acc ++ [{ asid := asid, lvl := lvl, vtag := va / 2 ^ levelLo lvl, ent := e }]
      if wbit e 1 then (r.1, acc, .leaf lvl e)
      else match lvl with
        | 0 => (r.1, acc, .malformed 0)
        | k + 1 => walkGo who asid va k (wfld e 14 38 * 2 ^ 14) r.1 acc

/-- The deepest entry of a walk cache for a VA. -/
def deepest (wc : List WcEnt) (asid : BitVec 12) (va : Nat) : Option WcEnt :=
  ([0, 1, 2, 3].filterMap fun l => wc.find? fun w => w.asid == asid && decide (w.lvl = l ∧ w.vtag = va / 2 ^ levelLo l)).head?

/-- Perform a walk (13 R345): from the deepest entry that the walk cache holds, which is used and so is among the entries to install, or from XL_ROOT. -/
def State.walk (s : State) (who : Requester) (d : DieId) (asid : BitVec 12) (root : BitVec 42) (va : Nat) (top : Bool) :
    State × List WcEnt × WRes :=
  match if top then none else deepest (s.die d).wc asid va with
  | some w =>
    if wbit w.ent 1 then (s.bumpDie d 0x400008, [w], .leaf w.lvl w.ent)
    else match w.lvl with
      | 0 => (s, [w], .malformed 0)
      | k + 1 => walkGo who asid va k (wfld w.ent 14 38 * 2 ^ 14) s [w]
  | none =>
    let tab := root.toNat * 2 ^ 10
    if tab / 2 ^ 38 ≠ s.nodeId.toNat ∨ canvasBase ≤ tab % 2 ^ 38 then (s, [], .malformed 3)
    else walkGo who asid va 3 tab s []

/-- The translation-buffer entry of a leaf. -/
def leafEnt (asid : BitVec 12) (va lvl : Nat) (e : Word) : TlbEnt :=
  { asid := asid, lvl := lvl, vpage := va / 2 ^ pageBits lvl, pa := BitVec.ofNat 52 (wfld e 14 38 * 2 ^ 14)
    r := wbit e 2, w := wbit e 3, u := wbit e 4, wp := BitVec.ofNat 2 (wfld e 5 2) }

/-- Install a leaf in an engine's buffer: least recently used replacement (13 R344). -/
def Xl.fill (x : Xl) (e : EngId) (t : TlbEnt) : Xl :=
  x.setTlb e ((t :: (x.tlb e).filter fun u => !(u.asid == t.asid && decide (u.lvl = t.lvl ∧ u.vpage = t.vpage))).take (tlbSize e))

/-- Install entries in a walk cache: least recently used replacement over 1,024 entries. -/
def wcFill (wc : List WcEnt) (es : List WcEnt) : List WcEnt :=
  ((es.reverse ++ wc.filter fun w => !es.any fun e => decide (e.asid = w.asid ∧ e.lvl = w.lvl ∧ e.vtag = w.vtag))).take 1024

/-! ## Translation faults (13 R350-R352) -/

/-- The record address of a mast's fault ring. -/
def Xl.recAddr (x : Xl) : Nat := x.fqBase.toNat * 4096 + 32 * x.fqTail.toNat
/-- Whether the record address lies outside local HBM or in the queue-context region (13 R352). -/
def Xl.recBad (x : Xl) (node : BitVec 14) : Bool :=
  let a := x.recAddr
  decide (a / 2 ^ 38 ≠ node.toNat) || decide (canvasBase ≤ a % 2 ^ 38) || inCtxRegion (a % 2 ^ 38)
/-- Whether the ring is full. -/
def Xl.fqFull (x : Xl) : Bool := decide ((x.fqTail.toNat + 1) % 2 ^ x.fqSize.toNat = x.fqHead.toNat)

/-- An access met a translation fault: its record is to be written; or, with the ring disabled or badly placed, the
job faults at once (13 R350, R352). A malformed walk is recorded in the same way, and is always a fault of the job (13 R340). -/
def State.addFault (s : State) (m : MastId) (f : XFault) : State :=
  let x := (s.mast m).xl
  let bad := !x.fqEn || x.recBad s.nodeId
  let s := s.modXl m fun x => { x with faults := x.faults ++ [{ f with st := if bad then .dead else .pending }] }
  if bad then s.jobFault m f.e.val (if f.kind = 4 then 5 else 6) else s

/-- An engine waits for the walk of a VA (13 R345); `f` is the record its access writes if the walk finds nothing. -/
def State.addMiss (s : State) (m : MastId) (f : XFault) : State :=
  s.modXl m fun x => { x with miss := x.miss.filter (fun p => p.e ≠ f.e) ++ [f] }

/-- The fault of engine `e` that is on its way, if any. -/
def Xl.faultOf (x : Xl) (e : EngId) : Option XFault := x.faults.find? fun f => f.e = e

end Sys2Proof.Machine
end

