-- ==== Sys2Proof/Machine/RegMap.lean ====
section
/-!
DEFINITION. The register window (01 R18-R20, Table 1-4): which register lies at each offset of each block (the
register-map tables of chapters 01 to 18), the sizes it may be accessed with, and the accesses open below M
(14 R360, Table 14-1). A `count` register holds counting fields only and is read through the shadow set (17 R445).
-/

namespace Sys2Proof.Machine

/-- A register or a window word of a per-mast block. -/
inductive MReg where
  | count (off : Nat)
  | ccCtl | ccStatus | ccPc | ccStartPc
  | numCtl | numFlags
  | dcCtl | dcStatus
  | xlRoot | fqBase | fqHead | fqTail | fqStatus | fqSeq
  | irqSet | tstate
  | bankWin (b : Fin 4) (i : Nat)
  | mastJob | snapTag | sailStatus
  | gate (w : Nat)
  | sheetCtl | sheetStatus | sheetDescBase | sheetProg | sheetFault | sheetSticky | sheetQlen
  | sheetQent (i : Nat)
  | halCtl | halStatus | halFaultVa | halFaultInfo
  | halProg (h : Fin 2)
  | halQlen
  | halQent (i : Nat)
  | canvCtl | canvEcc | chkSel
  | check (i : Nat)
  | tokenCnt (i : Fin 96)
  | tokenCtl
  | vecCtl | vecStatus | vidx | vecFaultVa | vecFaultInfo | vecQlen
  | vecQent (i : Nat)
  | vreg (w : Nat)
  | kreg (w : Nat)
  | arrCtl (a : ArrId)
  | arrStatus (a : ArrId)
  | arrFaultInfo (a : ArrId)
  | arrFaultPc (a : ArrId)
  | arrQlen (a : ArrId)
  | arrQent (a : ArrId) (i : Nat)
  | passK (t : Fin 16)
  | bqcfg (a : ArrId) (q : Fin 4) (w : Nat)
  | bqstat (a : ArrId) (q : Fin 4)
  | rowmap (w : Nat)
  | accMeta (t : Fin 16)
  | accScale (t : Fin 16)
  | accSticky (a : ArrId)
  | accWsel
  | bankMem (w : Nat)
  | ldm (w : Nat)
  | imem (w : Nat)
  | accTile (w : Nat)
  | breg (w : Nat)
  deriving DecidableEq, Repr

/-- A register of a per-die block. -/
inductive DReg where
  | count (off : Nat)
  | hbmCtl (k : Fin 4)
  | hbmStatus (k : Fin 4)
  | hbmErrlog (k : Fin 4)
  | scCtl (k : Fin 64)
  | scStatus (k : Fin 64)
  | snapTag
  | snapInfl (n : Fin 64) (i : Fin 6)
  deriving DecidableEq, Repr

/-- A register of the per-module block. -/
inductive UReg where
  | count (off : Nat)
  | nodeId | xlInvCmd | xlInvVa | xlInvStatus
  | shrCfg
  | shrPctl (p : PortId)
  | shrPstatus (p : PortId)
  | shrPlat (p : PortId)
  | shrJob (j : JobSlot)
  | shrJblk (j : JobSlot)
  | shrJctl (j : JobSlot)
  | rcDesc (c : ChanId) (w : Nat)
  | rcCtl (c : ChanId)
  | rcStatus (c : ChanId)
  | rcToken (c : ChanId)
  | snapCtl | snapSeq
  | jobFlt (j : JobSlot)
  | jobFltCnt (j : JobSlot)
  deriving DecidableEq, Repr

/-- A register of the Crowsnest block. -/
inductive CReg where
  | pwrTrim | pwrStatus | pwrTelem | sailCfg | svcState | svcCtl
  | bootStatus | fuseSvn | fwCtl | modRst | attCtl
  | attNonce (w : Nat)
  | attReport (w : Nat)
  | attCert (w : Nat)
  | fwStage (w : Nat)
  deriving DecidableEq, Repr

/-- A register of the register window. -/
inductive Reg where
  | mast (m : MastId) (r : MReg)
  | die (d : DieId) (r : DReg)
  | module (r : UReg)
  | crow (r : CReg)
  deriving DecidableEq, Repr

/-- The register of an array at an offset from its base (06 Table 6-15). -/
def arrRegAt (a : ArrId) (base o : Nat) : Option MReg :=
  if o = 0 then some (.arrCtl a) else if o = 0x8 then some (.arrStatus a)
  else if o = 0x10 then some (.arrFaultInfo a) else if o = 0x18 then some (.arrFaultPc a)
  else if within o 0x20 0x20 then some (.count (base + o))
  else if o = 0x40 then some (.arrQlen a)
  else if within o 0x100 0x400 then some (.arrQent a ((o - 0x100) / 8))
  else if within o 0x800 0x40 then some (.passK (Fin.ofNat 16 (8 * a.val + (o - 0x800) / 8)))
  else if within o 0x900 0x100 then some (.bqcfg a (Fin.ofNat 4 ((o - 0x900) / 0x40)) ((o - 0x900) % 0x40 / 8))
  else if within o 0xA00 0x20 then some (.bqstat a (Fin.ofNat 4 ((o - 0xA00) / 8)))
  else none

/-- The control-core, cache, translation and trap part of a per-mast block, below 0x1_0000. -/
def coreRegAt (o : Nat) : Option MReg :=
  if o = 0 then some .ccCtl else if o = 0x8 then some .ccStatus else if o = 0x10 then some .ccPc
  else if o = 0x18 then some .ccStartPc else if within o 0x20 0x20 then some (.count o)
  else if o = 0x1000 then some .numCtl else if o = 0x1008 then some .numFlags
  else if o = 0x2000 then some .dcCtl else if o = 0x2008 then some .dcStatus
  else if within o 0x2010 0x28 then some (.count o)
  else if o = 0x3000 then some .xlRoot else if o = 0x3008 then some .fqBase else if o = 0x3010 then some .fqHead
  else if o = 0x3018 then some .fqTail else if o = 0x3020 then some .fqStatus
  else if o = 0x3028 then some (.count o) else if o = 0x3030 then some .fqSeq
  else if o = 0x4000 then some .irqSet else if o = 0x4008 then some .tstate
  else if within o 0x4010 0x10 then some (.count o)
  else if within o 0x4800 0x400 then
    (if (o - 0x4800) % 0x100 / 8 ≤ 24 then some (.bankWin (Fin.ofNat 4 ((o - 0x4800) / 0x100)) ((o - 0x4800) % 0x100 / 8))
     else none)
  else if o = 0x5000 then some .mastJob else if o = 0x6000 then some .snapTag else if o = 0x6008 then some .sailStatus
  else if within o 0x8000 0x4000 then some (.gate ((o - 0x8000) / 8))
  else none

/-- The rest of a per-mast block. -/
def engRegAt (o : Nat) : Option MReg :=
  if o = 0x10000 then some .sheetCtl else if o = 0x10008 then some .sheetStatus
  else if o = 0x10010 then some .sheetDescBase else if o = 0x10018 then some .sheetProg
  else if o = 0x10020 then some .sheetFault else if o = 0x10028 then some .sheetSticky
  else if within o 0x10030 0x20 then some (.count o) else if o = 0x10050 then some .sheetQlen
  else if within o 0x10100 0x400 then some (.sheetQent ((o - 0x10100) / 8))
  else if o = 0x18000 then some .halCtl else if o = 0x18008 then some .halStatus
  else if o = 0x18010 then some .halFaultVa else if o = 0x18018 then some .halFaultInfo
  else if within o 0x18020 0x10 then some (.halProg (Fin.ofNat 2 ((o - 0x18020) / 8)))
  else if within o 0x18030 0x18 then some (.count o) else if o = 0x18048 then some .halQlen
  else if within o 0x18100 0x400 then some (.halQent ((o - 0x18100) / 8))
  else if o = 0x1C000 then some .canvCtl else if o = 0x1C008 then some .canvEcc else if o = 0x1C010 then some .chkSel
  else if within o 0x20000 0x300 then some (.tokenCnt (Fin.ofNat 96 ((o - 0x20000) / 8)))
  else if o = 0x20400 then some .tokenCtl
  else if within o 0x20500 0x30 then some (.count o)
  else if o = 0x30000 then some .vecCtl else if o = 0x30008 then some .vecStatus else if o = 0x30010 then some .vidx
  else if o = 0x30018 then some .vecFaultVa else if o = 0x30020 then some .vecFaultInfo
  else if within o 0x30028 0x20 then some (.count o) else if o = 0x30048 then some .vecQlen
  else if o = 0x30050 then some (.count o)
  else if within o 0x30100 0x200 then some (.vecQent ((o - 0x30100) / 8))
  else if within o 0x40000 0x8000 then some (.vreg ((o - 0x40000) / 8))
  else if within o 0x48000 0x400 then some (.kreg ((o - 0x48000) / 8))
  else if within o 0x50000 0x4000 then arrRegAt 0 0x50000 (o - 0x50000)
  else if within o 0x54000 0x4000 then arrRegAt 1 0x54000 (o - 0x54000)
  else if within o 0x58000 0x4000 then some (.rowmap ((o - 0x58000) / 8))
  else if within o 0x5C000 0x100 then
    (if o % 0x10 = 0 then some (.accMeta (Fin.ofNat 16 ((o - 0x5C000) / 0x10)))
     else some (.accScale (Fin.ofNat 16 ((o - 0x5C000) / 0x10))))
  else if within o 0x5C100 0x10 then some (.accSticky (Fin.ofNat 2 ((o - 0x5C100) / 8)))
  else if within o 0x5C110 0x10 then some (.count o)
  else if o = 0x5C120 then some .accWsel
  else if within o 0x60000 0x20000 then some (.bankMem ((o - 0x60000) / 8))
  else if within o 0x80000 0x40000 then some (.ldm ((o - 0x80000) / 8))
  else if within o 0xC0000 0x20000 then some (.imem ((o - 0xC0000) / 8))
  else if within o 0xE0000 0x8000 then some (.accTile ((o - 0xE0000) / 8))
  else if within o 0xE8000 0x8000 then some (.check ((o - 0xE8000) / 8))
  else if within o 0xF0000 0x4000 then some (.breg ((o - 0xF0000) / 8))
  else none

/-- The register at an 8-byte aligned offset of a per-mast block. -/
def mastRegAt (o : Nat) : Option MReg := if o < 0x10000 then coreRegAt o else engRegAt o

/-- The register at an 8-byte aligned offset of a per-die block. -/
def dieRegAt (o : Nat) : Option DReg :=
  if within o 0x100000 0x18 then some (.count o)
  else if within o 0x200000 0x4000 then
    let k := Fin.ofNat 4 ((o - 0x200000) / 0x1000)
    let r := (o - 0x200000) % 0x1000
    if r = 0 then some (.hbmCtl k) else if r = 0x8 then some (.hbmStatus k)
    else if r = 0x20 then some (.hbmErrlog k)
    else if r = 0x10 ∨ r = 0x18 ∨ r = 0x28 ∨ r = 0x30 ∨ r = 0x38 then some (.count o)
    else none
  else if within o 0x300000 0x4000 then
    let k := Fin.ofNat 64 ((o - 0x300000) / 0x100)
    let r := (o - 0x300000) % 0x100
    if r = 0 then some (.scCtl k) else if r = 0x8 then some (.scStatus k)
    else if within r 0x10 0x30 then some (.count o) else none
  else if within o 0x400000 0x20 then some (.count o)
  else if o = 0x500000 then some .snapTag
  else if within o 0x501000 0x1000 then
    (if (o - 0x501000) % 0x40 / 8 < 6 then
      some (.snapInfl (Fin.ofNat 64 ((o - 0x501000) / 0x40)) (Fin.ofNat 6 ((o - 0x501000) % 0x40 / 8)))
     else none)
  else none

/-- The register at an 8-byte aligned offset of the per-module block. -/
def modRegAt (o : Nat) : Option UReg :=
  if o = 0x1000 then some .nodeId else if o = 0x2000 then some .xlInvCmd else if o = 0x2008 then some .xlInvVa
  else if o = 0x2010 then some .xlInvStatus
  else if o = 0x10000 then some .shrCfg
  else if within o 0x10100 0x400 then
    let p := Fin.ofNat 16 ((o - 0x10100) / 0x40)
    let r := (o - 0x10100) % 0x40
    if r = 0 then some (.shrPctl p) else if r = 0x8 then some (.shrPstatus p) else if r = 0x10 then some (.shrPlat p)
    else if within r 0x18 0x20 then some (.count o) else none
  else if within o 0x11000 0x100 then
    let j := Fin.ofNat 8 ((o - 0x11000) / 0x20)
    let r := (o - 0x11000) % 0x20
    if r = 0 then some (.shrJob j) else if r = 0x8 then some (.shrJblk j) else if r = 0x10 then some (.shrJctl j)
    else none
  else if within o 0x20000 0x4000 then
    let c := Fin.ofNat 64 ((o - 0x20000) / 0x100)
    let r := (o - 0x20000) % 0x100
    if r < 0x40 then some (.rcDesc c (r / 8)) else if r = 0x40 then some (.rcCtl c)
    else if r = 0x48 then some (.rcStatus c) else if r = 0x50 then some (.rcToken c)
    else if r = 0x58 ∨ r = 0x60 then some (.count o) else none
  else if o = 0x40000 then some .snapCtl else if o = 0x40008 then some .snapSeq
  else if within o 0x50000 0x100 then
    let j := Fin.ofNat 8 ((o - 0x50000) / 0x20)
    let r := (o - 0x50000) % 0x20
    if r = 0 then some (.jobFlt j) else if r = 0x8 then some (.jobFltCnt j) else none
  else none

/-- The register at an 8-byte aligned offset of the Crowsnest block. -/
def crowRegAt (o : Nat) : Option CReg :=
  if o = 0 then some .pwrTrim else if o = 0x8 then some .pwrStatus else if o = 0x10 then some .pwrTelem
  else if o = 0x18 then some .sailCfg else if o = 0x1000 then some .svcState else if o = 0x1008 then some .svcCtl
  else if o = 0x2000 then some .bootStatus else if o = 0x2008 then some .fuseSvn else if o = 0x2010 then some .fwCtl
  else if o = 0x2018 then some .modRst else if o = 0x3000 then some .attCtl
  else if within o 0x3100 32 then some (.attNonce ((o - 0x3100) / 8))
  else if within o 0x3200 512 then some (.attReport ((o - 0x3200) / 8))
  else if within o 0x4000 4096 then some (.attCert ((o - 0x4000) / 8))
  else if within o 0x100000 0x100000 then some (.fwStage ((o - 0x100000) / 8))
  else none

/-- The register that holds the byte at a local address of the register window (01 Table 1-4). -/
def regAt (pa : Nat) : Option Reg :=
  let o := pa - pa % 8
  if within o 0x3F00000000 0x8000000 then
    (mastRegAt (o % 0x100000)).map (.mast (Fin.ofNat 128 ((o - 0x3F00000000) / 0x100000)))
  else if within o 0x3F40000000 0x20000000 then
    (dieRegAt (o % 0x10000000)).map (.die (Fin.ofNat 2 ((o - 0x3F40000000) / 0x10000000)))
  else if within o 0x3F80000000 0x10000000 then (modRegAt (o - 0x3F80000000)).map .module
  else if within o 0x3FC0000000 0x10000000 then (crowRegAt (o - 0x3FC0000000)).map .crow
  else none

/-- A register with a writable field that crosses from bit 31 to bit 32 takes no 4-byte write (01 R20). -/
def Reg.crosses : Reg → Bool
  | .mast _ r =>
    match r with
    | .xlRoot | .fqBase | .sheetQent _ | .halQent _ | .vecQent _ | .arrQent _ _ | .bqcfg _ _ _ | .bqstat _ _ => true
    | _ => false
  | .module r =>
    match r with
    | .xlInvCmd | .xlInvVa | .rcDesc _ _ => true
    | _ => false
  | _ => false

/-- The register an access of `size` bytes reaches, if its size and alignment are right (01 R19, R20). -/
def regOk (pa size : Nat) (wr : Bool) : Option Reg :=
  if (size = 4 ∨ size = 8) ∧ pa % size = 0 then
    match regAt pa with
    | some r => if wr && decide (size = 4) && r.crosses then none else some r
    | none => none
  else none

/-- Whether Table 14-1 lists an access of mast `m`'s core at level U (0) or S (1) to a register. -/
def Reg.grant (r : Reg) (m : MastId) (lvl : Nat) (wr : Bool) : Bool :=
  match r with
  | .module _ => !wr
  | .mast k q =>
    decide (k = m) &&
    match q with
    | .numCtl | .numFlags => true
    | .tokenCnt _ => !wr
    | .vecStatus | .vidx | .vecFaultVa | .vecFaultInfo | .halStatus | .halFaultVa | .halFaultInfo | .halProg _ =>
      decide (lvl = 1) && !wr
    | .vecCtl | .halCtl => decide (lvl = 1) && wr
    | .fqHead | .fqStatus => decide (lvl = 1)
    | .fqTail => decide (lvl = 1) && !wr
    | _ => false
  | _ => false

/-- What stops a register-window access of a control core: PRIVILEGE (3) before RESERVED_ADDR (9) (14 R360, R368). -/
def regCheck (m : MastId) (lvl pa size : Nat) (wr : Bool) : Option Nat :=
  let listed : Bool := decide (lvl = 2) || (match regAt pa with | some r => r.grant m lvl wr | none => false)
  if !listed then some 3 else if (regOk pa size wr).isNone then some 9 else none

end Sys2Proof.Machine
end

