-- ==== Sys2Proof/Machine/Bundle.lean ====
section
/-!
DEFINITION. What the encoding of a bundle alone decides (02 R55-R58, 04 R116, 14 R362, R363): its slots, the
registers and LDM accesses of its syllables, whether it is well formed, and whether a syllable is illegal.
-/

namespace Sys2Proof

open Machine

/-- The slot code of a syllable (02 Table 2-4). -/
def Syl.slot : Syl → Nat
  | .c _ _ => 0 | .l _ _ => 1 | .v0 _ _ => 2 | .v1 _ _ => 3 | .x _ _ => 4 | .s _ _ => 5 | .b _ _ => 6

/-- The payload of the I syllable that follows, if one does. -/
def Syl.ext : Syl → Option (BitVec 28)
  | .c _ d => d.ext | .l _ d => d.ext | .v0 _ d => d.ext | .v1 _ d => d.ext | .x _ d => d.ext | .s _ d => d.ext
  | .b _ d => d.ext

/-- STOP on the syllable or on its I syllable. -/
def Syl.stop : Syl → Bool
  | .c _ d => d.stop | .l _ d => d.stop | .v0 _ d => d.stop | .v1 _ d => d.stop | .x _ d => d.stop | .s _ d => d.stop
  | .b _ d => d.stop

/-- How many 32-bit words the syllable takes with its I syllable. -/
def Syl.words (y : Syl) : Nat := if y.ext.isSome then 2 else 1

/-- A V1 operation with an address and a displacement (04 R115). -/
def V1Op.isMem (o : V1Op) : Bool :=
  match o with
  | .vld | .vst | .vlds | .vsts | .vldx | .vstx | .vkld | .vkst => true
  | _ => false

/-- Whether a V1 operation writes memory. -/
def V1Op.isStore (o : V1Op) : Bool :=
  match o with
  | .vst | .vsts | .vstx | .vkst => true
  | _ => false

/-- An atomic operation or a memory reduction (12 Table 12-8). -/
def LOp.isAtomic (o : LOp) : Bool := decide (0x30 ≤ o.code)

/-- A LOOP whose count is the I payload (02 Table 2-9a). -/
def loopCsrc (d : BBody) : Bool := d.cond.getLsbD 1

/-- The number of a body's LEVEL for LOOP. -/
def loopLevel (d : BBody) : Nat := fld d.cond.toNat 2 2

/-- Whether a syllable accepts an I syllable (02 R60, R70; 04 R116; 06 R163; 08 R215). -/
def Syl.takesExt (y : Syl) : Bool :=
  match y with
  | .c _ d | .l _ d => decide (d.mode ≠ 1 ∧ d.mode ≠ 4)
  | .v0 _ d => d.sc && decide (d.vs1 = 31)
  | .v1 op _ => op.isMem
  | .b op d => decide (op = .loop) && loopCsrc d
  | _ => false

/-- Whether a syllable must be followed by an I syllable. -/
def Syl.needsExt (y : Syl) : Bool :=
  match y with
  | .v0 _ d => d.sc && decide (d.vs1 = 31)
  | .b op d => decide (op = .loop) && loopCsrc d
  | _ => false

/-- Whether a C operation writes FLAGS (02 Table 2-7). -/
def COp.setsFlags (o : COp) : Bool :=
  match o with
  | .mul | .mulu | .mac | .macu | .movh | .mfsr | .mtsr => false
  | _ => true

/-- Whether a C operation writes PL and PH. -/
def COp.isMul (o : COp) : Bool :=
  match o with
  | .mul | .mulu | .mac | .macu => true
  | _ => false

/-- Whether a C operation writes A. -/
def COp.writesA (o : COp) : Bool :=
  match o with
  | .cmp | .tst | .mul | .mulu | .mac | .macu | .mtsr => false
  | _ => true

/-- The registers a syllable writes, by register code (02 Table 2-5). A multiply counts as writing
the product registers, though it writes them three cc later (R57, R65; log entry 25). -/
def Syl.writes (y : Syl) : List Nat :=
  match y with
  | .c op _ => (if op.writesA then [0] else []) ++ (if op.setsFlags then [6] else []) ++ (if op.isMul then [4, 5] else [])
  | .l op d =>
    match op with
    | .ldx | .leax => [1]
    | .ldy | .leay => [2]
    | .lda | .ldg => [0]
    | .sta => if d.mode = 1 then [fld d.field.toNat 0 5] else []
    | .push => [3]
    | .pop => [0, 3]
    | _ => if op.isAtomic && op.hasResult then [0] else []
  | .v1 op _ => if op = .vsetvl then [0] else []
  | .b op d =>
    match op with
    | .call | .calla | .ret => [3]
    | .loop => if loopLevel d = 3 then [] else [8 + loopLevel d, 11 + loopLevel d, 14 + loopLevel d]
    | _ => []
  | _ => []

/-- LDM reads of a syllable (02 R57; 04 R114; 06 R164; 08 R216). -/
def Syl.ldmReads (y : Syl) : Nat :=
  match y with
  | .c _ d => b2n d.isMem
  | .l op d =>
    match op with
    | .ldx | .ldy | .lda | .post => b2n d.isMem
    | .pop => 1
    | _ => 0
  | .v0 _ d => b2n (d.sc && decide (3 ≤ d.vs1.toNat ∧ d.vs1.toNat ≤ 30))
  | .x op _ => if op = .xbdisarm then 0 else 1
  | .s _ _ => 1
  | .b op _ => if op = .ret then 1 else 0
  | _ => 0

/-- Whether a syllable captures a sheet descriptor: the error of its read is the sheet engine's (08 Table 8-8). -/
def Syl.isSrun (y : Syl) : Bool := match y with | .s .srun _ => true | _ => false

/-- LDM writes of a syllable (02 R57). -/
def Syl.ldmWrites (y : Syl) : Nat :=
  match y with
  | .l op d =>
    match op with
    | .sta | .stx | .sty => b2n d.isMem
    | .push => 1
    | _ => 0
  | .b op _ => if op = .call ∨ op = .calla then 1 else 0
  | _ => 0

/-! ## Illegal syllables -/

/-- The general conditions on an M-form body (02 R53, R58, R60). -/
def MBody.bad (d : MBody) : Bool :=
  match d.mode.toNat with
  | 0 => decide (d.sz ≠ 3) || d.sgn
  | 1 => decide (d.sz ≠ 3) || d.sgn || decide (fld d.field.toNat 5 11 ≠ 0) ||
         decide (fld d.field.toNat 0 5 = 7) || decide (17 ≤ fld d.field.toNat 0 5)
  | 2 | 3 | 5 => false
  | 4 => decide (d.field ≠ 0)
  | _ => true

/-- The system register that MFSR and MTSR name: FIELD[4:0] (02 Table 2-7). -/
def MBody.sysReg (d : MBody) : Nat := fld d.field.toNat 0 5

/-- The conditions on a C syllable (02 R61, 14 R363). -/
def COp.bad (o : COp) (d : MBody) : Bool :=
  match o with
  | .neg | .not | .clz | .popc => d.bad || decide (d.mode ≠ 0 ∨ d.field ≠ 0)
  | .sext => decide (d.mode ≠ 0 ∨ d.field ≠ 0) || d.sgn
  | .movh => d.bad || decide (d.mode ≠ 0)
  | .mfsr => d.bad || decide (d.mode ≠ 0) || decide (16 ≤ d.sysReg)
  | .mtsr => d.bad || decide (d.mode ≠ 0) || decide (16 ≤ d.sysReg) || decide (d.sysReg = 4 ∨ d.sysReg = 14 ∨ d.sysReg = 15)
  | _ => d.bad

/-- The conditions on an L syllable (02 Table 2-8, 12 R326). -/
def LOp.bad (o : LOp) (d : MBody) : Bool :=
  match o with
  | .ldx | .ldy | .lda | .post => d.bad
  | .sta => d.bad || decide (d.mode = 0)
  | .stx | .sty | .leax | .leay | .ldg | .stg => d.bad || !d.isMem
  | .push | .pop | .fence => d.bad || decide (d.mode ≠ 0 ∨ d.field ≠ 0)
  | .acas => d.bad || decide (d.sz.toNat < 2) || decide (d.mode ≠ 2 ∧ d.mode ≠ 5)
  | _ => d.bad || !d.isMem || decide (d.sz.toNat < 2)

/-- The conditions on a B syllable (02 Table 2-9a, R62, R71, R76). -/
def BOp.bad (o : BOp) (d : BBody) : Bool :=
  match o with
  | .br => decide (d.cond = 15)
  | .loop => decide (loopLevel d = 3) || d.cond.getLsbD 0
  | .twait => decide (d.cond ≠ 0) || decide (fld d.off.toNat 8 11 ≠ 0) ||
              !decide (1 ≤ popcount 8 d.off.toNat ∧ popcount 8 d.off.toNat ≤ 4)
  | .gate => decide (d.cond ≠ 0) || decide (fld d.off.toNat 16 3 ≠ 0)
  | _ => decide (d.cond ≠ 0)

/-- SEW of a VTYPE as log2 of its bytes, and KIND. -/
def vtSew (v : Word) : Nat := wfld v 0 3
def vtKind (v : Word) : Nat := wfld v 3 3

/-- Whether a VTYPE is allowed (04 Table 4-1, R106). -/
def vtypeOk (v : Word) : Bool :=
  let sew := vtSew v
  let k := vtKind v
  decide (sew ≤ 3) && decide (k ≤ 5) && decide (wfld v 7 57 = 0) &&
  (if k = 2 then decide (1 ≤ sew) else if k = 3 then decide (sew = 1) else if k = 4 ∨ k = 5 then decide (sew = 0) else true)

/-- The kinds an operation allows: 1 floats, 2 integers, 3 every kind. -/
def V0Op.kinds (o : V0Op) : Nat :=
  match o with
  | .vfcvt | .vmerge | .vmv | .kop | .kpop => 3
  | .vadd | .vsub | .vmul | .vmin | .vmax | .vand | .vor | .vxor | .vshl | .vshr | .vcmp | .vredsum | .vredmax
  | .vredmin | .vid => 2
  | _ => 1

/-- The source width in bytes that VFCVT's FN names (04 R120). -/
def cvtSrcBytes (fn : Nat) (sew : Nat) : Nat :=
  match fn with
  | 0 => 8 | 1 => 4 | 2 | 3 => 2 | 4 | 5 => 1 | _ => 2 ^ sew

/-- The conditions on a V0 syllable for a VTYPE (04 R116). -/
def V0Op.bad (o : V0Op) (d : V0Body) (vt : Word) : Bool :=
  let k := vtKind vt
  let flt : Bool := decide (k = 2 ∨ k = 3)
  let int : Bool := decide (k ≤ 1)
  let kindBad : Bool := match o.kinds with | 1 => !flt | 2 => !int | _ => false
  let scBad : Bool := d.sc && decide (d.vs1 = 31) && !int
  let maskBad : Bool := decide (d.vd.toNat = 0 ∨ 8 ≤ d.vd.toNat)
  kindBad || scBad ||
  match o with
  | .vfcmp => maskBad || decide (d.fn = 7)
  | .vcmp => maskBad || decide (6 ≤ d.fn.toNat)
  | .kop => maskBad || decide (5 ≤ d.fn.toNat)
  | .vfcvt =>
    let sb := cvtSrcBytes d.fn.toNat (vtSew vt)
    let db := 2 ^ vtSew vt
    if db < sb then decide (d.vs2.toNat % (sb / db) ≠ 0)
    else if sb < db then decide (d.vd.toNat % (db / sb) ≠ 0) else false
  | _ => false

/-- The low 8 bits of a V1 body, as VSETVL and VWAIT use them. -/
def V1Body.low8 (d : V1Body) : Nat := d.km.toNat * 32 + d.fn.toNat

/-- The conditions on a V1 syllable for a VTYPE (04 R115, R116, R121). -/
def V1Op.bad (o : V1Op) (d : V1Body) (vt : Word) : Bool :=
  let high : Bool := decide (d.vr ≠ 0 ∨ d.vi ≠ 0 ∨ d.am ≠ 0 ∨ d.str ≠ 0)
  decide (d.str = 3) ||
  match o with
  | .vsetvl => high || !vtypeOk (BitVec.ofNat 64 d.low8)
  | .vwait => high || !decide (1 ≤ popcount 8 d.low8 ∧ popcount 8 d.low8 ≤ 4)
  | .vldx => decide (d.fn ≠ 0) || decide (vtSew vt < 2) || decide (d.vr = d.vi)
  | .vstx => decide (d.fn ≠ 0) || decide (vtSew vt < 2)
  | .vkld => decide (d.fn ≠ 0) || decide (d.vr.toNat % 8 = 0)
  | .vtbl => decide (d.vr = d.vi ∨ d.vr = d.fn)
  | .vtbl2 => decide (d.fn.toNat % 2 = 1) || decide (d.vr = d.vi ∨ d.vr = d.fn ∨ d.vr.toNat = d.fn.toNat + 1)
  | .vcompress => decide (d.vr = d.fn)
  | _ => decide (d.fn ≠ 0)

/-- The conditions on an X syllable (06 Table 6-3). -/
def XOp.bad (o : XOp) (d : XBody) : Bool :=
  decide (d.arr = 0) || decide (d.rsv ≠ 0) ||
  match o with
  | .xpass => decide (d.q ≠ 0)
  | .xbfill => decide (d.arr = 3)
  | .xbdisarm => decide (d.arr = 3) || decide (d.daddr ≠ 0)

/-- Whether a syllable is an illegal instruction under a VTYPE (02 R58). -/
def Syl.bad (y : Syl) (vt : Word) : Bool :=
  match y with
  | .c op d => op.bad d
  | .l op d => op.bad d
  | .v0 op d => op.bad d vt
  | .v1 op d => op.bad d vt
  | .x op d => op.bad d
  | .s _ d => decide (d.rsv ≠ 0)
  | .b op d => op.bad d

/-- Whether a syllable may not issue at a level (14 R362, R363). -/
def Syl.privBad (y : Syl) (lvl : Nat) : Bool :=
  match y with
  | .c op d =>
    let n := d.sysReg
    match op with
    | .mfsr => decide (lvl = 0) && !decide (n = 0 ∨ n = 4 ∨ n = 14 ∨ n = 15)
    | .mtsr => decide (lvl = 0) || (decide (lvl = 1) && decide (n = 8 ∨ n = 11 ∨ n = 13))
    | _ => false
  | .b op _ =>
    match op with
    | .rfe => decide (lvl = 0)
    | .halt => decide (lvl < 2)
    | _ => false
  | _ => false

/-- Whether a syllable reads A (03 R87). -/
def Syl.readsA (y : Syl) : Bool :=
  match y with
  | .c op d =>
    (match op with | .ld | .mfsr => false | _ => true) || (decide (d.mode = 1) && decide (fld d.field.toNat 0 5 = 0))
  | .l op d =>
    match op with
    | .ldx | .ldy | .lda | .post => decide (d.mode = 1) && decide (fld d.field.toNat 0 5 = 0)
    | .sta | .push | .stg => true
    | _ => op.isAtomic
  | .v0 _ d => d.sc && decide (d.vs1 = 0)
  | .v1 op d =>
    match op with
    | .vsetvl => true
    | .vwait | .vtbl | .vtbl2 | .vcompress => false
    | .vpost => decide (d.str = 0)
    | .vlds | .vsts => decide (d.am = 3) || decide (d.str = 0)
    | _ => decide (d.am = 3)
  | .b op d =>
    match op with
    | .calla | .ja | .gate | .rfe => true
    | .loop => !loopCsrc d
    | _ => false
  | _ => false

/-- Whether a syllable waits for outstanding loads because it reads A: an atomic that returns a result issues past them (03 R87). -/
def Syl.waitsForA (y : Syl) : Bool :=
  y.readsA && match y with | .l op _ => !(op.isAtomic && op.hasResult) | _ => true

/-- Whether a syllable writes A by a means other than a global load or an atomic (03 R87). -/
def Syl.writesANow (y : Syl) : Bool :=
  match y with
  | .l op d => (match op with | .lda | .pop => true | .sta => decide (d.mode = 1 ∧ fld d.field.toNat 0 5 = 0) | _ => false)
  | _ => y.writes.contains 0

/-- The registers a syllable uses to form an address: 0 X, 1 Y, 2 SP (03 Table 3-2). -/
def Syl.agUses (y : Syl) : List (Fin 3) :=
  let mode := fun (n : Nat) => match n with | 2 => [0] | 3 => [1] | 4 => [0, 1] | _ => ([] : List (Fin 3))
  match y with
  | .c _ d => mode d.mode.toNat
  | .l op d => (match op with | .push | .pop => [2] | _ => mode d.mode.toNat)
  | .v1 op d => if op.isMem then (match d.am.toNat with | 0 => [0] | 1 => [1] | 2 => [0, 1] | _ => []) else []
  | .b op _ => (match op with | .call | .calla | .ret => [2] | _ => [])
  | _ => []

/-- The latency from a syllable that writes X, Y or SP to an address formed with it (03 Table 3-2): (register, cc). -/
def Syl.agMakes (y : Syl) : List (Fin 3 × Nat) :=
  match y with
  | .l op d =>
    (match op with
     | .ldx => [(0, if d.mode = 0 then 1 else 2)]
     | .ldy => [(1, if d.mode = 0 then 1 else 2)]
     | .leax => [(0, 1)]
     | .leay => [(1, 1)]
     | .push | .pop => [(2, 1)]
     | .sta =>
       if d.mode = 1 then
         (match fld d.field.toNat 0 5 with | 1 => [(0, 3)] | 2 => [(1, 3)] | 3 => [(2, 3)] | _ => [])
       else []
     | _ => [])
  | .b op _ => (match op with | .call | .calla | .ret => [(2, 1)] | _ => [])
  | _ => []

/-- A global access of the control core, V1 memory syllables included (04 R124). -/
def Syl.isGlobal (y : Syl) : Bool :=
  match y with
  | .l op _ => match op with | .ldg | .stg => true | _ => op.isAtomic
  | .v1 op _ => op.isMem
  | _ => false

/-- A post, or a global access: what an earlier FENCE or an undelivered POST holds (02 R63, 03 R92). -/
def Syl.ordered (y : Syl) : Bool :=
  y.isGlobal || match y with | .l op _ => decide (op = .post) | _ => false

end Sys2Proof

namespace Sys2Proof.Machine

/-- A list of slot codes in strictly increasing order. -/
def strictlyUp : List Nat → Bool
  | a :: b :: t => decide (a < b) && strictlyUp (b :: t)
  | _ => true

/-- Whether a list names something twice. -/
def hasDup : List Nat → Bool
  | [] => false
  | a :: t => t.contains a || hasDup t

/-- Whether the syllables have the I syllables that they need, and no others (02 R56, R60, R70). -/
def extsOk (ys : List Syl) : Bool := ys.all fun y => (y.ext.isNone || y.takesExt) && (y.ext.isSome || !y.needsExt)

/-- Whether syllables may stand in one bundle: no register is written twice, and the LDM can serve them (02 R57). -/
def together (ys : List Syl) : Bool :=
  !hasDup (ys.map Syl.writes).flatten && decide ((ys.map Syl.ldmReads).sum ≤ 2) && decide ((ys.map Syl.ldmWrites).sum ≤ 1)

/-- Whether a bundle is well formed and legal (02 R56, R57). -/
def bundleOk (ys : List Syl) : Bool :=
  decide ((ys.map Syl.words).sum ≤ 8) && ys.getLast?.elim false Syl.stop && strictlyUp (ys.map Syl.slot) &&
  decide ((ys.filter fun y => y.ext.isSome).length ≤ 1) &&
  extsOk ys && together ys

/-- The bytes a bundle takes. -/
def bundleBytes (ys : List Syl) : Nat := 4 * (ys.map Syl.words).sum

end Sys2Proof.Machine
end

