-- ==== Sys2Proof/Decode.lean ====
section
/-!
DEFINITION. The commands that words spell: spec/opcode_table.json gives no row of this block any bits, so no word
spells a command. And what the words of a bundle in IMEM spell: its syllables, or why it cannot issue (02 R55-R58).
-/

namespace Sys2Proof

/-- The command that the low `nbits` bits of `w` spell by the bits of the opcode table: no row has bits. -/
def decodeTableWord (_nbits _w : Nat) : Option Instr := none

/-! ## Opcodes -/

/-- The COp of an OP field, if one is assigned. -/
def COp.ofCode (n : Nat) : Option COp :=
  match n with
  | 0x0 => some .ld
  | 0x1 => some .add
  | 0x2 => some .adc
  | 0x3 => some .sub
  | 0x4 => some .sbc
  | 0x5 => some .and
  | 0x6 => some .or
  | 0x7 => some .xor
  | 0x8 => some .cmp
  | 0x9 => some .tst
  | 0xa => some .shl
  | 0xb => some .shr
  | 0xc => some .sar
  | 0xd => some .rol
  | 0xe => some .min
  | 0xf => some .max
  | 0x10 => some .minu
  | 0x11 => some .maxu
  | 0x12 => some .mul
  | 0x13 => some .mulu
  | 0x14 => some .mac
  | 0x15 => some .macu
  | 0x16 => some .neg
  | 0x17 => some .not
  | 0x18 => some .sext
  | 0x19 => some .clz
  | 0x1a => some .popc
  | 0x1b => some .movh
  | 0x1c => some .mfsr
  | 0x1d => some .mtsr
  | _ => none

/-- The LOp of an OP field, if one is assigned. -/
def LOp.ofCode (n : Nat) : Option LOp :=
  match n with
  | 0x0 => some .ldx
  | 0x1 => some .ldy
  | 0x2 => some .lda
  | 0x3 => some .sta
  | 0x4 => some .stx
  | 0x5 => some .sty
  | 0x6 => some .leax
  | 0x7 => some .leay
  | 0x8 => some .push
  | 0x9 => some .pop
  | 0xa => some .ldg
  | 0xb => some .stg
  | 0xc => some .post
  | 0xd => some .fence
  | 0x30 => some .aadd
  | 0x31 => some .aand
  | 0x32 => some .aor
  | 0x33 => some .axor
  | 0x34 => some .amin
  | 0x35 => some .amax
  | 0x36 => some .aminu
  | 0x37 => some .amaxu
  | 0x38 => some .aswap
  | 0x39 => some .acas
  | 0x3a => some .afadd
  | 0x3b => some .radd
  | 0x3c => some .rfadd
  | 0x3d => some .rmin
  | 0x3e => some .rmax
  | _ => none

/-- The V0Op of an OP field, if one is assigned. -/
def V0Op.ofCode (n : Nat) : Option V0Op :=
  match n with
  | 0x0 => some .vfadd
  | 0x1 => some .vfsub
  | 0x2 => some .vfrsub
  | 0x3 => some .vfmul
  | 0x4 => some .vfma
  | 0x5 => some .vfms
  | 0x6 => some .vfdiv
  | 0x7 => some .vfsqrt
  | 0x8 => some .vfmin
  | 0x9 => some .vfmax
  | 0xa => some .vfabs
  | 0xb => some .vfneg
  | 0xc => some .vfcmp
  | 0xd => some .vfcvt
  | 0xe => some .vfredsum
  | 0xf => some .vfredmax
  | 0x10 => some .vfredmin
  | 0x11 => some .vadd
  | 0x12 => some .vsub
  | 0x13 => some .vmul
  | 0x14 => some .vmin
  | 0x15 => some .vmax
  | 0x16 => some .vand
  | 0x17 => some .vor
  | 0x18 => some .vxor
  | 0x19 => some .vshl
  | 0x1a => some .vshr
  | 0x1b => some .vcmp
  | 0x1c => some .vredsum
  | 0x1d => some .vredmax
  | 0x1e => some .vredmin
  | 0x1f => some .vmerge
  | 0x20 => some .vmv
  | 0x21 => some .vid
  | 0x22 => some .kop
  | 0x23 => some .kpop
  | _ => none

/-- The V1Op of an OP field, if one is assigned. -/
def V1Op.ofCode (n : Nat) : Option V1Op :=
  match n with
  | 0x0 => some .vsetvl
  | 0x1 => some .vld
  | 0x2 => some .vst
  | 0x3 => some .vlds
  | 0x4 => some .vsts
  | 0x5 => some .vldx
  | 0x6 => some .vstx
  | 0x7 => some .vkld
  | 0x8 => some .vkst
  | 0x9 => some .vtbl
  | 0xa => some .vtbl2
  | 0xb => some .vcompress
  | 0xc => some .vpost
  | 0xd => some .vwait
  | _ => none

/-- The XOp of an OP field, if one is assigned. -/
def XOp.ofCode (n : Nat) : Option XOp :=
  match n with
  | 0x0 => some .xpass
  | 0x1 => some .xbfill
  | 0x2 => some .xbdisarm
  | _ => none

/-- The SOp of an OP field, if one is assigned. -/
def SOp.ofCode (n : Nat) : Option SOp :=
  match n with
  | 0x0 => some .srun
  | 0x20 => some .hrun
  | _ => none

/-- The BOp of an OP field, if one is assigned. -/
def BOp.ofCode (n : Nat) : Option BOp :=
  match n with
  | 0x0 => some .br
  | 0x1 => some .call
  | 0x2 => some .calla
  | 0x3 => some .ja
  | 0x4 => some .ret
  | 0x5 => some .loop
  | 0x6 => some .twait
  | 0x7 => some .gate
  | 0x8 => some .rfe
  | 0xa => some .halt
  | 0xb => some .ifence
  | _ => none

/-! ## Words -/

open Machine in
/-- The field of `n` bits from bit `lo` of an instruction word. -/
def wordFld (w : BitVec 32) (lo n : Nat) : BitVec n := BitVec.ofNat n (fld w.toNat lo n)

/-- The M-form body of a word (02 Table 2-6). -/
def mBodyOf (w : BitVec 32) (ext : Option (BitVec 28)) (stop : Bool) : MBody :=
  { sz := wordFld w 20 2, sgn := w.getLsbD 19, mode := wordFld w 16 3, field := wordFld w 0 16, ext := ext, stop := stop }

/-- The syllable that a word spells with its I payload (02 Table 2-4); none where its OP is unassigned. -/
def sylOf (w : BitVec 32) (ext : Option (BitVec 28)) (stop : Bool) : Option Syl :=
  let op6 := (wordFld w 22 6).toNat
  match (wordFld w 28 3).toNat with
  | 0 => (COp.ofCode op6).map fun o => .c o (mBodyOf w ext stop)
  | 1 => (LOp.ofCode op6).map fun o => .l o (mBodyOf w ext stop)
  | 2 => (V0Op.ofCode op6).map fun o => .v0 o
      { sc := w.getLsbD 21, vd := wordFld w 16 5, vs1 := wordFld w 11 5, vs2 := wordFld w 6 5, km := wordFld w 3 3, fn := wordFld w 0 3
        ext := ext, stop := stop }
  | 3 => (V1Op.ofCode op6).map fun o => .v1 o
      { vr := wordFld w 17 5, vi := wordFld w 12 5, am := wordFld w 10 2, str := wordFld w 8 2, km := wordFld w 5 3, fn := wordFld w 0 5
        ext := ext, stop := stop }
  | 4 => (XOp.ofCode op6).map fun o => .x o
      { arr := wordFld w 20 2, q := wordFld w 18 2, rsv := wordFld w 12 6, daddr := wordFld w 0 12, ext := ext, stop := stop }
  | 5 => (SOp.ofCode op6).map fun o => .s o { rsv := wordFld w 12 10, daddr := wordFld w 0 12, ext := ext, stop := stop }
  | 6 => (BOp.ofCode (wordFld w 23 5).toNat).map fun o => .b o { cond := wordFld w 19 4, off := wordFld w 0 19, ext := ext, stop := stop }
  | _ => none

/-- Whether a word is an I syllable. -/
def isExtWord (w : BitVec 32) : Bool := decide (wordFld w 28 3 = 7)

/-- The words of a bundle that begins a list of words: up to its first STOP, at most eight (02 R56). -/
def bundleWords : Nat → List (BitVec 32) → List (BitVec 32)
  | 0, _ => []
  | _, [] => []
  | n + 1, w :: ws => if w.getLsbD 31 then [w] else w :: bundleWords n ws

/-- The words of a bundle with the I payload each is followed by: (word, payload, STOP). None where an I syllable follows no other. -/
def pairWords : List (BitVec 32) → Option (List (BitVec 32 × Option (BitVec 28) × Bool))
  | [] => some []
  | [w] => if isExtWord w then none else some [(w, none, w.getLsbD 31)]
  | w :: v :: ws =>
    if isExtWord w then none
    else if isExtWord v then (pairWords ws).map fun r => (w, some (wordFld v 0 28), v.getLsbD 31) :: r
    else (pairWords (v :: ws)).map fun r => (w, none, w.getLsbD 31) :: r

/-- What the words of a bundle spell. -/
inductive Spelt where
  /-- Its syllables: each word has an assigned opcode. -/
  | syllables (ys : List Syl)
  /-- No bundle can be formed: R56 fails. -/
  | illFormed
  /-- An unassigned opcode: the first such word (R58). -/
  | unassigned (w : BitVec 32)
  deriving DecidableEq, Repr

/-- The bundle that words spell (02 R55-R58). Beside a word without an assigned opcode the others are held to R56 and R57 all the same, which come before
ILLEGAL_INSTR (14 R368); that word has its place in the slot order, and an I syllable extends it only in the C and L slots, by its MODE. -/
def decodeBundle (ws : List (BitVec 32)) : Spelt :=
  match pairWords (bundleWords 8 ws) with
  | none => .illFormed
  | some ps =>
    let ys := ps.map fun p => sylOf p.1 p.2.1 p.2.2
    match ps.find? fun p => (sylOf p.1 p.2.1 p.2.2).isNone with
    | none => .syllables (ys.filterMap id)
    | some p =>
      let slots := ps.map fun p => (wordFld p.1 28 3).toNat
      let ends := match ps.getLast? with | some q => q.2.2 | none => false
      let exts := (ps.filter fun q => q.2.1.isSome).length
      let up := (slots.zip (slots.drop 1)).all fun q => decide (q.1 < q.2)
      let takes := ps.all fun q =>
        match q.2.1, sylOf q.1 q.2.1 q.2.2 with
        | some _, none => decide ((wordFld q.1 28 3).toNat ≤ 1) && decide (wordFld q.1 16 3 ≠ 1 ∧ wordFld q.1 16 3 ≠ 4)
        | _, _ => true
      let known := ys.filterMap id
      if !up || !ends || !decide (exts ≤ 1) || !takes || !Machine.extsOk known || !Machine.together known then .illFormed else .unassigned p.1

end Sys2Proof
end

