-- ==== Sys2Proof/Machine/Access.lean ====
section
/-!
DEFINITION. Global accesses of the control core (02 R63, R64; 03 R85-R94; 12 R305-R313, R326-R329; 13 R341, R342;
14 R360): their halves, their checks in the order of 14 R368, what they wait on, and how they issue.
-/

namespace Sys2Proof.Machine

/-- One half of a global access, translated: its VA, its bytes, its PA and its write policy. -/
structure GPart where
  va : Nat
  n : Nat
  pa : BitVec 52
  wp : BitVec 2
  deriving DecidableEq, Repr

/-- The halves of an access by line: (VA, bytes) (03 R93). DESIGN CHOICE: the second half of an access whose first ends at the last VA lies at VA 0
(log entry 89). -/
def halves (va n : Nat) : List (Nat × Nat) :=
  let first := 128 - va % 128
  if n ≤ first then [(va, n)] else [(va, first), ((va + first) % 2 ^ 56, n - first)]

/-- What a global access of the control core does. -/
inductive GKind where
  | load | store | atom
  deriving DecidableEq, Repr

/-- The kind of access of an L operation, if it is a global access. -/
def gkind (o : LOp) : Option GKind :=
  match o with
  | .ldg => some .load
  | .stg => some .store
  | _ => if o.isAtomic then some .atom else none

/-- A store that R308 sends to the home as GetM or Upg, and so also needs R (13 R341): write-back, local HBM, and
not held in M or E. -/
def State.needsOwn (s : State) (m : MastId) (pa : BitVec 52) (wp : BitVec 2) : Bool :=
  decide (wp = 0) && s.isOwn pa && decide (placeOf (localOf pa) = .hbm) &&
    !match (s.mast m).dc.held (lineOf (localOf pa)) with
     | some x => decide (x.st = .m ∨ x.st = .e)
     | none => false

/-- The record of a translation fault of the control core (13 Table 13-4). -/
def coreFault (c : Core) (kind lvl : Nat) (wr : Bool) (va half : Nat) : XFault :=
  { e := 0, kind := BitVec.ofNat 3 kind, lvl := BitVec.ofNat 2 lvl, wr := wr, plv := c.level, side := 0
    va := BitVec.ofNat 56 va, pc := c.npc.setWidth 17, detail := BitVec.ofNat 32 half, slot := 1, st := .pending }

/-- Whether a job is mixed (15 R386, R387): a link inside its block runs version 2, be it one of this module, which keeps its version while it retrains, or,
in a block of more than two members, one that this module does not see (log entry 32). No link does while the system uses two planes. -/
def State.jobMixed (s : State) (j : JobSlot) : Bool :=
  let b := (s.job j).jblk
  s.shrCfg.planes &&
    ((s.sports.toList.any fun p => p.peerKnown && decide (p.peerVer = 2) && inBlock s.shrCfg b p.linkNode) || (decide (2 < blkMembers b) && Config.farMixed b))

/-- Check and translate one half of a global access (14 R368 item 5, from XLATE on); `nat` says that the whole access is naturally aligned, which one to the
register window must be (01 R20). -/
def State.half (s : State) (m : MastId) (k : GKind) (nat : Bool) (va n idx : Nat) : Except Hold GPart :=
  let x := s.mast m
  let c := x.core
  let wr : Bool := decide (k ≠ .load)
  match x.xl.find 0 va with
  | none => .error (.miss (coreFault c 1 0 wr va idx))
  | some t =>
    let pa : BitVec 52 := BitVec.ofNat 52 (t.pa.toNat + va % 2 ^ pageBits t.lvl)
    let rd : Bool := decide (k ≠ .store) || s.needsOwn m pa t.wp
    let hot : Bool := decide (idx = 1)
    if (rd && !t.r) || (wr && !t.w) || (decide (c.level = 0) && !t.u) then
      .error (.xfault (coreFault c 2 t.lvl wr va idx))
    else if k = .atom ∧ (placeOf (localOf pa) ≠ .hbm ∨ (!s.isOwn pa ∧ s.jobMixed (s.mast m).jslot)) then
      .error (.trap 14 1 hot (BitVec.ofNat 64 va))
    else if s.regionFault 0 pa then .error (.xfault (coreFault c 3 t.lvl wr va idx))
    else
      match placeOf (localOf pa) with
      | .regs =>
        match regCheck m c.level.toNat (localOf pa) n wr with
        | some code => .error (.trap code 1 hot (BitVec.ofNat 64 va))
        | none => if nat then .ok { va := va, n := n, pa := pa, wp := 3 } else .error (.trap 9 1 hot (BitVec.ofNat 64 va))
      | _ => .ok { va := va, n := n, pa := pa, wp := t.wp }

/-- Check every half, first to last (03 R94). -/
def State.halvesOk (s : State) (m : MastId) (k : GKind) (nat : Bool) : List (Nat × Nat) → Nat → Except Hold (List GPart)
  | [], _ => .ok []
  | (va, n) :: t, i =>
    match s.half m k nat va n i with
    | .error h => .error h
    | .ok p =>
      match State.halvesOk s m k nat t (i + 1) with
      | .error h => .error h
      | .ok ps => .ok (p :: ps)

/-- Check and translate a global access of `n` bytes at `ea`. -/
def State.gcheck (s : State) (m : MastId) (k : GKind) (ea : Word) (n : Nat) : Except Hold (List GPart) :=
  if wfld ea 56 8 ≠ 0 then .error (.trap 8 1 false ea)
  else if k = .atom ∧ ea.toNat % n ≠ 0 then .error (.trap 13 1 false ea)
  else s.halvesOk m k (decide (ea.toNat % n = 0)) (halves ea.toNat n) 0

/-! ## What a global access waits on -/

/-- Whether an access to canvas or a per-mast block goes to the mast that a token address names. -/
def sameMast (pa : BitVec 52) (addr : BitVec 32) : Bool :=
  match slotOf addr, placeOf (localOf pa) with
  | some (.mast k _), .canvas m => decide (k = m)
  | some (.mast k _), .regs => within (localOf pa) (regBase + 0x100000 * k.val) 0x100000
  | _, _ => false

/-- Whether a part of a load has yet to reach its tier or its register block. -/
def LoadSrc.isOut : LoadSrc → Bool
  | .canvas | .canvasUc | .register => true
  | _ => false

/-- Whether two byte ranges of one PA space share a byte. -/
def overlap (a : BitVec 52) (n : Nat) (b : BitVec 52) (k : Nat) : Bool :=
  decide (a.toNat < b.toNat + k ∧ b.toNat < a.toNat + n)

/-- The deciding store-buffer entry of a load (03 R91): the youngest that shares a byte. -/
def deciding (sb : List StoreEnt) (p : GPart) : Option StoreEnt :=
  sb.reverse.find? fun e => overlap p.pa p.n e.pa e.data.length

/-- Whether an entry holds every byte of a load. -/
def covers (e : StoreEnt) (p : GPart) : Bool :=
  decide (e.pa.toNat ≤ p.pa.toNat ∧ p.pa.toNat + p.n ≤ e.pa.toNat + e.data.length)

/-- How many of the oldest stores a load whose deciding entry holds only part of it waits for: the position of that entry, the larger one for a split
load (03 R91 rule 3, R94); 0 where no part meets rule 3. -/
def overlapPos (sb : List StoreEnt) (ps : List GPart) : Nat :=
  (ps.map fun p => match deciding sb p with
    | some e => if covers e p then 0 else sb.findIdx (fun x => decide (x.seq = e.seq)) + 1
    | none => 0).foldl max 0

/-- The bytes that a covering entry forwards. -/
def forwarded (e : StoreEnt) (p : GPart) : List Byte := (e.data.drop (p.pa.toNat - e.pa.toNat)).take p.n

/-- Whether a load part that is not forwarded may be made now: a request outstanding for its line must be one whose
data it can take; a line in the writeback buffer must first have left it; an uncached part waits behind the core's own
queued stores to the line; and a line to be filled needs a place, beside those of `n - 1` earlier parts (12 R307-R309). -/
def State.loadClear (s : State) (m : MastId) (p : GPart) (n : Nat) : Bool :=
  let x := s.mast m
  let l := lineOf (localOf p.pa)
  let queued := x.core.wq.any fun e => e.st ≠ .performed && decide (lineOf (localOf e.pa) = l) && s.isOwn e.pa
  if !s.isOwn p.pa then true
  else
    match placeOf (localOf p.pa) with
    | .hbm =>
      if p.wp = 3 then !x.dc.hasReq l && !queued
      else if (x.dc.held l).isSome then true
      else if x.dc.wb.any fun w => w.line.addr = l then false
      else match x.dc.reqs.find? fun r => r.line = l with
        | some r => (match r.kind with | .getS _ | .getM | .upg => true | _ => false)
        | none => x.dc.canInstall n
    | .canvas _ => p.wp = 3 || (x.dc.held l).isSome || x.dc.canInstall n
    | _ => true

/-- What a global access waits on before it issues (03 R89, R91; 12 R307-R309, R329), if anything. -/
def State.gwait (s : State) (m : MastId) (k : GKind) (ps : List GPart) : Option Wait :=
  let c := (s.mast m).core
  match k with
  | .store => if 4 < c.sb.length + ps.length ∨ 8 < c.wq.length + c.sb.length + ps.length then some .store else none
  | .load =>
    if 0 < overlapPos c.sb ps then some (.overlap (overlapPos c.sb ps))
    else if ps.zipIdx.any fun p => (deciding c.sb p.1).isNone && !s.loadClear m p.1 (p.2 + 1) then some .store
    else none
  | .atom =>
    let busy := fun (p : GPart) =>
      let l := p.pa.toNat / 128
      c.sb.any (fun e => e.pa.toNat / 128 = l ∨ (e.pa.toNat + e.data.length - 1) / 128 = l) ||
      c.wq.any (fun e => e.pa.toNat / 128 = l) || (s.isOwn p.pa && (s.mast m).dc.hasReq (lineOf (localOf p.pa)))
    if ps.any busy ∨ 8 ≤ c.wq.length + c.sb.length then some .store else none

/-! ## Issue -/

/-- The job block of a mast, for messages that leave the module. -/
def State.mastBlock (s : State) (m : MastId) : Word := (s.job (s.mast m).jslot).jblk
/-- The job identifier of a mast. -/
def State.mastJobid (s : State) (m : MastId) : BitVec 16 := (s.job (s.mast m).jslot).jobid

/-- The counter of a load that hits: DC_HIT, or DC_VHIT for the victim cache (12 Table 12-10). -/
def DCache.hitAt (c : DCache) (l : Line) : Nat := if c.lines.any fun y => y.addr = l then 0x2010 else 0x2018

/-- Make one part of a load: forward it, hit, or send its request (03 R91, 12 Table 12-1, R311, R312). -/
def State.issueLoad (s : State) (m : MastId) (p : GPart) : State × LoadPart :=
  let x := s.mast m
  let off := localOf p.pa % 128
  let l := lineOf (localOf p.pa)
  let part := fun (src : LoadSrc) => ({ pa := p.pa, n := p.n, src := src } : LoadPart)
  match deciding x.core.sb p with
  | some e => (s.bump m 0x2010, part (.ready (forwarded e p)))
  | none =>
    if !s.isOwn p.pa then
      ((s.bump m 0x2020).sendTo (s.mastBlock m) (nodeOf p.pa) (dieOf m).val 0 (.rdu p.pa p.n (s.mastJobid m)), part .remote)
    else
      match placeOf (localOf p.pa) with
      | .regs => (s.bump m 0x2020, part .register)
      | .canvas _ =>
        if p.wp = 3 then (s.bump m 0x2020, part .canvasUc)
        else match x.dc.held l with
          | some h => (((s.bump m (x.dc.hitAt l)).cacheRead m l off p.n).touchLine m l, part (.ready (lineGet (mergeWq x.core l h.data) off p.n)))
          | none => (s.bump m 0x2020, part .canvas)
      | _ =>
        if p.wp = 3 then ((s.bump m 0x2020).sendReq m l .rdu (.rdu m l off p.n), part .rdu)
        else match x.dc.held l with
          | some h =>
            (((s.bump m (x.dc.hitAt l)).cacheRead m l off p.n).touchLine m l,
             part (.ready (lineGet (mergeWq x.core l h.data) off p.n)))
          | none =>
            if x.dc.hasReq l then (s, part .line)
            else ((s.bump m 0x2020).sendReq m l (.getS (p.wp = 1)) (.req m l (.getS (p.wp = 1))), part .line)

/-- The latency of a part of a load where 03 Table 3-4 makes it exact: forwarded, in the data cache, in the victim cache, or a register of the own mast
block, whose path has one exact count (01 R30, Table 1-6). -/
def State.loadLat (s : State) (m : MastId) (p : GPart) : Option Nat :=
  let x := s.mast m
  let l := lineOf (localOf p.pa)
  if (deciding x.core.sb p).isSome then some 3
  else if !s.isOwn p.pa then none
  else match placeOf (localOf p.pa) with
    | .regs => if within (localOf p.pa) (regBase + 0x100000 * m.val) 0x100000 then some 24 else none
    | _ => if p.wp = 3 then none else if x.dc.lines.any (fun y => y.addr = l) then some 3 else if (x.dc.held l).isSome then some 5 else none

/-- The latency of a load of one part or two (03 Table 3-4). -/
def State.loadLats (s : State) (m : MastId) (ps : List GPart) : Option Nat :=
  match ps.map (s.loadLat m) with
  | [a] => a
  | [some a, some b] => some (max a (1 + b))
  | _ => none

/-- Make every part of a load, in order. -/
def State.issueLoads (s : State) (m : MastId) : List GPart → State × List LoadPart
  | [] => (s, [])
  | p :: ps =>
    let r := s.issueLoad m p
    let q := State.issueLoads r.1 m ps
    (q.1, r.2 :: q.2)

/-- An LDG issues (03 R87). -/
def State.issueLdg (s : State) (m : MastId) (d : MBody) (ps : List GPart) : State :=
  let c := (s.mast m).core
  let r := s.issueLoads m ps
  r.1.modCore m fun k =>
    { k with loads := k.loads ++ [{ bank := c.bank, level := c.level, size := d.bytes, sgn := d.sgn, seq := c.seq, left := s.loadLats m ps, parts := r.2 }]
             seq := c.seq + 1 }

/-- The store-buffer entries of a store. -/
def storeEnts (lvl : BitVec 2) (seq : Nat) : List Byte → List GPart → List StoreEnt
  | _, [] => []
  | bs, p :: ps =>
    { pa := p.pa, data := bs.take p.n, wp := p.wp, level := lvl, seq := seq } :: storeEnts lvl (seq + 1) (bs.drop p.n) ps

/-- An STG issues: one store-buffer entry for each half (03 R89, R94). -/
def State.issueStg (s : State) (m : MastId) (v : Word) (d : MBody) (ps : List GPart) : State :=
  s.modCore m fun c =>
    { c with sb := c.sb ++ storeEnts c.level c.seq (toBytes d.bytes v.toNat) ps, seq := c.seq + ps.length }

/-- An atomic or a memory reduction issues (12 R326-R330): the Atom leaves for the home of its line. -/
def State.issueAtom (s : State) (m : MastId) (o : LOp) (d : MBody) (a y : Word) (ps : List GPart) : State :=
  match ps with
  | [] => s
  | p :: _ =>
    let x := s.mast m
    let l := lineOf (localOf p.pa)
    let req : AtomReq := { op := o, dbl := decide (d.sz = 3), val := a, cmp := y, ovm := x.num.ovm, ftz := x.num.ftz }
    let own := s.isOwn p.pa
    let s := s.bump m 0x2020
    let s := if own then s.sendReq m l .atom (.atom m l (localOf p.pa % 128) req)
             else s.sendTo (s.mastBlock m) (nodeOf p.pa) (dieOf m).val 0 (.atom p.pa req (s.mastJobid m))
    if o.hasResult then
      s.modCore m fun c =>
        { c with loads := c.loads ++ [{ bank := c.bank, level := c.level, size := d.bytes, sgn := d.sgn, seq := c.seq, left := none
                                        parts := [{ pa := p.pa, n := d.bytes, src := if own then .atom else .remote }] }]
                 seq := c.seq + 1 }
    else
      s.modCore m fun c =>
        { c with wq := c.wq ++ [{ pa := p.pa, data := [], wp := 3, level := c.level, seq := c.seq
                                  st := if own then .requested else .performed }]
                 seq := c.seq + 1 }

end Sys2Proof.Machine
end

