-- ==== Sys2Proof/Machine/Scalar.lean ====
section
/-!
DEFINITION. What each syllable of the C, L and B slots does once its bundle issues (02 R61-R76; 14 R363, R375, R376),
as functions of the core before the bundle (02 R48), and what each contributes to the bundle's checks.
-/

namespace Sys2Proof.Machine

/-! ## System registers (14 R363) -/

/-- FLAGS of STATUS as MFSR reads them: IM reads 0 at U. -/
def Core.statusWord (c : Core) : Word :=
  BitVec.ofNat 64 (c.level.toNat + (if c.level = 0 then 0 else 4 * b2n c.im) + 8 * c.bank.val)

/-- MFSR: system register `n` of the current bank. -/
def Core.mfsr (c : Core) (node : BitVec 14) (n : Nat) : Word :=
  let y := c.sys.get c.bank
  match n with
  | 0 => c.statusWord | 1 => y.cause | 2 => y.epc | 3 => y.estatus | 4 => node.zeroExtend 64 | 5 => y.tvec
  | 6 => y.tval | 7 => y.scratch | 8 => c.glimit.zeroExtend 64 | 9 => c.ipend.zeroExtend 64
  | 10 => c.ien.zeroExtend 64 | 11 => BitVec.ofNat 64 (c.ilvl.toNat + 0x300) | 12 => c.ulim.zeroExtend 64
  | 13 => c.mlim.zeroExtend 64 | 14 => c.cur.vl | 15 => c.cur.vtype
  | _ => 0

/-- The value ULIM and MLIM take from a written one (14 Table 14-3). -/
def limVal (v : Word) : Nat := min 0x40000 (v.toNat - v.toNat % 8)

/-- The interrupt bits that a write at level S may change: those whose ILVL bit is 0; sources 8 and 9 target M. -/
def Core.ownBits (c : Core) : BitVec 16 :=
  if c.level = 2 then 0xFFFF else ~~~(BitVec.ofNat 16 (c.ilvl.toNat + 0x300))

/-- MTSR: the value `v` into system register `n` (14 R363, Tables 14-2 and 14-3). -/
def Core.mtsr (c : Core) (n : Nat) (v : Word) : Core :=
  match n with
  | 0 => if c.bank = 3 then c else { c with im := wbit v 2 }
  | 1 => c.modSys c.bank fun y => { y with cause := v &&& 0x3FFF }
  | 2 => c.modSys c.bank fun y => { y with epc := (off17 v).zeroExtend 64 }
  | 3 => c.modSys c.bank fun y =>
      { y with estatus := BitVec.ofNat 64 (wfld v 0 3 + 16 * c.bank.val + 64 * wfld v 6 1) }
  | 5 => c.modSys c.bank fun y => { y with tvec := (off17 v).zeroExtend 64 }
  | 6 => c.modSys c.bank fun y => { y with tval := v }
  | 7 => c.modSys c.bank fun y => { y with scratch := v }
  | 8 => { c with glimit := BitVec.ofNat 9 v.toNat }
  | 9 => { c with ipend := c.ipend &&& ~~~(BitVec.ofNat 16 v.toNat &&& c.ownBits) }
  | 10 => { c with ien := (c.ien &&& ~~~c.ownBits) ||| (BitVec.ofNat 16 v.toNat &&& c.ownBits) }
  | 11 => { c with ilvl := BitVec.ofNat 8 v.toNat }
  | 12 => { c with ulim := BitVec.ofNat 19 (if c.level = 1 then min (limVal v) c.mlim.toNat else limVal v) }
  | 13 => { c with mlim := BitVec.ofNat 19 (limVal v) }
  | _ => c

/-! ## C slot (02 Table 2-7) -/

/-- The value of SEXT. -/
def sextA (sz : BitVec 2) (a : Word) : Word := sext64 (8 * 2 ^ sz.toNat) a.toNat

/-- The number of leading zero bits. -/
def clz64 (a : Word) : Nat := if a = 0 then 64 else 63 - Nat.log2 a.toNat

/-- The new A and FLAGS of a C operation other than multiplies and system-register moves: (A, FLAGS). -/
def cResult (o : COp) (sz : BitVec 2) (a f op : Word) : Word × Word :=
  let n := op.toNat % 64
  let zn := fun (r : Word) => (r, flagsZN f r)
  match o with
  | .ld => zn op
  | .add => addFlags f a op false
  | .adc => addFlags f a op (flagC f)
  | .sub => subFlags f a op false
  | .sbc => subFlags f a op (flagC f)
  | .and => zn (a &&& op)
  | .or => zn (a ||| op)
  | .xor => zn (a ^^^ op)
  | .cmp => (a, (subFlags f a op false).2)
  | .tst => (a, flagsZN f (a &&& op))
  | .shl => let r := a <<< n; (r, shiftFlags f r n (a.getLsbD (64 - n)))
  | .shr => let r := a >>> n; (r, shiftFlags f r n (a.getLsbD (n - 1)))
  | .sar => let r := a.sshiftRight n; (r, shiftFlags f r n (a.getLsbD (n - 1)))
  | .rol => let r := a.rotateLeft n; (r, shiftFlags f r n (r.getLsbD 0))
  | .min => zn (if a.slt op then a else op)
  | .max => zn (if a.slt op then op else a)
  | .minu => zn (if a.ult op then a else op)
  | .maxu => zn (if a.ult op then op else a)
  | .neg => subFlags f 0 a false
  | .not => zn (~~~a)
  | .sext => zn (sextA sz a)
  | .clz => zn (BitVec.ofNat 64 (clz64 a))
  | .popc => zn (BitVec.ofNat 64 (popcount 64 a.toNat))
  | .movh => (BitVec.ofNat 64 (a.toNat % 2 ^ 32 + op.toNat % 2 ^ 32 * 2 ^ 32), f)
  | _ => (a, f)

/-- The 128-bit product of a multiply (02 R65). -/
def mulProd (signed : Bool) (a op : Word) : BitVec 128 :=
  if signed then BitVec.ofInt 128 (a.toInt * op.toInt) else BitVec.ofNat 128 (a.toNat * op.toNat)

/-- Set A and FLAGS of the current bank. -/
def Core.setAF (c : Core) (r : Word × Word) (f : Bool) : Core :=
  c.modCur fun b => if f then { b with a := r.1, flags := r.2 } else { b with a := r.1 }

/-- A multiply enters the multiplier. -/
def Core.startMul (c : Core) (acc : Bool) (p : BitVec 128) : Core :=
  { c with muls := c.muls ++ [{ bank := c.bank, acc := acc, prod := p, left := 4, frozen := 0 }] }

/-- The effect of a C syllable; `c0` is the core before the bundle. -/
def cEffect (o : COp) (d : MBody) (node : BitVec 14) (c0 c : Core) : Core :=
  let a := c0.cur.a
  let op := d.operand c0
  match o with
  | .mul => c.startMul false (mulProd true a op)
  | .mulu => c.startMul false (mulProd false a op)
  | .mac => c.startMul true (mulProd true a op)
  | .macu => c.startMul true (mulProd false a op)
  | .mfsr => c.modCur fun b => { b with a := c0.mfsr node d.sysReg }
  | .mtsr => c.mtsr d.sysReg a
  | .cmp | .tst => c.modCur fun b => { b with flags := (cResult o d.sz a c0.cur.flags op).2 }
  | _ => c.setAF (cResult o d.sz a c0.cur.flags op) o.setsFlags

/-! ## L slot without global accesses (02 Table 2-8) -/

/-- Store the low bytes of a value in LDM. -/
def Core.ldmPut (c : Core) (a n : Nat) (v : Word) : Core := { c with ldm := Mem.store c.ldm a n v.toNat }

/-- Whether a multiply writes PL and PH at the end of the cc in which a bundle issues (02 R65). -/
def Core.mulLands (c : Core) : Bool := c.muls.any fun p => p.counts c.bank && decide (p.left ≤ 1)

/-- The effect of an L syllable that makes no global access and posts nothing. An STA to PL or PH in the cc in which a multiply writes is lost
(02 R67). -/
def lEffect (o : LOp) (d : MBody) (c0 c : Core) : Core :=
  let b0 := c0.cur
  match o with
  | .ldx => c.modCur fun b => { b with x := d.operand c0 }
  | .ldy => c.modCur fun b => { b with y := d.operand c0 }
  | .lda => c.modCur fun b => { b with a := d.operand c0 }
  | .sta =>
    if d.mode = 1 then
      (if c0.mulLands ∧ (fld d.field.toNat 0 5 = 4 ∨ fld d.field.toNat 0 5 = 5) then c
       else c.modCur fun b => b.setReg (fld d.field.toNat 0 5) b0.a)
    else c.ldmPut (d.ea b0).toNat d.bytes b0.a
  | .stx => c.ldmPut (d.ea b0).toNat d.bytes b0.x
  | .sty => c.ldmPut (d.ea b0).toNat d.bytes b0.y
  | .leax => c.modCur fun b => { b with x := d.ea b0 }
  | .leay => c.modCur fun b => { b with y := d.ea b0 }
  | .push => (c.ldmPut (b0.sp - 8).toNat 8 b0.a).modCur fun b => { b with sp := b0.sp - 8 }
  | .pop => c.modCur fun b => { b with a := BitVec.ofNat 64 (Mem.load c0.ldm b0.sp.toNat 8), sp := b0.sp + 8 }
  | _ => c

/-! ## B slot (02 Table 2-9) -/

/-- The target of a B syllable before its check, as the 64-bit value TVAL holds (02 R70). -/
def bTarget (o : BOp) (d : BBody) (c0 : Core) : Word :=
  match o with
  | .calla | .ja => BitVec.ofNat 64 (c0.cur.a.toNat % 2 ^ 17)
  | .ret => BitVec.ofNat 64 (Mem.load c0.ldm c0.cur.sp.toNat 8 % 2 ^ 17)
  | _ => BitVec.ofNat 64 c0.npc.toNat + sext64 19 d.off.toNat * 4

/-- Whether the target of a B syllable is used and so is checked. -/
def bUsesTarget (o : BOp) (d : BBody) (c0 : Core) : Bool :=
  match o with
  | .br => condHolds d.cond c0.cur.flags
  | .call | .calla | .ja | .ret | .loop => true
  | _ => false

/-- A target that faults with FETCH_RANGE (02 R70). -/
def badTarget (t : Word) : Bool := decide (t.toNat % 4 ≠ 0) || decide (0x20000 ≤ t.toNat)

/-- The bytes of the bundle at an IMEM offset: up to its first STOP, at most eight syllables. DESIGN CHOICE: it is found in IMEM as it stands, also before an
IFENCE, where 02 R52 lets fetch see either syllable (log entry 106). -/
def imemBundle (im : Mem) (a : Nat) : Nat → Nat
  | 0 => 0
  | n + 1 => if fld (Mem.load im a 4) 31 1 = 1 then 4 else 4 + imemBundle im (a + 4) n

/-- The count LOOP sets (02 R71). -/
def loopCount (d : BBody) (c0 : Core) : Nat :=
  match d.ext with
  | some i => i.toNat
  | none => c0.cur.a.toNat % 2 ^ 32

/-- LOOP arms a level (02 R71); `wait` is the cc until its end bundle may first issue (03 R98). DESIGN CHOICE: an STA write of the level that is not
yet in use is dropped (log entry 87). -/
def armLoop (l wait : Nat) (ls le : BitVec 17) (lc : BitVec 32) (b : CoreBank) : CoreBank :=
  { b with arm := b.arm.set (l % 3) wait (Nat.mod_lt _ (by decide)), ls := b.ls.set (l % 3) ls (Nat.mod_lt _ (by decide)), le := b.le.set (l % 3) le (Nat.mod_lt _ (by decide))
           lc := b.lc.set (l % 3) lc (Nat.mod_lt _ (by decide))
           loopWrites := b.loopWrites.filter fun w => w.code ≠ 8 + l ∧ w.code ≠ 11 + l ∧ w.code ≠ 14 + l }

/-- The word `w` of gate entry `g` as GATE bundles use it (14 R374). -/
def Core.gateWord (c : Core) (g w : Nat) : Nat := Mem.load c.gateUsed (0x40 * g + 8 * w) 8

/-- Whether a gate entry has a reserved value (14 Table 14-5). -/
def gateBad (c : Core) (g : Nat) : Bool :=
  let w0 := c.gateWord g 0
  decide (fld w0 1 1 ≠ 0) || decide (fld w0 17 2 = 0 ∨ fld w0 17 2 = 3) || decide (fld w0 25 39 ≠ 0) ||
  decide (fld (c.gateWord g 1) 18 46 ≠ 0) || decide (c.gateWord g 5 ≠ 0 ∨ c.gateWord g 6 ≠ 0 ∨ c.gateWord g 7 ≠ 0)

/-- Argument `i` of a gate call. -/
def CoreBank.arg (b : CoreBank) (i : Nat) : Word := match i with | 0 => b.a | 1 => b.x | _ => b.y

/-- The checks of GATE (14 R375): the cause and TVAL of the first that fails. -/
def gateCheck (c : Core) (g : Nat) : Option (Nat × Word) :=
  let w0 := c.gateWord g 0
  if c.glimit.toNat ≤ g ∨ fld w0 0 1 = 0 ∨ gateBad c g then some (17, BitVec.ofNat 64 g)
  else if fld w0 (19 + c.level.toNat) 1 = 0 ∨ fld w0 17 2 ≤ c.level.toNat then some (18, BitVec.ofNat 64 g)
  else
    ((List.range (fld w0 22 2)).find? fun i =>
      decide (c.gateWord g (2 + i) ≠ 0 ∧ c.gateWord g (2 + i) ≤ (c.cur.arg i).toNat)).map fun i =>
        (19, BitVec.ofNat 64 (g + i * 2 ^ 16))

/-- A gate entry is made (14 R375); `after` is the offset of the bundle after the GATE bundle. -/
def gateEnter (c0 c : Core) (g after : Nat) : Core :=
  let w0 := c0.gateWord g 0
  let b := Fin.ofNat 4 (fld w0 17 2)
  let n := fld w0 22 2
  let arg := fun (i : Nat) => if i < n then c0.cur.arg i else 0
  let c := c.modBank b fun k =>
    { k with a := arg 0, x := arg 1, y := arg 2, sp := BitVec.ofNat 64 (fld (c0.gateWord g 1) 0 18) }
  let c := c.modSys b fun y =>
    { y with epc := BitVec.ofNat 64 (after % 2 ^ 17), estatus := estatusWord c0.level c0.im b.val true
             cause := causeWord 21 false false 6 false, tval := BitVec.ofNat 64 g }
  { c with level := BitVec.ofNat 2 (fld w0 17 2), im := decide (fld w0 24 1 = 1), bank := b }

/-- Whether RFE finds no state it may restore (14 R376). -/
def rfeBad (c : Core) : Bool :=
  let e := (c.sys.get c.bank).estatus
  decide (wfld e 4 2 ≠ c.bank.val) || decide (c.bank.val = 0) || decide (c.level.toNat < wfld e 0 2) || decide (wfld e 0 2 = 3)

/-- RFE (14 R376). -/
def rfeLeave (c0 c : Core) : Core :=
  let b := c0.bank
  let e := (c0.sys.get b).estatus
  let d := Fin.ofNat 4 (wfld e 0 2)
  let c := if wbit e 6 then c.modBank d fun k => { k with a := c0.cur.a } else c
  let c := c.modSys b fun y => { y with estatus := e &&& ~~~0x30 }
  { c with level := BitVec.ofNat 2 (wfld e 0 2), im := if wfld e 0 2 = 0 then false else wbit e 2, bank := d }

/-- The effect of a B syllable on the core, but for the choice of the next bundle and halting; `after` is the offset of
the bundle after this one. -/
def bEffect (o : BOp) (d : BBody) (after : Nat) (c0 c : Core) : Core :=
  let sp := c0.cur.sp
  match o with
  | .call | .calla => (c.ldmPut (sp - 8).toNat 8 (BitVec.ofNat 64 after)).modCur fun b => { b with sp := sp - 8 }
  | .ret => c.modCur fun b => { b with sp := sp + 8 }
  | .loop =>
    c.modCur (armLoop (loopLevel d) (if loopCsrc d then 0 else 4) (BitVec.ofNat 17 after) ((bTarget .loop d c0).setWidth 17)
      (BitVec.ofNat 32 (loopCount d c0)))
  | .gate => gateEnter c0 c (fld d.off.toNat 0 16) after
  | .rfe => rfeLeave c0 c
  | .ifence => c.modCur fun b => { b with heads := Vector.replicate 3 [] }
  | _ => c

/-- Where a B syllable sends the core, if it decides it. -/
def bNext (o : BOp) (d : BBody) (c0 : Core) : Option Nat :=
  match o with
  | .br => if condHolds d.cond c0.cur.flags then some (bTarget o d c0).toNat else none
  | .call | .calla | .ja | .ret => some (bTarget o d c0).toNat
  | .loop =>
    if loopCount d c0 = 0 then some ((bTarget o d c0).toNat + imemBundle c0.imem (bTarget o d c0).toNat 8) else none
  | .gate => some (fld (c0.gateWord (fld d.off.toNat 0 16) 0) 2 15 * 4)
  | .rfe => some (wfld (c0.sys.get c0.bank).epc 0 17)
  | _ => none

/-- The cc from this bundle's issue to the next one's (03 Tables 3-6 and 3-7), without stalls. -/
def bCost (o : BOp) (d : BBody) (c0 : Core) : Nat :=
  match o with
  | .br =>
    let taken := condHolds d.cond c0.cur.flags
    let pred : Bool := decide (d.cond = 7) || decide (signedOf 19 d.off.toNat ≤ 0)
    if taken = pred then (if taken then 3 else 1) else 6
  | .call => 3
  | .calla | .ja | .rfe | .ifence => 6
  | .ret => 5
  | .gate => 10
  | .loop => if loopCount d c0 ≠ 0 then 1 else if loopCsrc d then 3 else 6
  | _ => 1

/-! ## Hardware loops (02 R72-R75) -/

/-- The end test of levels `l` - 1 down to 0 at the bundle at `pc`: the bank afterwards and the next bundle, if a level
selects it. -/
def loopEnd (pc : Nat) : Nat → CoreBank → CoreBank × Option Nat
  | 0, b => (b, none)
  | l + 1, b =>
    let i := Fin.ofNat 3 l
    let n := (b.lc.get i).toNat
    if n ≠ 0 ∧ (b.le.get i).toNat = pc then
      if 1 < n then ({ b with lc := b.lc.set i.val (BitVec.ofNat 32 (n - 1)) i.isLt }, some (b.ls.get i).toNat)
      else loopEnd pc l { b with lc := b.lc.set i.val 0 i.isLt }
    else loopEnd pc l b

/-- A loop head buffer takes the bundle at its level's LS (03 R97). -/
def CoreBank.capture (b : CoreBank) (pc : Nat) (ys : List Syl) : CoreBank :=
  (List.range 3).foldl (fun b l =>
    let i := Fin.ofNat 3 l
    if (b.lc.get i).toNat ≠ 0 ∧ (b.ls.get i).toNat = pc then { b with heads := b.heads.set i.val ys i.isLt } else b) b

end Sys2Proof.Machine
end

