-- ==== Sys2Proof/Machine/Issue.lean ====
section
/-!
DEFINITION. The issue of a bundle of the control core (02 R47-R81, 03 R87-R102, 14 R365-R373): a syllable arrives and
waits for the rest of its bundle; the whole bundle is checked in the order of 14 R368, waits, or issues at once.
-/

namespace Sys2Proof.Machine

/-! ## The checks of a bundle (14 R368) -/

/-- The LDM accesses of a syllable: address and bytes (14 R361). -/
def sylLdm (c : Core) (y : Syl) : List (Word × Nat) :=
  let b := c.cur
  match y with
  | .c _ d => if d.isMem then [(d.ea b, d.bytes)] else []
  | .l op d =>
    match op with
    | .ldx | .ldy | .lda | .post | .sta | .stx | .sty => if d.isMem then [(d.ea b, d.bytes)] else []
    | .push => [(b.sp - 8, 8)]
    | .pop => [(b.sp, 8)]
    | _ => []
  | .v0 _ d => if y.ldmReads = 1 then [(BitVec.ofNat 64 (8 * d.vs1.toNat), 8)] else []
  | .x _ d => if y.ldmReads = 1 then [(BitVec.ofNat 64 (64 * d.daddr.toNat), 64)] else []
  | .s _ d => [(BitVec.ofNat 64 (64 * d.daddr.toNat), 64)]
  | .b op _ =>
    match op with
    | .call | .calla => [(b.sp - 8, 8)]
    | .ret => [(b.sp, 8)]
    | _ => []
  | _ => []

/-- The first LDM exception of a syllable. -/
def ldmHold (c : Core) (y : Syl) : Option Hold :=
  (sylLdm c y).findSome? fun p => (ldmCheck c p.1 p.2).map fun code => .trap code y.slot false p.1

/-- Whether every LDM access of a syllable is allowed. -/
def ldmOk (c : Core) (y : Syl) : Bool := (ldmHold c y).isNone

/-- The effective address of a V1 memory syllable (04 R122). -/
def v1Ea (b : CoreBank) (d : V1Body) : Word :=
  let disp := match d.ext with | some i => sext64 28 i.toNat | none => 0
  (match d.am.toNat with | 0 => b.x | 1 => b.y | 2 => b.x + b.y | _ => b.a) + disp

/-- The register that STR names (04 Table 4-3). -/
def v1Str (b : CoreBank) (d : V1Body) : Word :=
  match d.str.toNat with | 0 => b.a | 1 => b.x | _ => b.y

/-- The address exceptions and translation of one syllable (14 R368 item 5). -/
def State.addrHold (s : State) (m : MastId) (y : Syl) : Option Hold :=
  let c := (s.mast m).core
  match ldmHold c y with
  | some h => some h
  | none =>
    match y with
    | .l op d =>
      match gkind op with
      | some k => (match s.gcheck m k (d.ea c.cur) d.bytes with | .error h => some h | .ok _ => none)
      | none => none
    | .v1 op d =>
      if op.isMem ∧ wfld (v1Ea c.cur d) 56 8 ≠ 0 then some (.trap 8 3 false (v1Ea c.cur d)) else none
    | _ => none

/-- The check of a branch target (14 R368 item 4). -/
def targetHold (c : Core) (y : Syl) : Option Hold :=
  match y with
  | .b op d => if bUsesTarget op d c ∧ (op = .ret → ldmOk c y) ∧ badTarget (bTarget op d c) then some (.trap 4 6 false (bTarget op d c)) else none
  | _ => none

/-- The checks of token addresses and of gates and returns (14 R368 item 4). -/
def branchHold (c : Core) (y : Syl) : Option Hold :=
  match y with
  | .l op d =>
    if op = .post ∧ ldmOk c y ∧ badToken ((d.operand c).setWidth 32) then
      some (.trap 10 1 false (BitVec.ofNat 64 ((d.operand c).toNat % 2 ^ 32)))
    else none
  | .v1 op d =>
    if op = .vpost ∧ badToken ((v1Str c.cur d).setWidth 32) then
      some (.trap 10 3 false (BitVec.ofNat 64 ((v1Str c.cur d).toNat % 2 ^ 32)))
    else none
  | .b op d =>
    if op = .gate then
      (gateCheck c (fld d.off.toNat 0 16)).map fun p => .trap p.1 6 false p.2
    else if op = .rfe ∧ rfeBad c then some (.trap 20 6 false (c.sys.get c.bank).estatus)
    else none
  | _ => none

/-- The first exception that the encoding, the level and VTYPE decide (14 R368 items 1 to 3). -/
def State.encodingHold (s : State) (m : MastId) (ys : List Syl) : Option Hold :=
  let c := (s.mast m).core
  if 0x20000 < c.npc.toNat + min 32 (bundleBytes ys) then
    some (.trap 4 0 false (BitVec.ofNat 64 (max c.npc.toNat 0x20000)))
  else if !bundleOk ys then some (.trap 1 0 false 0)
  else
    match ys.find? fun y => y.bad c.cur.vtype with
    | some y => some (.trap 2 y.slot false (BitVec.ofNat 64 y.word))
    | none =>
      (ys.find? fun y => y.privBad c.level.toNat).map fun y => .trap 3 y.slot false (BitVec.ofNat 64 y.word)

/-- The first exception that register values decide (14 R368 items 4 and 5). -/
def State.valueHold (s : State) (m : MastId) (ys : List Syl) : Option Hold :=
  let c := (s.mast m).core
  match (ys.findSome? (targetHold c)).orElse fun _ => ys.findSome? (branchHold c) with
  | some h => some h
  | none => ys.findSome? (s.addrHold m)

/-- The first exception of a bundle in the order of 14 R368. -/
def State.exception (s : State) (m : MastId) (ys : List Syl) : Option Hold :=
  (s.encodingHold m ys).orElse fun _ => s.valueHold m ys

/-! ## What a bundle waits on (02 R79) -/

/-- How many commands a bundle adds to the queue of an engine (01 R40, 02 R59). -/
def queuesTo (e : EngId) (y : Syl) : Nat :=
  match y with
  | .v0 _ _ => b2n (decide (e = 1))
  | .v1 op _ => b2n (decide (e = 1) && decide (op ≠ .vsetvl))
  | .x _ d => b2n ((decide (e = 2) && d.arr.getLsbD 0) || (decide (e = 3) && d.arr.getLsbD 1))
  | .s op _ => b2n ((decide (e = 4) && decide (op = .srun)) || (decide (e = 5) && decide (op = .hrun)))
  | _ => 0

/-- The entries that an engine's queue holds: a command leaves its entry when it starts (01 R40). -/
def Mast.queueLen (x : Mast) (e : EngId) : Nat :=
  match e.val with
  | 1 => x.vec.queue.length - x.vec.extra
  | 2 => (x.arr.get 0).queue.length - (x.arr.get 0).extra
  | 3 => (x.arr.get 1).queue.length - (x.arr.get 1).extra
  | 4 => (x.sheet.queue.filter fun c => c.run.isNone).length
  | 5 => x.hal.queue.length - x.hal.extra
  | _ => 0

/-- Whether a vector command reads or writes memory. -/
def VCmd.isMem (v : VCmd) : Bool := match v.v1 with | some (op, _) => op.isMem | none => false

/-- Whether a memory command of the long-vector unit has not completed. -/
def Vec.memOut (v : Vec) : Bool := v.queue.any VCmd.isMem || v.mem.isSome || !v.reqs.isEmpty

/-- Whether an earlier FENCE still waits (02 R63): a global access that has not completed or a store not acknowledged,
V1 memory syllables and their writes included (04 R124). -/
def State.fenceBusy (s : State) (m : MastId) : Bool :=
  let x := s.mast m
  x.core.fenced &&
  (!x.core.loads.isEmpty || !x.core.sb.isEmpty || !x.core.wq.isEmpty || x.vec.memOut || s.acksDue m 1 fun _ => true)

/-- Whether a POST of the core still waits for its older stores (01 R37). -/
def State.postBusy (s : State) (m : MastId) : Bool :=
  let c := (s.mast m).core
  s.posts.any fun p => decide (p.src = .engine m 0) &&
    (c.sb.any (fun e => e.seq < p.seq) || c.wq.any (fun e => e.seq < p.seq))

/-- The banks whose outstanding global loads a syllable waits for (03 R87): it reads A, or writes A of the bank the load writes. -/
def Core.loadBanks (c : Core) (y : Syl) : List (Fin 4) :=
  match y with
  | .b .gate d => [c.bank, Fin.ofNat 4 (fld (c.gateWord (fld d.off.toNat 0 16) 0) 17 2)]
  | .b .rfe _ => let e := (c.sys.get c.bank).estatus; if wbit e 6 then [c.bank, Fin.ofNat 4 (wfld e 0 2)] else []
  | y => if y.waitsForA || y.writesANow then [c.bank] else []

/-- Whether a syllable waits while a global load is outstanding (03 R87). -/
def Core.needsLoad (c : Core) (y : Syl) : Bool := (c.loadBanks y).any fun b => c.loads.any fun l => decide (l.bank = b)

/-- The cc until a bundle can use A, where every load it waits for has an exact latency (03 R86, R87): that of the youngest of its banks, and of what has
returned. -/
def Core.loadDue (c : Core) (ys : List Syl) : Nat :=
  let bs := ys.flatMap c.loadBanks
  let out := if c.loads.all fun l => l.left.isSome then (c.loads.filter fun l => bs.contains l.bank).map fun l => l.left.getD 0 else []
  (out ++ bs.map fun b => (c.banks.get b).aDue).foldl max 0

/-- Whether a bundle waits for outstanding loads: values of A that are not there yet decide nothing (03 R87, 14 R365). -/
def State.dataWait (s : State) (m : MastId) (ys : List Syl) : Bool := ys.any (s.mast m).core.needsLoad

/-- What a bundle waits on, in order: its token slots, its engines' queues, an earlier FENCE or POST, and last what its global access compares with in the cc in
which it would otherwise issue (03 R89, R91). -/
def State.waitList (s : State) (m : MastId) (ys : List Syl) : List Wait :=
  let x := s.mast m
  let tw := ys.filterMap fun y =>
    match y with
    | .b .twait d => if s.haveTokens m (maskSlots 0 d.off.toNat 8) then none else some (Wait.tokens (BitVec.ofNat 8 d.off.toNat))
    | _ => none
  let q := (fins 6).filterMap fun e =>
    let n := (ys.map (queuesTo e)).sum
    if 0 < n ∧ 16 < x.queueLen e + n then some (Wait.queue e) else none
  let fence := if (s.fenceBusy m || s.postBusy m) && ys.any Syl.ordered then [Wait.fence] else []
  let g := ys.filterMap fun y =>
    match y with
    | .l op d =>
      match gkind op with
      | some k => (match s.gcheck m k (d.ea x.core.cur) d.bytes with | .ok ps => s.gwait m k ps | .error _ => none)
      | none => none
    | _ => none
  tw ++ q ++ fence ++ g

/-- What a bundle that raises no exception waits on, if anything. -/
def State.waits (s : State) (m : MastId) (ys : List Syl) : Option Wait := (s.waitList m ys).head?

/-- The exception of an engine that a bundle raises because it cannot issue until the faulted engine proceeds, while IM masks it (14 R371): its queue is full,
or an earlier FENCE waits on a memory access of the long-vector unit. -/
def State.engineHold (s : State) (m : MastId) (ys : List Syl) : Option Hold :=
  let x := s.mast m
  let ws := s.waitList m ys
  let behind := ws.contains .fence && x.core.fenced && (x.vec.memOut || s.acksDue m 1 fun _ => true)
  if x.core.im && x.vec.faulted && (ws.contains (.queue 1) || behind) then some (.trap 15 0 false (x.vec.faultVa.zeroExtend 64))
  else if x.core.im && x.hal.exc && ws.contains (.queue 5) then some (.trap 16 0 false (x.hal.faultVa.zeroExtend 64))
  else none

/-- Why a bundle does not issue, if it does not. A translation that misses or faults holds only a bundle that would otherwise issue (03 R82, R85), and a wait
on a faulted engine while IM masks its exception is that exception, no longer deferrable (14 R371). -/
def State.hold (s : State) (m : MastId) (ys : List Syl) : Option Hold :=
  match s.encodingHold m ys with
  | some h => some h
  | none =>
  if s.dataWait m ys then some (.wait .data)
  else match s.valueHold m ys with
  | some (.trap code slot half tval) => some (.trap code slot half tval)
  | v => (s.engineHold m ys).orElse fun _ => ((s.waits m ys).map Hold.wait).orElse fun _ => v

/-! ## Effects -/

/-- The scalar that SCODE selects (04 R114). -/
def scodeVal (c : Core) (d : V0Body) : Word :=
  match d.vs1.toNat with
  | 0 => c.cur.a | 1 => c.cur.x | 2 => c.cur.y
  | 31 => (match d.ext with | some i => sext64 28 i.toNat | none => 0)
  | k => BitVec.ofNat 64 (Mem.load c.ldm (8 * k) 8)

/-- A queued vector command with what it captures (04 R108). -/
def vcmdOf (c : Core) (v0 : Option (V0Op × V0Body)) (v1 : Option (V1Op × V1Body)) : VCmd :=
  { v0 := v0, v1 := v1, vl := c.cur.vl.toNat, vtype := c.cur.vtype
    scalar := match v0 with | some (_, d) => if d.sc then scodeVal c d else 0 | none => 0
    ea := match v1 with | some (_, d) => v1Ea c.cur d | none => 0
    stride := match v1 with | some (_, d) => v1Str c.cur d | none => 0
    level := c.level, pc := c.npc.setWidth 17, numctl := none }

/-- A command enters the long-vector unit's queue. -/
def Vec.push (v : Vec) (k : VCmd) : Vec := { v with queue := v.queue ++ [k] }

/-- VSETVL (04 R106). -/
def vsetvl (d : V1Body) (c0 c : Core) : Core :=
  let vt := BitVec.ofNat 64 d.low8
  let vlmax := 1024 / 2 ^ vtSew vt
  let vl := BitVec.ofNat 64 (min c0.cur.a.toNat vlmax)
  c.modCur fun b => { b with vl := vl, vtype := vt, a := vl }

/-- The descriptor an X or S syllable captures (06 R164, 08 R216). -/
def descAt (c : Core) (daddr : BitVec 12) : Desc := BitVec.ofNat 512 (Mem.load c.ldm (64 * daddr.toNat) 64)

/-- The command an X syllable queues. -/
def acmdOf (c : Core) (op : XOp) (d : XBody) : ACmd :=
  { kind := match op with | .xpass => .pass | .xbfill => .bfill | .xbdisarm => .bdisarm
    desc := if op = .xbdisarm then 0 else descAt c d.daddr
    daddr := d.daddr, pc := c.npc.setWidth 17, twin := decide (d.arr = 3), q := Fin.ofNat 4 d.q.toNat, modes := none, rept := false }

/-- The sheet command an S syllable queues; `bad` says that its descriptor read met an uncorrectable error (08 R237). -/
def scmdOf (c : Core) (d : SBody) (bad : Bool) : SCmd :=
  { desc := descAt c d.daddr, daddr := d.daddr, pc := c.npc.setWidth 17, level := c.level, bad := bad, run := none }

/-- The halyard command it queues (11 R293). -/
def hcmdOf (c : Core) (d : SBody) (id : Nat) : HalCmd :=
  { id := id, desc := descAt c d.daddr, daddr := d.daddr, pc := c.npc.setWidth 17, level := c.level, started := false }

/-- Drop every canvas line of the data cache and the victim cache (12 R312). -/
def DCache.dropCanvas (c : DCache) : DCache :=
  { c with lines := c.lines.filter fun x => x.st ≠ .canv, victims := c.victims.filter fun x => x.st ≠ .canv }

/-- FENCE (02 R63, 12 R312, 14 R374). -/
def State.fenceEffect (s : State) (m : MastId) : State :=
  (s.modCore m fun c => { c with fenced := true, gateUsed := c.gate }).modDc m DCache.dropCanvas

/-- The effect of an L syllable. -/
def State.lEffect (s : State) (m : MastId) (c0 : Core) (op : LOp) (d : MBody) : State :=
  match op with
  | .post => (s.post ((d.operand c0).setWidth 32) (.engine m 0) (s.mast m).core.seq).modCore m fun c => { c with seq := c.seq + 1 }
  | .fence => s.fenceEffect m
  | _ =>
    match gkind op with
    | none => s.modCore m fun c => Machine.lEffect op d c0 c
    | some k =>
      match s.gcheck m k (d.ea c0.cur) d.bytes with
      | .error _ => s
      | .ok ps =>
        let s := s.useXlate m 0 (ps.map fun p => p.va)
        match k with
        | .load => s.issueLdg m d ps
        | .store => s.issueStg m c0.cur.a d ps
        | .atom => s.issueAtom m op d c0.cur.a c0.cur.y ps

/-- The effect of a V1 syllable at issue. -/
def State.v1Effect (s : State) (m : MastId) (c0 : Core) (op : V1Op) (d : V1Body) : State :=
  if op = .vsetvl then s.modCore m fun c => vsetvl d c0 c
  else s.modVec m fun v => v.push (vcmdOf c0 none (some (op, d)))

/-- The effect of an X syllable at issue: a command in the queue of each array it names. -/
def State.xEffect (s : State) (m : MastId) (c0 : Core) (op : XOp) (d : XBody) : State :=
  let k := acmdOf c0 op d
  let s := if d.arr.getLsbD 0 then s.modArr m 0 fun a => { a with queue := a.queue ++ [k] } else s
  if d.arr.getLsbD 1 then s.modArr m 1 fun a => { a with queue := a.queue ++ [k] } else s

/-- The effect of an S syllable at issue. -/
def State.sEffect (s : State) (m : MastId) (c0 : Core) (op : SOp) (d : SBody) : State :=
  match op with
  | .srun =>
    let bad := s.bad fun c => match c with | .ldm k w => decide (k = m ∧ w / 8 = d.daddr.toNat) | _ => false
    s.modSheet m fun x => { x with queue := x.queue ++ [scmdOf c0 d bad] }
  | .hrun => s.modHal m fun x => { x with queue := x.queue ++ [hcmdOf c0 d x.nextId], nextId := x.nextId + 1 }

/-- The effect of a B syllable at issue. -/
def State.bEffect (s : State) (m : MastId) (c0 : Core) (op : BOp) (d : BBody) (after : Nat) : State :=
  match op with
  | .twait => (s.consume m (maskSlots 0 d.off.toNat 8)).modDc m DCache.dropCanvas
  | _ => s.modCore m fun c => Machine.bEffect op d after c0 c

/-- The effect of one syllable of an issuing bundle; `c0` is the core before the bundle (02 R48). -/
def State.sylEffect (s : State) (m : MastId) (c0 : Core) (after : Nat) (y : Syl) : State :=
  match y with
  | .c op d => s.modCore m fun c => cEffect op d s.nodeId c0 c
  | .l op d => s.lEffect m c0 op d
  | .v0 op d => s.modVec m fun v => v.push (vcmdOf c0 (some (op, d)) none)
  | .v1 op d => s.v1Effect m c0 op d
  | .x op d => s.xEffect m c0 op d
  | .s op d => s.sEffect m c0 op d
  | .b op d => s.bEffect m c0 op d after

/-- The cc until the next bundle issues, stalls not counted (03 Tables 3-6, 3-7; R93). -/
def bundleCost (c0 : Core) (ys : List Syl) : Nat :=
  (ys.map fun y =>
    match y with
    | .c .mtsr _ => 4
    | .l op d => if (op = .ldg ∨ op = .stg) ∧ 128 < (d.ea c0.cur).toNat % 128 + d.bytes then 2 else 1
    | .b op d => bCost op d c0
    | _ => 1).foldl max 1

/-- Where a B syllable of a bundle sends the core, if one decides it. -/
def branchOf (c0 : Core) (ys : List Syl) : Option Nat := ys.findSome? fun y => match y with | .b op d => bNext op d c0 | _ => none

/-- The bundle that follows, and what the loop-end test does to the loop registers (02 R70-R74). DESIGN CHOICE: a LOOP with count 0 in an end bundle
decides the next bundle, as a taken branch does (log entry 87). -/
def nextBundle (c0 : Core) (ys : List Syl) (after : Nat) : CoreBank × Nat :=
  match branchOf c0 ys with
  | some t => (c0.cur, t)
  | none =>
    let r := loopEnd c0.npc.toNat 3 c0.cur
    (r.1, r.2.getD after)

/-- The level that a LOOP of a bundle arms. -/
def armedLevel (ys : List Syl) : Option Nat := ys.findSome? fun y => match y with | .b .loop d => some (loopLevel d) | _ => none

/-- The counts that the loop-end test leaves, but for a level that the bundle arms (02 R71, R72). -/
def Core.takeLc (c : Core) (bank : Fin 4) (armed : Option Nat) (new : CoreBank) : Core :=
  c.modBank bank fun b =>
    (List.range 3).foldl (fun b l =>
      let i := Fin.ofNat 3 l
      if armed = some l then b else { b with lc := b.lc.set i.val (new.lc.get i) i.isLt }) b

/-- Whether a bundle holds HALT. -/
def hasHalt (ys : List Syl) : Bool := ys.any fun y => match y with | .b .halt _ => true | _ => false

/-- Whether a bundle holds RFE. -/
def hasRfe (ys : List Syl) : Bool := ys.any fun y => match y with | .b .rfe _ => true | _ => false

/-- A handler in the bank of the code it interrupted returns: the multiplies of that code count again (02 R68). -/
def Core.thaw (c : Core) : Core := { c with muls := c.muls.map fun p => if p.bank = c.bank then { p with frozen := p.frozen - 1 } else p }

/-- The cc that the loop-end test of a bundle adds: 3 where it selects a level whose head buffer is empty (03 R99). A head that is its own end bundle is in the
buffer by then (R97). -/
def headCost (c0 : Core) (ys : List Syl) : Nat :=
  match branchOf c0 ys with
  | some _ => 0
  | none =>
    let empty := (fins 3).any fun l =>
      let b := c0.cur.capture c0.npc.toNat ys
      decide (1 < (b.lc.get l).toNat ∧ (b.le.get l).toNat = c0.npc.toNat ∧ (b.heads.get l).isEmpty) &&
      -- the level that the test selects is the highest whose count does not end
      (fins 3).all fun k => decide (k.val ≤ l.val) || !decide (1 < (b.lc.get k).toNat ∧ (b.le.get k).toNat = c0.npc.toNat)
    if empty then 3 else 0

/-- The cc lost to the redirects that a bundle makes (03 Tables 3-6 and 3-9, R99). -/
def redirectCost (c0 : Core) (ys : List Syl) : Nat :=
  (ys.map fun y => match y with | .b op d => bCost op d c0 - 1 | _ => 0).sum + headCost c0 ys

/-- The latencies to address generation that a bundle starts (03 Table 3-2). -/
def Core.makeAg (c : Core) (ys : List Syl) : Core :=
  (ys.flatMap Syl.agMakes).foldl (fun c p => { c with ag := c.ag.set p.1.val p.2 p.1.isLt }) c

/-- What the end of a bundle does to its core: loops are tested, the pc moves, and time passes until the next bundle can issue (02 R65, R68, R72-R75,
03 R102). Of the cc to the next bundle, a bundle that changes the bank counts only its own for the multiplies of the bank it leaves (log entry 73). An RFE into its own
bank returns from a trap into it, whose multiplies count again.
`c0` is the core before the bundle, `c` after its effects. -/
def Core.advance (c0 c : Core) (ys : List Syl) : Core :=
  let nx := nextBundle c0 ys (c0.npc.toNat + bundleBytes ys)
  let n := bundleCost c0 ys + headCost c0 ys
  let c := ((c.takeLc c0.bank (armedLevel ys) nx.1).makeAg ys).pass c0.bank (if c.bank = c0.bank then n else 1) n
  let c := if hasRfe ys ∧ c.bank = c0.bank then c.thaw else c
  { c with
    pc := c0.npc.setWidth 17, npc := BitVec.ofNat 18 nx.2, waiting := none, opening := [], returned := false }

/-- After the effects: the core goes on to the next bundle, and CC_BUNDLES and CC_STALL1.REDIRECT count (02 R77, 03 R96, R103). -/
def State.advance (s : State) (m : MastId) (c0 : Core) (ys : List Syl) : State :=
  let s := (((s.modCore m fun c => c0.advance c ys).bump m 0x38).countHalf m 0x30 false (redirectCost c0 ys)).clearStall m 0
  if hasHalt ys then s.beginHalt m else s

/-- The LDM words that a bundle reads, and those it writes whole. -/
def ldmCells (c : Core) (m : MastId) (ys : List Syl) (reads : Bool) : Cell → Bool
  | .ldm k w => decide (k = m) && ys.any fun y =>
      (if reads then decide (0 < y.ldmReads) else decide (0 < y.ldmWrites)) &&
      (sylLdm c y).any fun p => decide (p.1.toNat / 8 ≤ w ∧ w < cdiv (p.1.toNat + p.2) 8) && (reads || decide (p.2 = 8))
  | _ => false

/-- The `n` bytes of a bundle in IMEM. -/
def imemCells (c : Core) (m : MastId) (n : Nat) : Cell → Bool
  | .imem k w => decide (k = m ∧ c.npc.toNat / 4 ≤ w ∧ w < c.npc.toNat / 4 + n / 4)
  | _ => false

/-- Reads of LDM and IMEM meet their codes: corrected errors count in CC_ECC, and an uncorrectable one is a fault of the job, of the control core but for
the reads `other` of another engine (02 R51, 08 R237). -/
def State.coreEcc (s : State) (m : MastId) (ldm imem other : Cell → Bool) : State :=
  let s := s.modMast m fun x =>
    { x with cnt := Tab.satAdd (Tab.satAdd x.cnt 0x20 0 32 (s.flaws .corr fun c => ldm c || other c)) 0x20 32 32 (s.flaws .corr imem) }
  if s.bad ldm || s.bad imem then s.jobFault m 0 1 else s

/-- A bundle that traps has met the codes of its `n` bytes of IMEM and, unless its encoding traps, of the LDM words that its checks allow (02 R51, 03 Table 3-1). -/
def State.trapReads (s : State) (m : MastId) (ys : List Syl) (n : Nat) : Hold → State
  | .trap _ _ _ _ =>
    let c := (s.mast m).core
    let zs := if (s.encodingHold m ys).isSome then [] else ys.filter (ldmOk c)
    s.coreEcc m (ldmCells c m (zs.filter fun y => !y.isSrun) true) (imemCells c m n) (ldmCells c m (zs.filter Syl.isSrun) true)
  | _ => s

/-- An earlier FENCE that has nothing left to wait for is over (02 R63). -/
def State.fenceOver (s : State) (m : MastId) : State :=
  if s.fenceBusy m then s else s.modCore m fun c => { c with fenced := false }

/-- A bundle that issues has met the codes of the memories it reads, a loop head buffer has taken it in DE, and a FENCE with nothing left to wait for is
over (02 R51, R63, 03 R97). -/
def State.fetched (s : State) (m : MastId) (ys : List Syl) : State :=
  let c := (s.mast m).core
  ((s.coreEcc m (ldmCells c m (ys.filter fun y => !y.isSrun) true) (imemCells c m (bundleBytes ys)) (ldmCells c m (ys.filter Syl.isSrun) true)).modCore m fun k =>
    k.modCur fun b => b.capture c.npc.toNat ys).fenceOver m

/-- The end of a bundle: what it wrote whole has its code again, and the core moves on. -/
def State.finish (s : State) (m : MastId) (c0 : Core) (ys : List Syl) : State := (s.mend (ldmCells c0 m ys false)).advance m c0 ys

/-- A bundle issues: every syllable takes effect on the state before it, then the core moves on (02 R48). -/
def State.issue (s : State) (m : MastId) (ys : List Syl) : State :=
  let c0 := (s.mast m).core
  (ys.foldl (fun t y => t.sylEffect m c0 (c0.npc.toNat + bundleBytes ys) y) (s.fetched m ys)).finish m c0 ys

/-- Whether the length of a wait is exact and counted where it begins (03 R91). -/
def Wait.isExact (w : Wait) : Bool := match w with | .overlap _ => true | _ => false

/-- Whether the cc of a wait are of a length that the spec does not fix (log entry 73): those on load data only where a load is not of Table 3-4's exact cases. -/
def Core.openWait (c : Core) (w : Wait) : Bool :=
  match w with
  | .data => c.returned || c.loads.any fun l => l.left.isNone
  | w => !w.isExact

/-- Whether a wait counts in CC_STALL1.GLOBAL (03 Table 3-9). -/
def Wait.isGlobal (w : Wait) : Bool := match w with | .data | .store | .walk _ | .fence => true | _ => false

/-- The core stalls for one more wait of `n` cc. -/
def Core.stalled (c : Core) (n : Nat) : Core := ({ c with stalls := c.stalls + 1 }).pass c.bank n n

/-- A bundle that does not issue: its exception is taken, its translation fault is recorded, or it waits (02 R79,
13 R345, R350, 14 R365). -/
def State.stopAt (s : State) (m : MastId) (h : Hold) : State :=
  let c := (s.mast m).core
  -- the wait of 03 R91 is exact: 3 cc for each store, counted where it begins
  let first : Bool := match c.waiting with | some w => !w.isExact | none => true
  let note := fun (w : Wait) (t : State) =>
    let t := match w with | .overlap n => if first then t.stallFor m 0x28 true (3 * n) else t | _ => t
    t.modCore m fun c => { c with waiting := some w, opening := [] }
  match h with
  | .trap code slot half tval =>
    if code = 20 then s.raiseReturn m tval else s.raise m code slot half tval
  | .miss f => if ((s.mast m).xl.faultOf 0).isSome then note .fault s else note (.walk f.va) (s.addMiss m f)
  | .wait w => note w s
  | .xfault f =>
    if ((s.mast m).xl.faultOf 0).isSome then note .fault s else note .fault (s.addFault m f)

/-- Whether the core of a mast takes bundles: running, not stopping, and its engine set. -/
def State.coreRuns (s : State) (m : MastId) : Bool :=
  let c := (s.mast m).core
  !c.halted && !c.stopReq && s.engSet m 0

/-- The cc that have passed since the bundle was last found waiting: of a length that the spec does not fix, but for the wait of 03 R91, which is
counted where it begins, and that on loads of exact latency. CC_STALL1.GLOBAL counts those on load data, store admission, a walk and FENCE (03 Table 3-9; log entry 73). -/
def State.afterWait (s : State) (m : MastId) : State :=
  let c := (s.mast m).core
  match c.waiting with
  | none => s
  | some w =>
    if !c.openWait w then s
    else
      let n := 1 + Config.stallCc c.stalls
      let t := s.modCore m fun c => { c.stalled n with returned := c.returned && decide (w ≠ .data) }
      if w.isGlobal then t.countHalf m 0x30 true n else t

/-- A bundle that uses A after a load of no exact latency has written it may have waited for it (03 R87): cc of a length that the spec does not fix. -/
def State.afterLoad (s : State) (m : MastId) (ys : List Syl) : State :=
  let c := (s.mast m).core
  if c.returned && ys.any (fun y => y.waitsForA || y.writesANow) then
    (s.modCore m fun c => { c with stalls := c.stalls + 1, returned := false }).stallFor m 0x30 true (Config.stallCc c.stalls)
  else s

/-- The exact waits of a bundle: for X, Y and SP in its addresses (03 R84), of the first pass of an end bundle (03 R98), then for the A of loads (03 R86, R87). -/
def State.exactWaits (s : State) (m : MastId) (ys : List Syl) : State :=
  let c := (s.mast m).core
  let w := ((ys.flatMap Syl.agUses).map fun r => c.ag.get r).foldl max 0
  let s := if w = 0 then s else s.stallFor m 0x28 false w
  let b := (s.mast m).core.cur
  let v := ((fins 3).map fun l => if (b.lc.get l).toNat ≠ 0 ∧ (b.le.get l).toNat = c.npc.toNat then b.arm.get l else 0).foldl max 0
  let s := if v = 0 then s else s.stallFor m 0x30 false v
  let a := (s.mast m).core.loadDue ys
  if a = 0 then s else s.stallFor m 0x30 true a

/-- A bundle has waited as long as it must, and would issue in this cc unless something else holds it or a trap takes its place. -/
def State.ready (s : State) (m : MastId) (ys : List Syl) : State := ((s.afterWait m).afterLoad m ys).exactWaits m ys

/-- A whole bundle comes to issue. -/
def State.bundle (s : State) (m : MastId) (ys : List Syl) : State :=
  let s := s.ready m ys
  match s.takeDeferrable m with
  | some t => t
  | none =>
    match s.hold m ys with
    | some h => (s.trapReads m ys (bundleBytes ys) h).stopAt m h
    | none => s.issue m ys

/-- A syllable arrives at the core of a mast: it waits for the end of its bundle, or completes it. A bundle
without STOP in its first eight words ends there. -/
def State.present (s : State) (m : MastId) (y : Syl) : State :=
  if !s.coreRuns m then s.modCore m fun c => { c with opening := [] }
  else
    let ys := (s.mast m).core.opening ++ [y]
    if y.stop ∨ 8 ≤ (ys.map Syl.words).sum then s.bundle m ys
    else s.modCore m fun c => { c with opening := ys }

end Sys2Proof.Machine
end

