-- ==== Sys2Proof/Machine/VecOps.lean ====
section
/-!
DEFINITION. The element operations of the long-vector unit (04 R107, R117-R120; 05): what each V0 command and each
permute computes from the registers it names. A command's flags are gathered with its result.
-/

namespace Sys2Proof.Machine

/-! ## Registers and masks (04 R104, R107) -/

/-- Element `i` of `n` bytes of vector register `r` (and of the registers after it, for a group). -/
def Vec.elem (v : Vec) (r n i : Nat) : Nat := Mem.load v.vreg (0x400 * r + n * i) n
/-- Write element `i`. -/
def Vec.setElem (v : Vec) (r n i x : Nat) : Vec := { v with vreg := Mem.store v.vreg (0x400 * r + n * i) n x }
/-- Bit `i` of mask register `k`; K0 reads as all ones. -/
def Vec.kbit (v : Vec) (k i : Nat) : Bool :=
  if k = 0 then true else (Sparse.get v.kreg (0x80 * k + i / 8)).getLsbD (i % 8)
/-- Write bit `i` of mask register `k`. -/
def Vec.setKbit (v : Vec) (k i : Nat) (b : Bool) : Vec :=
  let a := 0x80 * k + i / 8
  let old := (Sparse.get v.kreg a).toNat
  let bit := 2 ^ (i % 8)
  { v with kreg := Sparse.set v.kreg a (BitVec.ofNat 8 (old - old / bit % 2 * bit + b2n b * bit)) }

/-- The bytes of an element of a VTYPE. -/
def vtBytes (vt : Word) : Nat := 2 ^ vtSew vt
/-- VLMAX (00 R4). -/
def vlmax (vt : Word) : Nat := 1024 / vtBytes vt
/-- The float format of a VTYPE whose kind is a float kind (04 Table 4-1). -/
def vtFmt (vt : Word) : FFmt :=
  match vtKind vt with
  | 3 => bf16 | 4 => fe4m3 | 5 => fe5m2
  | _ => if vtSew vt = 1 then fp16 else if vtSew vt = 2 then fp32 else fp64
/-- The format of a VTYPE, integer or float. -/
def vtNum (vt : Word) : NFmt :=
  if vtKind vt = 0 then .int (8 * vtBytes vt) false else if vtKind vt = 1 then .int (8 * vtBytes vt) true
  else .flt (vtFmt vt)
/-- The source format of VFCVT (04 R120). -/
def cvtFmt (fn : Nat) (vt : Word) : NFmt :=
  match fn with
  | 0 => .flt fp64 | 1 => .flt fp32 | 2 => .flt bf16 | 3 => .flt fp16 | 4 => .flt fe4m3 | 5 => .flt fe5m2
  | 6 => .int (8 * vtBytes vt) true | _ => .int (8 * vtBytes vt) false

/-! ## Element functions -/

/-- A float comparison `b FN a` with its flags (04 R118, 05 R148). -/
def fcmp (f : FFmt) (ftz : Bool) (fn a b : Nat) : Bool × NF :=
  let (va, fa) := f.take ftz a
  let (vb, fb) := f.take ftz b
  let fl := (fa.or fb).or { iv := va.isSig || vb.isSig }
  let un := va.isNan || vb.isNan
  let o := vb.cmp va
  let r : Bool :=
    match fn with
    | 0 => !un && decide (o = .eq)
    | 1 => un || decide (o ≠ .eq)
    | 2 => !un && decide (o = .lt)
    | 3 => !un && decide (o ≠ .gt)
    | 4 => !un && decide (o = .gt)
    | 5 => !un && decide (o ≠ .lt)
    | _ => un
  (r, fl)

/-- An integer comparison `b FN a`. -/
def icmp (sg : Bool) (w fn a b : Nat) : Bool :=
  let z := fun (n : Nat) => if sg then signedOf w n else ((n % 2 ^ w : Nat) : Int)
  match fn with
  | 0 => decide (z b = z a) | 1 => decide (z b ≠ z a) | 2 => decide (z b < z a) | 3 => decide (z b ≤ z a)
  | 4 => decide (z a < z b) | _ => decide (z a ≤ z b)

/-- The smaller or the larger of two integers of `w` bits. -/
def iminmax (sg isMax : Bool) (w a b : Nat) : Nat := if icmp sg w 2 a b != isMax then b else a

/-- The value of one element of an element-wise V0 operation: `a`, `b` operands, `d` the old destination, `i` the index. -/
def v0Elem (op : V0Op) (vt : Word) (ovm ftz : Bool) (a b d i : Nat) : Nat × NF :=
  let f := vtFmt vt
  let w := 8 * vtBytes vt
  let sg : Bool := decide (vtKind vt = 1)
  match op with
  | .vfadd => f.addE ovm ftz a b
  | .vfsub => f.addE ovm ftz b (f.withSign (!f.signBit a) (a % 2 ^ (w - 1)))
  | .vfrsub => f.addE ovm ftz a (f.withSign (!f.signBit b) (b % 2 ^ (w - 1)))
  | .vfmul => f.mulE ovm ftz a b
  | .vfma => f.fmaE ovm ftz false a b d
  | .vfms => f.fmaE ovm ftz true a b d
  | .vfdiv => f.divE ovm ftz b a
  | .vfsqrt => f.sqrtE ovm ftz b
  | .vfmin => f.minmax ftz false a b
  | .vfmax => f.minmax ftz true a b
  | .vfabs => (b % 2 ^ (w - 1), {})
  | .vfneg => (f.withSign (!f.signBit b) (b % 2 ^ (w - 1)), {})
  | .vadd => ((a + b) % 2 ^ w, {})
  | .vsub => ((b + 2 ^ w - a % 2 ^ w) % 2 ^ w, {})
  | .vmul => (a * b % 2 ^ w, {})
  | .vmin => (iminmax sg false w a b, {})
  | .vmax => (iminmax sg true w a b, {})
  | .vand => (Nat.land a b, {})
  | .vor => (Nat.lor a b, {})
  | .vxor => (Nat.xor a b, {})
  | .vshl => (b * 2 ^ (a % w) % 2 ^ w, {})
  | .vshr => (if sg then wrapInt w (signedOf w b / (2 ^ (a % w) : Int)) else b / 2 ^ (a % w), {})
  | .vmv => (a, {})
  | .vid => (i % 2 ^ w, {})
  | _ => (d, {})

/-- Combine adjacent pairs of a list. -/
def pairUp (f : Nat → Nat → Nat × NF) : List Nat → List Nat × NF
  | a :: b :: t =>
    let r := f a b
    let q := pairUp f t
    (r.1 :: q.1, r.2.or q.2)
  | l => (l, {})

/-- The pairwise tree of a reduction over `2^n` positions (04 R119). -/
def redTree (f : Nat → Nat → Nat × NF) : Nat → List Nat → Nat × NF
  | 0, l => (l.headD 0, {})
  | n + 1, l =>
    let r := pairUp f l
    let q := redTree f n r.1
    (q.1, r.2.or q.2)

/-- The combine of a reduction and its identity (04 R119). -/
def redOp (op : V0Op) (vt : Word) (ovm ftz : Bool) : (Nat → Nat → Nat × NF) × Nat :=
  let f := vtFmt vt
  let w := 8 * vtBytes vt
  let sg : Bool := decide (vtKind vt = 1)
  match op with
  | .vfredsum => (f.addE ovm ftz, f.withSign true 0)
  | .vfredmax => (f.minmax ftz true, f.withSign true f.inf)
  | .vfredmin => (f.minmax ftz false, f.inf)
  | .vredsum => (fun a b => ((a + b) % 2 ^ w, {}), 0)
  | .vredmax => (fun a b => (iminmax sg true w a b, {}), if sg then 2 ^ (w - 1) else 0)
  | _ => (fun a b => (iminmax sg false w a b, {}), if sg then 2 ^ (w - 1) - 1 else 2 ^ w - 1)

/-- Whether a V0 operation is a reduction. -/
def isRed (op : V0Op) : Bool :=
  match op with
  | .vfredsum | .vfredmax | .vfredmin | .vredsum | .vredmax | .vredmin => true
  | _ => false

/-! ## Whole commands -/

/-- Write element `i` of a destination under the mask (04 R107, VTYPE.MZ): active elements take the value, masked-off
ones keep theirs or become zero. -/
def Vec.put (v : Vec) (k : VCmd) (vd n i : Nat) (active : Bool) (x : Nat) : Vec :=
  if active then v.setElem vd n i x
  else if wbit k.vtype 6 then v.setElem vd n i 0 else v

/-- KOP (04 Table 4-5). -/
def Vec.kop (v : Vec) (d : V0Body) : Vec :=
  let ka := d.vs1.toNat % 8
  let kb := d.vs2.toNat % 8
  (List.range 1024).foldl (fun u i =>
    let a := v.kbit ka i
    let b := v.kbit kb i
    u.setKbit (d.vd.toNat % 8) i (match d.fn.toNat with
      | 0 => a && b | 1 => a || b | 2 => a != b | 3 => a && !b | _ => !a)) v

/-- An element-wise V0 command over elements `lo` to VL − 1. -/
def Vec.v0Run (v : Vec) (k : VCmd) (op : V0Op) (d : V0Body) (ovm ftz : Bool) (lo : Nat) : Vec × NF :=
  let n := vtBytes k.vtype
  let sb := cvtSrcBytes d.fn.toNat (vtSew k.vtype)
  let opA := fun (i : Nat) => if d.sc then k.scalar.toNat % 2 ^ (8 * n) else v.elem d.vs1.toNat n i
  (List.range (k.vl - lo)).foldl (fun (u : Vec × NF) j =>
    let i := lo + j
    let on := v.kbit d.km.toNat i
    match op with
    | .vfcmp | .vcmp =>
      let b := v.elem d.vs2.toNat n i
      let r := if op = .vfcmp then fcmp (vtFmt k.vtype) ftz d.fn.toNat (opA i) b
               else (icmp (decide (vtKind k.vtype = 1)) (8 * n) d.fn.toNat (opA i) b, ({} : NF))
      if on then (u.1.setKbit d.vd.toNat i r.1, u.2.or r.2)
      else if wbit k.vtype 6 then (u.1.setKbit d.vd.toNat i false, u.2) else u
    | .vmerge => (u.1.setElem d.vd.toNat n i (if on then opA i else v.elem d.vs2.toNat n i), u.2)
    | .vfcvt =>
      let r := convert (cvtFmt d.fn.toNat k.vtype) (vtNum k.vtype) ovm ftz (v.elem d.vs2.toNat sb i)
      (u.1.put k d.vd.toNat n i on r.1, if on then u.2.or r.2 else u.2)
    | _ =>
      let r := v0Elem op k.vtype ovm ftz (opA i) (v.elem d.vs2.toNat n i) (v.elem d.vd.toNat n i) i
      (u.1.put k d.vd.toNat n i on r.1, if on then u.2.or r.2 else u.2)) (v, {})

/-- A V0 command (04 R108, R117-R120): the registers after it and the flags it sets. -/
def Vec.v0 (v : Vec) (k : VCmd) (op : V0Op) (d : V0Body) (ovm ftz : Bool) (lo : Nat) : Vec × NF :=
  let n := vtBytes k.vtype
  if op = .kop then (v.kop d, {})
  else if k.vl = 0 then (v, {})
  else if op = .kpop then
    (v.setElem d.vd.toNat 8 0 ((List.range k.vl).filter fun i => v.kbit d.km.toNat i).length, {})
  else if isRed op then
    let r := redOp op k.vtype ovm ftz
    let xs := (List.range (vlmax k.vtype)).map fun i =>
      if i < k.vl ∧ v.kbit d.km.toNat i = true then v.elem d.vs2.toNat n i else r.2
    let q := redTree r.1 (Nat.log2 (vlmax k.vtype)) xs
    (v.setElem d.vd.toNat n 0 q.1, q.2)
  else v.v0Run k op d ovm ftz lo

/-- VTBL, VTBL2 and VCOMPRESS (04 Table 4-6). -/
def Vec.permute (v : Vec) (k : VCmd) (op : V1Op) (d : V1Body) : Vec :=
  let n := vtBytes k.vtype
  let on := fun (i : Nat) => v.kbit d.km.toNat i
  if op = .vcompress then
    let src := ((List.range k.vl).filter on).map fun i => v.elem d.fn.toNat n i
    (List.range src.length).foldl (fun u i => u.setElem d.vr.toNat n i (src.getD i 0)) v
  else
    let top := if op = .vtbl2 then 2 * vlmax k.vtype else vlmax k.vtype
    (List.range k.vl).foldl (fun u i =>
      let j := v.elem d.vi.toNat n i
      u.put k d.vr.toNat n i (on i) (if j < top then v.elem d.fn.toNat n j else 0)) v

/-! ## Registers a command names (04 R110) -/

/-- The vector registers a command reads or writes, and its mask registers as 32 + k. -/
def VCmd.regs (k : VCmd) : List Nat :=
  let a0 := match k.v0 with
    | some (op, d) =>
      let n := vtBytes k.vtype
      let sb := cvtSrcBytes d.fn.toNat (vtSew k.vtype)
      let grp := fun (r cnt : Nat) => (List.range cnt).map fun i => r + i
      match op with
      | .vfcvt => grp d.vd.toNat (max 1 (n / sb)) ++ grp d.vs2.toNat (max 1 (sb / n)) ++ [32 + d.km.toNat]
      | .kop => [32 + d.vd.toNat % 8, 32 + d.vs1.toNat % 8, 32 + d.vs2.toNat % 8]
      | .vfcmp | .vcmp => [32 + d.vd.toNat % 8, d.vs2.toNat, 32 + d.km.toNat] ++ (if d.sc then [] else [d.vs1.toNat])
      | _ => [d.vd.toNat, d.vs2.toNat, 32 + d.km.toNat] ++ (if d.sc then [] else [d.vs1.toNat])
    | none => []
  let a1 := match k.v1 with
    | some (op, d) =>
      match op with
      | .vkld | .vkst => [32 + d.vr.toNat % 8]
      | .vldx | .vstx => [d.vr.toNat, d.vi.toNat, 32 + d.km.toNat]
      | .vtbl => [d.vr.toNat, d.vi.toNat, d.fn.toNat, 32 + d.km.toNat]
      | .vtbl2 => [d.vr.toNat, d.vi.toNat, d.fn.toNat, d.fn.toNat + 1, 32 + d.km.toNat]
      | .vcompress => [d.vr.toNat, d.fn.toNat, 32 + d.km.toNat]
      | .vpost | .vwait | .vsetvl => []
      | _ => [d.vr.toNat, 32 + d.km.toNat]
    | none => []
  a0 ++ a1

/-- The registers a command writes, numbered the same way. -/
def VCmd.writes (k : VCmd) : List Nat :=
  (match k.v0 with
  | some (op, d) =>
    match op with
    | .vfcvt => (List.range (max 1 (vtBytes k.vtype / cvtSrcBytes d.fn.toNat (vtSew k.vtype)))).map fun i => d.vd.toNat + i
    | .kop | .vfcmp | .vcmp => [32 + d.vd.toNat % 8]
    | _ => [d.vd.toNat]
  | none => []) ++
  (match k.v1 with
  | some (op, d) =>
    match op with
    | .vkld => [32 + d.vr.toNat % 8]
    | .vld | .vlds | .vldx | .vtbl | .vtbl2 | .vcompress => [d.vr.toNat]
    | _ => []
  | none => [])

/-- Whether one of two commands writes a register that the other names. -/
def VCmd.clash (k q : VCmd) : Bool := k.writes.any q.regs.contains || q.writes.any k.regs.contains

/-- Whether a command waits for the registers of an older one that has not finished: an outstanding load, or the memory pipe's command (04 R110). -/
def Vec.blocked (v : Vec) (k : VCmd) : Bool :=
  (v.reqs.any fun r => k.regs.contains (if r.mask then 32 + r.reg else r.reg)) ||
  match v.mem with | some q => k.clash q | none => false

/-! ## Stopping the arithmetic pipe (04 R126) -/

/-- Whether a V0 operation runs to completion: it is never stopped part way. -/
def runsWhole (op : V0Op) : Bool := isRed op || match op with | .kop | .kpop => true | _ => false

/-- The beat boundary at which stop number `n` finds a command that began at element `lo`. -/
def beatAt (n lo vl : Nat) : Nat := 32 * (lo / 32 + 1 + Config.stopBeat n % max 1 ((vl - lo + 31) / 32))

/-- One register takes what it holds in another unit: registers 0 to 31, then the masks. -/
def Vec.takeReg (u p : Vec) (r : Nat) : Vec :=
  if r < 32 then { u with vreg := Mem.put u.vreg (0x400 * r) (Mem.bytes p.vreg (0x400 * r) 0x400) }
  else { u with kreg := Mem.put u.kreg (0x80 * (r - 32)) (Mem.bytes p.kreg (0x80 * (r - 32)) 0x80) }

/-- The registers and flags of a run that has done the elements below `b` alone: every other element of its destination holds what it held. -/
def Vec.rewind (v : Vec) (a : ArithRun) (b : Nat) : Vec × NF :=
  match a.cmd.v0 with
  | none => (v, {})
  | some (op, d) =>
    let md := a.cmd.numctl.getD (false, false)
    let p := ({ v with vreg := a.vreg, kreg := a.kreg }).v0 { a.cmd with vl := b } op d md.1 md.2 a.lo
    (a.cmd.writes.foldl (fun u r => u.takeReg p.1 r) v, p.2)

/-- The arithmetic run that stop number `stops` finds unfinished. -/
def Vec.part (v : Vec) : Option ArithRun := v.arith.filter fun a => decide (beatAt v.stops a.lo a.cmd.vl < a.cmd.vl)

/-- The registers as a stop finds them, and the flags of an unfinished run. -/
def Vec.asStopped (v : Vec) : Vec × NF :=
  match v.part with | some a => v.rewind a (beatAt v.stops a.lo a.cmd.vl) | none => (v, {})

/-- Whether the memory pipe is at a beat boundary of its command: VKLD and VKST run to completion. -/
def Vec.atBeat (v : Vec) : Bool :=
  match v.mem with
  | none => true
  | some k => v.ready.isEmpty && v.tail.isEmpty && decide (v.mnext % 32 = 0) && match k.v1 with | some (.vkld, _) | some (.vkst, _) => false | _ => true

/-- The pipes stop (04 R126, R127): the unfinished commands are the oldest of the queue again, each with its resume index, and keep the modes that they
started with. -/
def Mast.vecHalt (x : Mast) : Mast :=
  let v := x.vec
  let b := match v.part with | some a => beatAt v.stops a.lo a.cmd.vl | none => v.vidxA.toNat
  let fl := match v.part with
    | some a => (x.num.flags &&& ~~~(a.flags.zeroExtend 32)) ||| BitVec.ofNat 32 v.asStopped.2.toNat
    | none => x.num.flags
  let ac := (v.part.map (·.cmd)).toList
  let back := if v.part.any (·.first) then ac ++ v.mem.toList else v.mem.toList ++ ac
  let q := back ++ v.queue
  { x with
    num := { x.num with flags := fl }
    vec := { v.asStopped.1 with
                      queue := q, extra := if back.isEmpty then v.extra else surplus q, mem := none, mnext := 0, ready := [], tail := [], arith := none
                      vidxA := BitVec.ofNat 10 b, vidxM := if v.mem.isSome then BitVec.ofNat 10 v.mnext else v.vidxM
                      stopped := true, stopReq := false, faulted := v.failing, failing := false, stops := v.stops + 1 } }

end Sys2Proof.Machine
end

