-- ==== Sys2Proof/Machine/VecUnit.lean ====
section
/-!
DEFINITION. The long-vector unit at work (04 R108-R129): its commands start in queue order, each as soon as nothing
holds it: V0 commands in the arithmetic pipe, V1 commands in the memory pipe. Loads leave as requests whose elements are written when they return. Arithmetic
commands act in one step, and a stop may find the last one at an earlier beat (log entry 27).
-/

namespace Sys2Proof.Machine

/-- Set sticky flags of NUM_FLAGS: group 0 long-vector unit, 1 main, 2 mizzen, 3 sheet (05 Table 5-11). -/
def Mast.setFlags (x : Mast) (grp : Nat) (f : NF) : Mast :=
  { x with num := { x.num with flags := x.num.flags ||| BitVec.ofNat 32 (f.toNat * 2 ^ (8 * grp)) } }

/-- What one element of a memory command needs: its index, its address, and how its check came out. -/
inductive VChk where
  | ok (pa : BitVec 52)
  | miss
  | align
  | fault (kind lvl : Nat)
  deriving DecidableEq, Repr

/-- The address of element `i` of a memory command (04 Table 4-6, R122). -/
def Vec.addr (v : Vec) (k : VCmd) (op : V1Op) (d : V1Body) (i : Nat) : Word :=
  let n := vtBytes k.vtype
  match op with
  | .vlds | .vsts => k.ea + BitVec.ofNat 64 i * k.stride
  | .vldx | .vstx => k.ea + BitVec.ofNat 64 (v.elem d.vi.toNat n i * n)
  | .vkld | .vkst => k.ea
  | _ => k.ea + BitVec.ofNat 64 (n * i)

/-- Check one element (04 R122, R127): its address, its alignment, its translation, permission and region. An element that is misaligned and has no
translation or permission fails for its alignment, and an address with bits above 55 set records LEVEL 0 (log entry 93). -/
def State.vcheck (s : State) (m : MastId) (k : VCmd) (wr : Bool) (n : Nat) (a : Word) : VChk :=
  if wfld a 56 8 ≠ 0 then .fault 1 0
  else if a.toNat % n ≠ 0 then .align
  else match s.xlate m 1 a.toNat k.level (!wr) wr with
    | .ok pa _ => .ok pa
    | .miss => .miss
    | .fault kind lvl => .fault kind lvl

/-- The active elements of a memory command from `lo` up to, not including, `hi`. -/
def Vec.active (v : Vec) (k : VCmd) (d : V1Body) (lo hi : Nat) : List Nat :=
  ((List.range (min hi k.vl - lo)).map fun j => lo + j).filter fun i => v.kbit d.km.toNat i

/-- Whether a memory command checks and accesses element by element: a gather or a scatter (04 R127). -/
def isIndexed (op : V1Op) : Bool := match op with | .vldx | .vstx => true | _ => false

/-- The record of a fault of the long-vector unit (13 Table 13-4). -/
def vecFault (k : VCmd) (kind lvl : Nat) (wr : Bool) (a : Word) (i : Nat) : XFault :=
  { e := 1, kind := BitVec.ofNat 3 kind, lvl := BitVec.ofNat 2 lvl, wr := wr, plv := k.level, side := 0
    va := a.setWidth 56, pc := k.pc, detail := BitVec.ofNat 32 i, slot := 3, st := .pending }

/-- A fault of the memory pipe (04 R127): KIND, the failing element and the resume index are recorded, and no element from there on is accessed. -/
def Vec.enterFault (v : Vec) (kind : Nat) (va : BitVec 56) (pc : BitVec 17) (wr : Bool) (elem idx : Nat) : Vec :=
  { v with failing := true, mnext := idx, ready := [], tail := [], faultVa := va, faultPc := pc, faultWr := wr
           faultKind := BitVec.ofNat 3 kind, faultElem := BitVec.ofNat 10 elem }

/-- Whether no access of the unit is under way: every request has returned and every write is acknowledged. -/
def State.vecQuiet (s : State) (m : MastId) : Bool := (s.mast m).vec.reqs.isEmpty && !s.acksDue m 1 fun _ => true

/-- A unit that has recorded a fault stops once its earlier accesses are complete (04 R126, R127). -/
def State.vecSettle (s : State) (m : MastId) : State := if (s.mast m).vec.failing && s.vecQuiet m then s.modMast m Mast.vecHalt else s

/-- A fault of the memory pipe: the unit stops when its earlier accesses are complete. -/
def State.vecFails (s : State) (m : MastId) (kind : Nat) (va : BitVec 56) (pc : BitVec 17) (wr : Bool) (elem idx : Nat) : State :=
  (s.modVec m fun v => v.enterFault kind va pc wr elem idx).vecSettle m

/-- Write bytes from the long-vector unit to local memory, or send them to another module in a class, to be acknowledged (04 R124, 12 R311). -/
def State.engWrite (s : State) (m : MastId) (cls : Nat) (pa : BitVec 52) (bs : List Byte) : State :=
  if s.isOwn pa then s.writeBytes (localOf pa) bs
  else (s.awaitAck m 1 cls pa).sendTo (s.mastBlock m) (nodeOf pa) (dieOf m).val (Fin.ofNat 3 cls) (.wru pa bs (s.mastJobid m) none)

/-- A masked write of the bytes of one line to another module: one message with its byte mask, to be acknowledged (12 Table 12-2). -/
def State.engMask (s : State) (m : MastId) (cls : Nat) (lo n : Nat) (ws : List (Nat × List Byte)) : State :=
  let byte := fun (a : Nat) => ws.findSome? fun w => if w.1 ≤ a then w.2[a - w.1]? else none
  let pa : BitVec 52 := BitVec.ofNat 52 lo
  (s.awaitAck m 1 cls pa).sendTo (s.mastBlock m) (nodeOf pa) (dieOf m).val (Fin.ofNat 3 cls) (.wruMask pa ((List.range n).map fun i => byte (lo + i)) (s.mastJobid m))

/-- Merge elements at consecutive addresses into one write (12 R331). -/
def mergeRuns : List (Nat × List Byte) → List (Nat × List Byte)
  | (a, x) :: rest =>
    match mergeRuns rest with
    | (b, y) :: t => if a + x.length = b then (a, x ++ y) :: t else (a, x) :: (b, y) :: t
    | [] => [(a, x)]
  | [] => []

/-- The elements of `is` as checked, up to and including the first that is not ok. -/
def State.vchecks (s : State) (m : MastId) (k : VCmd) (op : V1Op) (d : V1Body) (n : Nat) : List Nat → List (Nat × Word × VChk)
  | [] => []
  | i :: is =>
    let a := (s.mast m).vec.addr k op d i
    match s.vcheck m k op.isStore n a with
    | .ok pa => (i, a, .ok pa) :: State.vchecks s m k op d n is
    | c => [(i, a, c)]

/-- The bytes that element `i` of a store writes; K0 reads as all ones (04 R104). -/
def Vec.storeData (v : Vec) (op : V1Op) (d : V1Body) (n i : Nat) : List Byte :=
  if op = .vkst then (if d.vr.toNat % 8 = 0 then List.replicate 128 0xFF else Mem.bytes v.kreg (0x80 * (d.vr.toNat % 8)) 128)
  else toBytes n (v.elem d.vr.toNat n i)

/-- The class in which a memory command travels outside the own slice (04 R123). -/
def vcls (op : V1Op) : Nat := if isIndexed op then 0 else 1

/-- The requests of checked elements: consecutive elements of one line share one, but in a gather or scatter each has its own (04 R121, R123). -/
def visits (apart : Bool) : List (Nat × BitVec 52) → List (List (Nat × BitVec 52))
  | [] => []
  | e :: es =>
    match visits apart es with
    | (f :: g) :: t => if !apart && decide (e.2.toNat / 128 = f.2.toNat / 128) then (e :: f :: g) :: t else [e] :: (f :: g) :: t
    | t => [e] :: t

/-- The bytes that the elements of one request span: the least address and the length. -/
def spanOf (n : Nat) (g : List (Nat × BitVec 52)) : Nat × Nat :=
  let as := g.map fun e => e.2.toNat
  let lo := as.foldl min (as.headD 0)
  (lo, as.foldl max 0 + n - lo)

/-- One request: a store writes its elements, a load leaves its request (04 R123-R125). -/
def State.vaccess (s : State) (m : MastId) (op : V1Op) (d : V1Body) (n : Nat) (g : List (Nat × BitVec 52)) : State :=
  let v := (s.mast m).vec
  if op.isStore then
    let ws := mergeRuns (g.map fun e => (e.2.toNat, v.storeData op d n e.1))
    let sp := spanOf n g
    if 1 < ws.length ∧ g.all (fun e => !s.isOwn e.2) then s.engMask m (vcls op) sp.1 sp.2 ws
    else ws.foldl (fun t w => t.engWrite m (vcls op) (BitVec.ofNat 52 w.1) w.2) s
  else
    let reg := if op = .vkld then d.vr.toNat % 8 else d.vr.toNat
    let far := (g.head?.map fun e => e.2).filter fun pa => !s.isOwn pa
    let s := match far with
      | some pa => let sp := spanOf n g; s.sendTo (s.mastBlock m) (nodeOf pa) (dieOf m).val (Fin.ofNat 3 (vcls op)) (.rdu (BitVec.ofNat 52 sp.1) sp.2 (s.mastJobid m))
      | none => s
    ({ s with order := s.order + 1 } : State).modVec m fun v =>
      { v with reqs := v.reqs ++ g.map (fun e => { grp := v.nextGrp + 1, elem := e.1, n := n, pa := e.2, reg := reg, mask := decide (op = .vkld), cls := vcls op, ord := s.order })
               nextGrp := v.nextGrp + 1 }

/-- How many requests are outstanding: lines and elements that have not returned, and writes without their acknowledgement. -/
def State.vecOut (s : State) (m : MastId) : Nat :=
  (((s.mast m).vec.reqs.map (·.grp)).eraseDups).length + (s.acks.filter fun a => decide (a.m = m ∧ a.e = 1)).length

/-- Whether an address lies in the own canvas slice of a mast. -/
def State.inSlice (s : State) (m : MastId) (pa : BitVec 52) : Bool := s.isOwn pa && decide (placeOf (localOf pa) = .canvas m)

/-- Whether two addresses of this module have one destination: the canvas slice of a mast, or the home of a line (01 R28, R17). -/
def State.sameDest (s : State) (a b : BitVec 52) : Bool :=
  s.isOwn a && s.isOwn b &&
  match placeOf (localOf a), placeOf (localOf b) with
  | .canvas k, .canvas l => decide (k = l)
  | .hbm, .hbm => decide (homeOf (localOf a) = homeOf (localOf b))
  | _, _ => false

/-- Whether an older post of the long-vector unit is still on its way to the mast whose canvas slice an access of class 1 is for (01 R28). -/
def State.postAhead (s : State) (m : MastId) (cls : Nat) (pa : BitVec 52) (ord : Nat) : Bool :=
  cls == 1 && s.posts.any fun p => decide (p.src = .engine m 1 ∧ p.seq ≤ ord ∧ tokenNode p.addr = s.nodeId) && s.isOwn pa && sameMast pa p.addr

/-- Whether a request waits: an older load has not read the line that a store writes, 64 requests are outstanding, older writes of another class are not
acknowledged (04 R123, R124), or what the unit sent before in the class to the destination of a store has not reached it (01 R28). -/
def State.vheld (s : State) (m : MastId) (op : V1Op) (g : List (Nat × BitVec 52)) : Bool :=
  g.any fun e =>
    (op.isStore && s.isOwn e.2 && ((s.mast m).vec.reqs.any fun r =>
      decide (r.pa.toNat / 128 = e.2.toNat / 128) || (decide (r.cls = vcls op) && s.sameDest r.pa e.2))) ||
    (op.isStore && s.postAhead m (vcls op) e.2 s.order) ||
    ((!op.isStore || !s.isOwn e.2) && decide (64 ≤ s.vecOut m)) ||
    (!s.inSlice m e.2 && s.acksDue m 1 fun a => a.tag ≠ (vcls op))

/-- The lines of this module's HBM that a store writes: their homes take the write or refuse it (12 R321). -/
def State.vlines (s : State) (op : V1Op) (n : Nat) (g : List (Nat × BitVec 52)) : List Line :=
  if op.isStore then (g.flatMap fun e => if s.isOwn e.2 then linesOf (localOf e.2) n else []).eraseDups else []

/-- The requests of the current beat leave in order until one waits. -/
def State.vdrain (s : State) (m : MastId) (op : V1Op) (d : V1Body) (n : Nat) : List (List (Nat × BitVec 52)) → State
  | [] => s.modVec m fun v => { v with ready := [] }
  | g :: rest =>
    let stay := fun (t : State) => t.modVec m fun v => { v with ready := g :: rest }
    if s.vheld m op g then stay s
    else
      let q := s.ask (.vec m) (s.vlines op n g)
      if q.2 then State.vdrain (q.1.vaccess m op d n g) m op d n rest else stay q.1

/-- The masked-off destination elements of a load from `lo` up to, not including, `hi` become zero under VTYPE.MZ (04 R107). -/
def Vec.zeroOff (v : Vec) (k : VCmd) (op : V1Op) (d : V1Body) (lo hi : Nat) : Vec :=
  match op with
  | .vld | .vlds | .vldx =>
    if wbit k.vtype 6 then
      (((List.range (min hi k.vl - lo)).map (lo + ·)).filter fun i => !v.kbit d.km.toNat i).foldl
        (fun v i => v.setElem d.vr.toNat (vtBytes k.vtype) i 0) v
    else v
  | _ => v

/-- VKLD and VKST act on a mask as a whole. -/
def wholeMask (op : V1Op) : Bool := match op with | .vkld | .vkst => true | _ => false

/-- The bytes of an element of a memory command. -/
def memBytes (k : VCmd) (op : V1Op) : Nat := if wholeMask op then 128 else vtBytes k.vtype

/-- The line that waited for the next beat is accessed. -/
def Vec.flushTail (v : Vec) : Vec := { v with ready := [v.tail], tail := [] }

/-- The elements of the beat of `lo` are checked (04 R126, R127): those of a unit-stride or strided command together, those of a gather or scatter up to the
first that fails. The last line of a beat waits for the elements that the next beat may have in it, so that they share one request (04 R121, R123). The state
afterwards, and whether the pipe may go on. -/
def State.vbeat (s : State) (m : MastId) (k : VCmd) (op : V1Op) (d : V1Body) (lo : Nat) : State × Bool :=
  let v := (s.mast m).vec
  let hi := lo - lo % 32 + 32
  let is := if wholeMask op then [0] else v.active k d lo hi
  let cs := s.vchecks m k op d (memBytes k op) is
  let good := cs.filterMap fun c => match c.2.2 with | .ok pa => some (c.1, pa) | _ => none
  let bad := cs.find? fun c => match c.2.2 with | .ok _ => false | _ => true
  let s := s.useXlate m 1 (cs.map fun c => c.2.1.toNat)
  let go := fun (es : List (Nat × BitVec 52)) (next : Nat) =>
    let gs := visits (isIndexed op) (v.tail ++ es)
    let more := !isIndexed op && !wholeMask op && decide (next < k.vl)
    let s := s.modVec m fun v =>
      { (v.zeroOff k op d lo next) with
          ready := if more then gs.dropLast else gs, tail := if more then gs.getLast?.getD [] else [], mnext := next }
    if isIndexed op then s.bumpBy m 0x30040 es.length else s
  match bad with
  | none => (go good hi, true)
  | some (i, a, c) =>
    if isIndexed op && !good.isEmpty then (go good i, true)
    else if !v.tail.isEmpty then (s.modVec m Vec.flushTail, true)
    else
      let at' := if isIndexed op then i else lo
      let s := s.modVec m fun v => { (v.zeroOff k op d lo at') with mnext := at' }
      match c with
      | .miss => (s.addMiss m (vecFault k 1 0 op.isStore a i), false)
      | .align => (s.vecFails m 3 (a.setWidth 56) k.pc op.isStore i at', false)
      | .fault kind lvl => (s.addFault m (vecFault k kind lvl op.isStore a i), false)
      | .ok _ => (s, false)

/-- The memory pipe goes on with its command: the state, and whether it got further. A pipe that is to stop goes on to its next beat boundary
(04 R126). -/
def State.vmem (s : State) (m : MastId) : State × Bool :=
  let v := (s.mast m).vec
  match v.mem with
  | none => (s, false)
  | some k =>
    match k.v1 with
    | none => (s, false)
    | some (op, d) =>
      if !v.ready.isEmpty then
        let t := s.vdrain m op d (memBytes k op) v.ready
        (t, (t.mast m).vec.ready.isEmpty)
      else if (if wholeMask op then 1 else k.vl) ≤ v.mnext then
        (s.modVec m fun v => { v with mem := none, mnext := 0, arith := v.arith.map fun a => { a with first := true } }, true)
      else if v.stopReq && !v.tail.isEmpty then (s.modVec m Vec.flushTail, true)
      else if v.stopReq && v.atBeat then (s, false)
      else s.vbeat m k op d v.mnext

/-- The NUM_CTL modes of a command: captured at its start (05 R153). -/
def Mast.modesOf (x : Mast) (k : VCmd) : Bool × Bool :=
  match k.numctl with | some p => p | none => (x.num.ovm, x.num.ftz)

/-- The oldest command leaves the queue as it starts; a younger command that names its registers ends the choice of where a stop finds the arithmetic
pipe's last command. -/
def Vec.pop (v : Vec) (k : VCmd) : Vec :=
  { v with queue := v.queue.drop 1, extra := v.extra - 1, arith := v.arith.filter fun a => !k.clash a.cmd }

/-- A V0 command runs, from the resume index of its pipe, which then returns to 0 (04 R129). -/
def State.vecArith (s : State) (m : MastId) (k : VCmd) (op : V0Op) (d : V0Body) : State :=
  let x := s.mast m
  let md := x.modesOf k
  let r := x.vec.v0 k op d md.1 md.2 x.vec.vidxA.toNat
  let fl := BitVec.ofNat 8 r.2.toNat
  let run : ArithRun :=
    { cmd := { k with numctl := some md }, lo := x.vec.vidxA.toNat, vreg := x.vec.vreg, kreg := x.vec.kreg
      flags := fl &&& ~~~(x.num.flags.setWidth 8), first := x.vec.mem.isNone }
  (s.modVec m fun v => { (v.pop k) with vreg := r.1.vreg, kreg := r.1.kreg, vidxA := 0, arith := if runsWhole op then none else some run }).modMast m fun x =>
    x.setFlags 0 r.2

/-- Whether a memory command must wait with its start for the acknowledgement of older writes (04 R124): those of another class are outstanding, and an
active element lies outside the own slice, or where is not yet known. -/
def State.startHeld (s : State) (m : MastId) (k : VCmd) (op : V1Op) (d : V1Body) : Bool :=
  let v := (s.mast m).vec
  let out := fun (i : Nat) =>
    match s.xlate m 1 (v.addr k op d i).toNat k.level (!op.isStore) op.isStore with
    | .ok pa _ => !s.inSlice m pa
    | _ => true
  (s.acksDue m 1 fun a => a.tag ≠ (vcls op)) && (if wholeMask op then [0] else v.active k d v.vidxM.toNat k.vl).any out

/-- The head command starts if nothing holds it: the state, and whether it has left the queue. A V0 command needs its registers; a V1 command needs the
memory pipe (04 R109, R110). -/
def State.vhead (s : State) (m : MastId) (k : VCmd) : State × Bool :=
  let v := (s.mast m).vec
  let pop := fun (t : State) => (t.modVec m fun v => { (v.pop k) with vidxM := 0 }).clearStall m 1
  if v.blocked k then (s, false)
  else
    match k.v0, k.v1 with
    | some (op, d), _ => ((s.vecArith m k op d).clearStall m 1, true)
    | none, some (op, d) =>
      if v.mem.isSome then (s, false)
      else if k.vl = 0 ∧ !wholeMask op then (pop s, true)
      else if op.isMem then
        if s.startHeld m k op d then (s, false) else
        (pop (s.modVec m fun v => { v with mem := some k, mnext := if wholeMask op then 0 else v.vidxM.toNat, ready := [], tail := [] }), true)
      else if op = .vwait then
        (let is := maskSlots 1 d.low8 8
         if s.haveTokens m is then (pop (s.consume m is), true) else (s, false))
      else if op = .vpost then (pop (s.postFrom m 1 (k.stride.setWidth 32)), true)
      else (pop (s.modVec m fun v => v.permute k op d), true)
    | none, none => (pop s, true)

/-- Whether the pipes may go on. -/
def State.vecRuns (s : State) (m : MastId) : Bool :=
  let x := s.mast m
  s.engSet m 1 && !x.vec.stopped && !x.vec.failing && (x.xl.faultOf 1).isNone

/-- The pipes go on until both are held: the memory pipe with its command, and the queue with its oldest, in order (04 R109). -/
def State.vecGo (s : State) (m : MastId) : Nat → State
  | 0 => s
  | fuel + 1 =>
    if !s.vecRuns m then s
    else
      let r := s.vmem m
      if r.2 then State.vecGo r.1 m fuel
      else if !r.1.vecRuns m || (r.1.mast m).vec.stopReq then r.1
      else
        match (r.1.mast m).vec.queue with
        | [] => r.1
        | k :: _ =>
          let q := r.1.vhead m k
          if q.2 then State.vecGo q.1 m fuel else q.1

/-- The long-vector unit of a mast goes on as far as it can. -/
def State.vecAdvance (s : State) (m : MastId) : State := (s.vecGo m 2048).vecSettle m

/-- One returned element of a load is written (04 R123): its bytes come from local memory, or from the message. -/
def State.vecWrite (s : State) (m : MastId) (r : VReq) (bs : List Byte) : State :=
  s.modVec m fun v =>
    if r.mask then { v with kreg := Mem.put v.kreg (0x80 * r.reg) bs }
    else { v with vreg := Mem.put v.vreg (0x400 * r.reg + r.n * r.elem) bs }

/-- VECTOR_LOAD_RETURN: the oldest request returns and its elements are written; what it sent to their mast before has reached it (01 R28); a poisoned line or word is a fault of
the job (04 R128, 12 R331). `remote` is the answer to a request that left the module; of one that this module refuses no element is written (15 R393; log entry
125). -/
def State.vecReturn (s : State) (m : MastId) (remote : RemoteData) : State :=
  match (s.mast m).vec.reqs with
  | [] => s
  | r0 :: _ =>
    if s.postAhead m r0.cls r0.pa r0.ord then s else
    let mine := (s.mast m).vec.reqs.takeWhile fun r => r.grp = r0.grp
    let g := s.ask (.vec m) ((mine.flatMap fun r => if s.isOwn r.pa then linesOf (localOf r.pa) r.n else []).eraseDups)
    if !g.2 then g.1
    else
      let s := g.1
      let base := (spanOf 0 (mine.map fun r => (0, r.pa))).1
      let far := mine.filter fun r => !s.isOwn r.pa
      let g := match far with
        | r :: _ => s.answered m 1 r.pa remote.jobid remote.refused 1
        | [] => (s, true)
      let s := g.1
      let q := (if g.2 then mine else mine.filter fun r => s.isOwn r.pa).foldl (fun (acc : State × Bool) r =>
        if acc.1.isOwn r.pa then
          let g := acc.1.readBytes (localOf r.pa) r.n
          (g.1.vecWrite m r g.2.1, acc.2 || g.2.2)
        else
          let bs := (remote.bytes.drop (r.pa.toNat - base)).take r.n
          (acc.1.vecWrite m r (bs ++ toBytes (r.n - bs.length) 0), acc.2 || remote.poison)) (s, false)
      let s := q.1.modVec m fun v => { v with reqs := v.reqs.filter fun r => r.grp ≠ r0.grp }
      let s := if q.2 then s.jobFault m 1 1 else s
      s.vecAdvance m

end Sys2Proof.Machine
end

