-- ==== Sys2Proof/Machine/Accum.lean ====
section
/-!
DEFINITION. The arithmetic of the arrays (05 R136-R139; 06 R156-R162; 07 R188-R202): operand formats and sources,
the panel layout, the block sum with its 80-bit window, its rounding into a tile entry, and the block checksums (11 R277).
-/

namespace Sys2Proof.Machine

/-! ## Checksums (11 R277) -/

/-- One bit of CRC-32C, reflected. -/
def crcBit (c : Nat) : Nat := if c % 2 = 1 then Nat.xor (c / 2) 0x82F63B78 else c / 2
/-- One byte. -/
def crcByte (c : Nat) (b : Byte) : Nat :=
  crcBit (crcBit (crcBit (crcBit (crcBit (crcBit (crcBit (crcBit (Nat.xor c b.toNat))))))))
/-- CRC-32C of bytes in increasing address order. -/
def crc32c (bs : List Byte) : Nat := Nat.xor (bs.foldl crcByte 0xFFFFFFFF) 0xFFFFFFFF

/-- Whether the canvas block that holds a local address fails its check: VALID is 0 or the CRC differs (11 R279). -/
def State.crcBad (s : State) (pa : Nat) : Bool :=
  let e := Sparse.get s.check (blockOf pa)
  !wbit e 32 || decide (crc32c (Mem.bytes s.ram (pa - pa % 4096) 4096) ≠ wfld e 0 32)

/-- The bytes of a canvas block as an engine that writes it with checksums wrote them (11 R279). -/
def State.madeBlock (s : State) (m : MastId) (e : EngId) (pa : Nat) : List Byte :=
  let a := pa - pa % 4096
  let others := match s.making.find? fun k => decide (k.m = m ∧ k.e = e ∧ k.blk = blockOf pa) with | some k => k.foreign | none => []
  (List.range 4096).map fun i => match others.find? fun p => p.1 = a + i with | some p => p.2 | none => Sparse.get s.ram (a + i)

/-- A writer that keeps checksums enters the CRC of what it wrote into a canvas block (11 R279): bytes of others that came between do not enter it, so the
next verify finds them. -/
def State.setCrc (s : State) (m : MastId) (e : EngId) (pa : Nat) : State :=
  let v : Word := BitVec.ofNat 64 (2 ^ 32 + crc32c (s.madeBlock m e pa))
  { s with check := Sparse.set s.check (blockOf pa) v
           making := s.making.filter fun k => !decide (k.m = m ∧ k.e = e ∧ k.blk = blockOf pa) }

/-! ## Formats and scales -/

/-- An input format by its code (06 Table 6-5). -/
def fmtOf (code : Nat) : NFmt :=
  match code with
  | 0 => .flt fp64 | 1 => .flt fp32 | 2 => .flt bf16 | 3 => .flt fp16 | 4 => .flt fe4m3 | 5 => .flt fe5m2
  | 6 => .int 8 true | 7 => .int 8 false | 8 => .int 4 true | _ => .int 4 false

/-- Whether a code is an integer format. -/
def isIntCode (code : Nat) : Bool := decide (6 ≤ code)

/-- The accumulator type of a pair: 1 FP32, 2 INT32, 3 FP64 (05 R137). -/
def accType (r c : Nat) : Nat := if isIntCode r && isIntCode c then 2 else if r = 0 ∨ c = 0 then 3 else 1

/-- A valid scale: a positive normal FP32 number (05 R138). -/
def scaleOk (v : Nat) : Bool := decide (v / 2 ^ 31 % 2 = 0) && decide (1 ≤ fld v 23 8 ∧ fld v 23 8 ≤ 254)
/-- A scale as it is used, and whether SI is set (05 R139). -/
def useScale (v : Nat) : Nat × Bool := if scaleOk v then (v, false) else (0x3F800000, true)

/-- The exact product of two finite values and zeros and infinities; NaN for 0 × ∞. -/
def exactMul (a b : FVal) : FVal := (a.mul b).1.toF

/-! ## Operand sources (06 R159-R162) -/

/-- Bits of a byte memory, given by an accessor. -/
def bitsAt (f : Nat → Byte) (bit w : Nat) : Nat :=
  ofBytes ((List.range (cdiv (bit % 8 + w) 8)).map fun i => f (bit / 8 + i)) / 2 ^ (bit % 8) % 2 ^ w

/-- Consecutive k per group, and lines per group, of a panel (06 R160). -/
def panelG (lanes w : Nat) : Nat := max 1 (1024 / (lanes * w))
def panelN (lanes w : Nat) : Nat := max 1 (lanes * w / 1024)
/-- The bit offset of element (lane, k) in a panel. -/
def panelBit (lanes w l k : Nat) : Nat :=
  let g := panelG lanes w
  let q := k / g
  1024 * panelN lanes w * q + ((l + q) % lanes * g + k % g) * w
/-- The size of a panel in bytes. -/
def panelSize (lanes w kk : Nat) : Nat := 128 * panelN lanes w * kk / panelG lanes w

/-- Fields of a source word (06 Table 6-6). -/
def srcBank (w : Nat) : Bool := decide (w % 2 = 1)
def srcOff (w : Nat) : Nat := fld w 7 19 * 128

/-- An element of an operand from its source word: a canvas panel or a shared bank. -/
def srcVal (canvas bank : Nat → Byte) (src lanes w l k : Nat) : Nat :=
  if srcBank src then
    let r0 := fld src 4 6
    let c0 := fld src 10 12
    let row := if fld src 3 1 = 1 then r0 + k else r0 + l
    let col := if fld src 3 1 = 1 then c0 + l else c0 + k
    bitsAt bank (0x8000 * 8 * fld src 1 2 + 4096 * row + col * w) w
  else bitsAt canvas (8 * srcOff src + panelBit lanes w l k) w

/-- A source word that a pass may not use (06 R162, R166): reserved bits, a panel that leaves the slice or its tier, or a
bank read outside the limits. -/
def srcBad (src lanes w kk : Nat) : Bool :=
  if srcBank src then
    let r0 := fld src 4 6
    let c0 := fld src 10 12
    let tr := fld src 3 1 = 1
    decide (fld src 22 10 ≠ 0) ||
    (if tr then decide (64 < r0 + kk ∨ 4096 / w < c0 + lanes) else decide (64 < r0 + lanes ∨ 4096 / w < c0 + kk))
  else
    let off := srcOff src
    let n := panelSize lanes w kk
    decide (fld src 1 6 ≠ 0 ∨ fld src 26 6 ≠ 0) || decide (0x4000000 < off + n) ||
    decide (tierOf off ≠ tierOf (off + n - 1))

/-! ## The block sum (07 R193-R198) -/

/-- What one product contributes: its exact value, and the flags of its operands. -/
structure Prod where
  v : FVal
  opNan : Bool
  sig : Bool
  deriving DecidableEq, Repr

/-- The product of two elements, times a scale (`m` × 2^`e`, m ≠ 0), with the flags of the decode (05 R144). -/
def mkProd (rf cf : NFmt) (ftz : Bool) (m : Nat) (e : Int) (r c : Nat) : Prod × NF :=
  let (vr, f1) := rf.take ftz r
  let (vc, f2) := cf.take ftz c
  let v := match exactMul vr vc with
    | .fin s mm ee => FVal.fin s (mm * m) (ee + e)
    | x => x
  ({ v := v, opNan := vr.isNan || vc.isNan, sig := vr.isSig || vc.isSig }, f1.or f2)

/-- The exponent of the leading bit of a product. -/
def topExp (p : Prod) : Option Int :=
  match p.v with
  | .fin _ m e => some ((Nat.log2 m : Int) + e)
  | _ => none

/-- The window sum of a block: (w, lsb, s), w × 2^lsb being the sum of the windowed products (07 R194). -/
def windowSum (ps : List Prod) : Option (Int × Int × Bool) :=
  match (ps.filterMap topExp).max? with
  | none => none
  | some emax =>
    let lsb := emax - 74
    some (ps.foldl (fun acc p =>
      match p.v with
      | .fin s m e =>
        if lsb ≤ e then (acc.1 + sgnInt s (m * 2 ^ (e - lsb).toNat), lsb, acc.2.2)
        else
          let k := (lsb - e).toNat
          (acc.1 + sgnInt s (m / 2 ^ k), lsb, acc.2.2 || decide (m % 2 ^ k ≠ 0))
      | _ => acc) ((0 : Int), lsb, false))

/-- z1 × 2^e1 + z2 × 2^e2, exactly, as an integer and its exponent. -/
def addExact (z1 : Int) (e1 : Int) (z2 : Int) (e2 : Int) : Int × Int :=
  let e := if e1 ≤ e2 then e1 else e2
  (z1 * (2 ^ (e1 - e).toNat : Int) + z2 * (2 ^ (e2 - e).toNat : Int), e)

/-- A float entry after a block (07 R195, R197, R198). -/
def floatBlock (f : FFmt) (ovm ftz : Bool) (acc : Nat) (ps : List Prod) : Nat × NF :=
  let a := f.decode acc
  let nanOp := ps.any (·.opNan)
  let sig := ps.any (·.sig)
  let zinf := ps.any fun p => decide (p.v = .nan false ∨ p.v = .nan true) && !p.opNan
  let infs := (ps.filterMap fun p => match p.v with | .inf s => some s | _ => none) ++
              (match a with | .inf s => [s] | _ => [])
  if nanOp || a.isNan || zinf || (infs.contains true && infs.contains false) then
    (f.nan, { iv := sig || zinf || (infs.contains true && infs.contains false) })
  else match infs with
    | s :: _ => (f.withSign s f.inf, {})
    | [] =>
      match windowSum ps with
      | none =>
        let neg := ps.all fun p => decide (p.v = .zero true)
        f.deliver ovm ftz (a.add (.zero neg)).1
      | some (w, lsb, st) =>
        let q : Int × Int := match a with
          | .fin s m e => addExact (sgnInt s m) e w lsb
          | _ => (w, lsb)
        if q.1 = 0 then f.deliver ovm ftz (.fin false 0 0 st)
        else f.deliver ovm ftz (.fin (decide (q.1 < 0)) q.1.natAbs q.2 st)

/-- An INT32 entry after a block (07 R195, R199). -/
def intBlock (acc : Nat) (ps : List Prod) : Nat × NF :=
  let a := signedOf 32 acc
  let r := match windowSum ps with
    | none => (a, false)
    | some (w, lsb, st) =>
      let q := addExact a 0 w lsb
      if 0 ≤ q.2 then (q.1 * (2 ^ q.2.toNat : Int), st)
      else
        let x := rneShift q.1.natAbs (-q.2).toNat st
        (sgnInt (decide (q.1 < 0)) x.1, x.2)
  if r.1 < -(2 ^ 31 : Int) then (wrapInt 64 (-(2 ^ 31 : Int)), { ov := true, ix := true })
  else if (2 ^ 31 : Int) - 1 < r.1 then (2 ^ 31 - 1, { ov := true, ix := true })
  else (wrapInt 64 r.1, { ix := r.2 })

/-- The 64-bit entry after a block of its tile's accumulator type (07 Table 7-1). -/
def entryBlock (type : Nat) (ovm ftz : Bool) (ent : Nat) (ps : List Prod) : Nat × NF :=
  match type with
  | 2 => intBlock ent ps
  | 3 => floatBlock fp64 ovm ftz ent ps
  | _ => floatBlock fp32 ovm ftz (ent % 2 ^ 32) ps

/-- The entry a pass with ACC = 0 starts from (07 R198). -/
def startEntry (type : Nat) : Nat := match type with | 2 => 0 | 3 => 2 ^ 63 | _ => 2 ^ 31

end Sys2Proof.Machine
end

