-- ==== Sys2Proof/Machine/Passes.lean ====
section
/-!
DEFINITION. A pass of an array (06 R163-R176, R186; 07 R188-R209): the fields and the checks of its descriptor, the operands it
reads, one k-step, and the faults of an array.
-/

namespace Sys2Proof.Machine

/-! ## Fields of a pass descriptor (06 Table 6-4) -/

/-- RIG is fore-and-aft. -/
def pdFore (d : Desc) : Bool := decide (dfld d 0 0 2 = 1)
/-- ACC. -/
def pdAcc (d : Desc) : Bool := dbit d 0 2
/-- CHK. -/
def pdChk (d : Desc) : Bool := dbit d 0 3
/-- RFMT. -/
def pdRfmt (d : Desc) : Nat := dfld d 0 4 4
/-- CFMT. -/
def pdCfmt (d : Desc) : Nat := dfld d 0 8 4
/-- TILE. -/
def pdTile (d : Desc) : Fin 16 := Fin.ofNat 16 (dfld d 0 12 4)
/-- TILE2. -/
def pdTile2 (d : Desc) : Fin 16 := Fin.ofNat 16 (dfld d 0 28 4)
/-- FOLUB. -/
def pdFolub (d : Desc) : Bool := dbit d 0 16
/-- REPEAT as it is honoured: Folub mode ignores it (07 R208). -/
def pdRepeat (d : Desc) : Bool := dbit d 0 17 && !pdFolub d
/-- KB. -/
def pdKb (d : Desc) : Nat := dfld d 0 18 10
/-- The slots a pass waits on, as slot numbers of its array. -/
def pdSlots (d : Desc) : List Nat :=
  (((List.range 4).filter fun i => dbit d 1 (16 + i)).map fun i => dfld d 1 (4 * i) 4).eraseDups
/-- The lanes of the row operand. -/
def rowLanes (fore : Bool) : Nat := if fore then 16 else 64
/-- The columns of the tile. -/
def tileCols (fore : Bool) : Nat := if fore then 256 else 64
/-- The width of a format code. -/
def codeWidth (c : Nat) : Nat := (fmtOf c).width
/-- The flat slot indices of slot numbers of array `a`. -/
def arrSlots (a : ArrId) (is : List Nat) : List (Fin 96) := is.map fun i => Fin.ofNat 96 (16 + 16 * a.val + i)

/-- A tile of an array. -/
def tileOf (a : ArrId) (t : Nat) : Bool := decide (t / 8 = a.val)

/-- A column operand that a pass may not use: of one panel or bank in the square rig, of two panels in different tiers in
the fore-and-aft rig (06 R161, R162, R166). -/
def colBad (fore : Bool) (c cb w k : Nat) : Bool :=
  if fore then srcBank c || srcBank cb || srcBad c 128 w k || srcBad cb 128 w k || decide (tierOf (srcOff c) = tierOf (srcOff cb))
  else srcBad c 64 w k

/-- The conditions of 06 R166 on the fields a pass and a batch descriptor share. -/
def codesBad (d : Desc) : Bool :=
  decide (2 ≤ dfld d 0 0 2) || decide (10 ≤ pdRfmt d) || decide (10 ≤ pdCfmt d) || decide (pdKb d = 0 ∨ 512 < pdKb d)

/-- A FOLUB bit that breaks a restriction of Folub mode but the fence (07 Table 7-6). -/
def folubBad (a : ArrId) (twin : Bool) (d : Desc) : Bool :=
  pdFolub d && (decide (a = 1) || twin || pdFore d || decide (pdRfmt d = 4) || decide (pdCfmt d = 4) ||
    (isIntCode (pdRfmt d) && isIntCode (pdCfmt d)))

/-- A pass descriptor that faults with kind DESC (06 R166, 07 R204, R206), apart from the fence of 07 R209. -/
def passBad (a : ArrId) (twin : Bool) (d : Desc) : Bool :=
  let k := 32 * pdKb d
  let fore := pdFore d
  codesBad d || decide (dfld d 0 32 32 ≠ 0) || decide (dfld d 1 22 42 ≠ 0) || decide (dword d 6 ≠ 0) || decide (dword d 7 ≠ 0) ||
  (!twin && (decide (dfld d 0 28 4 ≠ 0) || decide (dfld d 4 32 32 ≠ 0))) || (!fore && decide (dfld d 4 0 32 ≠ 0)) ||
  (if twin then !tileOf 0 (pdTile d).val || !tileOf 1 (pdTile2 d).val else !tileOf a (pdTile d).val) ||
  srcBad (dfld d 3 0 32) (rowLanes fore) (codeWidth (pdRfmt d)) k ||
  (twin && srcBad (dfld d 4 32 32) (rowLanes fore) (codeWidth (pdRfmt d)) k) ||
  colBad fore (dfld d 3 32 32) (dfld d 4 0 32) (codeWidth (pdCfmt d)) k || folubBad a twin d ||
  (!pdFolub d && dbit d 0 17 && pdAcc d)

/-- A pass descriptor that faults with kind TOKEN. -/
def passTokenBad (d : Desc) : Bool :=
  (dbit d 1 20 && badToken (BitVec.ofNat 32 (dfld d 2 0 32))) || (dbit d 1 21 && badToken (BitVec.ofNat 32 (dfld d 2 32 32)))

/-! ## Faults (06 R186) -/

/-- The job-fault kind of an array fault kind (18 Table 18-9). -/
def arrJobKind : Nat → Nat
  | 2 => 1 | 3 => 2 | 4 => 3 | _ => 4

/-- An array is asked to stop. -/
def Arr.ask (x : Arr) : Arr := if x.stopped then x else { x with stopReq := true }

/-- A stop of an array, which is a stop of both while a twin pass has not ended its issue or waits for its repeat (06 R176, R183). -/
def State.askStop (s : State) (m : MastId) (a : ArrId) : State :=
  if (s.array m a).passes.any fun p => p.cmd.twin && (!p.issued || p.rept) then (s.modArr m 0 Arr.ask).modArr m 1 Arr.ask else s.modArr m a Arr.ask

/-- An array faults: it records the fault, stops, and the job faults. DESIGN CHOICE: a fault while FAULTED is 1 is recorded in place of the one before (log entry
111). -/
def State.arrFault (s : State) (m : MastId) (a : ArrId) (kind tile kdone : Nat) (daddr : BitVec 12) (batch : Option (Fin 4))
    (pc : BitVec 17) : State :=
  ((s.modArr m a fun x =>
    { x with faulted := true, fKind := BitVec.ofNat 4 kind, fTile := BitVec.ofNat 4 tile
             fKdone := BitVec.ofNat 10 kdone, fDaddr := daddr, fBatch := batch.isSome
             fBq := match batch with | some q => BitVec.ofNat 2 q.val | none => 0
             fPc := if batch.isSome then 0 else pc }).askStop m a).jobFault m (2 + a.val) (arrJobKind kind)

/-- Change PASS_K of a tile. -/
def State.modPassK (s : State) (m : MastId) (t : Fin 16) (f : PassK → PassK) : State :=
  let i := Fin.ofNat 8 (t.val % 8)
  s.modArr m (Fin.ofNat 2 (t.val / 8)) fun x => { x with passK := x.passK.set i.val (f (x.passK.get i)) i.isLt }

/-- Change a tile. -/
def State.modTile (s : State) (m : MastId) (t : Fin 16) (f : Tile → Tile) : State :=
  s.modMast m fun x => { x with tiles := x.tiles.set t.val (f (x.tiles.get t)) t.isLt }

/-- A tile. -/
def State.tile (s : State) (m : MastId) (t : Fin 16) : Tile := (s.mast m).tiles.get t

/-! ## Operands -/

/-- The own canvas slice by offset, as it stands. -/
def State.sliceByte (s : State) (m : MastId) (off : Nat) : Byte := Sparse.get s.ram (sliceBase m + off)

/-- Bytes of a list by index; zero past its end. -/
def listByte (bs : List Byte) (i : Nat) : Byte := bs.getD i 0

/-- Row element (lane, k) of a pass: from the assembled rows of a fire, where lanes past the last row are zero, or from its
source. -/
def APass.rowElem (p : APass) (cv bk : Nat → Byte) (l k : Nat) : Nat :=
  let d := p.cmd.desc
  let w := codeWidth (pdRfmt d)
  match p.batch with
  | some _ => bitsAt (listByte (p.rows.getD l [])) (w * k) w
  | none => srcVal cv bk (if p.mizzen then dfld d 4 32 32 else dfld d 3 0 32) (rowLanes (pdFore d)) w l k

/-- Column element (k, lane) of a pass. -/
def APass.colElem (p : APass) (cv bk : Nat → Byte) (l k : Nat) : Nat :=
  let d := p.cmd.desc
  let w := codeWidth (pdCfmt d)
  if pdFore d then
    (if l < 128 then srcVal cv bk (dfld d 3 32 32) 128 w l k else srcVal cv bk (dfld d 4 0 32) 128 w (l - 128) k)
  else srcVal cv bk (dfld d 3 32 32) 64 w l k

/-- The array of a pass. -/
def APass.arr (p : APass) : ArrId := Fin.ofNat 2 (p.tile.val / 8)

/-- The operand sources of a pass: source word, lanes and width. A batch pass has its rows in the assembly buffer. -/
def APass.sources (p : APass) : List (Nat × Nat × Nat) :=
  let d := p.cmd.desc
  let w := codeWidth (pdCfmt d)
  (match p.batch with
   | some _ => []
   | none => [(if p.mizzen then dfld d 4 32 32 else dfld d 3 0 32, rowLanes (pdFore d), codeWidth (pdRfmt d))]) ++
  (if pdFore d then [(dfld d 3 32 32, 128, w), (dfld d 4 0 32, 128, w)] else [(dfld d 3 32 32, 64, w)])

/-- The bytes of a panel that k-step `b` reads: offset and number (06 R160). -/
def panelSpan (lanes w b : Nat) : Nat × Nat :=
  let g := panelG lanes w
  let n := 128 * panelN lanes w
  (n * (32 * b / g), n * ((32 * b + 31) / g + 1 - 32 * b / g))

/-- The canvas panels that k-step `b` of a pass reads of operand sources: slice offsets and bytes. -/
def panelReads (qs : List (Nat × Nat × Nat)) (b : Nat) : List (Nat × Nat) :=
  (qs.filter fun q => !srcBank q.1).map fun q =>
    let r := panelSpan q.2.1 q.2.2 b
    (srcOff q.1 + r.1, r.2)

/-- The canvas panels that k-step `b` of a pass needs. -/
def APass.reads (p : APass) (b : Nat) : List (Nat × Nat) := panelReads p.sources b

/-- The bits of the banks that k-step `b` reads of a source: places and numbers (06 R162). -/
def bankSpans (src lanes w b : Nat) : List (Nat × Nat) :=
  if !srcBank src then []
  else
    let at' := fun (row col : Nat) => 0x8000 * 8 * fld src 1 2 + 4096 * (fld src 4 6 + row) + (fld src 10 12 + col) * w
    if fld src 3 1 = 1 then (List.range 32).map fun i => (at' (32 * b + i) 0, lanes * w)
    else (List.range lanes).map fun l => (at' l (32 * b), 32 * w)

/-- The first word of the half of the assembly buffer that a fire has (06 R180). -/
def asmHalf (fire : Nat) : Nat := 2048 * (fire % 2)

/-- The words of the banks and of the assembly buffer that k-step `b` of a pass reads. -/
def APass.cells (m : MastId) (p : APass) (b : Nat) : Cell → Bool
  | .bank k v =>
    decide (k = m) && p.sources.any fun q => (bankSpans q.1 q.2.1 q.2.2 b).any fun r => decide (r.1 < 64 * v + 64 ∧ 64 * v < r.1 + r.2)
  | .asm k a v =>
    let d := p.cmd.desc
    let r := panelSpan (rowLanes (pdFore d)) (codeWidth (pdRfmt d)) b
    let o := 8 * (v - asmHalf p.fire)
    decide (k = m ∧ a = p.arr ∧ asmHalf p.fire ≤ v) && p.batch.isSome && decide (r.1 < o + 8 ∧ o < r.1 + r.2)
  | _ => false

/-- The canvas reads of k-step `b` of a pass are made, with what they find (11 R275). The mizzen half of a twin pass has its columns from main. -/
def State.readStep (s : State) (m : MastId) (p : APass) (b : Nat) : State :=
  (panelReads (if p.mizzen then p.sources.take 1 else p.sources) b).foldl (fun t r => t.canvasRead (sliceAddr m r.1) r.2) s

/-- The fault that the reads of k-step `b` meet, if any: 2 an uncorrectable error, 3 a checksum mismatch (06 R175, R186). -/
def State.stepFault (s : State) (m : MastId) (p : APass) (b : Nat) : Option Nat :=
  let rs := p.reads b
  if (rs.any fun r => s.badWords (sliceAddr m r.1) r.2) || s.bad (p.cells m b) then some 2
  else if pdChk p.cmd.desc && rs.any fun r =>
      (List.range (cdiv (r.1 % 4096 + r.2) 4096)).any fun i => s.crcBad (sliceAddr m (r.1 - r.1 % 4096 + 4096 * i)) then some 3
  else none

/-- The operands of a pass, as they stand. -/
def State.capture (s : State) (m : MastId) : OpCap :=
  { canvas := (s.ram.filter fun e => decide (sliceBase m ≤ e.1 ∧ e.1 < sliceBase m + 0x4000000)).map
      fun e => (e.1 - sliceBase m, e.2)
    bank := (s.mast m).bankMem }

/-! ## A k-step (07 R193-R202) -/

/-- The factor of every product of a pass: 2^σ in native mode, the product of its scales in Folub mode (07 R193); `sigma` is −σ. -/
def passFactor (d : Desc) (sigma : Nat) : Nat × Int :=
  if pdFolub d then
    match fp32.decode (useScale (dfld d 5 0 32)).1, fp32.decode (useScale (dfld d 5 32 32)).1 with
    | .fin _ m e, .fin _ n f => (m * n, e + f)
    | _, _ => (1, 0)
  else (1, -(sigma : Int))

/-- The new value of entry `n` of the tile of a pass after its k-step `b`. -/
def APass.entry (p : APass) (cv bk : Nat → Byte) (t : Tile) (b n : Nat) : Nat × NF :=
  let d := p.cmd.desc
  let ty := accType (pdRfmt d) (pdCfmt d)
  let ftz := p.modes.2 || pdFolub d
  let ovm := p.modes.1 || pdFolub d
  let c := tileCols (pdFore d)
  let x := passFactor d p.sigma
  let old := if b = 0 ∧ !pdAcc d then startEntry ty else (Sparse.get t.ents n).toNat
  let ps := (List.range 32).map fun i =>
    mkProd (fmtOf (pdRfmt d)) (fmtOf (pdCfmt d)) ftz x.1 x.2 (p.rowElem cv bk (n / c) (32 * b + i))
      (p.colElem cv bk (n % c) (32 * b + i))
  let r := entryBlock ty ovm ftz old (ps.map (·.1))
  (r.1, r.2.or (ps.foldl (fun f q => f.or q.2) {}))

/-- Every entry of a tile after a k-step, with the flags it sets. -/
def APass.entries (p : APass) (cv bk : Nat → Byte) (t : Tile) (b : Nat) : Tab × NF :=
  let es := (List.range 4096).map fun n => (n, p.entry cv bk t b n)
  (es.filterMap fun e => if e.2.1 % 2 ^ 64 = 0 then none else some (e.1, BitVec.ofNat 64 e.2.1),
   es.foldl (fun f e => f.or e.2.2) {})

/-- Whether a pass may write k-steps: it waits for no repeat and no stop has halted it. -/
def APass.live (p : APass) : Bool := !p.rept && !p.halted

/-- Replace a pass of its array: the live one of its tile that comes first. -/
def State.setPass (s : State) (m : MastId) (p : APass) (q : Option APass) : State :=
  s.modArr m p.arr fun x =>
    { x with passes := match q with
        | some q => updFirst (fun y => y.live && decide (y.tile = p.tile)) (fun _ => q) x.passes
        | none => (match takeFirst (fun y => y.live && decide (y.tile = p.tile)) x.passes with
          | some (_, rest) => rest
          | none => x.passes) }

/-- A pass faults in k-step `j`: it is abandoned where it stands, its tile stays in flight (06 R186, 07 R202). -/
def State.passFault (s : State) (m : MastId) (p : APass) (kind j : Nat) : State :=
  let s := s.setPass m p none
  let s := s.modPassK m p.tile fun k => { k with kdone := BitVec.ofNat 10 j, st := 2 }
  let s := match p.batch with
    | some _ => s.modArr m p.arr fun x => { x with fires := x.fires.filter fun f => f.id ≠ p.fire }
    | none => s
  s.arrFault m p.arr kind p.tile.val j p.cmd.daddr p.batch p.cmd.pc

/-- The entries of a k-step reach the tile, and PASS_K counts it. -/
def State.writeStep (s : State) (m : MastId) (p : APass) (e : Tab × NF) : State :=
  let s := (s.modTile m p.tile fun t => { t with ents := e.1 }).mend fun c =>
    match c with | .tile k t _ => decide (k = m ∧ t = p.tile) | _ => false
  let s := s.modMast m fun x => x.setFlags (1 + p.arr.val) e.2
  let s := s.modPassK m p.tile fun k => { k with kdone := BitVec.ofNat 10 (p.done + 1) }
  s.setPass m p (some { p with done := p.done + 1 })

/-- The counter ARR_PASSES of an array. -/
def arrPassesOff (a : ArrId) : Nat := 0x50038 + 0x4000 * a.val

/-- A pass is final (06 R171, 07 R210): PASS_K, INFLIGHT and ARR_PASSES; its tokens leave, once for a twin pass. -/
def State.passFinal (s : State) (m : MastId) (p : APass) : State :=
  let d := p.cmd.desc
  let s := s.setPass m p none
  let s := s.modPassK m p.tile fun k => { k with st := 3 }
  let s := s.modTile m p.tile fun t => { t with inflight := BitVec.ofNat 5 (t.inflight.toNat - 1) }
  let s := s.bump m (arrPassesOff p.arr)
  if p.mizzen then s
  else
    let e : EngId := Fin.ofNat 6 (2 + p.arr.val)
    let s := if dbit d 1 20 then s.postFrom m e (BitVec.ofNat 32 (dfld d 2 0 32)) else s
    if dbit d 1 21 && pdRepeat d then s.postFrom m e (BitVec.ofNat 32 (dfld d 2 32 32)) else s

/-- A pass repeats (07 R200, R203): its attempt is abandoned and it waits for its repeat. Only a tile whose write
overflowed lowers σ; each array of a twin pass counts its repeat. -/
def State.passRepeat (s : State) (m : MastId) (p : APass) (ovf : Bool) : State :=
  let q := { p with done := 0, issued := false, cap := none, bad := none, rept := true, sigma := if ovf then p.sigma + 8 else p.sigma }
  let s := s.setPass m p (some q)
  let s := s.modPassK m p.tile fun k => { k with kdone := 0 }
  let s := s.modTile m p.tile fun t =>
    if ovf then { t with shift := BitVec.ofNat 6 (t.shift.toNat + 8), repeats := BitVec.ofNat 3 (t.repeats.toNat + 1) } else t
  (s.modArr m p.arr fun x => { x with sticky := x.sticky ||| 0x10 }).bump m (0x5C110 + 8 * p.arr.val)

/-- A twin pass that waits for its repeat stops on both arrays if either has been asked to (06 R176, R183). -/
def State.stopTwin (s : State) (m : MastId) : State :=
  let asked := fun (a : ArrId) => (s.array m a).stopReq
  if (asked 0 || asked 1) && ((s.array m 0).passes.any fun p => p.cmd.twin && p.rept) then (s.modArr m 0 Arr.ask).modArr m 1 Arr.ask else s

/-- One k-step of the halves of a pass (one, or two of a twin pass): a fault, an overflow with its repeat or its limit, or the
writes, and the end of the pass after its last one. DESIGN CHOICE: a k-step that overflows sets no flag of any entry, as nothing of it is written (log entry
112). -/
def State.kstep (s : State) (m : MastId) (ps : List APass) : State :=
  let s := (ps.filter fun p => !p.issued).foldl (fun t p => t.readStep m p p.done) s
  let fault := ps.findSome? fun p =>
    if p.issued then (match p.bad with | some (j, k) => if j = p.done then some k else none | none => none)
    else s.stepFault m p p.done
  match fault with
  | some k => ps.foldl (fun t p => t.passFault m p k p.done) s
  | none =>
    let es := ps.map fun p =>
      let cv := match p.cap with | some c => Sparse.get c.canvas | none => s.sliceByte m
      let bk := match p.cap with | some c => Sparse.get c.bank | none => Sparse.get (s.mast m).bankMem
      (p, p.entries cv bk (s.tile m p.tile) p.done)
    if es.any fun e => pdRepeat e.1.cmd.desc && e.2.2.ov then
      (if es.any fun e => e.2.2.ov && decide (32 ≤ e.1.sigma) then
        ps.foldl (fun t p => t.passFault m p 4 p.done) s
       else (es.foldl (fun t e => t.passRepeat m e.1 e.2.2.ov) s).stopTwin m)
    else
      es.foldl (fun t e =>
        let t := t.writeStep m e.1 e.2
        if e.1.done + 1 = e.1.total then t.passFinal m { e.1 with done := e.1.done + 1 } else t) s

/-- The oldest pass of an array that writes k-steps. -/
def Arr.front (x : Arr) : Option APass := x.passes.find? APass.live

/-- Whether a stop that an array has been asked for stops a pass: it is issuing, and is no batch pass (06 R183). -/
def Arr.stops (x : Arr) (p : APass) : Bool := x.stopReq && !p.rept && !p.issued && p.batch.isNone

/-- The halves that write together with a pass: itself, or both halves of a twin pass if both are in front. -/
def State.halvesOf (s : State) (m : MastId) (p : APass) : Option (List APass) :=
  if !p.cmd.twin then some [p]
  else match (s.array m 0).front, (s.array m 1).front with
    | some x, some y => if x.cmd.twin && y.cmd.twin && decide (x.done = y.done) then some [x, y] else none
    | _, _ => none

/-- The live passes of an array that are older than the first of a tile. -/
def Arr.older (x : Arr) (t : Fin 16) : List APass := (x.passes.filter APass.live).takeWhile fun q => decide (q.tile ≠ t)

/-- K_STEP_WRITE: the next k-step of the running pass of a tile, if it is the oldest of its array, or if only passes that a stop stops are older: their
issued k-steps are then written (06 R183). The last k-step follows the end of the pass's issue. -/
def State.kStepWrite (s : State) (m : MastId) (t : Fin 16) : State :=
  let a : ArrId := Fin.ofNat 2 (t.val / 8)
  let x := s.array m a
  match x.passes.find? fun p => p.live && decide (p.tile = t) with
  | none => s
  | some p =>
    let older := x.older t
    if (older.any fun q => !x.stops q) ∨ (!p.issued ∧ p.total ≤ p.done + 1) then s
    else
      let s := s.modArr m a fun y =>
        { y with passes := y.passes.map fun q => if q.live && x.stops q && !older.isEmpty then { q with halted := true } else q }
      match s.halvesOf m p with
      | none => s
      | some ps => s.kstep m ps

end Sys2Proof.Machine
end

