-- ==== Sys2Proof/Machine/Arrays.lean ====
section
/-!
DEFINITION. The arrays at work (06 R163-R187, 07 R200-R212): starting passes, releasing operands, repeats, batch fill, stopping,
resuming and discarding.
-/

namespace Sys2Proof.Machine

/-- Whether an array takes work: set, and neither stopping, stopped nor faulted. -/
def State.arrOpen (s : State) (m : MastId) (a : ArrId) : Bool :=
  let x := s.array m a
  s.engSet m (Fin.ofNat 6 (2 + a.val)) && !x.stopped && !x.stopReq && !x.faulted

/-- The pass that an array is issuing: a stop that it has been asked for has ended the issue of every pass but a batch pass (06 R183). -/
def Arr.issuing (x : Arr) : Option APass := x.passes.find? fun p => !p.rept && !p.issued && !x.stops p

/-- The stopped passes at the head of a queue. -/
def Arr.lead (x : Arr) : List ACmd := x.queue.takeWhile fun k => k.modes.isSome

/-- Whether a stopped pass waits at the head of the queue to resume: it goes ahead of repeats and batch passes (06 R184). -/
def Arr.resumes (x : Arr) : Bool := !x.lead.isEmpty

/-- The first fire with a pass not yet started. -/
def Arr.nextFirePass (x : Arr) : Option Fire := x.fires.find? fun f => decide (f.started < dfld f.desc 0 28 2 + 1)

/-- Whether a batch pass could start now: it goes ahead of every queued command (06 R181). -/
def State.batchReady (s : State) (m : MastId) (a : ArrId) : Bool :=
  match (s.array m a).nextFirePass with
  | some f => f.rows.isSome &&
      (decide (0 < f.started) || s.haveTokens m (arrSlots a [dfld f.desc 1 8 4]))
  | none => false

/-- Whether an array may start the pass at the head of its queue: no pass is issuing and, unless it is a stopped pass that resumes, no repeat waits and
no batch pass is ready. -/
def State.canStart (s : State) (m : MastId) (a : ArrId) : Bool :=
  let x := s.array m a
  s.arrOpen m a && x.issuing.isNone && (x.resumes || (!(x.passes.any fun p => p.rept) && !s.batchReady m a))

/-! ## Starting a pass -/

/-- A mode change that breaks the fence of 07 R209: a pass of the other mode is still in flight on main. The 64 cc that
must follow are timing. -/
def fenceBroken (a : ArrId) (x : Arr) (folub : Bool) : Bool :=
  decide (a = 0) && (x.prevFolub != folub) && !x.passes.isEmpty

/-- The sticky bits a pass with ACC = 1 sets by comparing itself with the record (07 R191), with CONFLICT (07 R208). -/
def passSticky (d : Desc) (t : Tile) : BitVec 5 :=
  let rs := (useScale (dfld d 5 0 32)).1
  let cs := (useScale (dfld d 5 32 32)).1
  let mm := decide (t.folub ≠ pdFolub d) ||
    (!pdFolub d && decide (t.rscale.toNat ≠ rs ∨ t.cscale.toNat ≠ cs))
  BitVec.ofNat 5 (b2n (pdFolub d && dbit d 0 17) +
    (if pdAcc d then 2 * b2n (decide (t.type.toNat ≠ accType (pdRfmt d) (pdCfmt d))) + 4 * b2n (decide (t.rig ≠ pdFore d)) +
      8 * b2n mm else 0))

/-- The record that a pass with ACC = 0 sets (07 R189). -/
def setRecord (d : Desc) (t : Tile) : Tile :=
  { t with type := BitVec.ofNat 2 (accType (pdRfmt d) (pdCfmt d)), rig := pdFore d, folub := pdFolub d, shift := 0, repeats := 0
           rscale := if pdFolub d then 0x3F800000 else BitVec.ofNat 32 (useScale (dfld d 5 0 32)).1
           cscale := if pdFolub d then 0x3F800000 else BitVec.ofNat 32 (useScale (dfld d 5 32 32)).1 }

/-- A pass starts into its tile (06 R168, 07 R189, R191, R210): record, sticky bits, INFLIGHT, PASS_K and the flag SI of
replaced scales. -/
def State.beginPass (s : State) (m : MastId) (p : APass) (rows : Nat) : State :=
  let d := p.cmd.desc
  let a := p.arr
  let t := s.tile m p.tile
  let si := (useScale (dfld d 5 0 32)).2 || (useScale (dfld d 5 32 32)).2
  let s := s.modArr m a fun x =>
    { x with sticky := x.sticky ||| passSticky d t, prevRig := pdFore d, prevFolub := pdFolub d
             passes := x.passes ++ [{ p with sigma := if pdAcc d then t.shift.toNat else 0 }] }
  let s := s.modTile m p.tile fun t =>
    let t := if pdAcc d then t else setRecord d t
    { t with inflight := BitVec.ofNat 5 (t.inflight.toNat + 1) }
  let s := s.modMast m fun x => x.setFlags (1 + a.val) { si := si }
  s.modPassK m p.tile fun _ =>
    { kdone := 0, ktotal := BitVec.ofNat 10 (pdKb d), st := 1, rig := pdFore d, rows := BitVec.ofNat 7 rows }

/-- A stopped pass is in flight again: PASS_K.STATE is 1, and INFLIGHT counts it. -/
def State.unstop (s : State) (m : MastId) (t : Fin 16) : State :=
  (s.modTile m t fun t => { t with inflight := if t.inflight = 0 then 1 else t.inflight }).modPassK m t fun k => { k with st := 1 }

/-- A stopped pass goes on with k-steps KDONE to KTOTAL − 1 of its PASS_K, one at least (06 R184; log entry 26), with σ from SHIFT. -/
def State.resumePass (s : State) (m : MastId) (p : APass) : State :=
  let a := p.arr
  let k := (s.array m a).passK.get (Fin.ofNat 8 (p.tile.val % 8))
  let q := { p with done := k.kdone.toNat, total := max (k.kdone.toNat + 1) k.ktotal.toNat, sigma := (s.tile m p.tile).shift.toNat }
  (s.modArr m a fun x =>
    { x with prevRig := pdFore p.cmd.desc, prevFolub := pdFolub p.cmd.desc, passes := x.passes ++ [q] }).unstop m p.tile

/-- A pass as it starts. -/
def newPass (k : ACmd) (modes : Bool × Bool) (tile : Fin 16) (mizzen : Bool) : APass :=
  { cmd := k, tile := tile, mizzen := mizzen, modes := modes, total := pdKb k.desc, sigma := 0, done := 0, issued := false, halted := false
    cap := none, bad := none, rept := false, batch := none, rows := [], fire := 0 }

/-- The halves of a queued pass: (array, pass). -/
def passHalves (k : ACmd) (a : ArrId) (modes : Bool × Bool) : List APass :=
  if k.twin then [newPass k modes (pdTile k.desc) false, newPass k modes (pdTile2 k.desc) true]
  else [{ newPass k modes (pdTile k.desc) false with tile := Fin.ofNat 16 (8 * a.val + (pdTile k.desc).val % 8) }]

/-- Take the head of an array's queue. -/
def State.popArr (s : State) (m : MastId) (a : ArrId) : State :=
  (s.modArr m a fun x => { x with queue := x.queue.drop 1 }).clearStall m (Fin.ofNat 6 (2 + a.val))

/-- The pass at the head of an array's queue starts, or faults. -/
def State.startPass (s : State) (m : MastId) (a : ArrId) (k : ACmd) : State :=
  let as : List ArrId := if k.twin then [0, 1] else [a]
  let slotArr : ArrId := if k.twin then 0 else a
  let slots := arrSlots slotArr (pdSlots k.desc)
  let pop := fun (t : State) => as.foldl (fun t b => t.popArr m b) t
  match k.modes with
  | some md => (passHalves k a md).foldl (fun t p => t.resumePass m p) (pop s)
  | none =>
    if !s.haveTokens m slots then s
    else
      let tileN := fun (b : ArrId) => if k.twin && decide (b = 1) then (pdTile2 k.desc).val else (pdTile k.desc).val
      let fail := fun (kind : Nat) => as.foldl (fun t b => t.arrFault m b kind (tileN b) 0 k.daddr none k.pc) s
      if passBad a k.twin k.desc || as.any fun b => fenceBroken b (s.array m b) (pdFolub k.desc) then fail 1
      else if passTokenBad k.desc then fail 6
      else
        let md := ((s.mast m).num.ovm, (s.mast m).num.ftz)
        (passHalves k a md).foldl (fun t p => t.beginPass m p 0) (pop (s.consume m slots))

/-! ## Batch fill -/

/-- The tile of column block `b` of set `set` of a batch descriptor. -/
def batchTile (d : Desc) (set : Bool) (b : Nat) : Nat := dfld d 0 12 4 + b2n set * (dfld d 0 28 2 + 1) + b
/-- Column source `j`. -/
def batchSrc (d : Desc) (j : Nat) : Nat := dfld d (4 + j / 2) (32 * (j % 2)) 32
/-- The bytes of a row. -/
def batchRowBytes (d : Desc) : Nat := 4 * pdKb d * codeWidth (pdRfmt d)

/-- A batch descriptor that faults with kind DESC (06 R177). -/
def batchBad (a : ArrId) (d : Desc) : Bool :=
  let fore := pdFore d
  let n := dfld d 0 28 2 + 1
  let t := dfld d 0 12 4
  let ring := dfld d 2 32 32
  let size := 16 * 2 ^ dfld d 1 32 4
  codesBad d || pdAcc d || pdFolub d || decide (dfld d 0 30 34 ≠ 0) || decide (dfld d 1 36 28 ≠ 0) ||
  decide (dfld d 1 32 4 < 4 ∨ 10 < dfld d 1 32 4) || decide (ring % 128 ≠ 0 ∨ 0x4000000 < ring + size) ||
  decide (tierOf ring ≠ tierOf (ring + size - 1)) || !tileOf a t || !tileOf a (t + 2 * n - 1) ||
  decide (0x4000 < rowLanes fore * batchRowBytes d) ||
  (List.range n).any fun b =>
    if fore then colBad true (batchSrc d (2 * b)) (batchSrc d (2 * b + 1)) (codeWidth (pdCfmt d)) (32 * pdKb d)
    else colBad false (batchSrc d b) 0 (codeWidth (pdCfmt d)) (32 * pdKb d)

/-- The pass descriptor that a batch pass runs: the shared fields, its tile, its column sources and DONE. -/
def batchDesc (d : Desc) (set : Bool) (b : Nat) : Desc :=
  let w0 := fld (dword d 0) 0 12 + batchTile d set b * 2 ^ 12 + dfld d 0 16 12 * 2 ^ 16
  let w1 := 2 ^ 20
  let w2 := dfld d 2 0 32
  let c0 := if pdFore d then batchSrc d (2 * b) else batchSrc d b
  let c1 := if pdFore d then batchSrc d (2 * b + 1) else 0
  BitVec.ofNat 512 (w0 + w1 * 2 ^ 64 + w2 * 2 ^ 128 + c0 * 2 ^ (192 + 32) + c1 * 2 ^ 256 + dword d 3 * 2 ^ 320)

/-- Change a batch queue. -/
def State.modBq (s : State) (m : MastId) (a : ArrId) (q : Fin 4) (f : BQueue → BQueue) : State :=
  s.modArr m a fun x => { x with bqs := x.bqs.set q.val (f (x.bqs.get q)) q.isLt }

/-- The count of slot `i` of array `a`. -/
def State.arrCount (s : State) (m : MastId) (a : ArrId) (i : Nat) : Nat :=
  (s.slotCount (.mast m (Fin.ofNat 96 (16 + 16 * a.val + i)))).toNat
/-- Take `n` tokens from slot `i` of array `a`. -/
def State.arrTake (s : State) (m : MastId) (a : ArrId) (i n : Nat) : State :=
  let k : SlotId := .mast m (Fin.ofNat 96 (16 + 16 * a.val + i))
  s.setSlot k (s.slotCount k - BitVec.ofNat 8 n)

/-- XBFILL and XBDISARM at the head of the queue (06 R177). Arming starts at ring index 0 and set 0, and a count that is not
0 starts the fill timer. DESIGN CHOICE: disarming stops the timer (log entry 109). -/
def State.armQueue (s : State) (m : MastId) (a : ArrId) (k : ACmd) : State :=
  match k.kind with
  | .bfill =>
    if batchBad a k.desc then s.arrFault m a 1 (dfld k.desc 0 12 4) 0 k.daddr none k.pc
    else if badToken (BitVec.ofNat 32 (dfld k.desc 2 0 32)) then s.arrFault m a 6 (dfld k.desc 0 12 4) 0 k.daddr none k.pc
    else
      let run := decide (0 < s.arrCount m a (dfld k.desc 1 0 4))
      (s.popArr m a).modBq m a k.q fun _ => { cfg := k.desc, armed := true, head := 0, set := false, trun := run, timer := 0 }
  | _ => (s.popArr m a).modBq m a k.q fun b => { b with armed := false, trun := false }

/-- PASS_START: the pass at the head of an array's queue starts once its conditions hold (06 R168, R176); XBFILL and XBDISARM act there as soon as they
reach it (06 R177). -/
def State.passStart (s : State) (m : MastId) (a : ArrId) : State :=
  match (s.array m a).queue with
  | [] => s
  | k :: _ =>
    match k.kind with
    | .pass =>
      if !s.canStart m a then s
      else if k.twin then
        let other : ArrId := if a = 0 then 1 else 0
        let same : Bool := match (s.array m other).queue with
          | j :: _ => j.twin && decide (j.kind = .pass) && (j.modes.isSome == k.modes.isSome)
          | [] => false
        if s.canStart m other && same then s.startPass m a k else s
      else s.startPass m a k
    | _ => if s.arrOpen m a then s.armQueue m a k else s

/-- OPERAND_RELEASE (06 R171): the pass that an array is issuing ends its issue; its operands are as they were read, the first
k-step whose reads met an error is known, and RELEASE leaves. -/
def State.operandRelease (s : State) (m : MastId) (a : ArrId) : State :=
  match (s.array m a).issuing with
  | none => s
  | some p0 =>
    let other : ArrId := if a = 0 then 1 else 0
    let ps : List APass :=
      if p0.cmd.twin then (match (s.array m other).issuing with | some q => if q.cmd.twin then [p0, q] else [] | none => [])
      else [p0]
    if ps.isEmpty then s
    else
      let s := ps.foldl (fun t p =>
        let t := (List.range (p.total - p.done)).foldl (fun t i => t.readStep m p (p.done + i)) t
        let bad := (List.range (p.total - p.done)).findSome? fun i => (t.stepFault m p (p.done + i)).map fun k => (p.done + i, k)
        let done := fun (y : APass) => { y with issued := true, cap := some (t.capture m), bad := bad }
        let t := t.modArr m p.arr fun x => { x with passes := updFirst (fun y => !y.rept && !y.issued && !x.stops y) done x.passes }
        match p.batch with
        | some _ => t.modArr m p.arr fun x =>
            { x with fires := x.fires.filter fun f => !decide (f.id = p.fire ∧ dfld f.desc 0 28 2 + 1 ≤ f.started) }
        | none => t) s
      let d := p0.cmd.desc
      if dbit d 1 21 && !pdRepeat d then
        s.postFrom m (if p0.cmd.twin then 2 else Fin.ofNat 6 (2 + a.val)) (BitVec.ofNat 32 (dfld d 2 32 32))
      else s

/-- The oldest pending repeat of an array. -/
def Arr.nextRepeat (x : Arr) : Option APass := x.passes.find? fun p => p.rept

/-- REPEAT_START (07 R201): the oldest pending repeat of an array starts, ahead of everything not started but a stopped pass that resumes (06 R184), once no
pass is issuing; both halves of a twin pass start together, once both are the oldest (07 R203). It then is the newest pass of the array. -/
def State.repeatStart (s : State) (m : MastId) (a : ArrId) : State :=
  let free := fun (b : ArrId) => s.arrOpen m b && (s.array m b).issuing.isNone && !(s.array m b).resumes
  let go := fun (b : ArrId) (t : State) => t.modArr m b fun x =>
    match takeFirst (fun p => p.rept) x.passes with
    | some (p, rest) =>
      { x with passes := rest ++ [{ p with rept := false }], prevRig := pdFore p.cmd.desc, prevFolub := pdFolub p.cmd.desc }
    | none => x
  match (s.array m a).nextRepeat with
  | none => s
  | some p =>
    if !free a then s
    else if p.cmd.twin then
      let both : Bool := match (s.array m 0).nextRepeat, (s.array m 1).nextRepeat with
        | some x, some y => decide (x.cmd = y.cmd)
        | _, _ => false
      if free 0 && free 1 && both then go 1 (go 0 s) else s
    else go a s

/-- A batch queue makes a fire of its waiting rows (06 R179, R180); an entry with an uncorrectable error is a fault of kind ECC. -/
def State.fire (s : State) (m : MastId) (a : ArrId) (q : Fin 4) : State :=
  let b := (s.array m a).bqs.get q
  let d := b.cfg
  let arrive := s.arrCount m a (dfld d 1 0 4)
  let r := min arrive (rowLanes (pdFore d))
  let n := 2 ^ dfld d 1 32 4
  let entries := (List.range r).map fun i =>
    Mem.bytes s.ram (sliceAddr m (dfld d 2 32 32) + 16 * ((b.head.toNat + i) % n)) 16
  let bad := entries.any fun e => decide (0x4000000 < ofBytes (e.take 4) + batchRowBytes d)
  let pas := (List.range r).map fun i => sliceAddr m (dfld d 2 32 32) + 16 * ((b.head.toNat + i) % n)
  let s := pas.foldl (fun t pa => t.canvasRead pa 16) s
  if pas.any fun pa => s.badWords pa 16 then s.arrFault m a 2 (batchTile d b.set 0) 0 0 (some q) 0
  else if bad then s.arrFault m a 5 (batchTile d b.set 0) 0 0 (some q) 0
  else
    let s := s.arrTake m a (dfld d 1 0 4) r
    let s := if arrive - r = 0 ∧ 0 < s.arrCount m a (dfld d 1 4 4) then s.arrTake m a (dfld d 1 4 4) 1 else s
    let s := s.modBq m a q fun b =>
      { b with head := BitVec.ofNat 10 ((b.head.toNat + r) % n), set := !b.set, trun := decide (r < arrive), timer := 0 }
    s.modArr m a fun x =>
      { x with nextFire := x.nextFire + 1
               fires := x.fires ++ [{ id := x.nextFire, q := q, desc := d, set := b.set, entries := entries, rows := none
                                      started := 0 }] }

/-- Whether a queue of an array may fire. -/
def State.mayFire (s : State) (m : MastId) (a : ArrId) (q : Fin 4) : Bool :=
  let x := s.array m a
  s.arrOpen m a && (x.bqs.get q).armed &&
    decide ((x.fires.filter fun f => decide (f.started < dfld f.desc 0 28 2 + 1)).length < 4)

/-- BATCH_FIRE (06 R179): a full count or a flush fires; a flush of no rows is consumed. -/
def State.batchFire (s : State) (m : MastId) (a : ArrId) (q : Fin 4) : State :=
  let d := ((s.array m a).bqs.get q).cfg
  let arrive := s.arrCount m a (dfld d 1 0 4)
  let flush := s.arrCount m a (dfld d 1 4 4)
  if !((s.array m a).bqs.get q).armed then s
  else if arrive = 0 then (if 0 < flush then s.arrTake m a (dfld d 1 4 4) 1 else s)
  else if s.mayFire m a q && decide (rowLanes (pdFore d) ≤ arrive ∨ 0 < flush) then s.fire m a q
  else s

/-- FILL_TIMER_EXPIRY (06 R179): the timer has reached LIMIT. -/
def State.fillExpiry (s : State) (m : MastId) (a : ArrId) (q : Fin 4) : State :=
  let b := (s.array m a).bqs.get q
  if s.mayFire m a q && b.trun && decide (dfld b.cfg 1 12 20 ≠ 0) && decide (0 < s.arrCount m a (dfld b.cfg 1 0 4)) then
    s.fire m a q
  else s

/-- FIRE_ASSEMBLY (06 R180): the oldest fire without rows takes a free half of the assembly buffer. An uncorrectable error in
what it reads is a fault of kind ECC of its first pass. -/
def State.fireAssembly (s : State) (m : MastId) (a : ArrId) : State :=
  let x := s.array m a
  if 2 ≤ (x.fires.filter fun f => f.rows.isSome).length then s
  else match x.fires.find? fun f => f.rows.isNone with
  | none => s
  | some f =>
    let n := batchRowBytes f.desc
    let offs := f.entries.map fun e => ofBytes (e.take 4)
    let s := offs.foldl (fun t o => t.canvasRead (sliceAddr m o) n) s
    if offs.any fun o => s.badWords (sliceAddr m o) n then
      (s.modArr m a fun x => { x with fires := x.fires.filter fun g => g.id ≠ f.id }).arrFault m a 2 (batchTile f.desc f.set 0) 0 0
        (some f.q) 0
    else
      let rows := offs.map fun o => Mem.bytes s.ram (sliceAddr m o) n
      (s.modArr m a fun x =>
        { x with fires := x.fires.map fun g => if g.id = f.id then { g with rows := some rows } else g }).mend fun c =>
        match c with | .asm k b v => decide (k = m ∧ b = a ∧ asmHalf f.id ≤ v ∧ v < asmHalf f.id + 2048) | _ => false

/-- BATCH_PASS_START (06 R181): the next pass of the oldest fire that has one starts, ahead of queued commands; the first pass
of a fire consumes its FREE token. A pass that resumes and a pending repeat go first, unless the array is stopping (06 R183, R184). DESIGN CHOICE: a fault of a
batch pass or a fire records DADDR 0 (log entry 110). -/
def State.batchPassStart (s : State) (m : MastId) (a : ArrId) : State :=
  let x := s.array m a
  match x.nextFirePass with
  | none => s
  | some f =>
    if x.stopped || !s.engSet m (Fin.ofNat 6 (2 + a.val)) || x.issuing.isSome || (!x.stopReq && (x.resumes || x.nextRepeat.isSome)) ||
        !s.batchReady m a
    then s
    else
      let d := batchDesc f.desc f.set f.started
      let tile : Fin 16 := Fin.ofNat 16 (batchTile f.desc f.set f.started)
      if fenceBroken a x false then
        (s.modArr m a fun x => { x with fires := x.fires.filter fun g => g.id ≠ f.id }).arrFault m a 1 tile.val 0 0 (some f.q) 0
      else
        let s := if f.started = 0 then s.consume m (arrSlots a [dfld f.desc 1 8 4]) else s
        let s := s.modArr m a fun x =>
          { x with fires := x.fires.map fun g => if g.id = f.id then { g with started := g.started + 1 } else g }
        let s := s.modMast m fun y =>
          { y with rowmap := (f.entries.foldl (fun (acc : Mem × Nat) e => (Mem.put acc.1 acc.2 e, acc.2 + 16))
              (y.rowmap, 0x400 * tile.val)).1 }
        let k : ACmd := { kind := .pass, desc := d, daddr := 0, pc := 0, twin := false, q := f.q, modes := none, rept := false }
        let md := ((s.mast m).num.ovm, (s.mast m).num.ftz)
        s.beginPass m { newPass k md tile false with batch := some f.q, rows := f.rows.getD [], fire := f.id } f.entries.length

/-- A token that takes an ARRIVE count from 0 starts the fill timer (06 R179). -/
def State.arriveTimers (s : State) (m : MastId) (i : Fin 96) : State :=
  if i.val < 16 ∨ 48 ≤ i.val then s
  else
    let a : ArrId := Fin.ofNat 2 ((i.val - 16) / 16)
    s.modArr m a fun x =>
      { x with bqs := x.bqs.map fun b =>
          if b.armed && decide (dfld b.cfg 1 0 4 = (i.val - 16) % 16) then { b with trun := true, timer := 0 } else b }

/-! ## Stopping, resuming, discarding (06 R183-R187) -/

/-- ARR_CTL.STOP: the array stops at its next k-step boundary; a twin pass that has not ended its issue stops on both arrays. -/
def State.arrStop (s : State) (m : MastId) (a : ArrId) : State :=
  if (s.array m a).stopped then s else s.askStop m a

/-- The command that a stopped pass goes back to the queue as. -/
def APass.back (p : APass) : ACmd := { p.cmd with modes := some p.modes, rept := p.rept }

/-- ARR_STOPPED: every pass past its issue and every batch pass and fire has completed; the pass that was issuing, then each pass whose repeat is
pending, waits at the head of the queue (log entry 26), and 16 entries hold the queue (log entry 92); a batch pass whose repeat is pending keeps its rows
and its place. PASS_K.STATE of each is 2. -/
def State.arrStopped (s : State) (m : MastId) (a : ArrId) : State :=
  let x := s.array m a
  let busy := x.passes.any fun p => !p.rept && (p.issued || p.batch.isSome)
  if !x.stopReq ∨ x.stopped ∨ busy ∨ !x.fires.isEmpty then s
  else
    let cur := x.passes.filter fun p => !p.rept
    let rep := x.passes.filter fun p => p.rept && p.batch.isNone
    let s := x.passes.foldl (fun t p => t.modPassK m p.tile fun k => { k with st := 2 }) s
    let q := x.lead ++ (cur ++ rep).map APass.back ++ x.queue.drop x.lead.length
    s.modArr m a fun x =>
      { x with passes := x.passes.filter fun p => p.batch.isSome, queue := q, extra := surplus q, stopReq := false, stopped := true }

/-- The half of a stopped pass that an array runs, as its repeat waits again. -/
def waitHalf (a : ArrId) (k : ACmd) : Option APass :=
  match k.modes with
  | some md => ((passHalves k a md).find? fun p => decide (p.arr = a)).map fun p => { p with rept := true }
  | none => none

/-- An array leaves the stopped state: its pending repeats wait again, and a stopped pass that was issuing is the next to start (06 R184). -/
def State.unstopArr (s : State) (m : MastId) (a : ArrId) : State :=
  let x := s.array m a
  let reps := (x.lead.filter fun k => k.rept).filterMap (waitHalf a)
  let reps := reps.map fun p => { p with sigma := (s.tile m p.tile).shift.toNat }
  let s := s.modArr m a fun x =>
    { x with stopped := false, qent := [], extra := 0, passes := x.passes ++ reps
             queue := (x.lead.filter fun k => !k.rept) ++ x.queue.drop x.lead.length }
  (x.passes ++ reps).foldl (fun t p => t.unstop m p.tile) s

/-- ARR_CTL.RUN: a twin pass resumes on both arrays, and only while both are stopped and neither has faulted. -/
def State.arrRun (s : State) (m : MastId) (a : ArrId) : State :=
  let ok := fun (b : ArrId) => (s.array m b).stopped && !(s.array m b).faulted
  if !ok a then s
  else if (s.array m a).lead.any fun k => k.twin then (if ok 0 && ok 1 then (s.unstopArr m 0).unstopArr m 1 else s)
  else s.unstopArr m a

/-- ARR_CTL.DISCARD, while stopped: the queue is emptied, the stopped pass abandoned, every PASS_K is 0, FAULTED is cleared, and
every tile's INFLIGHT is 0 (07 R212). -/
def State.arrDiscard (s : State) (m : MastId) (a : ArrId) : State :=
  if !(s.array m a).stopped then s
  else
    let s := (s.modArr m a fun x =>
      { x with queue := [], qent := [], extra := 0, saved := x.saved ++ packs x.extra x.queue, passes := [], fires := [], faulted := false, prevFolub := false
               passK := Vector.replicate 8 { kdone := 0, ktotal := 0, st := 0, rig := false, rows := 0 } }).clearStall m (Fin.ofNat 6 (2 + a.val))
    (fins 8).foldl (fun t i => t.modTile m (Fin.ofNat 16 (8 * a.val + i.val)) fun x => { x with inflight := 0 }) s

end Sys2Proof.Machine
end

