-- ==== Sys2Proof/Machine/Sfu.lean ====
section
/-!
DEFINITION. The special-function unit of the sheet engine (09 R241-R250). The spec gives the segments, exact results, bounds and monotonicity
and not the coefficients of the quadratics: they are free values of Config near those of the Taylor series, such that the tables are monotone, and what a
quadratic gives is kept within its bound (log entry 40). What R242, R243, R246 and R248 make of those values is computed exactly. The exact functions are computed
to about 100 significant bits.
-/

namespace Sys2Proof.Machine

/-! ## Reals to about 100 bits: m × 2^e -/

/-- A real number, approximately. -/
structure Rl where
  m : Int
  e : Int
  deriving DecidableEq, Repr

/-- Keep 140 significant bits. -/
def Rl.trim (x : Rl) : Rl :=
  let k := Nat.log2 x.m.natAbs
  if k < 141 then x else ⟨x.m / (2 ^ (k - 140) : Int), x.e + ((k - 140 : Nat) : Int)⟩

/-- Product. -/
def Rl.mul (x y : Rl) : Rl := Rl.trim ⟨x.m * y.m, x.e + y.e⟩

/-- Sum; a term more than 400 binades below the other is dropped. -/
def Rl.add (x y : Rl) : Rl :=
  if x.m = 0 then y
  else if y.m = 0 then x
  else
    let a := if x.e ≤ y.e then x else y
    let b := if x.e ≤ y.e then y else x
    let d := (b.e - a.e).toNat
    if 600 < d then b else Rl.trim ⟨a.m + b.m * (2 ^ d : Int), a.e⟩

/-- Opposite. -/
def Rl.neg (x : Rl) : Rl := ⟨-x.m, x.e⟩

/-- Quotient by a nonzero number. -/
def Rl.div (x y : Rl) : Rl :=
  if y.m = 0 then ⟨0, 0⟩ else Rl.trim ⟨x.m * (2 ^ 200 : Int) / y.m, x.e - y.e - 200⟩

/-- One. -/
def Rl.one : Rl := ⟨1, 0⟩
/-- ln 2, log2 e and π to 140 bits. -/
def rlLn2 : Rl := ⟨966106166171702452789019208761976768099343, -140⟩
def rlLog2e : Rl := ⟨2010823406628030733297128842387837900889450, -140⟩
def rlPi : Rl := ⟨4378741080330103799233250808471022728399424, -140⟩

/-- ⌊x × 2^k⌋. -/
def Rl.floorAt (x : Rl) (k : Int) : Int :=
  let d := x.e + k
  if 0 ≤ d then x.m * (2 ^ d.toNat : Int) else x.m / (2 ^ (-d).toNat : Int)

/-- Terms of e^z, z in fixed point over 2^140. -/
def expTerms (z : Int) : Nat → Nat → Int → Int
  | 0, _, _ => 0
  | n + 1, k, t => t + expTerms z n (k + 1) (t * z / (2 ^ 140 : Int) / (k : Int))

/-- 2^x. -/
def Rl.exp2 (x : Rl) : Rl :=
  let lim : Int := 2 ^ 160
  let z := x.floorAt 140
  let z := if lim < z then lim else if z < -lim then -lim else z
  let n := z / (2 ^ 140 : Int)
  let f := z % (2 ^ 140 : Int)
  let w := f * rlLn2.m / (2 ^ 140 : Int)
  ⟨expTerms w 45 1 (2 ^ 140), n - 140⟩

/-- Fraction bits of log2 of m in [1, 2), m over 2^140, by squaring. -/
def logBits : Nat → Int → Int
  | 0, _ => 0
  | n + 1, m =>
    let q := m * m / (2 ^ 140 : Int)
    if (2 ^ 141 : Int) ≤ q then (2 ^ n : Int) + logBits n (q / 2) else logBits n q

/-- log2 of a positive number. -/
def Rl.log2 (x : Rl) : Rl :=
  let k := Nat.log2 x.m.natAbs
  let m := if k ≤ 140 then x.m * (2 ^ (140 - k) : Int) else x.m / (2 ^ (k - 140) : Int)
  Rl.trim ⟨(x.e + (k : Int)) * (2 ^ 120 : Int) + logBits 120 m, -120⟩

/-- Terms of the sine series: z over 2^140, z2 its square. -/
def sinTerms (z2 : Int) : Nat → Nat → Int → Int
  | 0, _, _ => 0
  | n + 1, k, t => t + sinTerms z2 n (k + 2) (-(t * z2 / (2 ^ 140 : Int)) / ((k * (k + 1) : Nat) : Int))

/-- sin(πu/2), u = p / 2^30 in [0, 1]. -/
def sinQuarter (p : Nat) : Rl :=
  let z := rlPi.m * (p : Int) / (2 ^ 31 : Int)
  Rl.trim ⟨sinTerms (z * z / (2 ^ 140 : Int)) 25 2 z, -140⟩

/-! ## FP32 values by ordinal -/

/-- The exponent of the leading bit of a nonzero number. -/
def Rl.top (x : Rl) : Int := (Nat.log2 x.m.natAbs : Int) + x.e

/-- The exponent of an FP32 ulp at a number: the gap of the two values that bracket it (R241). -/
def ulpExp (x : Rl) : Int := if x.m = 0 then -149 else max (x.top - 23) (-149)

/-- The greatest FP32 magnitude not above a number that is not negative, as its encoding; the least one not below it when `up`. -/
def magOrd (x : Rl) (up : Bool) : Nat :=
  if x.m = 0 then 0
  else
    let k := ulpExp x
    let q := (x.floorAt (-k)).toNat
    let exact := (⟨x.m, x.e⟩ : Rl).floorAt (-k) * (2 ^ 400 : Int) = x.floorAt (400 - k)
    let q := if up && !exact then q + 1 else q
    let n := if k = -149 then q else (k + 149).toNat * 2 ^ 23 + q
    min n 0x7F7FFFFF

/-- The greatest FP32 value not above a number, or the least not below it, by its ordinal: its encoding, negative for a negative
value. -/
def ordDown (x : Rl) : Int := if 0 ≤ x.m then (magOrd x false : Int) else -(magOrd x.neg true : Int)
def ordUp (x : Rl) : Int := if 0 ≤ x.m then (magOrd x true : Int) else -(magOrd x.neg false : Int)

/-- The value of a finite encoding. -/
def rlOf (v : FVal) : Rl := match v with | .fin s m e => ⟨sgnInt s m, e⟩ | _ => ⟨0, 0⟩

/-- 2^k. -/
def rlPow (k : Int) : Rl := ⟨1, k⟩

/-- The bounds (lo, hi) of a result, as ordinals: c ulp on either side. For a monotone function the lower one does not fall where a binade
begins. -/
def ulpBounds (g : Rl) (c : Int) : Int × Int :=
  let b : Rl := ⟨c, ulpExp g⟩
  let lo := ordUp (g.add b.neg)
  let base := rlPow g.top
  let lo' := ordUp (base.add ⟨-c, max (g.top - 24) (-149)⟩)
  (if 0 < g.m ∧ lo < lo' then lo' else lo, ordDown (g.add b))

/-- The bounds with an absolute error. -/
def errBounds (g err : Rl) : Int × Int := (ordUp (g.add err.neg), ordDown (g.add err))

/-- n × 10^-16. -/
def rlErr (n : Int) : Rl := Rl.div ⟨n, 0⟩ ⟨10000000000000000, 0⟩

/-- Keep bounds within [a, b]. -/
def clampBounds (r : Int × Int) (a b : Int) : Int × Int := (max r.1 a, min r.2 b)

/-- The greatest value lo + j, j ≤ n, whose step the input has reached; lo if none has. -/
def monoGo (fn : Nat) (x lo : Int) : Nat → Int
  | 0 => lo
  | n + 1 => if Config.sfuBreak fn (lo + (n : Int) + 1) ≤ x then lo + (n : Int) + 1 else monoGo fn x lo n

/-- The value that a monotone table gives for an input `x` in units of 2^-1100, within bounds that are monotone themselves. -/
def monoPick (fn : Nat) (x : Int) (b : Int × Int) : Int := monoGo fn x b.1 (b.2 - b.1).toNat

/-- An input in units of 2^-1100. -/
def sfuUnits (x : Rl) : Int := x.floorAt 1100

/-! ## Tables of quadratics -/

/-- A table of 2^`n` quadratics over [0, 1), in units of 2^-k: the coefficients of each segment as they are chosen, and from which segment on the start of a segment
may lie below the end of the one before. -/
structure SfuTab where
  n : Nat
  c0 : Nat → Int
  c1 : Nat → Int
  c2 : Nat → Int
  loose : Nat

/-- A coefficient: `c` of the Taylor series in units of 2^-k, and the free value as far as it goes, at most 2^-d either way. A quadratic that lies in the bounds of
09 R245 or R246 over its segment has no coefficient further off (log entry 40). -/
def sfuCoef (fn s i : Nat) (c : Rl) (k d : Int) : Int :=
  let lim := (rlPow (-d)).floorAt k
  c.floorAt k + max (-lim) (min lim (Config.sfuCoef fn s i))

/-- The value `z` / 2^`w` beyond the start of segment `s`, whose value there is `c`. -/
def SfuTab.poly (T : SfuTab) (s : Nat) (c z : Int) (w : Nat) : Int := c + (T.c1 s * z * 2 ^ w + T.c2 s * z * z) / 2 ^ (2 * w)

/-- The value at the start of a segment: not below that at the end of the one before (09 R244, R246). -/
def SfuTab.start (T : SfuTab) : Nat → Int
  | 0 => T.c0 0
  | s + 1 => if T.loose ≤ s + 1 then T.c0 (s + 1) else max (T.c0 (s + 1)) (T.poly s (T.start s) 1 T.n + 1)

/-- The value of a table at `z` / 2^`w` in [0, 1). -/
def SfuTab.value (T : SfuTab) (z : Int) (w : Nat) : Int :=
  let y := z * 2 ^ (T.n - w)
  let v := max w T.n
  let s := (y / 2 ^ (v - T.n)).toNat
  T.poly s (T.start s) (y - (s : Int) * 2 ^ (v - T.n)) v

/-- The values that an evaluation with at least 32 significant bits may give (09 R242, R243). -/
def sfuWindow (q : Int) : Int × Int := (q - q.natAbs / 2 ^ 32 - 1, q + q.natAbs / 2 ^ 32 + 1)

/-- Keep such values within bounds. -/
def sfuKeep (w b : Int × Int) : Int × Int := (min (max w.1 b.1) b.2, min w.2 b.2)

/-- Whether a value is tiny in FP32 after the first stage of rounding (05 R140, Table 5-6). -/
def tiny32 (m : Nat) (e : Int) (sticky : Bool) : Bool :=
  let k := Nat.log2 m + 1 - 24
  decide ((Nat.log2 (rneShift m k sticky).1 : Int) + e + k < -126)

/-- The one rounding of a function's value m × 2^e to FP32, with its flags: IX for every result that is not listed (R250). -/
def sfuRound (md : Bool × Bool) (s : Bool) (m : Nat) (e : Int) (sticky : Bool) : Nat × NF :=
  if m = 0 then (fp32.withSign s 0, { ix := true })
  else
    let r := fp32.roundFin md.1 md.2 s m e sticky
    (r.1, { r.2 with ix := true, uf := r.2.uf || tiny32 m e sticky })

/-! ## exp2 and log2 (R242-R245) -/

/-- ⌈x / y⌉ of integers, y positive. -/
def icdiv (x y : Int) : Int := -((-x) / y)

/-- The 64 quadratics of exp2, in units of 2^-40 (R242). c0[0] is exactly 1. -/
def exp2Tab : SfuTab :=
  let at' := fun (s : Nat) => Rl.exp2 ⟨(s : Int), -6⟩
  { n := 6, loose := 64
    c0 := fun s => if s = 0 then 2 ^ 40 else sfuCoef 0 s 0 (at' s) 40 23
    c1 := fun s => sfuCoef 0 s 1 ((at' s).mul rlLn2) 40 11
    c2 := fun s => sfuCoef 0 s 2 (((at' s).mul (rlLn2.mul rlLn2)).mul ⟨1, -1⟩) 40 5 }

/-- P(f), f in [0, 1), in units of 2^-40: the value of the quadratics, one for every n. P(0) is 1, and P is monotone over all segments and at most 2; it lies
within half an FP32 ulp of 2^f, which is what keeps the rounded result within 1 ulp (R242, R244, R245; log entry 40). -/
def exp2Table (f : Rl) : Int :=
  if f.m = 0 then 2 ^ 40
  else
    let g := f.exp2.floorAt 100
    let b := (max (2 ^ 40) (icdiv (g - 2 ^ 76) (2 ^ 60)), min (2 ^ 41) ((g + 2 ^ 76) / 2 ^ 60))
    monoPick 8 (sfuUnits f) (sfuKeep (sfuWindow (exp2Tab.value f.m (-f.e).toNat)) b)

/-- 2^x before its rounding, as m × 2^e: 2^n × P(x − n). Below 2^-1000 the exponent is held: no result changes. -/
def exp2Value (x : Rl) : Nat × Int :=
  let n := x.floorAt 0
  let f : Rl := if 0 ≤ x.e then ⟨0, 0⟩ else ⟨x.m % (2 ^ (-x.e).toNat : Int), x.e⟩
  ((exp2Table f).toNat, max n (-1000) - 40)

/-- exp2 of an exact value, to FP32 (R242, Table 9-2). -/
def sfuExp2 (ovm ftz : Bool) (v : FVal) : Nat × NF :=
  match v with
  | .nan sig => (fp32.nan, { iv := sig })
  | .inf s => (if s then 0 else fp32.inf, {})
  | .zero _ => (0x3F800000, {})
  | .fin s m e =>
    let x : Rl := ⟨sgnInt s m, e⟩
    let n := x.floorAt 0
    let whole : Bool := decide (0 ≤ e) || decide (m % 2 ^ (-e).toNat = 0)
    if 128 ≤ n then fp32.deliver ovm ftz (.fin false 1 200 true)
    else if whole && decide (-149 ≤ n) then fp32.roundFin ovm ftz false 1 n false
    else
      let p := exp2Value x
      sfuRound (ovm, ftz) false p.1 p.2 false

/-- The 64 quadratics of log2 over m - 1, in units of 2^-60 (R243). Q(0) of the first is 0. -/
def log2Tab : SfuTab :=
  let m := fun (s : Nat) => (⟨(64 + s : Nat), -6⟩ : Rl)
  { n := 6, loose := 64
    c0 := fun s => if s = 0 then 0 else sfuCoef 1 s 0 (m s).log2 60 23
    c1 := fun s => sfuCoef 1 s 1 (rlLog2e.div (m s)) 60 9
    c2 := fun s => sfuCoef 1 s 2 (((rlLog2e.div ((m s).mul (m s))).mul ⟨1, -1⟩).neg) 60 3 }

/-- Q(m), m = num / 2^l in (1, 2), in units of 2^-60: one table for every exponent, monotone, within 3 × 10^-8 of log2 m, which is what keeps the rounded result
within Table 9-3 (R243-R245; log entry 40). -/
def log2Table (num l : Nat) : Int :=
  let m : Rl := ⟨num, -(l : Int)⟩
  let g := m.log2.floorAt 100
  let err : Int := 2 ^ 100 * 3 / 100000000
  let b := (max 0 (icdiv (g - err) (2 ^ 40)), (g + err) / 2 ^ 40)
  monoPick 9 (sfuUnits m) (sfuKeep (sfuWindow (log2Tab.value ((num : Int) - 2 ^ l) l)) b)

/-- log2 of an FP32 encoding: e + Q(m), rounded once. -/
def sfuLog2 (ftz : Bool) (a : Nat) : Nat × NF :=
  let (v, f) := fp32.take ftz a
  match v with
  | .nan sig => (fp32.nan, { iv := sig })
  | .zero _ => (fp32.withSign true fp32.inf, { dz := true, fz := f.fz })
  | .inf s => if s then (fp32.nan, { iv := true }) else (fp32.inf, {})
  | .fin s m e =>
    if s then (fp32.nan, { iv := true })
    else
      let l := Nat.log2 m
      let k : Int := (l : Int) + e
      if m = 2 ^ l then ((fp32.deliver false false (fOfInt k).toX).1, {})
      else
        let z := k * 2 ^ 60 + log2Table m l
        sfuRound (false, false) (decide (z < 0)) z.natAbs (-60) false

/-! ## Sine and cosine (R246, R247) -/

/-- The bounds of sin(πu/2), u over 2^30 in (0, 1), as FP32 ordinals (Table 9-4). -/
def sinBounds (u : Nat) : Int × Int :=
  let g := sinQuarter u
  let a := clampBounds (errBounds g (rlErr 450000000)) 0 0x3F800000
  if g.top < -2 then a else let b := ulpBounds g 1; clampBounds a b.1 b.2

/-- The 128 quadratics of sin(πu/2), in units of 2^-60 (R246): the first through 0, and each rising over its segment. -/
def sinTab : SfuTab :=
  let sn := fun (s : Nat) => sinQuarter (s * 2 ^ 23)
  let c1 := fun (s : Nat) => sfuCoef 2 s 1 ((rlPi.mul (sinQuarter (2 ^ 30 - s * 2 ^ 23))).mul ⟨1, -1⟩) 60 11
  { n := 7, loose := 125
    c0 := fun s => if s = 0 then 0 else sfuCoef 2 s 0 (sn s) 60 23
    c1 := c1
    c2 := fun s => max (-(64 * c1 s)) (sfuCoef 2 s 2 (((rlPi.mul rlPi).mul ((sn s).mul ⟨1, -3⟩)).neg) 60 4) }

/-- The FP32 values, as ordinals, that a quadratic's value may be delivered as: those on either side of it, within the bounds. -/
def sinWindow (u : Nat) : Int × Int :=
  let w := sfuWindow (sinTab.value u 30)
  sfuKeep (ordDown ⟨w.1, -60⟩, ordUp ⟨w.2, -60⟩) (sinBounds u)

/-- The table of sin(πu/2) as FP32 ordinals: 128 segments. It rises from segment to segment, but may step back by 1 ulp at the start of the last `k` of them,
which are segments 125 to 127. -/
def sinTable : Nat → Nat → Int
  | 0, u => monoPick 16 u (sinWindow u)
  | k + 1, u =>
    if u / 2 ^ 23 ≤ 124 + k then sinTable k u
    else
      let b := sinWindow u
      monoPick (17 + k) u (sfuKeep (sinTable k ((125 + k) * 2 ^ 23 - 1) - 1, b.2) b)

/-- sinT of a phase of 32 bits: the other quadrants use the table by reflection and sign. Phases 0, 1/4, 1/2 and 3/4 are exact. -/
def sfuSin (p : Nat) : Nat × NF :=
  let p := p % 2 ^ 32
  let u := p % 2 ^ 30
  let neg := decide (2 ^ 31 ≤ p)
  let odd := decide (p / 2 ^ 30 % 2 = 1)
  if u = 0 then (if odd then fp32.withSign neg 0x3F800000 else 0, { ix := true })
  else (fp32.withSign neg (sinTable 3 (if odd then 2 ^ 30 - u else u)).toNat, { ix := true })

/-- cosT(φ) is sinT(φ + 1/4). -/
def sfuCos (p : Nat) : Nat × NF := sfuSin (p + 2 ^ 30)

/-- The phase of a position code: the fraction of p × g, g the FP64 frequency of column pair i of P, rounded to 32 bits (R247). -/
def posPhase (p i pp : Nat) : Nat :=
  let g := (Rl.exp2 (Rl.div ⟨-(2 * (pp : Int) + 14 * (i : Int)), 0⟩ ⟨(pp : Int), 0⟩)).trim
  let g64 := fp64.decode (fp64.roundFin false false false g.m.natAbs g.e false).1
  match g64 with
  | .fin _ m e =>
    let z := p * m
    let k := (-e).toNat
    (rneShift (z % 2 ^ k * 2 ^ 32) k false).1 % 2 ^ 32
  | _ => 0

/-- poscode(r, c) of an output row of d columns, AUX = aux. -/
def posCode (aux d r c : Nat) : Nat × NF :=
  let ph := posPhase ((aux + r) % 2 ^ 32) (c / 2) (cdiv d 2)
  if c % 2 = 0 then sfuSin ph else sfuCos ph

/-! ## Composed functions (R248, R249) -/

/-- log2 e, √(2/π) and 0.044715, rounded to FP64. -/
def fLog2e : FVal := .fin false 6497320848556798 (-52)
def fC1 : FVal := .fin false 7186705221432913 (-53)
def fC2 : FVal := .fin false 6444110634811895 (-57)

/-- A step in FP64: the result, rounded. -/
def round64 (x : XVal) : FVal := fp64.decode (fp64.deliver true false x).1

/-- An exact fraction num / den × 2^e, den positive. -/
structure Frac where
  num : Int
  den : Nat
  e : Int
  deriving DecidableEq, Repr

/-- Product. -/
def Frac.mul (a b : Frac) : Frac := ⟨a.num * b.num, a.den * b.den, a.e + b.e⟩
/-- Sum. -/
def Frac.add (a b : Frac) : Frac :=
  let e := min a.e b.e
  ⟨a.num * 2 ^ (a.e - e).toNat * b.den + b.num * 2 ^ (b.e - e).toNat * a.den, a.den * b.den, e⟩
/-- A decoded finite value. -/
def Frac.ofF (v : FVal) : Frac := let r := rlOf v; ⟨r.m, 1, r.e⟩
/-- The final rounding to FP32. -/
def Frac.round (md : Bool × Bool) (a : Frac) : Nat × NF :=
  let n := a.num.natAbs
  let k := 64 + Nat.log2 a.den
  sfuRound md (decide (a.num < 0)) (n * 2 ^ k / a.den) (a.e - k) (decide (n * 2 ^ k % a.den ≠ 0))

/-- E = exp2(−|y| × log2 e), its argument formed in FP64. -/
def expE (y : FVal) : Frac :=
  let a := round64 ((if y.sign then y else y.neg).mul fLog2e).1
  let p := exp2Value (rlOf a)
  ⟨(p.1 : Int), 1, p.2⟩

/-- σ(y), from the E of y. -/
def sigmaOf (neg : Bool) (e : Frac) : Frac :=
  let k := (-e.e).toNat
  let one : Nat := 2 ^ k
  let n := e.num.toNat
  if neg then ⟨(n : Int), one + n, 0⟩ else ⟨(one : Int), one + n, 0⟩

/-- σ(y) and σ(−y). -/
def sigmas (y : FVal) : Frac × Frac := let e := expE y; (sigmaOf y.sign e, sigmaOf (!y.sign) e)

/-- Twice a value. -/
def twice (v : FVal) : FVal := match v with | .fin s m e => .fin s m (e + 1) | x => x

/-- u of GELU in FP64, each step rounded. -/
def geluU (x : FVal) : FVal :=
  let x3 := round64 ((round64 (x.mul x).1).mul x).1
  round64 (fC1.mul (round64 (x.add (round64 (fC2.mul x3).1)).1)).1

/-- The exact value of ACT 4 to 7 and 11 to 14 of a finite nonzero input (Table 9-5). -/
def actFrac (act : Nat) (x : FVal) : Frac :=
  let fx := Frac.ofF x
  match act with
  | 4 => (sigmas x).1
  | 5 =>
    let e := expE (twice x)
    let one : Int := 2 ^ (-e.e).toNat
    ⟨(if x.sign then -1 else 1) * (one - e.num), (one + e.num).toNat, 0⟩
  | 6 => fx.mul (sigmas (twice (geluU x))).1
  | 7 => fx.mul (sigmas x).1
  | 11 => let g := sigmas x; g.1.mul g.2
  | 12 => let g := sigmas (twice x); (g.1.mul g.2).mul ⟨4, 1, 0⟩
  | 13 =>
    let g := sigmas (twice (geluU x))
    let d := (Frac.ofF fC1).mul (Frac.add ⟨1, 1, 0⟩ (((Frac.ofF fC2).mul (fx.mul fx)).mul ⟨3, 1, 0⟩))
    g.1.add (((fx.mul (g.1.mul g.2)).mul ⟨2, 1, 0⟩).mul d)
  | _ => let g := sigmas x; g.1.mul (Frac.add ⟨1, 1, 0⟩ (fx.mul g.2))

/-- The exact results of Table 9-6: at ±0, +∞ and −∞. -/
def actZero (act : Nat) (s : Bool) : Nat :=
  match act with
  | 4 => 0x3F000000 | 5 | 6 | 7 => fp32.withSign s 0 | 11 => 0x3E800000 | 12 => 0x3F800000 | _ => 0x3F000000
def actPosInf (act : Nat) : Nat :=
  match act with | 4 | 5 => 0x3F800000 | 6 | 7 => fp32.inf | 11 | 12 => 0 | _ => 0x3F800000
def actNegInf (act : Nat) : Nat :=
  match act with | 4 => 0 | 5 => 0xBF800000 | 6 | 7 => 0x80000000 | _ => 0

/-- tanh from 2^-12 on is not below what it is at the last value before, which is that value (R249). -/
def tanhKeep (r : Nat × NF) : Nat × NF := (if r.1 % 2 ^ 31 < 0x397FFFFF then r.1 / 2 ^ 31 * 2 ^ 31 + 0x397FFFFF else r.1, r.2)

/-- An activation or a derivative of an FP32 encoding (ACT 4 to 7 and 11 to 14). tanh of a magnitude below 2^-12 is the value itself. -/
def sfuAct (act : Nat) (md : Bool × Bool) (a : Nat) : Nat × NF :=
  let (v, f0) := fp32.take md.2 a
  let r : Nat × NF := match v with
    | .nan sig => (fp32.nan, { iv := sig })
    | .zero s => (actZero act s, {})
    | .inf s => (if s then actNegInf act else actPosInf act, {})
    | .fin s m e =>
      if act = 5 ∧ (rlOf v).top < -12 then sfuRound md s m e false
      else let r := (actFrac act v).round md; if act = 5 then tanhKeep r else r
  (r.1, r.2.or f0)

end Sys2Proof.Machine
end

