-- ==== Sys2Proof/Machine/Chain.lean ====
section
/-!
DEFINITION. The fused chain of the sheet engine (08 R217-R224): the fields of a sheet descriptor, the shape of its tensor, the elements it
reads and what the chain makes of one element.
-/

namespace Sys2Proof.Machine

/-! ## Fields of a sheet descriptor (Table 8-2) -/

/-- OPK. -/
def sdOpk (d : Desc) : Nat := dfld d 0 0 4
/-- TILE. -/
def sdTile (d : Desc) : Nat := dfld d 0 4 4
/-- The number of tiles. -/
def sdNtile (d : Desc) : Nat := dfld d 0 8 3 + 1
/-- TLAY: the tiles are stacked. -/
def sdStack (d : Desc) : Bool := dbit d 0 11
/-- OFMT, SFMT, EFMT. -/
def sdOfmt (d : Desc) : Nat := dfld d 0 12 4
def sdSfmt (d : Desc) : Nat := dfld d 0 16 4
def sdEfmt (d : Desc) : Nat := dfld d 0 20 4
/-- ACT and EOP. -/
def sdAct (d : Desc) : Nat := dfld d 0 24 4
def sdEop (d : Desc) : Nat := dfld d 0 28 2
/-- POS, CHKR, CHKW, BIAS_EN, REC. -/
def sdPos (d : Desc) : Bool := dbit d 0 31
def sdChkr (d : Desc) : Bool := dbit d 0 32
def sdChkw (d : Desc) : Bool := dbit d 0 33
def sdBias (d : Desc) : Bool := dbit d 0 34
def sdRec (d : Desc) : Bool := dbit d 0 37
/-- BREG, RKIND and k of top-k. -/
def sdBreg (d : Desc) : Nat := dfld d 0 35 2
def sdRkind (d : Desc) : Nat := dfld d 0 38 2
def sdK (d : Desc) : Nat := dfld d 0 40 4 + 1
/-- Offsets. -/
def sdSrc (d : Desc) : Nat := dfld d 3 0 32
def sdOut (d : Desc) : Nat := dfld d 3 32 32
def sdEoff (d : Desc) : Nat := dfld d 4 0 32
def sdAux (d : Desc) : Nat := dfld d 4 32 32
/-- NROW, NCOL, PARAM. -/
def sdNrow (d : Desc) : Nat := dfld d 5 0 16
def sdNcol (d : Desc) : Nat := dfld d 5 16 13
def sdParam (d : Desc) : Nat := dfld d 5 32 32
/-- Strides; 0 is packed. -/
def sdOstride (d : Desc) : Nat := dfld d 6 0 26
def sdSstride (d : Desc) : Nat := dfld d 6 26 26
def sdEstride (d : Desc) : Nat := dfld d 7 0 26
/-- OSCALE. -/
def sdOscale (d : Desc) : Nat := dfld d 7 32 32
/-- The slots it waits on. -/
def sdSlots (d : Desc) : List (Fin 96) :=
  ((((List.range 4).filter fun i => dbit d 1 (16 + i)).map fun i => dfld d 1 (4 * i) 4).eraseDups).map fun i =>
    Fin.ofNat 96 (48 + i)

/-- A sheet format (Table 8-4). -/
def sheetFmt (code : Nat) : NFmt :=
  match code with
  | 10 => .int 16 true | 11 => .int 16 false | 12 => .int 32 true | 13 => .int 32 false | 14 => .int 64 true | 15 => .int 64 false
  | c => fmtOf c
/-- Its width. -/
def sheetWidth (code : Nat) : Nat := (sheetFmt code).width

/-- Whether the source is tiles. -/
def sdTiles (d : Desc) : Bool :=
  match sdOpk d with
  | 0 | 1 | 4 => true
  | 3 | 7 | 8 | 9 => !dbit d 0 30
  | _ => false

/-- Whether the source is a canvas tensor. -/
def sdCanvas (d : Desc) : Bool :=
  match sdOpk d with
  | 2 | 6 => true
  | 3 | 7 | 8 | 9 => dbit d 0 30
  | _ => false

/-- The bytes of a packed row. -/
def rowBytes (w n : Nat) : Nat := cdiv (w * n) 8

/-- A tile as a descriptor reads it: its entries as they stand, under the record of its first read. -/
def State.tileOf (s : State) (m : MastId) (r : SRun) (t : Fin 16) : Tile :=
  match r.recs.find? fun p => decide (p.1 = t) with
  | some p => { p.2 with ents := (s.tile m t).ents }
  | none => s.tile m t

/-- Rows and columns of the source tensor (R222). -/
def State.shape (s : State) (m : MastId) (r : SRun) (d : Desc) : Nat × Nat :=
  if sdTiles d then
    let fore := (s.tileOf m r (Fin.ofNat 16 (sdTile d))).rig
    if sdStack d then (sdNtile d * rowLanes fore, tileCols fore) else (rowLanes fore, sdNtile d * tileCols fore)
  else (sdNrow d, sdNcol d)

/-- PASS_K.ROWS of a tile. -/
def State.tileRows (s : State) (m : MastId) (t : Nat) : Nat :=
  ((s.array m (Fin.ofNat 2 (t / 8))).passK.get (Fin.ofNat 8 (t % 8))).rows.toNat

/-- Whether W is FP64 (R219). -/
def State.wide (s : State) (m : MastId) (r : SRun) (d : Desc) : Bool :=
  if sdTiles d then decide (2 ≤ (s.tileOf m r (Fin.ofNat 16 (sdTile d))).type.toNat)
  else decide (sdSfmt d = 0 ∨ 12 ≤ sdSfmt d)
/-- W. -/
def State.wfmt (s : State) (m : MastId) (r : SRun) (d : Desc) : FFmt := if s.wide m r d then fp64 else fp32

/-! ## Elements -/

/-- The tile and the entry of an element of a tile source. -/
def tileAt (d : Desc) (fore : Bool) (row col : Nat) : Nat × Nat :=
  let c := tileCols fore
  let r := rowLanes fore
  if sdStack d then (sdTile d + row / r, row % r * c + col) else (sdTile d + col / c, row * c + col % c)

/-- The exact value of an entry of a tile under its record (07 R190); an invalid scale is replaced (05 R139). -/
def entryVal (t : Tile) (ftz : Bool) (n : Nat) : FVal × NF :=
  let e := (Sparse.get t.ents n).toNat
  let r : FVal × NF := match t.type.toNat with
    | 2 => (fOfInt (signedOf 32 e), {})
    | 3 => fp64.take ftz e
    | _ => fp32.take ftz (e % 2 ^ 32)
  let rs := useScale t.rscale.toNat
  let cs := useScale t.cscale.toNat
  let v := match r.1, fp32.decode rs.1, fp32.decode cs.1 with
    | .fin s m e, .fin _ a x, .fin _ b y => FVal.fin s (m * a * b) (e + x + y + (t.shift.toNat : Int))
    | v, _, _ => v
  (v, r.2.or { si := rs.2 || cs.2 })

/-- An element of a canvas tensor. -/
def State.canvElem (s : State) (m : MastId) (off stride code ncol row col : Nat) : Nat :=
  let w := sheetWidth code
  let st := if stride = 0 then rowBytes w ncol else stride
  bitsAt (s.sliceByte m) (8 * (off + st * row) + w * col) w

/-- The source value of an element. -/
def State.srcVal (s : State) (m : MastId) (d : Desc) (r : SRun) (row col : Nat) : FVal × NF :=
  if sdTiles d then
    let p := tileAt d (s.tileOf m r (Fin.ofNat 16 (sdTile d))).rig row col
    entryVal (s.tileOf m r (Fin.ofNat 16 p.1)) r.modes.2 p.2
  else (sheetFmt (sdSfmt d)).take r.modes.2 (s.canvElem m (sdSrc d) (sdSstride d) (sdSfmt d) (sdNcol d) row col)

/-- An entry of a bias register. -/
def State.bregVal (s : State) (m : MastId) (b : Nat) (ftz : Bool) (col : Nat) : FVal × NF :=
  fp32.take ftz (Mem.load (s.mast m).sheet.breg (0x1000 * b + 4 * (col % 1024)) 4)

/-! ## The chain (R218) -/

/-- round_W. -/
def wRound (f : FFmt) (md : Bool × Bool) (x : XVal) : FVal × NF :=
  let r := f.deliver md.1 md.2 x
  (f.decode r.1, r.2)

/-- v1: the source value scaled and, with BIAS_EN, biased. -/
def State.chainV1 (s : State) (m : MastId) (d : Desc) (r : SRun) (row col : Nat) : FVal × NF :=
  let md := r.modes
  let a := s.srcVal m d r row col
  let os := useScale (sdOscale d)
  let o := fp32.decode os.1
  let f := s.wfmt m r d
  let b := if sdBias d then s.bregVal m (sdBreg d) md.2 col else (FVal.zero false, {})
  let x := if sdBias d then a.1.fma o b.1 else a.1.mul o
  let r := wRound f md x.1
  (r.1, ((a.2.or b.2).or r.2).or { iv := x.2, si := os.2 })

/-- A value above 0. -/
def FVal.pos (v : FVal) : Bool := match v with | .fin s _ _ => !s | .inf s => !s | _ => false
/-- A value below 0. -/
def FVal.below (v : FVal) : Bool := match v with | .fin s _ _ => s | .inf s => s | _ => false

/-- The clamp to [−|p|, |p|]. -/
def clampVal (p v : FVal) : FVal :=
  let lim : FVal := match p with | .fin _ m e => .fin false m e | .zero _ => .zero false | x => x
  match v with
  | .nan _ => .nan false
  | _ =>
    let mag : FVal := match v with | .fin _ m e => .fin false m e | .zero _ => .zero false | .inf _ => .inf false | x => x
    if mag.cmp lim = .gt then (if v.sign then lim.neg else lim) else v

/-- An activation of code 0 to 9 on a value of W (Table 8-5), before its rounding. -/
def actVal (act param : Nat) (md : Bool × Bool) (v : FVal) : FVal × NF :=
  match act with
  | 0 => (v, {})
  | 1 => (if v.isNan then .nan false else if v.pos then v else .zero false, {})
  | 2 =>
    if v.below then
      let p := fp32.take md.2 param
      let x := p.1.mul v
      (x.1.toF, p.2.or { iv := x.2 })
    else (v, {})
  | 3 => let p := fp32.take md.2 param; (clampVal p.1 v, p.2)
  | _ =>
    let x := fp32.deliver md.1 md.2 v.toX
    let r := if act = 8 then sfuExp2 md.1 md.2 (fp32.decode x.1) else if act = 9 then sfuLog2 md.2 x.1 else sfuAct act md x.1
    (fp32.decode r.1, x.2.or r.2)

/-- The derivative factor of ACT 10 to 14 at an operand. -/
def derivVal (act : Nat) (md : Bool × Bool) (e : FVal) : FVal × NF :=
  if act = 10 then (if e.isNan then .nan false else if e.pos then .fin false 1 0 else .zero false, { iv := e.isSig })
  else
    let x := fp32.deliver md.1 md.2 e.toX
    let r := sfuAct act md x.1
    (fp32.decode r.1, (x.2.or r.2).or { iv := e.isSig })

/-- v3 of an element from its v1 and its operand. -/
def chainV3 (f : FFmt) (d : Desc) (md : Bool × Bool) (ncol row col : Nat) (v1 e : FVal) : FVal × NF :=
  let act := sdAct d
  let r3 : FVal × NF :=
    if act ≤ 9 then
      let a := actVal act (sdParam d) md v1
      let v2 := wRound f md a.1.toX
      let fl := a.2.or v2.2
      match sdEop d with
      | 1 => let x := v2.1.add e; let r := wRound f md x.1; (r.1, (fl.or r.2).or { iv := x.2 })
      | 2 => let x := v2.1.mul e; let r := wRound f md x.1; (r.1, (fl.or r.2).or { iv := x.2 })
      | _ => (v2.1, fl)
    else
      let k := derivVal act md e
      let x := v1.mul k.1
      let r := wRound f md x.1
      (r.1, (k.2.or r.2).or { iv := x.2 })
  if sdPos d then
    let p := posCode (sdAux d) ncol row col
    let x := r3.1.add (fp32.decode p.1)
    let r := wRound f md x.1
    (r.1, ((r3.2.or p.2).or r.2).or { iv := x.2 })
  else r3

/-- v3 of an element. -/
def State.chainElem (s : State) (m : MastId) (d : Desc) (run : SRun) (row col : Nat) : FVal × NF :=
  let md := run.modes
  let v1 := s.chainV1 m d run row col
  let ncol := (s.shape m run d).2
  let e := if sdEop d = 0 then (FVal.zero false, {})
           else (sheetFmt (sdEfmt d)).take md.2 (s.canvElem m (sdEoff d) (sdEstride d) (sdEfmt d) ncol row col)
  let r := chainV3 (s.wfmt m run d) d md ncol row col v1.1 e.1
  (r.1, (v1.2.or e.2).or r.2)

/-- Pack values of a width, the first in the low bits; a last half byte is filled with 0. -/
def packVals (w : Nat) (vs : List Nat) : List Byte :=
  toBytes (rowBytes w vs.length) (vs.foldr (fun v a => v % 2 ^ w + 2 ^ w * a) 0)

end Sys2Proof.Machine
end

