-- ==== Sys2Proof/Machine/RowOps.lean ====
section
/-!
DEFINITION. The whole-row operations of the sheet engine: reductions and top-k (08 R228-R230), softmax, RMS normalisation and row
statistics (09 R251-R262). Each takes the values of one row and gives what the row writes.
-/

namespace Sys2Proof.Machine

/-- maximumNumber of two decoded values (05 R148). -/
def FVal.maxN (a b : FVal) : FVal :=
  if a.isNan then (if b.isNan then .nan false else b)
  else if b.isNan then a
  else match a.cmp b with | .lt => b | .gt => a | .eq => if a.sign then b else a
/-- minimumNumber. -/
def FVal.minN (a b : FVal) : FVal := (a.neg.maxN b.neg).neg
/-- The magnitude. -/
def FVal.absV (a : FVal) : FVal := if a.sign then a.neg else a
/-- Equal as numbers. -/
def FVal.same (a b : FVal) : Bool := !a.isNan && !b.isNan && decide (a.cmp b = .eq)

/-- All the flags of a list. -/
def orAll (fs : List NF) : NF := fs.foldl NF.or {}

/-- An FP64 step: the value of a result rounded to FP64, with its flags added. -/
def step64 (md : Bool × Bool) (acc : NF) (x : XVal) (iv : Bool) : FVal × NF :=
  let r := wRound fp64 md x
  (r.1, (acc.or r.2).or { iv := iv })

/-- Add in FP64, in order (each addition rounded), from a start value. -/
def sum64 (md : Bool × Bool) (start : FVal) (vs : List FVal) : FVal × NF :=
  vs.foldl (fun a v => let x := a.1.add v; step64 md a.2 x.1 x.2) (start, {})

/-- The encoding of a decoded value in a format that holds it. -/
def FFmt.enc (f : FFmt) (v : FVal) : Nat := (f.deliver false false v.toX).1

/-! ## Reductions (08 R228, R229) -/

/-- The columns of the `k` largest values that are not NaN, in descending order, lower columns first among equal ones. -/
def topPick : Nat → List (Nat × FVal) → List (Nat × FVal)
  | 0, _ => []
  | k + 1, vs =>
    let best := vs.foldl (fun (b : Option (Nat × FVal)) v =>
      match b with
      | none => some v
      | some w => if w.2.cmp v.2 = .lt then some v else some w) none
    match best with
    | none => []
    | some w => w :: topPick k (vs.filter fun v => v.1 ≠ w.1)

/-- Top-k of a row: values and indices, and the sticky bits NANSKIP and TOPK_SHORT. -/
def topK (k : Nat) (vs : List FVal) : List (Option FVal × Nat) × Bool × Bool :=
  let named := (List.range vs.length).zip vs
  let ok := named.filter fun v => !v.2.isNan
  let best := topPick k ok
  (best.map (fun w => (some w.2, w.1)) ++ List.replicate (k - best.length) (none, 0xFFFFFFFF),
   decide (ok.length < named.length), decide (best.length < k))

/-! ## Softmax (09 R251-R255) -/

/-- What a row of OPK 7 makes: its state (M, L), the rescale factor, the p values and the flags. -/
structure SoftRow where
  m : FVal
  l : FVal
  f : FVal
  ps : List FVal
  fl : NF
  deriving DecidableEq, Repr

/-- exp2 of an exact difference. -/
def expDiff (md : Bool × Bool) (a b : FVal) : Nat × NF :=
  let x := a.add b.neg
  let r := sfuExp2 md.1 md.2 x.1.toF
  (r.1, r.2.or { iv := x.2 })

/-- Softmax of one row from its v1 values and the old state (09 R253, R255). A signalling NaN in the state sets IV at the maximum (05 R148). -/
def softRow (md : Bool × Bool) (vs : List FVal) (mOld lOld : FVal) : SoftRow :=
  let part := vs.foldl FVal.maxN (FVal.nan false)
  let m := mOld.maxN part
  let fr : Nat × NF := if m.same mOld then (0x3F800000, {}) else expDiff md mOld m
  let f := fp32.decode fr.1
  let one := fun (v : FVal) =>
    if v.isNan then (FVal.nan false, ({} : NF))
    else match m with
      | .inf true => (.zero false, {})
      | .inf false => (if v = .inf false then .fin false 1 0 else .zero false, {})
      | _ => let r := expDiff md v m; (fp32.decode r.1, r.2)
  let ps := vs.map one
  let t : FVal × NF := if m = .inf true then (.zero false, {}) else
    let x := lOld.mul f
    step64 md {} x.1 x.2
  let sm := sum64 md (.zero false) (ps.map (·.1))
  let x := t.1.add sm.1
  let l := step64 md ((t.2.or sm.2).or fr.2) x.1 x.2
  { m := m, l := l.1, f := f, ps := ps.map (·.1), fl := (l.2.or (orAll (ps.map (·.2)))).or { iv := mOld.isSig } }

/-- r = round_W(1 / l). -/
def recipW (f : FFmt) (md : Bool × Bool) (l : FVal) : FVal × NF :=
  let x := (FVal.fin false 1 0).div l
  let r := wRound f md x.1
  (r.1, r.2.or { iv := x.2.1, dz := x.2.2 })

/-- A row divided by its running sum: +0 where the sum is +0. -/
def divRow (f : FFmt) (md : Bool × Bool) (l : FVal) (vs : List FVal) : List FVal × NF :=
  if l = .zero false then (vs.map fun _ => .zero false, {})
  else
    let r := recipW f md l
    let os := vs.map fun v => let x := v.mul r.1; let q := wRound f md x.1; (q.1, q.2.or { iv := x.2 })
    (os.map (·.1), r.2.or (orAll (os.map (·.2))))

/-! ## RMS normalisation (09 R258) -/

/-- A row of OPK 8: the v1 values, the gains and ε. -/
def rmsRow (f : FFmt) (md : Bool × Bool) (eps : FVal) (vs gs : List FVal) : List FVal × NF :=
  let ss := vs.foldl (fun (a : FVal × NF) v =>
    let q := v.mul v
    let q' := step64 md a.2 q.1 q.2
    let x := a.1.add q'.1
    step64 md q'.2 x.1 x.2) (FVal.zero false, ({} : NF))
  let x1 := ss.1.div (fOfInt (vs.length : Int))
  let mean := step64 md ss.2 x1.1 x1.2.1
  let x2 := mean.1.add eps
  let s2 := step64 md mean.2 x2.1 x2.2
  let x3 := s2.1.sqrt
  let s3 := step64 md s2.2 x3.1 x3.2
  let x4 := (FVal.fin false 1 0).div s3.1
  let s4 := step64 md (s3.2.or { dz := x4.2.2 }) x4.1 x4.2.1
  let os := (vs.zip gs).map fun p =>
    let y := p.1.mul s4.1
    let z := y.1.toF.mul p.2
    let r := wRound f md z.1
    (r.1, r.2.or { iv := y.2 || z.2 })
  (os.map (·.1), s4.2.or (orAll (os.map (·.2))))

/-! ## Statistics (09 R260-R262) -/

/-- Whether a value is finite. -/
def FVal.isFin (v : FVal) : Bool := match v with | .zero _ => true | .fin _ _ _ => true | _ => false

/-- The running state of Welford's method: n, mean, M2, the flags and VCLAMP. -/
structure Welford where
  n : Nat
  mean : FVal
  m2 : FVal
  fl : NF
  clamp : Bool
  deriving DecidableEq, Repr

/-- One value. -/
def Welford.add (md : Bool × Bool) (w : Welford) (x : FVal) : Welford :=
  let n := w.n + 1
  let x1 := x.add w.mean.neg
  let d := step64 md w.fl x1.1 x1.2
  let x2 := d.1.div (fOfInt (n : Int))
  let q := step64 md d.2 x2.1 x2.2.1
  let x3 := w.mean.add q.1
  let mean := step64 md q.2 x3.1 x3.2
  let x4 := x.add mean.1.neg
  let e := step64 md mean.2 x4.1 x4.2
  let x5 := d.1.mul e.1
  let p := step64 md e.2 x5.1 x5.2
  let x6 := w.m2.add p.1
  let m2 := step64 md p.2 x6.1 x6.2
  { n := n, mean := mean.1, m2 := if m2.1.below then .zero false else m2.1, fl := m2.2, clamp := w.clamp || m2.1.below }

/-- The statistics record of a row, its flags and VCLAMP (Table 9-10). -/
def statsRow (md : Bool × Bool) (vs : List FVal) : List Byte × NF × Bool :=
  let w := (vs.filter FVal.isFin).foldl (Welford.add md) { n := 0, mean := .zero false, m2 := .zero false, fl := {}, clamp := false }
  let var := if w.n = 0 then (FVal.nan false, w.fl) else
    let x := w.m2.div (fOfInt (w.n : Int))
    step64 md w.fl x.1 x.2.1
  let mean := if w.n = 0 then FVal.nan false else w.mean
  let mn := vs.foldl FVal.minN (.nan false)
  let mx := vs.foldl FVal.maxN (.nan false)
  let am := (vs.map FVal.absV).foldl FVal.maxN (.nan false)
  let enc := fun (v : FVal) => toBytes 8 (if v.isNan then fp64.nan else fp64.enc v)
  let count := fun (p : FVal → Bool) => toBytes 4 (vs.filter p).length
  let inf := fun (v : FVal) => match v with | .inf _ => true | _ => false
  let zero := fun (v : FVal) => match v with | .zero _ => true | _ => false
  (enc mean ++ enc var.1 ++ enc mn ++ enc mx ++ enc am ++ count FVal.isFin ++ count inf ++ count FVal.isNan ++ count zero ++ toBytes 8 0,
   var.2, w.clamp)

/-- The bin of a value in the exponent histogram (R262). -/
def histBin (v : FVal) : Nat :=
  match v with
  | .zero _ => 0
  | .fin _ m e =>
    let k := (Nat.log2 m : Int) + e
    if k ≤ -31 then 1 else if 30 ≤ k then 62 else (k + 32).toNat
  | _ => 63

end Sys2Proof.Machine
end

