-- ==== Sys2Proof/Machine/Sheet.lean ====
section
/-!
DEFINITION. The sheet engine at work (08 R215-R240; 09 R251-R264): the checks of a descriptor, its start, its beats, its completion, and
stopping. A beat command of OPK 3, 7, 8 and 9 takes the values of one beat; what the row makes of them is written with its last beat (log entry 41).
-/

namespace Sys2Proof.Machine

/-! ## Checks at the start (R234, 09 R256) -/

/-- The bytes of an output row. -/
def outRowBytes (d : Desc) (cols : Nat) : Nat :=
  match sdOpk d with
  | 3 => rowBytes (sheetWidth (sdOfmt d)) (if sdRkind d = 2 then sdK d else 1)
  | 9 => 64
  | _ => rowBytes (sheetWidth (sdOfmt d)) cols

/-- The bytes from the first to past the last of `rows` rows. -/
def spanBytes (rows stride rb : Nat) : Nat := if rows = 0 then 0 else (rows - 1) * (if stride = 0 then rb else stride) + rb

/-- The bytes of a tile image of SAVE or LOAD. -/
def imageBytes (d : Desc) : Nat := if sdRec d then 32784 else 32768

/-- The canvas regions of a descriptor: offset and bytes. -/
def sheetRegions (d : Desc) (rows cols : Nat) : List (Nat × Nat) :=
  let opk := sdOpk d
  (if sdCanvas d then [(sdSrc d, spanBytes rows (sdSstride d) (rowBytes (sheetWidth (sdSfmt d)) cols))] else []) ++
  (if opk = 5 then [(sdSrc d, sdNtile d * imageBytes d)] else []) ++
  (if opk = 4 then [(sdOut d, sdNtile d * imageBytes d)] else []) ++
  (if opk = 0 ∨ opk = 2 ∨ opk = 3 ∨ opk = 7 ∨ opk = 8 ∨ opk = 9 then [(sdOut d, spanBytes rows (sdOstride d) (outRowBytes d cols))] else []) ++
  (if sdEop d ≠ 0 then [(sdEoff d, spanBytes rows (sdEstride d) (rowBytes (sheetWidth (sdEfmt d)) cols))] else []) ++
  (if opk = 3 ∧ sdRkind d = 2 then [(sdAux d, 4 * sdK d * rows)] else []) ++
  (if opk = 7 then [(sdAux d, 16 * rows)] else []) ++ (if opk = 9 then [(sdAux d, 256)] else [])

/-- A region that leaves the slice or spans two tiers. -/
def regionBad (r : Nat × Nat) : Bool := decide (0x4000000 < r.1 + r.2) || decide (0 < r.2 ∧ tierOf r.1 ≠ tierOf (r.1 + r.2 - 1))

/-- An output region that does not start on a 4 KiB boundary and fill whole blocks (R231): its rows follow one another or overlap, or each row is whole
blocks by itself. -/
def unblocked (off rows stride rb : Nat) : Bool :=
  decide (off % 4096 ≠ 0) ||
    (if stride ≤ rb ∨ rows ≤ 1 then decide (spanBytes rows stride rb % 4096 ≠ 0) else decide (rb % 4096 ≠ 0 ∨ stride % 4096 ≠ 0))

/-- CHKW asks for an output of whole 4 KiB blocks (R227, R231). -/
def chkwBad (d : Desc) (rows cols : Nat) : Bool :=
  let opk := sdOpk d
  sdChkw d &&
    (decide (opk = 1) ||
     (decide (opk = 4) && decide (sdOut d % 4096 ≠ 0 ∨ sdNtile d * imageBytes d % 4096 ≠ 0)) ||
     (decide (opk ≠ 1 ∧ opk ≠ 4 ∧ opk ≠ 5 ∧ opk ≠ 6) && unblocked (sdOut d) rows (sdOstride d) (outRowBytes d cols)) ||
     (decide (opk = 3 ∧ sdRkind d = 2) && decide (sdAux d % 4096 ≠ 0 ∨ 4 * sdK d * rows % 4096 ≠ 0)))

/-- Reserved codes and bits; AUX is an offset but for a position (R217, R232). -/
def sheetReserved (d : Desc) : Bool :=
  decide (10 ≤ sdOpk d ∨ sdEop d = 3 ∨ sdAct d = 15 ∨ (sdOpk d = 3 ∧ sdRkind d = 3)) || decide (dfld d 0 44 20 ≠ 0) ||
  decide (dfld d 1 22 42 ≠ 0) || decide (dfld d 2 32 32 ≠ 0) || decide (dfld d 5 29 3 ≠ 0) || decide (dfld d 6 52 12 ≠ 0) ||
  decide (dfld d 7 26 6 ≠ 0) || decide (0x4000000 ≤ sdSrc d) || decide (0x4000000 ≤ sdOut d) || decide (0x4000000 ≤ sdEoff d) ||
  (!sdPos d && decide (0x4000000 ≤ sdAux d))

/-- The rules of the operation kinds. -/
def sheetKindBad (d : Desc) (srcTiles : Bool) : Bool :=
  let opk := sdOpk d
  let act := sdAct d
  decide (15 < sdTile d + sdNtile d - 1) || (decide (opk = 1) && sdStack d) ||
  (srcTiles && decide (sdNrow d ≠ 0 ∨ sdNcol d ≠ 0 ∨ sdSrc d ≠ 0 ∨ sdSstride d ≠ 0)) ||
  (sdCanvas d && decide (sdNrow d = 0 ∨ sdNcol d = 0 ∨ 4096 < sdNcol d)) ||
  (decide (10 ≤ act) && decide (sdEop d ≠ 2)) || (decide (4 ≤ opk) && decide (sdEop d ≠ 0)) ||
  (decide (act = 2 ∨ act = 3) && decide (fld (sdParam d) 23 8 = 255)) || (sdPos d && decide (2 < opk)) ||
  (decide (opk = 4) && decide (sdOfmt d ≠ 0)) || (decide (opk = 5) && decide (sdSfmt d ≠ 0)) ||
  (decide (opk = 6) && decide (sdNrow d ≠ 1 ∨ 1024 < sdNcol d ∨ sdSstride d ≠ 0)) ||
  (decide (opk = 7) && (decide (act ≠ 0 ∨ sdAux d % 16 ≠ 0) || (decide (sdRkind d ≠ 2) && decide (sdK d ≠ 1)) ||
    (decide (sdRkind d = 2) && srcTiles && decide (sdTile d ≤ sdK d - 1 ∧ sdK d - 1 < sdTile d + sdNtile d)))) ||
  (decide (opk = 8) && (decide (act ≠ 0) || sdBias d)) ||
  (decide (opk = 9) && decide (act ≠ 0 ∨ sdOfmt d ≠ 0 ∨ sdAux d % 128 ≠ 0))

/-- A descriptor that faults with kind DESC at its start; the shape of a tile source is that of the record as it stands. -/
def State.sheetBad (s : State) (m : MastId) (d : Desc) : Bool :=
  let sh := s.shape m { modes := (false, false), recs := [] } d
  sheetReserved d || sheetKindBad d (sdTiles d) || chkwBad d sh.1 sh.2 || (sheetRegions d sh.1 sh.2).any regionBad

/-! ## Progress -/

/-- The rows of a descriptor as SHEET_PROG counts them (R223, R227). -/
def State.sheetRows (s : State) (m : MastId) (r : SRun) (d : Desc) : Nat :=
  match sdOpk d with
  | 1 => min (s.tileRows m (sdTile d)) (s.shape m r d).1
  | 4 | 5 => sdNtile d * (if sdRec d then 33 else 32)
  | 6 => 1
  | _ => (s.shape m r d).1

/-- The rows of one beat, and the beats of one row (R223). -/
def State.beatShape (s : State) (m : MastId) (r : SRun) (d : Desc) : Nat × Nat :=
  let n := (s.shape m r d).2
  match sdOpk d with
  | 4 | 5 => (1, 1)
  | _ => if n ≤ 128 ∧ n ≠ 0 ∧ 128 % n = 0 then (128 / n, 1) else (1, cdiv n 128)

/-- The beats a descriptor has yet to issue. -/
def State.beatsLeft (s : State) (m : MastId) (r : SRun) (d : Desc) (row beat : Nat) : Nat :=
  let b := s.beatShape m r d
  let k := s.sheetRows m r d - row
  if b.2 = 1 then cdiv k b.1 else k * b.2 - beat

/-- The segments of a beat: row, first column, columns. -/
def State.beatSegs (s : State) (m : MastId) (r : SRun) (d : Desc) (row beat : Nat) : List (Nat × Nat × Nat) :=
  let b := s.beatShape m r d
  let n := (s.shape m r d).2
  if b.2 = 1 then (List.range (min b.1 (s.sheetRows m r d - row))).map fun i => (row + i, 0, n)
  else [(row, 128 * beat, min 128 (n - 128 * beat))]

/-- Whether a beat is the last of its row. -/
def State.endsRow (s : State) (m : MastId) (r : SRun) (d : Desc) (beat : Nat) : Bool := decide ((s.beatShape m r d).2 ≤ beat + 1)

/-- The slice bytes that segments of a canvas tensor touch. -/
def segBytes (off stride code ncol : Nat) (segs : List (Nat × Nat × Nat)) : List (Nat × Nat) :=
  let w := sheetWidth code
  let st := if stride = 0 then rowBytes w ncol else stride
  segs.map fun g => (off + st * g.1 + w * g.2.1 / 8, rowBytes w g.2.2)

/-- The place of an output segment: an offset into OUT, or of a mapped row. -/
def State.segOut (s : State) (m : MastId) (r : SRun) (d : Desc) (g : Nat × Nat × Nat) : Nat :=
  let w := sheetWidth (sdOfmt d)
  let rb := rowBytes w (s.shape m r d).2
  if sdOpk d = 1 then Mem.load (s.mast m).rowmap (0x400 * sdTile d + 16 * g.1 + 8) 4 + w * g.2.1 / 8
  else sdOut d + g.1 * (if sdOstride d = 0 then rb else sdOstride d) + w * g.2.1 / 8

/-- The offset of the results of a row of OPK 3 (R228, R229). -/
def State.reduceOut (s : State) (m : MastId) (r : SRun) (d : Desc) (row : Nat) : Nat :=
  sdOut d + row * (if sdOstride d = 0 then outRowBytes d (s.shape m r d).2 else sdOstride d)

/-- The lines that byte ranges touch. -/
def linesIn (rs : List (Nat × Nat)) : Nat :=
  ((rs.flatMap fun r => if r.2 = 0 then [] else (List.range ((r.1 + r.2 - 1) / 128 - r.1 / 128 + 1)).map (r.1 / 128 + ·)).eraseDups).length

/-- n_b of a beat (R224); an image row of SAVE or LOAD counts its lines, and a beat of OPK 9 takes at least 8 cc (09 R263). -/
def State.beatCost (s : State) (m : MastId) (r : SRun) (d : Desc) (row beat : Nat) : Nat :=
  let segs := s.beatSegs m r d row beat
  let n := (s.shape m r d).2
  let act := sdAct d
  let per := if sdRec d then 33 else 32
  let image := fun (base : Nat) => linesIn [(base + row / per * imageBytes d + 1024 * (row % per), if row % per = 32 then 16 else 1024)]
  let src := if sdCanvas d then linesIn (segBytes (sdSrc d) (sdSstride d) (sdSfmt d) n segs) else if sdOpk d = 5 then image (sdSrc d) else 0
  let opnd := if sdEop d ≠ 0 then linesIn (segBytes (sdEoff d) (sdEstride d) (sdEfmt d) n segs)
    else if sdOpk d = 7 then linesIn (segs.map fun g => (sdAux d + 16 * g.1, 16)) else 0
  let out := match sdOpk d with
    | 0 | 1 | 2 | 7 => linesIn (segs.map fun g => (s.segOut m r d g, rowBytes (sheetWidth (sdOfmt d)) g.2.2))
    | 3 => if s.endsRow m r d beat then
        linesIn (segs.map fun g => (s.reduceOut m r d g.1, rowBytes (sheetWidth (sdOfmt d)) (if sdRkind d = 2 then sdK d else 1))) else 0
    | 4 => image (sdOut d)
    | _ => 0
  let index := if sdOpk d = 3 ∧ sdRkind d = 2 ∧ s.endsRow m r d beat then linesIn (segs.map fun g => (sdAux d + 4 * sdK d * g.1, 4 * sdK d)) else 0
  let sfu := if 4 ≤ act ∧ act ≠ 10 then 4 else 0
  let fixed := if sdOpk d = 9 then 8 else if sdOpk d = 3 ∧ sdRkind d = 2 ∧ 8 < sdK d then 2 else 1
  [src, opnd, out, index, sfu + (if sdPos d then 8 else 0), fixed].foldl max 1

/-- The least cc from the next beat of a started descriptor to its last, if they are at most 3: `n` beats are left, `row` and `beat` are next. OPK 7, but
for FINISH, and OPK 8 end each group with a sweep that is longer (09 R257, R259). -/
def State.beatSpan (s : State) (m : MastId) (r : SRun) (d : Desc) (row beat : Nat) : Option Nat :=
  let n := s.beatsLeft m r d row beat
  if n = 0 then some 0
  else if sdOpk d = 8 ∨ (sdOpk d = 7 ∧ sdRkind d ≠ 3) ∨ 4 < n then none
  else
    let b := s.beatShape m r d
    let c := ((List.range (n - 1)).map fun i =>
      if b.2 = 1 then s.beatCost m r d (row + b.1 * i) 0 else s.beatCost m r d (row + (beat + i) / b.2) ((beat + i) % b.2)).sum
    if c ≤ 3 then some c else none

/-- A fault of the sheet engine (R237, 18 Table 18-9). -/
def State.sheetFault (s : State) (m : MastId) (c : SCmd) (kind row : Nat) : State :=
  (s.modSheet m fun x =>
    { x with faulted := true, stopReq := true, fKind := BitVec.ofNat 4 kind, fDaddr := c.daddr, fRow := BitVec.ofNat 16 row
             fPc := c.pc }).jobFault m 4 (match kind with | 2 => 1 | 3 => 2 | _ => 4)

/-- Whether the engine takes work. -/
def State.sheetOpen (s : State) (m : MastId) : Bool :=
  let x := (s.mast m).sheet
  s.engSet m 4 && !x.stopped && !x.stopReq && !x.faulted

/-- Whether a descriptor reads canvas: a source, an operand, the softmax state or the histogram. -/
def readsCanvas (d : Desc) : Bool :=
  sdCanvas d || decide (sdOpk d = 5) || decide (sdEop d ≠ 0) || (decide (sdOpk d = 7) && decide (2 ≤ sdRkind d)) || decide (sdOpk d = 9)

/-- The least cc until the last beat of every started descriptor at the front of a queue has issued, if they are at most 3: the head goes on at SHEET_PROG,
and each one behind it takes its first beat in the cc after the last of the one before (R225, R226). -/
def State.startedSpan (s : State) (m : MastId) (row beat : Nat) : List SCmd → Option Nat
  | [] => some 0
  | c :: rest =>
    match c.run with
    | none => some 0
    | some r =>
      match s.beatSpan m r c.desc row beat, State.startedSpan s m 0 0 rest with
      | some a, some b => let n := a + b + (match rest with | q :: _ => if q.run.isSome then 1 else 0 | [] => 0); if n ≤ 3 then some n else none
      | _, _ => none

/-- The first descriptor that has not started and its place, if it may start now (R225): nothing has started before it, or the last beats of what has are
at most 3 cc ahead. One that reads canvas waits for every earlier write. -/
def State.sheetNext (s : State) (m : MastId) : Option (Nat × SCmd) :=
  let x := (s.mast m).sheet
  let i := (x.queue.takeWhile fun c => c.run.isSome).length
  match x.queue[i]? with
  | none => none
  | some c =>
    if readsCanvas c.desc then (if i = 0 && x.fin.isEmpty then some (i, c) else none)
    else if (s.startedSpan m x.row.toNat x.beat x.queue).isSome then some (i, c) else none

/-- The issue of the head has ended: it waits for its last write. The descriptor behind it is now the head. -/
def State.sheetIssued (s : State) (m : MastId) : State :=
  s.modSheet m fun x =>
    match x.queue with
    | c :: rest =>
      { x with queue := rest, extra := x.extra - 1, fin := x.fin ++ [c], owed := x.owed ++ [x.replies.length - x.owed.sum], row := 0, beat := 0, vals := [], hist := none
               st := match rest with | n :: _ => if n.run.isSome then 1 else 0 | [] => 0 }
    | [] => x

/-- Every started head that has no beat left has ended its issue (R227). -/
def State.settleGo (s : State) (m : MastId) : Nat → State
  | 0 => s
  | n + 1 =>
    let x := (s.mast m).sheet
    match x.queue with
    | c :: _ => (match c.run with
      | some r => if s.beatsLeft m r c.desc x.row.toNat x.beat = 0 then (s.sheetIssued m).settleGo m n else s
      | none => s)
    | [] => s

/-- A descriptor that starts with no beat, and those behind it, end their issue at once (R227). -/
def State.sheetSettle (s : State) (m : MastId) : State := s.settleGo m (s.mast m).sheet.queue.length

/-- The start of a descriptor of kind `opk` (R225, R234, R237): one whose words were read with an uncorrectable error, or whose fields or DONE are bad,
faults and consumes nothing. -/
def State.sheetStart (s : State) (m : MastId) (opk : Nat) : State :=
  match s.sheetNext m with
  | none => s
  | some (i, c) =>
    let d := c.desc
    let slots := sdSlots d
    if !s.sheetOpen m ∨ (sdOpk d ≠ opk ∧ sdOpk d < 10) ∨ !s.haveTokens m slots then s
    else if c.bad then s.sheetFault m c 2 0
    else if s.sheetBad m d then s.sheetFault m c 1 0
    else if dbit d 1 20 && badToken (BitVec.ofNat 32 (dfld d 2 0 32)) then s.sheetFault m c 4 0
    else
      let run : SRun := { modes := ((s.mast m).num.ovm, (s.mast m).num.ftz), recs := [] }
      let s := (s.consume m slots).clearStall m 4
      let s := s.modSheet m fun x => { x with queue := listSet x.queue i { c with run := some run } }
      let s := if i = 0 then s.modSheet m fun x => { x with st := 1, row := 0, beat := 0, vals := [], hist := none } else s
      s.sheetSettle m

/-! ## One beat -/

/-- The cells of tiles and bias registers that a beat reads: the entries of its segments, of its image row or of a rescaled row, and the bias or gain of its
columns (R237). -/
def State.beatCells (s : State) (m : MastId) (r : SRun) (d : Desc) (row : Nat) (segs : List (Nat × Nat × Nat)) (ends : Bool) : Cell → Bool
  | .tile k t e =>
    let fore := (s.tileOf m r (Fin.ofNat 16 (sdTile d))).rig
    let per := if sdRec d then 33 else 32
    decide (k = m) &&
      (match sdOpk d with
       | 4 => decide (t.val = sdTile d + row / per ∧ e / 128 = row % per)
       | 5 => false
       | _ => sdTiles d && segs.any fun g => (List.range g.2.2).any fun j => decide (tileAt d fore g.1 (g.2.1 + j) = (t.val, e))) ||
    (decide (k = m ∧ sdOpk d = 7 ∧ sdRkind d = 2 ∧ t.val = sdK d - 1) && ends &&
      segs.any fun g => decide (e / tileCols (s.tile m t).rig = g.1))
  | .breg k w =>
    decide (k = m) && (sdBias d || decide (sdOpk d = 8)) && decide (4 ≠ sdOpk d ∧ 5 ≠ sdOpk d ∧ 6 ≠ sdOpk d) &&
      segs.any fun g => (List.range g.2.2).any fun j => decide (w = (0x1000 * sdBreg d + 4 * ((g.2.1 + j) % 1024)) / 8)
  | _ => false

/-- The fault that canvas reads meet: 2 an uncorrectable error, 3 a checksum mismatch under CHKR. -/
def State.readFault (s : State) (m : MastId) (chkr : Bool) (rs : List (Nat × Nat)) : Option Nat :=
  if rs.any fun r => s.badWords (sliceAddr m r.1) r.2 then some 2
  else if chkr && rs.any fun r =>
      (List.range (cdiv (r.1 % 4096 + r.2) 4096)).any fun i => s.crcBad (sliceAddr m (r.1 - r.1 % 4096 + 4096 * i)) then some 3
  else none

/-- Write output to the slice; with checksums, each 4 KiB block whose last byte is written gets its CRC (R231, 11 R279). -/
def State.sliceWrite (s : State) (m : MastId) (chkw : Bool) (off : Nat) (bs : List Byte) : State :=
  if !chkw then s.canvasWrite (sliceAddr m off) bs
  else (List.range ((off + bs.length) / 4096 - off / 4096)).foldl (fun t i => t.setCrc m 4 (sliceAddr m (4096 * (off / 4096 + i))))
    (s.canvasPut (some (m, 4)) (sliceAddr m off) bs)

/-- Sticky bits of SHEET_STICKY: 0 VCLAMP, 1 NANSKIP, 2 TOPK_SHORT, 3 TYPE0. -/
def State.sheetSticky (s : State) (m : MastId) (i : Nat) (on : Bool) : State :=
  if on then s.modSheet m fun x => { x with sticky := x.sticky ||| BitVec.ofNat 4 (2 ^ i) } else s

/-- The tiles whose entries a beat reads or writes: those of its segments, and tile O with the end of a row (09 R254). -/
def State.beatTiles (s : State) (m : MastId) (r : SRun) (d : Desc) (row : Nat) (segs : List (Nat × Nat × Nat)) (ends : Bool) : List (Fin 16) :=
  let fore := (s.tileOf m r (Fin.ofNat 16 (sdTile d))).rig
  let per := if sdRec d then 33 else 32
  (match sdOpk d with
   | 4 | 5 => [Fin.ofNat 16 (sdTile d + row / per)]
   | _ =>
     if !sdTiles d then []
     else segs.flatMap fun g =>
       let a := (tileAt d fore g.1 g.2.1).1
       let b := (tileAt d fore g.1 (g.2.1 + g.2.2 - 1)).1
       (List.range (b + 1 - a)).map fun i => Fin.ofNat 16 (a + i)) ++
  (if sdOpk d = 7 ∧ sdRkind d = 2 ∧ ends then [Fin.ofNat 16 (sdK d - 1)] else [])

/-- A descriptor with the records of the tiles that it reads for the first time (R222, 07 R211; log entry 99). -/
def State.firstReads (s : State) (m : MastId) (r : SRun) (ts : List (Fin 16)) : SRun :=
  ts.foldl (fun r t => if r.recs.any fun p => decide (p.1 = t) then r else { r with recs := r.recs ++ [(t, { s.tile m t with ents := [] })] }) r

/-- The row of a record check that fails at the first read of a tile: a source tile of another TYPE or RIG than the first (R222), or a tile O of the wrong
type or row count (09 R256). `ts` are the tiles that are read for the first time. -/
def State.recordBad (s : State) (m : MastId) (r : SRun) (d : Desc) (row : Nat) (ts : List (Fin 16)) : Option Nat :=
  let t0 := s.tileOf m r (Fin.ofNat 16 (sdTile d))
  let isO := fun (t : Fin 16) => decide (sdOpk d = 7 ∧ sdRkind d = 2 ∧ t.val = sdK d - 1)
  let differs := fun (t : Fin 16) => sdTiles d && !isO t && decide ((s.tile m t).type ≠ t0.type ∨ (s.tile m t).rig ≠ t0.rig)
  let badO := fun (t : Fin 16) => isO t && decide (((s.tile m t).type ≠ 1 ∧ (s.tile m t).type ≠ 3) ∨ rowLanes (s.tile m t).rig ≠ (s.shape m r d).1)
  match ts.find? fun t => differs t || badO t with
  | some t =>
    some (if isO t then row else if sdOpk d = 4 then (t.val - sdTile d) * (if sdRec d then 33 else 32)
      else if sdStack d then (t.val - sdTile d) * rowLanes t0.rig else 0)
  | none => none

/-- The output of the chain over segments: bytes of each segment, and the flags. -/
def State.chainSegs (s : State) (m : MastId) (d : Desc) (run : SRun) (segs : List (Nat × Nat × Nat)) :
    List ((Nat × Nat × Nat) × List Byte) × NF :=
  let md := run.modes
  let os := segs.map fun g =>
    let vs := (List.range g.2.2).map fun j =>
      let v := s.chainElem m d run g.1 (g.2.1 + j)
      let r := (sheetFmt (sdOfmt d)).put md.1 md.2 v.1
      (r.1, v.2.or r.2)
    ((g, packVals (sheetWidth (sdOfmt d)) (vs.map (·.1))), orAll (vs.map (·.2)))
  (os.map (·.1), orAll (os.map (·.2)))

/-- The fault of a mapped row: an unaligned RESULT_OFF or one that leaves the slice (5), or a bad REPLY (4) (Table 8-8). -/
def State.mapFault (s : State) (m : MastId) (r : SRun) (d : Desc) (g : Nat × Nat × Nat) : Option Nat :=
  let e := 0x400 * sdTile d + 16 * g.1
  let off := Mem.load (s.mast m).rowmap (e + 8) 4
  if sdOpk d ≠ 1 then none
  else if off % 128 ≠ 0 ∨ 0x4000000 < off + rowBytes (sheetWidth (sdOfmt d)) (s.shape m r d).2 then some 5
  else if dbit d 1 21 && badToken (BitVec.ofNat 32 (Mem.load (s.mast m).rowmap (e + 4) 4)) then some 4
  else none

/-- Count elements written (SHEET_ELEMS). -/
def State.sheetElems (s : State) (m : MastId) (n : Nat) : State := s.bumpBy m 0x10048 n

/-- Set flags of the SHEET group. -/
def State.sheetFlags (s : State) (m : MastId) (f : NF) : State := s.modMast m fun x => x.setFlags 3 f

/-- Chain output: DRAIN, MAP and EWISE. -/
def State.beatChain (s : State) (m : MastId) (d : Desc) (run : SRun) (segs : List (Nat × Nat × Nat)) : State :=
  let o := s.chainSegs m d run segs
  let s := o.1.foldl (fun t g => t.sliceWrite m (sdChkw d) (t.segOut m run d g.1) g.2) s
  (s.sheetFlags m o.2).sheetElems m (segs.map fun g => g.2.2).sum

/-- A beat of a row operation: the values of all its rows are taken, with their flags; then, at the end of a row, `fin` writes what the values of each whole row make
(09 R257, R259). Values of earlier beats of the row are kept as encodings of W. -/
def State.rowOp (s : State) (m : MastId) (f : FFmt) (ends : Bool) (segs : List (Nat × Nat × Nat)) (val : State → Nat → Nat → FVal × NF)
    (fin : State → Nat → List FVal → State) : State :=
  (segs.map fun g => (g, (List.range g.2.2).map fun j => val s g.1 (g.2.1 + j))).foldl (fun t p =>
    let g := p.1
    let vs := p.2
    let t := t.sheetFlags m (orAll (vs.map (·.2)))
    let all := ((t.mast m).sheet.vals.map f.decode) ++ vs.map (·.1)
    if ends then fin (t.modSheet m fun x => { x with vals := [] }) g.1 all
    else t.modSheet m fun x => { x with vals := x.vals ++ vs.map fun v => f.enc v.1 }) s

/-- A row of OPK 3 from its v3 values (R228, R229). The places of a top-k row without a value receive 0, and no flag, in an integer OFMT, which has no default NaN
(DESIGN CHOICE, log entry 128). -/
def State.reduceRow (s : State) (m : MastId) (d : Desc) (md : Bool × Bool) (row : Nat) (vals : List FVal) : State :=
  let fmt := sheetFmt (sdOfmt d)
  let out := sdOut d + row * (if sdOstride d = 0 then outRowBytes d vals.length else sdOstride d)
  if sdRkind d = 2 then
    let k := topK (sdK d) vals
    let nan := match fmt with | .flt f => f.nan | .int _ _ => 0
    let rs := k.1.map fun p => match p.1 with | some v => fmt.put md.1 md.2 v | none => (nan, ({} : NF))
    let s := (s.sliceWrite m (sdChkw d) out (packVals fmt.width (rs.map (·.1)))).sliceWrite m (sdChkw d) (sdAux d + 4 * sdK d * row)
      (k.1.flatMap fun p => toBytes 4 p.2)
    let s := (s.sheetSticky m 1 k.2.1).sheetSticky m 2 k.2.2
    (s.sheetFlags m (orAll (rs.map (·.2)))).sheetElems m (sdK d)
  else
    let r : FVal × NF := if sdRkind d = 0 then sum64 md (.zero true) vals else (vals.foldl FVal.maxN (.nan false), {})
    let q := fmt.put md.1 md.2 r.1
    ((s.sliceWrite m (sdChkw d) out (packVals fmt.width [q.1])).sheetFlags m (r.2.or q.2)).sheetElems m 1

/-- Beats of OPK 3. -/
def State.beatReduce (s : State) (m : MastId) (d : Desc) (run : SRun) (segs : List (Nat × Nat × Nat)) (ends : Bool) : State :=
  s.rowOp m (s.wfmt m run d) ends segs (fun t i j => t.chainElem m d run i j) fun t i vs => t.reduceRow m d run.modes i vs

/-- The record words of a tile (07 Table 7-8). -/
def Tile.metaWord (t : Tile) : Word :=
  BitVec.ofNat 64 (t.type.toNat + 4 * b2n t.rig + 8 * b2n t.folub + 16 * t.repeats.toNat + 256 * t.shift.toNat + 65536 * t.inflight.toNat)
def Tile.scaleWord (t : Tile) : Word := BitVec.ofNat 64 (t.rscale.toNat + 2 ^ 32 * t.cscale.toNat)
/-- Write ACC_META: INFLIGHT is read-only, and a SHIFT that is no multiple of 8 up to 32 writes 0. -/
def Tile.setMeta (t : Tile) (v : Nat) : Tile :=
  let sh := fld v 8 6
  { t with type := BitVec.ofNat 2 v, rig := decide (fld v 2 1 = 1), folub := decide (fld v 3 1 = 1), repeats := BitVec.ofNat 3 (fld v 4 3)
           shift := if sh % 8 = 0 ∧ sh ≤ 32 then BitVec.ofNat 6 sh else 0 }
/-- Write ACC_SCALE. -/
def Tile.setScale (t : Tile) (v : Nat) : Tile := { t with rscale := BitVec.ofNat 32 v, cscale := BitVec.ofNat 32 (v / 2 ^ 32) }

/-- The bytes of entries `n` to `n + 128` of a tile. -/
def Tile.entryBytes (t : Tile) (n : Nat) : List Byte := (List.range 128).flatMap fun i => toBytes 8 (Sparse.get t.ents (n + i)).toNat
/-- Write entries from bytes. -/
def Tile.putEntries (t : Tile) (n : Nat) (bs : List Byte) : Tile :=
  { t with ents := (List.range (bs.length / 8)).foldl (fun e i => Sparse.set e (n + i) (BitVec.ofNat 64 (ofBytes ((bs.drop (8 * i)).take 8)))) t.ents }

/-- A beat of SAVE or LOAD: 128 entries, or a record (R223, 07 R192). SHEET_ELEMS counts its 64-bit words (DESIGN CHOICE, log entry 129). -/
def State.beatImage (s : State) (m : MastId) (d : Desc) (row : Nat) : State :=
  let per := if sdRec d then 33 else 32
  let t : Fin 16 := Fin.ofNat 16 (sdTile d + row / per)
  let j := row % per
  let off := row / per * imageBytes d + 1024 * j
  if sdOpk d = 4 then
    let x := s.tile m t
    let bs := if j = 32 then toBytes 8 x.metaWord.toNat ++ toBytes 8 x.scaleWord.toNat else x.entryBytes (128 * j)
    (s.sliceWrite m (sdChkw d) (sdOut d + off) bs).sheetElems m (bs.length / 8)
  else
    let bs := Mem.bytes s.ram (sliceAddr m (sdSrc d + off)) (if j = 32 then 16 else 1024)
    let s := (s.modTile m t fun x =>
      if j = 32 then (x.setMeta (ofBytes (bs.take 8))).setScale (ofBytes (bs.drop 8)) else x.putEntries (128 * j) bs).mend fun c =>
        match c with | .tile k u e => decide (k = m ∧ u = t ∧ j < 32 ∧ e / 128 = j) | _ => false
    s.sheetElems m (bs.length / 8)

/-- A beat of BLOAD: its elements converted to FP32 into the register. SHEET_ELEMS counts the entries (DESIGN CHOICE, log entry 129). -/
def State.beatBload (s : State) (m : MastId) (d : Desc) (md : Bool × Bool) (segs : List (Nat × Nat × Nat)) : State :=
  segs.foldl (fun s g =>
    let vs := (List.range g.2.2).map fun j =>
      convert (sheetFmt (sdSfmt d)) (.flt fp32) md.1 md.2 (s.canvElem m (sdSrc d) 0 (sdSfmt d) (sdNcol d) 0 (g.2.1 + j))
    let lo := 0x1000 * sdBreg d + 4 * g.2.1
    let s := (s.modSheet m fun x => { x with breg := Mem.put x.breg lo (vs.flatMap fun v => toBytes 4 v.1) }).mend fun c =>
      match c with | .breg k w => decide (k = m ∧ lo ≤ 8 * w ∧ 8 * w + 8 ≤ lo + 4 * g.2.2) | _ => false
    (s.sheetFlags m (orAll (vs.map (·.2)))).sheetElems m g.2.2) s

/-- Values converted and packed as an output row. -/
def putRow (d : Desc) (md : Bool × Bool) (vs : List FVal) : List Byte × NF :=
  let rs := vs.map fun v => (sheetFmt (sdOfmt d)).put md.1 md.2 v
  (packVals (sheetWidth (sdOfmt d)) (rs.map (·.1)), orAll (rs.map (·.2)))

/-- Output values of OPK 7 and 8 are written in row `i` from column `c` on, of a row of `n` columns. -/
def State.rowOut (s : State) (m : MastId) (d : Desc) (md : Bool × Bool) (i n c : Nat) (vs : List FVal) (fl : NF) : State :=
  let w := sheetWidth (sdOfmt d)
  let p := putRow d md vs
  let out := sdOut d + i * (if sdOstride d = 0 then rowBytes w n else sdOstride d) + w * c / 8
  ((s.sliceWrite m (sdChkw d) out p.1).sheetFlags m (fl.or p.2)).sheetElems m vs.length

/-- Rescale row `i` of tile O by a factor (09 R254). -/
def State.rescale (s : State) (m : MastId) (o : Fin 16) (md : Bool × Bool) (i : Nat) (f : FVal) : State :=
  if f.same (.fin false 1 0) then s
  else
    let t := s.tile m o
    let c := tileCols t.rig
    let fmt := if t.type = 3 then fp64 else fp32
    let r := (List.range c).foldl (fun (a : Tab × NF) j =>
      let n := i * c + j
      let v := fmt.take md.2 ((Sparse.get t.ents n).toNat % 2 ^ fmt.w)
      let x := v.1.mul f
      let q := fmt.deliver md.1 md.2 x.1
      (Sparse.set a.1 n (BitVec.ofNat 64 q.1), (((a.2.or v.2).or q.2).or { iv := x.2 }))) (t.ents, ({} : NF))
    ((s.modTile m o fun t => { t with ents := r.1 }).mend fun k =>
      match k with | .tile n u e => decide (n = m ∧ u = o ∧ e / c = i) | _ => false).sheetFlags m r.2

/-- The state of a softmax row in canvas, as it is read: M under FTZ as any FP32 input, and L (09 R252; 05 R144). -/
def State.softState (s : State) (m : MastId) (d : Desc) (md : Bool × Bool) (i : Nat) : FVal × FVal × NF :=
  let st := sliceAddr m (sdAux d + 16 * i)
  let a := fp32.take md.2 (Mem.load s.ram st 4)
  let b := fp64.take md.2 (Mem.load s.ram (st + 8) 8)
  (a.1, b.1, a.2.or b.2)

/-- A whole row of OPK 7, but for FINISH (09 R253-R255): its outputs, its state, and, in mode NEXT, the rescaled row of tile O. The rounding of m to M has its
flags (05 R149). `st` is the old state, which the group reads before it writes. -/
def State.softmaxRow (s : State) (m : MastId) (d : Desc) (run : SRun) (st : FVal × FVal × NF) (i : Nat) (vs : List FVal) : State :=
  let md := run.modes
  let old := if sdRkind d < 2 then (FVal.inf true, FVal.zero false, ({} : NF)) else st
  let r := softRow md vs old.1 old.2.1
  let mq : Nat × NF := if r.m.isNan then (fp32.nan, {}) else fp32.deliver md.1 md.2 r.m.toX
  let sb := toBytes 4 mq.1 ++ toBytes 4 0 ++ toBytes 8 (if r.l.isNan then fp64.nan else fp64.enc r.l)
  let s := (s.sliceWrite m false (sdAux d + 16 * i) sb).sheetFlags m (old.2.2.or (r.fl.or mq.2))
  if sdRkind d = 0 then
    let q := divRow (s.wfmt m run d) md r.l r.ps
    s.rowOut m d md i vs.length 0 q.1 q.2
  else
    (if sdRkind d = 2 then s.rescale m (Fin.ofNat 16 (sdK d - 1)) md i r.f else s).rowOut m d md i vs.length 0 r.ps {}

/-- A beat of FINISH: its values divided by the running sum of their row, which the first beat of the row reads (09 R253). -/
def State.beatFinish (s : State) (m : MastId) (d : Desc) (run : SRun) (segs : List (Nat × Nat × Nat)) (ends : Bool) : State :=
  let n := (s.shape m run d).2
  (segs.map fun g => (g, (List.range g.2.2).map fun j => s.chainV1 m d run g.1 (g.2.1 + j))).foldl (fun t p =>
    let g := p.1
    let vs := p.2
    let st := s.softState m d run.modes g.1
    let l := match (t.mast m).sheet.vals with | e :: _ => fp64.decode e | [] => st.2.1
    let r := divRow (t.wfmt m run d) run.modes l (vs.map (·.1))
    let t := t.sheetFlags m ((orAll (vs.map (·.2))).or st.2.2)
    let t := t.modSheet m fun x => { x with vals := if ends then [] else [fp64.enc l] }
    t.rowOut m d run.modes g.1 n g.2.1 r.1 r.2) s

/-- Beats of OPK 7 (09 R253-R255). -/
def State.beatSoftmax (s : State) (m : MastId) (d : Desc) (run : SRun) (segs : List (Nat × Nat × Nat)) (ends : Bool) : State :=
  if sdRkind d = 3 then s.beatFinish m d run segs ends
  else s.rowOp m (s.wfmt m run d) ends segs (fun t i j => t.chainV1 m d run i j) fun t i vs => t.softmaxRow m d run (s.softState m d run.modes i) i vs

/-- A row of OPK 8 (09 R258). -/
def State.rmsRowOut (s : State) (m : MastId) (d : Desc) (run : SRun) (i : Nat) (vs : List FVal) : State :=
  let md := run.modes
  let gs := (List.range vs.length).map fun j => s.bregVal m (sdBreg d) md.2 j
  let eps := fp32.take md.2 (sdParam d)
  let r := rmsRow (s.wfmt m run d) md eps.1 vs (gs.map (·.1))
  s.rowOut m d md i vs.length 0 r.1 ((orAll (gs.map (·.2))).or (eps.2.or r.2))

/-- Beats of OPK 8. -/
def State.beatRms (s : State) (m : MastId) (d : Desc) (run : SRun) (segs : List (Nat × Nat × Nat)) (ends : Bool) : State :=
  s.rowOp m (s.wfmt m run d) ends segs (fun t i j => t.chainV1 m d run i j) fun t i vs => t.rmsRowOut m d run i vs

/-- A row of OPK 9: its record, and its histogram counts, which are added to the bins as they were read (09 R260-R263).
SHEET_ELEMS counts the values of the row (DESIGN CHOICE, log entry 129). -/
def State.statsRowOut (s : State) (m : MastId) (d : Desc) (run : SRun) (i : Nat) (vs : List FVal) : State :=
  let r := statsRow run.modes vs
  let out := sdOut d + i * (if sdOstride d = 0 then 64 else sdOstride d)
  let s := (s.sliceWrite m (sdChkw d) out r.1).sheetSticky m 0 r.2.2
  let s := s.modSheet m fun x => { x with hist := x.hist.map fun h => vs.foldl (fun h v => Tab.inc h (histBin v)) h }
  (s.sheetFlags m r.2.1).sheetElems m vs.length

/-- The bins of a histogram as canvas holds them. -/
def State.histBins (s : State) (m : MastId) (d : Desc) : Tab :=
  (List.range 64).foldl (fun (h : Tab) i => Sparse.set h i (BitVec.ofNat 64 (Mem.load s.ram (sliceAddr m (sdAux d + 4 * i)) 4))) []

/-- Beats of OPK 9; the first reads the bins (09 R263). -/
def State.beatStats (s : State) (m : MastId) (d : Desc) (run : SRun) (segs : List (Nat × Nat × Nat)) (ends : Bool) : State :=
  let bins := s.histBins m d
  let s := s.modSheet m fun x => { x with hist := some (x.hist.getD bins) }
  s.rowOp m (s.wfmt m run d) ends segs (fun t i j => t.chainV1 m d run i j) fun t i vs => t.statsRowOut m d run i vs

/-- Write the bins with the counts added, saturating, at the end or at a stop (09 R262-R264). -/
def State.flushHist (s : State) (m : MastId) (d : Desc) : State :=
  match (s.mast m).sheet.hist with
  | none => s
  | some h =>
    let bs := (List.range 64).flatMap fun i => toBytes 4 (min (2 ^ 32 - 1) (Sparse.get h i).toNat)
    (s.sliceWrite m false (sdAux d) bs).modSheet m fun x => { x with hist := none }

/-- The effect of one beat. -/
def State.beatEffect (s : State) (m : MastId) (d : Desc) (run : SRun) (row : Nat) (segs : List (Nat × Nat × Nat)) (ends : Bool) : State :=
  match sdOpk d with
  | 3 => s.beatReduce m d run segs ends
  | 4 | 5 => s.beatImage m d row
  | 6 => s.beatBload m d run.modes segs
  | 7 => s.beatSoftmax m d run segs ends
  | 8 => s.beatRms m d run segs ends
  | 9 => s.beatStats m d run segs ends
  | _ => s.beatChain m d run segs

/-- The canvas that a beat reads: source, operand, the softmax state (09 R252), and, with the first beat, the histogram (09 R263). -/
def State.beatReads (s : State) (m : MastId) (r : SRun) (d : Desc) (row : Nat) (segs : List (Nat × Nat × Nat)) : List (Nat × Nat) :=
  let per := if sdRec d then 33 else 32
  let n := (s.shape m r d).2
  (if sdCanvas d then segBytes (sdSrc d) (sdSstride d) (sdSfmt d) n segs else []) ++
  (if sdOpk d = 5 then [(sdSrc d + row / per * imageBytes d + 1024 * (row % per), if row % per = 32 then 16 else 1024)] else []) ++
  (if sdEop d ≠ 0 then segBytes (sdEoff d) (sdEstride d) (sdEfmt d) n segs else []) ++
  (if sdOpk d = 7 ∧ 2 ≤ sdRkind d then segs.map fun g => (sdAux d + 16 * g.1, 16) else []) ++
  (if sdOpk d = 9 ∧ (s.mast m).sheet.hist.isNone then [(sdAux d, 256)] else [])

/-- The sweeps in which the beats of a group are issued (09 R257, R259). -/
def sheetSweeps (d : Desc) : Nat :=
  if sdOpk d = 7 then (match sdRkind d with | 0 => 3 | 1 | 2 => 2 | _ => 1) else if sdOpk d = 8 then 2 else 1

/-- After a beat: SHEET_BUSY counts it, and with the end of a group the beats of its later sweeps (log entry 127), SHEET_PROG moves, a mapped row that is complete has its REPLY due, and the descriptor may be at its last beat. -/
def State.beatDone (s : State) (m : MastId) (d : Desc) (run : SRun) (segs : List (Nat × Nat × Nat)) (ends : Bool) : State :=
  let b := s.beatShape m run d
  let x := (s.mast m).sheet
  let rows := s.sheetRows m run d
  let row := if ends then min rows (x.row.toNat + (if b.2 = 1 then b.1 else 1)) else x.row.toNat
  let rs : List (BitVec 32) :=
    if sdOpk d = 1 ∧ dbit d 1 21 ∧ ends then
      segs.map fun g => BitVec.ofNat 32 (Mem.load (s.mast m).rowmap (0x400 * sdTile d + 16 * g.1 + 4) 4)
    else []
  let s := (s.modSheet m fun x =>
    { x with row := BitVec.ofNat 16 row, beat := if ends then 0 else x.beat + 1, replies := x.replies ++ rs }).bumpBy m 0x10030 (1 + if ends then (sheetSweeps d - 1) * b.2 else 0)
  if row = rows then ((s.flushHist m d).sheetIssued m).sheetSettle m else s

/-- Whether the descriptor in front goes on under a stop: up to the end of a row, and a BLOAD to its end (R235). -/
def State.goesOn (s : State) (m : MastId) (d : Desc) : Bool :=
  let x := (s.mast m).sheet
  !x.stopReq || decide (x.beat ≠ 0) || decide (sdOpk d = 6)

/-- SHEET_BEAT: the descriptor in front issues its next beat and writes what it makes (R218, R226), or faults (R237). A tile with passes in flight holds the
first read of it, and no later one (07 R211). A running descriptor issues no further beat once one behind it has faulted at its start (DESIGN CHOICE, log
entry 126). -/
def State.sheetBeat (s : State) (m : MastId) : State :=
  let x := (s.mast m).sheet
  match x.queue with
  | [] => s
  | c :: rest =>
    match c.run with
    | none => s
    | some r0 =>
      let d := c.desc
      let row := x.row.toNat
      let segs := s.beatSegs m r0 d row x.beat
      let ends := s.endsRow m r0 d x.beat
      let ts := s.beatTiles m r0 d row segs ends
      let new := ts.filter fun t => !r0.recs.any fun p => decide (p.1 = t)
      if x.stopped || x.faulted || !s.engSet m 4 || !s.goesOn m d || new.any (fun t => decide ((s.tile m t).inflight ≠ 0)) then s
      else
        match s.recordBad m r0 d row new with
        | some r => s.sheetFault m c 1 r
        | none =>
          let run := s.firstReads m r0 ts
          let s := s.modSheet m fun x => { x with queue := { c with run := some run } :: rest }
          match (segs.findSome? fun g => (s.mapFault m run d g).map fun k => (k, g.1)) with
          | some (k, r) => s.sheetFault m c k r
          | none =>
            let reads := s.beatReads m run d row segs
            let s := reads.foldl (fun t r => t.canvasRead (sliceAddr m r.1) r.2) s
            if s.bad (s.beatCells m run d row segs ends) then s.sheetFault m c 2 row
            else match s.readFault m (sdChkr d) reads with
            | some k => s.sheetFault m c k row
            | none =>
              let s := s.sheetSticky m 3 (sdTiles d && new.any fun t => decide ((s.tile m t).type = 0))
              (s.beatEffect m d run row segs ends).beatDone m d run segs ends

/-- ROW_REPLY: the oldest due REPLY is posted (R227). -/
def State.rowReply (s : State) (m : MastId) : State :=
  match (s.mast m).sheet.replies with
  | [] => s
  | r :: rest => (s.modSheet m fun x => { x with replies := rest, owed := updFirst (fun n => decide (0 < n)) (· - 1) x.owed }).postFrom m 4 r

/-- SHEET_DESC_DONE: the oldest descriptor past its last beat has its last write and its last REPLY, and posts DONE (R226). -/
def State.sheetDone (s : State) (m : MastId) : State :=
  let x := (s.mast m).sheet
  match x.fin with
  | [] => s
  | c :: rest =>
    if x.owed.headD 0 ≠ 0 then s
    else
      let s := s.modSheet m fun x => { x with fin := rest, owed := x.owed.drop 1 }
      if dbit c.desc 1 20 then s.postFrom m 4 (BitVec.ofNat 32 (dfld c.desc 2 0 32)) else s

/-! ## Stopping (R235-R239) -/

/-- SHEET_CTL.STOP. -/
def State.sheetStop (s : State) (m : MastId) : State :=
  s.modSheet m fun x => if x.stopped then x else { x with stopReq := true }

/-- SHEET_STOPPED: every issued beat has its writes, reductions and replies. Sixteen entries hold the queue (log entry 92). -/
def State.sheetStopped (s : State) (m : MastId) : State :=
  let x := (s.mast m).sheet
  let on : Bool := match x.queue with | c :: _ => c.run.isSome && s.goesOn m c.desc | [] => false
  if !x.stopReq ∨ x.stopped ∨ !x.fin.isEmpty ∨ !x.replies.isEmpty ∨ (on ∧ !x.faulted) then s
  else
    let s := match x.queue with
      | c :: _ => if c.run.isSome && !x.faulted then s.flushHist m c.desc else s
      | [] => s
    s.modSheet m fun x =>
      { x with stopped := true, stopReq := false, extra := surplus x.queue, hist := none
               st := match x.queue with | c :: _ => if c.run.isSome then 2 else 0 | [] => 0 }

/-- SHEET_CTL.RUN. -/
def State.sheetRun (s : State) (m : MastId) : State :=
  s.modSheet m fun x =>
    if x.stopped && !x.faulted then { x with stopped := false, qent := [], extra := 0, beat := 0, vals := [], hist := none, st := if x.st = 2 then 1 else x.st } else x

/-- SHEET_CTL.DISCARD. -/
def State.sheetDiscard (s : State) (m : MastId) : State :=
  if (s.mast m).sheet.stopped then
    (s.modSheet m fun x =>
      { x with queue := [], extra := 0, qent := [], saved := x.saved ++ packs x.extra x.queue, row := 0, st := 0, beat := 0, fin := [], replies := [], owed := []
               vals := [], hist := none, faulted := false }).clearStall m 4
  else s
end Sys2Proof.Machine
end

