-- ==== Sys2Proof/Machine/HalDesc.lean ====
section
/-!
DEFINITION. A halyard descriptor (11 R293-R296): its fields, its two sides row by row, where each destination byte comes from, and its
checks.
-/

namespace Sys2Proof.Machine

/-! ## Fields (Table 11-4) -/

/-- MODE: 0 COPY, 1 SKEW, 2 TSKEW, 3 TRANS, 4 FILL. -/
def hdMode (d : Desc) : Nat := dfld d 0 0 4
/-- SKIND and DKIND: 0 VA, 1 SLICE, 2 BANK, 3 TILE. -/
def hdSkind (d : Desc) : Nat := dfld d 0 4 2
def hdDkind (d : Desc) : Nat := dfld d 0 6 2
/-- The element width in bits. -/
def hdEw (d : Desc) : Nat := 4 * 2 ^ dfld d 0 8 3
/-- CH, CHKR, CHKW, REC, ORD. -/
def hdCh (d : Desc) : Fin 2 := Fin.ofNat 2 (dfld d 0 11 1)
def hdChkr (d : Desc) : Bool := dbit d 0 12
def hdChkw (d : Desc) : Bool := dbit d 0 13
def hdRec (d : Desc) : Bool := dbit d 0 14
def hdOrd (d : Desc) : Bool := dbit d 0 15
/-- The lanes of SKEW and TSKEW. -/
def hdLanes (d : Desc) : Nat := match dfld d 0 16 2 with | 0 => 16 | 1 => 64 | _ => 128
/-- ROWS and ROWLEN (K in SKEW and TSKEW). -/
def hdRows (d : Desc) : Nat := dfld d 5 0 16
def hdRowlen (d : Desc) : Nat := dfld d 5 16 20
/-- The slots of the read stage and of the write stage. -/
def hdWslots (d : Desc) : List (Fin 96) :=
  ((((List.range 4).filter fun i => dbit d 1 (20 + i)).map fun i => dfld d 1 (5 * i) 5).eraseDups).map fun i => Fin.ofNat 96 (64 + i)
def hdDslots (d : Desc) : List (Fin 96) :=
  ((((List.range 2).filter fun i => dbit d 1 (34 + i)).map fun i => dfld d 1 (24 + 5 * i) 5).eraseDups).map fun i => Fin.ofNat 96 (64 + i)
/-- CKADDR. -/
def hdCkaddr (d : Desc) : Nat := dfld d 7 0 56

/-- Whether a mode writes a panel. -/
def hdPanel (d : Desc) : Bool := decide (hdMode d = 1 ∨ hdMode d = 2)

/-! ## Sides -/

/-- A side: its kind, its base, its rows, the bytes of a row and the signed stride. -/
structure HalSide where
  kind : Nat
  base : Nat
  rows : Nat
  len : Nat
  stride : Int
  deriving DecidableEq, Repr

/-- The stride of a field; 0 is packed. -/
def sideStride (v len : Nat) : Int := if v = 0 then (len : Int) else signedOf 32 v

/-- The source side. -/
def hdSource (d : Desc) : HalSide :=
  let w := hdEw d
  let rl : Nat × Nat := match hdMode d with
    | 1 => (hdLanes d, hdRowlen d * w / 8)
    | 2 => (hdRowlen d, hdLanes d * w / 8)
    | 4 => (0, 0)
    | _ => (hdRows d, hdRowlen d)
  { kind := hdSkind d, base := dfld d 3 0 56, rows := rl.1, len := rl.2, stride := sideStride (dfld d 6 0 32) rl.2 }

/-- The destination side. -/
def hdDest (d : Desc) : HalSide :=
  let w := hdEw d
  let rl : Nat × Nat := match hdMode d with
    | 1 | 2 => (1, panelSize (hdLanes d) w (hdRowlen d))
    | 3 => (hdRowlen d * 8 / w, hdRows d * w / 8)
    | _ => (hdRows d, hdRowlen d)
  { kind := hdDkind d, base := dfld d 4 0 56, rows := rl.1, len := rl.2, stride := sideStride (dfld d 6 32 32) rl.2 }

/-- The address of the first byte of a side: the base of a TILE side names its tile, whose image starts at 0 (Table 11-6). -/
def HalSide.origin (x : HalSide) : Nat := if x.kind = 3 then 0 else x.base
/-- The first address of a row. -/
def HalSide.row (x : HalSide) (r : Nat) : Int := (x.origin : Int) + x.stride * (r : Int)
/-- Whether rows follow one another with no gap, as those of a tile image do. -/
def HalSide.packed (x : HalSide) : Bool := decide (x.kind = 3 ∨ x.rows ≤ 1) || decide (x.stride = (x.len : Int))
/-- The size of a side. -/
def HalSide.size (x : HalSide) : Nat := x.rows * x.len
/-- The first address past the space of a kind. -/
def kindLimit : Nat → Nat
  | 0 => 2 ^ 56 | 1 => 0x4000000 | 2 => 0x20000 | _ => 16

/-- A side outside its kind's range. A TILE side is one image, and `one` says whether ROWS is 1 and ROWLEN its length (Table 11-6). -/
def HalSide.out (x : HalSide) (one : Bool) : Bool :=
  if x.kind = 3 then decide (16 ≤ x.base) || !one
  else
    let a := x.row 0
    let b := x.row (x.rows - 1)
    let lo := if a ≤ b then a else b
    let hi := if a ≤ b then b else a
    decide (lo < 0) || decide ((kindLimit x.kind : Int) < hi + (x.len : Int))

/-- Run `r` of consecutive bytes of a side: its first address and its bytes. Packed rows are one run. -/
def HalSide.run (x : HalSide) (r : Nat) : Nat × Nat := if x.packed then (x.origin, x.size) else ((x.row r).toNat, x.len)
/-- The number of runs. -/
def HalSide.runs (x : HalSide) : Nat := if x.packed then 1 else x.rows

/-- The first addresses of the lines that a run touches. -/
def runLines (r : Nat × Nat) : List Nat :=
  if r.2 = 0 then [] else (List.range ((r.1 + r.2 - 1) / 128 - r.1 / 128 + 1)).map fun i => 128 * (r.1 / 128 + i)

/-- The lines of a side, each once, in the order in which its rows first touch them (log entry 79). -/
def HalSide.lineAddrs (x : HalSide) : List Nat :=
  if x.packed then runLines (x.run 0) else ((List.range x.runs).flatMap fun r => runLines (x.run r)).eraseDups

/-- The number of lines of a side. -/
def HalSide.lines (x : HalSide) : Nat := x.lineAddrs.length

/-- The parts of a side in the line at `a`: address, bytes, and the index of the first byte among the bytes of the side in row order. -/
def HalSide.parts (x : HalSide) (a : Nat) : List (Nat × Nat × Nat) :=
  (List.range x.runs).filterMap fun r =>
    let q := x.run r
    let lo := max a q.1
    let hi := min (a + 128) (q.1 + q.2)
    if lo < hi then some (lo, hi - lo, r * x.len + (lo - q.1)) else none

/-- Line `i` of a side: its address and its parts. -/
def HalSide.line (x : HalSide) (i : Nat) : Option (Nat × List (Nat × Nat × Nat)) := x.lineAddrs[i]?.map fun a => (a, x.parts a)

/-- The lowest address of a side. -/
def HalSide.low (x : HalSide) : Nat := min (x.row 0).toNat (x.row (x.rows - 1)).toNat

/-! ## Where a destination byte comes from -/

/-- The source elements or bytes of destination byte `b` (in row order), from the low bits up: row, bit offset in the row, width. -/
def hdDraws (d : Desc) (b : Nat) : List (Nat × Nat × Nat) :=
  let w := hdEw d
  match hdMode d with
  | 1 | 2 =>
    let l := hdLanes d
    let g := panelG l w
    let n := 128 * panelN l w
    let q := b / n
    let bit := 8 * (b % n)
    let at' := fun (bit width : Nat) =>
      let slot := bit / (g * w)
      let k := q * g + bit / w % g
      let lane := (slot + l - q % l) % l
      if hdMode d = 1 then (lane, w * k + bit % w, width) else (k, w * lane + bit % w, width)
    if w = 4 then [at' bit 4, at' (bit + 4) 4] else [at' bit 8]
  | 3 =>
    let row := hdRows d * w / 8
    let i := b / row
    let j := b % row
    [(j * 8 / w, w * i + j * 8 % w, 8)]
  | _ => [(b / hdRowlen d, 8 * (b % hdRowlen d), 8)]

/-- The source addresses of the bytes that parts of the destination draw from. -/
def hdSources (d : Desc) (ps : List (Nat × Nat × Nat)) : List Nat :=
  if hdMode d = 4 then [] else
  (ps.flatMap fun p => (List.range p.2.1).flatMap fun i =>
    (hdDraws d (p.2.2 + i)).map fun e => ((hdSource d).row e.1).toNat + e.2.1 / 8).eraseDups

/-- Whether a mode moves by stripes of 32 destination lines (R298). -/
def hdStriped (d : Desc) : Bool := hdPanel d || decide (hdMode d = 3)

/-- The source lines that destination lines draw from. -/
def hdDrawn (d : Desc) (as : List Nat) : List Nat := ((hdSources d (as.flatMap (hdDest d).parts)).map (· / 128)).eraseDups

/-- The source lines, as addresses over 128, that have arrived before destination line `i` is written (R298): those it draws from, or those its
stripe draws from; under CHKR, the whole blocks that hold them. -/
def hdArrived (d : Desc) (i : Nat) : List Nat :=
  let as := (hdDest d).lineAddrs
  let ls := hdDrawn d (if hdStriped d then (as.drop (32 * (i / 32))).take 32 else (as.drop i).take 1)
  if hdChkr d then (ls.map (· / 32)).eraseDups.flatMap fun b => (List.range 32).map fun j => 32 * b + j else ls

/-- The stripe of destination line `i`, for which its sources are read. -/
def halGrp (d : Desc) (i : Nat) : Nat := if hdStriped d then i / 32 else 0

/-! ## Checks at the read start (R295) -/

/-- The blocks of a side. -/
def sideBlocks (x : HalSide) : Nat := cdiv x.size 4096

/-- A checksummed side that is not packed, not aligned or not whole blocks. -/
def checkedBad (x : HalSide) : Bool := !x.packed || decide (x.base % 4096 ≠ 0 ∨ x.size % 4096 ≠ 0)

/-- The 64 KiB pages of a VA side, in increasing order. -/
def sidePages (x : HalSide) : List Nat :=
  if x.kind ≠ 0 then []
  else
    ((if x.packed then (if x.size = 0 then [] else (List.range ((x.base + x.size - 1) / 65536 - x.base / 65536 + 1)).map fun i => x.base / 65536 + i)
      else (List.range x.rows).flatMap fun r =>
        let a := (x.row r).toNat
        (List.range ((a + x.len - 1) / 65536 - a / 65536 + 1)).map fun i => a / 65536 + i).eraseDups).mergeSort (· ≤ ·)

/-- Whether the checksum array is read, for a checked VA source; otherwise it is written, for a VA destination (R280). -/
def hdCkRead (d : Desc) : Bool := hdChkr d && decide (hdSkind d = 0)

/-- The checksum array: the side it serves, if that side is a VA side. -/
def hdCkSide (d : Desc) : HalSide :=
  let n := if hdCkRead d then sideBlocks (hdSource d) else if hdChkw d && decide (hdDkind d = 0) then sideBlocks (hdDest d) else 0
  { kind := 0, base := hdCkaddr d, rows := 1, len := 4 * n, stride := 4 * n }

/-- Every page that the descriptor translates, in order: side (0 source, 1 destination, 2 checksum array) and page (R296). -/
def hdPages (d : Desc) : List (Nat × Nat) :=
  (sidePages (hdSource d)).map (fun p => (0, p)) ++ (sidePages (hdDest d)).map (fun p => (1, p)) ++
  (sidePages (hdCkSide d)).map (fun p => (2, p))

/-- A stripe that draws from more than 256 source lines. -/
def stripeBad (d : Desc) : Bool :=
  let as := (hdDest d).lineAddrs
  hdStriped d && (List.range (cdiv as.length 32)).any fun i => decide (256 < (hdDrawn d ((as.drop (32 * i)).take 32)).length)

/-- A descriptor that faults with kind DESC. -/
def halBad (d : Desc) : Bool :=
  let mode := hdMode d
  let k := hdRowlen d
  let one := decide (hdRows d = 1 ∧ k = if hdRec d then 32784 else 32768)
  decide (5 ≤ mode ∨ 5 ≤ dfld d 0 8 3) || decide (dfld d 0 18 14 ≠ 0) || decide (dfld d 1 38 26 ≠ 0) || decide (dfld d 3 56 8 ≠ 0) ||
  decide (dfld d 4 56 8 ≠ 0) || decide (dfld d 5 36 28 ≠ 0) || decide (dfld d 7 56 8 ≠ 0) || decide (dfld d 0 16 2 = 3) ||
  (decide (mode = 4) && decide (hdSkind d ≠ 0 ∨ dfld d 3 0 56 ≠ 0)) ||
  (!hdPanel d && decide (hdRows d = 0 ∨ k = 0)) || (hdPanel d && decide (hdDkind d ≠ 1 ∨ k % 32 ≠ 0 ∨ k < 32 ∨ 16384 < k)) ||
  (decide (mode = 3) && decide (hdEw d = 4 ∨ k * 8 % hdEw d ≠ 0)) ||
  (decide (mode ≠ 4) && (hdSource d).out one) || (hdDest d).out one ||
  (hdChkr d && decide (hdSkind d = 2 ∨ hdSkind d = 3 ∨ mode = 4)) || (hdChkw d && decide (hdDkind d = 2 ∨ hdDkind d = 3)) ||
  (hdChkr d && checkedBad (hdSource d)) || (hdChkw d && checkedBad (hdDest d)) ||
  (hdChkr d && hdChkw d && decide (hdSkind d = 0 ∧ hdDkind d = 0)) ||
  decide (64 < ((hdPages d).map (·.2)).eraseDups.length) || stripeBad d

/-- A descriptor that faults with kind TOKEN. -/
def halTokenBad (d : Desc) : Bool :=
  (dbit d 1 36 && badToken (BitVec.ofNat 32 (dfld d 2 0 32))) || (dbit d 1 37 && badToken (BitVec.ofNat 32 (dfld d 2 32 32)))

end Sys2Proof.Machine
end

