-- ==== Sys2Proof/Machine/Hal.lean ====
section
/-!
DEFINITION. The halyard at work (11 R292-R304): read starts with the translation of the whole move, the read stage with its landing buffer, destination
lines, completion and posts, faults, stopping and resuming. The read stage goes on with every event of the halyard (log entry 43).
-/

namespace Sys2Proof.Machine

/-! ## Faults and progress -/

/-- Record a fault of the halyard and stop both channels (R302). A fault of the job that is recorded stays. -/
def Hal.fault (x : Hal) (c : HalCmd) (kind side : Nat) (va block : Nat) : Hal :=
  if x.faulted && decide (x.fKind ≠ 5 ∧ x.fKind ≠ 6) then x else
  { x with faulted := true, stopReq := true, fKind := BitVec.ofNat 4 kind, fSide := BitVec.ofNat 2 side, fCh := decide (hdCh c.desc = 1)
           fDaddr := c.daddr, fPc := c.pc, fBlock := BitVec.ofNat 24 block, faultVa := BitVec.ofNat 56 va }

/-- A fault that is a fault of the job. -/
def State.halFault (s : State) (m : MastId) (c : HalCmd) (kind side va block : Nat) : State :=
  (s.modHal m fun x => x.fault c kind side va block).jobFault m 5 (match kind with | 2 => 1 | 3 => 2 | _ => 4)

/-- Change HAL_PROG of a channel. -/
def State.modProg (s : State) (m : MastId) (ch : Fin 2) (f : HalProg → HalProg) : State :=
  s.modHal m fun x => { x with prog := x.prog.set ch.val (f (x.prog.get ch)) ch.isLt }

/-- The descriptors of a channel that have a half of its landing buffer, in order: those that have not made their last write (R292). -/
def Hal.onCh (x : Hal) (ch : Fin 2) : List HalRun := x.act.filter fun r => !r.done && !r.wrote && decide (hdCh r.cmd.desc = ch)

/-- Whether a channel holds a descriptor, in work or stopped (BUSY0, BUSY1). -/
def Hal.busyCh (x : Hal) (ch : Fin 2) : Bool :=
  (x.act.any fun r => !r.done && decide (hdCh r.cmd.desc = ch)) || x.queue.any fun c => c.started && decide (hdCh c.desc = ch)

/-- The descriptor in the write stage of a channel. -/
def Hal.writing (x : Hal) (ch : Fin 2) : Option HalRun := (x.onCh ch).head?

/-- Whether the descriptor in the write stage of a channel has met an error of its source, and writes no more (R302). -/
def Hal.dead (x : Hal) (ch : Fin 2) : Bool := (x.writing ch).any fun r => r.bad

/-- Whether the halyard takes work. -/
def State.halOpen (s : State) (m : MastId) : Bool :=
  let x := (s.mast m).hal
  s.engSet m 5 && !x.stopped && !x.stopReq && !x.faulted

/-- Change a descriptor in work. -/
def Hal.setRun (x : Hal) (id : Nat) (f : HalRun → HalRun) : Hal := { x with act := x.act.map fun r => if r.cmd.id = id then f r else r }

/-! ## Translation of the whole move (R296) -/

/-- The record of a page that fails (13 Table 13-4). -/
def halXFault (c : HalCmd) (kind lvl side page : Nat) : XFault :=
  let wr : Bool := decide (side = 1) || (decide (side = 2) && !hdCkRead c.desc)
  { e := 5, kind := BitVec.ofNat 3 kind, lvl := BitVec.ofNat 2 lvl, wr := wr, plv := c.level, side := BitVec.ofNat 2 side
    va := BitVec.ofNat 56 (page * 65536), pc := c.pc, detail := BitVec.ofNat 32 (c.daddr.toNat + 4096 * (hdCh c.desc).val), slot := 5
    st := .pending }

/-- Translate pages in order, up to the first that fails: the pages translated, and what failed. -/
def State.halPages (s : State) (m : MastId) (c : HalCmd) : List (Nat × Nat) → List (Nat × BitVec 52) → List (Nat × BitVec 52) × Option (XRes × Nat × Nat)
  | [], acc => (acc, none)
  | (side, p) :: rest, acc =>
    let wr : Bool := decide (side = 1) || (decide (side = 2) && !hdCkRead c.desc)
    match s.xlate m 5 (p * 65536) c.level (!wr) wr with
    | .ok pa _ => State.halPages s m c rest (acc ++ [(p, pa)])
    | r => (acc, some (r, side, p))

/-- The bytes of the checksum word of block `i`: address and number, cut at a page. -/
def ckPieces (d : Desc) (i : Nat) : List (Nat × Nat) :=
  let a := hdCkaddr d + 4 * i
  let n := min 4 (65536 - a % 65536)
  if n = 4 then [(a, 4)] else [(a, n), (a + n, 4 - n)]

/-- The pages of what remains of a move from destination line `lines` on: of the sources that it draws from, of the lines that it writes and of the checksum
words of their blocks (R296, R301). -/
def halRemaining (d : Desc) (lines : Nat) : List (Nat × Nat) :=
  if lines = 0 then hdPages d
  else
    let dst := (hdDest d).lineAddrs.drop lines
    let src := ((List.range dst.length).flatMap fun i => hdArrived d (lines + i)).eraseDups
    let blks := if hdCkRead d then src.map fun l => (128 * l - (hdSource d).base) / 4096 else dst.map fun a => (a - (hdDest d).base) / 4096
    (hdPages d).filter fun q =>
      if q.1 = 0 then src.any fun l => decide (128 * l / 65536 = q.2)
      else if q.1 = 1 then dst.any fun a => decide (a / 65536 = q.2)
      else blks.any fun b => (ckPieces d b).any fun w => decide (w.1 / 65536 = q.2)

/-- Whether a descriptor still translates its pages. -/
def HalRun.unplaced (r : HalRun) : Bool := !r.done && !r.wrote && r.pages.isNone

/-- Translate the pages of the first descriptor in work that has not been translated: all of them, or a miss that waits for a walk, or
a fault whose record is to be written. -/
def State.halXlate (s : State) (m : MastId) : State :=
  let x := (s.mast m).hal
  match x.act.find? HalRun.unplaced with
  | none => s
  | some r =>
    if x.stopped || x.stopReq || ((s.mast m).xl.faultOf 5).isSome then s
    else
      let c := r.cmd
      let ps := halRemaining c.desc r.start
      let q := s.halPages m c (ps.drop r.got.length) r.got
      let s := s.modXl m fun t => ((ps.take q.1.length).drop r.got.length).foldl (fun t p => t.touch 5 (p.2 * 65536)) t
      let s := s.modHal m fun x => x.setRun c.id fun r => { r with got := q.1, pages := if q.2.isNone then some q.1 else none }
      match q.2 with
      | some (.miss, side, p) => s.addMiss m (halXFault c 1 0 side p)
      | some (.fault kind lvl, side, p) => s.addFault m (halXFault c kind lvl side p)
      | _ => s

/-- Translate every descriptor that can be. -/
def State.halXlates (s : State) (m : MastId) : State := (List.range 4).foldl (fun t _ => t.halXlate m) s

/-! ## Places -/

/-- The PA of a VA of a descriptor. -/
def halPa (pages : List (Nat × BitVec 52)) (va : Nat) : BitVec 52 :=
  match pages.find? fun p => p.1 = va / 65536 with
  | some p => BitVec.ofNat 52 (p.2.toNat + va % 65536)
  | none => 0

/-- A byte of a tile image. -/
def Tile.imageByte (t : Tile) (i : Nat) : Byte :=
  let w := if i < 32768 then (Sparse.get t.ents (i / 8)).toNat else if i < 32776 then t.metaWord.toNat else t.scaleWord.toNat
  BitVec.ofNat 8 (fld w (8 * (i % 8)) 8)

/-- Write bytes of a tile image that start at a multiple of 8. -/
def Tile.putImage (t : Tile) (i : Nat) (bs : List Byte) : Tile :=
  let t := t.putEntries (i / 8) (bs.take (32768 - i))
  if i < 32768 then t else (t.setMeta (ofBytes (bs.take 8))).setScale (ofBytes (bs.drop 8))

/-- The local place of a source or destination byte of a side. -/
inductive HalPlace where
  | mem (pa : Nat)
  | remote (pa : BitVec 52)
  | bank (off : Nat)
  | tile (t : Fin 16) (off : Nat)
  deriving DecidableEq, Repr

/-- Where address `a` of a kind lies. The base of a TILE side is its tile. -/
def State.halPlace (s : State) (m : MastId) (pages : List (Nat × BitVec 52)) (kind base a : Nat) : HalPlace :=
  match kind with
  | 0 =>
    let pa := halPa pages a
    if s.isOwn pa then .mem (localOf pa) else .remote pa
  | 1 => .mem (sliceAddr m a)
  | 2 => .bank a
  | _ => .tile (Fin.ofNat 16 base) a

/-- The local HBM lines among places. -/
def hbmLines (ps : List HalPlace) : List Line :=
  (ps.filterMap fun p => match p with | .mem pa => if placeOf pa = .hbm then some (lineOf pa) else none | _ => none).eraseDups

/-- Whether `n` bytes at `off` cover the whole of cell `v` of `w` bytes. -/
def coversCell (off n w v : Nat) : Bool := decide (off ≤ w * v ∧ w * v + w ≤ off + n)

/-! ## The read stage (R292, R297) -/

/-- A run with a field changed, and its place in the list of descriptors. -/
def State.setHal (s : State) (m : MastId) (r : HalRun) : State := s.modHal m fun x => x.setRun r.cmd.id fun _ => r

/-- The source lines that are read before destination line `ahead` is written and that have not been read: in COPY each line once, in a stripe all of its lines
(R298). -/
def HalRun.fresh (r : HalRun) : List Nat :=
  let d := r.cmd.desc
  let g := halGrp d r.ahead
  (hdArrived d r.ahead).filter fun l => !r.land.any fun x => decide (x.line = l ∧ x.grp = g)

/-- The cells of a bank or of a tile that a line of 128 bytes at a place lies in. -/
def placeCells (m : MastId) : HalPlace → Cell → Bool
  | .bank off, .bank k w => decide (k = m ∧ off < 8 * w + 8 ∧ 8 * w < off + 128)
  | .tile t off, .tile k u e => decide (k = m ∧ u = t ∧ off < 8 * e + 8 ∧ 8 * e < off + 128)
  | _, _ => false

/-- A source line is read: its bytes, whether they are to come from another module, and whether it is poisoned or holds an uncorrectable error (R275, R289). -/
def State.halReadLine (s : State) (m : MastId) (p : HalPlace) : State × List Byte × Bool × Bool :=
  match p with
  | .mem pa =>
    (match placeOf pa with
     | .hbm => let r := s.readLine (lineOf pa); (r.1, lineGet r.2.1 0 128, false, r.2.2)
     | _ => (s.canvasRead pa 128, Mem.bytes s.ram pa 128, false, s.badWords pa 128))
  | .remote pa => (s.sendTo (s.mastBlock m) (nodeOf pa) (dieOf m).val 1 (.rdu pa 128 (s.mastJobid m)), [], true, false)
  | .bank off => (s, Mem.bytes (s.mast m).bankMem off 128, false, s.bad (placeCells m p))
  | .tile t off => (s, (List.range 128).map fun i => (s.tile m t).imageByte (off + i), false, s.bad (placeCells m p))

/-- Whether a place is in another module. -/
def HalPlace.far : HalPlace → Bool | .remote _ => true | _ => false

/-- The checksum word of block `blk`: its bytes and whether they are poisoned, or none, asked for, if it lies in another module (R280, R289). -/
def State.halWord (s : State) (m : MastId) (d : Desc) (pages : List (Nat × BitVec 52)) (blk : Nat) : State × Option (Nat × Bool) :=
  (ckPieces d blk).foldr (fun w (acc : State × Option (Nat × Bool)) =>
    match acc.1.halPlace m pages 0 0 w.1 with
    | .mem pa =>
      let r := acc.1.readBytes pa w.2
      (r.1, acc.2.map fun v => (ofBytes r.2.1 + 2 ^ (8 * w.2) * v.1, v.2 || r.2.2))
    | .remote pa => (acc.1.sendTo (acc.1.mastBlock m) (nodeOf pa) (dieOf m).val 1 (.rdu pa w.2 (acc.1.mastJobid m)), none)
    | _ => acc) (s, some (0, false))

/-- The error of block `b` of the source, as an address over 4,096: kind `kind`. -/
def halSrcErr (d : Desc) (kind b : Nat) : Nat × Nat × Nat × Nat := (kind, 0, 4096 * b, b - (hdSource d).low / 4096)

/-- The error of a poisoned line of the checksum array: its own block (log entry 43). -/
def halCkErr (d : Desc) (blk : Nat) : Nat × Nat × Nat × Nat :=
  let b := (hdCkaddr d + 4 * blk) / 4096
  (2, 2, 4096 * b, b - hdCkaddr d / 4096)

/-- Whether block `b` of the source lies in HBM, whose checksum is a word of the checksum array (R280). -/
def State.halHbm (s : State) (m : MastId) (d : Desc) (pages : List (Nat × BitVec 52)) (b : Nat) : Bool :=
  match s.halPlace m pages (hdSkind d) (dfld d 3 0 56) (4096 * b) with
  | .mem pa => decide (placeOf pa = .hbm)
  | .remote pa => decide (placeOf (localOf pa) = .hbm)
  | _ => false

/-- What block `b` finds when it is compared with the word of the checksum array (R281). -/
def halVerdict (d : Desc) (b : Nat) (bytes : List Byte) (w : Nat × Bool) : Option (Nat × Nat × Nat × Nat) :=
  if w.2 then some (halCkErr d (b - (hdSource d).low / 4096)) else if crc32c bytes = w.1 then none else some (halSrcErr d 3 b)

/-- What a block that has been read or asked for whole finds when it is verified (R279-R281): its error, if any; whether something of it is to come from
another module; and its word of the checksum array, where that is read already. -/
def State.halCheck (s : State) (m : MastId) (d : Desc) (pages : List (Nat × BitVec 52)) (b : Nat) (bytes : List Byte) :
    State × Option (Nat × Nat × Nat × Nat) × Bool × Option (Nat × Bool) :=
  let w := if s.halHbm m d pages b then s.halWord m d pages (b - (hdSource d).low / 4096) else (s, none)
  match s.halPlace m pages (hdSkind d) (dfld d 3 0 56) (4096 * b), w.2 with
  | .mem pa, none =>
    if placeOf pa = .hbm then (w.1, none, true, none)
    else
      let e := Sparse.get s.check (blockOf pa)
      (s, if wbit e 32 && decide (crc32c bytes = wfld e 0 32) then none else some (halSrcErr d 3 b), false, none)
  | .mem _, some v => (w.1, halVerdict d b bytes v, false, none)
  | .remote _, v => (w.1, none, true, v)
  | _, _ => (s, none, false, none)

/-- The lines of a unit of reading as they are read, and under CHKR the verification of their blocks. -/
def State.halReadBlock (s : State) (m : MastId) (r : HalRun) (pages : List (Nat × BitVec 52)) (ls : List Nat) : State × List HalLand :=
  let d := r.cmd.desc
  let draws := hdDrawn d ((((hdDest d).lineAddrs.drop (32 * (r.ahead / 32))).take 32))
  let q := ls.foldl (fun (acc : State × List HalLand) l =>
    let p := acc.1.halReadLine m (acc.1.halPlace m pages (hdSkind d) (dfld d 3 0 56) (128 * l))
    (p.1, acc.2 ++ [({ grp := halGrp d r.ahead, line := l, data := p.2.1, far := p.2.2.1, due := false, drawn := !hdStriped d || draws.contains l
                       word := none, err := if p.2.2.2 then some (halSrcErr d 2 (l / 32)) else none } : HalLand)])) (s, [])
  if !hdChkr d then q
  else
    ((ls.map (· / 32)).eraseDups).foldl (fun (acc : State × List HalLand) b =>
      let mine := acc.2.filter fun x => decide (x.line / 32 = b)
      if mine.any fun x => x.err.isSome then acc
      else
        let c := acc.1.halCheck m d pages b (mine.flatMap (·.data))
        (c.1, acc.2.map fun x => if x.line / 32 = b then { x with due := c.2.2.1, word := c.2.2.2, err := c.2.1 } else x)) q

/-- Reads of `ls` that can be outstanding beside `n` others, at most 256 of a channel: under CHKR whole blocks are read (R297, R298). -/
def halReach (d : Desc) (n : Nat) (ls : List Nat) : List Nat :=
  if hdChkr d then
    let bs := ((ls.map (· / 32)).eraseDups).take ((256 - n) / 32)
    ls.filter fun l => bs.contains (l / 32)
  else ls.take (256 - n)

/-- The read stage reads the sources of the next destination line of a descriptor, or as many of them as may be outstanding at once, if it is not 256 lines
ahead of the write stage of its channel, the homes of the lines take the requests, and a tile that is read for the first time, after a stop too (log entry 114),
has no pass in flight (R292, R297, 07 R211). -/
def State.halReadUnit (s : State) (m : MastId) (r : HalRun) : State × Bool :=
  let x := (s.mast m).hal
  let d := r.cmd.desc
  match r.pages with
  | none => (s, false)
  | some pages =>
    let all := r.fresh
    let land := (x.onCh (hdCh d)).flatMap (·.land)
    let n := (land.filter (·.drawn)).length
    let far := if hdSkind d = 0 ∧ all.any fun l => (s.halPlace m pages 0 0 (128 * l)).far then (land.filter (·.far)).length else 0
    let ls := halReach d far all
    let places := ls.map fun l => s.halPlace m pages (hdSkind d) (dfld d 3 0 56) (128 * l)
    let words := if hdCkRead d then (((ls.map (· / 32)).eraseDups).filter fun b => s.halHbm m d pages b).flatMap fun b =>
      (ckPieces d (b - (hdSource d).low / 4096)).map fun w => s.halPlace m pages 0 0 w.1 else []
    let held := decide (hdSkind d = 3 ∧ r.ahead = r.start) && decide ((s.tile m (Fin.ofNat 16 (dfld d 3 0 56))).inflight ≠ 0)
    let full := if hdStriped d then
        decide (256 < n + ((hdDrawn d (((hdDest d).lineAddrs.drop (32 * (r.ahead / 32))).take 32)).filter fun l => all.contains l).length) && !all.isEmpty
      else decide (256 < n + all.length)
    if x.stopped || x.dead (hdCh d) || !s.engSet m 5 || decide ((hdDest d).lines ≤ r.ahead) || held || (full && n ≠ 0) || (ls.isEmpty && !all.isEmpty) then (s, false)
    else
      let a := s.ask (.hal m) (hbmLines (places ++ words))
      if !a.2 then a
      else
        let q := a.1.halReadBlock m r pages ls
        (q.1.setHal m { r with ahead := if ls.length = all.length then r.ahead + 1 else r.ahead, land := r.land ++ q.2 }, true)

/-- Whether every read of a descriptor has been issued. -/
def HalRun.allRead (r : HalRun) : Bool := decide (hdMode r.cmd.desc = 4 ∨ (hdDest r.cmd.desc).lines ≤ r.ahead)

/-- The read stage of a channel goes on by up to `n` destination lines. -/
def State.halFill (s : State) (m : MastId) (ch : Fin 2) : Nat → State
  | 0 => s
  | n + 1 =>
    match ((s.mast m).hal.onCh ch).find? fun r => !r.allRead with
    | none => s
    | some r => let q := s.halReadUnit m r; if q.2 then State.halFill q.1 m ch n else q.1

/-- The read stages go on as far as time lets them, which the spec gives in cc (log entry 43). -/
def State.halReads (s : State) (m : MastId) : State :=
  let n := Config.halReads s.frees
  ({ s with frees := s.frees + 1 }.halFill m 0 n).halFill m 1 n

/-- The halyard goes on: pages are translated, and the read stages read. -/
def State.halGo (s : State) (m : MastId) : State := (s.halXlates m).halReads m

/-! ## Read start (R295, R297) -/

/-- A descriptor as it starts its read stage at destination line `start`. -/
def halRunOf (c : HalCmd) (start : Nat) : HalRun :=
  { cmd := { c with started := false }, got := [], pages := none, start := start, ahead := start, land := [], sum := 0xFFFFFFFF, bad := false
    wrote := decide (0 < start ∧ (hdDest c.desc).lines ≤ start), done := false }

/-- The descriptor at the head of the queue starts its read stage, if it is of mode `mode`, the channel has a free half
and the read stage has issued its last read of the one before; or it faults. -/
def State.halStart (s : State) (m : MastId) (mode : Nat) : State :=
  let x := (s.mast m).hal
  match x.queue with
  | [] => s
  | c :: rest =>
    let d := c.desc
    let ch := hdCh d
    if !s.halOpen m ∨ c.started ∨ (hdMode d ≠ mode ∧ hdMode d < 5) ∨ 2 ≤ (x.onCh ch).length ∨ !((x.onCh ch).all HalRun.allRead) ∨ !s.haveTokens m (hdWslots d) then s
    else if halBad d then s.halFault m c 1 0 0 0
    else if halTokenBad d then s.halFault m c 4 0 0 0
    else
      let s := (s.consume m (hdWslots d)).clearStall m 5
      let alone := (x.onCh ch).isEmpty
      let s := s.modHal m fun x => { x with queue := rest, act := x.act ++ [halRunOf c 0] }
      (if alone then s.modProg m ch fun _ => { lines := 0, st := 1, dwok := false } else s).halGo m

/-! ## A destination line (R298) -/

/-- Write bytes at a destination address, for a descriptor; a write to another module is to be acknowledged (R299), and the last one of a canvas block under CHKW
carries the CRC. -/
def State.halWrite (s : State) (m : MastId) (c : HalCmd) (crc : Option (BitVec 32)) (p : HalPlace) (bs : List Byte) : State :=
  match p with
  | .mem pa => (match placeOf pa with
      | .hbm => s.writeBytes pa bs
      | _ => s.canvasPut (if hdChkw c.desc then some (m, 5) else none) pa bs)
  | .remote pa => (s.awaitAck m 5 c.id pa).sendTo (s.mastBlock m) (nodeOf pa) (dieOf m).val 1 (.wru pa bs (s.mastJobid m) crc)
  | .bank off => (s.modMast m fun x => { x with bankMem := Mem.put x.bankMem off bs }).mend fun k =>
      match k with | .bank j w => decide (j = m) && coversCell off bs.length 8 w | _ => false
  | .tile t off => (s.modTile m t fun x => x.putImage off bs).mend fun k =>
      match k with | .tile j u e => decide (j = m ∧ u = t) && coversCell off bs.length 8 e | _ => false

/-- A destination block is complete: its checksum is written (R279, R280, R298). That of a canvas block of another module has gone with its last write. -/
def State.halSetCrc (s : State) (m : MastId) (c : HalCmd) (pages : List (Nat × BitVec 52)) (a blk sum : Nat) : State :=
  let hbm : Bool := match s.halPlace m pages (hdDkind c.desc) 0 a with
    | .mem pa => decide (placeOf pa = .hbm)
    | .remote pa => decide (placeOf (localOf pa) = .hbm)
    | _ => false
  if hbm then
    ((ckPieces c.desc blk).foldl (fun (acc : State × List Byte) w =>
      (acc.1.halWrite m c none (acc.1.halPlace m pages 0 0 w.1) (acc.2.take w.2), acc.2.drop w.2)) (s, toBytes 4 sum)).1
  else match s.halPlace m pages (hdDkind c.desc) 0 a with
    | .mem pa => s.setCrc m 5 pa
    | _ => s

/-- What came from another module for the lines that a destination line needs: 128 bytes for each line that is to come, in order, and one check for each block
that is still to be verified and whose check is there. Gives what is left of the answers. -/
def State.halArrive (s : State) (m : MastId) (r : HalRun) (pages : List (Nat × BitVec 52)) (need : HalLand → Bool) (remote : RemoteData) :
    HalRun × RemoteData :=
  let d := r.cmd.desc
  let q := r.land.foldl (fun (acc : List Byte × List HalLand) x =>
    if need x && x.far then
      (acc.1.drop 128, acc.2 ++ [{ x with data := (acc.1 ++ List.replicate 128 0).take 128, far := false
                                          err := if remote.poison then some (halSrcErr d 2 (x.line / 32)) else none }])
    else (acc.1, acc.2 ++ [x])) (remote.bytes, [])
  let due := (((q.2.filter fun x => need x && x.due).map fun x => x.line / 32).eraseDups)
  let p := due.foldl (fun (acc : List Word × List HalLand) b =>
    let mine := acc.2.filter fun x => decide (x.line / 32 = b) && need x
    let bytes := mine.flatMap (·.data)
    let v := acc.1.headD 0
    let res : List Word × Option (Nat × Nat × Nat × Nat) := match mine.findSome? (·.word) with
      | some w => (acc.1, halVerdict d b bytes w)
      | none => (acc.1.drop 1, if (wbit v 32 || s.halHbm m d pages b) && decide (crc32c bytes = wfld v 0 32) then none else some (halSrcErr d 3 b))
    (res.1, acc.2.map fun x =>
      if x.line / 32 = b && need x then { x with due := false, err := if x.err.isSome then x.err else res.2 } else x)) (remote.checks, q.2)
  ({ r with land := p.2 }, { remote with bytes := q.1, checks := p.1 })

/-- Where another module is asked for what a destination line needs: a source line, or a word of the checksum array. -/
def State.halFar (s : State) (m : MastId) (d : Desc) (pages : List (Nat × BitVec 52)) (ls : List HalLand) : Option (BitVec 52) :=
  ls.findSome? fun y =>
    let at' := if y.far then [s.halPlace m pages (hdSkind d) (dfld d 3 0 56) (128 * y.line)]
      else if y.due && y.word.isNone then (ckPieces d (y.line / 32 - (hdSource d).low / 4096)).map fun w => s.halPlace m pages 0 0 w.1
      else []
    at'.findSome? fun p => match p with | .remote pa => some pa | _ => none

/-- The sources of destination line `i` are read as far as they are not, and what came from another module for them arrives, at most 256 lines at a time (R297).
Gives the descriptor once all are read, and what it then holds. After an answer that this module refuses the descriptor writes no more (15 R393; log entry 125). -/
def State.halSources (s : State) (m : MastId) (ch : Fin 2) (i : Nat) (pages : List (Nat × BitVec 52)) (need : HalLand → Bool) :
    Nat → RemoteData → State × Option HalRun
  | 0, _ => (s, none)
  | n + 1, remote =>
    match (s.mast m).hal.writing ch with
    | none => (s, none)
    | some r =>
      let far := r.land.filter fun y => need y && y.far
      let g := match s.halFar m r.cmd.desc pages (r.land.filter need) with
        | some pa => s.answered m 5 pa remote.jobid remote.refused (max 1 far.length)
        | none => (s, true)
      if !g.2 then (g.1.setHal m { r with bad := true }, none) else
      let s := g.1
      let q := s.halArrive m r pages need remote
      let s := s.setHal m q.1
      if i < r.ahead then (s, some q.1)
      else
        let u := s.halReadUnit m q.1
        if u.2 then State.halSources u.1 m ch i pages need n q.2 else (u.1, none)

/-- The error of the lines that a destination line needs: of the first block that was read, or, in a stripe, of the lowest (R302). -/
def HalRun.err (r : HalRun) (need : HalLand → Bool) : Option (Nat × Nat × Nat × Nat) :=
  match (r.land.filter need).filterMap (·.err) with
  | [] => none
  | f :: rest => some (if hdStriped r.cmd.desc then rest.foldl (fun a g => if g.2.2.1 < a.2.2.1 then g else a) f else f)

/-- The bytes `b` to `b` + `n` of the destination, in row order, from the landing buffer. -/
def HalRun.bytes (r : HalRun) (g b n : Nat) : List Byte :=
  let d := r.cmd.desc
  let src := hdSource d
  let get := fun (a : Nat) =>
    match r.land.find? fun x => decide (x.line = a / 128 ∧ x.grp = g) with
    | some x => x.data.getD (a % 128) 0
    | none => 0
  (List.range n).map fun i =>
    if hdMode d = 4 then BitVec.ofNat 8 (fld (dfld d 0 32 32) (8 * ((b + i) % 4)) 8)
    else BitVec.ofNat 8 ((hdDraws d (b + i)).foldr (fun e acc =>
      fld (get ((src.row e.1).toNat + e.2.1 / 8)).toNat (e.2.1 % 8) e.2.2 + 2 ^ e.2.2 * acc) 0)

/-- Whether the write stage stops before its next line: a stop is asked for, and nothing is written yet or the line enters another 4 KiB block (R300). -/
def halAtBlock (d : Desc) (lines : Nat) : Bool :=
  let as := (hdDest d).lineAddrs
  match lines with
  | 0 => true
  | n + 1 => match as[n]?, as[n + 1]? with
    | some a, some b => decide (a / 4096 ≠ b / 4096)
    | _, _ => true

/-- The landing buffer once destination line `i` is written: what no line up to the next to be read draws from is free. -/
def HalRun.freed (r : HalRun) (i : Nat) : List HalLand :=
  let d := r.cmd.desc
  if hdStriped d then r.land.filter fun x => decide (halGrp d (i + 1) ≤ x.grp)
  else
    let ls := (List.range (r.ahead - i)).flatMap fun j => hdArrived d (i + 1 + j)
    r.land.filter fun x => ls.contains x.line

/-- The last line of a descriptor is written: its half is free, and the write stage takes the next descriptor of the channel (R292, R298). -/
def State.halLast (s : State) (m : MastId) (ch : Fin 2) (r : HalRun) : State :=
  if ((s.mast m).hal.prog.get ch).lines.toNat < (hdDest r.cmd.desc).lines then s
  else
    let s := s.setHal m { r with land := [], wrote := true }
    match (s.mast m).hal.writing ch with
    | some q => s.modProg m ch fun _ => { lines := BitVec.ofNat 30 q.start, st := 1, dwok := false }
    | none => s

/-- The bytes of the line at `a` that pieces write, where a later piece writes over an earlier one. -/
def lineImage (a : Nat) (ps : List (Nat × List Byte)) : List (Option Byte) :=
  (List.range 128).map fun j => ps.reverse.findSome? fun q => if q.1 ≤ a + j then q.2[a + j - q.1]? else none

/-- The pieces of one destination line are written: as one write where together they are the whole line (12 R331), and, in another module, as one write with a
byte mask (12 Table 12-2). -/
def State.halPieces (s : State) (m : MastId) (c : HalCmd) (crc : Option (BitVec 32)) (place : Nat → HalPlace) (a : Nat) (ps : List (Nat × List Byte)) : State :=
  let img := lineImage a ps
  if ps.length ≤ 1 then ps.foldl (fun t q => t.halWrite m c crc (place q.1) q.2) s
  else if img.all Option.isSome then s.halWrite m c crc (place a) (img.map fun b => b.getD 0)
  else match place a with
    | .remote pa => (s.awaitAck m 5 c.id pa).sendTo (s.mastBlock m) (nodeOf pa) (dieOf m).val 1 (.wruMask pa img (s.mastJobid m))
    | _ => ps.foldl (fun t q => t.halWrite m c crc (place q.1) q.2) s

/-- A destination line is written: its bytes, HAL_PROG and HAL_LINES, and at the end of a block under CHKW its checksum. -/
def State.halPut (s : State) (m : MastId) (ch : Fin 2) (r : HalRun) (pages : List (Nat × BitVec 52)) (i a : Nat) (ps : List (Nat × Nat × Nat)) : State :=
  let d := r.cmd.desc
  let dst := hdDest d
  let bss := ps.map fun p => (p.1, r.bytes (halGrp d i) p.2.2 p.2.1)
  let first := match ps with | p :: _ => p.2.2 | [] => 0
  let last := match ps with | p :: _ => p.2.2 + p.2.1 | [] => 0
  let sum := (bss.flatMap (·.2)).foldl crcByte (if first % 4096 = 0 then 0xFFFFFFFF else r.sum)
  let ends := hdChkw d && decide (last % 4096 = 0)
  let crc := if ends then some (BitVec.ofNat 32 (Nat.xor sum 0xFFFFFFFF)) else none
  let s := s.halPieces m r.cmd crc (s.halPlace m pages dst.kind dst.base) a bss
  let s := (s.modProg m ch fun p => { p with lines := BitVec.ofNat 30 (i + 1), st := 1, dwok := true }).bump m 0x18040
  let s := if ends then s.halSetCrc m r.cmd pages a (last / 4096 - 1) (Nat.xor sum 0xFFFFFFFF) else s
  let r := { r with land := r.freed i, sum := sum }
  (s.setHal m r).halLast m ch r

/-- HAL_LINE_WRITE: the sources of the next destination line of a channel have arrived, and the line is written, or its fault is met (R298, R302). -/
def State.halLine (s : State) (m : MastId) (ch : Fin 2) (remote : RemoteData) : State :=
  let x := (s.mast m).hal
  let i := (x.prog.get ch).lines.toNat
  match x.writing ch with
  | none => s
  | some r =>
    let d := r.cmd.desc
    let dst := hdDest d
    match r.pages, dst.line i with
    | some pages, some (a, ps) =>
      if x.stopped || x.dead ch || !s.engSet m 5 || (x.stopReq && halAtBlock d i) then s
      else
        let ls := hdArrived d i
        let need := fun (y : HalLand) => decide (y.grp = halGrp d i) && ls.contains y.line
        let u := s.halSources m ch i pages need (ls.length + 2) remote
        match u.2 with
        | none => u.1
        | some r =>
          let s := u.1
          (match r.err need with
           | some (kind, side, va, blk) => (s.setHal m { r with bad := true }).halFault m r.cmd kind side va blk
           | none =>
             let out := s.halPlace m pages dst.kind dst.base a
             let last := match ps with | p :: _ => p.2.2 + p.2.1 | [] => 0
             let words := if hdChkw d && decide (last % 4096 = 0) then (ckPieces d (last / 4096 - 1)).map fun w => s.halPlace m pages 0 0 w.1 else []
             let held : Bool := match out with | .tile t _ => decide (i = r.start ∧ (s.tile m t).inflight ≠ 0) | _ => false
             let dwok := (x.prog.get ch).dwok
             if held || (!dwok && !s.haveTokens m (hdDslots d)) then s
             else
               let g := s.ask (.hal m) (hbmLines (out :: words))
               if !g.2 then g.1
               else ((if dwok then g.1 else g.1.consume m (hdDslots d)).halPut m ch r pages i a ps).halReads m)
    | _, _ => s

/-! ## Completion (R299) -/

/-- Post what is due: a completed descriptor posts at once, or, with ORD, once every older one has completed. -/
def State.halPosts (s : State) (m : MastId) : Nat → State
  | 0 => s
  | fuel + 1 =>
    let x := (s.mast m).hal
    let older := fun (id : Nat) => x.act.any (fun r => !r.done && decide (r.cmd.id < id)) || x.queue.any fun c => decide (c.id < id)
    match x.act.find? fun r => r.done && (!hdOrd r.cmd.desc || !older r.cmd.id) with
    | none => s
    | some r =>
      let d := r.cmd.desc
      let s := s.modHal m fun x => { x with act := x.act.filter fun q => q.cmd.id ≠ r.cmd.id }
      let s := if dbit d 1 36 then s.postFrom m 5 (BitVec.ofNat 32 (dfld d 2 0 32)) else s
      let s := if dbit d 1 37 then s.postFrom m 5 (BitVec.ofNat 32 (dfld d 2 32 32)) else s
      State.halPosts s m fuel

/-- HAL_DESC_COMPLETE: the oldest descriptor of a channel that has made its last write completes, once every acknowledgement has arrived. -/
def State.halComplete (s : State) (m : MastId) (ch : Fin 2) : State :=
  let x := (s.mast m).hal
  let ready := fun (r : HalRun) => r.wrote && !r.done && decide (hdCh r.cmd.desc = ch) && !s.acksDue m 5 (fun a => decide (a.tag = r.cmd.id))
  match x.act.find? ready with
  | none => s
  | some r =>
    let s := s.setHal m { r with done := true }
    let x := (s.mast m).hal
    let s := if x.act.any fun q => !q.done && decide (hdCh q.cmd.desc = ch) then s else s.modProg m ch fun _ => { lines := 0, st := 0, dwok := false }
    s.halPosts m x.act.length

/-! ## Stopping (R300-R303) -/

/-- HAL_CTL.STOP. -/
def State.halStop (s : State) (m : MastId) : State := s.modHal m fun x => if x.stopped then x else { x with stopReq := true }

/-- HAL_STOPPED: both write stages are at a block boundary (or have faulted), every write is acknowledged, and every descriptor past its last write has
completed; every other goes back to the head of the queue, its WMASK slots consumed, and 16 entries hold the queue (log entry 92). Staged lines are
discarded, and a walk that was waited for goes on without its access (13 R345). A translation fault that is met is recorded first, and the halyard then stops
with it (13 R351); one whose job faulted instead ends where it stands. -/
def State.halStopped (s : State) (m : MastId) : State :=
  let x := (s.mast m).hal
  let ready := fun (ch : Fin 2) =>
    match x.writing ch with
    | none => true
    | some r => r.pages.isNone || x.dead ch || halAtBlock r.cmd.desc (x.prog.get ch).lines.toNat
  let met := ((s.mast m).xl.faultOf 5).any fun f => decide (f.st ≠ .dead)
  if !x.stopReq ∨ x.stopped ∨ met ∨ !ready 0 ∨ !ready 1 ∨ s.acksDue m 5 (fun _ => true) ∨ (x.act.any fun r => r.wrote && !r.done) then s
  else
    let back := (x.act.filter fun r => !r.done).map fun r => { r.cmd with started := true }
    let s := s.modXl m fun t => { t with faults := t.faults.filter fun f => f.e ≠ 5, miss := t.miss.filter fun f => f.e ≠ 5 }
    let s := s.modHal m fun x =>
      { x with stopped := true, stopReq := false, queue := back ++ x.queue, extra := surplus (back ++ x.queue), act := x.act.filter fun r => r.done }
    (fins 2).foldl (fun t ch => t.modProg m ch fun p =>
      { p with st := if (x.writing ch).isSome then 2 else 0 }) s

/-- The stopped descriptors as they start again: the first of each channel at HAL_PROG.LINES of its channel. -/
def Hal.again (x : Hal) : List HalRun :=
  let cs := x.queue.takeWhile fun c => c.started
  cs.map fun c =>
    let first := (cs.find? fun k => decide (hdCh k.desc = hdCh c.desc)).any fun k => decide (k.id = c.id)
    halRunOf c (if first then (x.prog.get (hdCh c.desc)).lines.toNat else 0)

/-- HAL_CTL.RUN (R301): every stopped descriptor starts again and translates what remains of it. -/
def State.halRun (s : State) (m : MastId) : State :=
  let x := (s.mast m).hal
  let ok := !x.faulted || decide (x.fKind = 5 ∨ x.fKind = 6)
  if !x.stopped ∨ !ok then s
  else
    let s := s.modHal m fun x =>
      { x with stopped := false, qent := [], extra := 0, faulted := false, exc := false, queue := x.queue.dropWhile fun c => c.started
               act := x.act ++ x.again }
    let s := (fins 2).foldl (fun t ch => t.modProg m ch fun p => { p with st := if p.st = 2 then 1 else p.st }) s
    s.halGo m

/-- HAL_CTL.DISCARD. -/
def State.halDiscard (s : State) (m : MastId) : State :=
  if (s.mast m).hal.stopped then
    (s.modHal m fun x =>
      { x with queue := [], extra := 0, qent := [], saved := x.saved ++ packs x.extra x.queue, act := [], faulted := false, exc := false
               prog := Vector.replicate 2 HalProg.reset }).clearStall m 5
  else s

/-- The halyard stops on a translation fault (R302, 13 R350): an exception of the control core. -/
def State.halTransFault (s : State) (m : MastId) (f : XFault) : State :=
  s.modHal m fun x =>
    match x.act.find? HalRun.unplaced with
    | some r =>
      let y := x.fault r.cmd (if f.kind = 1 then 5 else 6) f.side.toNat f.va.toNat 0
      { y with exc := true }
    | none => x

end Sys2Proof.Machine
end

