-- ==== Sys2Proof/Machine/Tokens.lean ====
section
/-!
DEFINITION. Tokens on their way (01 R34-R42), the messages of other members (15 R393), and the sail states of the engines
(02 R100, R101; 17 R436, R437).
-/

namespace Sys2Proof.Machine

/-! ## TOKEN_POST and HELD_POST_LAND -/

/-- A token has been counted at a slot: its engine has a cause to wake (01 R39), an ARRIVE count may start its fill timer (06 R179), and the long-vector unit
goes on. -/
def State.tokenSeen (s : State) (i : SlotId) (before : BitVec 8) : State :=
  match i with
  | .mast m k =>
    let s := if before = 0 then (s.wake m (slotEngine k)).arriveTimers m k else s.wake m (slotEngine k)
    if 8 ≤ k.val ∧ k.val < 16 then s.vecAdvance m else s
  | .chan _ => s

/-- A token reaches a slot. -/
def State.landAt (s : State) (i : SlotId) (p : Post) : State :=
  let before := s.slotCount i
  let t := s.land i p
  if t.slotCount i = before then t else t.tokenSeen i before

/-- Whether a post may be delivered now: none of its poster is held at its slot (01 R34), and every write that its engine made before it is
acknowledged (01 R37); what its core, or its long-vector unit in class 1, asked of the same mast before it has reached it (01 R28). DESIGN CHOICE: an atomic that returns a result is no write
that a POST waits for, as 12 R329 counts only memory reductions (log entry 107). -/
def State.postFree (s : State) (p : Post) : Bool :=
  let held : Bool := match slotOf p.addr with
    | some i => tokenNode p.addr == s.nodeId && (s.heldAt i).any fun q => decide (q.src = p.src)
    | none => false
  let late : Bool := match p.src with
    | .engine m 0 =>
      let c := (s.mast m).core
      c.sb.any (fun e => e.seq < p.seq) || c.wq.any (fun e => e.seq < p.seq) ||
        c.loads.any fun l => decide (l.seq < p.seq) && l.parts.any fun q => q.src.isOut && s.isOwn q.pa && sameMast q.pa p.addr
    | .engine m e => (s.acksDue m e fun a => decide (a.seq < p.seq)) ||
        (e == 1 && (s.mast m).vec.reqs.any fun r => decide (r.cls = 1 ∧ r.ord < p.seq) && s.isOwn r.pa && sameMast r.pa p.addr)
    | _ => false
  !held && !late

/-- The plane in which an agent sends: that of its die (15 R391). -/
def planeOf : Poster → Nat
  | .engine m _ => (dieOf m).val
  | .host p => p.val
  | _ => 0

/-- The class that a post travels in (01 Table 1-5): those of a control core in class 0. -/
def postClass : Poster → Fin 3
  | .engine _ 0 => 0
  | _ => 1

/-- The JOBID that a post carries. -/
def State.posterJob (s : State) (p : Post) : BitVec 16 :=
  match p.src with
  | .engine m _ => s.mastJobid m
  | .chan c => (s.job (s.chan c).jslot).jobid
  | .host h => (match s.hosts.cmds.find? fun c => decide (c.ref.fn.port = h ∧ c.seq = p.seq) with | some c => BitVec.ofNat 16 (eb c.entry 8 2) | none => 0)
  | _ => 0

/-- TOKEN_POST: the oldest post of a poster to a token's destination is delivered, if it is the named one and free (01 R28,
R36, R37); it is counted, held or discarded, or leaves for its module. A member's post arrives, or is refused (15 R393). -/
def State.tokenPost (s : State) (addr : BitVec 32) (src : Poster) : State :=
  match src with
  | .remote plane node jobid =>
    let s := s.flitsIn plane node jobid 1
    match slotOf addr with
    | some i => if tokenNode addr = s.nodeId ∧ s.accepts node jobid then s.landAt i { addr := addr, src := src, seq := 0 } else s.refuse plane 1 node jobid
    | none => s.refuse plane 1 node jobid
  | _ =>
    let mine := fun (p : Post) => decide (p.src = src) && decide (p.addr.toNat / 512 = addr.toNat / 512) && s.postFree p
    match takeFirst mine s.posts with
    | none => s
    | some (p, rest) =>
      if p.addr ≠ addr then s
      else
        let t := { s with posts := rest }
        if tokenNode addr = s.nodeId then
          (match slotOf addr with | some i => t.landAt i p | none => t)
        else
          let b := match src with
            | .engine m _ => s.mastBlock m
            | .chan c => (s.job (s.chan c).jslot).jblk
            | _ => s.replyBlock (s.posterJob p)
          t.sendTo b (tokenNode addr) (planeOf src) (postClass src) (.post addr (s.posterJob p))

/-- HELD_POST_LAND: the oldest post held at a slot that has room again is counted (01 R34). -/
def State.heldLand (s : State) (i : SlotId) : State :=
  let before := s.slotCount i
  let t := s.landHeld i
  if t.slotCount i = before then t else t.tokenSeen i before

/-- TOKEN_CTL.CLEAR (01 R43): ignored while the mast runs a job. -/
def State.tokenClear (s : State) (m : MastId) : State :=
  if (s.mast m).jvalid then s
  else
    { s.modMast m fun x => { x with tok := { x.tok with count := [] } } with
      held := s.held.filter fun h => match h.1 with | .mast k _ => decide (k ≠ m) | .chan _ => true }

/-! ## Token-stall events (01 R41) -/

/-- The slots on which an engine's oldest command waits. -/
def State.waitSlots (s : State) (m : MastId) (e : EngId) : List (Fin 96) :=
  let x := s.mast m
  match e.val with
  | 0 => (match x.core.waiting with | some (.tokens mask) => maskSlots 0 mask.toNat 8 | _ => [])
  | 1 => (match x.vec.queue with
    | k :: _ => (match k.v1 with | some (.vwait, d) => maskSlots 1 d.low8 8 | _ => [])
    | [] => [])
  | 2 | 3 =>
    let a : ArrId := Fin.ofNat 2 (e.val - 2)
    (match (x.arr.get a).queue with
    | k :: _ => if k.kind = .pass ∧ k.modes.isNone then arrSlots (if k.twin then 0 else a) (pdSlots k.desc) else []
    | [] => [])
  | 4 => (match x.sheet.queue.find? fun c => c.run.isNone with | some c => sdSlots c.desc | none => [])
  | _ => (match x.hal.queue with | c :: _ => if c.started then [] else hdWslots c.desc | [] => [])

/-- TOKEN_STALL_EVENT: a command that still waits on its slots posts one event to its job's owner. -/
def State.tokenStall (s : State) (m : MastId) (e : EngId) : State :=
  let x := s.mast m
  let is := s.waitSlots m e
  if !x.tok.stallEn || x.tok.stallSent.getLsbD e.val || s.haveTokens m is then s
  else
    let s := s.modMast m fun x => { x with tok := { x.tok with stallSent := x.tok.stallSent ||| BitVec.ofNat 6 (2 ^ e.val) } }
    if x.jvalid then
      s.jobEvent x.jslot .tokenStall (evDetail .tokenStall (m.val + 128 * e.val + 1024 * (is.map fun i => 2 ^ i.val).sum))
    else s

/-! ## Sail states -/

/-- Whether an engine of a mast is idle, so that it reefs after 16 cc (03 R100, 04 R111, 06 R172, 08 R238, 11 R297). A post of the control core is
outstanding while it is on its way, and not while it is held at a full slot (log entry 94). -/
def State.engIdle (s : State) (m : MastId) (e : EngId) : Bool :=
  let x := s.mast m
  match e.val with
  | 0 =>
    let c := x.core
    c.halted || ((match c.waiting with | some (.tokens _) => true | _ => false) && c.sb.isEmpty && c.wq.isEmpty && c.loads.isEmpty &&
      c.muls.isEmpty && !s.posts.any fun p => decide (p.src = .engine m 0))
  | 1 => x.vec.queue.isEmpty && x.vec.mem.isNone && x.vec.reqs.isEmpty
  | 2 | 3 => let a := x.arr.get (Fin.ofNat 2 (e.val - 2)); a.queue.isEmpty && a.passes.isEmpty && a.fires.isEmpty
  | 4 => x.sheet.queue.isEmpty && x.sheet.fin.isEmpty && x.sheet.replies.isEmpty
  | _ => x.hal.queue.isEmpty && x.hal.act.isEmpty

/-- The causes to wake of an engine are over. -/
def State.unwake (s : State) (m : MastId) (e : EngId) : State :=
  s.modMast m fun x => { x with tok := { x.tok with woken := x.tok.woken &&& ~~~BitVec.ofNat 6 (2 ^ e.val) } }

/-- REEF_ENTRY: an idle engine that is set reefs. Of a vector command whose arithmetic pipe has been idle that long, none is in progress (04 R111). -/
def State.reefEntry (s : State) (m : MastId) (e : EngId) : State :=
  if sailOf (s.mast m) e = 0 ∧ s.engIdle m e then
    let s := (s.modMast m fun x => setSail x e 1).unwake m e
    if e = 1 then s.modVec m fun v => { v with arith := none } else s
  else s

/-- Whether something wakes a reefed control core beside a token or START: an interrupt that is enabled, or a deferrable exception (03 R101; log entry 95). -/
def Mast.coreWoken (x : Mast) : Bool := decide (x.core.ipend &&& x.core.ien ≠ 0) || x.vec.faulted || x.hal.exc

/-- Whether something wakes an engine: a token or a START since it reefed (01 R39, 03 R101), work for it, or what wakes a control core. -/
def State.engWoken (s : State) (m : MastId) (e : EngId) : Bool :=
  let x := s.mast m
  x.tok.woken.getLsbD e.val || (if e = 0 then x.coreWoken else !s.engIdle m e)

/-- REEF_WAKE_DONE: a woken engine is set. -/
def State.reefWake (s : State) (m : MastId) (e : EngId) : State :=
  if sailOf (s.mast m) e = 1 ∧ s.engWoken m e then
    let s := (s.modMast m fun x => setSail x e 0).unwake m e
    if e = 1 then s.vecAdvance m else s
  else s

/-- Whether an address is of a mast's canvas slice or per-mast block. -/
def State.ofMast (s : State) (m : MastId) (pa : BitVec 52) : Bool :=
  s.isOwn pa && match placeOf (localOf pa) with
    | .canvas k => decide (k = m)
    | .regs => within (localOf pa) (regBase + 0x100000 * m.val) 0x100000
    | _ => false

/-- Whether an access to a mast's canvas slice or per-mast block is on its way (17 R436): a load of a core that has not returned, a store in its buffer or its
write queue, or a request of a long-vector unit. -/
def State.accessOn (s : State) (m : MastId) : Bool :=
  s.masts.toList.any fun y =>
    y.core.sb.any (fun e => s.ofMast m e.pa) || y.core.wq.any (fun w => s.ofMast m w.pa) ||
    y.core.loads.any (fun l => l.parts.any fun p => s.ofMast m p.pa && match p.src with | .ready _ => false | _ => true) ||
    y.vec.reqs.any fun r => s.ofMast m r.pa

/-- FURL_ENTRY (17 R436): every engine is reefed, every slot of the mast reads 0, no access to it is on its way, and furling is
not disabled. -/
def State.furlEntry (s : State) (m : MastId) : State :=
  let x := s.mast m
  if s.pow.furl ≠ 0 ∧ x.sail = 0x555 ∧ x.tok.count.isEmpty ∧ !s.accessOn m then
    s.modMast m fun x => { x with sail := 0xAAA }
  else s

/-- Whether something wakes a furled mast (17 R437): a token post, a START, or a pending interrupt that is enabled. -/
def Mast.furlWoken (x : Mast) : Bool := decide (x.tok.woken ≠ 0) || decide (x.core.ipend &&& x.core.ien ≠ 0)

/-- FURL_WAKE_DONE: every engine of a woken mast becomes reefed. -/
def State.furlWake (s : State) (m : MastId) : State :=
  let x := s.mast m
  if x.sail = 0xAAA ∧ x.furlWoken then s.modMast m fun x => { x with sail := 0x555 } else s

/-- Furl a mast at once (17 R434, R447). -/
def State.furl (s : State) (m : MastId) : State := s.modMast m fun x => { x with sail := 0xAAA }

end Sys2Proof.Machine
end

