-- ==== Sys2Proof/Machine/Walks.lean ====
section
/-!
DEFINITION. Walks, fault records and invalidations as events (13 R345-R357).
-/

namespace Sys2Proof.Machine

/-! ## Walks -/

/-- Whether a walk is of a page of an address space. -/
def Walk.isFor (w : Walk) (asid : BitVec 12) (vpn : BitVec 40) : Bool := w.asid == asid && w.vpn == vpn

/-- The number of walkers and of queue places of a pool (13 R345, R348). -/
def poolSize : Nat := 16
def poolQueue : Nat := 64

/-- Requesters merge with the walk of their page that is in progress (13 R349). -/
def State.joinWalk (s : State) (d : DieId) (asid : BitVec 12) (vpn : BitVec 40) (who : List (MastId × EngId)) : State :=
  (s.modDie d fun y =>
    { y with walks := updFirst (fun w => w.isFor asid vpn && w.running) (fun w => { w with who := w.who ++ who }) y.walks }).bumpDie d 0x400018

/-- WALK_REQUEST: the miss of an engine reaches the pool of its die: it merges with a walk of the same page that is in progress, takes a free walker, queues,
or finds the queue full and is sent again (13 R345, R348, R349). -/
def State.walkRequest (s : State) (m : MastId) (e : EngId) (va : BitVec 56) : State :=
  let x := (s.mast m).xl
  let d := dieOf m
  let vpn : BitVec 40 := BitVec.ofNat 40 (va.toNat / 2 ^ 16)
  let ws := (s.die d).walks
  let asked : Bool := ws.any fun w => w.isFor x.asid vpn && w.who.any fun q => decide (q = (m, e))
  let due : Bool := x.miss.any fun f => decide (f.e = e) && decide (f.va.toNat / 2 ^ 16 = vpn.toNat)
  if asked ∨ !due then s
  else if ws.any fun w => w.isFor x.asid vpn && w.running then s.joinWalk d x.asid vpn [(m, e)]
  else
    let add := fun (run : Bool) (t : State) => t.modDie d fun y =>
      { y with walks := y.walks ++ [{ asid := x.asid, vpn := vpn, root := x.root, who := [(m, e)], running := run, fromTop := false }] }
    let n := (ws.filter fun w => w.running).length
    if n < poolSize then (add true s).bumpDie d 0x400000
    else if ws.length - n < poolQueue then add false s
    else s

/-- A walker is free: the oldest queued request starts, or merges with a walk of its page that is in progress by then, and the next is looked at. -/
def State.nextWalk (s : State) (d : DieId) : Nat → State
  | 0 => s
  | fuel + 1 =>
    let ws := (s.die d).walks
    if poolSize ≤ (ws.filter fun w => w.running).length then s
    else match takeFirst (fun w => !w.running) ws with
    | none => s
    | some (q, rest) =>
      if rest.any fun w => w.isFor q.asid q.vpn && w.running then
        State.nextWalk ((s.modDie d fun y => { y with walks := rest }).joinWalk d q.asid q.vpn q.who) d fuel
      else (s.modDie d fun y => { y with walks := updFirst (fun w => !w.running) (fun w => { w with running := true }) y.walks }).bumpDie d 0x400000

/-- An engine that waited for a translation goes on. -/
def State.resumeXlate (s : State) (m : MastId) (e : EngId) : State :=
  if e = 1 then s.vecAdvance m else if e = 5 then s.halGo m else s

/-- The result of a walk reaches one of its requesters: the leaf enters its buffer, but for a control core that no longer waits for it (13 R345, 02 R79); or, if
it still waits, its fault is recorded; or, for a poisoned table line, the job faults at once (13 R340, R346, R350). -/
def State.walkResult (s : State) (asid : BitVec 12) (va : Nat) (r : WRes) (m : MastId) (e : EngId) : State :=
  let x := (s.mast m).xl
  match x.miss.find? fun f => decide (f.e = e) && decide (f.va.toNat / 2 ^ 16 = va / 2 ^ 16) with
  | none =>
    (match r with
     | .leaf lvl ent => if e = 0 then s else s.modXl m fun y => y.fill e (leafEnt asid va lvl ent)
     | _ => s)
  | some f =>
    let s := s.modXl m fun y => { y with miss := y.miss.filter (· ≠ f) }
    let stay := fun (t : State) => if e = 0 then t.modCore m fun c => { c with waiting := c.waiting.map fun _ => Wait.fault } else t
    match r with
    | .leaf lvl ent => (s.modXl m fun y => y.fill e (leafEnt asid va lvl ent)).resumeXlate m e
    | .noTrans lvl => stay (s.addFault m { f with kind := 1, lvl := BitVec.ofNat 2 lvl })
    | .malformed lvl => stay (s.addFault m { f with kind := 4, lvl := BitVec.ofNat 2 lvl })
    | .refused => s
    | .poisoned =>
      stay ((s.modXl m fun y => { y with faults := y.faults ++ [{ f with st := .dead }] }).jobFault m e.val 1)

/-- The top table that a walk starts from: that of its request, or, once an invalidation has restarted it, that of XL_ROOT of its requester now (13 R354). -/
def State.walkRoot (s : State) (w : Walk) : BitVec 42 :=
  match w.fromTop, w.who with
  | true, (m, _) :: _ => if (s.mast m).xl.asid = w.asid then (s.mast m).xl.root else w.root
  | _, _ => w.root

/-- WALK_COMPLETE: a running walk ends (13 R345-R347). One whose table read is refused goes on running (12 R323). -/
def State.walkComplete (s : State) (d : DieId) (asid : BitVec 12) (vpn : BitVec 40) : State :=
  match takeFirst (fun w => w.isFor asid vpn && w.running) (s.die d).walks with
  | none => s
  | some (w, rest) =>
    let va := vpn.toNat * 2 ^ 16
    let root := s.walkRoot w
    let r := (s.modDie d fun y => { y with walks := rest }).walk (.walker d) d asid root va w.fromTop
    if r.2.2 = .refused then (s.walk (.walker d) d asid root va w.fromTop).1
    else
    let t := r.1.modDie d fun y => { y with wc := wcFill y.wc r.2.1 }
    (w.who.foldl (fun t q => t.walkResult asid va r.2.2 q.1 q.2) t).nextWalk d (poolQueue + 1)

/-! ## Fault records -/

/-- A period of fullness ends once no fault is held and the ring is not full (13 R351). -/
def State.endPeriod (s : State) (m : MastId) : State :=
  s.modXl m fun x =>
    if x.fullPeriod && !(x.faults.any fun f => decide (f.st = .held)) && !x.fqFull then { x with fullPeriod := false } else x

/-- The bytes of a fault record (13 Table 13-4). -/
def recordBytes (f : XFault) (asid : BitVec 12) (seq : BitVec 32) : List Byte :=
  let info := f.e.val + 8 * f.kind.toNat + 64 * f.lvl.toNat + 256 * b2n f.wr + 512 * f.plv.toNat + 2048 * f.side.toNat
  toBytes 8 f.va.toNat ++ toBytes 4 info ++ toBytes 4 f.pc.toNat ++ toBytes 4 f.detail.toNat ++ toBytes 4 asid.toNat ++
    toBytes 4 seq.toNat ++ toBytes 4 0

/-- Change the faults of engine `e` that stand in state `a`. -/
def State.faultSt (s : State) (m : MastId) (e : EngId) (a b : FaultSt) : State :=
  s.modXl m fun x => { x with faults := updFirst (fun f => decide (f.e = e ∧ f.st = a)) (fun f => { f with st := b }) x.faults }

/-- FAULT_RECORD_WRITE: the fault of an engine writes its record, or is held while the ring is full (13 R350-R352). -/
def State.recordWrite (s : State) (m : MastId) (e : EngId) : State :=
  let x := (s.mast m).xl
  match x.faults.find? fun f => decide (f.e = e) && decide (f.st = .pending ∨ f.st = .held) with
  | none => s
  | some f =>
    if x.recBad s.nodeId || !x.fqEn then
      (s.faultSt m e f.st .dead).jobFault m e.val (if f.kind = 4 then 5 else 6)
    else if x.fqFull then
      if f.st = .held then s
      else
        let s := ((s.faultSt m e .pending .held).modXl m fun y => { y with fqOvf := true }).bump m 0x3028
        if x.fullPeriod then s
        else
          let s := s.modXl m fun y => { y with fullPeriod := true }
          if (s.mast m).jvalid then s.jobEvent (s.mast m).jslot .fqFull (evDetail .fqFull m.val) else s
    else
      let a := x.recAddr % 2 ^ 38
      let q := s.ask (.walker (dieOf m)) (linesOf a 32)
      if !q.2 then q.1
      else
        let s := q.1.writeBytes a (recordBytes f x.asid x.fqSeq)
        let s := (s.faultSt m e f.st .written).modXl m fun y =>
          { y with fqTail := BitVec.ofNat 12 ((y.fqTail.toNat + 1) % 2 ^ y.fqSize.toNat), fqSeq := y.fqSeq + 1 }
        (if f.kind = 4 then s.jobFault m e.val 5 else s).endPeriod m

/-- The VEC_FAULT_INFO.KIND of a translation fault (04 R127). -/
def vecKind (kind : BitVec 3) : Nat := if kind = 3 then 4 else kind.toNat

/-- The cause of a translation fault of the control core (13 R342, 14 Table 14-4). -/
def coreCause (kind : BitVec 3) : Nat := if kind = 1 then 11 else if kind = 2 then 12 else 9

/-- FAULT_RECORD_ACK: the record of an engine's fault is written, and the engine raises its exception (13 R350). After a malformed walk
it stays held: its job has faulted. A deferrable trap that the control core can take in that cc comes before its own (14 R368). -/
def State.recordAck (s : State) (m : MastId) (e : EngId) : State :=
  match takeFirst (fun f => decide (f.e = e ∧ f.st = .written)) (s.mast m).xl.faults with
  | none => s
  | some (f, rest) =>
    if f.kind = 4 then s.faultSt m e .written .dead
    else
      let s := s.modXl m fun x => { x with faults := rest }
      if e = 0 then (s.takeDeferrable m).getD (s.raise m (coreCause f.kind) f.slot.toNat (f.detail.getLsbD 0) (f.va.zeroExtend 64))
      else if e = 1 then
        s.vecFails m (vecKind f.kind) f.va f.pc f.wr f.detail.toNat (s.mast m).vec.mnext
      else s.halTransFault m f

/-- FQ_TIMEOUT: a fault has been held for 2^20 cc: its job faults (13 R351). -/
def State.fqTimeout (s : State) (m : MastId) : State :=
  match (s.mast m).xl.faults.find? fun f => decide (f.st = .held) with
  | none => s
  | some f => ((s.modXl m fun x => { x with fqTimeout := true }).faultSt m f.e .held .dead).jobFault m f.e.val 6

/-- Whether an access of a mast leaves the module by a port that trains, whose wait no bound governs (15 R394). -/
def State.routeTrains (s : State) (m : MastId) (pa : BitVec 52) : Bool :=
  !s.isOwn pa && (s.sport (exitPort s.shrCfg (s.mastBlock m) s.nodeId (nodeOf pa) (dieOf m).val)).training

/-- Whether an engine has a request under way that its bound governs: an access, a write or a writeback of its data cache without its acknowledgement, a walk, or
a token post that is not yet visible (01 Table 1-5), none of which waits for a port of this module that trains. -/
def State.engRequests (s : State) (m : MastId) (e : EngId) : Bool :=
  let x := s.mast m
  let free := fun (pa : BitVec 52) => !s.routeTrains m pa
  (s.posts.any fun p => decide (p.src = .engine m e)) || (s.acksDue m e fun a => free a.pa) || (x.xl.miss.any fun f => decide (f.e.val = e.val)) ||
  match e.val with
  | 0 => (x.core.loads.any fun l => l.parts.all fun p => free p.pa) || (x.core.wq.any fun w => free w.pa) || !x.dc.reqs.isEmpty || !x.dc.wb.isEmpty
  | 1 => x.vec.reqs.any fun r => free r.pa
  | 5 => x.hal.act.any fun r => match r.pages with
    | none => true
    | some pages => match s.halFar m r.cmd.desc pages r.land with
      | some pa => free pa
      | none => true
  | _ => !s.engIdle m e

/-- BOUND_EXCEEDED: a request of an engine exceeds its bound, and its job faults (01 R26, 15 R394). -/
def State.boundExceeded (s : State) (m : MastId) (e : EngId) : State :=
  if s.engRequests m e then s.jobFault m e.val 7 else s

/-! ## The ring registers -/

/-- Set XWERR of a mast's core. -/
def State.xwerr (s : State) (m : MastId) : State := s.modCore m fun c => { c with xwerr := true }

/-- FQ_BASE.SIZE as a write sets it. -/
def fqSizeOf (v : Word) : BitVec 4 := if 4 ≤ wfld v 0 4 ∧ wfld v 0 4 ≤ 12 then BitVec.ofNat 4 (wfld v 0 4) else 4

/-- FQ_BASE: written while the core is halted; it clears FQ_HEAD, FQ_TAIL and FQ_SEQ (13 R356, Table 13-8). -/
def State.fqBaseWrite (s : State) (m : MastId) (v : Word) : State :=
  if !(s.mast m).core.halted then s.xwerr m
  else
    (s.modXl m fun x =>
      { x with fqSize := fqSizeOf v, fqBase := BitVec.ofNat 40 (wfld v 12 40)
               fqHead := 0, fqTail := 0, fqSeq := 0 }).endPeriod m

/-- FQ_HEAD: places become free for held faults (13 R351). -/
def State.fqHeadWrite (s : State) (m : MastId) (v : Word) : State :=
  (s.modXl m fun x => { x with fqHead := BitVec.ofNat 12 (wfld v 0 12) }).endPeriod m

/-! ## Invalidation (13 R353-R355) -/

/-- Queue an invalidation command: none with scope 3 or a reserved bit, and at most four; gives whether it was queued. -/
def State.queueInv (s : State) (v : Word) (va : BitVec 40) (host : Option CmdRef) : State × Bool :=
  if 4 ≤ s.invs.length ∨ wfld v 0 2 = 3 ∨ wfld v 34 30 ≠ 0 then (s, false)
  else
    ({ s with invs := s.invs ++ [{ scope := BitVec.ofNat 2 (wfld v 0 2), asid := BitVec.ofNat 12 (wfld v 2 12)
                                   npages := BitVec.ofNat 20 (wfld v 14 20), va := va, applied := false, uses := [], host := host }] }, true)

/-- XL_INV_CMD. -/
def State.invCmd (s : State) (v : Word) : State :=
  let r := s.queueInv v s.invVa none
  if r.2 then r.1 else { s with invOvf := true }

/-- Whether an address space is in the scope of a command. -/
def Inval.asidIn (i : Inval) (a : BitVec 12) : Bool := decide (i.scope = 0) || i.asid == a

/-- Whether a range of VAs, from the 64 KiB page `p` on, `n` pages long, is in its range. -/
def Inval.pagesIn (i : Inval) (p n : Nat) : Bool :=
  decide (i.scope ≠ 2) || decide (p < i.va.toNat + i.npages.toNat + 1 ∧ i.va.toNat < p + n)

/-- Whether a translation-buffer entry matches. -/
def Inval.hitsTlb (i : Inval) (t : TlbEnt) : Bool :=
  i.asidIn t.asid && i.pagesIn (t.vpage * 2 ^ (pageBits t.lvl - 16)) (2 ^ (pageBits t.lvl - 16))

/-- Whether a walk-cache entry matches. -/
def Inval.hitsWc (i : Inval) (w : WcEnt) : Bool :=
  i.asidIn w.asid && i.pagesIn (w.vtag * 2 ^ (levelLo w.lvl - 16)) (2 ^ (levelLo w.lvl - 16))

/-- The physical page of a translation: its number and the bits of its offset. -/
def TlbEnt.page (t : TlbEnt) : Nat × Nat := (t.pa.toNat / 2 ^ pageBits t.lvl, pageBits t.lvl)

/-- The pages of the translations for a mast that a command removes: those of its buffers, and the leaves of its die's walk cache. -/
def State.invPages (s : State) (i : Inval) (m : MastId) : List (Nat × Nat) :=
  let x := (s.mast m).xl
  let leaves := ((s.die (dieOf m)).wc.filter fun w => wbit w.ent 1 && i.hitsWc w).map fun w => leafEnt w.asid 0 w.lvl w.ent
  ((((x.tlbCore ++ x.tlbVec ++ x.tlbHal).filter fun t => i.hitsTlb t) ++ leaves).map TlbEnt.page).eraseDups

/-- Whether an access is to one of the pages. -/
def InvUse.hits (u : InvUse) (pa : BitVec 52) : Bool := u.pages.any fun p => decide (pa.toNat / 2 ^ p.2 = p.1)

/-- The uses by a mast, under way now, of translations to some pages (log entry 113). -/
def State.invUse (s : State) (m : MastId) (pages : List (Nat × Nat)) : InvUse :=
  let x := s.mast m
  let u : InvUse := { m := m, pages := pages, seq := x.core.seq, grp := x.vec.nextGrp + x.vec.ready.length + 1, ord := s.order, elems := [], hal := [], wb := [] }
  { u with
    elems := (x.vec.tail ++ x.vec.ready.flatten).filter fun e => u.hits e.2
    hal := (x.hal.act.filter fun r => !r.done && r.got.any fun p => u.hits p.2).map fun r => r.cmd.id
    wb := (x.dc.wb.filter fun w => u.hits (BitVec.ofNat 52 (s.nodeId.toNat * 2 ^ 38 + lineAddr w.line.addr))).map fun w => w.line.addr }

/-- Whether such uses have all ended (13 R354). -/
def State.useOver (s : State) (u : InvUse) : Bool :=
  let x := s.mast u.m
  let v := x.vec
  !(x.core.loads.any fun l => decide (l.seq < u.seq) && l.parts.any fun p => u.hits p.pa) &&
  !(x.core.sb.any fun e => decide (e.seq < u.seq) && u.hits e.pa) && !(x.core.wq.any fun e => decide (e.seq < u.seq) && u.hits e.pa) &&
  !(v.reqs.any fun r => decide (r.grp ≤ u.grp) && u.hits r.pa) && !(decide (v.nextGrp ≤ u.grp) && (v.tail ++ v.ready.flatten).any fun e => u.elems.contains e) &&
  !(s.acksDue u.m 1 fun a => decide (a.seq < u.ord) && u.hits a.pa) &&
  !(x.hal.act.any fun r => !r.done && u.hal.contains r.cmd.id) && !(x.dc.wb.any fun w => u.wb.contains w.line.addr)

/-- INV_APPLY: the first command removes every matching translation and restarts the walks of its address spaces (13 R354 step 1). -/
def State.invApply (s : State) : State :=
  match s.invs with
  | [] => s
  | i :: rest =>
    if i.applied then s
    else
      let uses := ((fins 128).filter fun m => !(s.invPages i m).isEmpty).map fun m => s.invUse m (s.invPages i m)
      let s := s.eachMast fun m t => t.modXl m fun x =>
        { x with tlbCore := x.tlbCore.filter fun e => !i.hitsTlb e, tlbVec := x.tlbVec.filter fun e => !i.hitsTlb e
                 tlbHal := x.tlbHal.filter fun e => !i.hitsTlb e }
      let s := (fins 2).foldl (fun t d =>
        let n := ((t.die d).walks.filter fun w => w.running && i.asidIn w.asid).length
        t.modDie d fun y =>
          { y with wc := y.wc.filter fun w => !i.hitsWc w
                   walks := y.walks.map fun w => if w.running && i.asidIn w.asid then { w with fromTop := true } else w
                   cnt := Tab.add y.cnt 0x400000 n }) s
      { s with invs := { i with applied := true, uses := uses } :: rest }

/-- The invalidation that a host command waits for has completed: that is the action of INVALIDATE, and lets a sub-operation of JOB go on (16 R420, 18 R467). -/
def State.invReport (s : State) (r : CmdRef) : State :=
  let report := fun (c : HCmd) => if c.step = 0 then { c with status := some 0 } else { c with step := 2 }
  s.modHosts fun h => { h with cmds := updFirst (fun c => decide (c.ref = r ∧ c.status = none)) report h.cmds }

/-- Set the status of a host command whose action is done (16 R420). -/
def State.cmdDone (s : State) (r : CmdRef) (st : Nat) : State :=
  s.modHosts fun h =>
    { h with cmds := updFirst (fun c => decide (c.ref = r ∧ c.status = none)) (fun c => { c with status := some (BitVec.ofNat 8 st) }) h.cmds }

/-- INV_COMPLETE: the uses that the first command drains are over, and it completes (13 R354 steps 2 and 3). -/
def State.invComplete (s : State) : State :=
  match s.invs with
  | [] => s
  | i :: rest =>
    if !i.applied ∨ !i.uses.all (fun u => s.useOver u) then s
    else
      let s := { s with invs := rest, invDone := true }
      match i.host with
      | some r => s.invReport r
      | none => s

end Sys2Proof.Machine
end

