-- ==== Sys2Proof/Machine/Caches.lean ====
section
/-!
DEFINITION. The messages of the coherence protocol as events (12 R316-R325), the accesses of other members to this module (13 R343),
flushes (12 R332-R334), and the memory controllers (11 R276, R285-R290).
-/

namespace Sys2Proof.Machine

/-! ## Requests and Puts at the home -/

/-- GETS, GETM and UPG: such a request of a cache arrives at the home of its line. -/
def State.reqArrives (s : State) (m : MastId) (l : Line) (p : ReqKind → Option HomeReq) : State :=
  let mine := fun (x : Msg) =>
    match x with
    | .req a b k => decide (a = m ∧ b = l) && (p k).isSome
    | _ => false
  match s.takeMsg mine with
  | some (.req _ _ k, t) => (match p k with | some r => t.arrive m l r | none => s)
  | _ => s

/-- PUTM, PUTO and PUTE: such a Put of a cache arrives at the home. -/
def State.putMsg (s : State) (m : MastId) (l : Line) (st : CacheSt) : State :=
  let mine := fun (x : Msg) => match x with | .put a b c _ => decide (a = m ∧ b = l ∧ c = st) | _ => false
  match s.takeMsg mine with
  | some (.put _ _ _ d, t) => t.putArrives m l st d
  | _ => s

/-- An access of another member to this module: refused unless it is of a job of this module; to canvas at once; to HBM through its home,
with a Nack while that is busy or reserved (15 R393, 12 R323). -/
def State.memberAccess (s : State) (plane : Fin 2) (k : Fin 3) (node : BitVec 14) (jobid : BitVec 16) (l : Line) (off len : Nat) (r : HomeReq)
    (canvas : State → State) : State :=
  let s := s.flitsIn plane node jobid 1
  if !s.accepts node jobid ∨ 128 < off + len then s.refuse plane k node jobid
  else
    match placeOf (lineAddr l) with
    | .hbm =>
      let who := Requester.remote plane k node jobid
      if s.homeOpen who l then (s.taken who l).accept l r else s.refused who l
    | .canvas _ => canvas s
    | _ => s.refuse plane k node jobid

/-- RDU: an uncached read arrives (12 R317): of a control core or of another member. The reads of the other engines are made by their own
commands, in one step. -/
def State.rduArrives (s : State) (r : Requester) (l : Line) (off : Fin 128) (len : Nat) : State :=
  match r with
  | .core m =>
    (match s.takeMsg fun x => decide (x = .rdu m l off.val len) with
     | some (_, t) => t.arrive m l (.rdu r off.val len)
     | none => s)
  | .remote plane k node jobid =>
    s.memberAccess plane k node jobid l off.val len (.rdu r off.val len) fun t =>
      let q := t.readBytes (lineAddr l + off.val) len
      q.1.reply plane k node jobid (.rduReply node q.2.1 q.2.2 (some (Sparse.get s.check (blockOf (lineAddr l)))))
  | _ => s

/-- WRU: an uncached write arrives, of a control core or of another member. The last write of a canvas block by a member that keeps checksums carries the
CRC of the block, which then is its check entry (11 R279; log entry 43). -/
def State.wruArrives (s : State) (r : Requester) (l : Line) (off : Fin 128) (bs : List Byte) (crc : Option (BitVec 32)) : State :=
  match r with
  | .core m =>
    (match s.takeMsg fun x => match x with | .wru a b c d _ => decide (a = m ∧ b = l ∧ c = off.val ∧ d = bs) | _ => false with
     | some (.wru _ _ _ _ wt, t) => t.arrive m l (.wru r off.val bs wt)
     | _ => s)
  | .remote plane k node jobid =>
    s.memberAccess plane k node jobid l off.val bs.length (.wru r off.val bs false) fun t =>
      let t := t.writeBytes (lineAddr l + off.val) bs
      let t : State := match crc with
        | some c => { t with check := Sparse.set t.check (blockOf (lineAddr l)) (BitVec.ofNat 64 (2 ^ 32 + c.toNat)) }
        | none => t
      t.reply plane k node jobid (.wruAck node)
  | _ => s

/-- Whether an older atomic of a core to the home of a line has not been performed: it is on its way, was refused, or waits there (12 R330, 01 R28). -/
def State.atomBehind (s : State) (m : MastId) (l : Line) : Bool :=
  ((s.mast m).dc.reqs.takeWhile fun r => !decide (r.kind = .atom ∧ r.line = l)).any fun r =>
    decide (r.kind = .atom) && homeOf (lineAddr r.line) == homeOf (lineAddr l)

/-- ATOM: an atomic arrives, of a control core or of another member. Those of one core to one home are performed in the order of issue (12 R330). -/
def State.atomArrives (s : State) (r : Requester) (l : Line) (off : Fin 128) (op : AtomReq) : State :=
  match r with
  | .core m =>
    (match s.takeMsg fun x => decide (x = .atom m l off.val op) with
     | some (_, t) => if s.atomBehind m l then s else t.arrive m l (.atom r off.val op)
     | none => s)
  | .remote plane k node jobid =>
    s.memberAccess plane k node jobid l off.val (if op.dbl then 8 else 4) (.atom r off.val op) fun t => t.refuse plane k node jobid
  | _ => s

/-! ## Fills -/

/-- HOME_FILL: the data of a miss return from HBM (12 R319), with what the controller's code finds; a line that waits in the write queue is
served from it (11 R285). A miss without a way waits for one (12 R314). -/
def State.homeFill (s : State) (l : Line) (ecc : Ecc) : State :=
  match s.home l with
  | none => s
  | some h =>
    match h.busy with
    | none => s
    | some b =>
      if !b.needFill then s
      else if b.noRoom ∧ !s.roomFor l then s.recallFor l
      else
        let s := (if b.noRoom then s.makeRoom l else s).hbmRead l false
        let s := match (if s.hbmWq.contains l then Ecc.clean else ecc) with
          | .clean => s
          | .corrected => s.hbmSat l 0x10 0 1
          | .uncorrectable => s.hbmBad l false
        s.contact { h with data := ramLine s.ram l, poison := s.ramPoison l } b.req

/-! ## Grants, acknowledgements and refusals at the cache -/

/-- DATAS, DATAE and DATAM: a grant of a state arrives at a cache. -/
def State.grantMsg (s : State) (m : MastId) (l : Line) (st : CacheSt) : State :=
  let mine := fun (x : Msg) => match x with | .grant a b c _ _ => decide (a = m ∧ b = l ∧ c = st) | _ => false
  match s.takeMsg mine with
  | some (.grant _ _ _ d p, t) => t.cacheGrant m l st d p
  | _ => s

/-- UPGACK. -/
def State.upgMsg (s : State) (m : MastId) (l : Line) : State :=
  match s.takeMsg fun x => decide (x = .upgAck m l) with
  | some (_, t) => t.cacheUpg m l
  | none => s

/-- The 4 cc of a Put at the home of a line are over; the order of use of the lines stays. -/
def State.putOver (s : State) (l : Line) : State :=
  { s with homes := s.homes.map fun h => if h.addr = l then { h with putting := false } else h }

/-- PUTACK: the writeback-buffer entry is free, and a line of a flush that waited for it is put; a flush ends with the last of them (12 R307, R332). The home
is past its 4 cc with the Put. -/
def State.putAckMsg (s : State) (m : MastId) (l : Line) : State :=
  match s.takeMsg fun x => decide (x = .putAck m l) with
  | some (_, t) =>
    let t := (t.putOver l).modDc m fun c =>
      let wb := match takeFirst (fun (w : WbLine) => decide (w.line.addr = l)) c.wb with | some (_, r) => r | none => c.wb
      { c with wb := wb, flushing := c.flushing && !wb.isEmpty }
    (match (t.mast m).dc.wb[3]? with | some (w : WbLine) => if (s.mast m).dc.wb.length ≤ 4 then t else t.sendPut m w.line | none => t).kickAll m
  | none => s

/-- NACK: the refused request or Put waits for its backoff (12 R323). -/
def State.nackMsg (s : State) (m : MastId) (l : Line) : State :=
  let mine := fun (x : Msg) => match x with | .nack a b _ => decide (a = m ∧ b = l) | _ => false
  match s.takeMsg mine with
  | some (.nack _ _ put, t) =>
    (t.modDc m fun c =>
      if put then { c with wb := updFirst (fun w => decide (w.line.addr = l)) (fun w => { w with backoff := true }) c.wb }
      else { c with reqs := updFirst (fun r => decide (r.line = l)) (fun r => { r with backoff := true }) c.reqs }).bump m 0x2028
  | _ => s

/-- NACK_RETRY: the backoff is over, and the request or Put is sent again; or an engine of the mast may make its refused access again. -/
def State.nackRetry (s : State) (m : MastId) (l : Line) : State :=
  let c := (s.mast m).dc
  match c.reqs.find? fun r => decide (r.line = l) && r.backoff with
  | some r =>
    (s.modDc m fun c =>
      { c with reqs := updFirst (fun r => decide (r.line = l) && r.backoff) (fun r => { r with backoff := false }) c.reqs }).send r.msg
  | none =>
    match c.wb.find? fun w => decide (w.line.addr = l) && w.backoff with
    | some w =>
      (s.modDc m fun c =>
        { c with wb := updFirst (fun w => decide (w.line.addr = l) && w.backoff) (fun w => { w with backoff := false }) c.wb }).send
        (.put m l w.line.st w.line.data)
    | none =>
      let mine := fun (t : Attempt) => decide (t.line = l) && t.backoff && decide (nackMast t.who = some m)
      ({ s with tries := s.tries.map fun t => if mine t then { t with backoff := false } else t }.vecAdvance m).halGo m

/-! ## Invalidations and forwards -/

/-- INV. -/
def State.invMsg (s : State) (m : MastId) (l : Line) : State :=
  match s.takeMsg fun x => decide (x = .inv m l) with
  | some (_, t) => t.cacheInv m l
  | none => s

/-- What an owner becomes on FwdS: M and O go to O, E to S (12 Table 12-4). -/
def afterFwdS (st : CacheSt) : Option CacheSt := if st = .e then some .s else some .o
/-- What an owner becomes on FwdM. -/
def afterFwdM (_ : CacheSt) : Option CacheSt := none
/-- What an owner becomes on FwdR. -/
def afterFwdR (st : CacheSt) : Option CacheSt := some st

/-- FWDS, FWDM and FWDR. -/
def State.fwdMsg (s : State) (m : MastId) (l : Line) (x : Msg) (after : CacheSt → Option CacheSt) : State :=
  match s.takeMsg fun y => decide (y = x) with
  | some (_, t) => t.cacheFwd m l after
  | none => s

/-- INVACK: an answer to an Inv arrives at the home. -/
def State.invAckMsg (s : State) (m : MastId) (l : Line) : State :=
  match s.takeMsg fun x => decide (x = .invAck m l) with
  | some (_, t) =>
    (match t.home l with
     | some h => (match h.busy with
       | some b => if b.invs.contains m then t.settle h { b with invs := b.invs.erase m } else t
       | none => t)
     | none => t)
  | none => s

/-- Whether a request leaves the owner's copy in place. -/
def HomeReq.sharing : HomeReq → Bool
  | .getS _ _ | .rdu _ _ _ => true
  | _ => false

/-- FWDDATA: an owner's data arrive at the home. After FwdM, or from a line that is being evicted, the home has the only copy (12 R325). -/
def State.fwdDataMsg (s : State) (m : MastId) (l : Line) : State :=
  let mine := fun (x : Msg) => match x with | .fwdData a b _ _ _ => decide (a = m ∧ b = l) | _ => false
  match s.takeMsg mine with
  | some (.fwdData _ _ d dirty evict, t) =>
    (match t.home l with
     | some h => (match h.busy with
       | some b =>
         if b.fwd = some m then
           t.settle { h with data := d, dirty := h.dirty || (dirty && (evict || !b.req.sharing)) }
             { b with fwd := none, gotDirty := dirty, gotEvict := evict }
         else t
       | none => t)
     | none => t)
  | _ => s

/-- CMP: the requester has its grant; the line is no longer busy, and a Put held at it is stale (12 R321). -/
def State.cmpMsg (s : State) (m : MastId) (l : Line) : State :=
  match s.takeMsg fun x => decide (x = .cmp m l) with
  | some (_, t) =>
    (match t.home l with
     | some h => (match h.busy with
       | some b =>
         if b.needCmp = some m then
           (b.heldPuts.foldl (fun t p => t.send (.putAck p l)) t).putHome { h with busy := none }
         else t
       | none => t)
     | none => t)
  | none => s

/-! ## Flushes -/

/-- No directory entry names a mast as a sharer, whose cache holds no S line (12 R334; log entry 108). -/
def State.unshare (s : State) (m : MastId) : State :=
  { s with homes := s.homes.map fun h =>
      let v := h.sharers &&& ~~~sharerBit m
      { h with sharers := v, dir := if h.dir = .s ∧ v = 0 ∧ h.busy.isNone then .i else h.dir } }

/-- DC_CTL.FLUSH: every M, O and E line is put, and every line leaves (12 Table 12-10, R334). -/
def State.dcFlush (s : State) (m : MastId) : State :=
  if !(s.mast m).core.halted then s
  else
    let c := (s.mast m).dc
    let s := s.modDc m fun c => { c with lines := [], victims := [] }
    let s := ((c.lines ++ c.victims).foldl (fun t x => t.leave m x) s).unshare m
    s.modDc m fun c => { c with flushing := c.flushing || !c.wb.isEmpty }

/-- SC_CTL.FLUSH: every line that is dirty at the home goes to its stack, and stays, clean (12 R333). -/
def State.scFlush (s : State) (d : DieId) (k : Fin 64) : State :=
  if (s.die d).scFlush.getLsbD k.val then s
  else
    let mine := fun (h : HomeLine) => h.dirty && decide (homeOf (lineAddr h.addr) = (d, k))
    let s := s.modDie d fun x => { x with scFlush := x.scFlush ||| BitVec.ofNat 64 (2 ^ k.val) }
    let s := (s.homes.filter mine).foldl (fun t h => t.hbmWrite h.addr h.data h.poison) s
    { s with homes := s.homes.map fun h => if mine h then { h with dirty := false } else h }

/-- SC_FLUSH_DONE: the last write of a flush is acknowledged. -/
def State.scFlushDone (s : State) (d : DieId) (k : Fin 64) : State :=
  s.modDie d fun x => { x with scFlush := x.scFlush &&& ~~~ BitVec.ofNat 64 (2 ^ k.val) }

/-! ## HBM and canvas -/

/-- HBM_WRITE_TURN: a pseudo-channel writes up to eight lines of its queue (11 R285). -/
def State.hbmTurn (s : State) (k : Fin 8) (pc : Fin 32) : State := s.hbmDrain k pc.val

/-- HBM_REFRESH: the refresh of a bank begins, and ends that of the bank before it (11 R286). -/
def State.hbmRefresh (s : State) (k : Fin 8) (pc : Fin 32) (bank : BitVec 8) : State :=
  { s with hbmRef := Sparse.set s.hbmRef (32 * k.val + pc.val) bank }

/-- Line `n` of a stack, in address order (01 R15). -/
def stackLine (k : Fin 8) (n : Nat) : Line :=
  lineOf ((if k.val < 4 then 0 else 0x1800000000) + (n / 32 * 4 + k.val % 4) * 4096 + 128 * (n % 32))

/-- The lines of a stack (11 R290). -/
def stackLines : Nat := 201326592

/-- HBM_SCRUB_READ: the next line of a stack is read; a corrected line is written back; an uncorrectable one is logged and told to both
hosts (11 R290). A line that waits in the write queue is served from it (11 R285). -/
def State.hbmScrub (s : State) (k : Fin 8) (ecc : Ecc) : State :=
  let h := (s.die (Fin.ofNat 2 (k.val / 4))).hbm.get (Fin.ofNat 4 k.val)
  if !h.scrub then s
  else
    let l := stackLine k h.pos
    let s := (s.modHbm k fun h => { h with pos := if h.pos + 1 < stackLines then h.pos + 1 else 0 }).hbmRead l true
    let here := fun (c : Cell) => decide (c = Cell.hbm l)
    if s.hbmWq.contains l then s
    else if s.bad here then s.moduleEvent .hbmError (lineAddr l)
    else
      let s := if ecc = .corrected then s.hbmSat l 0x10 0 1 else s
      if ecc = .uncorrectable then (s.hbmBad l true).moduleEvent .hbmError (lineAddr l)
      else if ecc = .corrected ∨ 0 < s.flaws .corr here then s.hbmWrite l (ramLine s.ram l) (s.ramPoison l)
      else s

/-- CANVAS_SCRUB: an idle tier port reads its next line (11 R276). The first word of a bad line is the uncorrectable one (log entry 28). -/
def State.canvasScrub (s : State) (m : MastId) (t : Fin 4) (ecc : Ecc) : State :=
  let c := (s.mast m).canv
  if !c.scrub then s
  else
    let n := (c.pos.get t).toNat
    let a := sliceBase m + 0x1000000 * t.val + 128 * n
    let s := s.modMast m fun x =>
      { x with canv := { x.canv with pos := x.canv.pos.set t.val (BitVec.ofNat 17 (n + 1)) t.isLt } }
    let s := s.canvasRead a 128
    let bad := s.bad (wordsAt a 128)
    let s : State := match ecc with
      | .clean => s
      | .corrected => s.canvasCe (a / 8)
      | .uncorrectable => s.canvasUe (a / 8)
    -- a corrected line is written back
    let s := { s with upsets := s.upsets.filter fun u => !(wordsAt a 128 u.cell && decide (u.flaw = .corr)) }
    if (bad || decide (ecc = .uncorrectable)) && (s.mast m).jvalid then s.jobFault m 0 1 else s

end Sys2Proof.Machine
end

