-- ==== Sys2Proof/Machine/Links.lean ====
section
/-!
DEFINITION. Shroud ports, their training, lost links, notices and fences (15 R381-R398), and the fault messages of masts (18 R469).
-/

namespace Sys2Proof.Machine

/-- Whether a port leads to the next higher coordinate (15 Table 15-1). -/
def portPlus (p : PortId) : Bool := decide (p.val % 2 = 0)

/-- The node that a port must lead to (15 R383). -/
def State.wantedPeer (s : State) (p : PortId) : BitVec 14 :=
  let d := portDim p
  let n := s.shrCfg.size d
  let c := coord s.nodeId d
  let c' := if portPlus p then (c + 1) % n else (c + n - 1) % n
  let w := match d with | 0 => 1 | 1 => 16 | 2 => 256 | _ => 2048
  BitVec.ofNat 14 (s.nodeId.toNat - c * w + c' * w)

/-- Count in a 16-bit field of SHR_PERR: 0 CORR, 16 UNCORR, 32 REPLAY, 48 RETRAIN. -/
def State.perr (s : State) (p : PortId) (lo : Nat) : State :=
  s.modSnap fun x => { x with cnt := Tab.satField x.cnt (0x10118 + 0x40 * p.val) lo 16 }

/-- SHROUD_FORWARD: a message for another module enters at a port that is up and leaves in the same plane, in its first dimension that
still differs; within a dimension it goes on the way it came, it turns into the direction that its job's block gives, and a dimension that it has left it does not
enter again (15 R391). It has its place in the receive
buffer of the port it came by until it has left (15 R388), and brings credits of that port's peer (15 R390). -/
def State.forward (s : State) (pin pout : PortId) (msg : LinkMsg) : State :=
  let dim := (List.range 4).find? fun d => coord s.nodeId d ≠ coord msg.dst d
  let turn := portDim pin < portDim pout ∧ pout = exitPort s.shrCfg (s.replyBlock msg.jobid) s.nodeId msg.dst (pin.val / 8)
  if (s.sport pin).up ∧ s.portUsed pin ∧ dim = some (portDim pout) ∧ pin.val / 8 = pout.val / 8 ∧ (turn ∨ pout.val = Nat.xor pin.val 1) then
    match (s.sport pin).rx.take msg.cls msg.flits with
    | none => s
    | some (rx, own, shared) =>
      (((s.modSnap fun x => { x with cnt := Tab.add x.cnt (0x10128 + 0x40 * pin.val) msg.flits }).modSport pin fun x =>
        { x with rx := rx }).sendOn pout msg.cls (some (pin, own, shared)) (.forward msg)).pump pin
  else s

/-- A port begins to train: from its last training, or fully. -/
def SPort.train (x : SPort) (full : Bool) : SPort :=
  { x with up := false, ver := 0, downv2 := false, training := true, trainFull := full }

/-- A port that was up goes down and its link-loss window runs (15 R395). -/
def SPort.down (x : SPort) : SPort := { x with up := false, ver := 0, window := x.window || x.up }

/-- LANE_LOCK_LOSS: a port that is up goes down and retrains. -/
def State.lockLoss (s : State) (p : PortId) : State :=
  if (s.sport p).up then (s.modSport p fun x => if x.en then x.down.train false else x.down).perr p 48 else s

/-- REPLAY_REQUEST (15 R384): a flit that this module dropped is counted, and a replay asked for in link control; or the port sends again what its peer has not
received, which it has kept, and counts a replay; after more than 32 within 250 ao it goes down and retrains (R395). -/
def State.replay (s : State) (r : ReplayReq) : State :=
  let p := r.port
  if !(s.sport p).up then s
  else
    let s := s.modSnap fun x => { x with cnt := Tab.satAdd x.cnt (0x10118 + 0x40 * p.val) 0 16 r.corrected }
    if r.here then (if r.uncorr then s.perr p 16 else s).sendOn p 0 none .replay
    else
      let again := (s.sport p).kept.drop ((s.sport p).kept.length - r.lost)
      let s := (s.modSnap fun x => { x with cnt := Tab.add x.cnt (0x10120 + 0x40 * p.val) ((again.map OutMsg.flits).sum) }).modSport p fun x => { x with kept := again }
      let s := s.perr p 32
      if r.burst then s.lockLoss p else s

/-- A port comes up, and what waited for it leaves (15 R395). A full training initialises its credits; a retrain leaves them (15 R385, R388). -/
def State.portUp (s : State) (p : PortId) (ver : BitVec 2) (r : TrainResult) : State :=
  let s := s.modSport p fun x =>
    { x with up := true, training := false, window := false, ver := ver, peerVer := ver, peerKnown := true, linkNode := r.peerNode, linkPort := r.peerPort
             lat := r.lat, rtt := BitVec.ofNat 12 r.rtt, tx := if x.trainFull then Credits.full else x.tx }
  let pair := fun (q : BitVec 14 × BitVec 14) => decide (q = (s.nodeId, r.peerNode) ∨ q = (r.peerNode, s.nodeId))
  { s with seenLost := s.seenLost.filter fun q => !pair q }.pump p

/-- TRAINING_COMPLETE: the port comes up, or stays down: with a peer it must not have, with another peer or version than before a retrain, or
with version 2 while two planes are in use (15 R383-R389). A round trip above 2,048 cc then fails the last step, which starts again. -/
def State.trained (s : State) (p : PortId) (r : TrainResult) : State :=
  let x := s.sport p
  if !x.training ∨ !s.portUsed p then s
  else
    let ver : BitVec 2 := if !x.v2only && r.peerV3 then 3 else 2
    let wrong := decide (r.peerNode ≠ s.wantedPeer p) || decide (r.peerPort.toNat ≠ Nat.xor p.val 1)
    let other := !x.trainFull && x.peerKnown &&
      (decide (x.linkNode ≠ r.peerNode) || decide (x.linkPort ≠ r.peerPort) || decide (x.peerVer ≠ ver))
    let s := s.modSport p fun x => { x with peerNode := r.peerNode, peerPort := r.peerPort }
    if wrong || other then s.modSport p fun x => { x with training := false, miscable := true }
    else if ver = 2 ∧ !s.shrCfg.planes then s.modSport p fun x => { x with training := false, downv2 := true }
    else if 2048 < r.rtt then s
    else s.portUp p ver r

/-- PLUG_DETECT: PLUGGED follows the contact; a cable that comes starts training, one that goes takes the port down (17 R449). While the compute domain is off,
PLUGGED alone follows it. -/
def State.plug (s : State) (p : PortId) (present : Bool) : State :=
  s.modSport p fun x =>
    if present then
      (if x.plugged then x
       else if x.en && s.portUsed p && s.pow.compOn then { x.train true with plugged := true, stuck := false }
       else { x with plugged := true, stuck := false })
    else { x.down with plugged := false, training := false }

/-- Fence every job whose block holds both ends of a lost link, as a fault of kind 9 (15 R396). -/
def State.cutJobs (s : State) (n1 n2 : BitVec 14) (reason : Nat) : State :=
  s.eachJob fun j t =>
    let x := t.job j
    if x.valid && inBlock t.shrCfg x.jblk n1 && inBlock t.shrCfg x.jblk n2 then (t.moduleFault j 9).fenceJob j reason else t

/-- Send a link-lost notice over every port that is up, but one. -/
def State.flood (s : State) (but : PortId) (n1 n2 : BitVec 14) : State :=
  (fins 16).foldl (fun t q => if q ≠ but ∧ (t.sport q).up ∧ t.portUsed q then t.sendOn q 0 none (.linkLost n1 n2) else t) s

/-- LINK_LOSS_WINDOW_EXPIRY: a port still down at the end of its window is lost (15 R395, R396). -/
def State.windowOver (s : State) (p : PortId) : State :=
  let x := s.sport p
  if !x.window ∨ x.up then s
  else
    let s := s.modSport p fun x => { x with window := false, lost := true, stuck := true, training := false }
    let s := ({ s with seenLost := s.seenLost ++ [(s.nodeId, x.linkNode)] }.flood p s.nodeId x.linkNode).moduleEvent .linkLost p.val
    s.cutJobs s.nodeId x.linkNode 1

/-- LINK_LOST_NOTICE: the first copy of a notice is forwarded and cuts the jobs of this module (15 R396). -/
def State.lostNotice (s : State) (p : PortId) (n1 n2 : BitVec 14) : State :=
  if !(s.sport p).up ∨ s.seenLost.contains (n1, n2) ∨ s.seenLost.contains (n2, n1) then s
  else ({ s with seenLost := s.seenLost ++ [(n1, n2)] }.flood p n1 n2).cutJobs n1 n2 2

/-- FENCE_NOTICE: the job of a JOBID is fenced; a notice that comes from a fault records kind 10 (15 R397, 18 R469). -/
def State.fenceNotice (s : State) (jobid : BitVec 16) (fromFault : Bool) : State :=
  s.eachJob fun j t =>
    let x := t.job j
    if x.valid && x.jobid == jobid then (if fromFault then t.moduleFault j 10 else t).fenceJob j 3 else t

/-- SHR_PCTL.RETRAIN: from LOST, a full training (15 Table 15-7). -/
def State.retrain (s : State) (p : PortId) : State :=
  let x := s.sport p
  if !x.en ∨ !s.portUsed p then s
  else if x.stuck then s.modSport p fun x => { x.train true with stuck := false }
  else (s.modSport p fun x => x.down.train false).perr p 48

/-- JOB_FAULT_MESSAGE: the oldest fault message of a mast reaches the per-module block: recorded, and the job fenced (18 R469). -/
def State.faultMessage (s : State) (m : MastId) : State :=
  match takeFirst (fun f => decide (f.m = m)) s.flts with
  | none => s
  | some (f, rest) =>
    let s := { s with flts := rest }
    let j := (s.mast m).jslot
    if (s.mast m).jvalid && (s.job j).valid then (s.recordFault j m.val f.e.toNat f.kind.toNat).fenceWrite j true else s

end Sys2Proof.Machine
end

