-- ==== Sys2Proof/Machine/Chans.lean ====
section
/-!
DEFINITION. The reduction channels (15 R399-R407): the descriptor, the tree, and the events of a run.
-/

namespace Sys2Proof.Machine

/-! ## Fields of a channel descriptor (15 Table 15-4) -/

/-- MODE, OP, EF, OVM, FTZ, DONE_EN, NELEM. -/
def cdMode (d : Desc) : Nat := dfld d 0 0 2
def cdOp (d : Desc) : Nat := dfld d 0 2 2
def cdEf (d : Desc) : Nat := dfld d 0 4 4
def cdOvm (d : Desc) : Bool := dbit d 0 8
def cdFtz (d : Desc) : Bool := dbit d 0 9
def cdDoneEn (d : Desc) : Bool := dbit d 0 13
def cdNelem (d : Desc) : Nat := dfld d 1 0 24
/-- SOFF, DOFF, STOFF. -/
def cdSoff (d : Desc) : Nat := dfld d 2 0 26
def cdDoff (d : Desc) : Nat := dfld d 2 32 26
def cdStoff (d : Desc) : Nat := dfld d 3 0 26
/-- The contributing masts, in increasing number. -/
def cdMasts (d : Desc) : List MastId := (fins 128).filter fun m => (d.toNat / 2 ^ 256).testBit m.val
/-- DONE with its MAST field replaced by a mast's number (15 Table 15-4). -/
def cdDone (d : Desc) (m : MastId) : BitVec 32 :=
  let a := dfld d 1 32 32
  BitVec.ofNat 32 (a - fld a 9 7 * 2 ^ 9 + m.val * 2 ^ 9)

/-- The element format. -/
def cdFmt (d : Desc) : NFmt := sheetFmt (cdEf d)
/-- The combine format (15 R402). -/
def cdCf (d : Desc) : NFmt :=
  match cdFmt d with
  | .flt f => .flt (if f = fp64 then fp64 else fp32)
  | .int w sg => .int (if w = 64 then 64 else 32) sg
/-- The elements of a whole segment: 32 KiB of the combine format. -/
def cdSegElems (d : Desc) : Nat := 262144 / (cdCf d).width
/-- The number of segments. -/
def cdSegs (d : Desc) : Nat := cdiv (cdNelem d) (cdSegElems d)
/-- The elements of segment `k`. -/
def cdSegLen (d : Desc) (k : Nat) : Nat := min (cdSegElems d) (cdNelem d - k * cdSegElems d)
/-- The bytes of a buffer. -/
def cdBytes (d : Desc) : Nat := rowBytes (cdFmt d).width (cdNelem d)

/-- Whether a range of a slice lies in one tier. -/
def oneTierRange (off n : Nat) : Bool := decide (off / 0x1000000 = (off + n - 1) / 0x1000000) && decide (off + n ≤ 0x4000000)

/-- Whether a descriptor breaks 15 R399 or, in a mixed job, Table 15-3. -/
def State.chanBad (s : State) (d : Desc) : Bool :=
  decide (cdMode d = 3) || (decide (cdMode d ≠ 2) && decide (cdOp d = 3)) || decide (cdEf d = 8 ∨ cdEf d = 9) ||
  decide (dfld d 0 14 50 ≠ 0) || decide (cdNelem d = 0) || decide (dfld d 1 24 8 ≠ 0) || decide (dfld d 2 26 6 ≠ 0) ||
  decide (dfld d 2 58 6 ≠ 0) || decide (dfld d 3 26 38 ≠ 0) || decide (dword d 6 ≠ 0) || decide (dword d 7 ≠ 0) ||
  decide (cdStoff d % 128 ≠ 0) || !oneTierRange (cdSoff d) (cdBytes d) || !oneTierRange (cdDoff d) (cdBytes d) ||
  !oneTierRange (cdStoff d) 0x20000 ||
  (s.jobMixed (Fin.ofNat 8 (dfld d 0 10 3)) && !decide (cdEf d = 1 ∨ cdEf d = 2 ∨ cdEf d = 12))

/-- The fields that every member gives alike. -/
def chanKey (d : Desc) : ChanKey :=
  { mode := BitVec.ofNat 2 (cdMode d), op := BitVec.ofNat 2 (cdOp d), ef := BitVec.ofNat 4 (cdEf d)
    nelem := BitVec.ofNat 24 (cdNelem d), p := (cdMasts d).length }

/-! ## Ranks (15 R400) -/

/-- The module rank of this module for a channel. -/
def State.chanRank (s : State) (c : ChanId) : Nat := blkRank s.shrCfg (s.job (s.chan c).jslot).jblk s.nodeId
/-- N: the ranks of a run. -/
def State.chanN (s : State) (c : ChanId) : Nat :=
  blkMembers (s.job (s.chan c).jslot).jblk * (cdMasts (s.chan c).desc).length
/-- The levels of the tree. -/
def State.chanLevels (s : State) (c : ChanId) : Nat := clog2 (s.chanN c)

/-! ## Faults and starts (15 R401, R407) -/

/-- A channel faults: 1 DESC, 2 MISMATCH, 3 ECC, 4 TOKEN; the job faults and is fenced. -/
def State.chanFault (s : State) (c : ChanId) (kind : Nat) : State :=
  let j := (s.chan c).jslot
  let s := s.modChan c fun x => { x with st := 2, fault := BitVec.ofNat 3 kind, ranks := [], staged := [], early := [] }
  if (s.job j).valid then (s.recordFault j 0 6 8).fenceWrite j true else s

/-- Where rank `g` stands on the way up from level `l`: it sends, combines, or, as rank 0, writes (15 R402). -/
def upFrom (n g : Nat) : Nat → Nat → RankPhase × Nat
  | 0, l => (.write, l)
  | fuel + 1, l =>
    if n ≤ 2 ^ l then (.write, l)
    else if g % 2 ^ (l + 1) ≠ 0 then (.sendUp, l)
    else if g + 2 ^ l < n then (.up, l)
    else upFrom n g fuel (l + 1)

/-- The next level below `l` at which rank `g` sends down, if there is one. -/
def downFrom (n g : Nat) : Nat → Option Nat
  | 0 => none
  | l + 1 => if g + 2 ^ l < n then some l else downFrom n g l

/-- The levels below which rank `g` sends down: every one for rank 0, else its trailing zeros. -/
def downTop (levels g : Nat) : Nat := if g = 0 then levels else ctz 32 g

/-- A rank at the start of a segment. -/
def Rank.begin (r : Rank) (mode seg : Nat) : Rank :=
  { r with seg := seg, lvl := 0, val := [], phase := if mode = 2 then (if r.g = 0 then .write else .waitDown) else .load }

/-- A rank after its part in a segment: the next segment, or the end. -/
def Rank.next (r : Rank) (d : Desc) : Rank :=
  if r.seg + 1 < cdSegs d then r.begin (cdMode d) (r.seg + 1) else { r with phase := .done, val := [] }

/-- A rank that has written its result goes on to send it down, or to its next segment. -/
def Rank.goDown (r : Rank) (d : Desc) (n l : Nat) : Rank :=
  if cdMode d = 1 then r.next d
  else match downFrom n r.g l with
    | some k => { r with phase := .sendDown, lvl := k }
    | none => r.next d

/-- The places of a contributor's staging area that are free. -/
def Chan.places (x : Chan) (dst : Nat) : List (Fin 4) := (fins 4).filter fun k => !x.staged.any fun q => decide (q.dst = dst ∧ q.place = k)

/-- Whether a contributor has a free place beyond those for its segments that came before their run. -/
def Chan.room (x : Chan) (dst : Nat) : Bool := decide ((x.early.filter fun e => decide (e.dst = dst)).length < (x.places dst).length)

/-- The local address of a place of a mast's staging area. -/
def State.stageAddr (s : State) (c : ChanId) (m : MastId) (k : Fin 4) : Nat := sliceAddr m (cdStoff (s.chan c).desc + 0x8000 * k.val)

/-- A segment is written into a free place of a contributor's staging area, whichever (log entry 124). Gives whether there is one. -/
def State.stage (s : State) (c : ChanId) (dst src seg : Nat) (data : List Byte) : State × Bool :=
  let x := s.chan c
  match x.ranks.find? fun r => decide (r.g = dst) with
  | none => (s, false)
  | some r =>
    let ks := x.places dst
    if !x.room dst then (s, false)
    else
      let k := ks.getD (Config.stagePlace s.frees % ks.length) 0
      let t := { s with frees := s.frees + 1 }.canvasWrite (s.stageAddr c r.m k) data
      (t.modChan c fun x => { x with staged := x.staged ++ [{ dst := dst, src := src, seg := seg, place := k, len := data.length }] }, true)

/-- A mast reads a staged segment, whose place is then free; an uncorrectable word is a fault of the channel (15 R407). -/
def State.unstage (s : State) (c : ChanId) (m : MastId) (q : Staged) (rest : List Staged) : State × Option (List Byte) :=
  let a := s.stageAddr c m q.place
  let t := (s.canvasRead a q.len).modChan c fun x => { x with staged := rest }
  if s.badWords a q.len then (t.chanFault c 3, none) else (t, some (Mem.bytes s.ram a q.len))

/-- A run in mode `mode` starts once the slot holds P tokens and no run is under way; a bad descriptor or DONE faults (15 R401, R407). -/
def State.chanRun (s : State) (c : ChanId) (mode : Nat) : State :=
  let x := s.chan c
  let d := x.desc
  let ms := cdMasts d
  let jb := s.job x.jslot
  if x.st ≠ 0 ∨ (cdMode d ≠ mode ∧ cdMode d ≠ 3) ∨ ms.isEmpty ∨ x.count.toNat < ms.length ∨ !jb.valid ∨ jb.fenced then s
  else if s.chanBad d then s.chanFault c 1
  else if cdDoneEn d && ms.any (fun m => badToken (cdDone d m)) then s.chanFault c 4
  else
    let run := x.run + 1
    let here := x.early.filter fun e => decide (e.run = run)
    if here.any fun e => decide (e.key ≠ chanKey d) then s.chanFault c 2
    else
      let base := s.chanRank c * ms.length
      let ranks := ms.zipIdx.map fun q =>
        ({ m := q.1, g := base + q.2, seg := 0, lvl := 0, phase := .load, val := [] } : Rank).begin (cdMode d) 0
      let s := s.modChan c fun x =>
        { x with st := 1, run := run, count := x.count - BitVec.ofNat 8 ms.length, ranks := ranks, staged := []
                 early := x.early.filter fun e => decide (e.run ≠ run) }
      here.foldl (fun t e => (t.stage c e.dst e.src e.seg e.data).1) s

/-! ## Segments -/

/-- Change the rank of a mast. -/
def State.modRank (s : State) (c : ChanId) (m : MastId) (f : Rank → Rank) : State :=
  s.modChan c fun x => { x with ranks := updFirst (fun r => decide (r.m = m)) f x.ranks }

/-- CHANNEL_SEGMENT: a segment of another member arrives: refused unless it is of the channel's job; kept for the run it is of; a
mismatch otherwise (15 R401, R402, R407). None arrives for which there is no free place: its sender holds it. -/
def State.segArrives (s : State) (c : ChanId) (e : SegMsg) : State :=
  let t := s.flitsIn e.plane e.node e.jobid (max 1 (cdiv e.data.length 256))
  let x := s.chan c
  if !s.accepts e.node e.jobid ∨ e.jobid ≠ (s.job x.jslot).jobid then t.refuse e.plane 1 e.node e.jobid
  else if x.st = 2 then t
  else if x.st = 1 ∧ e.run = x.run then
    (if e.key ≠ chanKey x.desc then t.chanFault c 2
     else let q := t.stage c e.dst e.src e.seg e.data; if q.2 then q.1 else s)
  else if e.run = x.run + 1 then (if x.room e.dst then t.modChan c fun x => { x with early := x.early ++ [e] } else s)
  else t.chanFault c 2

/-- A segment leaves for a rank once that has a free place in its staging area: on this module, or in another one, whose free places are a free value (log
entry 124). Gives whether it left. -/
def State.sendSeg (s : State) (c : ChanId) (src dst seg : Nat) (data : List Byte) : State × Bool :=
  let x := s.chan c
  let d := x.desc
  let p := (cdMasts d).length
  if dst / p = s.chanRank c then
    s.stage c dst src seg data
  else if !Config.placeFree s.frees then ({ s with frees := s.frees + 1 }, false)
  else
    let s := { s with frees := s.frees + 1 }
    let jb := s.job x.jslot
    let node := blkNode s.shrCfg jb.jblk (dst / p)
    let m : MastId := match x.ranks.find? fun r => decide (r.g = src) with | some r => r.m | none => 0
    let e : SegMsg := { plane := dieOf m, run := x.run, key := chanKey d, node := s.nodeId, jobid := jb.jobid, src := src, dst := dst, seg := seg, data := data }
    (s.sendTo jb.jblk node e.plane.val 1 (.segment c e node), true)

/-- The bytes of values of a format. -/
def cfBytes (f : NFmt) (vs : List Nat) : List Byte := vs.flatMap fun v => toBytes (f.width / 8) v
/-- The values that bytes hold. -/
def cfVals (f : NFmt) (n : Nat) (bs : List Byte) : List Nat :=
  (List.range n).map fun i => ofBytes ((bs.drop (f.width / 8 * i)).take (f.width / 8))

/-- CHANNEL_SEGMENT_SEND: the rank of a mast sends its segment up or down the tree (15 R402). -/
def State.segSend (s : State) (c : ChanId) (m : MastId) : State :=
  let x := s.chan c
  let d := x.desc
  match x.ranks.find? fun r => decide (r.m = m) with
  | none => s
  | some r =>
    if x.st ≠ 1 then s
    else match r.phase with
    | .sendUp =>
      let q := s.sendSeg c r.g (r.g - 2 ^ r.lvl) r.seg (cfBytes (cdCf d) r.val)
      if !q.2 then q.1
      else q.1.modRank c m fun r => if cdMode d = 1 then r.next d else { r with phase := .waitDown, val := [] }
    | .sendDown =>
      let q := s.sendSeg c r.g (r.g + 2 ^ r.lvl) r.seg (r.val.map fun v => BitVec.ofNat 8 v)
      if !q.2 then q.1 else q.1.modRank c m fun r => r.goDown d (s.chanN c) r.lvl
    | _ => s

/-! ## Commands of the arithmetic pipe (15 R402-R404) -/

/-- The slice offset and the bytes of a segment of a buffer. -/
def segPlace (d : Desc) (base k : Nat) : Nat × Nat :=
  let w := (cdFmt d).width
  (base + w * (k * cdSegElems d) / 8, rowBytes w (cdSegLen d k))

/-- combine (15 R403): integers wrap; floats round once; with the flags. -/
def combine (d : Desc) (a b : Nat) : Nat × NF :=
  match cdCf d, cdOp d with
  | .flt f, 0 => f.addE (cdOvm d) (cdFtz d) a b
  | .flt f, o => f.minmax (cdFtz d) (decide (o = 1)) a b
  | .int w _, 0 => ((a + b) % 2 ^ w, {})
  | .int w sg, o =>
    let less : Bool := if sg then decide (signedOf w a < signedOf w b) else decide (a < b)
    (if less = decide (o = 1) then b else a, {})

/-- to_CF: exact, without the input flush. A format equal to CF is not converted (log entry 98). -/
def toCf (d : Desc) (n : Nat) : Nat × NF := if cdFmt d = cdCf d then (n, {}) else convert (cdFmt d) (cdCf d) (cdOvm d) false n
/-- to_EF: one conversion under 05 R149, also to a format equal to CF. -/
def toEf (d : Desc) (n : Nat) : Nat × NF := convert (cdCf d) (cdFmt d) (cdOvm d) (cdFtz d) n

/-- The sticky flags of RC_STATUS: IV, OV, UF, IX, FZ (15 Table 15-7). -/
def rcFlags (f : NF) : BitVec 5 := BitVec.ofNat 5 (b2n f.iv + 2 * b2n f.ov + 4 * b2n f.uf + 8 * b2n f.ix + 16 * b2n f.fz)
/-- Set them. -/
def State.setRcFlags (s : State) (c : ChanId) (f : NF) : State := s.modChan c fun x => { x with flags := x.flags ||| rcFlags f }

/-- The staged segment that a rank waits for. -/
def Chan.stagedFrom (x : Chan) (dst src seg : Nat) : Option (Staged × List Staged) :=
  takeFirst (fun q => decide (q.dst = dst ∧ q.src = src ∧ q.seg = seg)) x.staged

/-- A rank writes the result of a segment at DOFF, and goes on. -/
def State.segWrite (s : State) (c : ChanId) (r : Rank) (bs : List Byte) (l : Nat) : State :=
  let d := (s.chan c).desc
  let s := s.canvasWrite (sliceAddr r.m (segPlace d (cdDoff d) r.seg).1) bs
  s.modRank c r.m fun x => ({ x with val := bs.map fun (b : Byte) => b.toNat } : Rank).goDown d (s.chanN c) l

/-- CHANNEL_COMMAND: the next combine or conversion of a mast's rank (15 R402-R404). -/
def State.chanCommand (s : State) (c : ChanId) (m : MastId) : State :=
  let x := s.chan c
  let d := x.desc
  let n := s.chanN c
  match x.ranks.find? fun r => decide (r.m = m) with
  | none => s
  | some r =>
    if x.st ≠ 1 then s
    else
      let src := segPlace d (cdSoff d) r.seg
      let bad := s.badWords (sliceAddr m src.1) src.2
      let raw := Mem.bytes s.ram (sliceAddr m src.1) src.2
      let k := cdSegLen d r.seg
      match r.phase with
      | .load =>
        let s := s.canvasRead (sliceAddr m src.1) src.2
        if bad then s.chanFault c 3
        else
          let w := (cdFmt d).width
          let v := ofBytes raw
          let u := upFrom n r.g 32 0
          let vs := (List.range k).map fun i => toCf d (fld v (w * i) w)
          (s.modRank c m fun r => { r with val := vs.map (·.1), phase := u.1, lvl := u.2 }).setRcFlags c (orAll (vs.map (·.2)))
      | .up =>
        (match x.stagedFrom r.g (r.g + 2 ^ r.lvl) r.seg with
         | none => s
         | some (q, rest) =>
           let t := s.unstage c m q rest
           match t.2 with
           | none => t.1
           | some bs =>
           let os := (r.val.zip (cfVals (cdCf d) k bs)).map fun p => combine d p.1 p.2
           let u := upFrom n r.g 32 (r.lvl + 1)
           (t.1.modRank c m fun r => { r with val := os.map (·.1), phase := u.1, lvl := u.2 }).setRcFlags c (orAll (os.map (·.2))))
      | .write =>
        if cdMode d = 2 then
          (let s := s.canvasRead (sliceAddr m src.1) src.2
           if bad then s.chanFault c 3 else s.segWrite c r raw (downTop (s.chanLevels c) r.g))
        else
          let os := r.val.map fun v => toEf d v
          (s.segWrite c r (packVals (cdFmt d).width (os.map (·.1))) (downTop (s.chanLevels c) r.g)).setRcFlags c (orAll (os.map (·.2)))
      | .waitDown =>
        (match x.stagedFrom r.g (r.g - 2 ^ ctz 32 r.g) r.seg with
         | none => s
         | some (q, rest) =>
           let t := s.unstage c m q rest
           match t.2 with
           | none => t.1
           | some bs => t.1.segWrite c r bs (downTop (s.chanLevels c) r.g))
      | _ => s

/-- CHANNEL_RUN_COMPLETE: every rank of this module has done its part, and no segment of it waits for a port; the event is that every send is acknowledged; DONE is posted to each contributor (15 R405). -/
def State.chanComplete (s : State) (c : ChanId) : State :=
  let x := s.chan c
  let d := x.desc
  let mine := fun (w : Waiting) => match w.msg with | .segment k _ _ => decide (k = c) | _ => false
  if x.st ≠ 1 ∨ !x.ranks.all (fun r => decide (r.phase = .done)) ∨ (s.sports.toList.any fun p => p.waiting.any mine) then s
  else
    let s := s.modChan c fun x => { x with st := 0, ranks := [], staged := [] }
    if cdDoneEn d then (cdMasts d).foldl (fun t m => t.post (cdDone d m) (.chan c) 0) s else s

/-- RC_CTL.DISCARD: the run is abandoned, the count is 0, and runs are numbered anew (15 Table 15-7; log entry 35). -/
def State.chanDiscard (s : State) (c : ChanId) : State :=
  s.modChan c fun x => { x with st := 0, fault := 0, count := 0, run := 0, ranks := [], staged := [], early := [] }

end Sys2Proof.Machine
end

