-- ==== Sys2Proof/Machine/Service.lean ====
section
/-!
DEFINITION. The control tree with trim changes and snapshots, the governor, the input limits, and the service panel with its drain
(17 R431-R451).
-/

namespace Sys2Proof.Machine

/-- Apply an operation of the compute domain: nothing happens in it while it is off. -/
def State.on (s : State) (f : State → State) : State := if s.pow.compOn then f s else s
/-- Apply an operation of the always-on domain. -/
def State.onAo (s : State) (f : State → State) : State := if s.pow.aoOn then f s else s

/-- Apply an operation that Crowsnest serves: none in recovery but firmware update (18 R461). -/
def State.serve (s : State) (f : State → State) : State := if s.pow.aoOn && decide (s.boot.stage ≠ 6) then f s else s

/-! ## The control tree (17 R440-R444) -/

/-- Every unit that applies a trim change. -/
def trimUnits : List TrimUnit := (fins 128).flatMap fun m => [.arr m 0, .arr m 1, .vec m, .sheet m]
/-- Every unit that copies its counters. -/
def snapUnits : List SnapUnit :=
  (fins 128).map SnapUnit.router ++ (fins 128).flatMap (fun m => (fins 6).map (SnapUnit.engine m)) ++
  (fins 2).flatMap (fun d => SnapUnit.die d :: (fins 64).map (SnapUnit.slice d) ++ (fins 4).map (SnapUnit.hbm d)) ++
  (fins 16).map SnapUnit.port ++ (fins 64).map SnapUnit.chan

/-- The counting registers that a unit holds, by their offsets in the block they are in (17 R443). -/
def snapHolds (u : SnapUnit) (o : Nat) : Bool :=
  match u with
  | .router _ => false
  | .engine _ e =>
    decide (o = 0x20500 + 8 * e.val) ||
    match e.val with
    | 0 => decide (o < 0x10000)
    | 1 => within o 0x30000 0x8000
    | 2 => within o 0x50000 0x4000 || decide (o = 0x5C110)
    | 3 => within o 0x54000 0x4000 || decide (o = 0x5C118)
    | 4 => within o 0x10000 0x8000
    | _ => within o 0x18000 0x8000
  | .die _ => within o 0x100000 0x18 || within o 0x400000 0x20
  | .slice _ k => within o (0x300000 + 0x100 * k.val) 0x100
  | .hbm _ k => within o (0x200000 + 0x1000 * k.val) 0x1000
  | .port p => within o (0x10100 + 0x40 * p.val) 0x40
  | .chan c => within o (0x20000 + 0x100 * c.val) 0x100

/-- Whether a router has an input: 0 north, 1 east, 2 south, 3 west, 4 its mast, 5 the bridge or an outer port. -/
def hasInput (n : Fin 128) (i : Fin 6) : Bool :=
  let row := n.val % 64 / 8
  let col := n.val % 8
  match i.val with
  | 0 => decide (0 < row) | 1 => decide (col < 7) | 2 => decide (row < 7) | 3 => decide (0 < col) | 4 => true
  | _ => decide (col = 0 ∨ col = 7)

/-- The units whose copying sends the markers of an input: a neighbour, the engines of the router's mast, or the port of an outer row. -/
def markerFrom (n : Fin 128) (i : Fin 6) : List SnapUnit :=
  let at' := fun (k : Nat) => [SnapUnit.router (Fin.ofNat 128 k)]
  match i.val with
  | 0 => at' (n.val + 120) | 1 => at' (n.val + 1) | 2 => at' (n.val + 8) | 3 => at' (n.val + 127) | 4 => (fins 6).map (.engine n)
  | _ =>
    if n.val < 64 ∧ n.val % 8 = 7 then at' (n.val + 57)
    else if 64 ≤ n.val ∧ n.val % 8 = 0 then at' (n.val - 57) else [.port (Fin.ofNat 16 (n.val / 8))]

/-- The number of a marker: its router, its input, its class. -/
def markerNum (n : Fin 128) (i : Fin 6) (k : Fin 3) : Nat := (n.val * 6 + i.val) * 3 + k.val
/-- Every marker of a snapshot. -/
def allMarkers : List Nat :=
  (fins 128).flatMap fun n => ((fins 6).filter (hasInput n)).flatMap fun i => (fins 3).map fun k => markerNum n i k

/-- The tree is free: a trim change starts before a change of the governor, and that before a snapshot (17 Table 17-6). -/
def State.treeNext (s : State) : State :=
  if s.pow.tree ≠ .idle then s
  else if s.pow.changing then s.modPow fun p => { p with tree := .trim true trimUnits }
  else if s.pow.govWait then s.modPow fun p => { p with tree := .trim false trimUnits, govWait := false }
  else if s.pow.snapWait then
    (s.modPow fun p => { p with tree := .snap snapUnits, snapWait := false }).modSnap fun x =>
      { x with busy := true, seq := x.seq + 1, markers := allMarkers }
  else s

/-- SNAP_CTL.REQ (17 R443). -/
def State.snapReq (s : State) : State :=
  if s.snap.busy then s else (s.modPow fun p => { p with snapWait := true }).treeNext

/-- The units that the token of the snapshot has not reached. -/
def Power.snapDue (p : Power) : List SnapUnit := match p.tree with | .snap us => us | _ => []

/-- Whether two units hold their counting fields in one per-mast or per-die block, whose SNAP_TAG they share. -/
def snapWith (u v : SnapUnit) : Bool :=
  let blk := fun (w : SnapUnit) => match w with | .engine m _ => m.val + 3 | .die d | .slice d _ | .hbm d _ => d.val + 1 | _ => 0
  decide (blk u ≠ 0 ∧ blk u = blk v)

/-- The unit copies its counting fields; the last one of a block, of which `rest` says whether others are still due, sets its SNAP_TAG (log entry 119). -/
def State.copyCounts (s : State) (u : SnapUnit) (rest : Bool) : State :=
  match u with
  | .router n => s.modSnap fun x => { x with infl := Sparse.erase x.infl (n.val * 6) 6 }
  | .engine m e => s.modMast m fun x =>
    let live := if e = 5 then Sparse.set x.cnt 0x1C008 (x.canv.ce.setWidth 64) else x.cnt
    { x with shadow := Tab.copied live x.shadow (snapHolds u), snapTag := if rest then x.snapTag else s.snap.seq }
  | .die d | .slice d _ | .hbm d _ => s.modDie d fun x =>
    { x with shadow := Tab.copied x.cnt x.shadow (snapHolds u), snapTag := if rest then x.snapTag else s.snap.seq }
  | .port _ | .chan _ => s.modSnap fun x => { x with shadow := Tab.copied x.cnt x.shadow (snapHolds u) }

/-- SNAPSHOT_TOKEN: the token reaches a unit; after the last one the tree is free. -/
def State.snapToken (s : State) (u : SnapUnit) : State :=
  if s.pow.snapDue.contains u then
    let us := s.pow.snapDue.filter (· ≠ u)
    ((s.copyCounts u (us.any (snapWith u))).modPow fun p => { p with tree := if us.isEmpty then .idle else .snap us }).treeNext
  else s

/-- SNAP_MARKER: the marker of an input and class arrives, its sender having copied; it closes the count of the flits that came after the
router's own copy (17 R444). -/
def State.snapMarker (s : State) (n : Fin 128) (i : Fin 6) (k : Fin 3) (infl : BitVec 16) : State :=
  if s.snap.markers.contains (markerNum n i k) ∧ !(markerFrom n i).any s.pow.snapDue.contains then
    let v := if s.pow.snapDue.contains (.router n) then 0 else infl.toNat
    let ms := s.snap.markers.filter (· ≠ markerNum n i k)
    let a := n.val * 6 + i.val
    s.modSnap fun x =>
      { x with markers := ms, busy := !ms.isEmpty
               infl := Sparse.set x.infl a (BitVec.ofNat 64 ((Sparse.get x.infl a).toNat - wfld (Sparse.get x.infl a) (16 * k.val) 16 * 2 ^ (16 * k.val) + v * 2 ^ (16 * k.val))) }
  else s

/-- The cap of a profile (17 Table 17-3). -/
def capOf (trim : BitVec 2) : BitVec 16 := if trim = 0 then 1400 else 1800

/-- PWR_TRIM.REQ (17 R440). -/
def State.trimReq (s : State) (v : BitVec 2) : State :=
  if s.pow.changing then s else (s.modPow fun p => { p with trimReq := v, changing := true }).treeNext

/-- TRIM_APPLY: a unit applies the change at a boundary and reports. -/
def State.trimApply (s : State) (u : TrimUnit) : State :=
  s.modPow fun p => { p with tree := match p.tree with | .trim b us => .trim b (us.filter (· ≠ u)) | t => t }

/-- TRIM_CHANGE_DONE: the last report reaches the root. -/
def State.trimDone (s : State) : State :=
  match s.pow.tree with
  | .trim profile [] =>
    (s.modPow fun p =>
      if profile then { p with tree := .idle, trimCur := p.trimReq, changing := false, cap := capOf p.trimReq }
      else { p with tree := .idle }).treeNext
  | _ => s

/-! ## The governor, temperature and input limits -/

/-- The governor takes a new level, and a change goes down the tree. -/
def State.setGov (s : State) (g : BitVec 4) : State :=
  (s.modPow fun p => { p with gov := g, govWait := p.govWait || decide (g ≠ p.gov) }).treeNext

/-- Whether a window's readings lie in the limits of 17 Table 17-1. -/
def inLimits (vin iin : Nat) : Bool := decide (4600 ≤ vin ∧ vin ≤ 5800 ∧ iin ≤ 4200)

/-- GOVERNOR_WINDOW (17 R441): a window above the cap, or a module above 100 °C (R434), raises G; four windows in a row that lie below
the cap less 50 W lower it. -/
def State.govWindow (s : State) (vin iin pin : BitVec 16) : State :=
  let p0 := s.pow
  let above := decide (p0.cap.toNat < pin.toNat) || decide (100 < p0.tmax.toNat)
  let low := !above && decide (pin.toNat + 50 < p0.cap.toNat)
  let below := if low then p0.below + 1 else 0
  let s := s.modPow fun p =>
    { p with vin := vin, iin := iin, pin := pin, overcap := p.overcap || above, below := if 4 ≤ below then 0 else below
             infault := p.infault && !inLimits vin.toNat iin.toNat }
  if !s.pow.compOn then s
  else if above then s.setGov (if p0.gov.toNat < 8 then p0.gov + 1 else p0.gov)
  else if 4 ≤ below ∧ p0.gov ≠ 0 then s.setGov (p0.gov - 1)
  else s

/-- Commands that the ports have started complete with JOB_FENCED (17 R447 step 2). -/
def State.drainCmds (s : State) : State :=
  s.modHosts fun h => { h with cmds := h.cmds.map fun c => { c with status := some (c.status.getD 8), started := true } }

/-- The busy drain of a thermal trip ends (17 R434). -/
def State.hotEnd (s : State) : State :=
  if s.pow.hotDrain ∧ s.svc.drained ∧ 4 ≤ s.pow.cool then s.modPow fun p => { p with hotDrain := false } else s

/-- THERMAL_READING (17 R434). -/
def State.thermal (s : State) (t : BitVec 8) : State :=
  let s := s.modPow fun p =>
    { p with tmax := t, thermal := p.thermal || decide (100 < t.toNat), cool := if t.toNat < 100 then p.cool + 1 else 0 }
  if 110 < t.toNat ∧ s.pow.compOn ∧ !s.pow.hotDrain then
    let s := (s.faultAllJobs 13).drainCmds
    ((s.modPow fun p => { p with hotDrain := true }).modSvc fun v => { v with drained := false }).raiseBusyBoth
  else s.hotEnd

/-- The compute domain goes off with a fault of every job (17 Table 17-1). -/
def State.compOff (s : State) : State :=
  ((s.faultAllJobs 13).modPow fun p => { p with compOn := false, infault := true, tree := .idle, changing := false, govWait := false, snapWait := false }).computeReset

/-- VIN_LOW, VIN_HIGH and IIN_HIGH: the compute domain goes off. -/
def State.inputFault (s : State) : State := if s.pow.compOn then s.compOff else s.modPow fun p => { p with infault := true }

/-- IIN_TRIP: the input switch opens. -/
def State.iinTrip (s : State) : State := s.inputFault.modPow fun p => { p with inSwitch := false }

/-- STANDBY_LOSS: the always-on domain goes off as well. The flash and the fuses keep what they hold. -/
def State.standbyLoss (s : State) : State :=
  let s := (s.computeReset.aoRegsReset).modPow fun p => { p with aoOn := false, compOn := false, inSwitch := false, noStart := false }
  s.modBoot fun b =>
    { b with stage := 0, cnBank := false, fallback := false, resets := 0, runCn := ImgFacts.none, runMast := ImgFacts.none, reqNonce := [] }

/-- PRECHARGE_DONE (17 R432): the main switch closes, and a start-up that waited for it goes on (18 Table 18-1 step 3). -/
def State.precharged (s : State) : State :=
  if s.pow.inSwitch || s.pow.noStart then s
  else
    let s := s.modPow fun p => { p with inSwitch := true }
    if s.boot.stage = 1 then s.railsUp else s

/-- PRECHARGE_TIMEOUT (17 R432): the module does not start; its main switch stays open. -/
def State.prechargeFails (s : State) : State := if s.pow.inSwitch then s else s.modPow fun p => { p with noStart := true }

/-! ## The panel (17 R446-R450) -/

/-- The drain begins (17 R447 steps 1 and 2). -/
def State.beginDrain (s : State) : State := (s.eachJob fun j t => t.fenceWrite j false).drainCmds

/-- A strike begins. -/
def State.beginStrike (s : State) : State :=
  let s := s.moduleEvent .strike 0
  let s := (s.modSvc fun v => { v with strike := .draining, forced := false, drained := false }).raiseBusyBoth
  s.beginDrain

/-- SVC_CTL.STRIKE. -/
def State.svcStrike (s : State) : State := if s.svc.strike = .idle then s.beginStrike else s

/-- SVC_CTL.UNSTRIKE: the Shroud ports retrain. -/
def State.svcUnstrike (s : State) : State :=
  if s.svc.strike = .clear then
    let s := s.modSvc fun v => { v with strike := .idle }
    (fins 16).foldl (fun t p => if (t.sport p).plugged then t.retrain p else t) s
  else s

/-- STRIKE_BUTTON_PRESS: the button is held for 1 s. -/
def State.buttonPress (s : State) : State :=
  match s.svc.strike with
  | .idle => s.beginStrike
  | .clear => s.svcUnstrike
  | .draining => s

/-- A firmware update is abandoned (18 R464): RESULT is 6, and the inactive bank no longer counts. -/
def State.fwAbandon (s : State) : State :=
  if s.boot.fwBusy then s.modBoot fun b => { b with fwBusy := false, fwResult := 6, inactiveBad := true } else s

/-- A strike is forced (17 Table 17-4): the notices have been sent, the rest of the drain and an update are abandoned. -/
def State.force (s : State) : State := s.fwAbandon.modSvc fun v => { v with strike := .clear, forced := true }

/-- FORCED_STRIKE: the button is held for 8 s. -/
def State.forcedStrike (s : State) : State := if s.svc.strike = .draining then s.force else s

/-- DRAIN_TIMEOUT: the drain is not complete 1 s after it started. -/
def State.drainTimeout (s : State) : State := if s.svc.strike = .draining ∧ !s.svc.drained then s.force else s

/-- A drained module is clear to remove unless a firmware update is in progress (17 Table 17-4, R451). -/
def State.strikeEnd (s : State) : State :=
  if s.svc.strike = .draining ∧ s.svc.drained ∧ !s.boot.fwBusy then s.modSvc fun v => { v with strike := .clear } else s

/-- Every Shroud port is taken down (17 R447 step 4). -/
def State.portsDown (s : State) : State :=
  { s with sports := s.sports.map fun p => { p with up := false, ver := 0, training := false, window := false } }

/-- DRAIN_COMPLETE: every started command has completed (17 R447 step 3); a strike's drain takes the ports down, and every mast furls. -/
def State.drainComplete (s : State) : State :=
  if !s.hosts.cmds.isEmpty ∨ s.svc.drained ∨ (s.svc.strike ≠ .draining ∧ !s.pow.hotDrain) then s
  else
    let s := s.modSvc fun v => { v with drained := true }
    let s := if s.svc.strike = .draining then s.portsDown else s
    ((s.eachMast fun m t => t.furl m).strikeEnd).hotEnd

/-- LEVER_OPEN: in IDLE and DRAINING a forced strike, and a fault of every job (17 R446, R447). -/
def State.leverOpen (s : State) : State :=
  let s := s.modSvc fun v => { v with lever := true }
  if s.boot.stage = 6 then s
  else
  let s := s.moduleEvent .lever 1
  if s.svc.strike = .clear then s else ((s.faultAllJobs 12).force).raiseBusyBoth

/-- LEVER_CLOSE. In DRAINING the lever is not named, and no event is posted. -/
def State.leverClose (s : State) : State :=
  let s := s.modSvc fun v => { v with lever := false }
  if s.svc.strike = .draining ∨ s.boot.stage = 6 then s else s.moduleEvent .lever 0

/-- The locate pattern starts or stops. -/
def State.setLocate (s : State) (v : Bool) : State := s.modSvc fun x => { x with locate := v }

/-- LOCATE_TOUCH (17 R448). -/
def State.locateTouch (s : State) : State :=
  if s.svc.locate then s.setLocate false else (s.setLocate true).moduleEvent .locate 0

/-- Whether a job slot is fenced by a fault (17 Table 17-5, 18 R470). -/
def State.faultShown (s : State) : Bool := s.jobs.toList.any fun j => j.valid && j.fltValid

/-- The pattern of the light bar: the highest whose condition holds (17 R450, Table 17-5). -/
def State.pattern (s : State) : Nat :=
  if s.pow.infault || s.pow.hotDrain then 1
  else if s.svc.strike = .clear then 2
  else if s.faultShown then 3
  else if s.svc.strike = .draining then 4
  else if s.boot.fwBusy then 5
  else if s.svc.locate then 6
  else if s.pow.compOn then 7
  else 8

end Sys2Proof.Machine
end

