-- ==== Sys2Proof/Machine/Ctl.lean ====
section
/-!
DEFINITION. Starting and stopping a control core and a long-vector unit from outside (02 Table 2-11, 14 R369, 04 R126-R130), and the saved
forms of queued commands.
-/

namespace Sys2Proof.Machine

/-! ## The control core -/

/-- CC_CTL.START, while halted: fetch begins at CC_START_PC in bank 2 at level M (02 Table 2-11). It wakes the core, whose first bundle issues 11 cc later (03
R101). -/
def State.ccStart (s : State) (m : MastId) : State :=
  if (s.mast m).core.halted then
    (s.modCore m fun c => { c with halted := false, npc := c.startPc.setWidth 18, bank := 2, level := 2, opening := [], waiting := none }.age 11).wake m 0
  else s

/-- CC_CTL.STOP: the core stops in front of its next bundle (02 R79). -/
def State.ccStop (s : State) (m : MastId) : State := if (s.mast m).core.halted then s else s.beginHalt m

/-- HALT_COMPLETE: every multiply and load has written, and every store has drained (02 R68, R79). -/
def State.haltComplete (s : State) (m : MastId) : State :=
  let c := (s.mast m).core
  if c.stopReq && c.muls.isEmpty && c.loads.isEmpty && c.sb.isEmpty && c.wq.isEmpty then
    s.modCore m fun c => { c with halted := true, stopReq := false }
  else s

/-- CC_IRQ_SET: software interrupts become pending (14 R369). -/
def State.irqSet (s : State) (m : MastId) (v : BitVec 8) : State := s.modCore m fun c => { c with ipend := c.ipend ||| v.setWidth 16 }

/-! ## The long-vector unit -/

/-- VEC_CTL.STOP (04 R126): ignored while stopped. -/
def State.vecStop (s : State) (m : MastId) : State := s.modVec m fun v => if v.stopped then v else { v with stopReq := true }

/-- VEC_STOPPED: both pipes are at a beat boundary, every requested element has returned and every write is acknowledged (04 R126). A check that has failed is
recorded first, and the unit then stops with its fault (04 R127, 13 R351); one whose job faulted instead ends where it stands. A walk that was waited for
goes on without its access (13 R345). -/
def State.vecStopped (s : State) (m : MastId) : State :=
  let v := (s.mast m).vec
  let met := (s.mast m).xl.faultOf 1
  let dead := met.any fun f => decide (f.st = .dead)
  if v.stopReq && !v.stopped && !v.failing && (met.isNone || dead) && (v.atBeat || dead) && s.vecQuiet m then
    ((s.modXl m fun x => { x with faults := x.faults.filter fun f => f.e ≠ 1, miss := x.miss.filter fun f => f.e ≠ 1 }).modMast m Mast.vecHalt)
  else s

/-- VEC_CTL.RUN (04 R129): the unit goes on from VIDX. -/
def State.vecRun (s : State) (m : MastId) : State :=
  if (s.mast m).vec.stopped then (s.modVec m fun v => { v with stopped := false, faulted := false, qent := [], extra := 0 }).vecAdvance m else s

/-- VEC_CTL.DISCARD, while stopped: the queue is emptied and VIDX cleared. -/
def State.vecDiscard (s : State) (m : MastId) : State :=
  if (s.mast m).vec.stopped then
    (s.modVec m fun v => { v with queue := [], extra := 0, qent := [], saved := v.saved ++ packs v.extra v.queue, vidxA := 0, vidxM := 0 }).clearStall m 1
  else s

/-! ## Saved queues (log entries 14 and 92) -/

/-- The words of entry `i` as they read: as written, or the saved form of the entry; an entry that holds no command reads 0. -/
def entWords {α : Type} (form : List α → Nat → Word) (ws : Nat) (written : List (Nat × List Word)) (ps : List (List α)) (i : Nat) : List Word :=
  match written.find? fun p => decide (p.1 = i) with
  | some p => p.2
  | none => match ps[i]? with
    | some c => (List.range ws).map (form c)
    | none => List.replicate ws 0

/-- The entry that words spell: one that was queued somewhere and has that saved form, or a free command. -/
def comeBack {α : Type} (form : List α → Nat → Word) (back : List Word → α) (ws : Nat) (known : List (List α)) (words : List Word) : List α :=
  match known.find? fun c => decide ((List.range ws).map (form c) = words) with
  | some c => c
  | none => [back words]

/-- Words written to entry `i`. -/
def entPut (written : List (Nat × List Word)) (i : Nat) (words : List Word) : List (Nat × List Word) := (i, words) :: written.filter fun p => p.1 ≠ i

/-- Set the length of a queue: entries beyond the new length keep their words, and an added entry holds what its words spell, which
are 0 where nothing has been written. A QLEN above 16 is a free value (log entry 57). Gives the words written and the entries. -/
def setLen {α : Type} (form : List α → Nat → Word) (back : List Word → α) (ws : Nat) (known : List (List α)) (written : List (Nat × List Word))
    (ps : List (List α)) (n : Nat) : List (Nat × List Word) × List (List α) :=
  let n := if n ≤ 16 then n else min 16 (Config.queueLen n)
  let words := entWords form ws written ps
  let cut := (List.range (ps.length - n)).map (· + n)
  let add := (List.range (n - ps.length)).map (· + ps.length)
  ((cut ++ add).foldl (fun w i => entPut w i (words i)) written, ps.take n ++ add.map fun i => comeBack form back ws known (words i))

/-- Write word `w` of entry `i`: what has been written, and the entries with what the entry now spells. -/
def entWrite {α : Type} (form : List α → Nat → Word) (back : List Word → α) (ws : Nat) (known : List (List α)) (written : List (Nat × List Word))
    (ps : List (List α)) (i w : Nat) (v : Word) : List (Nat × List Word) × List (List α) :=
  let words := listSet (entWords form ws written ps i) w v
  (entPut written i words, listSet ps i (comeBack form back ws known words))

/-- How many commands the first entry stands for beyond one. -/
def leadOf {α : Type} (ps : List (List α)) : Nat := (ps.headD []).length - 1

/-- Every entry of a kind that is queued on some mast, or that left a queue unfinished. -/
def State.knownVec (s : State) : List (List VCmd) := s.masts.toList.flatMap fun x => packs x.vec.extra x.vec.queue ++ x.vec.saved
@[inherit_doc State.knownVec]
def State.knownArr (s : State) : List (List ACmd) := s.masts.toList.flatMap fun x => x.arr.toList.flatMap fun a => packs a.extra a.queue ++ a.saved
@[inherit_doc State.knownVec]
def State.knownSheet (s : State) : List (List SCmd) := s.masts.toList.flatMap fun x => packs x.sheet.extra x.sheet.queue ++ x.sheet.saved
@[inherit_doc State.knownVec]
def State.knownHal (s : State) : List (List HalCmd) := s.masts.toList.flatMap fun x => packs x.hal.extra x.hal.queue ++ x.hal.saved

/-- The long-vector unit's queue as QLEN or QENT leaves it; what it held is known to later saves. -/
def Vec.requeue (v : Vec) (r : List (Nat × List Word) × List (List VCmd)) : Vec :=
  { v with qent := r.1, queue := r.2.flatten, extra := leadOf r.2, saved := v.saved ++ packs v.extra v.queue }
@[inherit_doc Vec.requeue]
def Arr.requeue (v : Arr) (r : List (Nat × List Word) × List (List ACmd)) : Arr :=
  { v with qent := r.1, queue := r.2.flatten, extra := leadOf r.2, saved := v.saved ++ packs v.extra v.queue }
@[inherit_doc Vec.requeue]
def Sheet.requeue (v : Sheet) (r : List (Nat × List Word) × List (List SCmd)) : Sheet :=
  { v with qent := r.1, queue := r.2.flatten, extra := leadOf r.2, saved := v.saved ++ packs v.extra v.queue }
/-- The same of the halyard, whose commands are numbered anew. -/
def Hal.requeue (v : Hal) (r : List (Nat × List Word) × List (List HalCmd)) : Hal :=
  { v with qent := r.1, queue := r.2.flatten.zipIdx.map fun p => { p.1 with id := v.nextId + p.2 }, extra := leadOf r.2
           nextId := v.nextId + r.2.flatten.length, saved := v.saved ++ packs v.extra v.queue }

/-- VEC_QLEN and VEC_QENT. -/
def Vec.setQlen (v : Vec) (known : List (List VCmd)) (n : Nat) : Vec :=
  v.requeue (setLen Config.vecSaved Config.vecRestored 4 known v.qent (packs v.extra v.queue) n)
def Vec.setQent (v : Vec) (known : List (List VCmd)) (i w : Nat) (x : Word) : Vec :=
  v.requeue (entWrite Config.vecSaved Config.vecRestored 4 known v.qent (packs v.extra v.queue) i w x)
/-- ARR_QLEN and ARR_QENT. -/
def Arr.setQlen (v : Arr) (known : List (List ACmd)) (n : Nat) : Arr :=
  v.requeue (setLen Config.arrSaved Config.arrRestored 8 known v.qent (packs v.extra v.queue) n)
def Arr.setQent (v : Arr) (known : List (List ACmd)) (i w : Nat) (x : Word) : Arr :=
  v.requeue (entWrite Config.arrSaved Config.arrRestored 8 known v.qent (packs v.extra v.queue) i w x)
/-- SHEET_QLEN and SHEET_QENT. -/
def Sheet.setQlen (v : Sheet) (known : List (List SCmd)) (n : Nat) : Sheet :=
  v.requeue (setLen Config.sheetSaved Config.sheetRestored 8 known v.qent (packs v.extra v.queue) n)
def Sheet.setQent (v : Sheet) (known : List (List SCmd)) (i w : Nat) (x : Word) : Sheet :=
  v.requeue (entWrite Config.sheetSaved Config.sheetRestored 8 known v.qent (packs v.extra v.queue) i w x)
/-- HAL_QLEN and HAL_QENT. -/
def Hal.setQlen (v : Hal) (known : List (List HalCmd)) (n : Nat) : Hal :=
  v.requeue (setLen Config.halSaved Config.halRestored 8 known v.qent (packs v.extra v.queue) n)
def Hal.setQent (v : Hal) (known : List (List HalCmd)) (i w : Nat) (x : Word) : Hal :=
  v.requeue (entWrite Config.halSaved Config.halRestored 8 known v.qent (packs v.extra v.queue) i w x)

end Sys2Proof.Machine
end

