-- ==== Sys2Proof/Machine/Security.lean ====
section
/-!
DEFINITION. Module reset by a write, firmware update, fuses, the node record and attestation (18 R458-R466).
-/

namespace Sys2Proof.Machine

/-- AO_RESET_EXIT: the always-on domain leaves reset and Table 18-1 runs (18 R456). -/
def State.aoExit (s : State) (b : BootInput) : State :=
  if s.boot.stage = 0 then (s.modPow fun p => { p with aoOn := true }).powerOn b else s

/-- MOD_RST.GO: a module reset, with what its checks find (18 R460). Recovery serves only firmware update (R461), and without the compute domain nothing is reset
(DESIGN CHOICE, log entry 133). -/
def State.modRst (s : State) (b : BootInput) : State :=
  if s.boot.stage = 6 ∨ !s.pow.compOn then s
  else
    (s.modBoot fun x => { x with foundMast := ⟨#[b.mastA, b.mastB], rfl⟩, hbmOk := b.hbmOk }).moduleReset

/-! ## Firmware update (18 R462, R464) -/

/-- FW_CTL.BEGIN: refused while a job slot is valid; both pins go busy. One while an update is in progress does nothing (DESIGN CHOICE, log entry 131). -/
def State.fwBegin (s : State) : State :=
  if s.boot.fwBusy then s
  else if s.jobs.toList.any fun j => j.valid then s.modBoot fun b => { b with fwResult := 6 }
  else (s.modBoot fun b => { b with fwBusy := true, fwResult := 0 }).raiseBusyBoth

/-- RESULT for the first failing check (18 R461, Table 18-7). -/
def resultOf (fail : Nat) : BitVec 3 :=
  match fail with
  | 0 => 1 | 8 | 1 => 2 | 2 => 3 | 3 => 4 | _ => 5

/-- The type of the staged image. -/
def Boot.stagedType (b : Boot) : Nat := Mem.load b.stageMem 4 2
/-- The bytes of the staged image: its header and its body. -/
def Boot.staged (b : Boot) : List Byte := Mem.bytes b.stageMem 0 (384 + min 0x80000 (Mem.load b.stageMem 16 4))

/-- FW_CTL.FINISH: the staged image is checked; one that passes goes to the inactive bank, which is then marked. The end of an update may
let a strike become clear (17 R451). -/
def State.fwFinish (s : State) (c : CryptoFindings) : State :=
  if !s.boot.fwBusy then s
  else
    let b := s.boot
    let t := b.stagedType
    let fail := if t = 1 ∨ t = 2 then imageCheck b b.stageMem 0 t c else 8
    let s := s.modBoot fun b => { b with fwBusy := false, fwResult := resultOf fail }
    let s :=
      if fail ≠ 0 then s
      else
        let bank := !b.marked
        let i : Fin 2 := if bank then 1 else 0
        s.modBoot fun x =>
          { x with flash := Mem.put x.flash (flashBase bank t) b.staged, marked := bank, inactiveBad := false
                   foundCn := if t = 1 then x.foundCn.set i.val c i.isLt else x.foundCn
                   foundMast := if t = 2 then x.foundMast.set i.val c i.isLt else x.foundMast }
    s.strikeEnd

/-- FW_CTL.ABORT. -/
def State.fwAbort (s : State) : State := s.fwAbandon.strikeEnd

/-- FW_CTL.COMMIT (18 R462). -/
def State.fwCommit (s : State) : State :=
  s.modBoot fun b =>
    let up := fun (f : BitVec 7) (svn : BitVec 32) => BitVec.ofNat 7 (max f.toNat (min 64 svn.toNat))
    let own : BitVec 4 := BitVec.ofNat 4 (2 ^ b.runCn.keyidx.toNat)
    { b with fuseCn := up b.fuseCn b.runCn.svn, fuseMast := up b.fuseMast b.runMast.svn
             revoked := b.revoked ||| (b.runCn.revoke &&& ~~~own) }

/-! ## The node record (18 R458) -/

/-- NODE_RECORD_WRITE: it is applied by the next start-up. -/
def State.recordNode (s : State) (node : BitVec 14) (cfg : Word) : State :=
  s.modBoot fun b => { b with recValid := true, recNode := node, recCfg := cfg }

/-! ## Attestation (18 R466) -/

/-- A report is asked for with a nonce. A request while one is being built is ignored (log entry 54). -/
def State.attStart (s : State) (nonce : List Byte) : State :=
  if s.boot.attBusy then s else s.modBoot fun b => { b with attBusy := true, reqNonce := nonce }

/-- ATT_CTL.REQ: the nonce is that of ATT_NONCE. -/
def State.attReq (s : State) : State := s.attStart (Mem.bytes s.boot.nonce 0 32)

/-- The report but for its signature: bytes 0 to 215 of 18 Table 18-3. -/
def State.reportBody (s : State) : List Byte :=
  let b := s.boot
  toBytes 4 1 ++ toBytes 4 348 ++ toBytes 16 b.serial.toNat ++ toBytes 2 s.nodeId.toNat ++
  toBytes 2 (b2n b.recValid + 2 * b2n b.fallback) ++ b.reqNonce.take 32 ++ toBytes (32 - b.reqNonce.length) 0 ++
  toBytes 64 b.runCn.digest.toNat ++ toBytes 64 b.runMast.digest.toNat ++ toBytes 4 b.runCn.svn.toNat ++ toBytes 4 b.runMast.svn.toNat ++
  toBytes 4 b.fuseCn.toNat ++ toBytes 4 b.fuseMast.toNat ++ toBytes 1 b.revoked.toNat ++ toBytes 1 b.runCn.keyidx.toNat ++
  toBytes 1 b.runMast.keyidx.toNat ++ toBytes 1 0 ++ toBytes 4 b.resets.toNat ++ toBytes 4 0

/-- ATT_REPORT_DONE: the report is complete with the signature that the signing unit made. -/
def State.attDone (s : State) (sig : List Byte) : State :=
  if s.boot.attBusy then
    let r := s.reportBody ++ sig.take 132
    s.modBoot fun b => { b with attBusy := false, attDone := true, report := Mem.put [] 0 r }
  else s

end Sys2Proof.Machine
end

