-- ==== Sys2Proof/Machine/HostPort.lean ====
section
/-!
DEFINITION. Host ports: versions, queues, doorbells, fetching, completions, resets and HSIG (16 R410-R430, 18 R459).
-/

namespace Sys2Proof.Machine

/-! ## Versions (16 R427-R429) -/

/-- The negotiated major and minor version of a function. -/
def Fn.major (x : Fn) : Nat := fld x.ver.toNat 8 8
def Fn.minor (x : Fn) : Nat := fld x.ver.toNat 0 8

/-- Whether a version is offered to a function: 2.0 is for the physical function only. -/
def offered (f : FnId) (v : Nat) : Bool :=
  decide (v = 0x300 ∨ v = 0x301 ∨ v = 0x201 ∨ v = 0x202 ∨ v = 0x203) || (decide (v = 0x200) && decide (f.fn = 0))

/-- HOST_VER.REQ. -/
def State.verReq (s : State) (f : FnId) (v : BitVec 16) : State :=
  s.modFn f fun x => if x.ver = 0 ∧ offered f v.toNat then { x with ver := v } else { x with verErr := true }

/-- Whether the registers of a port's functions can be reached: its link is up and the compute domain on. -/
def State.portOn (s : State) (h : HostPort) : Bool := s.pow.compOn && (s.hport h).linkUp

/-- Whether a port accepts doorbells of a function and fetches its queues (16 R423, R427). -/
def State.accepting (s : State) (f : FnId) : Bool :=
  s.portOn f.port && decide ((s.hport f.port).hsig ≠ .busy) && decide ((s.hfn f).ver ≠ 0)

/-! ## Contexts (16 R415) -/

/-- Whether a resident context is needed: a command of it is in flight, or a fetch is pending. -/
def Hosts.needed (h : Hosts) (k : FnId × Bool × Nat) : Bool :=
  if k.2.1 then
    h.cmds.any fun c => decide (c.ref.fn = k.1) && (match c.ref.q with
      | some q => h.sqs.any fun x => decide (x.qid = q ∧ x.cq.toNat = k.2.2)
      | none => false)
  else
    (h.cmds.any fun c => decide (c.ref.q.map (·.toNat) = some k.2.2)) || h.sqs.any fun x => decide (x.qid.toNat = k.2.2 ∧ x.head ≠ x.tail)

/-- The place of a context in the queue-context region (16 R416). -/
def ctxAddr (k : FnId × Bool × Nat) : Nat :=
  0x2FF8000000 + (if k.2.1 then 0x4000000 + 64 * ((k.1.port.val * 17 + k.1.fn.val) * 4096 + k.2.2) else 64 * k.2.2)

/-- A context is loaded by a read of its line of HBM, after the context `out` that makes room for it has been written back (16 R415). Gives whether the homes
took the accesses. -/
def State.loadCtx (s : State) (k : FnId × Bool × Nat) (out : Option (FnId × Bool × Nat)) : State × Bool :=
  let ls := (lineOf (ctxAddr k) :: (out.map fun q => lineOf (ctxAddr q)).toList).eraseDups
  let a := s.ask (.host k.1.port) ls
  if !a.2 then a
  else
    let s := match out with
      | some q => { a.1 with frees := a.1.frees + 1 }.writeBytes (ctxAddr q) (toBytes 64 (Config.ctxSaved (ctxAddr q) a.1.frees).toNat)
      | none => a.1
    let s := (s.readLine (lineOf (ctxAddr k))).1
    ((s.modHosts fun h => { h with resident := k :: h.resident.filter fun q => some q ≠ out }).modFn k.1 fun x => { x with ctxMiss := x.ctxMiss + 1 }, true)

/-- A context is used: a resident one becomes the most recently used; another is loaded, and the least recently used one that is not needed
makes room. Gives whether it is resident: there may be no room now. -/
def State.touchCtx (s : State) (k : FnId × Bool × Nat) : State × Bool :=
  let h := s.hosts
  if h.resident.contains k then (s.modHosts fun h => { h with resident := k :: h.resident.filter (· ≠ k) }, true)
  else if h.resident.length < 4096 then s.loadCtx k none
  else match h.resident.reverse.find? fun q => !h.needed q with
    | some q => s.loadCtx k (some q)
    | none => (s, false)

/-! ## Ownership (16 R412) -/

/-- The function that owns a QID: a virtual function that was granted it, else the physical function of its port. -/
def Hosts.ownerOf (h : Hosts) (qid : Nat) : FnId :=
  match h.grants.find? fun g => decide (g.first ≤ qid ∧ qid < g.first + g.count) with
  | some g => g.fn
  | none => ⟨Fin.ofNat 2 (qid / 2 ^ 19), 0⟩

/-- Change a submission queue. -/
def State.modSq (s : State) (qid : BitVec 20) (f : Sq → Sq) : State :=
  s.modHosts fun h => { h with sqs := updFirst (fun q => q.qid == qid) f h.sqs }

/-! ## Doorbells (16 R414, R421) -/

/-- Whether a new tail lies outside a ring of `n` entries or would pass its head. -/
def tailBad (n head tail new : Nat) : Bool :=
  decide (n ≤ new) || decide ((head + n - 1 - tail) % n < (new + n - tail) % n)

/-- A queue stops: what it has in flight completes without a completion, and an event is posted to its function. -/
def State.queueError (s : State) (f : FnId) (q : Option (BitVec 20)) : State :=
  (s.modHosts fun h => { h with cmds := h.cmds.map fun c => if c.ref.fn = f ∧ c.ref.q = q then { c with silent := true } else c }).event
    f .queueError 0 (evDetail .queueError (match q with | some i => i.toNat + 1 | none => 0))

/-- A DOORBELL as it is processed (16 R414). Gives whether its context could be used. -/
def State.doorbellNow (s : State) (f : FnId) (v : Word) : State × Bool :=
  let qid : BitVec 20 := BitVec.ofNat 20 (wfld v 0 20)
  let new := wfld v 20 16
  if !s.accepting f then (s, true)
  else if s.hosts.ownerOf qid.toNat ≠ f then (s.modFn f fun x => { x with dbOwn := BitVec.ofNat 16 (satInc 16 x.dbOwn.toNat) }, true)
  else match s.hosts.sqs.find? fun q => q.qid == qid with
    | none => (s, true)
    | some q =>
      if q.stopped then (s, true)
      else
        let t := s.touchCtx (f, false, qid.toNat)
        if !t.2 then t
        else if tailBad q.sz q.head q.tail new then ((t.1.modSq qid fun q => { q with stopped := true }).queueError f (some qid), true)
        else (t.1.modSq qid fun q => { q with tail := new }, true)

/-- The size of the admin queues and the event ring. -/
def Fn.asqLen (x : Fn) : Nat := 2 ^ x.aqSz.toNat

/-- ADMIN_DOORBELL. -/
def State.adminDoorbell (s : State) (f : FnId) (v : Word) : State :=
  let x := s.hfn f
  let new := wfld v 0 16
  if !s.accepting f ∨ x.asqStopped then s
  else if tailBad x.asqLen x.asqHead x.asqTail new then (s.modFn f fun x => { x with asqStopped := true }).queueError f none
  else s.modFn f fun x => { x with asqTail := new }

/-- Whether a completion queue is full. -/
def Cq.full (c : Cq) : Bool := decide ((c.tail + 1) % c.sz = c.head)

/-- Write one entry, of 15 bytes and the phase bit, at the tail of a completion queue that has room. -/
def Cq.put (c : Cq) (mem : Mem) (e : List Byte) : Cq × Mem :=
  let tail := (c.tail + 1) % c.sz
  ({ c with tail := tail, phase := if tail = 0 then !c.phase else c.phase }, Mem.put mem (c.base.toNat + 16 * c.tail) (e ++ [BitVec.ofNat 8 (b2n c.phase)]))

/-- Write held entries while there is room: how often the queue became full. -/
def Cq.drain : Nat → Cq → Mem → Nat → Cq × Mem × Nat
  | 0, c, mem, k => (c, mem, k)
  | n + 1, c, mem, k =>
    if c.full then (c, mem, k)
    else match c.hold with
      | [] => (c, mem, k)
      | e :: es =>
        let r := { c with hold := es }.put mem e
        Cq.drain n r.1 r.2 (k + b2n r.1.full)

/-- A completion queue of a function: the admin one, where its registers say, or one it created. -/
def Fn.cq (x : Fn) : Option (BitVec 12) → Option Cq
  | none => some { x.acq with base := BitVec.ofNat 64 (x.acqBase.toNat * 4096), sz := 2 ^ x.acqSz.toNat }
  | some i => x.cqs.find? fun c => c.num == i

/-- Put it back. -/
def Fn.setCq (x : Fn) (i : Option (BitVec 12)) (c : Cq) : Fn :=
  match i with
  | none => { x with acq := c }
  | some i => { x with cqs := updFirst (fun d => d.num == i) (fun _ => c) x.cqs }

/-- Drain a completion queue into host memory, with a CQ_FULL event for each time it becomes full (16 R420). -/
def State.drainCq (s : State) (f : FnId) (i : Option (BitVec 12)) (c : Cq) : State :=
  let r := Cq.drain (c.hold.length + 1) c (s.hport f.port).mem 0
  let s := (s.modHport f.port fun p => { p with mem := r.2.1 }).modFn f fun x => x.setCq i r.1
  (List.range r.2.2).foldl (fun t _ => t.event f .cqFull 0 (evDetail .cqFull (match i with | some k => k.toNat + 1 | none => 0))) s

/-- A CQ_DOORBELL as it is processed (16 R421). Gives whether its context could be used. -/
def State.cqDoorbellNow (s : State) (f : FnId) (v : Word) : State × Bool :=
  let num := wfld v 0 12
  let new := wfld v 12 16
  let i : Option (BitVec 12) := if wbit v 28 then none else some (BitVec.ofNat 12 num)
  let bad := fun (t : State) => t.modFn f fun x => { x with cqh := true }
  if !s.accepting f then (s, true)
  else if wbit v 28 ∧ num ≠ 0 then (bad s, true)
  else match (s.hfn f).cq i with
    | none => (bad s, true)
    | some c =>
      let t := if wbit v 28 then (s, true) else s.touchCtx (f, true, num)
      if !t.2 then t
      else if c.sz ≤ new ∨ (c.tail + c.sz - c.head) % c.sz < (new + c.sz - c.head) % c.sz then (bad t.1, true)
      else (t.1.drainCq f i { c with head := new }, true)

/-- One doorbell: of a completion queue, or of a submission queue. -/
def State.ringOne (s : State) (d : Bool × FnId × Word) : State × Bool := if d.1 then s.cqDoorbellNow d.2.1 d.2.2 else s.doorbellNow d.2.1 d.2.2

/-- Process doorbells in order, up to the first whose context finds no room (16 R414, R415). -/
def State.ringFrom (s : State) : List (Bool × FnId × Word) → State × List (Bool × FnId × Word)
  | [] => (s, [])
  | d :: ds => let q := s.ringOne d; if q.2 then State.ringFrom q.1 ds else (q.1, d :: ds)

/-- Process the doorbells that wait. -/
def State.ringDbs (s : State) : State :=
  if s.hosts.dbs.isEmpty then s
  else let q := s.ringFrom s.hosts.dbs; q.1.modHosts fun h => { h with dbs := q.2 }

/-- A doorbell arrives: behind those that wait, or it is processed; one that finds no room for its context waits. -/
def State.ring (s : State) (d : Bool × FnId × Word) : State :=
  if s.hosts.dbs.isEmpty then
    (let q := s.ringOne d; if q.2 then q.1 else q.1.modHosts fun h => { h with dbs := [d] })
  else if s.accepting d.2.1 then (s.modHosts fun h => { h with dbs := h.dbs ++ [d] }).ringDbs
  else s

/-- DOORBELL. -/
def State.doorbell (s : State) (f : FnId) (v : Word) : State := s.ring (false, f, v)

/-- CQ_DOORBELL. -/
def State.cqDoorbell (s : State) (f : FnId) (v : Word) : State := s.ring (true, f, v)

/-! ## HOST_EVT_CTL (16 R422) -/

/-- HOST_EVT_CTL: ARM and HEAD; with room again, one OVERFLOW entry follows dropped events. -/
def State.evtCtl (s : State) (f : FnId) (v : Word) : State :=
  let s := s.modFn f fun x => { x with arm := wbit v 0, evHead := BitVec.ofNat 12 (wfld v 1 12) }
  let x := s.hfn f
  if x.ovfDue ∧ !x.evFull then
    (s.modFn f fun x => { x with ovfDue := false }).writeEvent f .overflow 0 (evDetail .overflow x.lost.toNat)
  else s

/-! ## Fetching (16 R417-R419) -/

/-- The queues of a function that hold work, as 0 for the admin queue and QID + 1 for another. -/
def State.workOf (s : State) (f : FnId) : List Nat :=
  let x := s.hfn f
  (if x.asqHead ≠ x.asqTail ∧ !x.asqStopped then [0] else []) ++
    (s.hosts.sqs.filter fun q => decide (q.fn = f ∧ q.head ≠ q.tail) && !q.stopped).map fun q => q.qid.toNat + 1

/-- The least of a list of numbers above `a`, else the least of all. -/
def nextAfter (a : Nat) (xs : List Nat) : Option Nat :=
  match (xs.filter fun x => a < x).min? with
  | some x => some x
  | none => xs.min?

/-- The queue that a port fetches next: functions round-robin, then queues round-robin by QID (16 R417). -/
def State.fetchNext (s : State) (h : HostPort) : Option (FnId × Nat) :=
  (List.range 17).findSome? fun i =>
    let f : FnId := ⟨h, Fin.ofNat 17 ((s.hport h).rrFn.val + 1 + i)⟩
    if s.accepting f then (nextAfter (s.hfn f).rrQ (s.workOf f)).map fun k => (f, k) else none

/-- Whether an opcode is a command. -/
def opcKnown (o : Nat) : Bool := decide (o ≤ 5) || decide (0x40 ≤ o ∧ o ≤ 0x44)

/-- The offset of ARGS in an entry, and its length, by major version. -/
def argsAt (major : Nat) : Nat := if major = 2 then 10 else 16
def entryLen (major : Nat) : Nat := if major = 2 then 32 else 64

/-- What a fetched entry completes with at once, if anything (16 R418, R419, R428, R429). -/
def Fn.early (x : Fn) (f : FnId) (admin : Bool) (e : List Byte) : Option Nat :=
  let o := eb e 1 1
  let v2 := decide (x.major = 2)
  if eb e 0 1 ≠ x.major then some 1
  else if v2 ∧ x.minor < 2 ∧ (eb e 2 2) % 2 = 1 then some 3
  else if !opcKnown o ∨ (v2 ∧ (o = 3 ∨ o = 4)) ∨ (0x40 ≤ o ∧ !admin) ∨ (o = 0x44 ∧ (f.fn ≠ 0 ∨ x.ver = 0x200)) then some 2
  else if o = 5 ∧ 3 < eb e (argsAt x.major) 1 then some 3
  else none

/-- SQ_FETCH: the port fetches the entry at the head of the queue whose turn it is. -/
def State.sqFetch (s : State) (f : FnId) (q : Option (BitVec 20)) (entry : List Byte) : State :=
  let key := match q with | some i => i.toNat + 1 | none => 0
  if s.fetchNext f.port ≠ some (f, key) then s
  else
    let x := s.hfn f
    let e := entry.take (entryLen x.major)
    let st := x.early f q.isNone e
    let add := fun (head : Nat) (t : State) =>
      let c : HCmd :=
        { ref := { fn := f, q := q, cid := BitVec.ofNat 32 (eb e 4 4) }, ver := x.ver, entry := e, sqHead := head, seq := t.hosts.seq
          fence := decide (eb e 2 2 % 2 = 1), started := st.isSome, step := 0, status := st.map (BitVec.ofNat 8), silent := false, pas := [] }
      ((t.modHosts fun h => { h with cmds := h.cmds ++ [c], seq := h.seq + 1 }).modHport f.port fun p => { p with rrFn := f.fn }).modFn
        f fun x => { x with rrQ := key }
    match q with
    | none =>
      let head := (x.asqHead + 1) % x.asqLen
      add head (s.modFn f fun x => { x with asqHead := head })
    | some i =>
      match s.hosts.sqs.find? fun q => q.qid == i with
      | none => s
      | some y =>
        let t := s.touchCtx (f, false, i.toNat)
        if !t.2 then t.1
        else
          let head := (y.head + 1) % y.sz
          add head (t.1.modSq i fun y => { y with head := head })

/-! ## Starting and completing commands -/

/-- Whether two commands are of one queue. -/
def HCmd.sameQueue (a b : HCmd) : Bool := decide (a.ref.fn = b.ref.fn ∧ a.ref.q = b.ref.q)

/-- The command that a row names, if it may run now: its turn in its queue has come, and with FENCE every earlier one has completed
(16 R417). -/
def State.startable (s : State) (r : CmdRef) (op : Nat) : Option HCmd :=
  match s.hosts.cmds.find? fun c => decide (c.ref = r ∧ c.status = none) with
  | none => none
  | some c =>
    let before := s.hosts.cmds.filter fun d => d.sameQueue c && decide (d.seq < c.seq)
    if eb c.entry 1 1 = op ∧ !(before.any fun d => !d.started) ∧ (!c.fence ∨ before.isEmpty) then some c else none

/-- Run a command: it has started; `f` gives the state and its status, if it is done. -/
def State.runCmd (s : State) (r : CmdRef) (op : Nat) (f : HCmd → State → State × Option Nat) : State :=
  match s.startable r op with
  | none => s
  | some c =>
    let s := s.modHosts fun h => { h with cmds := updFirst (fun d => decide (d.ref = r ∧ d.status = none)) (fun d => { d with started := true }) h.cmds }
    let q := f c s
    match q.2 with
    | some st => q.1.cmdDone r st
    | none => q.1

/-- The major and minor version that the function of a command had when it was fetched. -/
def HCmd.major (c : HCmd) : Nat := fld c.ver.toNat 8 8
def HCmd.minor (c : HCmd) : Nat := fld c.ver.toNat 0 8

/-- A field of the ARGS of a command. -/
def HCmd.arg (c : HCmd) (off n : Nat) : Nat := eb c.entry (argsAt c.major + off) n

/-- The job that a command acts on, if its function loaded it (16 R419). -/
def State.cmdJob (s : State) (c : HCmd) : Option JobSlot :=
  (fins 8).find? fun j =>
    let x := s.job j
    x.valid && decide (x.owner = some c.ref.fn ∧ x.jobid.toNat = eb c.entry 8 2)

/-- The completion queue that a command completes to. -/
def State.cqOf (s : State) (r : CmdRef) : Option (Option (BitVec 12)) :=
  match r.q with
  | none => some none
  | some i => (s.hosts.sqs.find? fun q => q.qid == i).map fun q => some q.cq

/-- The masts that a mask of 128 bits names. -/
def maskMasts (v : BitVec 128) : List MastId := (fins 128).filter fun m => v.getLsbD m.val

/-- Every engine of a mast but its control core is stopped. -/
def Mast.enginesStopped (x : Mast) : Bool :=
  x.vec.stopped && (x.arr.get 0).stopped && (x.arr.get 1).stopped && x.sheet.stopped && x.hal.stopped

/-- A host's access to another module, or its post, is refused there or here: a fault of the job (15 R393). -/
def State.hostRefused (s : State) (j : JobSlot) : State := (s.recordFault j 0 7 7).fenceWrite j true

/-- Whether a command is a POST to another module. -/
def State.postsAway (s : State) (c : HCmd) : Bool := decide (eb c.entry 1 1 = 3 ∧ tokenNode (BitVec.ofNat 32 (c.arg 0 4)) ≠ s.nodeId)

/-- The status of a command whose action is done: as recorded; OK for a POST that is visible, as one to another module is after a time that is not counted (16
Table 16-4; log entry 116), for a START whose cores have
all issued a bundle, and for a FENCE of a job whose engines have all stopped (18 Table 18-4, 15 R398). -/
def State.finished (s : State) (c : HCmd) : Option (BitVec 8) :=
  match c.status with
  | some st => some st
  | none =>
    if !c.started then none
    else if eb c.entry 1 1 = 3 then
      (let mine := fun (p : Post) => decide (p.src = .host c.ref.fn.port ∧ p.seq = c.seq)
       let away := s.postsAway c
       if s.posts.any mine ∨ s.held.any (fun h => mine h.2) ∨ (away && !Config.postVisible s.frees) then none
       else some (if away && Config.postRefused s.frees then 8 else 0))
    else if eb c.entry 1 1 = 5 ∧ c.arg 0 1 = 1 then
      (match s.cmdJob c with
       | some j =>
         if (maskMasts (s.job j).masts).all fun m => decide (Sparse.get (s.mast m).cnt 0x38 ≠ Sparse.get (s.job j).bundles m.val) then some 0 else none
       | none => some 8)
    else if eb c.entry 1 1 = 5 ∧ c.arg 0 1 = 2 then
      (match s.cmdJob c with
       | some j => if (maskMasts (s.job j).masts).all fun m => (s.mast m).enginesStopped then some 0 else none
       | none => some 0)
    else none

/-- COMMAND_COMPLETION: the completion is written, or held while the queue is full (16 R420). -/
def State.complCmd (s : State) (r : CmdRef) : State :=
  match takeFirst (fun c => decide (c.ref = r) && (s.finished c).isSome) s.hosts.cmds with
  | none => if s.hosts.cmds.any fun c => decide (c.ref = r ∧ eb c.entry 1 1 = 3) then { s with frees := s.frees + 1 } else s
  | some (c, rest) =>
    let lost := c.status.isNone && s.postsAway c && Config.postRefused s.frees
    let pay := fun (t : State) => if lost then (match s.cmdJob c with | some j => t.hostRefused j | none => t) else t
    let done := (pay s).modHosts fun h => { h with cmds := rest }
    if c.silent then done.ringDbs
    else match s.cqOf r with
      | none => done.ringDbs
      | some i =>
        let ctx := match i with
          | some k => s.touchCtx (r.fn, true, k.toNat)
          | none => (s, true)
        if !ctx.2 then ctx.1
        else
          let t := (pay ctx.1).modHosts fun h => { h with cmds := rest }
          let st := (s.finished c).getD 0
          let qid := match r.q with | some k => k.toNat | none => 0
          let e := toBytes 4 r.cid.toNat ++ toBytes 3 qid ++ toBytes 1 st.toNat ++ toBytes 2 c.sqHead ++ toBytes 5 0
          match (t.hfn r.fn).cq i with
          | none => t.ringDbs
          | some q => (t.drainCq r.fn i { q with hold := q.hold ++ [e] }).ringDbs

/-! ## Commands that act on queues (16 Table 16-4) -/

/-- NOP. -/
def State.cmdNop (s : State) (r : CmdRef) : State := s.runCmd r 0 fun _ t => (t, some 0)

/-- INVALIDATE: it waits while four commands are queued. -/
def State.cmdInvalidate (s : State) (r : CmdRef) : State :=
  s.runCmd r 4 fun c t =>
    let v : Word := BitVec.ofNat 64 (c.arg 0 8)
    let va : BitVec 40 := BitVec.ofNat 40 (c.arg 8 8 / 2 ^ 16)
    if wfld v 0 2 = 3 ∨ wfld v 34 30 ≠ 0 then (t, some 3)
    else if t.invs.any fun i => decide (i.host = some r) then (t, none)
    else ((t.queueInv v va (some r)).1, none)

/-- Whether a ring base is naturally aligned. -/
def ringOk (base sz entry : Nat) : Bool := decide (4 ≤ sz ∧ sz ≤ 16) && decide (base % (entry * 2 ^ sz) = 0)

/-- CREATE_SQ: QID, base, SZ, CQ number (log entry 12). -/
def State.cmdCreateSq (s : State) (r : CmdRef) : State :=
  s.runCmd r 0x40 fun c t =>
    let qid := c.arg 0 4
    let base := c.arg 4 8
    let sz := c.arg 12 1
    let cq := c.arg 13 2
    let f := r.fn
    if 2 ^ 20 ≤ qid then (t, some 3)
    else if t.hosts.ownerOf qid ≠ f then (t, some 4)
    else if !ringOk base sz (entryLen (t.hfn f).major) ∨ !((t.hfn f).cqs.any fun k => decide (k.num.toNat = cq)) then (t, some 3)
    else if t.hosts.sqs.any fun q => decide (q.qid.toNat = qid) then (t, some 6)
    else
      (t.modHosts fun h =>
        { h with sqs := h.sqs ++ [{ qid := BitVec.ofNat 20 qid, fn := f, base := BitVec.ofNat 64 base, sz := 2 ^ sz, cq := BitVec.ofNat 12 cq
                                    head := 0, tail := 0, stopped := false }] }, some 0)

/-- DELETE_SQ: once every fetched command of the queue has completed. -/
def State.cmdDeleteSq (s : State) (r : CmdRef) : State :=
  s.runCmd r 0x41 fun c t =>
    let qid := c.arg 0 4
    if 2 ^ 20 ≤ qid then (t, some 3)
    else if t.hosts.ownerOf qid ≠ r.fn then (t, some 4)
    else if !(t.hosts.sqs.any fun q => decide (q.qid.toNat = qid)) then (t, some 3)
    else if t.hosts.cmds.any fun d => decide (d.ref.q.map (·.toNat) = some qid) then (t, none)
    else
      (t.modHosts fun h =>
        { h with sqs := h.sqs.filter fun q => q.qid.toNat ≠ qid, resident := h.resident.filter fun k => !(!k.2.1 && decide (k.2.2 = qid)) }, some 0)

/-- CREATE_CQ: number, base, SZ (log entry 12). -/
def State.cmdCreateCq (s : State) (r : CmdRef) : State :=
  s.runCmd r 0x42 fun c t =>
    let num := c.arg 0 2
    let base := c.arg 2 8
    let sz := c.arg 10 1
    if 4096 ≤ num ∨ !ringOk base sz 16 then (t, some 3)
    else if (t.hfn r.fn).cqs.any fun k => decide (k.num.toNat = num) then (t, some 6)
    else (t.modFn r.fn fun x => { x with cqs := x.cqs ++ [Cq.fresh (BitVec.ofNat 12 num) (BitVec.ofNat 64 base) (2 ^ sz)] }, some 0)

/-- DELETE_CQ: refused while a submission queue is bound to it. -/
def State.cmdDeleteCq (s : State) (r : CmdRef) : State :=
  s.runCmd r 0x43 fun c t =>
    let num := c.arg 0 2
    if !((t.hfn r.fn).cqs.any fun k => decide (k.num.toNat = num)) then (t, some 3)
    else if t.hosts.sqs.any fun q => decide (q.fn = r.fn ∧ q.cq.toNat = num) then (t, some 6)
    else
      ((t.modFn r.fn fun x => { x with cqs := x.cqs.filter fun k => k.num.toNat ≠ num }).modHosts fun h =>
        { h with resident := h.resident.filter fun k => !(k.2.1 && decide (k.1 = r.fn ∧ k.2.2 = num)) }, some 0)

/-- A grant without the QIDs of a range. -/
def Grant.without (g : Grant) (first count : Nat) : List Grant :=
  let lo := min (g.first + g.count) first
  let hi := max g.first (first + count)
  (if g.first < lo then [{ g with count := lo - g.first }] else []) ++
    (if hi < g.first + g.count then [{ g with first := hi, count := g.first + g.count - hi }] else [])

/-- GRANT_QIDS: first QID, count, VF number (16 R412, R428; log entry 12). Every QID is the physical function's, or free of a queue where it is returned; a queue
that the physical function made on one keeps its context (log entry 117). The limit of version 2 holds for a function that has negotiated it as for one that a
physical function of version 2 grants to. -/
def State.cmdGrant (s : State) (r : CmdRef) : State :=
  s.runCmd r 0x44 fun c t =>
    let first := c.arg 0 4
    let count := c.arg 4 4
    let vf := c.arg 8 1
    let hs := t.hosts
    let meets := fun (a n : Nat) => decide (a < first + count ∧ first < a + n)
    let held := ((hs.grants.filter fun g => decide (g.fn.port = r.fn.port ∧ g.fn.fn.val = vf)).map (·.count)).sum
    if count = 0 ∨ 16 < vf ∨ 2 ^ 20 < first + count then (t, some 3)
    else if first / 2 ^ 19 ≠ r.fn.port.val ∨ (first + count - 1) / 2 ^ 19 ≠ r.fn.port.val then (t, some 4)
    else if vf ≠ 0 ∧ hs.grants.any (fun g => meets g.first g.count) then (t, some 4)
    else if hs.sqs.any fun q => meets q.qid.toNat 1 && decide (hs.ownerOf q.qid.toNat ≠ ⟨r.fn.port, 0⟩) then (t, some 6)
    else if vf ≠ 0 ∧ (c.major = 2 ∨ (t.hfn ⟨r.fn.port, Fin.ofNat 17 vf⟩).major = 2) ∧ 65536 < held + count then (t, some 3)
    else if vf = 0 then (t.modHosts fun h => { h with grants := h.grants.flatMap fun g => g.without first count }, some 0)
    else (t.modHosts fun h => { h with grants := h.grants ++ [{ first := first, count := count, fn := ⟨r.fn.port, Fin.ofNat 17 vf⟩ }] }, some 0)

/-! ## HSIG (16 R423-R425) -/

/-- ATTENTION_PULSE: a requested attention raises a ready pin. -/
def State.attnPulse (s : State) (h : HostPort) : State :=
  s.modHport h fun p => if p.hsig = .ready ∧ p.attnReq then { p with hsig := .pulse, attnReq := false } else p

/-- ATTENTION_PULSE_END: a pulse is followed by a low period, and that by a merged pulse if attention was requested meanwhile. -/
def State.attnEnd (s : State) (h : HostPort) : State :=
  s.modHport h fun p =>
    match p.hsig with
    | .pulse => { p with hsig := .gap }
    | .gap => if p.attnReq then { p with hsig := .pulse, attnReq := false } else { p with hsig := .ready }
    | _ => p

/-- BUSY_END: the pin of a port with no busy cause left goes low. -/
def State.busyEnd (s : State) (h : HostPort) : State :=
  if (s.hport h).hsig = .busy ∧ s.busyWhy h = none then s.modHport h fun p => { p with hsig := .gap } else s

/-! ## Resets (16 R426, 18 R459) -/

/-- Whether a function is reset with function `f`: itself, and every function of the port with its physical function. -/
def resetWith (f g : FnId) : Bool := decide (g.port = f.port) && (decide (f.fn = 0) || decide (g.fn = f.fn))

/-- A reset of a function (16 R426): its jobs are fenced as faults of kind 14, its commands complete without completions, its queues and
registers are gone, its QIDs are the physical function's again, and the port is busy. -/
def State.resetFn (s : State) (f : FnId) : State :=
  let s := s.eachJob fun j t =>
    match (t.job j).owner with
    | some g => if (t.job j).valid ∧ resetWith f g then (t.moduleFault j 14).fenceWrite j true else t
    | none => t
  let s := s.modHosts fun h =>
    { h with
      cmds := (h.cmds.filter fun c => !resetWith f c.ref.fn || c.started).map fun c => if resetWith f c.ref.fn then { c with silent := true } else c
      sqs := h.sqs.filter fun q => !resetWith f q.fn
      grants := h.grants.filter fun g => !resetWith f g.fn
      resident := h.resident.filter fun k => !resetWith f k.1
      dbs := h.dbs.filter fun d => !resetWith f d.2.1 }
  let s := s.modHport f.port fun p =>
    { p with fns := Vector.ofFn fun i => if resetWith f ⟨f.port, i⟩ then Fn.reset else p.fns.get i
             attn := if f.fn = 0 then 0 else p.attn, causeReset := true }
  (s.raiseBusy f.port).ringDbs

/-- FUNCTION_LEVEL_RESET, HOT_RESET, PORT_LINK_DOWN and PERST_ASSERT. -/
def State.flr (s : State) (f : FnId) : State := if s.portOn f.port then s.resetFn f else s
def State.hotReset (s : State) (h : HostPort) : State := s.resetFn ⟨h, 0⟩
def State.hostLinkDown (s : State) (h : HostPort) : State := (s.resetFn ⟨h, 0⟩).modHport h fun p => { p with linkUp := false }
def State.perst (s : State) (h : HostPort) : State := (s.resetFn ⟨h, 0⟩).modHport h fun p => { p with linkUp := false, perst := true }

/-- PORT_READY: step 9 has ended, PERST_N is deasserted and the link is up; no command of a reset is left (16 R426, 18 R459). -/
def State.portReady (s : State) (h : HostPort) : State :=
  if s.boot.stage = 5 ∧ s.pow.compOn ∧ !(s.hosts.cmds.any fun c => c.silent && decide (c.ref.fn.port = h)) then
    (s.modHport h fun p => { p with linkUp := true, perst := false, causeReset := false }).busyEnd h
  else s

end Sys2Proof.Machine
end

