-- ==== Sys2Proof/Machine/Jobs.lean ====
section
/-!
DEFINITION. The host commands that act on a job: COPY_IN, COPY_OUT, POST, and the sub-operations of JOB (16 Table 16-4, R419, R428;
18 R467 and the job-load steps of 04 R129, 05 R155, 06 R187, 07 R214, 08 R240, 11 R304, 12 R334, 13 R357, 14 R380, 15 R409, 17 R455).
-/

namespace Sys2Proof.Machine

/-- Run a command of a job: NOT_OWNER for a function that did not load it (16 R419). -/
def State.runOnJob (s : State) (r : CmdRef) (op : Nat) (f : HCmd → JobSlot → State → State × Option Nat) : State :=
  s.runCmd r op fun c t =>
    match t.cmdJob c with
    | none => (t, some 4)
    | some j => f c j t

/-! ## COPY_IN and COPY_OUT -/

/-- The host bus address, the VA and the length of a copy, by version (16 Table 16-4, R428; log entry 12). -/
structure CopyArgs where
  host : Nat
  va : Nat
  len : Nat
  deriving DecidableEq, Repr

/-- The arguments of a copy; `out` marks COPY_OUT, which names the VA first. -/
def HCmd.copyArgs (c : HCmd) (out : Bool) : CopyArgs :=
  let a := c.arg 0 8
  let b := c.arg 8 8
  { host := if out then b else a, va := if out then a else b, len := c.arg 16 (if c.major = 2 then 2 else 8) }

/-- The most bytes that one copy moves (16 Table 16-4, R428, R429). -/
def HCmd.copyMax (c : HCmd) : Nat := if c.major = 3 then 2 ^ 32 else if c.minor < 3 then 4096 else 65535

/-- The translation of a page of 64 KiB for a copy: a walk of the port's die, with R or W, to HBM outside the region of queue contexts, to canvas, or to another
module (13 R342; log entries 51, 55). A malformed walk and a poisoned table line are faults of the job, as for an engine (13 R340). The outer `none` is a walk
whose table read is refused. -/
def State.copyPage (s : State) (p : HostPort) (j : JobSlot) (x : Xl) (wr : Bool) (va : Nat) : State × Option (Option (BitVec 52)) :=
  let d : DieId := Fin.ofNat 2 p.val
  let r := s.walk (.host p) d x.asid x.root va false
  if r.2.2 = .refused then (r.1, none)
  else
    let t := (r.1.modDie d fun y => { y with wc := wcFill y.wc r.2.1 }).bumpDie d 0x400000
    match r.2.2 with
    | .leaf lvl e =>
      let k := leafEnt x.asid va lvl e
      let pa : BitVec 52 := BitVec.ofNat 52 (k.pa.toNat + va % 2 ^ pageBits lvl)
      if (if wr then k.w else k.r) && !t.regionFault 5 pa then (t, some (some pa)) else (t, some none)
    | .malformed _ => ((t.recordFault j 0 7 5).fenceWrite j true, some none)
    | .poisoned => ((t.recordFault j 0 7 1).fenceWrite j true, some none)
    | _ => (t, some none)

/-- The pieces of a range of VAs by page: (VA, bytes). -/
def copyPieces (va len : Nat) : List (Nat × Nat) :=
  (List.range (cdiv (va % 65536 + len) 65536)).map fun i =>
    let lo := max va ((va / 65536 + i) * 65536)
    let hi := min (va + len) ((va / 65536 + i + 1) * 65536)
    (lo, hi - lo)

/-- Translate every piece: the address and the bytes of each; `some none` if one has no translation, `none` if a walk is refused. -/
def State.copyXlate (s : State) (h : HostPort) (j : JobSlot) (x : Xl) (wr : Bool) : List (Nat × Nat) → State × Option (Option (List (BitVec 52 × Nat)))
  | [] => (s, some (some []))
  | p :: ps =>
    let r := s.copyPage h j x wr (p.1 % 2 ^ 56)
    match r.2 with
    | none => (r.1, none)
    | some none => (r.1, some none)
    | some (some pa) =>
      let q := State.copyXlate r.1 h j x wr ps
      (q.1, q.2.map fun l => l.map fun l => (pa, p.2) :: l)

/-- The translation state of a job: that of its first mast. -/
def State.jobXl (s : State) (j : JobSlot) : Option Xl := (maskMasts (s.job j).masts).head?.map fun m => (s.mast m).xl

/-- The local lines of pieces. -/
def State.copyLines (s : State) (ps : List (BitVec 52 × Nat)) : List Line :=
  (ps.flatMap fun p => if s.isOwn p.1 then linesOf (localOf p.1) p.2 else []).eraseDups

/-- The homes of this module take the accesses of a copy, and then `go` moves the data. -/
def State.copyAsk (s : State) (h : HostPort) (ps : List (BitVec 52 × Nat)) (go : State → State × Option Nat) : State × Option Nat :=
  let g := s.ask (.host h) (s.copyLines ps)
  if g.2 then go g.1 else (g.1, none)

/-- A copy whose accesses to other modules have been sent waits for their answers. -/
def State.copyWait (s : State) (r : CmdRef) (ps : List (BitVec 52 × Nat)) : State × Option Nat :=
  (s.modHosts fun h => { h with cmds := updFirst (fun c => decide (c.ref = r ∧ c.status = none)) (fun c => { c with step := 1, pas := ps }) h.cmds }, none)

/-- A copy up to its data: its pieces are translated, or its status is known. `go` moves the data; `back` ends a copy that has waited for other modules. -/
def State.copyRun (s : State) (r : CmdRef) (op : Nat) (out : Bool) (back : HCmd → JobSlot → CopyArgs → State → State × Option Nat)
    (go : HCmd → JobSlot → CopyArgs → List (BitVec 52 × Nat) → State → State × Option Nat) : State :=
  s.runOnJob r op fun c j t =>
    let a := c.copyArgs out
    if c.step ≠ 0 then back c j a t
    else if a.len = 0 ∨ c.copyMax < a.len then (t, some 3)
    else match t.jobXl j with
      | none => (t, some 5)
      | some x =>
        if 2 ^ 56 ≤ a.va then (t, some 5)
        else
          let q := t.copyXlate r.fn.port j x (!out) (copyPieces a.va a.len)
          match q.2 with
          | none => (q.1, none)
          | some none => (q.1, some 5)
          | some (some ps) => q.1.copyAsk r.fn.port ps (go c j a ps)

/-- A request of a copy leaves for the module of its page, in class 1 (16 R419). -/
def State.copySend (s : State) (h : HostPort) (j : JobSlot) (pa : BitVec 52) (msg : OutMsg) : State :=
  s.sendTo (s.job j).jblk (nodeOf pa) h.val 1 msg

/-- The first piece of a copy that lies in another module. -/
def State.copyFar (s : State) (ps : List (BitVec 52 × Nat)) : Option (BitVec 52) := (ps.find? fun p => !s.isOwn p.1).map (·.1)

/-- The flits of the answers to a copy are counted at their ports, one for each line. -/
def State.copyFlits (s : State) (h : HostPort) (j : JobSlot) (ps : List (BitVec 52 × Nat)) : State :=
  ps.foldl (fun t p => if t.isOwn p.1 then t else t.flitsIn (Fin.ofNat 2 h.val) (nodeOf p.1) (t.job j).jobid (linesOf (localOf p.1) p.2).length) s

/-- COPY_IN: `data` is what the port reads of host memory; a shorter read is a failed one. With pages of another module, a second COPY_IN is the arrival of their
last acknowledgement (log entry 118). -/
def State.cmdCopyIn (s : State) (r : CmdRef) (data : List Byte) : State :=
  s.copyRun r 1 false (fun c j _ t =>
    if !(t.job j).fenced && Config.postRefused t.frees then (t.hostRefused j, some 8) else (t.copyFlits r.fn.port j c.pas, some 0)) fun _ j a ps t =>
    if data.length ≠ a.len then (t, some 9)
    else
      let u := (ps.foldl (fun (q : State × List Byte) p =>
        let bs := q.2.take p.2
        (if q.1.isOwn p.1 then q.1.writeBytes (localOf p.1) bs
         else (linePieces p.1.toNat bs).foldl (fun t w =>
           if w.2.isEmpty then t else t.copySend r.fn.port j p.1 (.wru (BitVec.ofNat 52 w.1) w.2 (t.job j).jobid none)) q.1, q.2.drop p.2)) (t, data)).1
      if ps.all fun p => t.isOwn p.1 then (u, some 0) else u.copyWait r ps

/-- The data of a copy are moved to host memory, or the port's access fails (16 Table 16-5). Poisoned data are a fault of the job (12 R331; log entry 53). -/
def State.copyTo (s : State) (j : JobSlot) (a : CopyArgs) (ps : List (BitVec 52 × Nat)) (w : CopyOutRun) : State × Option Nat :=
  let q := ps.foldl (fun (q : State × List Byte × Bool × List Byte) p =>
    if q.1.isOwn p.1 then let g := q.1.readBytes (localOf p.1) p.2; (g.1, q.2.1 ++ g.2.1, q.2.2.1 || g.2.2, q.2.2.2)
    else (q.1, q.2.1 ++ (q.2.2.2.take p.2 ++ List.replicate (p.2 - q.2.2.2.length) 0), q.2.2.1 || w.data.poison, q.2.2.2.drop p.2)) (s, [], false, w.data.bytes)
  let t := if q.2.2.1 then (q.1.recordFault j 0 7 1).fenceWrite j true else q.1
  if w.hostOk then (t.modHport w.ref.fn.port fun p => { p with mem := Mem.put p.mem a.host q.2.1 }, some 0) else (t, some 9)

/-- COPY_OUT. With pages of another module, whose reads leave, a second COPY_OUT brings their data (log entry 118). -/
def State.cmdCopyOut (s : State) (w : CopyOutRun) : State :=
  s.copyRun w.ref 2 true (fun c j a t =>
    let ok := match t.copyFar c.pas with | some pa => !w.data.refused && t.accepts (nodeOf pa) w.data.jobid | none => true
    if !ok then (t.hostRefused j, some 8)
    else (t.copyFlits w.ref.fn.port j c.pas).copyAsk w.ref.fn.port c.pas fun t => t.copyTo j a c.pas w) fun _ j a ps t =>
    if ps.all fun p => t.isOwn p.1 then t.copyTo j a ps w
    else
      (ps.foldl (fun t p =>
        if t.isOwn p.1 then t
        else (linePieces p.1.toNat (List.replicate p.2 0)).foldl (fun t q =>
          if q.2.isEmpty then t else t.copySend w.ref.fn.port j p.1 (.rdu (BitVec.ofNat 52 q.1) q.2.length (t.job j).jobid)) t) t).copyWait w.ref ps

/-! ## POST -/

/-- POST: the port posts a token in a slot of the job; the command completes once the post is visible. -/
def State.cmdPost (s : State) (r : CmdRef) : State :=
  s.runOnJob r 3 fun c j t =>
    let addr : BitVec 32 := BitVec.ofNat 32 (c.arg 0 4)
    let own := decide (tokenNode addr = t.nodeId)
    let ok := if own then decide ((slotOf addr).bind t.slotJob = some j) else inBlock t.shrCfg (t.job j).jblk (tokenNode addr)
    if badToken addr ∨ !ok then (t, some 3) else (t.post addr (.host r.fn.port) c.seq, none)

/-! ## JOB -/

/-- Run a sub-operation of JOB. -/
def State.runSub (s : State) (r : CmdRef) (sub : Nat) (f : HCmd → State → State × Option Nat) : State :=
  match s.startable r 5 with
  | some c => if c.arg 0 1 = sub then s.runCmd r 5 f else s
  | none => s

/-- The arguments of LOAD (18 Table 18-4). -/
structure LoadArgs where
  jslot : JobSlot
  asid : BitVec 12
  startPc : BitVec 17
  imlen : Nat
  jblk : Word
  masts : BitVec 128
  root : BitVec 42
  deriving DecidableEq, Repr

/-- Read from bytes 16 to 63 of the equivalent version 3 entry. -/
def loadArgs (a : List Byte) : LoadArgs :=
  { jslot := Fin.ofNat 8 (eb a 1 1), asid := BitVec.ofNat 12 (eb a 2 2), startPc := off17 (BitVec.ofNat 64 (eb a 4 3)), imlen := eb a 7 1
    jblk := BitVec.ofNat 64 (eb a 8 8) &&& jblkMask, masts := BitVec.ofNat 128 (eb a 16 16), root := BitVec.ofNat 42 (fld (eb a 32 8) 10 42) }

/-- LOAD and END queue the invalidation of the address space, once there is a place for it: scope 1 (13 R353, R357). -/
def State.invalJob (s : State) (r : CmdRef) (a : BitVec 12) : State :=
  let q := s.queueInv (BitVec.ofNat 64 (1 + 4 * a.toNat)) 0 (some r)
  if q.2 then
    q.1.modHosts fun h => { h with cmds := updFirst (fun c => decide (c.ref = r ∧ c.status = none)) (fun c => { c with step := 1 }) h.cmds }
  else s

/-- Whether the caches of masts are flushed and the invalidation that a LOAD or END waits for has completed (12 R334, 13 R357). -/
def State.jobClean (s : State) (c : HCmd) (ms : List MastId) : Bool := decide (c.step = 2) && ms.all fun m => !(s.mast m).dc.flushing

/-- The core of a mast when a job is loaded (14 R380, 18 R467): what LOAD does not carry are values of the firmware (log entry 13). -/
def Core.loaded (c : Core) (v : Nat → Word) (image : List Byte) : Core :=
  let tv := fun (b : Fin 4) (k : Nat) (c : Core) => c.modSys b fun y => { y with tvec := (off17 (v k)).setWidth 64, estatus := 0 }
  { tv 1 0 (tv 2 1 (tv 3 2 c)) with
    ulim := BitVec.ofNat 19 (limVal (v 3)), mlim := BitVec.ofNat 19 (limVal (v 4)), glimit := BitVec.ofNat 9 (wfld (v 5) 0 9)
    ien := BitVec.ofNat 16 (wfld (v 6) 0 16) ||| 0x200, ilvl := BitVec.ofNat 8 (wfld (v 7) 0 8), ipend := 0
    gate := Mem.put [] 0 ((List.range 2048).flatMap fun i => toBytes 8 (v (64 + i)).toNat)
    gateUsed := Mem.put [] 0 ((List.range 2048).flatMap fun i => toBytes 8 (v (64 + i)).toNat)
    imem := Mem.put c.imem 0 image }

/-- An array as the job-load steps leave it (06 R187, 07 R214). -/
def Arr.loaded (x : Arr) : Arr :=
  { x with queue := [], extra := 0, qent := [], saved := x.saved ++ packs x.extra x.queue, stopped := false, stopReq := false, faulted := false, passes := [], prevFolub := false
           passK := Arr.reset.passK, fires := [], sticky := 0
           bqs := x.bqs.map fun q => { q with armed := false, head := 0, set := false, trun := false, timer := 0 } }

/-- A mast as the job-load steps leave it. -/
def Mast.loaded (x : Mast) (a : LoadArgs) (v : Nat → Word) (image : List Byte) : Mast :=
  { x with
    core := x.core.loaded v image
    xl := { x.xl with root := a.root, asid := a.asid, fqSize := fqSizeOf (v 8), fqBase := BitVec.ofNat 40 (wfld (v 8) 12 40)
                      fqHead := 0, fqTail := 0, fqSeq := 0, fqEn := true, fqOvf := false, fqTimeout := false, fullPeriod := false
                      faults := [], miss := [] }
    num := { ovm := wbit (v 9) 0, ftz := wbit (v 9) 1, flags := 0 }
    vec := { x.vec with vreg := [], kreg := [], queue := [], extra := 0, qent := [], saved := x.vec.saved ++ packs x.vec.extra x.vec.queue
                        mem := none, mnext := 0, ready := [], tail := [], arith := none, failing := false, reqs := [], vidxA := 0, vidxM := 0, stopped := false, stopReq := false, faulted := false }
    tok := { x.tok with count := [], stallSent := 0 }
    arr := x.arr.map Arr.loaded
    tiles := Vector.replicate 16 Tile.reset, bankMem := []
    sheet := { x.sheet with queue := [], extra := 0, qent := [], saved := x.sheet.saved ++ packs x.sheet.extra x.sheet.queue, stopped := false, stopReq := false, faulted := false, row := 0, st := 0, beat := 0
                            fin := [], replies := [], owed := [], vals := [], hist := none, sticky := 0, breg := [] }
    hal := { x.hal with queue := [], extra := 0, qent := [], saved := x.hal.saved ++ packs x.hal.extra x.hal.queue, act := [], stopped := false, stopReq := false, faulted := false, exc := false
                        prog := Vector.replicate 2 HalProg.reset }
    jslot := a.jslot, jvalid := true }

/-- The masts of a list are all halted. -/
def State.allHalted (s : State) (ms : List MastId) : Bool := ms.all fun m => (s.mast m).core.halted

/-- A memory of a mast that a job load writes whole: the tiles, the bias registers and the banks. -/
def loadedCells (m : MastId) : Cell → Bool
  | .bank k _ | .tile k _ _ | .breg k _ => decide (k = m)
  | _ => false

/-- The descriptor that the firmware writes in a channel when it loads a job, if the job uses the channel: a value of the firmware (15 R409; log entry 13). -/
def jobChan (entry : List Byte) (j : JobSlot) (k : ChanId) : Option Desc :=
  let w := fun (i : Nat) => Config.jobValue (4096 + i) k.val entry
  if wbit (w 8) 0 then
    let d : Desc := BitVec.ofNat 512 ((List.range 8).foldr (fun i acc => (w i).toNat + 2 ^ 64 * acc) 0)
    some (BitVec.ofNat 512 (d.toNat - dfld d 0 10 3 * 2 ^ 10 + j.val * 2 ^ 10))
  else none

/-- A channel when a job is loaded in slot `j`: one that belongs to the slot is discarded and its flags cleared, and one that the job uses gets its descriptor. -/
def Chan.loaded (x : Chan) (j : JobSlot) (new : Option Desc) : Chan :=
  if x.jslot = j ∨ new.isSome then
    { x with st := 0, fault := 0, count := 0, run := 0, ranks := [], staged := [], early := [], flags := 0, desc := new.getD x.desc }
  else x

/-- The loading proper, with every core halted, every cache flushed and the address space invalidated: masts, the slot, its channels, FURL and a snapshot. -/
def State.loadJob (s : State) (c : HCmd) (a : LoadArgs) (image : List Byte) : State :=
  let ms := maskMasts a.masts
  let s := ms.foldl (fun t m =>
    let t := { t with
      check := Sparse.erase t.check (m.val * 16384) 16384
      acks := t.acks.filter fun a => a.m ≠ m
      making := t.making.filter fun k => k.m ≠ m
      tries := t.tries.filter fun q => nackMast q.who ≠ some m
      held := t.held.filter fun h => match h.1 with | .mast k _ => k ≠ m | .chan _ => true }
    (t.modMast m fun x => x.loaded a (fun k => Config.jobValue k m.val c.entry) image).mend (loadedCells m)) s
  let s := s.modJob a.jslot fun _ =>
    { Job.reset with jobid := BitVec.ofNat 16 (eb c.entry 8 2), valid := true, jblk := a.jblk, owner := some c.ref.fn, loaded := true, masts := a.masts
                     startPc := a.startPc, asid := a.asid }
  let s := s.eachChan fun k t =>
    let new := jobChan c.entry a.jslot k
    { t.modChan k fun x => x.loaded a.jslot new with
      held := t.held.filter fun h => !(decide (h.1 = .chan k) && (decide ((t.chan k).jslot = a.jslot) || new.isSome)) }
  (s.modPow fun p => { p with furl := BitVec.ofNat 24 (wfld (Config.jobValue 10 0 c.entry) 0 24) }).snapReq

/-- JOB LOAD: the cores halt, then their caches are flushed and the address space is invalidated, then the job is loaded. `image` is what the port reads at IMAGE, `param` the parameter block of a version 2 entry. -/
def State.jobLoad (s : State) (r : CmdRef) (image param : List Byte) : State :=
  s.runSub r 0 fun c t =>
    let v2 := decide (c.major = 2)
    if v2 ∧ param.length ≠ 48 then (t, some 9)
    else
      let bs := if v2 then param else c.entry.drop 16
      let a := loadArgs bs
      let ms := maskMasts a.masts
      if 7 < eb bs 1 1 ∨ a.imlen = 0 ∨ 112 < a.imlen ∨ a.root.toNat / 2 ^ 28 ≠ t.nodeId.toNat ∨ canvasBase ≤ a.root.toNat * 2 ^ 10 % 2 ^ 38 then
        (t, some 3)
      else if (t.job a.jslot).valid ∨ ms.any fun m => (t.mast m).jvalid then (t, some 6)
      else if !t.allHalted ms then (ms.foldl (fun t m => t.ccStop m) t, none)
      else if c.step = 0 then ((ms.foldl (fun t m => t.dcFlush m) t).invalJob r a.asid, none)
      else if !t.jobClean c ms then (t, none)
      else if image.length ≠ 1024 * a.imlen then (t, some 9)
      else (t.loadJob c a image, some 0)

/-- Run a sub-operation of JOB other than LOAD. -/
def State.runSubOn (s : State) (r : CmdRef) (sub : Nat) (f : HCmd → JobSlot → State → State × Option Nat) : State :=
  s.runSub r sub fun c t =>
    match t.cmdJob c with
    | none => (t, some 4)
    | some j => f c j t

/-- JOB START: every mast starts at START_PC, at level S in bank 1 with IM set; the command completes once each core has issued a bundle. -/
def State.jobStart (s : State) (r : CmdRef) : State :=
  s.runSubOn r 1 fun _ j t =>
    let x := t.job j
    if x.fenced then (t, some 8)
    else if !x.loaded ∨ x.started then (t, some 6)
    else
      let ms := maskMasts x.masts
      let t := ms.foldl (fun t m => t.modCore m fun c =>
        { c with halted := false, stopReq := false, npc := x.startPc.setWidth 18, level := 1, im := true, bank := 1, opening := [], waiting := none }) t
      let b := ms.foldl (fun b m => Sparse.set b m.val (Sparse.get (t.mast m).cnt 0x38)) ([] : Tab)
      (t.modJob j fun x => { x with started := true, bundles := b }, none)

/-- JOB FENCE: it completes once the engines have stopped (15 R398). -/
def State.jobFence (s : State) (r : CmdRef) : State := s.runSubOn r 2 fun _ j t => (t.fenceWrite j false, none)

/-- The engines of masts are emptied and their data caches flushed. -/
def State.endEngines (s : State) (ms : List MastId) : State :=
  ms.foldl (fun t m => (((((t.vecDiscard m).arrDiscard m 0).arrDiscard m 1).sheetDiscard m).halDiscard m).dcFlush m) s

/-- A job ends: its masts and its slot are free (18 R467). -/
def State.endJob (s : State) (j : JobSlot) : State :=
  ((maskMasts (s.job j).masts).foldl (fun t m => t.modMast m fun y => { y with jvalid := false }) s).modJob j fun y =>
    { Job.reset with jobid := y.jobid, jblk := y.jblk }

/-- JOB END: it waits until every core is halted and every engine stopped, then until the caches are flushed and the address space is invalidated. -/
def State.jobEnd (s : State) (r : CmdRef) : State :=
  s.runSubOn r 3 fun c j t =>
    let t := t.fenceWrite j false
    let ms := maskMasts (t.job j).masts
    if !t.allHalted ms then (ms.foldl (fun t m => t.ccStop m) t, none)
    else if !ms.all (fun m => (t.mast m).enginesStopped) then (t, none)
    else if c.step = 0 then ((t.endEngines ms).invalJob r (t.job j).asid, none)
    else if !t.jobClean c ms then (t, none)
    else (t.endJob j, some 0)

end Sys2Proof.Machine
end

