-- ==== Sys2Proof/Machine/RegRead.lean ====
section
/-!
DEFINITION. What each register and window word reads as (the register-field tables of chapters 01 to 18; 01 R20, 14 R379, 17 R445). A write
of 4 bytes keeps the RW fields of the other half as they read.
-/

namespace Sys2Proof.Machine

/-- Fields from the low bits up: (value, width). -/
def pack : List (Nat × Nat) → Nat
  | [] => 0
  | (v, w) :: t => v % 2 ^ w + 2 ^ w * pack t

/-- A word of fields. -/
def packW (fs : List (Nat × Nat)) : Word := BitVec.ofNat 64 (pack fs)

/-- A word of a byte window. -/
def winWord (m : Mem) (w : Nat) : Word := BitVec.ofNat 64 (Mem.load m (8 * w) 8)

/-- Whether an engine is reefed, as its STATUS shows it. -/
def Mast.reefed (x : Mast) (e : EngId) : Nat := b2n (decide (sailOf x e ≠ 0))

/-! ## Per-mast registers -/

/-- Register `i` of bank `b` through CC_BANK (14 Table 14-7). -/
def Core.bankWord (c : Core) (b : Fin 4) (i : Nat) : Word :=
  let k := c.banks.get b
  let y := c.sys.get b
  if i ≤ 16 then k.reg i else if i = 17 then k.vl else if i = 18 then k.vtype
  else if b = 0 then 0
  else match i with
    | 19 => y.cause | 20 => y.epc | 21 => y.estatus | 22 => y.tvec | 23 => y.tval | 24 => y.scratch | _ => 0

/-- Whether an agent may read bank `b` through CC_BANK now (14 R379). -/
def bankReadable (c : Core) (own : Bool) (b : Fin 4) : Bool := c.halted || (own && decide (b ≠ c.bank))

/-- Whether the sheet engine runs a descriptor or has writes in flight. -/
def Sheet.busy (x : Sheet) : Bool := decide (x.st = 1) || !x.fin.isEmpty

/-- The oldest unfinished descriptor of the sheet engine; 0 with none. -/
def Sheet.descBase (x : Sheet) : Nat :=
  match x.fin ++ x.queue with
  | c :: _ => 64 * c.daddr.toNat
  | [] => 0

/-- The value of a control-core, cache, translation or trap register. -/
def coreVal (x : Mast) (own : Bool) : MReg → Word
  | .ccStatus => packW [(b2n x.core.halted, 1), (b2n x.core.xwerr, 1), (x.core.level.toNat, 2), (x.core.bank.val, 2)]
  | .ccPc => x.core.pc.setWidth 64
  | .ccStartPc => x.core.startPc.setWidth 64
  | .numCtl => packW [(b2n x.num.ovm, 1), (b2n x.num.ftz, 1)]
  | .numFlags => x.num.flags.setWidth 64
  | .dcStatus => packW [(b2n x.dc.flushing, 1)]
  | .xlRoot => packW [(0, 10), (x.xl.root.toNat, 42), (x.xl.asid.toNat, 12)]
  | .fqBase => packW [(x.xl.fqSize.toNat, 4), (0, 8), (x.xl.fqBase.toNat, 40)]
  | .fqHead => x.xl.fqHead.setWidth 64
  | .fqTail => x.xl.fqTail.setWidth 64
  | .fqStatus => packW [(b2n x.xl.fqEn, 1), (b2n x.xl.fqFull, 1), (b2n x.xl.fqOvf, 1), (b2n x.xl.fqTimeout, 1)]
  | .fqSeq => x.xl.fqSeq.setWidth 64
  | .irqSet => packW [(x.core.ipend.toNat, 10)]
  | .tstate =>
    let npc := if x.core.halted then x.core.npc.setWidth 17 else Config.npcRunning x.core.npc
    packW [(0, 2), (npc.toNat / 4, 15), (b2n x.core.im, 1), (x.core.level.toNat, 2), (x.core.bank.val, 2)]
  | .bankWin b i => if bankReadable x.core own b then x.core.bankWord b i else 0
  | .mastJob => packW [(x.jslot.val, 3), (b2n x.jvalid, 1)]
  | .snapTag => x.snapTag.setWidth 64
  | .sailStatus => x.sail.setWidth 64
  | .gate w => winWord x.core.gate w
  | .ldm w => winWord x.core.ldm w
  | .imem w => winWord x.core.imem w
  | _ => 0

/-- The value of a register of the sheet engine, the halyard, canvas, the tokens or the long-vector unit. `m` is the mast, `chk` the check array.
MEM_BUSY stays 1 while a request of the memory pipe is outstanding, its pipe occupancy being at an end or not (DESIGN CHOICE, log entry 120). -/
def engVal (x : Mast) (m : MastId) (chk : Tab) (held : Fin 96 → Bool) : MReg → Word
  | .sheetStatus => packW [(b2n x.sheet.stopped, 1), (b2n x.sheet.faulted, 1), (b2n x.sheet.busy, 1), (x.reefed 4, 1), (b2n x.sheet.xwerr, 1)]
  | .sheetDescBase => packW [(x.sheet.descBase, 18)]
  | .sheetProg => packW [(x.sheet.row.toNat, 16), (x.sheet.st.toNat, 2)]
  | .sheetFault => packW [(x.sheet.fKind.toNat, 4), (x.sheet.fDaddr.toNat, 12), (x.sheet.fRow.toNat, 16), (x.sheet.fPc.toNat, 17)]
  | .sheetSticky => x.sheet.sticky.setWidth 64
  | .sheetQlen => packW [((packs x.sheet.extra x.sheet.queue).length, 5)]
  | .sheetQent i => (entWords Config.sheetSaved 8 x.sheet.qent (packs x.sheet.extra x.sheet.queue) (i / 8)).getD (i % 8) 0
  | .halStatus => packW [(b2n x.hal.stopped, 1), (b2n x.hal.faulted, 1), (b2n (x.hal.busyCh 0), 1), (b2n (x.hal.busyCh 1), 1),
      (x.reefed 5, 1), (b2n x.hal.xwerr, 1)]
  | .halFaultVa => x.hal.faultVa.setWidth 64
  | .halFaultInfo => packW [(x.hal.fKind.toNat, 4), (x.hal.fSide.toNat, 2), (b2n x.hal.fCh, 1), (x.hal.fDaddr.toNat, 12), (x.hal.fPc.toNat, 17),
      (x.hal.fBlock.toNat, 24)]
  | .halProg h => let p := x.hal.prog.get h; packW [(p.lines.toNat, 30), (p.st.toNat, 2), (b2n p.dwok, 1)]
  | .halQlen => packW [((packs x.hal.extra x.hal.queue).length, 5)]
  | .halQent i => (entWords Config.halSaved 8 x.hal.qent (packs x.hal.extra x.hal.queue) (i / 8)).getD (i % 8) 0
  | .canvCtl => packW [(b2n x.canv.scrub, 1)]
  | .canvEcc => packW [((Sparse.get x.shadow 0x1C008).toNat, 60), (b2n x.canv.ue, 1)]
  | .chkSel => x.canv.sel.setWidth 64
  | .check i => Sparse.get chk (m.val * 16384 + x.canv.sel.toNat * 4096 + i)
  | .tokenCnt i => packW [((Sparse.get x.tok.count i.val).toNat, 8), (b2n (held i), 1)]
  | .tokenCtl => packW [(0, 1), (b2n x.tok.stallEn, 1)]
  | .vecStatus => packW [(b2n x.vec.stopped, 1), (b2n x.vec.faulted, 1), (b2n (x.vec.arith.isSome && Config.arithBusy x.core.seq), 1), (b2n (x.vec.mem.isSome || !x.vec.reqs.isEmpty), 1),
      (x.reefed 1, 1), (b2n x.vec.xwerr, 1)]
  | .vidx => packW [(x.vec.vidxA.toNat, 16), (x.vec.vidxM.toNat, 10)]
  | .vecFaultVa => x.vec.faultVa.setWidth 64
  | .vecFaultInfo => packW [(x.vec.faultPc.toNat, 17), (b2n x.vec.faultWr, 1), (x.vec.faultKind.toNat, 3), (0, 11), (x.vec.faultElem.toNat, 10)]
  | .vecQlen => packW [((packs x.vec.extra x.vec.queue).length, 5)]
  | .vecQent i => (entWords Config.vecSaved 4 x.vec.qent (packs x.vec.extra x.vec.queue) (i / 4)).getD (i % 4) 0
  | .vreg w => if x.vec.stopped then winWord x.vec.vreg w else 0
  | .kreg w => if !x.vec.stopped then 0 else if w < 16 then BitVec.allOnes 64 else winWord x.vec.kreg w
  | .breg w => winWord x.sheet.breg w
  | _ => 0

/-- Whether the ACC_TILE window may not show the selected tile now (07 R212). -/
def Mast.tileHeld (x : Mast) : Bool :=
  let t : Fin 16 := Fin.ofNat 16 x.wsel.toNat
  !(x.arr.get (Fin.ofNat 2 (t.val / 8))).stopped && decide ((x.tiles.get t).inflight ≠ 0)

/-- The value of a register of an array, the tiles, the batch queues or a bank. -/
def arrVal (x : Mast) : MReg → Word
  | .arrStatus a =>
    let y := x.arr.get a
    let busy := !y.fires.isEmpty || (fins 8).any fun i => decide ((x.tiles.get (Fin.ofNat 16 (8 * a.val + i.val))).inflight ≠ 0)
    packW [(b2n y.stopped, 1), (b2n y.faulted, 1), (b2n busy, 1), (x.reefed (Fin.ofNat 6 (2 + a.val)), 1),
      (b2n y.xwerr, 1), (b2n ((y.passes.any fun p => p.cmd.twin) || y.queue.any fun k => k.twin && k.modes.isSome), 1)]
  | .arrFaultInfo a =>
    let y := x.arr.get a
    packW [(y.fKind.toNat, 4), (y.fTile.toNat, 4), (y.fKdone.toNat, 10), (y.fDaddr.toNat, 12), (b2n y.fBatch, 1), (y.fBq.toNat, 2)]
  | .arrFaultPc a => (x.arr.get a).fPc.setWidth 64
  | .arrQlen a => packW [((packs (x.arr.get a).extra (x.arr.get a).queue).length, 5)]
  | .arrQent a i => (entWords Config.arrSaved 8 (x.arr.get a).qent (packs (x.arr.get a).extra (x.arr.get a).queue) (i / 8)).getD (i % 8) 0
  | .passK t =>
    let k := (x.arr.get (Fin.ofNat 2 (t.val / 8))).passK.get (Fin.ofNat 8 t.val)
    packW [(k.kdone.toNat, 10), (k.ktotal.toNat, 10), (k.st.toNat, 2), (b2n k.rig, 1), (k.rows.toNat, 7)]
  | .bqcfg a q w => BitVec.ofNat 64 (dword ((x.arr.get a).bqs.get q).cfg w)
  | .bqstat a q =>
    let k := (x.arr.get a).bqs.get q
    packW [(b2n k.armed, 1), (k.head.toNat, 10), (b2n k.set, 1), (b2n k.trun, 1), (k.timer.toNat, 20)]
  | .rowmap w => winWord x.rowmap w
  | .accMeta t =>
    let y := x.tiles.get t
    packW [(y.type.toNat, 2), (b2n y.rig, 1), (b2n y.folub, 1), (y.repeats.toNat, 3), (0, 1), (y.shift.toNat, 6), (0, 2), (y.inflight.toNat, 5)]
  | .accScale t => let y := x.tiles.get t; packW [(y.rscale.toNat, 32), (y.cscale.toNat, 32)]
  | .accSticky a => (x.arr.get a).sticky.setWidth 64
  | .accWsel => x.wsel.setWidth 64
  | .bankMem w => winWord x.bankMem w
  | .accTile w => if x.tileHeld then 0 else Sparse.get (x.tiles.get (Fin.ofNat 16 x.wsel.toNat)).ents w
  | _ => 0

/-- The value of a per-mast register, as `who` reads it. -/
def State.mastVal (s : State) (who : Who) (m : MastId) (r : MReg) : Word :=
  let x := s.mast m
  let own : Bool := decide (who = .core m .m)
  match r with
  | .count off => Sparse.get x.shadow off
  | _ => coreVal x own r ||| engVal x m s.check (fun i => s.held.any fun h => decide (h.1 = .mast m i)) r ||| arrVal x r

/-! ## Per-die, per-module and Crowsnest registers -/

/-- The value of a per-die register. -/
def State.dieVal (s : State) (d : DieId) : DReg → Word
  | .count off => Sparse.get (s.die d).shadow off
  | .hbmCtl k => let h := (s.die d).hbm.get k; packW [(b2n h.scrub, 1), (0, 7), (h.interval.toNat, 16)]
  | .hbmStatus k => let h := (s.die d).hbm.get k; packW [(b2n h.trained, 1), (b2n h.ueSeen, 1)]
  | .hbmErrlog k => let h := (s.die d).hbm.get k; packW [(h.errPa.toNat, 38), (b2n h.errValid, 1), (b2n h.errScrub, 1)]
  | .scStatus k =>
    packW [(b2n ((s.die d).scFlush.getLsbD k.val), 1), ((s.resvs.filter fun v => decide (homeOf (lineAddr v.line) = (d, k))).length, 5)]
  | .snapTag => (s.die d).snapTag.setWidth 64
  | .snapInfl n i => Sparse.get s.snap.infl ((64 * d.val + n.val) * 6 + i.val)
  | .scCtl _ => 0

/-- The value of a per-module register. -/
def State.modVal (s : State) : UReg → Word
  | .count off => Sparse.get s.snap.shadow off
  | .nodeId => s.nodeId.setWidth 64
  | .xlInvVa => packW [(0, 16), (s.invVa.toNat, 40)]
  | .xlInvStatus => packW [(b2n (!s.invs.isEmpty), 1), (b2n s.invDone, 1), (b2n s.invOvf, 1), (s.invs.length, 3)]
  | .shrCfg =>
    let c := s.shrCfg
    packW [(c.size0.toNat, 4), (c.size1.toNat, 4), (c.size2.toNat, 3), (0, 1), (c.size3.toNat, 3), (0, 1), (b2n c.planes, 1)]
  | .shrPctl p => packW [(b2n (s.sport p).en, 1), (0, 1), (b2n (s.sport p).v2only, 1)]
  | .shrPstatus p =>
    let x := s.sport p
    packW [(b2n x.plugged, 1), (b2n x.up, 1), (b2n x.training, 1), (x.ver.toNat, 2), (b2n x.downv2, 1), (b2n x.miscable, 1), (b2n x.lost, 1),
      (x.peerNode.toNat, 14), (x.peerPort.toNat, 4)]
  | .shrPlat p => packW [((s.sport p).lat.toNat, 12), ((s.sport p).rtt.toNat, 12)]
  | .shrJob j =>
    let x := s.job j
    packW [(x.jobid.toNat, 16), (b2n x.valid, 1), (b2n x.fenced, 1), (x.reason.toNat, 3), (blkRank s.shrCfg x.jblk s.nodeId, 14)]
  | .shrJblk j => (s.job j).jblk
  | .rcDesc c w => BitVec.ofNat 64 (dword (s.chan c).desc w)
  | .rcStatus c => packW [((s.chan c).st.toNat, 2), ((s.chan c).flags.toNat, 5), ((s.chan c).fault.toNat, 3)]
  | .rcToken c => packW [((s.chan c).count.toNat, 8), (b2n (s.held.any fun h => decide (h.1 = .chan c)), 1)]
  | .snapCtl => packW [(0, 1), (b2n s.snap.busy, 1)]
  | .snapSeq => s.snap.seq.setWidth 64
  | .jobFlt j => BitVec.ofNat 64 (s.job j).fltWord
  | .jobFltCnt j => (s.job j).fltCnt.setWidth 64
  | .xlInvCmd | .shrJctl _ | .rcCtl _ => 0

/-- The value of a Crowsnest register. -/
def State.crowVal (s : State) : CReg → Word
  | .pwrTrim => packW [(s.pow.trimReq.toNat, 2), (s.pow.trimCur.toNat, 2), (b2n s.pow.changing, 1)]
  | .pwrStatus =>
    packW [(s.pow.gov.toNat, 4), (b2n s.pow.overcap, 1), (b2n s.pow.thermal, 1), (b2n s.pow.infault, 1), (0, 9), (s.pow.cap.toNat, 16)]
  | .pwrTelem => packW [(s.pow.vin.toNat, 16), (s.pow.iin.toNat, 16), (s.pow.pin.toNat, 16), (s.pow.tmax.toNat, 8)]
  | .sailCfg => s.pow.furl.setWidth 64
  | .svcState =>
    packW [((match s.svc.strike with | .idle => 0 | .draining => 1 | .clear => 2), 2), (b2n s.svc.forced, 1), (b2n s.svc.lever, 1),
      (b2n s.svc.locate, 1), (s.pattern, 4)]
  | .bootStatus =>
    let b := s.boot
    packW [(b.stage.toNat, 3), (b2n b.cnBank, 1), (b.fail.toNat, 4), (b.revoked.toNat, 4), (b.runCn.keyidx.toNat, 2), (b.runMast.keyidx.toNat, 2),
      (b2n b.fallback, 1), (0, 15), (b.resets.toNat, 32)]
  | .fuseSvn => packW [(s.boot.fuseCn.toNat, 7), (0, 1), (s.boot.fuseMast.toNat, 7)]
  | .fwCtl => packW [(0, 8), (b2n s.boot.fwBusy, 1), (s.boot.fwResult.toNat, 3)]
  | .attCtl => packW [(0, 1), (b2n s.boot.attBusy, 1), (b2n s.boot.attDone, 1)]
  | .attNonce w => winWord s.boot.nonce w
  | .attReport w => winWord s.boot.report w
  | .attCert w => winWord s.boot.cert w
  | .fwStage w => winWord s.boot.stageMem w
  | .svcCtl | .modRst => 0

/-- The value of a register of the window, as `who` reads it. -/
def State.regVal (s : State) (who : Who) : Reg → Word
  | .mast m r => s.mastVal who m r
  | .die d r => s.dieVal d r
  | .module r => s.modVal r
  | .crow r => s.crowVal r

/-- A read of a register: a read of a tile that passes have in flight reads 0 and sets XWERR of its array (07 R212). -/
def State.regRead (s : State) (who : Who) (r : Reg) : State × Word :=
  match r with
  | .mast m (.accTile _) =>
    if (s.mast m).tileHeld then (s.modArr m (Fin.ofNat 2 ((s.mast m).wsel.toNat / 8)) fun x => { x with xwerr := true }, 0)
    else (s, s.regVal who r)
  | _ => (s, s.regVal who r)

/-- The syllables of word `w` of the IMEM window that an access of `n` bytes touches. -/
def imemHalves (m : MastId) (w pa n : Nat) : Cell → Bool
  | .imem k i => decide (k = m ∧ i / 2 = w ∧ (n = 8 ∨ i % 2 = pa / 4 % 2))
  | _ => false

/-- The `n` bytes at a local address of the register window (01 R20), 4 or 8 of them. The words of LDM and IMEM meet their codes (02 R51). -/
def State.regReadBytes (s : State) (who : Who) (pa n : Nat) : State × List Byte :=
  match regOk pa n false with
  | none => (s, toBytes n 0)
  | some r =>
    let q := s.regRead who r
    let s := match r with
      | .mast m (.ldm w) => q.1.coreEcc m (fun c => decide (c = .ldm m w)) (fun _ => false) fun _ => false
      | .mast m (.imem w) => q.1.coreEcc m (fun _ => false) (imemHalves m w pa n) fun _ => false
      | _ => q.1
    (s, toBytes n (q.2.toNat / 2 ^ (8 * (pa % 8))))

/-! ## A function's own registers (16 R430) -/

/-- Whether BAR0 of a host function lists a register at an offset: HOST_ATTN is of the physical function alone (16 Table 16-7). -/
def barListed (f : FnId) (off : Nat) : Bool :=
  decide (off % 8 = 0 ∧ off ≤ 0x40) || decide (off = 0x1000 ∨ off = 0x1008 ∨ off = 0x1010) || (decide (off = 0x2000) && decide (f.fn = 0))

/-- What completes an access to BAR0 without reaching a register: Completer Abort for another size or alignment, Unsupported Request at an offset that is not
listed (16 R411, R430). -/
def barStop (f : FnId) (off size : Nat) : Option Cpl :=
  if size ≠ 8 ∨ off % 8 ≠ 0 then some .ca else if !barListed f off then some .ur else none

/-- The value of a register of BAR0 of a host function (16 Table 16-8). -/
def State.barVal (s : State) (f : FnId) (off : Nat) : Word :=
  let x := s.hfn f
  match off with
  | 0x0 => packW [(1, 8), (3, 8)]
  | 0x8 => packW [(0, 16), (x.ver.toNat, 16)]
  | 0x10 => packW [(b2n (decide ((s.hport f.port).hsig ≠ .busy) && decide ((s.hport f.port).hsig ≠ .pulse)), 1), ((s.busyWhy f.port).getD 0, 2)]
  | 0x18 => packW [(x.aqSz.toNat, 4), (0, 8), (x.aqBase.toNat, 52)]
  | 0x20 => packW [(x.acqSz.toNat, 4), (0, 8), (x.acqBase.toNat, 52)]
  | 0x28 => packW [(x.evSz.toNat, 4), (0, 8), (x.evBase.toNat, 52)]
  | 0x30 => packW [(b2n x.arm, 1), (x.evHead.toNat, 12), (x.evTail.toNat, 12), (x.lost.toNat, 16)]
  | 0x38 => packW [(x.dbOwn.toNat, 16), (b2n x.verErr, 1), (b2n x.cqh, 1)]
  | 0x40 => x.ctxMiss
  | 0x2000 => (s.hport f.port).attn.setWidth 64
  | _ => 0

/-- How a read of BAR0 of a host function completes; none while the port is off (16 R411, R430). -/
def State.barRead (s : State) (f : FnId) (off size : Nat) : Option Cpl :=
  if !s.portOn f.port then none else some ((barStop f off size).getD (.data (s.barVal f off)))

/-- How an access of a host to the register window completes without reaching a register: Completer Abort where it breaks 01 R19 (16 R411). -/
def windowStop (pa size : Nat) (wr : Bool) : Option Cpl := if (regOk pa size wr).isNone then some .ca else none

/-- How a read of the register window through BAR2 of a port completes; none while the port is off. -/
def State.windowRead (s : State) (h : HostPort) (pa size : Nat) : State × Option Cpl :=
  if !s.portOn h then (s, none)
  else match windowStop pa size false with
    | some c => (s, some c)
    | none => let q := s.regReadBytes (.host h) pa size; (q.1, some (.data (BitVec.ofNat 64 (ofBytes q.2))))

end Sys2Proof.Machine
end

