-- ==== Sys2Proof/Machine/RegWrite.lean ====
section
/-!
DEFINITION. Writes of the register window and of the host functions' own registers (01 R18-R20, R474; the register-field tables of chapters 01
to 18; 13 R356, 14 R379, 15 R408, 16 R430, 17 R454, 18 R473). A write to a register whose bits act calls the operation of that action; the
action bits of one write act from the lowest up (log entry 56).
-/

namespace Sys2Proof.Machine

/-- What a write brings: every bit of the register with the RW fields of an unwritten half as they read, the written bits alone, and whether
the low half is written (01 R20). -/
structure RegIn where
  full : Word
  part : Word
  low : Bool
  deriving DecidableEq, Repr

/-- Bit `i` of what is written. -/
def RegIn.bit (v : RegIn) (i : Nat) : Bool := wbit v.part i
/-- A field of the merged value. -/
def RegIn.fld (v : RegIn) (lo w : Nat) : Nat := wfld v.full lo w

/-- Put a window word into a byte memory. -/
def putWord (m : Mem) (w : Nat) (v : RegIn) : Mem := Mem.store m (8 * w) 8 v.full.toNat

/-- Do an operation if a bit is written as 1. -/
def State.ifBit (s : State) (v : RegIn) (i : Nat) (f : State → State) : State := if v.bit i then f s else s

/-! ## Per-mast registers -/

/-- Write register `i` of bank `b` through CC_BANK. VL and VTYPE are kept as written, a VL above VLMAX and reserved codes too (log entry 96). -/
def Core.setBankWord (c : Core) (b : Fin 4) (i : Nat) (v : Word) : Core :=
  let c := c.modBank b fun k =>
    let k := { k with heads := Vector.replicate 3 [] }
    if i ≤ 6 then k.setReg i v
    else if 8 ≤ i ∧ i ≤ 16 then { k with loopWrites := k.loopWrites.filter fun w => w.code ≠ i }.setLoop i (loopVal i v)
    else if i = 17 then { k with vl := v }
    else if i = 18 then { k with vtype := v &&& 0x7F }
    else k
  if b = 0 then c
  else c.modSys b fun y =>
    match i with
    | 19 => { y with cause := v &&& 0x3FFF }
    | 20 => { y with epc := (off17 v).setWidth 64 }
    | 21 => { y with estatus := BitVec.ofNat 64 (wfld v 0 3 + 16 * wfld y.estatus 4 2 + 64 * wfld v 6 1) }
    | 22 => { y with tvec := (off17 v).setWidth 64 }
    | 23 => { y with tval := v }
    | 24 => { y with scratch := v }
    | _ => y

/-- A CC_BANK write (14 R379). -/
def State.bankWrite (s : State) (m : MastId) (own : Bool) (b : Fin 4) (i : Nat) (v : Word) : State :=
  let c := (s.mast m).core
  if c.halted || (own && decide (b ≠ c.bank)) then s.modCore m fun c => c.setBankWord b i v else s.xwerr m

/-- A write of the gate table (14 R374): only M code writes it; an own-core write is used by gates after a FENCE that follows it. -/
def State.gateWrite (s : State) (m : MastId) (who : Who) (w : Nat) (v : RegIn) : State :=
  match who with
  | .core k .m =>
    s.modCore m fun c =>
      { c with gate := putWord c.gate w v, gateUsed := if k = m && !c.fenced then c.gateUsed else putWord c.gateUsed w v }
  | _ => s

/-- A write of LDM or IMEM through its window: from outside the mast only while the core is halted (02 R78). -/
def State.coreWindow (s : State) (m : MastId) (own : Bool) (f : Core → Core) : State :=
  if own || (s.mast m).core.halted then s.modCore m f else s.xwerr m

/-- A write that needs the core halted; XWERR is set otherwise. -/
def State.ifHalted (s : State) (m : MastId) (f : Xl → Xl) : State :=
  if (s.mast m).core.halted then s.modXl m f else s.xwerr m

/-- Write a control-core, cache, translation or trap register. -/
def State.writeCore (s : State) (who : Who) (m : MastId) (r : MReg) (v : RegIn) : State :=
  let own : Bool := decide (who = .core m .m)
  let sLevel : Bool := match who with | .core _ .s => true | _ => false
  match r with
  | .ccCtl => (s.ifBit v 0 fun t => t.ccStart m).ifBit v 1 fun t => t.ccStop m
  | .ccStatus => s.modCore m fun c => { c with xwerr := c.xwerr && !v.bit 1 }
  | .ccStartPc => s.modCore m fun c => { c with startPc := off17 v.full }
  | .numCtl => s.modMast m fun x => { x with num := { x.num with ovm := wbit v.full 0, ftz := wbit v.full 1 } }
  | .numFlags => s.modMast m fun x => { x with num := { x.num with flags := x.num.flags &&& ~~~v.part.setWidth 32 } }
  | .dcCtl => s.ifBit v 0 fun t => t.dcFlush m
  | .xlRoot => s.ifHalted m fun x => { x with root := BitVec.ofNat 42 (v.fld 10 42), asid := BitVec.ofNat 12 (v.fld 52 12) }
  | .fqBase => s.fqBaseWrite m v.full
  | .fqHead => s.fqHeadWrite m v.full
  | .fqTail => (s.ifHalted m fun x => { x with fqTail := BitVec.ofNat 12 (v.fld 0 12) }).endPeriod m
  | .fqSeq => s.ifHalted m fun x => { x with fqSeq := BitVec.ofNat 32 (v.fld 0 32) }
  | .fqStatus => s.modXl m fun x =>
      { x with fqEn := if sLevel then x.fqEn else wbit v.full 0, fqOvf := x.fqOvf && !v.bit 2, fqTimeout := x.fqTimeout && !v.bit 3 }
  | .irqSet => s.irqSet m (BitVec.ofNat 8 (wfld v.part 0 8))
  | .bankWin b i => s.bankWrite m own b i v.full
  | .mastJob =>
    if (s.mast m).core.halted then s.modMast m fun x => { x with jslot := Fin.ofNat 8 (v.fld 0 3), jvalid := wbit v.full 3 } else s
  | .gate w => s.gateWrite m who w v
  | .ldm w => s.coreWindow m own fun c => { c with ldm := putWord c.ldm w v }
  | .imem w => s.coreWindow m own fun c => { c with imem := putWord c.imem w v }
  | _ => s

/-- A write of the long-vector unit that needs it stopped (04 R130). -/
def State.ifVec (s : State) (m : MastId) (f : Vec → Vec) : State := s.modVec m fun x => if x.stopped then f x else { x with xwerr := true }
/-- The same for the sheet engine (08 R239). -/
def State.ifSheet (s : State) (m : MastId) (f : Sheet → Sheet) : State := s.modSheet m fun x => if x.stopped then f x else { x with xwerr := true }
/-- The same for the halyard (11 R303). -/
def State.ifHal (s : State) (m : MastId) (f : Hal → Hal) : State := s.modHal m fun x => if x.stopped then f x else { x with xwerr := true }
/-- The same for an array (06 R187). -/
def State.ifArr (s : State) (m : MastId) (a : ArrId) (f : Arr → Arr) : State :=
  s.modArr m a fun x => if x.stopped then f x else { x with xwerr := true }

/-- Write a register of the sheet engine, the halyard, canvas, the tokens or the long-vector unit. -/
def State.writeEng (s : State) (m : MastId) (r : MReg) (v : RegIn) : State :=
  match r with
  | .sheetCtl => ((s.ifBit v 0 fun t => t.sheetStop m).ifBit v 1 fun t => t.sheetRun m).ifBit v 2 fun t => t.sheetDiscard m
  | .sheetStatus => s.modSheet m fun x => { x with xwerr := x.xwerr && !v.bit 4 }
  | .sheetProg => s.ifSheet m fun x => { x with row := BitVec.ofNat 16 (v.fld 0 16), st := BitVec.ofNat 2 (v.fld 16 2) }
  | .sheetSticky => s.modSheet m fun x => { x with sticky := x.sticky &&& ~~~v.part.setWidth 4 }
  | .sheetQlen => (s.ifSheet m fun x => x.setQlen s.knownSheet (v.fld 0 5)).clearStall m 4
  | .sheetQent i => (s.ifSheet m fun x => x.setQent s.knownSheet (i / 8) (i % 8) v.full).clearStall m 4
  | .breg w => s.ifSheet m fun x => { x with breg := putWord x.breg w v }
  | .halCtl => ((s.ifBit v 0 fun t => t.halStop m).ifBit v 1 fun t => t.halRun m).ifBit v 2 fun t => t.halDiscard m
  | .halStatus => s.modHal m fun x => { x with xwerr := x.xwerr && !v.bit 5 }
  | .halProg h => s.ifHal m fun x =>
      { x with prog := x.prog.set h.val { lines := BitVec.ofNat 30 (v.fld 0 30), st := BitVec.ofNat 2 (v.fld 30 2), dwok := wbit v.full 32 } h.isLt }
  | .halQlen => (s.ifHal m fun x => x.setQlen s.knownHal (v.fld 0 5)).clearStall m 5
  | .halQent i => (s.ifHal m fun x => x.setQent s.knownHal (i / 8) (i % 8) v.full).clearStall m 5
  | .canvCtl => s.modMast m fun x => { x with canv := { x.canv with scrub := wbit v.full 0 } }
  | .canvEcc => s.modMast m fun x => { x with canv := { x.canv with ue := x.canv.ue && !v.bit 60 } }
  | .chkSel => s.modMast m fun x => { x with canv := { x.canv with sel := BitVec.ofNat 2 (v.fld 0 2) } }
  | .check i =>
    if (s.mast m).hal.stopped then
      { s with check := Sparse.set s.check (m.val * 16384 + (s.mast m).canv.sel.toNat * 4096 + i) (BitVec.ofNat 64 (v.fld 0 33)) }
    else s.modHal m fun x => { x with xwerr := true }
  | .tokenCtl =>
    (s.ifBit v 0 fun t => t.tokenClear m).modMast m fun x => { x with tok := { x.tok with stallEn := wbit v.full 1 } }
  | .vecCtl => ((s.ifBit v 0 fun t => t.vecStop m).ifBit v 1 fun t => t.vecRun m).ifBit v 2 fun t => t.vecDiscard m
  | .vecStatus => s.modVec m fun x => { x with xwerr := x.xwerr && !v.bit 5 }
  | .vidx => s.ifVec m fun x => { x with vidxA := BitVec.ofNat 10 (v.fld 0 10), vidxM := BitVec.ofNat 10 (v.fld 16 10) }
  | .vecQlen => (s.ifVec m fun x => x.setQlen s.knownVec (v.fld 0 5)).clearStall m 1
  | .vecQent i => (s.ifVec m fun x => x.setQent s.knownVec (i / 4) (i % 4) v.full).clearStall m 1
  | .vreg w => s.ifVec m fun x => { x with vreg := putWord x.vreg w v }
  | .kreg w => s.ifVec m fun x => if w < 16 then x else { x with kreg := putWord x.kreg w v }
  | _ => s

/-- The array of a tile. -/
def arrOfTile (t : Fin 16) : ArrId := Fin.ofNat 2 (t.val / 8)

/-- A write of a tile's record, which needs its array stopped (07 R213). -/
def State.ifTile (s : State) (m : MastId) (t : Fin 16) (f : Tile → Tile) : State :=
  if (s.array m (arrOfTile t)).stopped then s.modTile m t f else s.modArr m (arrOfTile t) fun x => { x with xwerr := true }

/-- Write a register of an array, the tiles, the batch queues or a bank. -/
def State.writeArr (s : State) (m : MastId) (r : MReg) (v : RegIn) : State :=
  match r with
  | .arrCtl a => ((s.ifBit v 0 fun t => t.arrStop m a).ifBit v 1 fun t => t.arrRun m a).ifBit v 2 fun t => t.arrDiscard m a
  | .arrStatus a => s.modArr m a fun x => { x with xwerr := x.xwerr && !v.bit 4 }
  | .arrQlen a => (s.ifArr m a fun x => x.setQlen s.knownArr (v.fld 0 5)).clearStall m (Fin.ofNat 6 (2 + a.val))
  | .arrQent a i => (s.ifArr m a fun x => x.setQent s.knownArr (i / 8) (i % 8) v.full).clearStall m (Fin.ofNat 6 (2 + a.val))
  | .passK t =>
    let k : PassK := { kdone := BitVec.ofNat 10 (v.fld 0 10), ktotal := BitVec.ofNat 10 (v.fld 10 10), st := BitVec.ofNat 2 (v.fld 20 2)
                       rig := wbit v.full 22, rows := BitVec.ofNat 7 (v.fld 23 7) }
    s.ifArr m (arrOfTile t) fun x => { x with passK := x.passK.set (t.val % 8) k (Nat.mod_lt _ (by decide)) }
  | .bqcfg a q w =>
    s.ifArr m a fun x =>
      let k := x.bqs.get q
      { x with bqs := x.bqs.set q.val { k with cfg := BitVec.ofNat 512 (k.cfg.toNat - dword k.cfg w * 2 ^ (64 * w) + v.full.toNat * 2 ^ (64 * w)) } q.isLt }
  | .bqstat a q =>
    s.ifArr m a fun x =>
      let k := x.bqs.get q
      { x with bqs := x.bqs.set q.val { k with armed := wbit v.full 0, head := BitVec.ofNat 10 (v.fld 1 10), set := wbit v.full 11
                                               trun := wbit v.full 12, timer := BitVec.ofNat 20 (v.fld 13 20) } q.isLt }
  | .rowmap w => s.modMast m fun x => { x with rowmap := putWord x.rowmap w v }
  | .accMeta t =>
    let sh := v.fld 8 6
    s.ifTile m t fun y =>
      { y with type := BitVec.ofNat 2 (v.fld 0 2), rig := wbit v.full 2, folub := wbit v.full 3, repeats := BitVec.ofNat 3 (v.fld 4 3)
               shift := if sh = 8 ∨ sh = 16 ∨ sh = 24 ∨ sh = 32 then BitVec.ofNat 6 sh else 0 }
  | .accScale t => s.ifTile m t fun y => { y with rscale := BitVec.ofNat 32 (v.fld 0 32), cscale := BitVec.ofNat 32 (v.fld 32 32) }
  | .accSticky a => s.modArr m a fun x => { x with sticky := x.sticky &&& ~~~v.part.setWidth 5 }
  | .accWsel => s.modMast m fun x => { x with wsel := BitVec.ofNat 4 (v.fld 0 4) }
  | .bankMem w =>
    if (s.array m 0).stopped && (s.array m 1).stopped then s.modMast m fun x => { x with bankMem := putWord x.bankMem w v }
    else s.modArr m 0 fun x => { x with xwerr := true }
  | .accTile w => s.ifTile m (Fin.ofNat 16 (s.mast m).wsel.toNat) fun y => { y with ents := Sparse.set y.ents w v.full }
  | _ => s

/-! ## Per-die, per-module and Crowsnest registers -/

/-- Write a per-die register. -/
def State.writeDie (s : State) (d : DieId) (r : DReg) (v : RegIn) : State :=
  let stack := fun (k : Fin 4) => Fin.ofNat 8 (4 * d.val + k.val)
  match r with
  | .hbmCtl k => s.modHbm (stack k) fun h => { h with scrub := wbit v.full 0, interval := BitVec.ofNat 16 (v.fld 8 16) }
  | .hbmStatus k => s.modHbm (stack k) fun h => { h with ueSeen := h.ueSeen && !v.bit 1 }
  | .hbmErrlog k => s.modHbm (stack k) fun h => { h with errValid := h.errValid && !v.bit 38 }
  | .scCtl k => s.ifBit v 0 fun t => t.scFlush d k
  | _ => s

/-- SHR_PCTL: a port that is enabled with its cable present trains (15 R385), but for a lost one (R395). -/
def State.pctlWrite (s : State) (p : PortId) (v : RegIn) : State :=
  let en := wbit v.full 0
  let s := s.modSport p fun x =>
    let y := { x with en := en, v2only := wbit v.full 2, training := x.training && en }
    if en && !x.en && x.plugged && !x.up && !x.stuck && s.portUsed p then y.train true else y
  s.ifBit v 1 fun t => t.retrain p

/-- SHR_JOB: JOBID only while VALID is 0; VALID = 0 clears FENCED and REASON (15 R408, Table 15-7). -/
def State.shrJobWrite (s : State) (j : JobSlot) (v : RegIn) : State :=
  s.modJob j fun x =>
    let x := if x.valid then x else { x with jobid := BitVec.ofNat 16 (v.fld 0 16) }
    if wbit v.full 16 then { x with valid := true }
    else { x with valid := false, fenced := false, reason := 0, owner := none, loaded := false, started := false }

/-- Write a per-module register. Invalidation is not open to Crowsnest (13 R356). -/
def State.writeMod (s : State) (who : Who) (r : UReg) (v : RegIn) : State :=
  match r with
  | .xlInvCmd => if who = .crowsnest then s else s.invCmd v.full
  | .xlInvVa => if who = .crowsnest then s else { s with invVa := BitVec.ofNat 40 (v.fld 16 40) }
  | .xlInvStatus => if who = .crowsnest then s else { s with invDone := s.invDone && !v.bit 1, invOvf := s.invOvf && !v.bit 2 }
  | .shrCfg =>
    { s with shrCfg := { size0 := BitVec.ofNat 4 (v.fld 0 4), size1 := BitVec.ofNat 4 (v.fld 4 4), size2 := BitVec.ofNat 3 (v.fld 8 3)
                         size3 := BitVec.ofNat 3 (v.fld 12 3), planes := wbit v.full 16 } }
  | .shrPctl p => s.pctlWrite p v
  | .shrPstatus p => s.modSport p fun x => { x with miscable := x.miscable && !v.bit 6, lost := x.lost && !v.bit 7 }
  | .shrJob j => s.shrJobWrite j v
  | .shrJblk j => s.modJob j fun x => if x.valid then x else { x with jblk := v.full &&& jblkMask }
  | .shrJctl j => s.ifBit v 0 fun t => t.fenceWrite j false
  | .rcDesc c w =>
    s.modChan c fun x =>
      if x.st = 0 then { x with desc := BitVec.ofNat 512 (x.desc.toNat - dword x.desc w * 2 ^ (64 * w) + v.full.toNat * 2 ^ (64 * w)) } else x
  | .rcCtl c => s.ifBit v 0 fun t => t.chanDiscard c
  | .rcStatus c => s.modChan c fun x => { x with flags := x.flags &&& ~~~BitVec.ofNat 5 (wfld v.part 2 5) }
  | .snapCtl => s.ifBit v 0 State.snapReq
  | _ => s

/-- The start-up input that stands for the findings a register write cannot carry: those of the last start. -/
def State.lastInput (s : State) : BootInput :=
  { railsOk := s.boot.railsOk, hbmOk := s.boot.hbmOk, cnA := s.boot.found false 1, cnB := s.boot.found true 1, mastA := s.boot.found false 2
    mastB := s.boot.found true 2 }

/-- Write a Crowsnest register. Recovery serves firmware update alone (18 R461). -/
def State.writeCrow (s : State) (r : CReg) (v : RegIn) : State :=
  match r with
  | .fwCtl =>
    (((s.ifBit v 0 State.fwBegin).ifBit v 1 fun t => t.fwFinish (Config.findings t.boot.staged)).ifBit v 2 State.fwAbort).ifBit v 3 State.fwCommit
  | .fwStage w => s.modBoot fun b => { b with stageMem := putWord b.stageMem w v }
  | _ =>
    if s.boot.stage = 6 then s
    else match r with
    | .pwrTrim => if v.low then s.trimReq (BitVec.ofNat 2 (v.fld 0 2)) else s
    | .pwrStatus => s.modPow fun p => { p with overcap := p.overcap && !v.bit 4, thermal := p.thermal && !v.bit 5 }
    | .sailCfg => s.modPow fun p => { p with furl := BitVec.ofNat 24 (v.fld 0 24) }
    | .svcCtl =>
      (((s.ifBit v 0 fun t => t.setLocate true).ifBit v 1 fun t => t.setLocate false).ifBit v 2 State.svcStrike).ifBit v 3 State.svcUnstrike
    | .modRst => s.ifBit v 0 fun t => t.modRst t.lastInput
    | .attCtl => (s.modBoot fun b => { b with attDone := b.attDone && !v.bit 2 }).ifBit v 0 State.attReq
    | .attNonce w => s.modBoot fun b => { b with nonce := putWord b.nonce w v }
    | _ => s

/-! ## The write -/

/-- Whether an agent's write reaches a register at all: a host port through its window while it is on, Crowsnest, or a core at M or within
Table 14-1. Registers outside the Crowsnest block are in the compute domain. -/
def State.mayWrite (s : State) (who : Who) (r : Reg) : Bool :=
  let on := match r with | .crow _ => s.pow.aoOn | _ => s.pow.compOn
  on && match who with
  | .host p => s.portOn p
  | .crowsnest => true
  | .core _ .m => s.pow.compOn
  | .core m .s => r.grant m 1 true
  | .core m .u => r.grant m 0 true

/-- A write of a window makes whole cells anew: a word of LDM, or the syllables it writes (02 R51). -/
def State.windowCells (s : State) (m : MastId) (r : MReg) (pa size : Nat) : Cell → Bool :=
  match r with
  | .ldm w => fun c => decide (size = 8 ∧ c = .ldm m w)
  | .imem w => imemHalves m w pa size
  | .bankMem w => fun c => decide (size = 8 ∧ c = .bank m w)
  | .accTile w => fun c => decide (size = 8 ∧ c = .tile m (Fin.ofNat 16 (s.mast m).wsel.toNat) w)
  | .breg w => fun c => decide (size = 8 ∧ c = .breg m w)
  | _ => fun _ => false

/-- Whether a write of a window of a mast takes effect (02 R78, 06 R187, 08 R239). -/
def State.windowOpen (s : State) (who : Who) (m : MastId) (r : MReg) : Bool :=
  match r with
  | .ldm _ | .imem _ => decide (who = .core m .m) || (s.mast m).core.halted
  | .breg _ => (s.mast m).sheet.stopped
  | .bankMem _ => (s.array m 0).stopped && (s.array m 1).stopped
  | .accTile _ => (s.array m (arrOfTile (Fin.ofNat 16 (s.mast m).wsel.toNat))).stopped
  | _ => true

/-- Write a register with what a write brings. -/
def State.writeReg (s : State) (who : Who) (r : Reg) (v : RegIn) : State :=
  match r with
  | .mast m q => ((s.writeCore who m q v).writeEng m q v).writeArr m q v
  | .die d q => s.writeDie d q v
  | .module q => s.writeMod who q v
  | .crow q => s.writeCrow q v

/-- What a write of `size` bytes at a local address brings to its register (01 R20). -/
def State.regIn (s : State) (who : Who) (r : Reg) (pa size : Nat) (v : Word) : RegIn :=
  let hi := decide (pa % 8 = 4)
  if size = 8 then { full := v, part := v, low := true }
  else { full := half32 (s.regVal who r) hi v.toNat, part := half32 0 hi v.toNat, low := !hi }

/-- A write of the register window: nothing happens where R19 and R20 let it reach no register, or where its agent may not write. -/
def State.regWrite (s : State) (who : Who) (pa size : Nat) (v : Word) : State :=
  match regOk pa size true with
  | none => s
  | some r =>
    if s.mayWrite who r then
      let s := match r with
        | .mast m q => if s.windowOpen who m q then s.mend (s.windowCells m q pa size) else s
        | _ => s
      s.writeReg who r (s.regIn who r pa size v)
    else s

/-! ## A function's own registers (16 R430) -/

/-- A ring size of 4 to 12; the size that another value gives is free (log entry 57). -/
def ringSize (v : Word) : BitVec 4 :=
  if 4 ≤ wfld v 0 4 ∧ wfld v 0 4 ≤ 12 then BitVec.ofNat 4 (wfld v 0 4) else Config.ringSize (BitVec.ofNat 4 (wfld v 0 4))

/-- A write of a host function's register. -/
def State.barPut (s : State) (f : FnId) (off : Nat) (v : Word) : State :=
  match off with
  | 0x08 => s.verReq f (BitVec.ofNat 16 v.toNat)
  | 0x18 => s.modFn f fun x => { x with aqSz := ringSize v, aqBase := BitVec.ofNat 52 (wfld v 12 52) }
  | 0x20 => s.modFn f fun x => { x with acqSz := ringSize v, acqBase := BitVec.ofNat 52 (wfld v 12 52) }
  | 0x28 => s.modFn f fun x => { x with evSz := ringSize v, evBase := BitVec.ofNat 52 (wfld v 12 52) }
  | 0x30 => s.evtCtl f v
  | 0x38 => s.modFn f fun x => { x with verErr := x.verErr && !wbit v 16, cqh := x.cqh && !wbit v 17 }
  | 0x1000 => s.doorbell f v
  | 0x1008 => s.adminDoorbell f v
  | 0x1010 => s.cqDoorbell f v
  | 0x2000 => s.modHport f.port fun p => { p with attn := p.attn &&& ~~~v.setWidth 17 }
  | _ => s

/-- A write of a host has completed (16 R411, R430). -/
def State.setCpl (s : State) (h : HostPort) (c : Cpl) : State := s.modHport h fun p => { p with cpl := some c }

/-- A write to BAR0 of a host function, while its port is on: it reaches a register, or completes with an error (16 R411, R430). -/
def State.barWrite (s : State) (f : FnId) (off size : Nat) (v : Word) : State :=
  if !s.portOn f.port then s
  else match barStop f off size with
    | some c => s.setCpl f.port c
    | none => (s.setCpl f.port .wrote).barPut f off v

/-- A write to the register window: one of a host completes. -/
def State.windowWrite (s : State) (who : Who) (pa size : Nat) (v : Word) : State :=
  let s := match who with
    | .host p => if s.portOn p then s.setCpl p ((windowStop pa size true).getD .wrote) else s
    | _ => s
  s.regWrite who pa size v

/-- REGISTER_WRITE: a write to a register that no row of its own names, or to any other. -/
def State.registerWrite (s : State) (who : Who) (a : RegAddr) (size : Nat) (v : Word) : State :=
  match a with
  | .window pa => s.windowWrite who pa.toNat size v
  | .bar f off => match who with
    | .host p => if p = f.port then s.barWrite f off size v else s
    | _ => s

end Sys2Proof.Machine
end

