-- ==== Sys2Proof/Machine/CoreEvents.lean ====
section
/-!
DEFINITION. What happens at a control core between its bundles (02 R65-R68, 03 R87-R94, 12 R305-R313): a multiply writes, a load returns, a store
takes its write slot, an acknowledgement arrives; and the arrival of a syllable with what the long-vector unit then does.
-/

namespace Sys2Proof.Machine

/-- The long-vector unit goes on where its queue has grown. -/
def State.vecFollows (s t : State) (m : MastId) : State :=
  if (t.mast m).vec.queue.length ≤ (s.mast m).vec.queue.length then t else t.vecAdvance m

/-- MULTIPLY_WRITE: the cc that the oldest multiply of the current bank still counts pass, and it writes PL and PH (02 R65-R68). Between bundles
that issue, the multiplies write as their cc pass. -/
def State.multiplyWrite (s : State) (m : MastId) : State :=
  let c := (s.mast m).core
  match c.muls.find? fun p => p.counts c.bank with
  | none => s
  | some p => s.modCore m fun c => c.pass c.bank p.left p.left

/-! ## Loads -/

/-- The destination of an access to canvas or the register window: a mast, by its slice or its block, or the block of another register (01 R28, R474, Table 1-4). -/
def destOf (pa : Nat) : Nat × Nat :=
  if pa < regBase then (0, (pa - canvasBase) / 0x4000000)
  else if pa < regBase + 0x8000000 then (0, (pa - regBase) / 0x100000)
  else (2, (pa - regBase) / 0x10000000)

/-- Whether an access of the core in place `seq` of its order is next at its destination: what the core sent there before has reached it
(01 R28). -/
def State.isNext (s : State) (m : MastId) (seq pa : Nat) : Bool :=
  let c := (s.mast m).core
  !(c.wq.any fun w => w.st == .requested && decide (w.seq < seq) && decide (destOf (localOf w.pa) = destOf pa) &&
      s.isOwn w.pa && decide (placeOf (localOf w.pa) ≠ .hbm)) &&
  !(c.loads.any fun l => decide (l.seq < seq) && l.parts.any fun p => p.src.isOut && decide (destOf (localOf p.pa) = destOf pa)) &&
  !(s.posts.any fun p => decide (p.src = .engine m 0 ∧ p.seq < seq ∧ tokenNode p.addr = s.nodeId) &&
      match slotOf p.addr with | some (.mast k _) => decide ((0, k.val) = destOf pa) | _ => false)

/-- What a part of a load finds at its tier or register block, in the cc in which it reaches it (01 R31, R474). -/
def State.sample (s : State) (m : MastId) (lvl : BitVec 2) (p : LoadPart) : State × LoadSrc :=
  match p.src with
  | .canvasUc => let g := s.readBytes (localOf p.pa) p.n; (g.1, .got g.2.1 g.2.2)
  | .canvas =>
    let ln := lineOf (localOf p.pa)
    let g := s.readBytes (lineAddr ln) 128
    let d := ramLine s.ram ln
    (g.1, .gotLine (lineGet d (localOf p.pa % 128) p.n) d g.2.2)
  | .register =>
    let who : Level := match lvl.toNat with | 0 => .u | 1 => .s | _ => .m
    let g := s.regReadBytes (.core m who) (localOf p.pa) p.n
    (g.1, .got g.2 false)
  | x => (s, x)

/-- The request of the first part of load `q` that has not reached its destination, and satisfies `ok`, reaches it. -/
def State.loadThere (s : State) (m : MastId) (q : Nat) (ok : LoadPart → Bool) : State :=
  match (s.mast m).core.loads.find? fun l => decide (l.seq = q) with
  | none => s
  | some l =>
    match l.parts.find? fun p => p.src.isOut with
    | none => s
    | some p =>
      if !ok p then s
      else
        let g := s.sample m l.level p
        g.1.modCore m fun c =>
          { c with loads := updFirst (fun l => decide (l.seq = q))
                     (fun l => { l with parts := updFirst (fun p => p.src.isOut) (fun p => { p with src := g.2 }) l.parts }) c.loads }

/-- LOAD_REACH: the request of the first part of load `q` that has not reached its destination reaches it in its turn. -/
def State.loadReach (s : State) (m : MastId) (q : Nat) : State := s.loadThere m q fun p => s.isNext m q (localOf p.pa)

/-- The bytes of one part of a load, if they are there: from the cache or the home, from canvas, a register or another module. The rest of the
answer from another module follows. Poisoned data are a fault of the job (11 R275, R289). -/
def State.loadPart (s : State) (m : MastId) (p : LoadPart) (remote : List Byte) : State × Option (List Byte) × List Byte :=
  match p.src with
  | .ready d => (s, some d, remote)
  | .line | .rdu | .atom | .canvas | .canvasUc | .register => (s, none, remote)
  | .got d bad => (if bad then s.jobFault m 0 1 else s, some d, remote)
  | .gotLine d line bad =>
    if !(s.mast m).dc.canInstall 1 then (s, none, remote)
    else
      (if bad then s.jobFault m 0 1 else (s.cacheMend m (lineOf (localOf p.pa)) 0 128).install m { addr := lineOf (localOf p.pa), st := .canv, data := line }, some d, remote)
  | .remote => if remote.length < p.n then (s, none, remote) else (s, some (remote.take p.n), remote.drop p.n)

/-- Every part of a load, in order. -/
def State.loadParts (s : State) (m : MastId) : List LoadPart → List Byte → State × Option (List Byte)
  | [], _ => (s, some [])
  | p :: ps, remote =>
    let r := s.loadPart m p remote
    match r.2.1 with
    | none => (s, none)
    | some bs =>
      let q := State.loadParts r.1 m ps r.2.2
      (q.1, q.2.map fun t => bs ++ t)

/-- LOAD_DATA_RETURN: the oldest load writes A of its bank once all its bytes are there (03 R87, R88, R93). Poisoned data are a fault of the job
(11 R289). An answer of another module that this one refuses leaves a free value (15 R393; log entry 125). -/
def State.loadReturn (s : State) (m : MastId) (remote : RemoteData) : State :=
  match (s.mast m).core.loads with
  | [] => s
  | l :: rest =>
    let fin := fun (t : State) (v : Word) =>
      (t.modCore m fun c => ({ c with loads := rest, returned := c.returned || l.left.isNone }).modBank l.bank fun b =>
        { b with a := v, aDue := max b.aDue (l.left.getD 0) }).vecAdvance m
    let far := l.parts.filter fun p => decide (p.src = LoadSrc.remote)
    let q := match far with
      | p :: _ => s.answered m 0 p.pa remote.jobid remote.refused far.length
      | [] => (s, true)
    if !q.2 then fin { q.1 with frees := q.1.frees + 1 } (Config.refusedData q.1.frees)
    else
      let r := q.1.loadParts m l.parts remote.bytes
      match r.2 with
      | none => s
      | some bs => fin (if !far.isEmpty && remote.poison then r.1.jobFault m 0 1 else r.1) (extend l.size (ofBytes bs) l.sgn)

/-! ## Stores -/

/-- A store reaches its canvas tier or its register block, and is performed there (01 R474, 12 R312, R475). The core's own copies of the line follow;
a NUM_CTL write acts here, before its acknowledgement (log entry 91). -/
def State.storeThere (s : State) (m : MastId) (e : WqEnt) : State :=
  match placeOf (localOf e.pa) with
  | .regs =>
    let lvl : Level := match e.level.toNat with | 0 => .u | 1 => .s | _ => .m
    s.regWrite (.core m lvl) (localOf e.pa) e.data.length (BitVec.ofNat 64 (ofBytes e.data))
  | _ =>
    let ln := lineOf (localOf e.pa)
    let put := fun (d : BitVec 1024) => linePut d (localOf e.pa % 128) e.data
    let s := ((s.canvasWrite (localOf e.pa) e.data).cacheMend m ln (localOf e.pa % 128) e.data.length).modDc m fun c => c.upd ln fun x => { x with data := put x.data }
    s.modCore m fun c =>
      { c with loads := c.loads.map fun l => { l with parts := l.parts.map fun p =>
          match p.src with
          | .gotLine d x bad => if s.isOwn p.pa ∧ lineOf (localOf p.pa) = ln then { p with src := .gotLine d (put x) bad } else p
          | _ => p } }

/-- The store in place `q` of the core's order, if it satisfies `ok`, reaches canvas or its register block. -/
def State.storeAt (s : State) (m : MastId) (q : Nat) (ok : WqEnt → Bool) : State :=
  let out := fun (w : WqEnt) => decide (w.seq = q ∧ w.st = .requested) && s.isOwn w.pa && decide (placeOf (localOf w.pa) ≠ .hbm)
  match (s.mast m).core.wq.find? out with
  | none => s
  | some w =>
    if !ok w then s
    else (s.modCore m fun c => { c with wq := updFirst out (fun w => { w with st := .performed }) c.wq }).storeThere m w

/-- STORE_REACH: the store in place `q` of the core's order reaches canvas or its register block in its turn. -/
def State.storeReach (s : State) (m : MastId) (q : Nat) : State := s.storeAt m q fun w => s.isNext m q (localOf w.pa)

/-- Whether a store of the core to a range of its own block has not been performed. -/
def State.ownOut (s : State) (m : MastId) (lo n : Nat) : Bool :=
  let mine := fun (pa : BitVec 52) => s.isOwn pa && within (localOf pa) (regBase + 0x100000 * m.val + lo) n
  (s.mast m).core.sb.any (fun e => mine e.pa) || (s.mast m).core.wq.any fun w => w.st == .requested && mine w.pa

/-- What the core sent to its own mast reaches it at once, in the order of issue: a store that is still in the store buffer goes to the write queue performed. -/
def State.settleOwn (s : State) (m : MastId) : State :=
  let c := (s.mast m).core
  let own := fun (pa : BitVec 52) => s.isOwn pa && decide (destOf (localOf pa) = (0, m.val))
  let mine := fun (e : StoreEnt) => own e.pa && decide (placeOf (localOf e.pa) ≠ .hbm)
  let late := (c.sb.filter mine).map fun e => ({ pa := e.pa, data := e.data, wp := e.wp, level := e.level, seq := e.seq, st := .requested } : WqEnt)
  let s := (s.modCore m fun c => { c with sb := c.sb.filter fun e => !mine e, wq := c.wq ++ late }).bumpBy m 0x2020 late.length
  (List.range c.seq).foldl
    (fun t q =>
      let reach := fun (t : State) => t.loadThere m q fun p => own p.pa
      reach (reach (t.storeAt m q fun w => own w.pa))) s

/-- A FENCE makes the core's own stores to its LDM, its IMEM and its gate table seen by its later bundles, none of which waits for them (02 R78, 03 R92,
14 R374): what the core has on its way to its own mast reaches it as the FENCE issues (log entry 88). -/
def State.fenceOwn (s t : State) (m : MastId) (y : Syl) : State :=
  let ys := (s.mast m).core.opening ++ [y]
  let issued := decide (Sparse.get (t.mast m).cnt 0x38 ≠ Sparse.get (s.mast m).cnt 0x38)
  let fence := ys.any fun y => match y with | .l .fence _ => true | _ => false
  if issued && fence && (t.ownOut m 0x80000 0x40000 || t.ownOut m 0xC0000 0x20000 || t.ownOut m 0x8000 0x4000) then
    (t.settleOwn m).modCore m fun c => { c with gateUsed := c.gate }
  else t

/-- A syllable arrives; the long-vector unit goes on with what the bundle queued (log entry 58). -/
def State.core (s : State) (m : MastId) (y : Syl) : State := s.on fun s => s.vecFollows (s.fenceOwn (s.present m y) m y) m

/-- STORE_WRITE_SLOT: the oldest store leaves the store buffer for the write queue (03 R90, 12 R308). -/
def State.storeSlot (s : State) (m : MastId) : State :=
  match (s.mast m).core.sb with
  | [] => s
  | e :: rest =>
    let l := lineOf (localOf e.pa)
    let hbm := s.isOwn e.pa && decide (placeOf (localOf e.pa) = .hbm)
    let w : WqEnt := { pa := e.pa, data := e.data, wp := e.wp, level := e.level, seq := e.seq
                       st := if hbm then .queued else if s.isOwn e.pa then .requested else .performed }
    let s := s.modCore m fun c => { c with sb := rest, wq := c.wq ++ [w] }
    if hbm then s.kickWq m l
    else if s.isOwn e.pa then (if decide (placeOf (localOf e.pa) = .regs) then s.bump m 0x2020 else (s.bump m 0x2020).touchLine m l)
    else (s.bump m 0x2020).sendTo (s.mastBlock m) (nodeOf e.pa) (dieOf m).val 0 (.wru e.pa e.data (s.mastJobid m) none)

/-- WRITE_ACK: the acknowledgement of the oldest performed store of the core arrives (12 R310), or that of the oldest write that another engine
sent to another module (01 R37), after which the long-vector unit may go on (04 R124). A refusal by the other module, of a post too, and an acknowledgement that
this module refuses are a fault of the job (15 R393). -/
def State.writeAck (s : State) (m : MastId) (a : AckAnswer) : State :=
  if a.post then
    (if s.sent.any fun p => match p.2 with | .post _ j => decide (j = s.mastJobid m) | _ => false then s.jobFault m a.e.val 7 else s)
  else if a.e = 0 then
    match takeFirst (fun w => decide (w.st = WqState.performed)) (s.mast m).core.wq with
    | none => s
    | some (w, rest) =>
      let s := if s.isOwn w.pa then s else (s.answered m 0 w.pa a.jobid a.refused 1).1
      (s.modCore m fun c => { c with wq := rest }).vecAdvance m
  else
    match takeFirst (fun (d : AckDue) => decide (d.m = m ∧ d.e = a.e)) s.acks with
    | none => s
    | some (d, rest) => { (s.answered m a.e d.pa a.jobid a.refused 1).1 with acks := rest }.vecAdvance m

/-- The exception that the words of a bundle at the pc raise (02 R58, 14 R368): a bundle that cannot be formed, an unassigned opcode, or an exception of
the syllables they spell, unless the bundle waits before it. -/
def State.wordsHold (s : State) (m : MastId) (ws : List (BitVec 32)) : Option Hold :=
  let c := (s.mast m).core
  if 0x20000 < c.npc.toNat + min 32 (4 * (bundleWords 8 ws).length) then some (.trap 4 0 false (BitVec.ofNat 64 (max c.npc.toNat 0x20000)))
  else match decodeBundle ws with
  | .syllables ys => (match s.hold m ys with | some (.trap code slot half tval) => some (.trap code slot half tval) | _ => none)
  | .illFormed => some (.trap 1 0 false 0)
  | .unassigned w => some (.trap 2 (wordFld w 28 3).toNat false (w.zeroExtend 64))

/-- The syllables that words spell, where they form a bundle. -/
def wordSyls (ws : List (BitVec 32)) : List Syl := match decodeBundle ws with | .syllables ys => ys | _ => []

/-- TRAP_ENTRY: the deferrable exception or interrupt that can be taken now is taken (14 R368, R370); or, with words, the bundle that they spell at the
pc comes to issue and its exception is taken. -/
def State.trapNow (s : State) (m : MastId) (ws : List (BitVec 32)) : State :=
  if !s.coreRuns m then s
  else
    let t := s.ready m (wordSyls ws)
    match t.takeDeferrable m with
    | some u => u
    | none =>
      if ws.isEmpty then s
      else match t.wordsHold m ws with
      | some h => (t.trapReads m (wordSyls ws) (4 * (bundleWords 8 ws).length) h).stopAt m h
      | none => s

end Sys2Proof.Machine
end

