-- ==== Sys2Proof/Machine/ExecArr.lean ====
section
/-!
DEFINITION. The meanings of the main and mizzen arrays (06, 07): one definition per command, over the shared
operations.
-/

namespace Sys2Proof.Machine

/-- XPASS: Captures a pass descriptor and queues it on one array or both (06 R164). -/
def execXpass (m : MastId) (b : XBody) (s : State) : Host.Outcome State Fault Refusal :=
  .next (s.core m (.x .xpass b))

/-- XBFILL: Arms a batch-fill queue with a batch descriptor (06 R177). -/
def execXbfill (m : MastId) (b : XBody) (s : State) : Host.Outcome State Fault Refusal :=
  .next (s.core m (.x .xbfill b))

/-- XBDISARM: Stops a batch-fill queue from firing (06 R177). -/
def execXbdisarm (m : MastId) (b : XBody) (s : State) : Host.Outcome State Fault Refusal :=
  .next (s.core m (.x .xbdisarm b))

/-- PASS_START: An array starts a queued pass once its conditions hold, consuming its slots (06 R168). -/
def execPassStart (m : MastId) (a : ArrId) (s : State) : Host.Outcome State Fault Refusal :=
  .next (s.on fun s => s.passStart m a)

/-- K_STEP_WRITE: The block sums of a k-step are rounded and written to the tile entries (07 R194). -/
def execKStepWrite (m : MastId) (t : Fin 16) (s : State) : Host.Outcome State Fault Refusal :=
  .next (s.on fun s => s.kStepWrite m t)

/-- OPERAND_RELEASE: A pass ends its issue and posts RELEASE (06 R171). -/
def execOperandRelease (m : MastId) (a : ArrId) (s : State) : Host.Outcome State Fault Refusal :=
  .next (s.on fun s => s.operandRelease m a)

/-- REPEAT_START: A pending overflow repeat starts ahead of unstarted passes (07 R201). -/
def execRepeatStart (m : MastId) (a : ArrId) (s : State) : Host.Outcome State Fault Refusal :=
  .next (s.on fun s => s.repeatStart m a)

/-- BATCH_FIRE: An armed batch queue fires on a full count or a flush and claims rows (06 R179). -/
def execBatchFire (m : MastId) (a : ArrId) (q : Fin 4) (s : State) : Host.Outcome State Fault Refusal :=
  .next (s.on fun s => s.batchFire m a q)

/-- FILL_TIMER_EXPIRY: The fill timer reaches LIMIT and the queue fires (06 R179). -/
def execFillTimerExpiry (m : MastId) (a : ArrId) (q : Fin 4) (s : State) : Host.Outcome State Fault Refusal :=
  .next (s.on fun s => s.fillExpiry m a q)

/-- FIRE_ASSEMBLY: A fire's rows are assembled into a free half of the assembly buffer (06 R180). -/
def execFireAssembly (m : MastId) (a : ArrId) (s : State) : Host.Outcome State Fault Refusal :=
  .next (s.on fun s => s.fireAssembly m a)

/-- BATCH_PASS_START: A batch pass starts when assembly is complete and a FREE token is available (06 R181). -/
def execBatchPassStart (m : MastId) (a : ArrId) (s : State) : Host.Outcome State Fault Refusal :=
  .next (s.on fun s => s.batchPassStart m a)

/-- ARR_CTL_STOP: Write requesting a stop of an array (06 R183). -/
def execArrCtlStop (m : MastId) (a : ArrId) (s : State) : Host.Outcome State Fault Refusal :=
  .next (s.on fun s => s.arrStop m a)

/-- ARR_STOPPED: An array stops at a k-step boundary and STOPPED sets once its writes land (06 R183). -/
def execArrStopped (m : MastId) (a : ArrId) (s : State) : Host.Outcome State Fault Refusal :=
  .next (s.on fun s => s.arrStopped m a)

/-- ARR_CTL_RUN: Write that resumes a stopped array (06 R184). -/
def execArrCtlRun (m : MastId) (a : ArrId) (s : State) : Host.Outcome State Fault Refusal :=
  .next (s.on fun s => s.arrRun m a)

/-- ARR_CTL_DISCARD: Write that empties a stopped array's queue and clears its passes (06 R187). -/
def execArrCtlDiscard (m : MastId) (a : ArrId) (s : State) : Host.Outcome State Fault Refusal :=
  .next (s.on fun s => s.arrDiscard m a)

end Sys2Proof.Machine
end

