-- ==== Sys2Proof/Machine/ExecCore.lean ====
section
/-!
DEFINITION. The meanings of the control core: the C, L and B syllables, and what happens between bundles (02, 03, 14): one definition per command, over the shared
operations.
-/

namespace Sys2Proof.Machine

/-- LD: C-slot load of the operand into A, setting Z and N (02 R61). -/
def execLd (m : MastId) (b : MBody) (s : State) : Host.Outcome State Fault Refusal :=
  .next (s.core m (.c .ld b))

/-- ADD: Adds the operand to A and sets Z, N, C and V (02 R61). -/
def execAdd (m : MastId) (b : MBody) (s : State) : Host.Outcome State Fault Refusal :=
  .next (s.core m (.c .add b))

/-- ADC: Adds the operand and the carry to A (02 R61). -/
def execAdc (m : MastId) (b : MBody) (s : State) : Host.Outcome State Fault Refusal :=
  .next (s.core m (.c .adc b))

/-- SUB: Subtracts the operand from A and sets flags, with C as borrow (02 R61). -/
def execSub (m : MastId) (b : MBody) (s : State) : Host.Outcome State Fault Refusal :=
  .next (s.core m (.c .sub b))

/-- SBC: Subtracts the operand and the borrow from A (02 R61). -/
def execSbc (m : MastId) (b : MBody) (s : State) : Host.Outcome State Fault Refusal :=
  .next (s.core m (.c .sbc b))

/-- AND: Bitwise AND of A with the operand (02 R61). -/
def execAnd (m : MastId) (b : MBody) (s : State) : Host.Outcome State Fault Refusal :=
  .next (s.core m (.c .and b))

/-- OR: Bitwise OR of A with the operand (02 R61). -/
def execOr (m : MastId) (b : MBody) (s : State) : Host.Outcome State Fault Refusal :=
  .next (s.core m (.c .or b))

/-- XOR: Bitwise exclusive-or of A with the operand (02 R61). -/
def execXor (m : MastId) (b : MBody) (s : State) : Host.Outcome State Fault Refusal :=
  .next (s.core m (.c .xor b))

/-- CMP: Sets flags from A minus the operand and leaves A unchanged (02 R61). -/
def execCmp (m : MastId) (b : MBody) (s : State) : Host.Outcome State Fault Refusal :=
  .next (s.core m (.c .cmp b))

/-- TST: Sets Z and N from A AND the operand and leaves A unchanged (02 R61). -/
def execTst (m : MastId) (b : MBody) (s : State) : Host.Outcome State Fault Refusal :=
  .next (s.core m (.c .tst b))

/-- SHL: Shifts A left by the operand modulo 64 (02 R61). -/
def execShl (m : MastId) (b : MBody) (s : State) : Host.Outcome State Fault Refusal :=
  .next (s.core m (.c .shl b))

/-- SHR: Shifts A right logically by the operand modulo 64 (02 R61). -/
def execShr (m : MastId) (b : MBody) (s : State) : Host.Outcome State Fault Refusal :=
  .next (s.core m (.c .shr b))

/-- SAR: Shifts A right arithmetically by the operand modulo 64 (02 R61). -/
def execSar (m : MastId) (b : MBody) (s : State) : Host.Outcome State Fault Refusal :=
  .next (s.core m (.c .sar b))

/-- ROL: Rotates A left by the operand modulo 64 (02 R61). -/
def execRol (m : MastId) (b : MBody) (s : State) : Host.Outcome State Fault Refusal :=
  .next (s.core m (.c .rol b))

/-- MIN: Sets A to the signed minimum of A and the operand (02 R61). -/
def execMin (m : MastId) (b : MBody) (s : State) : Host.Outcome State Fault Refusal :=
  .next (s.core m (.c .min b))

/-- MAX: Sets A to the signed maximum of A and the operand (02 R61). -/
def execMax (m : MastId) (b : MBody) (s : State) : Host.Outcome State Fault Refusal :=
  .next (s.core m (.c .max b))

/-- MINU: Sets A to the unsigned minimum of A and the operand (02 R61). -/
def execMinu (m : MastId) (b : MBody) (s : State) : Host.Outcome State Fault Refusal :=
  .next (s.core m (.c .minu b))

/-- MAXU: Sets A to the unsigned maximum of A and the operand (02 R61). -/
def execMaxu (m : MastId) (b : MBody) (s : State) : Host.Outcome State Fault Refusal :=
  .next (s.core m (.c .maxu b))

/-- MUL: Starts a signed 128-bit multiply of A and the operand into PH and PL (02 R65). -/
def execMul (m : MastId) (b : MBody) (s : State) : Host.Outcome State Fault Refusal :=
  .next (s.core m (.c .mul b))

/-- MULU: Starts an unsigned 128-bit multiply into PH and PL (02 R65). -/
def execMulu (m : MastId) (b : MBody) (s : State) : Host.Outcome State Fault Refusal :=
  .next (s.core m (.c .mulu b))

/-- MAC: Starts a signed multiply-accumulate into PH and PL (02 R66). -/
def execMac (m : MastId) (b : MBody) (s : State) : Host.Outcome State Fault Refusal :=
  .next (s.core m (.c .mac b))

/-- MACU: Starts an unsigned multiply-accumulate into PH and PL (02 R66). -/
def execMacu (m : MastId) (b : MBody) (s : State) : Host.Outcome State Fault Refusal :=
  .next (s.core m (.c .macu b))

/-- NEG: Sets A to 0 minus A (02 R61). -/
def execNeg (m : MastId) (b : MBody) (s : State) : Host.Outcome State Fault Refusal :=
  .next (s.core m (.c .neg b))

/-- NOT: Inverts every bit of A (02 R61). -/
def execNot (m : MastId) (b : MBody) (s : State) : Host.Outcome State Fault Refusal :=
  .next (s.core m (.c .not b))

/-- SEXT: Sign-extends A from the width that SZ names (02 R61). -/
def execSext (m : MastId) (b : MBody) (s : State) : Host.Outcome State Fault Refusal :=
  .next (s.core m (.c .sext b))

/-- CLZ: Sets A to the count of leading zero bits of A (02 R61). -/
def execClz (m : MastId) (b : MBody) (s : State) : Host.Outcome State Fault Refusal :=
  .next (s.core m (.c .clz b))

/-- POPC: Sets A to the count of 1 bits of A (02 R61). -/
def execPopc (m : MastId) (b : MBody) (s : State) : Host.Outcome State Fault Refusal :=
  .next (s.core m (.c .popc b))

/-- MOVH: Writes the operand's low 32 bits into A[63:32] (02 R61). -/
def execMovh (m : MastId) (b : MBody) (s : State) : Host.Outcome State Fault Refusal :=
  .next (s.core m (.c .movh b))

/-- MFSR: Reads a system register into A, subject to the level checks (14 R363). -/
def execMfsr (m : MastId) (b : MBody) (s : State) : Host.Outcome State Fault Refusal :=
  .next (s.core m (.c .mfsr b))

/-- MTSR: Writes A into a system register, serialising for 4 cc (14 R363). -/
def execMtsr (m : MastId) (b : MBody) (s : State) : Host.Outcome State Fault Refusal :=
  .next (s.core m (.c .mtsr b))

/-- LDX: Loads the operand into X (02 R63). -/
def execLdx (m : MastId) (b : MBody) (s : State) : Host.Outcome State Fault Refusal :=
  .next (s.core m (.l .ldx b))

/-- LDY: Loads the operand into Y (02 R63). -/
def execLdy (m : MastId) (b : MBody) (s : State) : Host.Outcome State Fault Refusal :=
  .next (s.core m (.l .ldy b))

/-- LDA: Loads the operand into A without changing flags (02 R63). -/
def execLda (m : MastId) (b : MBody) (s : State) : Host.Outcome State Fault Refusal :=
  .next (s.core m (.l .lda b))

/-- STA: Stores A to LDM, or in register mode to a register (02 R63). -/
def execSta (m : MastId) (b : MBody) (s : State) : Host.Outcome State Fault Refusal :=
  .next (s.core m (.l .sta b))

/-- STX: Stores X to LDM (02 R63). -/
def execStx (m : MastId) (b : MBody) (s : State) : Host.Outcome State Fault Refusal :=
  .next (s.core m (.l .stx b))

/-- STY: Stores Y to LDM (02 R63). -/
def execSty (m : MastId) (b : MBody) (s : State) : Host.Outcome State Fault Refusal :=
  .next (s.core m (.l .sty b))

/-- LEAX: Loads the effective address into X (02 R63). -/
def execLeax (m : MastId) (b : MBody) (s : State) : Host.Outcome State Fault Refusal :=
  .next (s.core m (.l .leax b))

/-- LEAY: Loads the effective address into Y (02 R63). -/
def execLeay (m : MastId) (b : MBody) (s : State) : Host.Outcome State Fault Refusal :=
  .next (s.core m (.l .leay b))

/-- PUSH: Decrements SP by 8 and stores A at SP (02 R63). -/
def execPush (m : MastId) (b : MBody) (s : State) : Host.Outcome State Fault Refusal :=
  .next (s.core m (.l .push b))

/-- POP: Loads A from SP and increments SP by 8 (02 R63). -/
def execPop (m : MastId) (b : MBody) (s : State) : Host.Outcome State Fault Refusal :=
  .next (s.core m (.l .pop b))

/-- LDG: Issues a global load through translation and the data cache into A (03 R86). -/
def execLdg (m : MastId) (b : MBody) (s : State) : Host.Outcome State Fault Refusal :=
  .next (s.core m (.l .ldg b))

/-- STG: Places a global store in the store buffer once it is admitted (03 R89). -/
def execStg (m : MastId) (b : MBody) (s : State) : Host.Outcome State Fault Refusal :=
  .next (s.core m (.l .stg b))

/-- POST: Posts one token to a token address as engine 0 (02 R63). -/
def execPost (m : MastId) (b : MBody) (s : State) : Host.Outcome State Fault Refusal :=
  .next (s.core m (.l .post b))

/-- FENCE: Holds later global accesses and posts until earlier ones complete and invalidates canvas lines (02 R63). -/
def execFence (m : MastId) (b : MBody) (s : State) : Host.Outcome State Fault Refusal :=
  .next (s.core m (.l .fence b))

/-- AADD: Atomic add at the home returning the old value (12 R326). -/
def execAadd (m : MastId) (b : MBody) (s : State) : Host.Outcome State Fault Refusal :=
  .next (s.core m (.l .aadd b))

/-- AAND: Atomic AND at the home returning the old value (12 R326). -/
def execAand (m : MastId) (b : MBody) (s : State) : Host.Outcome State Fault Refusal :=
  .next (s.core m (.l .aand b))

/-- AOR: Atomic OR at the home returning the old value (12 R326). -/
def execAor (m : MastId) (b : MBody) (s : State) : Host.Outcome State Fault Refusal :=
  .next (s.core m (.l .aor b))

/-- AXOR: Atomic exclusive-or at the home returning the old value (12 R326). -/
def execAxor (m : MastId) (b : MBody) (s : State) : Host.Outcome State Fault Refusal :=
  .next (s.core m (.l .axor b))

/-- AMIN: Atomic signed minimum at the home (12 R326). -/
def execAmin (m : MastId) (b : MBody) (s : State) : Host.Outcome State Fault Refusal :=
  .next (s.core m (.l .amin b))

/-- AMAX: Atomic signed maximum at the home (12 R326). -/
def execAmax (m : MastId) (b : MBody) (s : State) : Host.Outcome State Fault Refusal :=
  .next (s.core m (.l .amax b))

/-- AMINU: Atomic unsigned minimum at the home (12 R326). -/
def execAminu (m : MastId) (b : MBody) (s : State) : Host.Outcome State Fault Refusal :=
  .next (s.core m (.l .aminu b))

/-- AMAXU: Atomic unsigned maximum at the home (12 R326). -/
def execAmaxu (m : MastId) (b : MBody) (s : State) : Host.Outcome State Fault Refusal :=
  .next (s.core m (.l .amaxu b))

/-- ASWAP: Atomic swap at the home (12 R326). -/
def execAswap (m : MastId) (b : MBody) (s : State) : Host.Outcome State Fault Refusal :=
  .next (s.core m (.l .aswap b))

/-- ACAS: Atomic compare-and-swap against Y at the home (12 R326). -/
def execAcas (m : MastId) (b : MBody) (s : State) : Host.Outcome State Fault Refusal :=
  .next (s.core m (.l .acas b))

/-- AFADD: Atomic floating-point add at the home returning the old value (12 R327). -/
def execAfadd (m : MastId) (b : MBody) (s : State) : Host.Outcome State Fault Refusal :=
  .next (s.core m (.l .afadd b))

/-- RADD: Memory reduction add at the home with no result (12 R326). -/
def execRadd (m : MastId) (b : MBody) (s : State) : Host.Outcome State Fault Refusal :=
  .next (s.core m (.l .radd b))

/-- RFADD: Memory reduction floating-point add at the home with no result (12 R327). -/
def execRfadd (m : MastId) (b : MBody) (s : State) : Host.Outcome State Fault Refusal :=
  .next (s.core m (.l .rfadd b))

/-- RMIN: Memory reduction signed minimum at the home (12 R326). -/
def execRmin (m : MastId) (b : MBody) (s : State) : Host.Outcome State Fault Refusal :=
  .next (s.core m (.l .rmin b))

/-- RMAX: Memory reduction signed maximum at the home (12 R326). -/
def execRmax (m : MastId) (b : MBody) (s : State) : Host.Outcome State Fault Refusal :=
  .next (s.core m (.l .rmax b))

/-- BR: Conditional or unconditional branch on COND (02 R69). -/
def execBr (m : MastId) (b : BBody) (s : State) : Host.Outcome State Fault Refusal :=
  .next (s.core m (.b .br b))

/-- CALL: Pushes the return offset and branches to the target (02 R69). -/
def execCall (m : MastId) (b : BBody) (s : State) : Host.Outcome State Fault Refusal :=
  .next (s.core m (.b .call b))

/-- CALLA: Pushes the return offset and jumps to A (02 R69). -/
def execCalla (m : MastId) (b : BBody) (s : State) : Host.Outcome State Fault Refusal :=
  .next (s.core m (.b .calla b))

/-- JA: Jumps to the offset in A (02 R69). -/
def execJa (m : MastId) (b : BBody) (s : State) : Host.Outcome State Fault Refusal :=
  .next (s.core m (.b .ja b))

/-- RET: Returns to the offset at LDM[SP] and pops it (02 R69). -/
def execRet (m : MastId) (b : BBody) (s : State) : Host.Outcome State Fault Refusal :=
  .next (s.core m (.b .ret b))

/-- LOOP: Arms a hardware loop level with start, end and count (02 R71). -/
def execLoop (m : MastId) (b : BBody) (s : State) : Host.Outcome State Fault Refusal :=
  .next (s.core m (.b .loop b))

/-- TWAIT: Issues its bundle once the named control-core slots hold tokens and consumes them (02 R76). -/
def execTwait (m : MastId) (b : BBody) (s : State) : Host.Outcome State Fault Refusal :=
  .next (s.core m (.b .twait b))

/-- GATE: Gate call that checks the gate entry and raises the level into the target bank (14 R375). -/
def execGate (m : MastId) (b : BBody) (s : State) : Host.Outcome State Fault Refusal :=
  .next (s.core m (.b .gate b))

/-- RFE: Return from exception restoring level, IM and bank (14 R376). -/
def execRfe (m : MastId) (b : BBody) (s : State) : Host.Outcome State Fault Refusal :=
  .next (s.core m (.b .rfe b))

/-- HALT: Stops fetch after this bundle (02 R69). -/
def execHalt (m : MastId) (b : BBody) (s : State) : Host.Outcome State Fault Refusal :=
  .next (s.core m (.b .halt b))

/-- IFENCE: Discards prefetched syllables and loop head buffers so fetch sees IMEM writes (02 R52). -/
def execIfence (m : MastId) (b : BBody) (s : State) : Host.Outcome State Fault Refusal :=
  .next (s.core m (.b .ifence b))

/-- MULTIPLY_WRITE: A multiply writes PL and PH at the end of its fourth counted cc (02 R65). -/
def execMultiplyWrite (m : MastId) (s : State) : Host.Outcome State Fault Refusal :=
  .next (s.on fun s => s.multiplyWrite m)

/-- LOAD_DATA_RETURN: Global load or atomic data returns and is written to A in issue order (03 R87). With
`reach`, its first half: the request of that load of the core's order reaches its canvas tier or register block (01 R474; log entry 90). -/
def execLoadDataReturn (m : MastId) (remote : LoadAnswer) (s : State) : Host.Outcome State Fault Refusal :=
  .next (s.on fun s => match remote.reach with | some q => s.loadReach m q | none => s.loadReturn m remote.data)

/-- STORE_WRITE_SLOT: The oldest store-buffer entry completes its 3 cc write slot into the data cache or write queue (03 R90). -/
def execStoreWriteSlot (m : MastId) (s : State) : Host.Outcome State Fault Refusal :=
  .next (s.on fun s => s.storeSlot m)

/-- WRITE_ACK: The acknowledgement of a global write or reduction arrives, releasing FENCE and post waits (01 R37). With
`reach`, its first half: that store of the core's order reaches its canvas tier or register block (01 R474; log entry 90). -/
def execWriteAck (m : MastId) (e : AckAnswer) (s : State) : Host.Outcome State Fault Refusal :=
  .next (s.on fun s => match e.reach with | some q => s.storeReach m q | none => s.writeAck m e)

/-- HALT_COMPLETE: HALTED sets once multiplies, loads and stores have drained (02 R79). -/
def execHaltComplete (m : MastId) (s : State) : Host.Outcome State Fault Refusal :=
  .next (s.on fun s => s.haltComplete m)

/-- TRAP_ENTRY: An exception or interrupt is taken in place of a bundle and enters a handler bank (14 R367). With
words, the exception of the bundle they spell is taken (02 R58); without them it is a deferrable exception or an interrupt. -/
def execTrapEntry (m : TrapWords) (s : State) : Host.Outcome State Fault Refusal :=
  .next (s.on fun s => s.trapNow m.m m.words)

/-- CC_CTL_START: Write of CC_CTL.START that starts a halted core at CC_START_PC (03 R101). -/
def execCcCtlStart (m : MastId) (s : State) : Host.Outcome State Fault Refusal :=
  .next (s.on fun s => s.ccStart m)

/-- CC_CTL_STOP: Write of CC_CTL.STOP that stops fetch at the next bundle boundary (02 R79). -/
def execCcCtlStop (m : MastId) (s : State) : Host.Outcome State Fault Refusal :=
  .next (s.on fun s => s.ccStop m)

/-- CC_IRQ_SET: W1S write that sets software interrupt pending bits (14 R369). -/
def execCcIrqSet (m : MastId) (v : BitVec 8) (s : State) : Host.Outcome State Fault Refusal :=
  .next (s.on fun s => s.irqSet m v)

end Sys2Proof.Machine
end

