-- ==== Sys2Proof/Machine/ExecHal.lean ====
section
/-!
DEFINITION. The meanings of the halyard (11): one definition per command, over the shared
operations.
-/

namespace Sys2Proof.Machine

/-- HRUN: Captures a halyard descriptor and queues it (11 R293). -/
def execHrun (m : MastId) (b : SBody) (s : State) : Host.Outcome State Fault Refusal :=
  .next (s.core m (.s .hrun b))

/-- COPY: Halyard read start of a row-by-row copy, translating every page first (11 R294). -/
def execCopy (m : MastId) (s : State) : Host.Outcome State Fault Refusal :=
  .next (s.on fun s => s.halStart m 0)

/-- SKEW: Halyard read start of a panel layout move (11 R294). -/
def execSkew (m : MastId) (s : State) : Host.Outcome State Fault Refusal :=
  .next (s.on fun s => s.halStart m 1)

/-- TSKEW: Halyard read start of a transposing panel layout move (11 R294). -/
def execTskew (m : MastId) (s : State) : Host.Outcome State Fault Refusal :=
  .next (s.on fun s => s.halStart m 2)

/-- TRANS: Halyard read start of a transpose (11 R294). -/
def execTrans (m : MastId) (s : State) : Host.Outcome State Fault Refusal :=
  .next (s.on fun s => s.halStart m 3)

/-- FILL: Halyard start of a pattern fill (11 R294). -/
def execFill (m : MastId) (s : State) : Host.Outcome State Fault Refusal :=
  .next (s.on fun s => s.halStart m 4)

/-- HAL_LINE_WRITE: A destination line becomes eligible and is written, with checksum handling (11 R298). -/
def execHalLineWrite (m : MastId) (ch : Fin 2) (remote : RemoteData) (s : State) : Host.Outcome State Fault Refusal :=
  .next (s.on fun s => s.halLine m ch remote)

/-- HAL_DESC_COMPLETE: A halyard descriptor completes and posts DONE and DONE2 (11 R299). -/
def execHalDescComplete (m : MastId) (ch : Fin 2) (s : State) : Host.Outcome State Fault Refusal :=
  .next (s.on fun s => s.halComplete m ch)

/-- HAL_CTL_STOP: Write requesting a stop of the halyard (11 R300). -/
def execHalCtlStop (m : MastId) (s : State) : Host.Outcome State Fault Refusal :=
  .next (s.on fun s => s.halStop m)

/-- HAL_STOPPED: Both halyard channels stop at block boundaries and STOPPED sets (11 R300). -/
def execHalStopped (m : MastId) (s : State) : Host.Outcome State Fault Refusal :=
  .next (s.on fun s => s.halStopped m)

/-- HAL_CTL_RUN: Write that resumes stopped halyard descriptors (11 R301). -/
def execHalCtlRun (m : MastId) (s : State) : Host.Outcome State Fault Refusal :=
  .next (s.on fun s => s.halRun m)

/-- HAL_CTL_DISCARD: Write that empties the stopped halyard queue and frees every half (11 R303). -/
def execHalCtlDiscard (m : MastId) (s : State) : Host.Outcome State Fault Refusal :=
  .next (s.on fun s => s.halDiscard m)

end Sys2Proof.Machine
end

