-- ==== Sys2Proof/Machine/ExecHost.lean ====
section
/-!
DEFINITION. The meanings of the host ports (16, 18): one definition per command, over the shared
operations.
-/

namespace Sys2Proof.Machine

/-- NOP: Host command that completes at once (16 R419). -/
def execNop (r : CmdRef) (s : State) : Host.Outcome State Fault Refusal :=
  .next (s.on fun s => s.cmdNop r)

/-- COPY_IN: Host command copying host memory into job VAs (16 R419). -/
def execCopyIn (r : CmdRef) (data : List Byte) (s : State) : Host.Outcome State Fault Refusal :=
  .next (s.on fun s => s.cmdCopyIn r data)

/-- COPY_OUT: Host command copying job VAs to host memory (16 R419). -/
def execCopyOut (r : CopyOutRun) (s : State) : Host.Outcome State Fault Refusal :=
  .next (s.on fun s => s.cmdCopyOut r)

/-- POST_CMD: Host command posting a token into a slot of the job (16 R419). -/
def execPostCmd (r : CmdRef) (s : State) : Host.Outcome State Fault Refusal :=
  .next (s.on fun s => s.cmdPost r)

/-- INVALIDATE: Host command queueing a translation invalidation (16 R419). -/
def execInvalidate (r : CmdRef) (s : State) : Host.Outcome State Fault Refusal :=
  .next (s.on fun s => s.cmdInvalidate r)

/-- JOB_LOAD: JOB sub-operation that halts the masts and loads the job (18 R467). -/
def execJobLoad (r : CmdRef) (image : List Byte) (param : List Byte) (s : State) : Host.Outcome State Fault Refusal :=
  .next (s.on fun s => s.jobLoad r image param)

/-- JOB_START: JOB sub-operation that starts every mast at START_PC (18 R467). -/
def execJobStart (r : CmdRef) (s : State) : Host.Outcome State Fault Refusal :=
  .next (s.on fun s => s.jobStart r)

/-- JOB_FENCE: JOB sub-operation that fences the job (18 R467). -/
def execJobFence (r : CmdRef) (s : State) : Host.Outcome State Fault Refusal :=
  .next (s.on fun s => s.jobFence r)

/-- JOB_END: JOB sub-operation that tears the job down and frees its slot (18 R467). -/
def execJobEnd (r : CmdRef) (s : State) : Host.Outcome State Fault Refusal :=
  .next (s.on fun s => s.jobEnd r)

/-- CREATE_SQ: Admin command that creates a submission queue (16 R419). -/
def execCreateSq (r : CmdRef) (s : State) : Host.Outcome State Fault Refusal :=
  .next (s.on fun s => s.cmdCreateSq r)

/-- DELETE_SQ: Admin command that deletes a submission queue (16 R419). -/
def execDeleteSq (r : CmdRef) (s : State) : Host.Outcome State Fault Refusal :=
  .next (s.on fun s => s.cmdDeleteSq r)

/-- CREATE_CQ: Admin command that creates a completion queue (16 R419). -/
def execCreateCq (r : CmdRef) (s : State) : Host.Outcome State Fault Refusal :=
  .next (s.on fun s => s.cmdCreateCq r)

/-- DELETE_CQ: Admin command that deletes a completion queue (16 R419). -/
def execDeleteCq (r : CmdRef) (s : State) : Host.Outcome State Fault Refusal :=
  .next (s.on fun s => s.cmdDeleteCq r)

/-- GRANT_QIDS: PF admin command that grants a QID range to a VF or returns it (16 R412). -/
def execGrantQids (r : CmdRef) (s : State) : Host.Outcome State Fault Refusal :=
  .next (s.on fun s => s.cmdGrant r)

/-- SQ_FETCH: A port fetches one entry from an SQ in round-robin order, loading its context if needed (16 R417). -/
def execSqFetch (f : FnId) (q : Option (BitVec 20) ) (entry : List Byte) (s : State) : Host.Outcome State Fault Refusal :=
  .next (s.on fun s => s.sqFetch f q entry)

/-- COMMAND_COMPLETION: A finished command writes its CQ entry, or holds it while the CQ is full (16 R420). -/
def execCommandCompletion (r : CmdRef) (s : State) : Host.Outcome State Fault Refusal :=
  .next (s.on fun s => s.complCmd r)

/-- DOORBELL: A 64-bit doorbell write sets an SQ tail (16 R414). -/
def execDoorbell (f : FnId) (v : Word) (s : State) : Host.Outcome State Fault Refusal :=
  .next (s.on fun s => s.doorbell f v)

/-- ADMIN_DOORBELL: Sets the admin SQ tail (16 R414). -/
def execAdminDoorbell (f : FnId) (v : Word) (s : State) : Host.Outcome State Fault Refusal :=
  .next (s.on fun s => s.adminDoorbell f v)

/-- CQ_DOORBELL: Advances a CQ head and writes held completions (16 R421). -/
def execCqDoorbell (f : FnId) (v : Word) (s : State) : Host.Outcome State Fault Refusal :=
  .next (s.on fun s => s.cqDoorbell f v)

/-- HOST_VER_REQ: Write of HOST_VER.REQ negotiating the interface version (16 R427). -/
def execHostVerReq (f : FnId) (v : BitVec 16) (s : State) : Host.Outcome State Fault Refusal :=
  .next (s.on fun s => if s.portOn f.port then s.verReq f v else s)

/-- HOST_EVT_CTL: Write of the event ring head, freeing room and writing an OVERFLOW entry (16 R422). -/
def execHostEvtCtl (f : FnId) (v : Word) (s : State) : Host.Outcome State Fault Refusal :=
  .next (s.on fun s => if s.portOn f.port then s.evtCtl f v else s)

/-- ATTENTION_PULSE: After an event write's zero-length read completes, HSIG pulses high (16 R424). -/
def execAttentionPulse (h : HostPort) (s : State) : Host.Outcome State Fault Refusal :=
  .next (s.onAo fun s => s.attnPulse h)

/-- ATTENTION_PULSE_END: A pulse or its following low period ends, starting any merged pulse (16 R424). -/
def execAttentionPulseEnd (h : HostPort) (s : State) : Host.Outcome State Fault Refusal :=
  .next (s.onAo fun s => s.attnEnd h)

/-- BUSY_END: A busy cause ends and, after at least 250 ao, HSIG returns low (16 R425). -/
def execBusyEnd (h : HostPort) (s : State) : Host.Outcome State Fault Refusal :=
  .next (s.onAo fun s => s.busyEnd h)

/-- FUNCTION_LEVEL_RESET: A function-level reset of a PF or VF (16 R426). -/
def execFunctionLevelReset (f : FnId) (s : State) : Host.Outcome State Fault Refusal :=
  .next (s.on fun s => s.flr f)

/-- HOT_RESET: A hot reset of a host port (16 R426). -/
def execHotReset (h : HostPort) (s : State) : Host.Outcome State Fault Refusal :=
  .next (s.onAo fun s => s.hotReset h)

/-- PORT_LINK_DOWN: A host port's link goes down (16 R426). -/
def execPortLinkDown (h : HostPort) (s : State) : Host.Outcome State Fault Refusal :=
  .next (s.onAo fun s => s.hostLinkDown h)

/-- PERST_ASSERT: Assertion of PE PERST_N resets the port (18 R459). -/
def execPerstAssert (h : HostPort) (s : State) : Host.Outcome State Fault Refusal :=
  .next (s.onAo fun s => s.perst h)

/-- PORT_READY: A port becomes ready once start-up has ended, PERST is deasserted and its link is up (18 R459). -/
def execPortReady (h : HostPort) (s : State) : Host.Outcome State Fault Refusal :=
  .next (s.on fun s => s.portReady h)

end Sys2Proof.Machine
end

