-- ==== Sys2Proof/Machine/ExecLink.lean ====
section
/-!
DEFINITION. The meanings of the Shroud links and the reduction channels (15): one definition per command, over the shared
operations.
-/

namespace Sys2Proof.Machine

/-- SHROUD_FORWARD: A passing message is forwarded from entry port to exit port (15 R391). -/
def execShroudForward (pin : PortId) (pout : PortId) (msg : LinkMsg) (s : State) : Host.Outcome State Fault Refusal :=
  .next (s.on fun s => s.forward pin pout msg)

/-- REPLAY_REQUEST: A dropped flit causes a replay from the first unreceived flit (15 R384). -/
def execReplayRequest (r : ReplayReq) (s : State) : Host.Outcome State Fault Refusal :=
  .next (s.on fun s => s.replay r)

/-- LANE_LOCK_LOSS: A lane loses lock and the port goes down and retrains (15 R395). -/
def execLaneLockLoss (p : PortId) (s : State) : Host.Outcome State Fault Refusal :=
  .next (s.on fun s => s.lockLoss p)

/-- TRAINING_COMPLETE: A port finishes its training steps and comes up, or stays down (15 R385). -/
def execTrainingComplete (p : PortId) (r : TrainResult) (s : State) : Host.Outcome State Fault Refusal :=
  .next (s.on fun s => s.trained p r)

/-- PLUG_DETECT: A settled change of a port's plug-detect contact starts training or takes the port down (17 R449). -/
def execPlugDetect (p : PortId) (present : Bool) (s : State) : Host.Outcome State Fault Refusal :=
  .next (s.onAo fun s => s.plug p present)

/-- LINK_LOSS_WINDOW_EXPIRY: A port still down after 2 ms is lost and notices are sent (15 R395). -/
def execLinkLossWindowExpiry (p : PortId) (s : State) : Host.Outcome State Fault Refusal :=
  .next (s.on fun s => s.windowOver p)

/-- LINK_LOST_NOTICE: A link-lost notice arrives, is forwarded and fences affected jobs (15 R396). -/
def execLinkLostNotice (p : PortId) (n1 : BitVec 14) (n2 : BitVec 14) (s : State) : Host.Outcome State Fault Refusal :=
  .next (s.on fun s => s.lostNotice p n1 n2)

/-- FENCE_NOTICE: A fence notice arrives and fences the named job (15 R397). -/
def execFenceNotice (jobid : BitVec 16) (fromFault : Bool) (s : State) : Host.Outcome State Fault Refusal :=
  .next (s.on fun s => s.fenceNotice jobid fromFault)

/-- ALLREDUCE_RUN: A channel run in ALLREDUCE mode starts when P tokens are present (15 R401). -/
def execAllreduceRun (c : ChanId) (s : State) : Host.Outcome State Fault Refusal :=
  .next (s.on fun s => s.chanRun c 0)

/-- REDUCE_RUN: A channel run in REDUCE mode starts (15 R401). -/
def execReduceRun (c : ChanId) (s : State) : Host.Outcome State Fault Refusal :=
  .next (s.on fun s => s.chanRun c 1)

/-- BROADCAST_RUN: A channel run in BROADCAST mode starts (15 R401). -/
def execBroadcastRun (c : ChanId) (s : State) : Host.Outcome State Fault Refusal :=
  .next (s.on fun s => s.chanRun c 2)

/-- CHANNEL_SEGMENT: A segment message from a partner rank arrives at the staging area (15 R402). -/
def execChannelSegment (c : ChanId) (msg : SegMsg) (s : State) : Host.Outcome State Fault Refusal :=
  .next (s.on fun s => s.segArrives c msg)

/-- CHANNEL_SEGMENT_SEND: A rank sends a segment once its receiver has a free staging place (15 R402). -/
def execChannelSegmentSend (c : ChanId) (i : MastId) (s : State) : Host.Outcome State Fault Refusal :=
  .next (s.on fun s => s.segSend c i)

/-- CHANNEL_COMMAND: A combine or conversion runs in the arithmetic pipe when it is free (15 R404). -/
def execChannelCommand (c : ChanId) (i : MastId) (s : State) : Host.Outcome State Fault Refusal :=
  .next (s.on fun s => s.chanCommand c i)

/-- CHANNEL_RUN_COMPLETE: A run completes on a module and posts DONE (15 R405). -/
def execChannelRunComplete (c : ChanId) (s : State) : Host.Outcome State Fault Refusal :=
  .next (s.on fun s => s.chanComplete c)

/-- JOB_FAULT_MESSAGE: A mast's fault message reaches the per-module block, which records it and fences the job (18 R469). -/
def execJobFaultMessage (m : MastId) (s : State) : Host.Outcome State Fault Refusal :=
  .next (s.on fun s => s.faultMessage m)

/-- SHR_PCTL_RETRAIN: Write that starts a retrain of a Shroud port (15 R385). -/
def execShrPctlRetrain (p : PortId) (s : State) : Host.Outcome State Fault Refusal :=
  .next (s.on fun s => s.retrain p)

/-- SHR_JCTL_FENCE: Write that fences a job, stops its engines and sends fence notices (15 R398). -/
def execShrJctlFence (j : JobSlot) (s : State) : Host.Outcome State Fault Refusal :=
  .next (s.on fun s => s.fenceWrite j false)

/-- RC_CTL_DISCARD: Write that abandons a channel run and resets the channel (15 R407). -/
def execRcCtlDiscard (c : ChanId) (s : State) : Host.Outcome State Fault Refusal :=
  .next (s.on fun s => s.chanDiscard c)

end Sys2Proof.Machine
end

