-- ==== Sys2Proof/Machine/ExecMemory.lean ====
section
/-!
DEFINITION. The meanings of the caches, the homes, HBM and canvas (11, 12): one definition per command, over the shared
operations.
-/

namespace Sys2Proof.Machine

/-- GETS: A read-to-share request arrives at the home (12 R317). -/
def execGets (m : MastId) (line : Line) (s : State) : Host.Outcome State Fault Refusal :=
  .next (s.on fun s => s.reqArrives m line fun k => match k with | .getS wt => some (.getS m wt) | _ => none)

/-- GETM: A read-to-own request arrives at the home (12 R317). -/
def execGetm (m : MastId) (line : Line) (s : State) : Host.Outcome State Fault Refusal :=
  .next (s.on fun s => s.reqArrives m line fun k => match k with | .getM => some (.getM m) | _ => none)

/-- UPG: An upgrade request arrives at the home (12 R317). -/
def execUpg (m : MastId) (line : Line) (s : State) : Host.Outcome State Fault Refusal :=
  .next (s.on fun s => s.reqArrives m line fun k => match k with | .upg => some (.upg m) | _ => none)

/-- PUTM: A dirty writeback arrives at the home (12 R317). -/
def execPutm (m : MastId) (line : Line) (s : State) : Host.Outcome State Fault Refusal :=
  .next (s.on fun s => s.putMsg m line .m)

/-- PUTO: An owned-line writeback arrives at the home (12 R317). -/
def execPuto (m : MastId) (line : Line) (s : State) : Host.Outcome State Fault Refusal :=
  .next (s.on fun s => s.putMsg m line .o)

/-- PUTE: An exclusive line is given up at the home (12 R317). -/
def execPute (m : MastId) (line : Line) (s : State) : Host.Outcome State Fault Refusal :=
  .next (s.on fun s => s.putMsg m line .e)

/-- RDU: An uncached read arrives at the home (12 R317). -/
def execRdu (r : Requester) (line : Line) (off : Fin 128) (len : Nat) (s : State) : Host.Outcome State Fault Refusal :=
  .next (s.on fun s => s.rduArrives r line off len)

/-- WRU: An uncached byte-masked write arrives at the home (12 R317). -/
def execWru (r : Requester) (line : Line) (off : Fin 128) (data : WruData) (s : State) : Host.Outcome State Fault Refusal :=
  .next (s.on fun s => s.wruArrives r line off data.bytes data.crc)

/-- ATOM: An atomic or memory reduction arrives at the home and is performed (12 R329). -/
def execAtom (r : Requester) (line : Line) (off : Fin 128) (op : AtomReq) (s : State) : Host.Outcome State Fault Refusal :=
  .next (s.on fun s => s.atomArrives r line off op)

/-- HOME_FILL: HBM data for a home miss returns and the grant is sent (12 R319). -/
def execHomeFill (line : Line) (ecc : Ecc) (s : State) : Host.Outcome State Fault Refusal :=
  .next (s.on fun s => s.homeFill line ecc)

/-- DATAS: A shared grant arrives at the cache, which sends Cmp (12 R316). -/
def execDatas (m : MastId) (line : Line) (s : State) : Host.Outcome State Fault Refusal :=
  .next (s.on fun s => s.grantMsg m line .s)

/-- DATAE: An exclusive grant arrives at the cache (12 R316). -/
def execDatae (m : MastId) (line : Line) (s : State) : Host.Outcome State Fault Refusal :=
  .next (s.on fun s => s.grantMsg m line .e)

/-- DATAM: An owned grant arrives and write-queue bytes merge into it (12 R309). -/
def execDatam (m : MastId) (line : Line) (s : State) : Host.Outcome State Fault Refusal :=
  .next (s.on fun s => s.grantMsg m line .m)

/-- UPGACK: An upgrade grant arrives at the cache (12 R316). -/
def execUpgack (m : MastId) (line : Line) (s : State) : Host.Outcome State Fault Refusal :=
  .next (s.on fun s => s.upgMsg m line)

/-- PUTACK: A writeback acknowledgement frees a writeback buffer entry (12 R307). -/
def execPutack (m : MastId) (line : Line) (s : State) : Host.Outcome State Fault Refusal :=
  .next (s.on fun s => s.putAckMsg m line)

/-- NACK: A refusal arrives and schedules a retry (12 R323). -/
def execNack (m : MastId) (line : Line) (s : State) : Host.Outcome State Fault Refusal :=
  .next (s.on fun s => s.nackMsg m line)

/-- NACK_RETRY: The backoff after a Nack expires and the request is sent again (12 R323). -/
def execNackRetry (m : MastId) (line : Line) (s : State) : Host.Outcome State Fault Refusal :=
  .next (s.on fun s => s.nackRetry m line)

/-- INV: An invalidation arrives at a cache, which answers InvAck (12 R318). -/
def execInv (m : MastId) (line : Line) (s : State) : Host.Outcome State Fault Refusal :=
  .next (s.on fun s => s.invMsg m line)

/-- FWDS: A forward-to-share arrives at the owner (12 R318). -/
def execFwds (m : MastId) (line : Line) (s : State) : Host.Outcome State Fault Refusal :=
  .next (s.on fun s => s.fwdMsg m line (.fwdS m line) afterFwdS)

/-- FWDM: A forward-to-invalidate arrives at the owner (12 R318). -/
def execFwdm (m : MastId) (line : Line) (s : State) : Host.Outcome State Fault Refusal :=
  .next (s.on fun s => s.fwdMsg m line (.fwdM m line) afterFwdM)

/-- FWDR: A forward-keep-state arrives at the owner (12 R318). -/
def execFwdr (m : MastId) (line : Line) (s : State) : Host.Outcome State Fault Refusal :=
  .next (s.on fun s => s.fwdMsg m line (.fwdR m line) afterFwdR)

/-- INVACK: An invalidation answer arrives at the home (12 R317). -/
def execInvack (m : MastId) (line : Line) (s : State) : Host.Outcome State Fault Refusal :=
  .next (s.on fun s => s.invAckMsg m line)

/-- FWDDATA: Owner data arrives at the home (12 R325). -/
def execFwddata (m : MastId) (line : Line) (s : State) : Host.Outcome State Fault Refusal :=
  .next (s.on fun s => s.fwdDataMsg m line)

/-- HBM_WRITE_TURN: A pseudo-channel turns to writes and writes up to 8 queued lines (11 R285). -/
def execHbmWriteTurn (k : Fin 8) (pc : Fin 32) (s : State) : Host.Outcome State Fault Refusal :=
  .next (s.on fun s => s.hbmTurn k pc)

/-- HBM_REFRESH: A per-bank refresh issued at its fixed cadence (11 R286). -/
def execHbmRefresh (k : Fin 8) (pc : Fin 32) (bank : BitVec 8) (s : State) : Host.Outcome State Fault Refusal :=
  .next (s.on fun s => s.hbmRefresh k pc bank)

/-- HBM_SCRUB_READ: The scrub interval expires and one line is read and corrected (11 R290). -/
def execHbmScrubRead (k : Fin 8) (ecc : Ecc) (s : State) : Host.Outcome State Fault Refusal :=
  .next (s.on fun s => s.hbmScrub k ecc)

/-- CANVAS_SCRUB: An idle tier port reads its next line for scrubbing (11 R276). -/
def execCanvasScrub (m : MastId) (t : Fin 4) (ecc : Ecc) (s : State) : Host.Outcome State Fault Refusal :=
  .next (s.on fun s => s.canvasScrub m t ecc)

/-- DC_CTL_FLUSH: Write that writes back and invalidates the halted core's data cache (12 R332). -/
def execDcCtlFlush (m : MastId) (s : State) : Host.Outcome State Fault Refusal :=
  .next (s.on fun s => s.dcFlush m)

/-- SC_CTL_FLUSH: Write that starts a visit writing every dirty home line to HBM (12 R333). -/
def execScCtlFlush (d : DieId) (k : Fin 64) (s : State) : Host.Outcome State Fault Refusal :=
  .next (s.on fun s => s.scFlush d k)

/-- SC_FLUSH_DONE: The last flush write is acknowledged and FLUSHING clears (12 R333). -/
def execScFlushDone (d : DieId) (k : Fin 64) (s : State) : Host.Outcome State Fault Refusal :=
  .next (s.on fun s => s.scFlushDone d k)

/-- CMP_MESSAGE: A requester's Cmp arrives at the home, ending the line's busy state and answering any Put held at the line with PutAck (12 R321). -/
def execCmpMessage (m : MastId) (line : Line) (s : State) : Host.Outcome State Fault Refusal :=
  .next (s.on fun s => s.cmpMsg m line)

end Sys2Proof.Machine
end

