-- ==== Sys2Proof/Machine/ExecPower.lean ====
section
/-!
DEFINITION. The meanings of power, snapshots and the service panel (17): one definition per command, over the shared
operations.
-/

namespace Sys2Proof.Machine

/-- SNAP_CTL_REQ: Write requesting a counter snapshot (17 R443). -/
def execSnapCtlReq (s : State) : Host.Outcome State Fault Refusal :=
  .next (s.on fun s => s.snapReq)

/-- SNAPSHOT_TOKEN: The snapshot token reaches a unit, which copies its counters and sends markers (17 R443). -/
def execSnapshotToken (u : SnapUnit) (s : State) : Host.Outcome State Fault Refusal :=
  .next (s.on fun s => s.snapToken u)

/-- SNAP_MARKER: A snapshot marker arrives on a router input, closing its in-flight count (17 R444). -/
def execSnapMarker (n : Fin 128) (i : Fin 6) (k : Fin 3) (infl : BitVec 16) (s : State) : Host.Outcome State Fault Refusal :=
  .next (s.on fun s => s.snapMarker n i k infl)

/-- PWR_TRIM_REQ: Write that starts a trim change down the control tree (17 R440). -/
def execPwrTrimReq (v : BitVec 2) (s : State) : Host.Outcome State Fault Refusal :=
  .next (s.serve fun s => s.trimReq v)

/-- TRIM_APPLY: A unit applies a trim change at its next boundary and reports up (17 R440). -/
def execTrimApply (u : TrimUnit) (s : State) : Host.Outcome State Fault Refusal :=
  .next (s.on fun s => s.trimApply u)

/-- TRIM_CHANGE_DONE: The last report reaches the root and the new profile and cap apply (17 R440). -/
def execTrimChangeDone (s : State) : Host.Outcome State Fault Refusal :=
  .next (s.on fun s => s.trimDone)

/-- GOVERNOR_WINDOW: A 250 ao power window ends and the governor level may change (17 R441). -/
def execGovernorWindow (vin : BitVec 16) (iin : BitVec 16) (pin : BitVec 16) (s : State) : Host.Outcome State Fault Refusal :=
  .next (s.onAo fun s => s.govWindow vin iin pin)

/-- THERMAL_READING: Crowsnest reads the die sensors and may throttle or trip (17 R434). -/
def execThermalReading (tmax : BitVec 8) (s : State) : Host.Outcome State Fault Refusal :=
  .next (s.onAo fun s => s.thermal tmax)

/-- VIN_LOW: VIN below 46 V for 25 ao switches the compute domain off (17 R431). -/
def execVinLow (s : State) : Host.Outcome State Fault Refusal :=
  .next (s.onAo fun s => s.inputFault)

/-- STANDBY_LOSS: VIN below 40 V switches the always-on domain off (17 R431). -/
def execStandbyLoss (s : State) : Host.Outcome State Fault Refusal :=
  .next (s.onAo fun s => s.standbyLoss)

/-- VIN_HIGH: VIN above 58 V for 25 ao switches the compute domain off (17 R431). -/
def execVinHigh (s : State) : Host.Outcome State Fault Refusal :=
  .next (s.onAo fun s => s.inputFault)

/-- IIN_HIGH: Input current above 42 A averaged over 25 ao switches the compute domain off (17 R431). -/
def execIinHigh (s : State) : Host.Outcome State Fault Refusal :=
  .next (s.onAo fun s => s.inputFault)

/-- IIN_TRIP: Input current above 60 A opens the input switch (17 R431). -/
def execIinTrip (s : State) : Host.Outcome State Fault Refusal :=
  .next (s.onAo fun s => s.iinTrip)

/-- PRECHARGE_DONE: The bulk voltage reaches 47 V and the main switch closes (17 R432). -/
def execPrechargeDone (s : State) : Host.Outcome State Fault Refusal :=
  .next (s.onAo fun s => s.precharged)

/-- PRECHARGE_TIMEOUT: 47 V is not reached within 15 ms and the module does not start (17 R432). -/
def execPrechargeTimeout (s : State) : Host.Outcome State Fault Refusal :=
  .next (s.onAo fun s => s.prechargeFails)

/-- STRIKE_BUTTON_PRESS: The Strike button held 1 s starts a strike, or unstrikes in CLEAR (17 R446). -/
def execStrikeButtonPress (s : State) : Host.Outcome State Fault Refusal :=
  .next (s.serve fun s => s.buttonPress)

/-- FORCED_STRIKE: The button held 8 s forces the strike to CLEAR (17 R446). -/
def execForcedStrike (s : State) : Host.Outcome State Fault Refusal :=
  .next (s.serve fun s => s.forcedStrike)

/-- DRAIN_TIMEOUT: A drain not complete after 1 s forces the strike (17 R446). -/
def execDrainTimeout (s : State) : Host.Outcome State Fault Refusal :=
  .next (s.serve fun s => s.drainTimeout)

/-- DRAIN_COMPLETE: The drain's steps finish, moving the strike to CLEAR or ending drain busy (17 R447). -/
def execDrainComplete (s : State) : Host.Outcome State Fault Refusal :=
  .next (s.serve fun s => s.drainComplete)

/-- LEVER_OPEN: The latch lever opens, posting a lever event and possibly forcing a strike (17 R446). -/
def execLeverOpen (s : State) : Host.Outcome State Fault Refusal :=
  .next (s.onAo fun s => s.leverOpen)

/-- LEVER_CLOSE: The latch lever closes and posts a lever event (17 R446). -/
def execLeverClose (s : State) : Host.Outcome State Fault Refusal :=
  .next (s.onAo fun s => s.leverClose)

/-- LOCATE_TOUCH: A touch of the locate pad starts or stops the locate pattern (17 R448). -/
def execLocateTouch (s : State) : Host.Outcome State Fault Refusal :=
  .next (s.serve fun s => s.locateTouch)

/-- LOCATE_TIMEOUT: The locate pattern ends after 60 s (17 R448). -/
def execLocateTimeout (s : State) : Host.Outcome State Fault Refusal :=
  .next (s.serve fun s => s.setLocate false)

/-- STRIKE: SVC_CTL write that starts an orderly strike (17 R446). -/
def execStrike (s : State) : Host.Outcome State Fault Refusal :=
  .next (s.serve fun s => s.svcStrike)

/-- UNSTRIKE: SVC_CTL write that returns from CLEAR to IDLE (17 R446). -/
def execUnstrike (s : State) : Host.Outcome State Fault Refusal :=
  .next (s.serve fun s => s.svcUnstrike)

/-- LOCATE: SVC_CTL write that starts the locate pattern without an event (17 R448). -/
def execLocate (s : State) : Host.Outcome State Fault Refusal :=
  .next (s.serve fun s => s.setLocate true)

/-- LOCATE_OFF: SVC_CTL write that stops the locate pattern (17 R448). -/
def execLocateOff (s : State) : Host.Outcome State Fault Refusal :=
  .next (s.serve fun s => s.setLocate false)

end Sys2Proof.Machine
end

