-- ==== Sys2Proof/Machine/ExecSecurity.lean ====
section
/-!
DEFINITION. The meanings of start-up, security and register writes (01, 18): one definition per command, over the shared
operations.
-/

namespace Sys2Proof.Machine

/-- AO_RESET_EXIT: The always-on domain leaves reset and runs the power-on sequence (18 R456). -/
def execAoResetExit (b : BootInput) (s : State) : Host.Outcome State Fault Refusal :=
  .next (s.aoExit b)

/-- FW_CTL_BEGIN: Write that starts a firmware update (18 R464). -/
def execFwCtlBegin (s : State) : Host.Outcome State Fault Refusal :=
  .next (s.onAo fun s => s.fwBegin)

/-- FW_CTL_FINISH: Write that checks the staged image and writes it to the inactive bank (18 R464). -/
def execFwCtlFinish (c : CryptoFindings) (s : State) : Host.Outcome State Fault Refusal :=
  .next (s.onAo fun s => s.fwFinish c)

/-- FW_CTL_ABORT: Write that abandons a firmware update (18 R464). -/
def execFwCtlAbort (s : State) : Host.Outcome State Fault Refusal :=
  .next (s.onAo fun s => s.fwAbort)

/-- FW_CTL_COMMIT: Write that blows the SVN and revoke fuses (18 R462). -/
def execFwCtlCommit (s : State) : Host.Outcome State Fault Refusal :=
  .next (s.onAo fun s => s.fwCommit)

/-- MOD_RST_GO: Write that resets the module (18 R460). -/
def execModRstGo (b : BootInput) (s : State) : Host.Outcome State Fault Refusal :=
  .next (s.onAo fun s => s.modRst b)

/-- ATT_CTL_REQ: Write requesting an attestation report for the written nonce (18 R466). -/
def execAttCtlReq (s : State) : Host.Outcome State Fault Refusal :=
  .next (s.serve fun s => s.attReq)

/-- ATTESTATION_REQUEST: An MCTP attestation request carrying a nonce arrives (18 R466). -/
def execAttestationRequest (nonce : List Byte) (s : State) : Host.Outcome State Fault Refusal :=
  .next (s.serve fun s => s.attStart nonce)

/-- ATT_REPORT_DONE: The signed report is complete and DONE sets (18 R466). -/
def execAttReportDone (sig : List Byte) (s : State) : Host.Outcome State Fault Refusal :=
  .next (s.onAo fun s => s.attDone sig)

/-- NODE_RECORD_WRITE: The system manager writes the node record over MCTP (18 R458). -/
def execNodeRecordWrite (node : BitVec 14) (cfg : Word) (s : State) : Host.Outcome State Fault Refusal :=
  .next (s.serve fun s => s.recordNode node cfg)

/-- REGISTER_WRITE: A write to a register or window that has no row of its own, under the access rules (01 R474). -/
def execRegisterWrite (who : Who) (addr : RegAddr) (size : Nat) (v : Word) (s : State) : Host.Outcome State Fault Refusal :=
  .next (s.registerWrite who addr size v)

end Sys2Proof.Machine
end

