-- ==== Sys2Proof/Machine/ExecSheet.lean ====
section
/-!
DEFINITION. The meanings of the sheet engine (08, 09): one definition per command, over the shared
operations.
-/

namespace Sys2Proof.Machine

/-- SRUN: Captures a sheet descriptor and queues it (08 R216). -/
def execSrun (m : MastId) (b : SBody) (s : State) : Host.Outcome State Fault Refusal :=
  .next (s.core m (.s .srun b))

/-- DRAIN: Sheet descriptor that runs tiles through the fused chain to canvas (08 R218). -/
def execDrain (m : MastId) (s : State) : Host.Outcome State Fault Refusal :=
  .next (s.on fun s => s.sheetStart m 0)

/-- MAP: Row-mapped drain of a batch fire's tiles (08 R227). -/
def execMap (m : MastId) (s : State) : Host.Outcome State Fault Refusal :=
  .next (s.on fun s => s.sheetStart m 1)

/-- EWISE: Runs a canvas tensor through the fused chain (08 R218). -/
def execEwise (m : MastId) (s : State) : Host.Outcome State Fault Refusal :=
  .next (s.on fun s => s.sheetStart m 2)

/-- REDUCE: Row sum, maximum or top-k reduction (08 R228). -/
def execReduce (m : MastId) (s : State) : Host.Outcome State Fault Refusal :=
  .next (s.on fun s => s.sheetStart m 3)

/-- SAVE: Writes tile images to canvas (07 R192). -/
def execSave (m : MastId) (s : State) : Host.Outcome State Fault Refusal :=
  .next (s.on fun s => s.sheetStart m 4)

/-- LOAD: Writes tile images from canvas into tiles (07 R192). -/
def execLoad (m : MastId) (s : State) : Host.Outcome State Fault Refusal :=
  .next (s.on fun s => s.sheetStart m 5)

/-- BLOAD: Loads a bias register from one canvas row (08 R217). -/
def execBload (m : MastId) (s : State) : Host.Outcome State Fault Refusal :=
  .next (s.on fun s => s.sheetStart m 6)

/-- SOFTMAX: Row softmax in mode WHOLE, FIRST, NEXT or FINISH (09 R253). -/
def execSoftmax (m : MastId) (s : State) : Host.Outcome State Fault Refusal :=
  .next (s.on fun s => s.sheetStart m 7)

/-- RMSNORM: RMS normalisation of rows (09 R258). -/
def execRmsnorm (m : MastId) (s : State) : Host.Outcome State Fault Refusal :=
  .next (s.on fun s => s.sheetStart m 8)

/-- STATS: Row statistics records and exponent histogram (09 R260). -/
def execStats (m : MastId) (s : State) : Host.Outcome State Fault Refusal :=
  .next (s.on fun s => s.sheetStart m 9)

/-- SHEET_BEAT: The sheet engine issues one beat and writes its outputs (08 R226). -/
def execSheetBeat (m : MastId) (s : State) : Host.Outcome State Fault Refusal :=
  .next (s.on fun s => s.sheetBeat m)

/-- ROW_REPLY: A mapped row's REPLY token is posted after its last write (08 R227). -/
def execRowReply (m : MastId) (s : State) : Host.Outcome State Fault Refusal :=
  .next (s.on fun s => s.rowReply m)

/-- SHEET_DESC_DONE: A sheet descriptor's last write lands and DONE is posted (08 R226). -/
def execSheetDescDone (m : MastId) (s : State) : Host.Outcome State Fault Refusal :=
  .next (s.on fun s => s.sheetDone m)

/-- SHEET_CTL_STOP: Write requesting a stop of the sheet engine (08 R235). -/
def execSheetCtlStop (m : MastId) (s : State) : Host.Outcome State Fault Refusal :=
  .next (s.on fun s => s.sheetStop m)

/-- SHEET_STOPPED: The sheet engine stops at a row boundary and STOPPED sets (08 R235). -/
def execSheetStopped (m : MastId) (s : State) : Host.Outcome State Fault Refusal :=
  .next (s.on fun s => s.sheetStopped m)

/-- SHEET_CTL_RUN: Write that resumes the stopped sheet descriptor at ROW (08 R236). -/
def execSheetCtlRun (m : MastId) (s : State) : Host.Outcome State Fault Refusal :=
  .next (s.on fun s => s.sheetRun m)

/-- SHEET_CTL_DISCARD: Write that empties the stopped sheet queue (08 R239). -/
def execSheetCtlDiscard (m : MastId) (s : State) : Host.Outcome State Fault Refusal :=
  .next (s.on fun s => s.sheetDiscard m)

end Sys2Proof.Machine
end

