-- ==== Sys2Proof/Machine/ExecToken.lean ====
section
/-!
DEFINITION. The meanings of tokens and sail states (01, 02, 17): one definition per command, over the shared
operations.
-/

namespace Sys2Proof.Machine

/-- TOKEN_POST: A token post reaches its slot and adds 1, or is held if the slot is full (01 R36). -/
def execTokenPost (addr : BitVec 32) (src : Poster) (s : State) : Host.Outcome State Fault Refusal :=
  .next (s.on fun s => s.tokenPost addr src)

/-- HELD_POST_LAND: A held post lands in the cc after a consume makes room (01 R34). -/
def execHeldPostLand (slot : SlotId) (s : State) : Host.Outcome State Fault Refusal :=
  .next (s.on fun s => s.heldLand slot)

/-- TOKEN_STALL_EVENT: A command that has waited 2^24 cc posts a token-stall event (01 R41). -/
def execTokenStallEvent (m : MastId) (e : EngId) (s : State) : Host.Outcome State Fault Refusal :=
  .next (s.on fun s => s.tokenStall m e)

/-- REEF_ENTRY: An engine idle for 16 cc enters the reefed state (03 R100). -/
def execReefEntry (m : MastId) (e : EngId) (s : State) : Host.Outcome State Fault Refusal :=
  .next (s.on fun s => s.reefEntry m e)

/-- REEF_WAKE_DONE: An engine woken from reefed becomes set after 6 cc (01 R39). -/
def execReefWakeDone (m : MastId) (e : EngId) (s : State) : Host.Outcome State Fault Refusal :=
  .next (s.on fun s => s.reefWake m e)

/-- FURL_ENTRY: A mast idle for FURL ao stops its PLL (17 R436). -/
def execFurlEntry (m : MastId) (s : State) : Host.Outcome State Fault Refusal :=
  .next (s.on fun s => s.furlEntry m)

/-- FURL_WAKE_DONE: A woken mast's engines become reefed at the 250th ao edge (17 R437). -/
def execFurlWakeDone (m : MastId) (s : State) : Host.Outcome State Fault Refusal :=
  .next (s.on fun s => s.furlWake m)

/-- TOKEN_CTL_CLEAR: Write that zeroes every slot of the mast and discards held posts (01 R43). -/
def execTokenCtlClear (m : MastId) (s : State) : Host.Outcome State Fault Refusal :=
  .next (s.on fun s => s.tokenClear m)

end Sys2Proof.Machine
end

