-- ==== Sys2Proof/Machine/ExecVec.lean ====
section
/-!
DEFINITION. The meanings of the long-vector unit: the V0 and V1 syllables, returns, and its control register (04): one definition per command, over the shared
operations.
-/

namespace Sys2Proof.Machine

/-- VSETVL: Sets VL from A and VTYPE from the syllable and writes VL to A (04 R106). -/
def execVsetvl (m : MastId) (b : V1Body) (s : State) : Host.Outcome State Fault Refusal :=
  .next (s.core m (.v1 .vsetvl b))

/-- VFADD: Vector float add (04 R117). -/
def execVfadd (m : MastId) (b : V0Body) (s : State) : Host.Outcome State Fault Refusal :=
  .next (s.core m (.v0 .vfadd b))

/-- VFSUB: Vector float subtract b minus a (04 R117). -/
def execVfsub (m : MastId) (b : V0Body) (s : State) : Host.Outcome State Fault Refusal :=
  .next (s.core m (.v0 .vfsub b))

/-- VFRSUB: Vector float subtract a minus b (04 R117). -/
def execVfrsub (m : MastId) (b : V0Body) (s : State) : Host.Outcome State Fault Refusal :=
  .next (s.core m (.v0 .vfrsub b))

/-- VFMUL: Vector float multiply (04 R117). -/
def execVfmul (m : MastId) (b : V0Body) (s : State) : Host.Outcome State Fault Refusal :=
  .next (s.core m (.v0 .vfmul b))

/-- VFMA: Vector fused multiply-add into vd (04 R117). -/
def execVfma (m : MastId) (b : V0Body) (s : State) : Host.Outcome State Fault Refusal :=
  .next (s.core m (.v0 .vfma b))

/-- VFMS: Vector fused multiply-subtract from vd (04 R117). -/
def execVfms (m : MastId) (b : V0Body) (s : State) : Host.Outcome State Fault Refusal :=
  .next (s.core m (.v0 .vfms b))

/-- VFDIV: Vector float divide (04 R117). -/
def execVfdiv (m : MastId) (b : V0Body) (s : State) : Host.Outcome State Fault Refusal :=
  .next (s.core m (.v0 .vfdiv b))

/-- VFSQRT: Vector float square root (04 R117). -/
def execVfsqrt (m : MastId) (b : V0Body) (s : State) : Host.Outcome State Fault Refusal :=
  .next (s.core m (.v0 .vfsqrt b))

/-- VFMIN: Vector minimumNumber (04 R118). -/
def execVfmin (m : MastId) (b : V0Body) (s : State) : Host.Outcome State Fault Refusal :=
  .next (s.core m (.v0 .vfmin b))

/-- VFMAX: Vector maximumNumber (04 R118). -/
def execVfmax (m : MastId) (b : V0Body) (s : State) : Host.Outcome State Fault Refusal :=
  .next (s.core m (.v0 .vfmax b))

/-- VFABS: Vector clear of the sign bit (05 R146). -/
def execVfabs (m : MastId) (b : V0Body) (s : State) : Host.Outcome State Fault Refusal :=
  .next (s.core m (.v0 .vfabs b))

/-- VFNEG: Vector inversion of the sign bit (05 R146). -/
def execVfneg (m : MastId) (b : V0Body) (s : State) : Host.Outcome State Fault Refusal :=
  .next (s.core m (.v0 .vfneg b))

/-- VFCMP: Vector float compare into a mask register (04 R118). -/
def execVfcmp (m : MastId) (b : V0Body) (s : State) : Host.Outcome State Fault Refusal :=
  .next (s.core m (.v0 .vfcmp b))

/-- VFCVT: Vector format conversion over register groups (04 R120). -/
def execVfcvt (m : MastId) (b : V0Body) (s : State) : Host.Outcome State Fault Refusal :=
  .next (s.core m (.v0 .vfcvt b))

/-- VFREDSUM: Float sum reduction by a fixed pairwise tree (04 R119). -/
def execVfredsum (m : MastId) (b : V0Body) (s : State) : Host.Outcome State Fault Refusal :=
  .next (s.core m (.v0 .vfredsum b))

/-- VFREDMAX: Float maximum reduction (04 R119). -/
def execVfredmax (m : MastId) (b : V0Body) (s : State) : Host.Outcome State Fault Refusal :=
  .next (s.core m (.v0 .vfredmax b))

/-- VFREDMIN: Float minimum reduction (04 R119). -/
def execVfredmin (m : MastId) (b : V0Body) (s : State) : Host.Outcome State Fault Refusal :=
  .next (s.core m (.v0 .vfredmin b))

/-- VADD: Vector integer add modulo 2^SEW (04 R117). -/
def execVadd (m : MastId) (b : V0Body) (s : State) : Host.Outcome State Fault Refusal :=
  .next (s.core m (.v0 .vadd b))

/-- VSUB: Vector integer subtract (04 R117). -/
def execVsub (m : MastId) (b : V0Body) (s : State) : Host.Outcome State Fault Refusal :=
  .next (s.core m (.v0 .vsub b))

/-- VMUL: Vector integer multiply, low bits (04 R117). -/
def execVmul (m : MastId) (b : V0Body) (s : State) : Host.Outcome State Fault Refusal :=
  .next (s.core m (.v0 .vmul b))

/-- VMIN: Vector integer minimum (04 R117). -/
def execVmin (m : MastId) (b : V0Body) (s : State) : Host.Outcome State Fault Refusal :=
  .next (s.core m (.v0 .vmin b))

/-- VMAX: Vector integer maximum (04 R117). -/
def execVmax (m : MastId) (b : V0Body) (s : State) : Host.Outcome State Fault Refusal :=
  .next (s.core m (.v0 .vmax b))

/-- VAND: Vector bitwise AND (04 R117). -/
def execVand (m : MastId) (b : V0Body) (s : State) : Host.Outcome State Fault Refusal :=
  .next (s.core m (.v0 .vand b))

/-- VOR: Vector bitwise OR (04 R117). -/
def execVor (m : MastId) (b : V0Body) (s : State) : Host.Outcome State Fault Refusal :=
  .next (s.core m (.v0 .vor b))

/-- VXOR: Vector bitwise exclusive-or (04 R117). -/
def execVxor (m : MastId) (b : V0Body) (s : State) : Host.Outcome State Fault Refusal :=
  .next (s.core m (.v0 .vxor b))

/-- VSHL: Vector shift left (04 R117). -/
def execVshl (m : MastId) (b : V0Body) (s : State) : Host.Outcome State Fault Refusal :=
  .next (s.core m (.v0 .vshl b))

/-- VSHR: Vector shift right, arithmetic or logical by KIND (04 R117). -/
def execVshr (m : MastId) (b : V0Body) (s : State) : Host.Outcome State Fault Refusal :=
  .next (s.core m (.v0 .vshr b))

/-- VCMP: Vector integer compare into a mask register (04 R117). -/
def execVcmp (m : MastId) (b : V0Body) (s : State) : Host.Outcome State Fault Refusal :=
  .next (s.core m (.v0 .vcmp b))

/-- VREDSUM: Integer sum reduction (04 R119). -/
def execVredsum (m : MastId) (b : V0Body) (s : State) : Host.Outcome State Fault Refusal :=
  .next (s.core m (.v0 .vredsum b))

/-- VREDMAX: Integer maximum reduction (04 R119). -/
def execVredmax (m : MastId) (b : V0Body) (s : State) : Host.Outcome State Fault Refusal :=
  .next (s.core m (.v0 .vredmax b))

/-- VREDMIN: Integer minimum reduction (04 R119). -/
def execVredmin (m : MastId) (b : V0Body) (s : State) : Host.Outcome State Fault Refusal :=
  .next (s.core m (.v0 .vredmin b))

/-- VMERGE: Selects a or b per element under the mask (04 R117). -/
def execVmerge (m : MastId) (b : V0Body) (s : State) : Host.Outcome State Fault Refusal :=
  .next (s.core m (.v0 .vmerge b))

/-- VMV: Vector move (04 R117). -/
def execVmv (m : MastId) (b : V0Body) (s : State) : Host.Outcome State Fault Refusal :=
  .next (s.core m (.v0 .vmv b))

/-- VID: Writes each element's index (04 R117). -/
def execVid (m : MastId) (b : V0Body) (s : State) : Host.Outcome State Fault Refusal :=
  .next (s.core m (.v0 .vid b))

/-- KOP: Mask-register logical operation over all 1,024 bits (04 R117). -/
def execKop (m : MastId) (b : V0Body) (s : State) : Host.Outcome State Fault Refusal :=
  .next (s.core m (.v0 .kop b))

/-- KPOP: Counts the active elements under a mask into vd[0] (04 R117). -/
def execKpop (m : MastId) (b : V0Body) (s : State) : Host.Outcome State Fault Refusal :=
  .next (s.core m (.v0 .kpop b))

/-- VLD: Vector unit-stride load (04 R121). -/
def execVld (m : MastId) (b : V1Body) (s : State) : Host.Outcome State Fault Refusal :=
  .next (s.core m (.v1 .vld b))

/-- VST: Vector unit-stride store (04 R121). -/
def execVst (m : MastId) (b : V1Body) (s : State) : Host.Outcome State Fault Refusal :=
  .next (s.core m (.v1 .vst b))

/-- VLDS: Vector strided load (04 R121). -/
def execVlds (m : MastId) (b : V1Body) (s : State) : Host.Outcome State Fault Refusal :=
  .next (s.core m (.v1 .vlds b))

/-- VSTS: Vector strided store (04 R121). -/
def execVsts (m : MastId) (b : V1Body) (s : State) : Host.Outcome State Fault Refusal :=
  .next (s.core m (.v1 .vsts b))

/-- VLDX: Vector gather (04 R123). -/
def execVldx (m : MastId) (b : V1Body) (s : State) : Host.Outcome State Fault Refusal :=
  .next (s.core m (.v1 .vldx b))

/-- VSTX: Vector scatter in element order (04 R125). -/
def execVstx (m : MastId) (b : V1Body) (s : State) : Host.Outcome State Fault Refusal :=
  .next (s.core m (.v1 .vstx b))

/-- VKLD: Loads a mask register from 128 bytes (04 R121). -/
def execVkld (m : MastId) (b : V1Body) (s : State) : Host.Outcome State Fault Refusal :=
  .next (s.core m (.v1 .vkld b))

/-- VKST: Stores a mask register to 128 bytes (04 R121). -/
def execVkst (m : MastId) (b : V1Body) (s : State) : Host.Outcome State Fault Refusal :=
  .next (s.core m (.v1 .vkst b))

/-- VTBL: Table permute from one register (04 R121). -/
def execVtbl (m : MastId) (b : V1Body) (s : State) : Host.Outcome State Fault Refusal :=
  .next (s.core m (.v1 .vtbl b))

/-- VTBL2: Table permute from a register pair (04 R121). -/
def execVtbl2 (m : MastId) (b : V1Body) (s : State) : Host.Outcome State Fault Refusal :=
  .next (s.core m (.v1 .vtbl2 b))

/-- VCOMPRESS: Packs the active elements of a register (04 R121). -/
def execVcompress (m : MastId) (b : V1Body) (s : State) : Host.Outcome State Fault Refusal :=
  .next (s.core m (.v1 .vcompress b))

/-- VPOST: Posts a token from the long-vector unit (04 R121). -/
def execVpost (m : MastId) (b : V1Body) (s : State) : Host.Outcome State Fault Refusal :=
  .next (s.core m (.v1 .vpost b))

/-- VWAIT: Waits on and consumes long-vector-unit slots, holding the vector queue (04 R121). -/
def execVwait (m : MastId) (b : V1Body) (s : State) : Host.Outcome State Fault Refusal :=
  .next (s.core m (.v1 .vwait b))

/-- VECTOR_LOAD_RETURN: A line or element requested by the memory pipe returns and is written to its register (04 R123). -/
def execVectorLoadReturn (m : MastId) (remote : RemoteData) (s : State) : Host.Outcome State Fault Refusal :=
  .next (s.on fun s => s.vecReturn m remote)

/-- VEC_CTL_STOP: Write requesting a stop of the long-vector unit (04 R126). -/
def execVecCtlStop (m : MastId) (s : State) : Host.Outcome State Fault Refusal :=
  .next (s.on fun s => s.vecStop m)

/-- VEC_STOPPED: Both vector pipes reach beat boundaries and STOPPED sets (04 R126). -/
def execVecStopped (m : MastId) (s : State) : Host.Outcome State Fault Refusal :=
  .next (s.on fun s => s.vecStopped m)

/-- VEC_CTL_RUN: Write that resumes the stopped long-vector unit from VIDX (04 R129). -/
def execVecCtlRun (m : MastId) (s : State) : Host.Outcome State Fault Refusal :=
  .next (s.on fun s => s.vecRun m)

/-- VEC_CTL_DISCARD: Write that empties the stopped vector queue and clears VIDX (04 R130). -/
def execVecCtlDiscard (m : MastId) (s : State) : Host.Outcome State Fault Refusal :=
  .next (s.on fun s => s.vecDiscard m)

end Sys2Proof.Machine
end

