-- ==== Sys2Proof/Machine/ExecXlate.lean ====
section
/-!
DEFINITION. The meanings of address translation (13): one definition per command, over the shared
operations.
-/

namespace Sys2Proof.Machine

/-- WALK_REQUEST: A translation-buffer miss sends a walk request to the die's pool, queued or merged (13 R345). -/
def execWalkRequest (m : MastId) (e : EngId) (va : BitVec 56) (s : State) : Host.Outcome State Fault Refusal :=
  .next (s.on fun s => s.walkRequest m e va)

/-- WALK_COMPLETE: A walk finishes and installs the leaf and walk-cache entries (13 R347). -/
def execWalkComplete (d : DieId) (asid : BitVec 12) (vpn : BitVec 40) (s : State) : Host.Outcome State Fault Refusal :=
  .next (s.on fun s => s.walkComplete d asid vpn)

/-- FAULT_RECORD_WRITE: A translation fault writes its record into the fault ring, or is held while it is full (13 R350). -/
def execFaultRecordWrite (m : MastId) (e : EngId) (s : State) : Host.Outcome State Fault Refusal :=
  .next (s.on fun s => s.recordWrite m e)

/-- FAULT_RECORD_ACK: The record write is acknowledged and the engine raises its exception (13 R350). -/
def execFaultRecordAck (m : MastId) (e : EngId) (s : State) : Host.Outcome State Fault Refusal :=
  .next (s.on fun s => s.recordAck m e)

/-- FQ_TIMEOUT: A fault held 2^20 cc sets TIMEOUT and faults the job (13 R351). -/
def execFqTimeout (m : MastId) (s : State) : Host.Outcome State Fault Refusal :=
  .next (s.on fun s => s.fqTimeout m)

/-- BOUND_EXCEEDED: A request exceeds its class bound and faults the job (01 R26). -/
def execBoundExceeded (m : MastId) (e : EngId) (s : State) : Host.Outcome State Fault Refusal :=
  .next (s.on fun s => s.boundExceeded m e)

/-- FQ_BASE_WRITE: Write of FQ_BASE that clears FQ_HEAD, FQ_TAIL and FQ_SEQ (13 R357). -/
def execFqBaseWrite (m : MastId) (v : Word) (s : State) : Host.Outcome State Fault Refusal :=
  .next (s.on fun s => s.fqBaseWrite m v)

/-- FQ_HEAD_WRITE: Write of FQ_HEAD that frees ring places for held faults (13 R351). -/
def execFqHeadWrite (m : MastId) (v : Word) (s : State) : Host.Outcome State Fault Refusal :=
  .next (s.on fun s => s.fqHeadWrite m v)

/-- XL_INV_CMD: Write that queues a translation invalidation command (13 R354). -/
def execXlInvCmd (v : Word) (s : State) : Host.Outcome State Fault Refusal :=
  .next (s.on fun s => s.invCmd v)

/-- INV_APPLY: 64 cc after an invalidation starts, matching translations are removed (13 R354). -/
def execInvApply (s : State) : Host.Outcome State Fault Refusal :=
  .next (s.on fun s => s.invApply)

/-- INV_COMPLETE: Uses of removed translations drain and the command completes (13 R354). -/
def execInvComplete (s : State) : Host.Outcome State Fault Refusal :=
  .next (s.on fun s => s.invComplete)

end Sys2Proof.Machine
end

