-- ==== Sys2Proof/Machine/Dispatch.lean ====
section
/-!
DEFINITION. The dispatch: one arm per command, each a direct call of its meaning.
-/

namespace Sys2Proof.Machine

/-- The effect of a command on everything but the queue. -/
def exec (i : Instr) (s : State) : Host.Outcome State Fault Refusal :=
  match i with
  | .ld m b => Sys2Proof.Machine.execLd m b s
  | .add m b => Sys2Proof.Machine.execAdd m b s
  | .adc m b => Sys2Proof.Machine.execAdc m b s
  | .sub m b => Sys2Proof.Machine.execSub m b s
  | .sbc m b => Sys2Proof.Machine.execSbc m b s
  | .and m b => Sys2Proof.Machine.execAnd m b s
  | .or m b => Sys2Proof.Machine.execOr m b s
  | .xor m b => Sys2Proof.Machine.execXor m b s
  | .cmp m b => Sys2Proof.Machine.execCmp m b s
  | .tst m b => Sys2Proof.Machine.execTst m b s
  | .shl m b => Sys2Proof.Machine.execShl m b s
  | .shr m b => Sys2Proof.Machine.execShr m b s
  | .sar m b => Sys2Proof.Machine.execSar m b s
  | .rol m b => Sys2Proof.Machine.execRol m b s
  | .min m b => Sys2Proof.Machine.execMin m b s
  | .max m b => Sys2Proof.Machine.execMax m b s
  | .minu m b => Sys2Proof.Machine.execMinu m b s
  | .maxu m b => Sys2Proof.Machine.execMaxu m b s
  | .mul m b => Sys2Proof.Machine.execMul m b s
  | .mulu m b => Sys2Proof.Machine.execMulu m b s
  | .mac m b => Sys2Proof.Machine.execMac m b s
  | .macu m b => Sys2Proof.Machine.execMacu m b s
  | .neg m b => Sys2Proof.Machine.execNeg m b s
  | .not m b => Sys2Proof.Machine.execNot m b s
  | .sext m b => Sys2Proof.Machine.execSext m b s
  | .clz m b => Sys2Proof.Machine.execClz m b s
  | .popc m b => Sys2Proof.Machine.execPopc m b s
  | .movh m b => Sys2Proof.Machine.execMovh m b s
  | .mfsr m b => Sys2Proof.Machine.execMfsr m b s
  | .mtsr m b => Sys2Proof.Machine.execMtsr m b s
  | .ldx m b => Sys2Proof.Machine.execLdx m b s
  | .ldy m b => Sys2Proof.Machine.execLdy m b s
  | .lda m b => Sys2Proof.Machine.execLda m b s
  | .sta m b => Sys2Proof.Machine.execSta m b s
  | .stx m b => Sys2Proof.Machine.execStx m b s
  | .sty m b => Sys2Proof.Machine.execSty m b s
  | .leax m b => Sys2Proof.Machine.execLeax m b s
  | .leay m b => Sys2Proof.Machine.execLeay m b s
  | .push m b => Sys2Proof.Machine.execPush m b s
  | .pop m b => Sys2Proof.Machine.execPop m b s
  | .ldg m b => Sys2Proof.Machine.execLdg m b s
  | .stg m b => Sys2Proof.Machine.execStg m b s
  | .post m b => Sys2Proof.Machine.execPost m b s
  | .fence m b => Sys2Proof.Machine.execFence m b s
  | .aadd m b => Sys2Proof.Machine.execAadd m b s
  | .aand m b => Sys2Proof.Machine.execAand m b s
  | .aor m b => Sys2Proof.Machine.execAor m b s
  | .axor m b => Sys2Proof.Machine.execAxor m b s
  | .amin m b => Sys2Proof.Machine.execAmin m b s
  | .amax m b => Sys2Proof.Machine.execAmax m b s
  | .aminu m b => Sys2Proof.Machine.execAminu m b s
  | .amaxu m b => Sys2Proof.Machine.execAmaxu m b s
  | .aswap m b => Sys2Proof.Machine.execAswap m b s
  | .acas m b => Sys2Proof.Machine.execAcas m b s
  | .afadd m b => Sys2Proof.Machine.execAfadd m b s
  | .radd m b => Sys2Proof.Machine.execRadd m b s
  | .rfadd m b => Sys2Proof.Machine.execRfadd m b s
  | .rmin m b => Sys2Proof.Machine.execRmin m b s
  | .rmax m b => Sys2Proof.Machine.execRmax m b s
  | .br m b => Sys2Proof.Machine.execBr m b s
  | .call m b => Sys2Proof.Machine.execCall m b s
  | .calla m b => Sys2Proof.Machine.execCalla m b s
  | .ja m b => Sys2Proof.Machine.execJa m b s
  | .ret m b => Sys2Proof.Machine.execRet m b s
  | .loop m b => Sys2Proof.Machine.execLoop m b s
  | .twait m b => Sys2Proof.Machine.execTwait m b s
  | .gate m b => Sys2Proof.Machine.execGate m b s
  | .rfe m b => Sys2Proof.Machine.execRfe m b s
  | .halt m b => Sys2Proof.Machine.execHalt m b s
  | .ifence m b => Sys2Proof.Machine.execIfence m b s
  | .vsetvl m b => Sys2Proof.Machine.execVsetvl m b s
  | .vfadd m b => Sys2Proof.Machine.execVfadd m b s
  | .vfsub m b => Sys2Proof.Machine.execVfsub m b s
  | .vfrsub m b => Sys2Proof.Machine.execVfrsub m b s
  | .vfmul m b => Sys2Proof.Machine.execVfmul m b s
  | .vfma m b => Sys2Proof.Machine.execVfma m b s
  | .vfms m b => Sys2Proof.Machine.execVfms m b s
  | .vfdiv m b => Sys2Proof.Machine.execVfdiv m b s
  | .vfsqrt m b => Sys2Proof.Machine.execVfsqrt m b s
  | .vfmin m b => Sys2Proof.Machine.execVfmin m b s
  | .vfmax m b => Sys2Proof.Machine.execVfmax m b s
  | .vfabs m b => Sys2Proof.Machine.execVfabs m b s
  | .vfneg m b => Sys2Proof.Machine.execVfneg m b s
  | .vfcmp m b => Sys2Proof.Machine.execVfcmp m b s
  | .vfcvt m b => Sys2Proof.Machine.execVfcvt m b s
  | .vfredsum m b => Sys2Proof.Machine.execVfredsum m b s
  | .vfredmax m b => Sys2Proof.Machine.execVfredmax m b s
  | .vfredmin m b => Sys2Proof.Machine.execVfredmin m b s
  | .vadd m b => Sys2Proof.Machine.execVadd m b s
  | .vsub m b => Sys2Proof.Machine.execVsub m b s
  | .vmul m b => Sys2Proof.Machine.execVmul m b s
  | .vmin m b => Sys2Proof.Machine.execVmin m b s
  | .vmax m b => Sys2Proof.Machine.execVmax m b s
  | .vand m b => Sys2Proof.Machine.execVand m b s
  | .vor m b => Sys2Proof.Machine.execVor m b s
  | .vxor m b => Sys2Proof.Machine.execVxor m b s
  | .vshl m b => Sys2Proof.Machine.execVshl m b s
  | .vshr m b => Sys2Proof.Machine.execVshr m b s
  | .vcmp m b => Sys2Proof.Machine.execVcmp m b s
  | .vredsum m b => Sys2Proof.Machine.execVredsum m b s
  | .vredmax m b => Sys2Proof.Machine.execVredmax m b s
  | .vredmin m b => Sys2Proof.Machine.execVredmin m b s
  | .vmerge m b => Sys2Proof.Machine.execVmerge m b s
  | .vmv m b => Sys2Proof.Machine.execVmv m b s
  | .vid m b => Sys2Proof.Machine.execVid m b s
  | .kop m b => Sys2Proof.Machine.execKop m b s
  | .kpop m b => Sys2Proof.Machine.execKpop m b s
  | .vld m b => Sys2Proof.Machine.execVld m b s
  | .vst m b => Sys2Proof.Machine.execVst m b s
  | .vlds m b => Sys2Proof.Machine.execVlds m b s
  | .vsts m b => Sys2Proof.Machine.execVsts m b s
  | .vldx m b => Sys2Proof.Machine.execVldx m b s
  | .vstx m b => Sys2Proof.Machine.execVstx m b s
  | .vkld m b => Sys2Proof.Machine.execVkld m b s
  | .vkst m b => Sys2Proof.Machine.execVkst m b s
  | .vtbl m b => Sys2Proof.Machine.execVtbl m b s
  | .vtbl2 m b => Sys2Proof.Machine.execVtbl2 m b s
  | .vcompress m b => Sys2Proof.Machine.execVcompress m b s
  | .vpost m b => Sys2Proof.Machine.execVpost m b s
  | .vwait m b => Sys2Proof.Machine.execVwait m b s
  | .vectorLoadReturn m remote => Sys2Proof.Machine.execVectorLoadReturn m remote s
  | .xpass m b => Sys2Proof.Machine.execXpass m b s
  | .xbfill m b => Sys2Proof.Machine.execXbfill m b s
  | .xbdisarm m b => Sys2Proof.Machine.execXbdisarm m b s
  | .passStart m a => Sys2Proof.Machine.execPassStart m a s
  | .kStepWrite m t => Sys2Proof.Machine.execKStepWrite m t s
  | .operandRelease m a => Sys2Proof.Machine.execOperandRelease m a s
  | .repeatStart m a => Sys2Proof.Machine.execRepeatStart m a s
  | .batchFire m a q => Sys2Proof.Machine.execBatchFire m a q s
  | .fillTimerExpiry m a q => Sys2Proof.Machine.execFillTimerExpiry m a q s
  | .fireAssembly m a => Sys2Proof.Machine.execFireAssembly m a s
  | .batchPassStart m a => Sys2Proof.Machine.execBatchPassStart m a s
  | .srun m b => Sys2Proof.Machine.execSrun m b s
  | .drain m => Sys2Proof.Machine.execDrain m s
  | .map m => Sys2Proof.Machine.execMap m s
  | .ewise m => Sys2Proof.Machine.execEwise m s
  | .reduce m => Sys2Proof.Machine.execReduce m s
  | .save m => Sys2Proof.Machine.execSave m s
  | .load m => Sys2Proof.Machine.execLoad m s
  | .bload m => Sys2Proof.Machine.execBload m s
  | .softmax m => Sys2Proof.Machine.execSoftmax m s
  | .rmsnorm m => Sys2Proof.Machine.execRmsnorm m s
  | .stats m => Sys2Proof.Machine.execStats m s
  | .sheetBeat m => Sys2Proof.Machine.execSheetBeat m s
  | .rowReply m => Sys2Proof.Machine.execRowReply m s
  | .sheetDescDone m => Sys2Proof.Machine.execSheetDescDone m s
  | .hrun m b => Sys2Proof.Machine.execHrun m b s
  | .copy m => Sys2Proof.Machine.execCopy m s
  | .skew m => Sys2Proof.Machine.execSkew m s
  | .tskew m => Sys2Proof.Machine.execTskew m s
  | .trans m => Sys2Proof.Machine.execTrans m s
  | .fill m => Sys2Proof.Machine.execFill m s
  | .halLineWrite m ch remote => Sys2Proof.Machine.execHalLineWrite m ch remote s
  | .halDescComplete m ch => Sys2Proof.Machine.execHalDescComplete m ch s
  | .tokenPost addr src => Sys2Proof.Machine.execTokenPost addr src s
  | .heldPostLand slot => Sys2Proof.Machine.execHeldPostLand slot s
  | .tokenStallEvent m e => Sys2Proof.Machine.execTokenStallEvent m e s
  | .reefEntry m e => Sys2Proof.Machine.execReefEntry m e s
  | .reefWakeDone m e => Sys2Proof.Machine.execReefWakeDone m e s
  | .furlEntry m => Sys2Proof.Machine.execFurlEntry m s
  | .furlWakeDone m => Sys2Proof.Machine.execFurlWakeDone m s
  | .multiplyWrite m => Sys2Proof.Machine.execMultiplyWrite m s
  | .loadDataReturn m remote => Sys2Proof.Machine.execLoadDataReturn m remote s
  | .storeWriteSlot m => Sys2Proof.Machine.execStoreWriteSlot m s
  | .writeAck m e => Sys2Proof.Machine.execWriteAck m e s
  | .haltComplete m => Sys2Proof.Machine.execHaltComplete m s
  | .trapEntry m => Sys2Proof.Machine.execTrapEntry m s
  | .walkRequest m e va => Sys2Proof.Machine.execWalkRequest m e va s
  | .walkComplete d asid vpn => Sys2Proof.Machine.execWalkComplete d asid vpn s
  | .faultRecordWrite m e => Sys2Proof.Machine.execFaultRecordWrite m e s
  | .faultRecordAck m e => Sys2Proof.Machine.execFaultRecordAck m e s
  | .fqTimeout m => Sys2Proof.Machine.execFqTimeout m s
  | .boundExceeded m e => Sys2Proof.Machine.execBoundExceeded m e s
  | .gets m line => Sys2Proof.Machine.execGets m line s
  | .getm m line => Sys2Proof.Machine.execGetm m line s
  | .upg m line => Sys2Proof.Machine.execUpg m line s
  | .putm m line => Sys2Proof.Machine.execPutm m line s
  | .puto m line => Sys2Proof.Machine.execPuto m line s
  | .pute m line => Sys2Proof.Machine.execPute m line s
  | .rdu r line off len => Sys2Proof.Machine.execRdu r line off len s
  | .wru r line off data => Sys2Proof.Machine.execWru r line off data s
  | .atom r line off op => Sys2Proof.Machine.execAtom r line off op s
  | .homeFill line ecc => Sys2Proof.Machine.execHomeFill line ecc s
  | .datas m line => Sys2Proof.Machine.execDatas m line s
  | .datae m line => Sys2Proof.Machine.execDatae m line s
  | .datam m line => Sys2Proof.Machine.execDatam m line s
  | .upgack m line => Sys2Proof.Machine.execUpgack m line s
  | .putack m line => Sys2Proof.Machine.execPutack m line s
  | .nack m line => Sys2Proof.Machine.execNack m line s
  | .nackRetry m line => Sys2Proof.Machine.execNackRetry m line s
  | .inv m line => Sys2Proof.Machine.execInv m line s
  | .fwds m line => Sys2Proof.Machine.execFwds m line s
  | .fwdm m line => Sys2Proof.Machine.execFwdm m line s
  | .fwdr m line => Sys2Proof.Machine.execFwdr m line s
  | .invack m line => Sys2Proof.Machine.execInvack m line s
  | .fwddata m line => Sys2Proof.Machine.execFwddata m line s
  | .hbmWriteTurn k pc => Sys2Proof.Machine.execHbmWriteTurn k pc s
  | .hbmRefresh k pc bank => Sys2Proof.Machine.execHbmRefresh k pc bank s
  | .hbmScrubRead k ecc => Sys2Proof.Machine.execHbmScrubRead k ecc s
  | .canvasScrub m t ecc => Sys2Proof.Machine.execCanvasScrub m t ecc s
  | .shroudForward pin pout msg => Sys2Proof.Machine.execShroudForward pin pout msg s
  | .replayRequest p => Sys2Proof.Machine.execReplayRequest p s
  | .laneLockLoss p => Sys2Proof.Machine.execLaneLockLoss p s
  | .trainingComplete p r => Sys2Proof.Machine.execTrainingComplete p r s
  | .plugDetect p present => Sys2Proof.Machine.execPlugDetect p present s
  | .linkLossWindowExpiry p => Sys2Proof.Machine.execLinkLossWindowExpiry p s
  | .linkLostNotice p n1 n2 => Sys2Proof.Machine.execLinkLostNotice p n1 n2 s
  | .fenceNotice jobid fromFault => Sys2Proof.Machine.execFenceNotice jobid fromFault s
  | .allreduceRun c => Sys2Proof.Machine.execAllreduceRun c s
  | .reduceRun c => Sys2Proof.Machine.execReduceRun c s
  | .broadcastRun c => Sys2Proof.Machine.execBroadcastRun c s
  | .channelSegment c msg => Sys2Proof.Machine.execChannelSegment c msg s
  | .channelSegmentSend c m => Sys2Proof.Machine.execChannelSegmentSend c m s
  | .channelCommand c m => Sys2Proof.Machine.execChannelCommand c m s
  | .channelRunComplete c => Sys2Proof.Machine.execChannelRunComplete c s
  | .jobFaultMessage m => Sys2Proof.Machine.execJobFaultMessage m s
  | .nop r => Sys2Proof.Machine.execNop r s
  | .copyIn r data => Sys2Proof.Machine.execCopyIn r data s
  | .copyOut r => Sys2Proof.Machine.execCopyOut r s
  | .postCmd r => Sys2Proof.Machine.execPostCmd r s
  | .invalidate r => Sys2Proof.Machine.execInvalidate r s
  | .jobLoad r image param => Sys2Proof.Machine.execJobLoad r image param s
  | .jobStart r => Sys2Proof.Machine.execJobStart r s
  | .jobFence r => Sys2Proof.Machine.execJobFence r s
  | .jobEnd r => Sys2Proof.Machine.execJobEnd r s
  | .createSq r => Sys2Proof.Machine.execCreateSq r s
  | .deleteSq r => Sys2Proof.Machine.execDeleteSq r s
  | .createCq r => Sys2Proof.Machine.execCreateCq r s
  | .deleteCq r => Sys2Proof.Machine.execDeleteCq r s
  | .grantQids r => Sys2Proof.Machine.execGrantQids r s
  | .sqFetch f q entry => Sys2Proof.Machine.execSqFetch f q entry s
  | .commandCompletion r => Sys2Proof.Machine.execCommandCompletion r s
  | .doorbell f v => Sys2Proof.Machine.execDoorbell f v s
  | .adminDoorbell f v => Sys2Proof.Machine.execAdminDoorbell f v s
  | .cqDoorbell f v => Sys2Proof.Machine.execCqDoorbell f v s
  | .hostVerReq f v => Sys2Proof.Machine.execHostVerReq f v s
  | .hostEvtCtl f v => Sys2Proof.Machine.execHostEvtCtl f v s
  | .attentionPulse h => Sys2Proof.Machine.execAttentionPulse h s
  | .attentionPulseEnd h => Sys2Proof.Machine.execAttentionPulseEnd h s
  | .busyEnd h => Sys2Proof.Machine.execBusyEnd h s
  | .functionLevelReset f => Sys2Proof.Machine.execFunctionLevelReset f s
  | .hotReset h => Sys2Proof.Machine.execHotReset h s
  | .portLinkDown h => Sys2Proof.Machine.execPortLinkDown h s
  | .perstAssert h => Sys2Proof.Machine.execPerstAssert h s
  | .portReady h => Sys2Proof.Machine.execPortReady h s
  | .ccCtlStart m => Sys2Proof.Machine.execCcCtlStart m s
  | .ccCtlStop m => Sys2Proof.Machine.execCcCtlStop m s
  | .ccIrqSet m v => Sys2Proof.Machine.execCcIrqSet m v s
  | .tokenCtlClear m => Sys2Proof.Machine.execTokenCtlClear m s
  | .vecCtlStop m => Sys2Proof.Machine.execVecCtlStop m s
  | .vecStopped m => Sys2Proof.Machine.execVecStopped m s
  | .vecCtlRun m => Sys2Proof.Machine.execVecCtlRun m s
  | .vecCtlDiscard m => Sys2Proof.Machine.execVecCtlDiscard m s
  | .arrCtlStop m a => Sys2Proof.Machine.execArrCtlStop m a s
  | .arrStopped m a => Sys2Proof.Machine.execArrStopped m a s
  | .arrCtlRun m a => Sys2Proof.Machine.execArrCtlRun m a s
  | .arrCtlDiscard m a => Sys2Proof.Machine.execArrCtlDiscard m a s
  | .sheetCtlStop m => Sys2Proof.Machine.execSheetCtlStop m s
  | .sheetStopped m => Sys2Proof.Machine.execSheetStopped m s
  | .sheetCtlRun m => Sys2Proof.Machine.execSheetCtlRun m s
  | .sheetCtlDiscard m => Sys2Proof.Machine.execSheetCtlDiscard m s
  | .halCtlStop m => Sys2Proof.Machine.execHalCtlStop m s
  | .halStopped m => Sys2Proof.Machine.execHalStopped m s
  | .halCtlRun m => Sys2Proof.Machine.execHalCtlRun m s
  | .halCtlDiscard m => Sys2Proof.Machine.execHalCtlDiscard m s
  | .dcCtlFlush m => Sys2Proof.Machine.execDcCtlFlush m s
  | .scCtlFlush d k => Sys2Proof.Machine.execScCtlFlush d k s
  | .scFlushDone d k => Sys2Proof.Machine.execScFlushDone d k s
  | .fqBaseWrite m v => Sys2Proof.Machine.execFqBaseWrite m v s
  | .fqHeadWrite m v => Sys2Proof.Machine.execFqHeadWrite m v s
  | .xlInvCmd v => Sys2Proof.Machine.execXlInvCmd v s
  | .invApply => Sys2Proof.Machine.execInvApply s
  | .invComplete => Sys2Proof.Machine.execInvComplete s
  | .shrPctlRetrain p => Sys2Proof.Machine.execShrPctlRetrain p s
  | .shrJctlFence j => Sys2Proof.Machine.execShrJctlFence j s
  | .rcCtlDiscard c => Sys2Proof.Machine.execRcCtlDiscard c s
  | .snapCtlReq => Sys2Proof.Machine.execSnapCtlReq s
  | .snapshotToken u => Sys2Proof.Machine.execSnapshotToken u s
  | .snapMarker n inp k infl => Sys2Proof.Machine.execSnapMarker n inp k infl s
  | .pwrTrimReq v => Sys2Proof.Machine.execPwrTrimReq v s
  | .trimApply u => Sys2Proof.Machine.execTrimApply u s
  | .trimChangeDone => Sys2Proof.Machine.execTrimChangeDone s
  | .governorWindow vin iin pin => Sys2Proof.Machine.execGovernorWindow vin iin pin s
  | .thermalReading tmax => Sys2Proof.Machine.execThermalReading tmax s
  | .vinLow => Sys2Proof.Machine.execVinLow s
  | .standbyLoss => Sys2Proof.Machine.execStandbyLoss s
  | .vinHigh => Sys2Proof.Machine.execVinHigh s
  | .iinHigh => Sys2Proof.Machine.execIinHigh s
  | .iinTrip => Sys2Proof.Machine.execIinTrip s
  | .prechargeDone => Sys2Proof.Machine.execPrechargeDone s
  | .prechargeTimeout => Sys2Proof.Machine.execPrechargeTimeout s
  | .aoResetExit b => Sys2Proof.Machine.execAoResetExit b s
  | .strikeButtonPress => Sys2Proof.Machine.execStrikeButtonPress s
  | .forcedStrike => Sys2Proof.Machine.execForcedStrike s
  | .drainTimeout => Sys2Proof.Machine.execDrainTimeout s
  | .drainComplete => Sys2Proof.Machine.execDrainComplete s
  | .leverOpen => Sys2Proof.Machine.execLeverOpen s
  | .leverClose => Sys2Proof.Machine.execLeverClose s
  | .locateTouch => Sys2Proof.Machine.execLocateTouch s
  | .locateTimeout => Sys2Proof.Machine.execLocateTimeout s
  | .strike => Sys2Proof.Machine.execStrike s
  | .unstrike => Sys2Proof.Machine.execUnstrike s
  | .locate => Sys2Proof.Machine.execLocate s
  | .locateOff => Sys2Proof.Machine.execLocateOff s
  | .fwCtlBegin => Sys2Proof.Machine.execFwCtlBegin s
  | .fwCtlFinish c => Sys2Proof.Machine.execFwCtlFinish c s
  | .fwCtlAbort => Sys2Proof.Machine.execFwCtlAbort s
  | .fwCtlCommit => Sys2Proof.Machine.execFwCtlCommit s
  | .modRstGo b => Sys2Proof.Machine.execModRstGo b s
  | .attCtlReq => Sys2Proof.Machine.execAttCtlReq s
  | .attestationRequest nonce => Sys2Proof.Machine.execAttestationRequest nonce s
  | .attReportDone sig => Sys2Proof.Machine.execAttReportDone sig s
  | .nodeRecordWrite node cfg => Sys2Proof.Machine.execNodeRecordWrite node cfg s
  | .registerWrite who addr size v => Sys2Proof.Machine.execRegisterWrite who addr size v s
  | .cmpMessage m line => Sys2Proof.Machine.execCmpMessage m line s

end Sys2Proof.Machine
end

