-- ==== Sys2Proof/Safety.lean ====
section
/-!
DEFINITION. The terms that claims about the block use: the command that brings a syllable to a core, when a bundle issues, the canonical form of
every memory of the module, and the privilege modes that are legal.
-/

namespace Sys2Proof.Machine

/-! ## Syllables as commands -/

/-- The command that brings a syllable of slot C to the core of mast `m`. -/
def cCmd (m : MastId) (o : COp) (b : MBody) : Instr :=
  match o with
  | .ld => .ld m b | .add => .add m b | .adc => .adc m b | .sub => .sub m b | .sbc => .sbc m b | .and => .and m b
  | .or => .or m b | .xor => .xor m b | .cmp => .cmp m b | .tst => .tst m b | .shl => .shl m b | .shr => .shr m b
  | .sar => .sar m b | .rol => .rol m b | .min => .min m b | .max => .max m b | .minu => .minu m b | .maxu => .maxu m b
  | .mul => .mul m b | .mulu => .mulu m b | .mac => .mac m b | .macu => .macu m b | .neg => .neg m b | .not => .not m b
  | .sext => .sext m b | .clz => .clz m b | .popc => .popc m b | .movh => .movh m b | .mfsr => .mfsr m b | .mtsr => .mtsr m b

/-- The command that brings a syllable of slot L to the core of mast `m`. -/
def lCmd (m : MastId) (o : LOp) (b : MBody) : Instr :=
  match o with
  | .ldx => .ldx m b | .ldy => .ldy m b | .lda => .lda m b | .sta => .sta m b | .stx => .stx m b | .sty => .sty m b
  | .leax => .leax m b | .leay => .leay m b | .push => .push m b | .pop => .pop m b | .ldg => .ldg m b | .stg => .stg m b
  | .post => .post m b | .fence => .fence m b | .aadd => .aadd m b | .aand => .aand m b | .aor => .aor m b | .axor => .axor m b
  | .amin => .amin m b | .amax => .amax m b | .aminu => .aminu m b | .amaxu => .amaxu m b | .aswap => .aswap m b
  | .acas => .acas m b | .afadd => .afadd m b | .radd => .radd m b | .rfadd => .rfadd m b | .rmin => .rmin m b
  | .rmax => .rmax m b

/-- The command that brings a syllable of slot V0 to the core of mast `m`. -/
def v0Cmd (m : MastId) (o : V0Op) (b : V0Body) : Instr :=
  match o with
  | .vfadd => .vfadd m b | .vfsub => .vfsub m b | .vfrsub => .vfrsub m b | .vfmul => .vfmul m b | .vfma => .vfma m b
  | .vfms => .vfms m b | .vfdiv => .vfdiv m b | .vfsqrt => .vfsqrt m b | .vfmin => .vfmin m b | .vfmax => .vfmax m b
  | .vfabs => .vfabs m b | .vfneg => .vfneg m b | .vfcmp => .vfcmp m b | .vfcvt => .vfcvt m b | .vfredsum => .vfredsum m b
  | .vfredmax => .vfredmax m b | .vfredmin => .vfredmin m b | .vadd => .vadd m b | .vsub => .vsub m b | .vmul => .vmul m b
  | .vmin => .vmin m b | .vmax => .vmax m b | .vand => .vand m b | .vor => .vor m b | .vxor => .vxor m b | .vshl => .vshl m b
  | .vshr => .vshr m b | .vcmp => .vcmp m b | .vredsum => .vredsum m b | .vredmax => .vredmax m b | .vredmin => .vredmin m b
  | .vmerge => .vmerge m b | .vmv => .vmv m b | .vid => .vid m b | .kop => .kop m b | .kpop => .kpop m b

/-- The command that brings a syllable of slot V1 to the core of mast `m`. -/
def v1Cmd (m : MastId) (o : V1Op) (b : V1Body) : Instr :=
  match o with
  | .vsetvl => .vsetvl m b | .vld => .vld m b | .vst => .vst m b | .vlds => .vlds m b | .vsts => .vsts m b | .vldx => .vldx m b
  | .vstx => .vstx m b | .vkld => .vkld m b | .vkst => .vkst m b | .vtbl => .vtbl m b | .vtbl2 => .vtbl2 m b
  | .vcompress => .vcompress m b | .vpost => .vpost m b | .vwait => .vwait m b

/-- The command that brings a syllable of slot X to the core of mast `m`. -/
def xCmd (m : MastId) (o : XOp) (b : XBody) : Instr :=
  match o with
  | .xpass => .xpass m b | .xbfill => .xbfill m b | .xbdisarm => .xbdisarm m b

/-- The command that brings a syllable of slot S to the core of mast `m`. -/
def sCmd (m : MastId) (o : SOp) (b : SBody) : Instr :=
  match o with
  | .srun => .srun m b | .hrun => .hrun m b

/-- The command that brings a syllable of slot B to the core of mast `m`. -/
def bCmd (m : MastId) (o : BOp) (b : BBody) : Instr :=
  match o with
  | .br => .br m b | .call => .call m b | .calla => .calla m b | .ja => .ja m b | .ret => .ret m b | .loop => .loop m b
  | .twait => .twait m b | .gate => .gate m b | .rfe => .rfe m b | .halt => .halt m b | .ifence => .ifence m b

/-- The command that brings a syllable to the core of mast `m`. -/
def sylCmd (m : MastId) (y : Syl) : Instr :=
  match y with
  | .c o b => cCmd m o b | .l o b => lCmd m o b | .v0 o b => v0Cmd m o b | .v1 o b => v1Cmd m o b
  | .x o b => xCmd m o b | .s o b => sCmd m o b | .b o b => bCmd m o b

/-- The command that starts a sheet descriptor of kind OPK. -/
def sheetStartCmd (m : MastId) (opk : Fin 10) : Instr :=
  match opk with
  | 0 => .drain m | 1 => .map m | 2 => .ewise m | 3 => .reduce m | 4 => .save m | 5 => .load m | 6 => .bload m | 7 => .softmax m
  | 8 => .rmsnorm m | 9 => .stats m

/-- The command that starts a halyard descriptor of a mode. -/
def halStartCmd (m : MastId) (mode : Fin 5) : Instr :=
  match mode with
  | 0 => .copy m | 1 => .skew m | 2 => .tskew m | 3 => .trans m | 4 => .fill m

/-! ## When a bundle issues -/

/-- The bundle that syllable `y` ends at the core of mast `m`. -/
def State.bundleWith (s : State) (m : MastId) (y : Syl) : List Syl := (s.mast m).core.opening ++ [y]

/-- The state in which the syllables of a bundle that issues take effect. -/
def State.entered (s : State) (m : MastId) (ys : List Syl) : State := (s.ready m ys).fetched m ys

/-- The core as a bundle that issues reads it. -/
def State.before (s : State) (m : MastId) (ys : List Syl) : Core := ((s.ready m ys).mast m).core

/-- Syllable `y` ends a bundle that comes to issue: the compute domain is on, the core takes bundles, `y` has STOP, and nothing deferrable is taken first. -/
def State.comes (s : State) (m : MastId) (y : Syl) : Bool :=
  s.pow.compOn && s.coreRuns m && y.stop && decide ((s.ready m (s.bundleWith m y)).takeDeferrable m = none)

/-- Syllable `y` ends a bundle that issues: it comes to issue, raises no exception (14 R368) and waits on nothing (02 R79, 03 R87). -/
def State.issues (s : State) (m : MastId) (y : Syl) : Bool :=
  let ys := s.bundleWith m y
  let r := s.ready m ys
  s.comes m y && decide (r.exception m ys = none) && !r.dataWait m ys && decide (r.waits m ys = none)

/-- Syllable `y` is a whole bundle, and it issues. -/
def State.issuesAlone (s : State) (m : MastId) (y : Syl) : Bool := decide ((s.mast m).core.opening = []) && s.issues m y

/-- What an answer of another module for an access of an engine leaves beside its data: its flit is counted at the port it came by, and a refusal, or an answer that
names no job that this module takes answers of, is a fault of the job (15 R393, R398). -/
def State.told (s : State) (m : MastId) (e : EngId) (pa : BitVec 52) (jobid : BitVec 16) (refused : Bool) : State :=
  let u := s.flitsIn (dieOf m) (nodeOf pa) jobid 1
  if refused || !s.accepts (nodeOf pa) jobid then u.jobFault m e.val 7 else u

/-- The loads of a core, `n` cc later: those of an exact latency are that much nearer (03 R86). -/
def laterLoads (n : Nat) (ls : List LoadPend) : List LoadPend := ls.map fun l => { l with left := l.left.map fun a => a - n }

/-- The general registers of a bank but for the loop registers, the flags, VL and VTYPE are the same. -/
def CoreBank.sameRegs (p q : CoreBank) : Prop :=
  p.a = q.a ∧ p.x = q.x ∧ p.y = q.y ∧ p.sp = q.sp ∧ p.flags = q.flags ∧ p.vl = q.vl ∧ p.vtype = q.vtype

/-- What a bundle that issues leaves: every syllable has its effect on the state before the bundle (02 R48), and the core moves on. -/
def State.afterBundle (s : State) (m : MastId) (ys : List Syl) : State :=
  (ys.foldl (fun t z => t.sylEffect m (s.before m ys) ((s.before m ys).npc.toNat + bundleBytes ys) z) (s.entered m ys)).finish m (s.before m ys) ys

/-! ## The C slot, as 02 Table 2-7 gives it -/

end Sys2Proof.Machine

namespace Sys2Proof

/-- The words of a syllable: its own, and its I syllable if it has one, which then carries STOP (02 R55, R60). -/
def Syl.encode (y : Syl) : List (BitVec 32) :=
  BitVec.ofNat 32 y.word :: match y.ext with
    | none => []
    | some p => [BitVec.ofNat 32 (p.toNat + 7 * 2 ^ 28 + Machine.b2n y.stop * 2 ^ 31)]

/-- Whether a C operation is one whose result and flags are those of `scalarTable`: all but the multiplies and the system-register moves. -/
def COp.plain (o : COp) : Bool :=
  match o with
  | .mul | .mulu | .mac | .macu | .mfsr | .mtsr => false
  | _ => true

end Sys2Proof

namespace Sys2Proof.Machine

/-- A signed value that 64 bits do not hold. -/
def tooBig (z : Int) : Bool := decide (z < -(2 ^ 63)) || decide (2 ^ 63 ≤ z)

/-- A row of 02 Table 2-7: A, and what becomes of Z and N (`none`: unchanged), of C and of V, from A, the operand and C. -/
def scalarTable (o : COp) (sz : BitVec 2) (a x : Word) (c : Bool) : Word × Option Word × Option Bool × Option Bool :=
  let n := x.toNat % 64
  let zn := fun (r : Word) => (r, some r, none, none)
  let out := fun (k : Nat) => if n = 0 then none else some (decide (a.toNat / 2 ^ k % 2 = 1))
  match o with
  | .ld => zn x
  | .add => (a + x, some (a + x), some (decide (2 ^ 64 ≤ a.toNat + x.toNat)), some (tooBig (a.toInt + x.toInt)))
  | .adc =>
    let r := a + x + BitVec.ofNat 64 (b2n c)
    (r, some r, some (decide (2 ^ 64 ≤ a.toNat + x.toNat + b2n c)), some (tooBig (a.toInt + x.toInt + b2n c)))
  | .sub => (a - x, some (a - x), some (decide (a.toNat < x.toNat)), some (tooBig (a.toInt - x.toInt)))
  | .sbc =>
    let r := a - x - BitVec.ofNat 64 (b2n c)
    (r, some r, some (decide (a.toNat < x.toNat + b2n c)), some (tooBig (a.toInt - x.toInt - b2n c)))
  | .and => zn (a &&& x)
  | .or => zn (a ||| x)
  | .xor => zn (a ^^^ x)
  | .cmp => (a, some (a - x), some (decide (a.toNat < x.toNat)), some (tooBig (a.toInt - x.toInt)))
  | .tst => (a, some (a &&& x), none, none)
  | .shl => let r := BitVec.ofNat 64 (a.toNat * 2 ^ n); (r, some r, out (64 - n), none)
  | .shr => let r := BitVec.ofNat 64 (a.toNat / 2 ^ n); (r, some r, out (n - 1), none)
  | .sar => let r := BitVec.ofInt 64 (a.toInt / 2 ^ n); (r, some r, out (n - 1), none)
  | .rol => let r := a.rotateLeft n; (r, some r, if n = 0 then none else some (r.getLsbD 0), none)
  | .min => zn (if a.toInt ≤ x.toInt then a else x)
  | .max => zn (if a.toInt ≤ x.toInt then x else a)
  | .minu => zn (if a.toNat ≤ x.toNat then a else x)
  | .maxu => zn (if a.toNat ≤ x.toNat then x else a)
  | .neg => (-a, some (-a), some (decide (0 < a.toNat)), some (tooBig (-a.toInt)))
  | .not => zn (~~~a)
  | .sext => zn (match sz.toNat with
      | 0 => (a.setWidth 8).signExtend 64 | 1 => (a.setWidth 16).signExtend 64 | 2 => (a.setWidth 32).signExtend 64 | _ => a)
  | .clz => zn (if a = 0 then 64 else BitVec.ofNat 64 (63 - Nat.log2 a.toNat))
  | .popc => zn (BitVec.ofNat 64 (((List.range 64).filter fun i => a.getLsbD i).length))
  | .movh => (BitVec.ofNat 64 (a.toNat % 2 ^ 32 + x.toNat % 2 ^ 32 * 2 ^ 32), none, none, none)
  | _ => (a, none, none, none)

/-- FLAGS after a row of the table: SV is set whenever V becomes 1 (02 Table 2-2). -/
def flagsAfter (f : Word) (r : Word × Option Word × Option Bool × Option Bool) : Word :=
  let zn := r.2.1
  mkFlags (r.2.2.1.getD (wbit f 0)) (zn.elim (wbit f 1) fun w => decide (w = 0)) (zn.elim (wbit f 2) fun w => w.getLsbD 63)
    (r.2.2.2.getD (wbit f 3)) (wbit f 4 || r.2.2.2 == some true)

/-! ## System registers, as 14 Table 14-2 numbers them -/

/-- The system registers 0 to 15 as the current bank reads them. -/
def sysValues (c : Core) (node : BitVec 14) : List Word :=
  let y := c.sys.get c.bank
  let status := c.level.toNat + (if c.level ≠ 0 ∧ c.im then 4 else 0) + 8 * c.bank.val
  [BitVec.ofNat 64 status, y.cause, y.epc, y.estatus, node.zeroExtend 64, y.tvec, y.tval, y.scratch, c.glimit.zeroExtend 64,
   c.ipend.zeroExtend 64, c.ien.zeroExtend 64, c.ilvl.zeroExtend 64 ||| 0x300, c.ulim.zeroExtend 64, c.mlim.zeroExtend 64, c.cur.vl, c.cur.vtype]

/-- A condition code as 02 Table 2-8a lists it: zero, borrow, negative, overflow, unsigned at or below, signed below, signed at or below, always, and
with bit 3 their inverses; 15 never holds. -/
def condTable (code : Nat) (c z n v : Bool) : Bool :=
  match code with
  | 0 => z | 1 => c | 2 => n | 3 => v | 4 => c || z | 5 => n ^^ v | 6 => z || (n ^^ v) | 7 => true
  | 8 => !z | 9 => !c | 10 => !n | 11 => !v | 12 => !c && !z | 13 => n == v | 14 => !z && (n == v)
  | _ => false

/-! ## The invariant of the module -/

/-- The level of a core is the one its bank serves: bank 0 serves U, 1 S and 2 M, and bank 3 runs at M (02 R46, 14 R358). -/
def Core.modeOk (c : Core) : Prop := (c.bank.val < 3 ∧ c.level.toNat = c.bank.val) ∨ (c.bank = 3 ∧ c.level = 2)

/-- The memories of a core are in canonical form, and its mode is legal. -/
structure Core.Ok (c : Core) : Prop where
  ldm : Sparse.wf c.ldm = true
  imem : Sparse.wf c.imem = true
  gate : Sparse.wf c.gate = true
  gateUsed : Sparse.wf c.gateUsed = true
  mode : c.modeOk

/-- Every memory of a mast is in canonical form: those of its core and its engines, its token slots, the tiles and the counting fields; and its core is
in a legal mode. -/
structure Mast.Ok (x : Mast) : Prop where
  core : x.core.Ok
  vreg : Sparse.wf x.vec.vreg = true
  kreg : Sparse.wf x.vec.kreg = true
  tok : Sparse.wf x.tok.count = true
  bankMem : Sparse.wf x.bankMem = true
  rowmap : Sparse.wf x.rowmap = true
  hist : x.sheet.hist.all Sparse.wf = true
  breg : Sparse.wf x.sheet.breg = true
  tiles : ∀ i : Fin 16, Sparse.wf (x.tiles.get i).ents = true
  cnt : Sparse.wf x.cnt = true
  shadow : Sparse.wf x.shadow = true

/-- The invariant of the module: every memory is in canonical form (log entry 2), and every core is in a legal mode. -/
structure State.Inv (s : State) : Prop where
  masts : ∀ m : MastId, (s.mast m).Ok
  dieCnt : ∀ d : DieId, Sparse.wf (s.die d).cnt = true
  dieShadow : ∀ d : DieId, Sparse.wf (s.die d).shadow = true
  ram : Sparse.wf s.ram = true
  hbmRef : Sparse.wf s.hbmRef = true
  check : Sparse.wf s.check = true
  bundles : ∀ j : JobSlot, Sparse.wf (s.job j).bundles = true
  hostMem : ∀ h : HostPort, Sparse.wf (s.hport h).mem = true
  infl : Sparse.wf s.snap.infl = true
  cnt : Sparse.wf s.snap.cnt = true
  shadow : Sparse.wf s.snap.shadow = true
  flash : Sparse.wf s.boot.flash = true
  stageMem : Sparse.wf s.boot.stageMem = true
  nonce : Sparse.wf s.boot.nonce = true
  report : Sparse.wf s.boot.report = true
  cert : Sparse.wf s.boot.cert = true

end Sys2Proof.Machine
end

