-- ==== Sys2Proof/Certificates/Slice0/Obligations.lean ====
section
/-!
DEFINITION. The statements about the block that are to be proved, in the terms of Sys2Proof/Safety.lean.
-/

open Sys2Proof Sys2Proof.Machine

/-! ## The step -/

/-- A step runs the command at the front of the queue on the state with the queue's rest. -/
def Obligations.StepRunsFrontCommand : Prop :=
  ∀ (s : State) (i : Instr) (rest : List Instr), s.pending = i :: rest → step s = exec i { s with pending := rest }

/-- After reset every memory is in canonical form and every core in a legal mode. -/
def Obligations.ResetMeetsInvariant : Prop := State.reset.Inv

/-- A step keeps every memory of the module in canonical form and every control core in a legal mode: level U only in bank 0, S only in bank 1, M only in banks 2
and 3, and no fourth level. -/
def Obligations.StepKeepsInvariant : Prop := ∀ s t : State, s.Inv → step s = .next t → t.Inv

/-! ## Bundles (02 R48, R55-R59) -/

/-- A syllable that ends a bundle which raises nothing and waits on nothing answers the state in which every syllable of the bundle has taken
effect on the registers and the LDM as they stood before the bundle (02 R48), and the core has moved on; the long-vector unit then goes on with
what the bundle queued. This holds for every syllable of every slot.
A syllable without STOP, of a bundle of fewer than eight words so far, only joins the bundle that is being put together.
A bundle with a FENCE also brings the core's own stores to its LDM, its IMEM and its gate table there (log entry 88).
Before the bundle its waits pass: they change no more than the core's clocks, those of its loads and its counters, and what its time does to loop registers, PL, PH and the multiplies, and nothing where
the core waits on nothing. Its fetch changes the loop head buffers, ends an earlier FENCE and meets the codes of the memories it reads (02 R51). The end of a bundle
moves the core, counts, and gives the LDM words written whole their codes again. -/
def Obligations.SyllablesGatherAndIssue : Prop :=
  (∀ (s : State) (m : MastId) (y : Syl), s.issues m y = true →
     exec (sylCmd m y) s = .next (s.vecFollows (s.fenceOwn (s.afterBundle m (s.bundleWith m y)) m y) m)) ∧
  (∀ (s t : State) (m : MastId) (y : Syl), (∀ z ∈ s.bundleWith m y, ∀ b, z ≠ .l .fence b) → s.fenceOwn t m y = t) ∧
  (∀ (s : State) (m : MastId) (y : Syl), s.pow.compOn = true → s.coreRuns m = true → y.stop = false →
     ((s.bundleWith m y).map Syl.words).sum < 8 →
     exec (sylCmd m y) s = .next (s.modCore m fun c => { c with opening := c.opening ++ [y] })) ∧
  (∀ (s : State) (m : MastId) (ys : List Syl),
     let c := (s.mast m).core
     (∃ (bs : Vector CoreBank 4) (ms : List MulPend) (ag : Vector Nat 3) (n p : Nat) (ret : Bool) (cnt : Tab),
        s.ready m ys = s.modMast m (fun x =>
          { x with cnt := cnt, core := { x.core with banks := bs, muls := ms, ag := ag, stalls := n, returned := ret, loads := laterLoads p x.core.loads } }) ∧
        ∀ k : Fin 4, CoreBank.sameRegs (bs.get k) (c.banks.get k)) ∧
     (c.waiting = none → c.returned = false → (∀ k : Fin 3, c.ag.get k = 0) → (∀ k : Fin 3, c.cur.arm.get k = 0) → (∀ k : Fin 4, (c.banks.get k).aDue = 0) →
       (∀ l ∈ c.loads, l.left = none) → s.ready m ys = s) ∧
     (∃ (bs : Vector CoreBank 4) (fenced : Bool) (irq : BitVec 16) (cnt : Tab) (fl : List FltMsg),
        s.fetched m ys = { s with flts := fl }.modMast m (fun x => { x with cnt := cnt, core := { x.core with banks := bs, fenced := fenced, ipend := irq } }) ∧
        (∀ k : Fin 4, ∃ hs : Vector (List Syl) 3, bs.get k = { c.banks.get k with heads := hs }) ∧ (fenced = true → c.fenced = true) ∧
        (s.upsets = [] → irq = c.ipend ∧ fl = s.flts)) ∧
     (∀ c0 : Core, hasHalt ys = false → ∃ (cnt : Tab) (tok : Toks) (ups : List Upset),
        s.finish m c0 ys = { s with upsets := ups }.modMast m (fun x => { x with cnt := cnt, tok := tok, core := c0.advance x.core ys }) ∧
        tok.count = (s.mast m).tok.count ∧ tok.stallEn = (s.mast m).tok.stallEn ∧ (s.upsets = [] → ups = [])))

/-- What the end of a bundle does to its core: the registers of every bank but the loop registers, PL and PH, the system registers, the level, IM, the bank, the
LDM, the gate entries and the store buffer stay as the syllables left them; the pc is the bundle's, and the next bundle is the one that a
branch of the bundle, or else the loop-end test, or else the end of the bundle selects (02 R70-R74). The cc until the next bundle count for the outstanding multiplies: PL, PH and
the multiplies are as those cc leave them (02 R65; of a bundle that leaves its bank one cc counts, log entry 73), and after a return into the bank of the handler its multiplies
count again (02 R68).
Where a branching syllable sends the core: BR to pc + 4 × OFF where its condition of 02 Table 2-8a holds; CALL to pc + 4 × OFF; CALLA and JA to A[16:0]; RET to
bits [16:0] of the word at SP; LOOP with a count of 0 to the bundle after its end bundle. -/
def Obligations.NextBundleIsSelected : Prop :=
  (∀ (c0 c : Core) (ys : List Syl),
     let d := c0.advance c ys
     let n := bundleCost c0 ys + headCost c0 ys
     let e := c.passMuls c0.bank (if c.bank = c0.bank then n else 1)
     let back := fun (p : MulPend) => if hasRfe ys = true ∧ c.bank = c0.bank ∧ p.bank = c.bank then { p with frozen := p.frozen - 1 } else p
     (∀ k : Fin 4, let p := d.banks.get k
       CoreBank.sameRegs p (c.banks.get k) ∧ p.pl = (e.banks.get k).pl ∧ p.ph = (e.banks.get k).ph) ∧
     d.sys = c.sys ∧ d.level = c.level ∧ d.im = c.im ∧ d.bank = c.bank ∧ d.ldm = c.ldm ∧ d.gate = c.gate ∧ d.sb = c.sb ∧ d.wq = c.wq ∧
     d.loads = laterLoads n c.loads ∧ d.muls = e.muls.map back ∧ d.ipend = c.ipend ∧ d.ien = c.ien ∧ d.halted = c.halted ∧
     d.pc = c0.npc.setWidth 17 ∧ d.opening = [] ∧ d.waiting = none ∧ d.returned = false ∧
     d.npc = BitVec.ofNat 18
       ((branchOf c0 ys).getD ((loopEnd c0.npc.toNat 3 c0.cur).2.getD (c0.npc.toNat + bundleBytes ys)))) ∧
  (∀ (c : Core) (b : BBody),
     let f := c.cur.flags
     let near := (BitVec.ofNat 64 c.npc.toNat + BitVec.ofInt 64 (4 * b.off.toInt)).toNat
     branchOf c [.b .br b] = (if condTable b.cond.toNat (f.getLsbD 0) (f.getLsbD 1) (f.getLsbD 2) (f.getLsbD 3) then some near else none) ∧
     branchOf c [.b .call b] = some near ∧
     branchOf c [.b .calla b] = some (c.cur.a.toNat % 2 ^ 17) ∧ branchOf c [.b .ja b] = some (c.cur.a.toNat % 2 ^ 17) ∧
     branchOf c [.b .ret b] = some (Mem.load c.ldm c.cur.sp.toNat 8 % 2 ^ 17) ∧
     branchOf c [.b .loop b] = (if loopCount b c = 0 then some (near + imemBundle c.imem near 8) else none) ∧
     branchOf c [.b .twait b] = none ∧ branchOf c [.b .halt b] = none ∧ branchOf c [.b .ifence b] = none)

/-! ## The C slot (02 R61, R65, R66, R68) -/

/-- A C operation other than a multiply and a system-register move, as a whole bundle, sets A and FLAGS of the current bank as 02 Table 2-7 gives them and
changes nothing else but what the waits, the fetch and the end of the bundle change. -/
def Obligations.ScalarOperationResults : Prop :=
  ∀ (s : State) (m : MastId) (o : COp) (b : MBody), o.plain = true → s.issuesAlone m (.c o b) = true →
    let c := s.before m [.c o b]
    let r := scalarTable o b.sz c.cur.a (b.operand c) (wbit c.cur.flags 0)
    exec (cCmd m o b) s = .next (((s.entered m [.c o b]).modCore m fun k => k.modCur fun q =>
      { q with a := r.1, flags := if o.setsFlags then flagsAfter c.cur.flags r else q.flags }).finish m c [.c o b])

/-- MUL, MULU, MAC and MACU, as a whole bundle, start one multiply of the current bank with the exact product of A and the operand, which writes 4 cc later, and change no
register.
MULTIPLY_WRITE with a multiply outstanding that counts the cc of the current bank lets the cc pass that its oldest one still counts: where the others that count them count more, that one writes
PL and PH of the bank with its product, or with the sum of its product and {PH, PL} modulo 2^128; the others count that much less, and those of other banks, and of code that a trap into its own bank
holds, as much as before; no other register than PL, PH and the loop registers changes, and nothing outside the core (02 R65-R68). -/
def Obligations.MultiplyStartsAndWrites : Prop :=
  (∀ (s : State) (m : MastId) (b : MBody) (signed acc : Bool),
     let o : COp := if signed then (if acc then .mac else .mul) else (if acc then .macu else .mulu)
     let c := s.before m [.c o b]
     let z : Int := if signed then c.cur.a.toInt * (b.operand c).toInt else c.cur.a.toNat * (b.operand c).toNat
     s.issuesAlone m (.c o b) = true →
     exec (cCmd m o b) s = .next (((s.entered m [.c o b]).modCore m fun k =>
       { k with muls := k.muls ++ [{ bank := c.bank, acc := acc, prod := BitVec.ofInt 128 z, left := 4, frozen := 0 }] }).finish m c [.c o b])) ∧
  (∀ (s : State) (m : MastId) (p : MulPend) (l r : List MulPend), s.pow.compOn = true →
     let c := (s.mast m).core
     let on := fun (q : MulPend) => q.bank = c.bank ∧ q.frozen = 0
     c.muls = l ++ p :: r → (∀ q ∈ l, ¬on q) → on p → (∀ q ∈ r, on q → p.left < q.left) →
     let n := (p.prod.toNat + if p.acc then c.cur.ph.toNat * 2 ^ 64 + c.cur.pl.toNat else 0) % 2 ^ 128
     ∃ d : Core, exec (.multiplyWrite m) s = .next (s.modCore m fun _ => d) ∧ d.cur.pl = BitVec.ofNat 64 n ∧ d.cur.ph = BitVec.ofNat 64 (n / 2 ^ 64) ∧
       d.muls = l ++ r.map (fun q => if on q then { q with left := q.left - p.left } else q) ∧ d.bank = c.bank ∧ d.ldm = c.ldm ∧ d.npc = c.npc ∧
       d.sys = c.sys ∧ d.loads = laterLoads p.left c.loads ∧ d.sb = c.sb ∧
       ∀ k : Fin 4, CoreBank.sameRegs (d.banks.get k) (c.banks.get k) ∧
         (k ≠ c.bank → (d.banks.get k).pl = (c.banks.get k).pl ∧ (d.banks.get k).ph = (c.banks.get k).ph))

/-- MFSR, as a whole bundle, sets A to the system register that FIELD[4:0] names and leaves FLAGS and everything else but what the end of the bundle
changes (02 R61, 14 R363).
MTSR, as a whole bundle, writes A to the system register that FIELD[4:0] names, as far as the register's fields are writable: IM of STATUS outside bank 3;
CAUSE [13:0]; EPC and TVEC [16:2]; ESTATUS PLV, PIM and GATE; TVAL and SCRATCH whole; GLIMIT [8:0]; IPEND bits written 1 clear and IEN bits
are set, at S only those of sources that target S; ILVL [7:0]; ULIM and MLIM a multiple of 8 of at most 0x40000, ULIM at S at
most MLIM. -/
def Obligations.SystemRegisterMoves : Prop :=
  (∀ (s : State) (m : MastId) (b : MBody), s.issuesAlone m (.c .mfsr b) = true →
     let c := s.before m [.c .mfsr b]
     let n := b.field.toNat % 32
     n < 16 ∧
     exec (.mfsr m b) s = .next (((s.entered m [.c .mfsr b]).modCore m fun k => k.modCur fun q =>
       { q with a := (sysValues c s.nodeId).getD n 0 }).finish m c [.c .mfsr b])) ∧
  (∀ (s : State) (m : MastId) (b : MBody), s.issuesAlone m (.c .mtsr b) = true →
     let c := s.before m [.c .mtsr b]
     let a := c.cur.a
     let own : BitVec 16 := if c.level = 2 then 0xFFFF else ~~~(c.ilvl.zeroExtend 16 ||| 0x300)
     let lim := min 0x40000 (a.toNat / 8 * 8)
     let write := fun (k : Core) => match b.field.toNat % 32 with
       | 0 => if c.bank = 3 then k else { k with im := a.getLsbD 2 }
       | 1 => k.modSys c.bank fun y => { y with cause := a &&& 0x3FFF }
       | 2 => k.modSys c.bank fun y => { y with epc := a &&& 0x1FFFC }
       | 3 => k.modSys c.bank fun y => { y with estatus := (a &&& 0x47) ||| BitVec.ofNat 64 (16 * c.bank.val) }
       | 5 => k.modSys c.bank fun y => { y with tvec := a &&& 0x1FFFC }
       | 6 => k.modSys c.bank fun y => { y with tval := a }
       | 7 => k.modSys c.bank fun y => { y with scratch := a }
       | 8 => { k with glimit := a.setWidth 9 }
       | 9 => { k with ipend := k.ipend &&& ~~~(a.setWidth 16 &&& own) }
       | 10 => { k with ien := (k.ien &&& ~~~own) ||| (a.setWidth 16 &&& own) }
       | 11 => { k with ilvl := a.setWidth 8 }
       | 12 => { k with ulim := BitVec.ofNat 19 (if c.level = 1 then min lim c.mlim.toNat else lim) }
       | _ => { k with mlim := BitVec.ofNat 19 lim }
     exec (.mtsr m b) s = .next (((s.entered m [.c .mtsr b]).modCore m write).finish m c [.c .mtsr b]))

/-! ## The L slot (02 R63) -/

/-- The L operations that stay in the core, as a whole bundle: LDX, LDY and LDA load the operand into X, Y and A; LEAX and LEAY the effective address; STX,
STY and STA with a memory operand store the low bytes of X, Y and A in the LDM; STA in register mode writes A to the register that FIELD[4:0]
names, but for PL and PH in the cc in which a multiply writes them (02 R67); PUSH and POP move SP by 8. FLAGS and everything else but what the end of the bundle changes stay. -/
def Obligations.LocalOperationResults : Prop :=
  ∀ (s : State) (m : MastId) (b : MBody),
    let q := fun (o : LOp) => (s.before m [.l o b]).cur
    let val := fun (o : LOp) => b.operand (s.before m [.l o b])
    let run := fun (o : LOp) (f : CoreBank → CoreBank) (g : Mem → Mem) => s.issuesAlone m (.l o b) = true →
      exec (lCmd m o b) s = .next (((s.entered m [.l o b]).modCore m fun k => { k.modCur f with ldm := g k.ldm }).finish m (s.before m [.l o b]) [.l o b])
    let put := fun (o : LOp) (v : Word) (d : Mem) => Mem.store d (b.ea (q o)).toNat b.bytes v.toNat
    let code := b.field.toNat % 32
    run .ldx (fun r => { r with x := val .ldx }) id ∧ run .ldy (fun r => { r with y := val .ldy }) id ∧
    run .lda (fun r => { r with a := val .lda }) id ∧
    run .leax (fun r => { r with x := b.ea (q .leax) }) id ∧ run .leay (fun r => { r with y := b.ea (q .leay) }) id ∧
    run .stx id (put .stx (q .stx).x) ∧ run .sty id (put .sty (q .sty).y) ∧
    (b.mode ≠ 1 → run .sta id (put .sta (q .sta).a)) ∧
    (b.mode = 1 → run .sta (fun r => if (s.before m [.l .sta b]).mulLands = true ∧ (code = 4 ∨ code = 5) then r else r.setReg code (q .sta).a) id) ∧
    run .push (fun r => { r with sp := (q .push).sp - 8 }) (fun d => Mem.store d ((q .push).sp - 8).toNat 8 (q .push).a.toNat) ∧
    run .pop (fun r => { r with a := BitVec.ofNat 64 (Mem.load (s.before m [.l .pop b]).ldm (q .pop).sp.toNat 8), sp := (q .pop).sp + 8 }) id

/-- Memory keeps what is stored: the low bytes of a stored number read back, every other byte reads as before, and the canonical form stays. -/
def Obligations.StoredBytesReadBack : Prop :=
  ∀ (d : Mem) (a n v : Nat), Sparse.wf d = true →
    Mem.load (Mem.store d a n v) a n = v % 2 ^ (8 * n) ∧
    (∀ k : Nat, k < a ∨ a + n ≤ k → Sparse.get (Mem.store d a n v) k = Sparse.get d k) ∧
    Sparse.wf (Mem.store d a n v) = true

/-- POST, as a whole bundle, sends one token on its way from engine 0 to the token address that the low 32 bits of the operand give; FENCE makes later
global accesses and posts wait, lets GATE use the gate entries as they stand, and drops the canvas lines of the data cache (02 R63, 12 R312,
14 R374). Where stores of the core to its own LDM, IMEM or gate table are on their way, the accesses of the core to its own mast reach it as FENCE issues, and GATE uses the
entries as they then stand (log entry 88). -/
def Obligations.PostAndFenceIssue : Prop :=
  ∀ (s : State) (m : MastId) (b : MBody),
    (s.issuesAlone m (.l .post b) = true →
      let c := s.before m [.l .post b]
      let u : State := { s.entered m [.l .post b] with
        posts := s.posts ++ [{ addr := (b.operand c).setWidth 32, src := .engine m 0, seq := c.seq }] }
      exec (.post m b) s = .next ((u.modCore m fun k => { k with seq := k.seq + 1 }).finish m c [.l .post b])) ∧
    (s.issuesAlone m (.l .fence b) = true →
      let t := (((s.entered m [.l .fence b]).modCore m fun k => { k with fenced := true, gateUsed := k.gate }).modDc m fun d =>
        { d with lines := d.lines.filter fun x => x.st ≠ .canv, victims := d.victims.filter fun x => x.st ≠ .canv }).finish m
        (s.before m [.l .fence b]) [.l .fence b]
      let out := t.ownOut m 0x80000 0x40000 || t.ownOut m 0xC0000 0x20000 || t.ownOut m 0x8000 0x4000
      (out = false → exec (.fence m b) s = .next t) ∧
      (out = true → exec (.fence m b) s = .next (s.vecFollows ((t.settleOwn m).modCore m fun k => { k with gateUsed := k.gate }) m)))

/-- LDG, STG and the atomic operations, as a whole bundle: the access passes every check on each half, and then a load or an atomic with a result is the youngest
outstanding load of the current bank with the size and SGN of the syllable, a load with the latency that 03 Table 3-4 gives it; a store is the youngest of the store buffer, with the low bytes of A;
a memory reduction is the youngest of the write queue. A and every register stay as they are until the access returns (03 R87-R94, 12 R326-R330). -/
def Obligations.GlobalAccessIssues : Prop :=
  ∀ (s : State) (m : MastId) (o : LOp) (b : MBody), (gkind o).isSome = true → s.issuesAlone m (.l o b) = true →
    let u := s.entered m [.l o b]
    let c := s.before m [.l o b]
    let later := laterLoads (bundleCost c [.l o b] + headCost c [.l o b])
    ∃ (k : GKind) (ps : List GPart) (t : State), gkind o = some k ∧ u.gcheck m k (b.ea c.cur) b.bytes = .ok ps ∧
      exec (lCmd m o b) s = .next t ∧
      (∀ i : Fin 4, ((t.mast m).core.banks.get i).a = (c.banks.get i).a ∧ ((t.mast m).core.banks.get i).flags = (c.banks.get i).flags) ∧
      (t.mast m).core.ldm = c.ldm ∧
      (k = .load → (t.mast m).core.sb = c.sb ∧ (t.mast m).core.wq = c.wq ∧
        ∃ src : List LoadPart, (src.map fun p => (p.pa, p.n)) = ps.map (fun p => (p.pa, p.n)) ∧
          (t.mast m).core.loads = later (c.loads ++
            [{ bank := c.bank, level := c.level, size := b.bytes, sgn := b.sgn, seq := c.seq, left := u.loadLats m ps, parts := src }])) ∧
      (k = .store → (t.mast m).core.loads = later c.loads ∧
        (t.mast m).core.sb = c.sb ++ storeEnts c.level c.seq (toBytes b.bytes c.cur.a.toNat) ps) ∧
      (k = .atom → ps ≠ [] ∧ (t.mast m).core.sb = c.sb ∧
        if o.hasResult then (t.mast m).core.wq = c.wq ∧
          ∃ l : LoadPend, l.bank = c.bank ∧ l.size = b.bytes ∧ l.left = none ∧ (t.mast m).core.loads = later c.loads ++ [l]
        else (t.mast m).core.loads = later c.loads ∧ ∃ w : WqEnt, w.data = [] ∧ (t.mast m).core.wq = c.wq ++ [w])

/-! ## The B slot (02 R62, R70-R76, 14 R375, R376) -/

/-- The branching syllables, as a whole bundle: BR and JA change nothing but the next bundle; CALL and CALLA put the offset of the bundle after this one
at SP - 8 in the LDM and lower SP by 8; RET raises SP by 8; LOOP arms its level: LS is the bundle after this one, LE the target, LC the count, its end bundle may first issue
4 cc later where CSRC is 0 (03 R98), and STA writes of the level that wait are dropped (the model's choice, log entry 87); IFENCE
empties the loop head buffers. -/
def Obligations.BranchSyllableResults : Prop :=
  ∀ (s : State) (m : MastId) (b : BBody),
    let cpu := fun (o : BOp) => s.before m [.b o b]
    let q := fun (o : BOp) => (cpu o).cur
    let after := fun (o : BOp) => (cpu o).npc.toNat + bundleBytes [.b o b]
    let run := fun (o : BOp) (f : CoreBank → CoreBank) (g : Mem → Mem) => s.issuesAlone m (.b o b) = true →
      exec (bCmd m o b) s = .next (((s.entered m [.b o b]).modCore m fun k => { k.modCur f with ldm := g k.ldm }).finish m (cpu o) [.b o b])
    let l := loopLevel b
    let i : Fin 3 := Fin.ofNat 3 l
    run .br id id ∧ run .ja id id ∧
    run .call (fun r => { r with sp := (q .call).sp - 8 }) (fun d => Mem.store d ((q .call).sp - 8).toNat 8 (after .call)) ∧
    run .calla (fun r => { r with sp := (q .calla).sp - 8 }) (fun d => Mem.store d ((q .calla).sp - 8).toNat 8 (after .calla)) ∧
    run .ret (fun r => { r with sp := (q .ret).sp + 8 }) id ∧
    run .loop (fun r => { r with
      arm := r.arm.set i.val (if b.cond.getLsbD 1 then 0 else 4) i.isLt
      ls := r.ls.set i.val (BitVec.ofNat 17 (after .loop)) i.isLt
      le := r.le.set i.val ((BitVec.ofNat 64 (cpu .loop).npc.toNat + BitVec.ofInt 64 (4 * b.off.toInt)).setWidth 17) i.isLt
      lc := r.lc.set i.val (BitVec.ofNat 32 (match b.ext with | some x => x.toNat | none => (q .loop).a.toNat % 2 ^ 32)) i.isLt
      loopWrites := r.loopWrites.filter fun w => w.code ≠ 8 + l ∧ w.code ≠ 11 + l ∧ w.code ≠ 14 + l }) id ∧
    run .ifence (fun r => { r with heads := Vector.replicate 3 [] }) id

/-- TWAIT, as a whole bundle, takes exactly one token from each slot of engine 0 that its mask names, and none from any other slot of any mast, and drops the
canvas lines of the data cache (01 R35, 02 R76, 12 R312). -/
def Obligations.TokenWaitConsumesNamedSlots : Prop :=
  ∀ (s : State) (m : MastId) (b : BBody), Sparse.wf (s.mast m).tok.count = true → s.issuesAlone m (.b .twait b) = true →
    ∃ u : State, exec (.twait m b) s = .next (u.finish m (s.before m [.b .twait b]) [.b .twait b]) ∧
      (∀ i : Fin 96, u.slotCount (.mast m i) = s.slotCount (.mast m i) - (if i.val < 8 ∧ b.off.getLsbD i.val then 1 else 0)) ∧
      (∀ i : Fin 96, (i.val < 8 ∧ b.off.getLsbD i.val = true) → 0 < (s.slotCount (.mast m i)).toNat) ∧
      (∀ n : MastId, n ≠ m → u.mast n = s.mast n) ∧ u.chans = s.chans ∧ u.ram = s.ram ∧ u.held = s.held ∧
      (u.mast m).core = ((s.entered m [.b .twait b]).mast m).core

/-- HALT, as a whole bundle: fetch stops behind it, the multiplies of its bank that its cc end write, then every other one writes its product into its own bank, in issue order, and HALTED waits
for the drain (02 R68, R69, R79). -/
def Obligations.HaltStopsFetch : Prop :=
  ∀ (s : State) (m : MastId) (b : BBody), s.issuesAlone m (.b .halt b) = true →
    let c := s.before m [.b .halt b]
    let d := (c.passMuls c.bank (1 + headCost c [.b .halt b])).landMuls
    ∃ t : State, exec (.halt m b) s = .next t ∧ (t.mast m).core.stopReq = true ∧ (t.mast m).core.halted = c.halted ∧ (t.mast m).core.muls = [] ∧
      (∀ i : Fin 4, ((t.mast m).core.banks.get i).pl = (d.banks.get i).pl ∧
        ((t.mast m).core.banks.get i).ph = (d.banks.get i).ph ∧ ((t.mast m).core.banks.get i).a = (c.banks.get i).a) ∧
      (t.mast m).core.ldm = c.ldm ∧ t.ram = s.ram ∧ t.coreRuns m = false

/-- GATE, as a whole bundle: the core enters the bank and the level that the gate entry names, at its entry point and with its stack pointer and IM; up to three
arguments pass in A, X and Y and the others read 0; the saved registers of the bank hold the return place, the caller's level and IM with the GATE
mark, cause 21 and the gate number (14 R375). -/
def Obligations.GateEntersNamedBank : Prop :=
  ∀ (s : State) (m : MastId) (b : BBody), s.issuesAlone m (.b .gate b) = true →
    let c := s.before m [.b .gate b]
    let g := b.off.toNat % 2 ^ 16
    let w := c.gateWord g 0
    let k : Fin 4 := Fin.ofNat 4 (fld w 17 2)
    ∃ t : State, exec (.gate m b) s = .next t ∧ (k = 1 ∨ k = 2) ∧ c.level.toNat < k.val ∧
      let d := (t.mast m).core
      d.bank = k ∧ d.level.toNat = k.val ∧ d.im = w.testBit 24 ∧ d.npc.toNat = fld w 2 15 * 4 ∧
      d.cur.a = (if 0 < fld w 22 2 then c.cur.a else 0) ∧ d.cur.x = (if 1 < fld w 22 2 then c.cur.x else 0) ∧
      d.cur.y = (if 2 < fld w 22 2 then c.cur.y else 0) ∧ d.cur.sp.toNat = fld (c.gateWord g 1) 0 18 ∧
      (d.sys.get k).epc.toNat = (c.npc.toNat + 4) % 2 ^ 17 ∧ (d.sys.get k).tval.toNat = g ∧
      (d.sys.get k).cause = causeWord 21 false false 6 false ∧ (d.sys.get k).estatus = estatusWord c.level c.im k.val true ∧
      (∀ j : Fin 4, j ≠ k → d.sys.get j = c.sys.get j ∧ (d.banks.get j).a = (c.banks.get j).a) ∧ d.ldm = c.ldm ∧ t.ram = s.ram

/-- RFE, as a whole bundle: the core goes back to the bank, the level and the bundle that ESTATUS and EPC of its bank name; IM is 0 at U and PIM elsewhere; after a
gate call A passes back; ESTATUS loses its tag; no level rises (14 R376). -/
def Obligations.ReturnRestoresCaller : Prop :=
  ∀ (s : State) (m : MastId) (b : BBody), s.issuesAlone m (.b .rfe b) = true →
    let c := s.before m [.b .rfe b]
    let e := (c.sys.get c.bank).estatus
    let k : Fin 4 := Fin.ofNat 4 (e.toNat % 4)
    ∃ t : State, exec (.rfe m b) s = .next t ∧ e.toNat % 4 ≤ c.level.toNat ∧ e.toNat / 16 % 4 = c.bank.val ∧ c.bank ≠ 0 ∧
      let d := (t.mast m).core
      d.bank = k ∧ d.level.toNat = k.val ∧ d.level.toNat < 3 ∧ d.im = (if k = 0 then false else e.getLsbD 2) ∧
      d.npc.toNat = (c.sys.get c.bank).epc.toNat % 2 ^ 17 ∧
      (d.banks.get k).a = (if e.getLsbD 6 then c.cur.a else (c.banks.get k).a) ∧
      (d.sys.get c.bank).estatus = e &&& ~~~0x30 ∧ (∀ j : Fin 4, j ≠ c.bank → d.sys.get j = c.sys.get j) ∧ d.ldm = c.ldm ∧ t.ram = s.ram

/-! ## Traps (14 R365-R373) -/

/-- A bundle that raises a non-deferrable exception, outside bank 3 and not with IM set in bank 1 or 2, does not issue: the core enters the bank of level S, or of level M from M,
with IM set; EPC holds the bundle, ESTATUS the level and IM, CAUSE the code and the slot, TVAL its value; the next bundle is at TVEC. No syllable of it takes
effect: every general register but the loop registers, whose STA writes come into use as time passes, the products of the multiplies, the LDM and memory stay as they are; the
multiplies of code that traps into its own bank count no cc of the handler (02 R68).
An exception while IM is set in bank 1 or 2 escalates to bank 3 at level M with the ESC mark (14 R372). Any exception in bank 3 takes no trap and resets the module, and no
job is left on it (14 R373). -/
def Obligations.ExceptionsEnterHandlers : Prop :=
  (∀ (s : State) (m : MastId) (y : Syl) (code slot : Nat) (half : Bool) (tval : Word),
     s.comes m y = true → (s.ready m (s.bundleWith m y)).hold m (s.bundleWith m y) = some (.trap code slot half tval) → code ≠ 20 →
     let c := s.before m (s.bundleWith m y)
     c.bank ≠ 3 → (c.im = false ∨ c.bank = 0) →
     let k : Fin 4 := if c.level = 2 then 2 else 1
     ∃ t : State, exec (sylCmd m y) s = .next t ∧
       let d := (t.mast m).core
       d.bank = k ∧ d.level.toNat = k.val ∧ d.im = true ∧ d.npc.toNat = (c.sys.get k).tvec.toNat % 2 ^ 18 ∧
       (d.sys.get k).epc.toNat = c.npc.toNat % 2 ^ 17 ∧ (d.sys.get k).tval = tval ∧
       (d.sys.get k).cause = BitVec.ofNat 64 (code + 1024 * slot + if half then 8192 else 0) ∧
       (d.sys.get k).estatus = BitVec.ofNat 64 (c.level.toNat + (if c.im then 4 else 0) + 16 * k.val) ∧
       (∀ i : Fin 4, let p := d.banks.get i; let q := c.banks.get i
         CoreBank.sameRegs p q ∧ p.pl = q.pl ∧ p.ph = q.ph ∧ p.heads = q.heads) ∧
       d.muls = c.muls.map (fun p => if p.bank = k ∧ k = c.bank then { p with frozen := p.frozen + 1 } else p) ∧ d.ldm = c.ldm ∧ d.opening = [] ∧ t.ram = s.ram ∧ t.posts = s.posts ∧ (t.mast m).tok.count = (s.mast m).tok.count) ∧
  (∀ (s : State) (m : MastId) (y : Syl) (code slot : Nat) (half : Bool) (tval : Word),
     s.comes m y = true → (s.ready m (s.bundleWith m y)).hold m (s.bundleWith m y) = some (.trap code slot half tval) → code ≠ 20 →
     let c := s.before m (s.bundleWith m y)
     (c.bank ≠ 3 → c.bank ≠ 0 → c.im = true →
       ∃ t : State, exec (sylCmd m y) s = .next t ∧ (t.mast m).core.bank = 3 ∧ (t.mast m).core.level = 2 ∧ (t.mast m).core.im = true ∧
         ((t.mast m).core.sys.get 3).cause = BitVec.ofNat 64 (code + 512 + 1024 * slot + if half then 8192 else 0) ∧
         ((t.mast m).core.sys.get 3).epc.toNat = c.npc.toNat % 2 ^ 17 ∧
         ((t.mast m).core.sys.get 3).estatus = BitVec.ofNat 64 (c.level.toNat + 4 + 48) ∧
         ∀ i : Fin 4, CoreBank.sameRegs ((t.mast m).core.banks.get i) (c.banks.get i))) ∧
  (∀ (s : State) (m : MastId) (code slot : Nat) (half : Bool) (tval : Word), (s.mast m).core.bank = 3 →
     s.raise m code slot half tval = s.moduleReset ∧ s.raiseReturn m tval = s.moduleReset ∧
     (∀ y : Syl, s.comes m y = true → let ys := s.bundleWith m y
       let r := s.ready m ys
       r.hold m ys = some (.trap code slot half tval) → exec (sylCmd m y) s = .next (r.trapReads m ys (bundleBytes ys) (.trap code slot half tval)).moduleReset) ∧
     ∀ j : JobSlot, (s.moduleReset.job j).valid = false)

/-- The order of the checks of a bundle (14 R368): a fetch of its at most eight words beyond the IMEM is FETCH_RANGE, 4; then an ill-formed or illegal bundle is ILLEGAL_BUNDLE, 1; then a syllable with a reserved
encoding ILLEGAL_INSTR, 2; then one that its level may not issue PRIVILEGE, 3; whatever else the bundle would raise or wait on. -/
def Obligations.ExceptionOrder : Prop :=
  ∀ (s : State) (m : MastId) (ys : List Syl),
    let c := (s.mast m).core
    let far := c.npc.toNat + min 32 (bundleBytes ys)
    (0x20000 < far → ∃ v, s.hold m ys = some (.trap 4 0 false v)) ∧
    (far ≤ 0x20000 → bundleOk ys = false → s.hold m ys = some (.trap 1 0 false 0)) ∧
    (far ≤ 0x20000 → bundleOk ys = true → (∃ y ∈ ys, y.bad c.cur.vtype = true) →
      ∃ y ∈ ys, y.bad c.cur.vtype = true ∧ s.hold m ys = some (.trap 2 y.slot false (BitVec.ofNat 64 y.word))) ∧
    (far ≤ 0x20000 → bundleOk ys = true → (∀ y ∈ ys, y.bad c.cur.vtype = false) → (∃ y ∈ ys, y.privBad c.level.toNat = true) →
      ∃ y ∈ ys, y.privBad c.level.toNat = true ∧ s.hold m ys = some (.trap 3 y.slot false (BitVec.ofNat 64 y.word)))

/-- The words of a bundle: the encoding of any list of syllables of at most eight words, the last of them with STOP and no other, is decoded as exactly those syllables, with every
field at every value, whatever words stand behind it (02 R55, R56, R60, R69; the layouts of 02 Tables 2-4, 2-6, 2-9a, 04 Tables 4-2, 4-3, 06 Table 6-3 and 08 Table 8-1).
TRAP_ENTRY with the words at the pc: a bundle that cannot be formed takes ILLEGAL_BUNDLE, an unassigned opcode takes ILLEGAL_INSTR with its slot and its word, and syllables that raise an
exception take it (02 R58); the reads of the words have met their codes (02 R51). -/
def Obligations.BundleWordsSpellSyllables : Prop :=
  (∀ (ys : List Syl) (y : Syl) (rest : List (BitVec 32)), y.stop = true → (∀ z ∈ ys, z.stop = false) → ((ys ++ [y]).map Syl.words).sum ≤ 8 →
     decodeBundle ((ys ++ [y]).flatMap Syl.encode ++ rest) = .syllables (ys ++ [y])) ∧
  (∀ (s : State) (m : MastId) (ws : List (BitVec 32)), s.pow.compOn = true → s.coreRuns m = true → (s.ready m (wordSyls ws)).takeDeferrable m = none → ws ≠ [] →
     let t := s.ready m (wordSyls ws)
     let met := fun (code slot : Nat) (half : Bool) (tval : Word) => t.trapReads m (wordSyls ws) (4 * (bundleWords 8 ws).length) (.trap code slot half tval)
     (t.mast m).core.npc.toNat + min 32 (4 * (bundleWords 8 ws).length) ≤ 0x20000 →
     (decodeBundle ws = .illFormed → exec (.trapEntry ⟨m, ws⟩) s = .next ((met 1 0 false 0).raise m 1 0 false 0)) ∧
     (∀ w : BitVec 32, decodeBundle ws = .unassigned w →
       let slot := (wordFld w 28 3).toNat
       exec (.trapEntry ⟨m, ws⟩) s = .next ((met 2 slot false (w.zeroExtend 64)).raise m 2 slot false (w.zeroExtend 64))) ∧
     (∀ (ys : List Syl) (code slot : Nat) (half : Bool) (tval : Word), decodeBundle ws = .syllables ys → t.hold m ys = some (.trap code slot half tval) → code ≠ 20 →
       exec (.trapEntry ⟨m, ws⟩) s = .next ((met code slot half tval).raise m code slot half tval)))

/-- TRAP_ENTRY at a running core that masks nothing takes an interrupt that is pending and enabled, when no engine has a deferrable exception: one that targets M before one
that targets S, the lowest number first; one that targets S only below M. CAUSE has the interrupt mark, TVAL is 0 (14 R368-R370). -/
def Obligations.InterruptIsTaken : Prop :=
  ∀ (s : State) (m : MastId) (i : Nat), s.pow.compOn = true → s.coreRuns m = true →
    let c := ((s.ready m []).mast m).core
    c.im = false → c.bank ≠ 3 → (s.mast m).vec.faulted = false → (s.mast m).hal.exc = false →
    let on := fun (j : Nat) => c.ipend.getLsbD j && c.ien.getLsbD j
    let toM := fun (j : Nat) => decide (8 ≤ j) || c.ilvl.getLsbD j
    i < 16 → on i = true → (toM i = false → c.level.toNat ≤ 1) →
    (∀ j < 16, on j = true → (toM j = true → (toM i = true ∧ i ≤ j)) ∧ (toM j = false → toM i = false → i ≤ j)) →
    let k : Fin 4 := if toM i then 2 else 1
    ∃ t : State, exec (.trapEntry ⟨m, []⟩) s = .next t ∧ (t.mast m).core.bank = k ∧ (t.mast m).core.level.toNat = k.val ∧ (t.mast m).core.im = true ∧
      ((t.mast m).core.sys.get k).cause = BitVec.ofNat 64 (i + 256) ∧ ((t.mast m).core.sys.get k).tval = 0 ∧
      ((t.mast m).core.sys.get k).epc.toNat = c.npc.toNat % 2 ^ 17 ∧ (t.mast m).core.npc.toNat = (c.sys.get k).tvec.toNat % 2 ^ 18 ∧
      (∀ j : Fin 4, CoreBank.sameRegs ((t.mast m).core.banks.get j) (c.banks.get j)) ∧ t.ram = s.ram

/-! ## The long-vector unit (04 R106-R130) -/

/-- VSETVL, as a whole bundle, sets VTYPE to bits [7:0] of its body, and VL and A to the smaller of A and the VLMAX of the new VTYPE.
Every other V0 or V1 syllable, as a whole bundle, queues one command behind those that wait; it has captured VL, VTYPE, the scalar, the address and the
stride as they stood before the bundle (04 R108); the unit then goes on, and a unit that is stopped or not set keeps the command in its queue. -/
def Obligations.VectorSyllablesIssue : Prop :=
  (∀ (s : State) (m : MastId) (d : V1Body), s.issuesAlone m (.v1 .vsetvl d) = true →
     let c := s.before m [.v1 .vsetvl d]
     let vt : Word := BitVec.ofNat 64 (d.km.toNat * 32 + d.fn.toNat)
     let vl : Word := BitVec.ofNat 64 (min c.cur.a.toNat (1024 / 2 ^ (vt.toNat % 8)))
     exec (.vsetvl m d) s = .next (((s.entered m [.v1 .vsetvl d]).modCore m fun k => k.modCur fun q => { q with vl := vl, vtype := vt, a := vl }).finish m c
       [.v1 .vsetvl d])) ∧
  (∀ (s : State) (m : MastId) (y : Syl) (v0 : Option (V0Op × V0Body)) (v1 : Option (V1Op × V1Body)),
     ((∃ o d, y = .v0 o d ∧ v0 = some (o, d) ∧ v1 = none) ∨ (∃ o d, y = .v1 o d ∧ o ≠ .vsetvl ∧ v0 = none ∧ v1 = some (o, d))) →
     s.issuesAlone m y = true →
     let c := s.before m [y]
     ∃ (u : State) (k : VCmd), exec (sylCmd m y) s = .next (u.vecAdvance m) ∧ (u.mast m).vec = { (s.mast m).vec with queue := (s.mast m).vec.queue ++ [k] } ∧
       k.v0 = v0 ∧ k.v1 = v1 ∧ k.vl = c.cur.vl.toNat ∧ k.vtype = c.cur.vtype ∧ k.level = c.level ∧ k.pc = c.npc.setWidth 17 ∧
       (∀ o d, v0 = some (o, d) → d.sc = true →
         (d.vs1 = 0 → k.scalar = c.cur.a) ∧ (d.vs1 = 1 → k.scalar = c.cur.x) ∧ (d.vs1 = 2 → k.scalar = c.cur.y) ∧
         (3 ≤ d.vs1.toNat → d.vs1.toNat ≤ 30 → k.scalar = BitVec.ofNat 64 (Mem.load c.ldm (8 * d.vs1.toNat) 8))) ∧
       u.ram = s.ram ∧ (∀ i : Fin 4, ((u.mast m).core.banks.get i).a = (c.banks.get i).a) ∧ (u.mast m).core.ldm = c.ldm ∧
       ((s.mast m).vec.failing = false → ((s.mast m).vec.stopped = true ∨ s.engSet m 1 = false) → u.vecAdvance m = u))

/-- An element-wise V0 operation, as a whole bundle at a unit that is set, idle and neither stopped nor asked to stop: every active element of VD below VL takes the value of the
operation on its operands as they stood before, a masked-off one keeps its value, or becomes 0 with MZ; every other byte of the vector registers, the mask
registers and memory stay; the sticky flags of the unit gain those of the active elements (04 R107, R108, R117, 05 R148). -/
def Obligations.VectorElementwiseResults : Prop :=
  ∀ (s : State) (m : MastId) (o : V0Op) (d : V0Body),
    o ∈ [.vfadd, .vfsub, .vfrsub, .vfmul, .vfma, .vfms, .vfdiv, .vfsqrt, .vfmin, .vfmax, .vfabs, .vfneg, .vadd, .vsub, .vmul, .vmin, .vmax, .vand, .vor, .vxor,
      .vshl, .vshr, .vmv, .vid] →
    s.issuesAlone m (.v0 o d) = true → s.vecRuns m = true → (s.mast m).vec.queue = [] → (s.mast m).vec.reqs = [] → (s.mast m).vec.mem = none →
    (s.mast m).vec.stopReq = false → (s.mast m).vec.vidxA = 0 →
    Sparse.wf (s.mast m).vec.vreg = true →
    let x := s.mast m
    let v := x.vec
    let vt := x.core.cur.vtype
    let n := vtBytes vt
    let vl := x.core.cur.vl.toNat
    let a := fun (i : Nat) => if d.sc then (scodeVal x.core d).toNat % 2 ^ (8 * n) else v.elem d.vs1.toNat n i
    let r := fun (i : Nat) => v0Elem o vt x.num.ovm x.num.ftz (a i) (v.elem d.vs2.toNat n i) (v.elem d.vd.toNat n i) i
    let on := fun (i : Nat) => v.kbit d.km.toNat i
    ∃ t : State, exec (v0Cmd m o d) s = .next t ∧ (t.mast m).vec.queue = [] ∧
      (∀ i < vl, (t.mast m).vec.elem d.vd.toNat n i =
        if on i then (r i).1 % 2 ^ (8 * n) else if vt.getLsbD 6 then 0 else v.elem d.vd.toNat n i) ∧
      (∀ p : Nat, (p < 0x400 * d.vd.toNat ∨ 0x400 * d.vd.toNat + n * vl ≤ p) → Sparse.get (t.mast m).vec.vreg p = Sparse.get v.vreg p) ∧
      (t.mast m).vec.kreg = v.kreg ∧ t.ram = s.ram ∧ (t.mast m).core = ((s.afterBundle m [.v0 o d]).mast m).core ∧
      (t.mast m).num.flags = x.num.flags |||
        BitVec.ofNat 32 ((List.range vl).foldl (fun (f : NF) i => if on i then f.or (r i).2 else f) {}).toNat

/-- The integer element operations on elements of 8, 16, 32 or 64 bits, as operations on bit vectors: VADD, VSUB (b - a), VMUL, VMIN, VMAX, VAND, VOR, VXOR, VSHL and
VSHR of b by a modulo the width, VMV and VID; VMIN, VMAX and VSHR are signed for the signed kind.
VREDSUM of integers puts the sum of the active elements of VS2 below VL, modulo 2^SEW, into element 0 of VD, and changes no other byte of the vector
registers (04 R119). -/
def Obligations.VectorIntegerArithmetic : Prop :=
  (∀ (vt : Word) (ovm ftz : Bool) (a b d i : Nat), vt.toNat % 8 ≤ 3 → vt.toNat / 8 % 8 ≤ 1 →
     let w := 8 * 2 ^ (vt.toNat % 8)
     a < 2 ^ w → b < 2 ^ w →
     let sg : Bool := decide (vt.toNat / 8 % 8 = 1)
     let A : BitVec w := BitVec.ofNat w a
     let B : BitVec w := BitVec.ofNat w b
     let le := if sg then decide (A.toInt ≤ B.toInt) else decide (a ≤ b)
     let e := fun (o : V0Op) => BitVec.ofNat w (v0Elem o vt ovm ftz a b d i).1
     e .vadd = A + B ∧ e .vsub = B - A ∧ e .vmul = A * B ∧ e .vand = A &&& B ∧ e .vor = A ||| B ∧ e .vxor = A ^^^ B ∧
     e .vmin = (if le then A else B) ∧ e .vmax = (if le then B else A) ∧
     e .vshl = B <<< (a % w) ∧ e .vshr = (if sg then B.sshiftRight (a % w) else B >>> (a % w)) ∧ e .vmv = A ∧ e .vid = BitVec.ofNat w i) ∧
  (∀ (v : Vec) (k : VCmd) (d : V0Body) (ovm ftz : Bool), Sparse.wf v.vreg = true → k.vtype.toNat % 8 ≤ 3 → k.vl ≤ 1024 / 2 ^ (k.vtype.toNat % 8) → k.vl ≠ 0 →
     let n := 2 ^ (k.vtype.toNat % 8)
     let u := (v.v0 k .vredsum d ovm ftz 0).1
     u.elem d.vd.toNat n 0 = (((List.range k.vl).filter fun i => v.kbit d.km.toNat i).map fun i => v.elem d.vs2.toNat n i).sum % 2 ^ (8 * n) ∧
     (∀ p : Nat, (p < 0x400 * d.vd.toNat ∨ 0x400 * d.vd.toNat + n ≤ p) → Sparse.get u.vreg p = Sparse.get v.vreg p) ∧ u.kreg = v.kreg)

/-- VECTOR_LOAD_RETURN of one requested element that another module answers: its bytes are written to its place in its register, the request is gone, and a poisoned answer is a
fault of the job; the unit then goes on (04 R123, R128, 12 R331). An answer that this module refuses, or that is a refusal, is a fault of the job, and no element is written
(15 R393, R398; log entry 125). -/
def Obligations.VectorLoadReturnWritesElement : Prop :=
  ∀ (s : State) (m : MastId) (r : VReq) (rest : List VReq) (a : RemoteData), s.pow.compOn = true → (s.mast m).vec.reqs = r :: rest →
    (∀ q ∈ rest, q.grp ≠ r.grp) → s.isOwn r.pa = false → a.bytes.length = r.n → r.mask = false →
    let u := s.told m 1 r.pa a.jobid a.refused
    let taken := u.modVec m fun v => { v with vreg := Mem.put v.vreg (0x400 * r.reg + r.n * r.elem) a.bytes, reqs := rest }
    exec (.vectorLoadReturn m a) s = .next (State.vecAdvance
      (if a.refused = true ∨ s.accepts (nodeOf r.pa) a.jobid = false then u.modVec m fun v => { v with reqs := rest }
       else if a.poison = true then taken.jobFault m 1 1 else taken) m)

/-! ## Stopping, resuming and discarding engines (04 R126-R130, 06 R183-R187, 08 R235-R239, 11 R300-R303) -/

/-- VEC_CTL_STOP, ARR_CTL_STOP, SHEET_CTL_STOP and HAL_CTL_STOP complete in every state whose rail is on: the write asks a unit that is not stopped to stop
and leaves everything else; a unit that is stopped ignores it; with a twin pass that issues or waits for its repeat ARR_CTL_STOP asks both arrays (06 R183).
VEC_STOPPED, ARR_STOPPED, SHEET_STOPPED and HAL_STOPPED complete for a unit that has been asked to stop and has nothing under way: STOPPED sets, and what was
unfinished is the head of its queue again, with its place: the memory pipe's command at a beat boundary, with VIDX.MEM; the pass that an array is issuing, with
PASS_K.STATE 2; the halyard's descriptor at a block boundary; the sheet engine's descriptor between rows, with STATE 2.
A memory command that is within a beat and a sheet descriptor within a row go on: the event leaves the machine as it is. -/
def Obligations.StopsAreAskedAndTakeHold : Prop :=
  (∀ (s : State) (m : MastId) (a : ArrId), s.pow.compOn = true →
     let ask := fun (x : Arr) => ({ x with stopReq := x.stopReq || !x.stopped } : Arr)
     let both := ∃ p ∈ (s.array m a).passes, p.cmd.twin = true ∧ (p.issued = false ∨ p.rept = true)
     exec (.vecCtlStop m) s = .next (s.modVec m fun v => { v with stopReq := v.stopReq || !v.stopped }) ∧
     (¬both → exec (.arrCtlStop m a) s = .next (s.modArr m a ask)) ∧
     (both → (s.array m a).stopped = false → exec (.arrCtlStop m a) s = .next ((s.modArr m 0 ask).modArr m 1 ask)) ∧
     exec (.sheetCtlStop m) s = .next (s.modSheet m fun x => { x with stopReq := x.stopReq || !x.stopped }) ∧
     exec (.halCtlStop m) s = .next (s.modHal m fun x => { x with stopReq := x.stopReq || !x.stopped })) ∧
  (∀ (s : State) (m : MastId) (a : ArrId), s.pow.compOn = true →
     (let v := (s.mast m).vec
      v.stopReq = true → v.stopped = false → v.failing = false → v.arith = none → v.reqs = [] → (∀ k ∈ s.acks, k.m ≠ m ∨ k.e ≠ 1) → (s.mast m).xl.faultOf 1 = none →
       (v.atBeat = true → ∃ t, exec (.vecStopped m) s = .next t ∧ t.ram = s.ram ∧
         (t.mast m).vec = { v with queue := v.mem.toList ++ v.queue, extra := if v.mem.isSome then v.queue.length + 1 - 16 else v.extra
                                   vidxM := if v.mem.isSome then BitVec.ofNat 10 v.mnext else v.vidxM, mem := none, mnext := 0, ready := [], tail := []
                                   stopped := true, stopReq := false, faulted := false, stops := v.stops + 1 }) ∧
       (v.atBeat = false → exec (.vecStopped m) s = .next s)) ∧
     (let x := s.array m a
      x.stopReq = true → x.stopped = false → x.fires = [] →
       (x.passes = [] → exec (.arrStopped m a) s =
         .next (s.modArr m a fun x => { x with extra := x.queue.length - 16, stopped := true, stopReq := false })) ∧
       (∀ p : APass, x.passes = [p] → p.rept = false → p.issued = false → p.batch = none → p.arr = a → x.lead = [] → ∃ t, exec (.arrStopped m a) s = .next t ∧
         (t.array m a).queue = { p.cmd with modes := some p.modes, rept := false } :: x.queue ∧ (t.array m a).passes = [] ∧ (t.array m a).stopped = true ∧
         (t.array m a).stopReq = false ∧ ((t.array m a).passK.get (Fin.ofNat 8 (p.tile.val % 8))).st = 2 ∧ (t.mast m).tiles = (s.mast m).tiles ∧ t.ram = s.ram)) ∧
     (let x := (s.mast m).sheet
      x.stopReq = true → x.stopped = false → x.fin = [] → x.replies = [] →
       (x.queue = [] → exec (.sheetStopped m) s = .next (s.modSheet m fun x => { x with stopped := true, stopReq := false, extra := 0, hist := none, st := 0 })) ∧
       (∀ (c : SCmd) (rest : List SCmd) (r : SRun), x.queue = c :: rest → c.run = some r → x.faulted = false → sdOpk c.desc ≠ 6 → x.hist = none →
         (x.beat = 0 → exec (.sheetStopped m) s =
           .next (s.modSheet m fun x => { x with stopped := true, stopReq := false, extra := x.queue.length - 16, st := 2 })) ∧
         (x.beat ≠ 0 → exec (.sheetStopped m) s = .next s))) ∧
     (let x := (s.mast m).hal
      x.stopReq = true → x.stopped = false → (∀ k ∈ s.acks, k.m ≠ m ∨ k.e ≠ 5) → (s.mast m).xl.faultOf 5 = none →
       let off := fun (back : List HalCmd) => ∃ t, exec (.halStopped m) s = .next t ∧ (t.mast m).hal.stopped = true ∧ (t.mast m).hal.stopReq = false ∧
         (t.mast m).hal.queue = back ++ x.queue ∧ (t.mast m).hal.act = [] ∧ t.ram = s.ram
       (x.act = [] → off []) ∧
       (∀ r : HalRun, x.act = [r] → r.wrote = false → r.done = false →
         (r.pages = none ∨ halAtBlock r.cmd.desc (x.prog.get (hdCh r.cmd.desc)).lines.toNat = true) → off [{ r.cmd with started := true }])))

/-- A RUN write to a stopped unit lets it go on: the long-vector unit from VIDX and free of its fault; an array, unless
it has faulted, or a twin pass waits at its head and the other array is not stopped too; the sheet engine at the start of its row, unless it has faulted; the halyard, unless it has faulted otherwise than on a
translation, with its stopped descriptor under way again from the line that HAL_PROG names.
A DISCARD write to a stopped unit empties its queue, whose entries a restore may still name, and takes it back to its start, and leaves memory and every other mast. -/
def Obligations.RunResumesAndDiscardEmpties : Prop :=
  (∀ (s : State) (m : MastId) (a : ArrId), s.pow.compOn = true →
     ((s.mast m).vec.stopped = true → exec (.vecCtlRun m) s =
       .next ((s.modVec m fun v => { v with stopped := false, faulted := false, qent := [], extra := 0 }).vecAdvance m)) ∧
     ((s.mast m).vec.stopped = false → exec (.vecCtlRun m) s = .next s) ∧
     ((s.array m a).stopped = true → (s.array m a).faulted = false → (s.array m a).passes = [] →
       (∀ k ∈ (s.array m a).lead, k.twin = false ∧ k.rept = false) →
       exec (.arrCtlRun m a) s = .next (s.modArr m a fun x => { x with stopped := false, qent := [], extra := 0 })) ∧
     ((∃ k ∈ (s.array m a).lead, k.twin = true) → (∃ b : ArrId, (s.array m b).stopped = false ∨ (s.array m b).faulted = true) →
       exec (.arrCtlRun m a) s = .next s) ∧
     (((s.array m a).faulted = true ∨ (s.array m a).stopped = false) → exec (.arrCtlRun m a) s = .next s) ∧
     ((s.mast m).sheet.stopped = true → (s.mast m).sheet.faulted = false → exec (.sheetCtlRun m) s = .next (s.modSheet m fun x =>
       { x with stopped := false, qent := [], extra := 0, beat := 0, vals := [], hist := none, st := if x.st = 2 then 1 else x.st })) ∧
     (let x := (s.mast m).hal
      (x.stopped = true → x.faulted = false →
        let goes := fun (queue : List HalCmd) (act : List HalRun) => ∃ u : State, exec (.halCtlRun m) s = .next (u.halGo m) ∧ (u.mast m).hal.stopped = false ∧
          (u.mast m).hal.queue = queue ∧ (u.mast m).hal.act = x.act ++ act ∧ u.ram = s.ram
        ((∀ c ∈ x.queue, c.started = false) → goes x.queue []) ∧
        (∀ (c : HalCmd) (rest : List HalCmd), x.queue = c :: rest → c.started = true → (∀ k ∈ rest, k.started = false) →
          goes rest [halRunOf c (x.prog.get (hdCh c.desc)).lines.toNat])) ∧
      (x.faulted = true → x.fKind ≠ 5 → x.fKind ≠ 6 → exec (.halCtlRun m) s = .next s))) ∧
  (∀ (s : State) (m : MastId) (a : ArrId), s.pow.compOn = true →
     ((s.mast m).vec.stopped = true → exec (.vecCtlDiscard m) s = .next ((s.modVec m fun v =>
       { v with queue := [], extra := 0, qent := [], saved := v.saved ++ packs v.extra v.queue, vidxA := 0, vidxM := 0 }).clearStall m 1)) ∧
     ((s.array m a).stopped = true → ∃ t, exec (.arrCtlDiscard m a) s = .next t ∧ (t.array m a).queue = [] ∧ (t.array m a).passes = [] ∧
       (t.array m a).fires = [] ∧ (t.array m a).faulted = false ∧ (t.array m a).stopped = true ∧
       (∀ i : Fin 8, ((t.mast m).tiles.get (Fin.ofNat 16 (8 * a.val + i.val))).inflight = 0 ∧
         ((t.mast m).tiles.get (Fin.ofNat 16 (8 * a.val + i.val))).ents = ((s.mast m).tiles.get (Fin.ofNat 16 (8 * a.val + i.val))).ents) ∧
       t.ram = s.ram ∧ ∀ k, k ≠ m → t.mast k = s.mast k) ∧
     ((s.mast m).sheet.stopped = true → exec (.sheetCtlDiscard m) s = .next ((s.modSheet m fun x => { x with
       queue := [], extra := 0, qent := [], saved := x.saved ++ packs x.extra x.queue, row := 0, st := 0, beat := 0, fin := [], replies := [], owed := [], vals := [], hist := none
       faulted := false }).clearStall m 4)) ∧
     ((s.mast m).hal.stopped = true → exec (.halCtlDiscard m) s = .next ((s.modHal m fun x => { x with
       queue := [], extra := 0, qent := [], saved := x.saved ++ packs x.extra x.queue, act := [], faulted := false, exc := false
       prog := Vector.replicate 2 HalProg.reset }).clearStall m 5)))

/-! ## The control core between bundles (02 Table 2-11, R79, 03 R87-R94, 12 R308-R310, 14 R369) -/

/-- CC_CTL.START starts a halted core at CC_START_PC in bank 2 at level M, wakes it, and lets the 11 cc to its first bundle pass (03 R101), and does nothing to one that runs; CC_CTL.STOP asks a running core to stop, writes every product that
is outstanding, and does nothing to a halted one; HALTED sets once the multiplies, the loads, the store buffer and the write queue are empty, and not
before; CC_IRQ sets the software interrupts whose bits are written 1. -/
def Obligations.CoreStartsAndStops : Prop :=
  ∀ (s : State) (m : MastId) (v : BitVec 8), s.pow.compOn = true →
    let c := (s.mast m).core
    (c.halted = true → exec (.ccCtlStart m) s = .next ((s.modCore m fun k => Core.age
      { k with halted := false, npc := k.startPc.setWidth 18, bank := 2, level := 2, opening := [], waiting := none } 11).wake m 0)) ∧
    (c.halted = false → exec (.ccCtlStart m) s = .next s) ∧
    (c.halted = false → ∃ t, exec (.ccCtlStop m) s = .next t ∧ (t.mast m).core.stopReq = true ∧ (t.mast m).core.muls = [] ∧
      (t.mast m).core.banks = (c.muls.foldl Core.landMul c).banks ∧ (t.mast m).core.npc = c.npc ∧ t.ram = s.ram) ∧
    (c.halted = true → exec (.ccCtlStop m) s = .next s) ∧
    (c.stopReq = true → c.muls = [] → c.loads = [] → c.sb = [] → c.wq = [] →
      exec (.haltComplete m) s = .next (s.modCore m fun k => { k with halted := true, stopReq := false })) ∧
    ((c.muls ≠ [] ∨ c.loads ≠ [] ∨ c.sb ≠ [] ∨ c.wq ≠ []) → exec (.haltComplete m) s = .next s) ∧
    exec (.ccIrqSet m v) s = .next (s.modCore m fun k => { k with ipend := k.ipend ||| v.zeroExtend 16 })

/-- What becomes of the global accesses of a core. LOAD_DATA_RETURN names a load whose request reaches its canvas tier: its bytes are sampled there (01 R474); once all its bytes are
there, the oldest load writes A of the bank that issued it, extended by its size and SGN, whatever bank is current, and no flag and no other register changes (03 R87, 02 R54).
STORE_WRITE_SLOT moves the oldest store of the store buffer to the end of the write queue: a store to HBM of this module asks for its line; one to canvas or a register is on its way; one to another
module has left; what is sent is counted in DC_MISS (12 R332). WRITE_ACK names a store that reaches canvas: its bytes stand there; without one, it takes the oldest performed store out of the write
queue, or the oldest write of another engine whose acknowledgement is due (03 R90, 12 R308, R310, 01 R37). An answer of another module counts its flit, and a refusal, or an
answer that this module refuses, is a fault of the job (15 R393, R398): a load then takes a free value (log entry 125). -/
def Obligations.GlobalAccessesComplete : Prop :=
  ∀ (s : State) (m : MastId), s.pow.compOn = true →
    let c := (s.mast m).core
    let tier := fun (pa : BitVec 52) => s.isOwn pa = true ∧ ∃ k : MastId, placeOf (localOf pa) = .canvas k
    (∀ (l : LoadPend) (rest : List LoadPend) (d : List Byte) (p : LoadPart) (a : RemoteData), c.loads = l :: rest → l.parts = [p] →
      let fin := fun (u : State) (v : Word) => (u.modCore m fun c => ({ c with loads := rest, returned := c.returned || l.left.isNone }).modBank l.bank fun b =>
        { b with a := v, aDue := max b.aDue (l.left.getD 0) }).vecAdvance m
      let bad := a.refused = true ∨ s.accepts (nodeOf p.pa) a.jobid = false
      let far := s.told m 0 p.pa a.jobid a.refused
      ((p.src = .ready d ∨ p.src = .got d false) → exec (.loadDataReturn m ⟨none, a⟩) s = .next (fin s (extend l.size (ofBytes d) l.sgn))) ∧
      (p.src = .remote → ¬bad → p.n ≤ a.bytes.length → exec (.loadDataReturn m ⟨none, a⟩) s =
        .next (fin (if a.poison then far.jobFault m 0 1 else far) (extend l.size (ofBytes (a.bytes.take p.n)) l.sgn))) ∧
      (p.src = .remote → bad → ∃ v : Word, exec (.loadDataReturn m ⟨none, a⟩) s = .next (fin { far with frees := s.frees + 1 } v))) ∧
    (∀ (l : LoadPend) (p : LoadPart) (a : RemoteData), c.loads = [l] → l.parts = [p] → p.src = .canvasUc → tier p.pa → s.isNext m l.seq (localOf p.pa) = true →
      localOf p.pa % 128 + p.n ≤ 128 → 0 < p.n →
      ∃ t : State, exec (.loadDataReturn m ⟨some l.seq, a⟩) s = .next t ∧ t.ram = s.ram ∧ (t.mast m).core = { c with loads := [{ l with parts := [{ p with
        src := .got (Mem.bytes s.ram (localOf p.pa) p.n) (s.badWords (localOf p.pa) p.n) }] }] }) ∧
    (∀ (e : StoreEnt) (rest : List StoreEnt), c.sb = e :: rest →
      let own := s.isOwn e.pa
      let spot := placeOf (localOf e.pa)
      let u := fun (st : WqState) => s.modCore m fun c => { c with
        sb := rest, wq := c.wq ++ [{ pa := e.pa, data := e.data, wp := e.wp, level := e.level, seq := e.seq, st := st }] }
      exec (.storeWriteSlot m) s = .next (
        if own = true ∧ spot = .hbm then (u .queued).kickWq m (lineOf (localOf e.pa))
        else if own = true ∧ spot = .regs then (u .requested).bump m 0x2020
        else if own = true then ((u .requested).bump m 0x2020).touchLine m (lineOf (localOf e.pa))
        else ((u .performed).bump m 0x2020).sendTo (s.job (s.mast m).jslot).jblk (nodeOf e.pa) (dieOf m).val 0
          (.wru e.pa e.data (s.job (s.mast m).jslot).jobid none))) ∧
    (∀ (w : WqEnt) (l r : List WqEnt), c.wq = l ++ w :: r → (∀ x ∈ l, x.seq ≠ w.seq) → w.st = .requested → tier w.pa → s.isNext m w.seq (localOf w.pa) = true →
      ∀ (jobid : BitVec 16) (ref post : Bool), ∃ t : State, exec (.writeAck m ⟨0, some w.seq, jobid, ref, post⟩) s = .next t ∧ t.ram = Mem.put s.ram (localOf w.pa) w.data ∧
        (t.mast m).core.wq = l ++ { w with st := .performed } :: r ∧ (t.mast m).core.banks = c.banks) ∧
    (∀ (w : WqEnt) (l r : List WqEnt), c.wq = l ++ w :: r → w.st = .performed → (∀ x ∈ l, x.st ≠ .performed) →
      ∀ (jobid : BitVec 16) (ref : Bool), exec (.writeAck m ⟨0, none, jobid, ref, false⟩) s =
        .next (((if s.isOwn w.pa then s else s.told m 0 w.pa jobid ref).modCore m fun c => { c with wq := l ++ r }).vecAdvance m)) ∧
    (∀ (e : EngId) (k : AckDue) (l r : List AckDue), e ≠ 0 → s.acks = l ++ k :: r → k.m = m → k.e = e → (∀ x ∈ l, x.m ≠ m ∨ x.e ≠ e) →
      ∀ (jobid : BitVec 16) (ref : Bool), exec (.writeAck m ⟨e, none, jobid, ref, false⟩) s =
        .next (({ s.told m e k.pa jobid ref with acks := l ++ r } : State).vecAdvance m)) ∧
    (∀ (e : EngId) (jobid : BitVec 16) (ref : Bool), exec (.writeAck m ⟨e, none, jobid, ref, true⟩) s =
      .next (if s.sent.any (fun p => match p.2 with | .post _ j => decide (j = (s.job (s.mast m).jslot).jobid) | _ => false) then s.jobFault m e.val 7 else s))

/-! ## Tokens and sail states (01 R34-R43, 02 R100, 17 R436, R437) -/

/-- TOKEN_POST of the only post on its way, to a slot of this module of a job that is not fenced, by a poster without held posts and older stores: a slot below 255 counts one
more; a post that is held there is counted ahead of it; a full slot holds the post; no other slot changes. -/
def Obligations.TokenPostCountsOrIsHeld : Prop :=
  ∀ (s : State) (p : Post) (i : SlotId), s.pow.compOn = true → s.posts = [p] → (∀ k n j, p.src ≠ .remote k n j) → s.postFree p = true →
    slotOf p.addr = some i → tokenNode p.addr = s.nodeId → s.slotFenced i = false → (∀ m k, i = .mast m k → Sparse.wf (s.mast m).tok.count = true) →
    ((s.slotCount i).toNat < 255 → s.heldAt i = [] → ∃ t u : State, exec (.tokenPost p.addr p.src) s = .next t ∧ u = ({ s with posts := [] } : State).setSlot i (s.slotCount i + 1) ∧
      u.slotCount i = s.slotCount i + 1 ∧ (∀ k : SlotId, k ≠ i → u.slotCount k = s.slotCount k) ∧ t = u.tokenSeen i (s.slotCount i)) ∧
    (∀ q : Post, (s.slotCount i).toNat < 255 → s.heldAt i = [q] → ∃ u : State, exec (.tokenPost p.addr p.src) s = .next (u.tokenSeen i (s.slotCount i)) ∧
      (∀ k : SlotId, k ≠ i → u.slotCount k = s.slotCount k ∧ u.heldAt k = s.heldAt k) ∧
      if (s.slotCount i).toNat = 254 then (u.slotCount i).toNat = 255 ∧ u.heldAt i = [p] else u.slotCount i = s.slotCount i + 2 ∧ u.heldAt i = []) ∧
    ((s.slotCount i).toNat = 255 → exec (.tokenPost p.addr p.src) s = .next { s with posts := [], held := s.held ++ [(i, p)] })

/-- HELD_POST_LAND completes where a post is held at a slot that has room again: it counts the oldest post held there, and no other.
TOKEN_CTL.CLEAR completes in every state: on a mast that runs no job it zeroes every slot and discards the posts held at it; on a mast with a job it does nothing.
TOKEN_STALL_EVENT completes, while token-stall events are on, for an engine that has posted none for its waiting command and whose slots are not all filled: it is
marked as posted, and the owner of the mast's job is told; another is posted only after the command has started (01 R41). -/
def Obligations.HeldPostsAndStalls : Prop :=
  (∀ (s : State), s.pow.compOn = true →
     (∀ (i : SlotId) (p : Post) (l r : List (SlotId × Post)), s.held = l ++ (i, p) :: r → (∀ h ∈ l, h.1 ≠ i) → (s.slotCount i).toNat < 255 →
       (∀ m k, i = .mast m k → Sparse.wf (s.mast m).tok.count = true) →
       exec (.heldPostLand i) s = .next ((({ s with held := l ++ r } : State).setSlot i (s.slotCount i + 1)).tokenSeen i (s.slotCount i))) ∧
     (∀ i : SlotId, (s.slotCount i).toNat = 255 → exec (.heldPostLand i) s = .next s) ∧
     (∀ m : MastId, (s.mast m).jvalid = false → ∃ t, exec (.tokenCtlClear m) s = .next t ∧ (∀ k, t.slotCount (.mast m k) = 0) ∧
       (∀ k, t.heldAt (.mast m k) = []) ∧ (∀ n k, n ≠ m → t.slotCount (.mast n k) = s.slotCount (.mast n k)) ∧ t.chans = s.chans ∧ t.ram = s.ram) ∧
     (∀ m : MastId, (s.mast m).jvalid = true → exec (.tokenCtlClear m) s = .next s)) ∧
  (∀ (s : State) (m : MastId) (e : EngId), s.pow.compOn = true →
     ((s.mast m).tok.stallEn = true → (s.mast m).tok.stallSent.getLsbD e.val = false → s.haveTokens m (s.waitSlots m e) = false →
       ∃ t, exec (.tokenStallEvent m e) s = .next t ∧ (t.mast m).tok.stallSent.getLsbD e.val = true ∧ (t.mast m).tok.count = (s.mast m).tok.count ∧ t.ram = s.ram) ∧
     (((s.mast m).tok.stallEn = false ∨ (s.mast m).tok.stallSent.getLsbD e.val = true) → exec (.tokenStallEvent m e) s = .next s))

/-- Sail states: an idle engine that is set reefs; a reefed one that something wakes is set; a mast whose engines are all reefed, whose slots are empty and to which no access is
on its way furls, unless FURL is 0; and a furled one that something wakes reefs. No other engine changes. -/
def Obligations.SailStatesChange : Prop :=
  ∀ (s : State) (m : MastId) (e : EngId), s.pow.compOn = true →
    let x := s.mast m
    (sailOf x e = 0 → s.engIdle m e = true → ∃ t, exec (.reefEntry m e) s = .next t ∧ sailOf (t.mast m) e = 1 ∧ ∀ f, f ≠ e → sailOf (t.mast m) f = sailOf x f) ∧
    (sailOf x e = 1 → s.engWoken m e = true → e ≠ 1 → ∃ t, exec (.reefWakeDone m e) s = .next t ∧ sailOf (t.mast m) e = 0 ∧
      ∀ f, f ≠ e → sailOf (t.mast m) f = sailOf x f) ∧
    (s.pow.furl ≠ 0 → x.sail = 0x555 → x.tok.count = [] → s.accessOn m = false →
      ∃ t, exec (.furlEntry m) s = .next t ∧ (∀ f, sailOf (t.mast m) f = 2) ∧ (t.mast m).core = x.core) ∧
    (s.pow.furl = 0 → exec (.furlEntry m) s = .next s) ∧
    (x.sail = 0xAAA → x.furlWoken = true → ∃ t, exec (.furlWakeDone m) s = .next t ∧ (∀ f, sailOf (t.mast m) f = 1) ∧ (t.mast m).core = x.core)

/-! ## The arrays (06 R163-R181, 07 R189-R201) -/

/-- An X syllable, as a whole bundle, queues one command on each array that ARR names, behind those that wait, with the 64-byte descriptor that the LDM holds at 64 × DADDR;
SRUN and HRUN queue one on the sheet engine, with whether its words hold an uncorrectable error, and on the halyard. Nothing of it runs yet (06 R164, 08 R216, 11 R293). -/
def Obligations.EngineSyllableQueuesDescriptor : Prop :=
  ∀ (s : State) (m : MastId),
    let c := (s.mast m).core
    let desc := fun (a : BitVec 12) => (BitVec.ofNat 512 (Mem.load c.ldm (64 * a.toNat) 64) : Desc)
    (∀ (o : XOp) (d : XBody), s.issuesAlone m (.x o d) = true → ∃ (t : State) (k : ACmd), exec (xCmd m o d) s = .next t ∧
      k.desc = (if o = .xbdisarm then 0 else desc d.daddr) ∧ k.daddr = d.daddr ∧ k.pc = c.npc.setWidth 17 ∧ k.q.val = d.q.toNat ∧
      (k.twin = true ↔ d.arr = 3) ∧ (k.kind = .pass ↔ o = .xpass) ∧ (k.kind = .bfill ↔ o = .xbfill) ∧
      (∀ a : ArrId, (t.array m a).queue = (s.array m a).queue ++ (if d.arr.getLsbD a.val then [k] else []) ∧
        (t.array m a).passes = (s.array m a).passes) ∧ t.ram = s.ram ∧ (t.mast m).core.ldm = c.ldm) ∧
    (∀ d : SBody, s.issuesAlone m (.s .srun d) = true → ∃ t : State, exec (.srun m d) s = .next t ∧
      (t.mast m).sheet.queue = (s.mast m).sheet.queue ++
        [{ desc := desc d.daddr, daddr := d.daddr, pc := c.npc.setWidth 17, level := c.level, run := none
           bad := s.bad fun z => match z with | .ldm k w => decide (k = m ∧ w / 8 = d.daddr.toNat) | _ => false }] ∧ t.ram = s.ram ∧
      (t.mast m).core.ldm = c.ldm) ∧
    (∀ d : SBody, s.issuesAlone m (.s .hrun d) = true → ∃ t : State, exec (.hrun m d) s = .next t ∧
      (t.mast m).hal.queue = (s.mast m).hal.queue ++ [{ id := (s.mast m).hal.nextId, desc := desc d.daddr, daddr := d.daddr, pc := c.npc.setWidth 17
                                                        level := c.level, started := false }] ∧ t.ram = s.ram ∧ (t.mast m).core.ldm = c.ldm)

/-- PASS_START of a pass of one array that has not started before, once the array may start it, its slots hold tokens and its descriptor is good: the pass leaves the queue and is
the newest pass, with no k-step done; one token leaves each slot it names; its tile counts one more in flight, and with ACC = 0 takes the record of the pass: type, rig,
mode, SHIFT 0 and REPEATS 0; PASS_K of the tile starts at 0 of KB (06 R168, 07 R189, R210). No entry of a tile changes.
A twin pass starts on both arrays together, once both may start it, into one tile of each (06 R176). -/
def Obligations.PassStartTakesTileAndTokens : Prop :=
  (∀ (s : State) (m : MastId) (a : ArrId) (k : ACmd) (rest : List ACmd), s.pow.compOn = true → Sparse.wf (s.mast m).tok.count = true →
    (s.array m a).queue = k :: rest → k.kind = .pass → k.twin = false → k.modes = none → s.canStart m a = true →
    s.haveTokens m (arrSlots a (pdSlots k.desc)) = true → passBad a false k.desc = false → fenceBroken a (s.array m a) (pdFolub k.desc) = false →
    passTokenBad k.desc = false →
    let d := k.desc
    let i : Fin 16 := Fin.ofNat 16 (8 * a.val + (pdTile d).val % 8)
    let old := (s.mast m).tiles.get i
    ∃ (t : State) (p : APass), exec (.passStart m a) s = .next t ∧ (t.array m a).queue = rest ∧ (t.array m a).passes = (s.array m a).passes ++ [p] ∧
      p.cmd = k ∧ p.tile = i ∧ p.done = 0 ∧ p.total = pdKb d ∧ p.issued = false ∧ p.rept = false ∧ p.sigma = (if pdAcc d then old.shift.toNat else 0) ∧
      p.modes = ((s.mast m).num.ovm, (s.mast m).num.ftz) ∧
      (∀ j : Fin 96, t.slotCount (.mast m j) = s.slotCount (.mast m j) - (if j ∈ arrSlots a (pdSlots d) then 1 else 0)) ∧
      let new := (t.mast m).tiles.get i
      new.inflight = old.inflight + 1 ∧ (∀ n : Fin 16, ((t.mast m).tiles.get n).ents = ((s.mast m).tiles.get n).ents) ∧
      (pdAcc d = false → new.type.toNat = accType (pdRfmt d) (pdCfmt d) % 4 ∧ new.rig = pdFore d ∧ new.folub = pdFolub d ∧ new.shift = 0 ∧ new.repeats = 0) ∧
      (pdAcc d = true → new.type = old.type ∧ new.rig = old.rig ∧ new.shift = old.shift ∧ new.repeats = old.repeats) ∧
      ((t.array m a).passK.get (Fin.ofNat 8 (i.val % 8))).kdone = 0 ∧ ((t.array m a).passK.get (Fin.ofNat 8 (i.val % 8))).ktotal.toNat = pdKb d ∧ t.ram = s.ram) ∧
  (∀ (s : State) (m : MastId) (k : ACmd) (r0 r1 : List ACmd), s.pow.compOn = true → Sparse.wf (s.mast m).tok.count = true →
    (s.array m 0).queue = k :: r0 → (s.array m 1).queue = k :: r1 → k.kind = .pass → k.twin = true → k.modes = none → s.canStart m 0 = true → s.canStart m 1 = true →
    s.haveTokens m (arrSlots 0 (pdSlots k.desc)) = true → passBad 0 true k.desc = false → fenceBroken 0 (s.array m 0) (pdFolub k.desc) = false →
    passTokenBad k.desc = false →
    ∃ (t : State) (p q : APass), exec (.passStart m 0) s = .next t ∧ (t.array m 0).queue = r0 ∧ (t.array m 1).queue = r1 ∧
      (t.array m 0).passes = (s.array m 0).passes ++ [p] ∧ (t.array m 1).passes = (s.array m 1).passes ++ [q] ∧ p.cmd = k ∧ q.cmd = k ∧
      p.tile = pdTile k.desc ∧ q.tile = pdTile2 k.desc ∧ p.mizzen = false ∧ q.mizzen = true ∧ p.done = 0 ∧ q.done = 0 ∧
      (∀ j : Fin 96, t.slotCount (.mast m j) = s.slotCount (.mast m j) - (if j ∈ arrSlots 0 (pdSlots k.desc) then 1 else 0)) ∧
      (∀ n : Fin 16, ((t.mast m).tiles.get n).ents = ((s.mast m).tiles.get n).ents) ∧ t.ram = s.ram)

/-- K_STEP_WRITE of the running pass of a tile (not a twin pass), with no fault in its reads. Unless the pass repeats, every entry of the tile takes the rounded block sum of the k-step on top of what
it held (or of the start value in the first k-step with ACC = 0), PASS_K counts the k-step, and memory stays; after the last k-step the pass is final: it leaves the array, the tile counts one
less in flight, and DONE, and with REPEAT also RELEASE, is posted if its bit is set. Where it repeats, because an entry overflowed, no entry changes: the pass waits for its repeat from k-step 0 with 8 more
bits of shift, which SHIFT and REPEATS of the tile record (07 R194, R200, R210). -/
def Obligations.KStepWritesEntries : Prop :=
  ∀ (s : State) (m : MastId) (a : ArrId) (p : APass) (rest : List APass), s.pow.compOn = true → (s.array m a).passes = p :: rest → p.rept = false → p.halted = false →
    p.tile.val / 8 = a.val → p.cmd.twin = false → p.mizzen = false →
    (p.issued = true ∨ p.done + 1 < p.total) → (p.issued = false → s.stepFault m p p.done = none) →
    (p.issued = true → ∀ j k, p.bad = some (j, k) → j ≠ p.done) →
    let d := p.cmd.desc
    let cv := match p.cap with | some c => Sparse.get c.canvas | none => s.sliceByte m
    let bk := match p.cap with | some c => Sparse.get c.bank | none => Sparse.get (s.mast m).bankMem
    let old := (s.mast m).tiles.get p.tile
    let i : Fin 8 := Fin.ofNat 8 (p.tile.val % 8)
    let ovf := ∃ n < 4096, (p.entry cv bk old p.done n).2.ov = true
    let post := fun (bit w hi : Nat) => if dbit d 1 bit then
      [({ addr := BitVec.ofNat 32 (dfld d w hi 32), src := .engine m (Fin.ofNat 6 (2 + a.val)), seq := s.order } : Post)] else []
    ((pdRepeat d = false ∨ ¬ovf) → ∃ t : State, exec (.kStepWrite m p.tile) s = .next t ∧ t.ram = s.ram ∧
      (∀ n < 4096, Sparse.get ((t.mast m).tiles.get p.tile).ents n = BitVec.ofNat 64 (p.entry cv bk old p.done n).1) ∧
      ((t.array m a).passK.get i).kdone = BitVec.ofNat 10 (p.done + 1) ∧
      (p.done + 1 < p.total → (t.array m a).passes = { p with done := p.done + 1 } :: rest ∧ t.posts = s.posts ∧
        ((t.mast m).tiles.get p.tile).inflight = old.inflight) ∧
      (p.done + 1 = p.total → (t.array m a).passes = rest ∧ ((t.mast m).tiles.get p.tile).inflight = BitVec.ofNat 5 (old.inflight.toNat - 1) ∧
        t.posts = s.posts ++ post 20 2 0 ++ (if pdRepeat d then post 21 2 32 else []))) ∧
    (pdRepeat d = true → ovf → p.sigma < 32 → ∃ t : State, exec (.kStepWrite m p.tile) s = .next t ∧ t.ram = s.ram ∧ t.posts = s.posts ∧
      (t.array m a).passes = { p with done := 0, issued := false, cap := none, bad := none, rept := true, sigma := p.sigma + 8 } :: rest ∧
      (t.mast m).tiles.get p.tile = { old with shift := BitVec.ofNat 6 (old.shift.toNat + 8), repeats := BitVec.ofNat 3 (old.repeats.toNat + 1) } ∧
      ((t.array m a).passK.get i).kdone = 0)

/-- OPERAND_RELEASE of the pass that an array is issuing (not a twin or batch pass, of an array that is not stopping): its operands are kept as they stand, and RELEASE is posted if its bit
is set and the pass does not repeat (06 R171). REPEAT_START takes the oldest pending repeat ahead of everything that has not started but a stopped pass that resumes, both halves of a
twin pass together (07 R201, R203). -/
def Obligations.OperandsReleasedAndRepeats : Prop :=
  ∀ (s : State) (m : MastId) (a : ArrId), s.pow.compOn = true →
    (∀ (p : APass), (s.array m a).issuing = some p → p.cmd.twin = false → p.batch = none → p.tile.val / 8 = a.val → (s.array m a).stopReq = false →
      ∃ (t : State) (bad : Option (Nat × Nat)), exec (.operandRelease m a) s = .next t ∧ t.ram = s.ram ∧ (t.mast m).tiles = (s.mast m).tiles ∧
        (t.array m a).passes = updFirst (fun y => !y.rept && !y.issued) (fun y => { y with issued := true, cap := some (s.capture m), bad := bad })
          (s.array m a).passes ∧
        t.posts = s.posts ++ (if dbit p.cmd.desc 1 21 ∧ pdRepeat p.cmd.desc = false then
          [{ addr := BitVec.ofNat 32 (dfld p.cmd.desc 2 32 32), src := .engine m (Fin.ofNat 6 (2 + a.val)), seq := s.order }] else [])) ∧
    (∀ (p : APass) (l r : List APass), (s.array m a).passes = l ++ p :: r → p.rept = true → (∀ q ∈ l, q.rept = false) → p.cmd.twin = false →
      s.arrOpen m a = true → (s.array m a).issuing = none → (s.array m a).resumes = false →
      exec (.repeatStart m a) s = .next (s.modArr m a fun x => { x with passes := l ++ r ++ [{ p with rept := false }], prevRig := pdFore p.cmd.desc
                                                                        prevFolub := pdFolub p.cmd.desc })) ∧
    (∀ (p q : APass) (l r h k : List APass), (s.array m 0).passes = l ++ p :: r → (s.array m 1).passes = h ++ q :: k → p.rept = true → q.rept = true →
      (∀ x ∈ l ++ h, x.rept = false) → p.cmd.twin = true → q.cmd = p.cmd →
      (∀ b : ArrId, s.arrOpen m b = true ∧ (s.array m b).issuing = none ∧ (s.array m b).resumes = false) →
      ∃ t : State, exec (.repeatStart m a) s = .next t ∧ (t.array m 0).passes = l ++ r ++ [{ p with rept := false }] ∧
        (t.array m 1).passes = h ++ k ++ [{ q with rept := false }] ∧ (t.mast m).tiles = (s.mast m).tiles ∧ t.ram = s.ram)

/-- An armed batch queue fires on a full count or a flush (BATCH_FIRE), or when its fill timer reaches LIMIT with rows waiting (FILL_TIMER_EXPIRY): with good row entries, one fire is the
newest, it holds as many rows as wait, at most the lanes of the row operand, and those leave the ARRIVE count. A flush with no row is only consumed (06 R179). -/
def Obligations.BatchQueueFires : Prop :=
  ∀ (s : State) (m : MastId) (a : ArrId) (q : Fin 4), s.pow.compOn = true → Sparse.wf (s.mast m).tok.count = true →
    let b := (s.array m a).bqs.get q
    let d := b.cfg
    let n := s.arrCount m a (dfld d 1 0 4)
    let r := min n (rowLanes (pdFore d))
    let fl := s.arrCount m a (dfld d 1 4 4)
    let ents := (List.range r).map fun i => Mem.bytes s.ram (sliceAddr m (dfld d 2 32 32) + 16 * ((b.head.toNat + i) % 2 ^ dfld d 1 32 4)) 16
    let fires := fun (c : Instr) => ∃ (t : State) (f : Fire), exec c s = .next t ∧ (t.array m a).fires = (s.array m a).fires ++ [f] ∧ f.q = q ∧
      f.entries = ents ∧ f.rows = none ∧ f.started = 0 ∧ f.set = b.set ∧ t.arrCount m a (dfld d 1 0 4) = n - r ∧
      ((t.array m a).bqs.get q).set = !b.set ∧ t.ram = s.ram
    let good := (∀ e ∈ ents, ofBytes (e.take 4) + batchRowBytes d ≤ 0x4000000) ∧
      ∀ i < r, s.badWords (sliceAddr m (dfld d 2 32 32) + 16 * ((b.head.toNat + i) % 2 ^ dfld d 1 32 4)) 16 = false
    (s.mayFire m a q = true → good → n ≠ 0 → (rowLanes (pdFore d) ≤ n ∨ 0 < fl) → fires (.batchFire m a q)) ∧
    (s.mayFire m a q = true → good → n ≠ 0 → b.trun = true → dfld d 1 12 20 ≠ 0 → fires (.fillTimerExpiry m a q)) ∧
    (b.armed = true → n = 0 → 0 < fl → ∃ t, exec (.batchFire m a q) s = .next t ∧ t.arrCount m a (dfld d 1 4 4) = fl - 1 ∧
      (t.array m a).fires = (s.array m a).fires)

/-- FIRE_ASSEMBLY gives the oldest fire without rows the bytes of its rows as they stand in canvas, while a half of the assembly buffer is free. BATCH_PASS_START starts the next pass of an
assembled fire ahead of the queued commands but a pass that resumes and a pending repeat, and of these too while the array is to stop, into the tile of its set, with those rows (06 R180, R181). -/
def Obligations.FireIsAssembledAndStarts : Prop :=
  ∀ (s : State) (m : MastId) (a : ArrId) (f : Fire), s.pow.compOn = true →
    let x := s.array m a
    ((x.fires.filter fun g => g.rows.isSome).length < 2 → x.fires.find? (fun g => g.rows.isNone) = some f →
      (f.entries.all fun e => !s.badWords (sliceAddr m (ofBytes (e.take 4))) (batchRowBytes f.desc)) = true →
      ∃ t : State, exec (.fireAssembly m a) s = .next t ∧ t.ram = s.ram ∧ (t.array m a) = { x with fires := x.fires.map fun g => if g.id = f.id then { g with
        rows := some (f.entries.map fun e => Mem.bytes s.ram (sliceAddr m (ofBytes (e.take 4))) (batchRowBytes f.desc)) } else g }) ∧
    (x.nextFirePass = some f → x.stopped = false → s.engSet m (Fin.ofNat 6 (2 + a.val)) = true → x.issuing = none →
      (x.stopReq = true ∨ (x.resumes = false ∧ ∀ p ∈ x.passes, p.rept = false)) →
      s.batchReady m a = true → fenceBroken a x false = false → batchTile f.desc f.set f.started / 8 = a.val →
      ∃ (t : State) (p : APass), exec (.batchPassStart m a) s = .next t ∧ (t.array m a).passes = x.passes ++ [p] ∧ p.batch = some f.q ∧
        p.rows = f.rows.getD [] ∧ p.tile.val = batchTile f.desc f.set f.started ∧ p.done = 0 ∧ p.total = pdKb p.cmd.desc ∧ (t.array m a).queue = x.queue ∧ t.ram = s.ram)

/-! ## The sheet engine (08 R216-R227) -/

/-- DRAIN, MAP, EWISE, REDUCE, SAVE, LOAD, BLOAD, SOFTMAX, RMSNORM and STATS complete: a descriptor of that kind that is the oldest not started starts once the engine takes work
and its slots hold tokens, at the head of the queue, after every write before it if it reads canvas, or, if it reads none, behind a head whose last beats are at most 3 cc ahead: it takes
one token from each slot, and runs from row 0 with the NUM_CTL of its start; memory and the tiles stay. A descriptor whose words were read with an uncorrectable error faults instead, with
kind 2, a bad one with kind 1 and one with a bad DONE with kind 4, and consumes nothing (08 R220, R225, R234, R237). -/
def Obligations.SheetDescriptorStarts : Prop :=
  ∀ (s : State) (m : MastId) (opk : Fin 10) (c : SCmd) (rest : List SCmd), s.pow.compOn = true → Sparse.wf (s.mast m).tok.count = true →
    c.run = none → sdOpk c.desc = opk.val → s.sheetOpen m = true → s.haveTokens m (sdSlots c.desc) = true →
    let x := (s.mast m).sheet
    let badDone := dbit c.desc 1 20 && badToken (BitVec.ofNat 32 (dfld c.desc 2 0 32))
    let run : SRun := { modes := ((s.mast m).num.ovm, (s.mast m).num.ftz), recs := [] }
    let took := fun (u : State) => (∀ j : Fin 96, u.slotCount (.mast m j) = s.slotCount (.mast m j) - (if j ∈ sdSlots c.desc then 1 else 0)) ∧
      u.ram = s.ram ∧ (u.mast m).tiles = (s.mast m).tiles
    (x.queue = c :: rest → (readsCanvas c.desc = true → x.fin = []) →
      (c.bad = false → s.sheetBad m c.desc = false → badDone = false →
        ∃ u : State, exec (sheetStartCmd m opk) s = .next (u.sheetSettle m) ∧ took u ∧
          (u.mast m).sheet = { x with queue := { c with run := some run } :: rest, st := 1, row := 0, beat := 0, vals := [], hist := none }) ∧
      (c.bad = true → exec (sheetStartCmd m opk) s = .next (s.sheetFault m c 2 0)) ∧
      (c.bad = false → s.sheetBad m c.desc = true → exec (sheetStartCmd m opk) s = .next (s.sheetFault m c 1 0)) ∧
      (c.bad = false → s.sheetBad m c.desc = false → badDone = true → exec (sheetStartCmd m opk) s = .next (s.sheetFault m c 4 0))) ∧
    (∀ b : SCmd, x.queue = b :: c :: rest → b.run.isSome = true → readsCanvas c.desc = false → (s.startedSpan m x.row.toNat x.beat x.queue).isSome = true →
      c.bad = false → s.sheetBad m c.desc = false → badDone = false →
      ∃ u : State, exec (sheetStartCmd m opk) s = .next (u.sheetSettle m) ∧ took u ∧
        (u.mast m).sheet = { x with queue := b :: { c with run := some run } :: rest })

/-- SHEET_BEAT, ROW_REPLY and SHEET_DESC_DONE complete. A beat of a running BLOAD with good reads: the bias register it names takes the elements of the beat's columns, each converted to
FP32; after the last beat of the row the descriptor, with none started behind it, has issued its last beat; canvas stays (08 R217, R223). A beat of a running DRAIN or EWISE without CHKW, with good reads and no tile that it
reads for the first time in flight or of another record: canvas takes what the fused chain makes of each segment, and nothing else changes in memory or the tiles (08 R218, R226; 07 R211).
ROW_REPLY posts the oldest REPLY that is due; SHEET_DESC_DONE completes the oldest descriptor past its last beat, whose own REPLYs are posted, and posts DONE if its bit is set; it does nothing while one
of its own REPLYs is due; memory stays (08 R226, R227). -/
def Obligations.SheetBeatsAndCompletes : Prop :=
  (∀ (s : State) (m : MastId) (c : SCmd) (rest : List SCmd) (run : SRun) (lo k : Nat), s.pow.compOn = true →
     let x := (s.mast m).sheet
     let d := c.desc
     x.queue = c :: rest → c.run = some run → sdOpk d = 6 → x.stopped = false → x.faulted = false → s.engSet m 4 = true → x.row = 0 → x.hist = none →
     let segs := s.beatSegs m run d 0 x.beat
     let reads := s.beatReads m run d 0 segs
     let q := reads.foldl (fun (t : State) (r : Nat × Nat) => t.canvasRead (sliceAddr m r.1) r.2) s
     segs = [(0, lo, k)] → (∀ b ∈ rest.head?, b.run = none) → q.readFault m (sdChkr d) reads = none →
     let vs := (List.range k).map fun j =>
       (convert (sheetFmt (sdSfmt d)) (.flt fp32) run.modes.1 run.modes.2 (s.canvElem m (sdSrc d) 0 (sdSfmt d) (sdNcol d) 0 (lo + j))).1
     ∃ t : State, exec (.sheetBeat m) s = .next t ∧
       (t.mast m).sheet.breg = Mem.put x.breg (0x1000 * sdBreg d + 4 * lo) (vs.flatMap fun v => toBytes 4 v) ∧ t.ram = s.ram ∧ (t.mast m).tiles = (s.mast m).tiles ∧
       (s.endsRow m run d x.beat = true → (t.mast m).sheet.queue = rest ∧ (t.mast m).sheet.fin = x.fin ++ [c]) ∧
       (s.endsRow m run d x.beat = false → (t.mast m).sheet.queue = x.queue ∧ (t.mast m).sheet.fin = x.fin ∧ (t.mast m).sheet.beat = x.beat + 1)) ∧
  (∀ (s : State) (m : MastId) (c : SCmd) (rest : List SCmd) (r0 : SRun), s.pow.compOn = true →
     let x := (s.mast m).sheet
     let d := c.desc
     x.queue = c :: rest → c.run = some r0 → (sdOpk d = 0 ∨ sdOpk d = 2) → sdChkw d = false → x.stopped = false → x.faulted = false → s.engSet m 4 = true →
     s.goesOn m d = true → x.hist = none →
     let segs := s.beatSegs m r0 d x.row.toNat x.beat
     let ends := s.endsRow m r0 d x.beat
     let ts := s.beatTiles m r0 d x.row.toNat segs ends
     let new := ts.filter fun (t : Fin 16) => !r0.recs.any fun (p : Fin 16 × Tile) => decide (p.1 = t)
     (∀ t ∈ new, (s.tile m t).inflight = 0) → s.recordBad m r0 d x.row.toNat new = none →
     let run := s.firstReads m r0 ts
     let u := s.modSheet m fun (y : Sheet) => { y with queue := { c with run := some run } :: rest }
     let reads := u.beatReads m run d x.row.toNat segs
     let q := reads.foldl (fun (t : State) (r : Nat × Nat) => t.canvasRead (sliceAddr m r.1) r.2) u
     q.bad (q.beatCells m run d x.row.toNat segs ends) = false → q.readFault m (sdChkr d) reads = none →
     ∃ t : State, exec (.sheetBeat m) s = .next t ∧
       t.ram = (q.chainSegs m d run segs).1.foldl (fun (ram : Mem) (g : (Nat × Nat × Nat) × List Byte) => Mem.put ram (sliceAddr m (q.segOut m run d g.1)) g.2) s.ram ∧
       (t.mast m).tiles = (s.mast m).tiles ∧ (t.mast m).sheet.breg = x.breg ∧ (t.mast m).core = (s.mast m).core ∧ t.posts = s.posts) ∧
  (∀ (s : State) (m : MastId), s.pow.compOn = true →
     (∀ (r : BitVec 32) (rest : List (BitVec 32)), (s.mast m).sheet.replies = r :: rest →
       let u := s.modSheet m fun x => { x with replies := rest, owed := updFirst (fun n => decide (0 < n)) (· - 1) x.owed }
       exec (.rowReply m) s = .next { u with posts := s.posts ++ [{ addr := r, src := .engine m 4, seq := s.order }] }) ∧
     (∀ (c : SCmd) (rest : List SCmd), (s.mast m).sheet.fin = c :: rest → (s.mast m).sheet.owed.headD 0 = 0 →
       let u := s.modSheet m fun x => { x with fin := rest, owed := x.owed.drop 1 }
       exec (.sheetDescDone m) s = .next { u with posts := s.posts ++
         (if dbit c.desc 1 20 then [{ addr := BitVec.ofNat 32 (dfld c.desc 2 0 32), src := .engine m 4, seq := s.order }] else []) }) ∧
     ((s.mast m).sheet.owed.headD 0 ≠ 0 → exec (.sheetDescDone m) s = .next s))

/-! ## The halyard (11 R293-R299) -/

/-- COPY, SKEW, TSKEW, TRANS and FILL complete: a descriptor of that mode at the head of the halyard's queue starts once the engine takes work, its channel has a free half of its landing buffer,
every read before it in the channel has been issued and its WMASK slots hold tokens: it takes one token from each, leaves the queue, and is the youngest under way; then the halyard goes on with
translation and reads. A bad descriptor faults instead, with kind 1, and one with a bad token with kind 4: it stays, and consumes nothing (11 R292-R297, R302). -/
def Obligations.HalyardDescriptorStarts : Prop :=
  ∀ (s : State) (m : MastId) (mode : Fin 5) (c : HalCmd) (rest : List HalCmd), s.pow.compOn = true → Sparse.wf (s.mast m).tok.count = true →
    (s.mast m).hal.queue = c :: rest → c.started = false →
    hdMode c.desc = mode.val → s.halOpen m = true → ((s.mast m).hal.onCh (hdCh c.desc)).length < 2 → ((s.mast m).hal.onCh (hdCh c.desc)).all HalRun.allRead = true →
    s.haveTokens m (hdWslots c.desc) = true →
    (halBad c.desc = false → halTokenBad c.desc = false → ∃ u : State, exec (halStartCmd m mode) s = .next (u.halGo m) ∧ (u.mast m).hal.queue = rest ∧
      (u.mast m).hal.act = (s.mast m).hal.act ++ [halRunOf c 0] ∧ u.ram = s.ram ∧ (u.mast m).tiles = (s.mast m).tiles ∧
      ∀ j : Fin 96, u.slotCount (.mast m j) = s.slotCount (.mast m j) - (if j ∈ hdWslots c.desc then 1 else 0)) ∧
    (halBad c.desc = true → exec (halStartCmd m mode) s = .next (s.halFault m c 1 0 0 0)) ∧
    (halBad c.desc = false → halTokenBad c.desc = true → exec (halStartCmd m mode) s = .next (s.halFault m c 4 0 0 0))

/-- HAL_LINE_WRITE of a FILL into canvas without checksums completes: the next destination line, where one row of the destination touches it, takes the 4-byte pattern of the descriptor, HAL_PROG
counts it, and with the last line the descriptor has made its last write; then the read stages go on (11 R294, R298).
HAL_DESC_COMPLETE of the only descriptor under way, once its last write is made and acknowledged: it is gone, HAL_PROG is idle, and DONE and DONE2 are posted where their bits are set
(11 R299). -/
def Obligations.HalyardWritesAndCompletes : Prop :=
  (∀ (s : State) (m : MastId) (ch : Fin 2) (r : HalRun) (pages : List (Nat × BitVec 52)) (l a n b : Nat) (far : RemoteData), s.pow.compOn = true →
     let x := (s.mast m).hal
     let d := r.cmd.desc
     let i := (x.prog.get ch).lines.toNat
     x.writing ch = some r → r.pages = some pages → r.land = [] → hdMode d = 4 → hdSkind d = 0 → hdDkind d = 1 → hdChkw d = false →
     (hdDest d).line i = some (l, [(a, n, b)]) → i + 1 < 2 ^ 30 → x.stopped = false → x.faulted = false → x.stopReq = false → s.engSet m 5 = true →
     (x.prog.get ch).dwok = true → r.bad = false → i ≤ r.ahead → ((x.onCh ch).flatMap fun (q : HalRun) => q.land).length ≤ 256 →
     let bs := (List.range n).map fun j => (BitVec.ofNat 8 (dfld d 0 32 32 / 2 ^ (8 * ((b + j) % 4))) : Byte)
     let last := decide ((hdDest d).lines ≤ i + 1)
     ∃ (u : State) (sum : Nat), exec (.halLineWrite m ch far) s = .next (u.halReads m) ∧ u.ram = Mem.put s.ram (sliceAddr m a) bs ∧
       ((last = false ∨ x.onCh ch = [r]) → ((u.mast m).hal.prog.get ch).lines = (x.prog.get ch).lines + 1) ∧
       (u.mast m).hal.act = (x.setRun r.cmd.id fun _ => { r with ahead := if r.ahead ≤ i then r.ahead + 1 else r.ahead, sum := sum, wrote := last }).act ∧
       (u.mast m).core = (s.mast m).core ∧ u.posts = s.posts) ∧
  (∀ (s : State) (m : MastId) (ch : Fin 2) (r : HalRun), s.pow.compOn = true →
     let x := (s.mast m).hal
     let d := r.cmd.desc
     x.act = [r] → r.wrote = true → r.done = false → hdCh d = ch → s.acksDue m 5 (fun (k : AckDue) => decide (k.tag = r.cmd.id)) = false → x.queue = [] →
     ∃ t : State, exec (.halDescComplete m ch) s = .next t ∧ (t.mast m).hal.act = [] ∧ ((t.mast m).hal.prog.get ch).st = 0 ∧ t.ram = s.ram ∧
       t.posts = s.posts ++ (if dbit d 1 36 then [{ addr := BitVec.ofNat 32 (dfld d 2 0 32), src := .engine m 5, seq := s.order }] else []) ++
         (if dbit d 1 37 then [{ addr := BitVec.ofNat 32 (dfld d 2 32 32), src := .engine m 5, seq := s.order }] else []))

/-! ## Translation (13 R340-R357, 15 R394) -/

/-- WALK_REQUEST of an engine that waits for a page of which no walk is in progress starts one where fewer than 16 walkers of its die run, waits where 16 run and fewer than 64 wait, and is
lost, to be sent again, where both are full; a request for a page that a walk in progress serves joins that walk. WALK_COMPLETE of a walk with one requester ends it, unless a home refused a read of its
tables, after which it goes on; a walk that an invalidation has restarted starts from XL_ROOT as it is now: a leaf becomes the newest entry of the control core's buffer; no valid entry and a malformed entry are translation faults of kinds 1 and 4 whose records are to be written; a poisoned table
line faults the job with kind 1 (13 R340, R345-R350). -/
def Obligations.WalksServeMisses : Prop :=
  (∀ (s : State) (m : MastId) (e : EngId) (va : BitVec 56), s.pow.compOn = true →
     let x := (s.mast m).xl
     let d := dieOf m
     let vpn : BitVec 40 := BitVec.ofNat 40 (va.toNat / 2 ^ 16)
     let ws := (s.die d).walks
     let running := (ws.filter fun w => w.running).length
     let grows := fun (run : Bool) => ∃ t : State, exec (.walkRequest m e va) s = .next t ∧ t.masts = s.masts ∧ t.ram = s.ram ∧ (t.die d).wc = (s.die d).wc ∧
       (t.die d).walks = ws ++ [{ asid := x.asid, vpn := vpn, root := x.root, who := [(m, e)], running := run, fromTop := false }]
     (∃ f ∈ x.miss, f.e = e ∧ f.va.toNat / 2 ^ 16 = vpn.toNat) →
     ((∀ w ∈ ws, w.isFor x.asid vpn = true → w.running = false ∧ (m, e) ∉ w.who) →
       (running < 16 → grows true) ∧ (16 ≤ running → ws.length - running < 64 → grows false) ∧
       (16 ≤ running → 64 ≤ ws.length - running → exec (.walkRequest m e va) s = .next s)) ∧
     (∀ (w : Walk) (l r : List Walk), ws = l ++ w :: r → w.isFor x.asid vpn = true → w.running = true → (∀ q ∈ l, q.isFor x.asid vpn = true → q.running = false) →
       (∀ q ∈ ws, q.isFor x.asid vpn = true → (m, e) ∉ q.who) → ∃ t : State, exec (.walkRequest m e va) s = .next t ∧ t.masts = s.masts ∧ t.ram = s.ram ∧
         (t.die d).walks = l ++ { w with who := w.who ++ [(m, e)] } :: r)) ∧
  (∀ (s : State) (d : DieId) (w : Walk) (l r : List Walk) (m : MastId) (f : XFault), s.pow.compOn = true → (s.die d).walks = l ++ w :: r → w.running = true →
     (∀ q ∈ l, q.running = false ∨ q.isFor w.asid w.vpn = false) → w.who = [(m, 0)] → (s.mast m).xl.miss = [f] → f.e = 0 → f.va.toNat / 2 ^ 16 = w.vpn.toNat →
     let x := (s.mast m).xl
     let va := w.vpn.toNat * 2 ^ 16
     let root := if w.fromTop = true ∧ x.asid = w.asid then x.root else w.root
     let res := ((s.modDie d fun y => { y with walks := l ++ r }).walk (.walker d) d w.asid root va w.fromTop).2.2
     (res = .refused → exec (.walkComplete d w.asid w.vpn) s = .next (s.walk (.walker d) d w.asid root va w.fromTop).1) ∧
     (res ≠ .refused → ∃ t : State, exec (.walkComplete d w.asid w.vpn) s = .next t ∧ (t.mast m).xl.miss = [] ∧ (t.mast m).core.banks = (s.mast m).core.banks ∧
       (∀ lvl ent, res = .leaf lvl ent → (t.mast m).xl.tlbCore.head? = some (leafEnt w.asid va lvl ent) ∧ (t.mast m).xl.faults = x.faults ∧ t.flts = s.flts) ∧
       (∀ lvl, res = .noTrans lvl → x.fqEn = true → x.recBad s.nodeId = false → (t.mast m).xl.tlbCore = x.tlbCore ∧ t.flts = s.flts ∧
         (t.mast m).xl.faults = x.faults ++ [{ f with kind := 1, lvl := BitVec.ofNat 2 lvl, st := .pending }]) ∧
       (∀ lvl, res = .malformed lvl → x.fqEn = true → x.recBad s.nodeId = false → (t.mast m).xl.tlbCore = x.tlbCore ∧ t.flts = s.flts ∧
         (t.mast m).xl.faults = x.faults ++ [{ f with kind := 4, lvl := BitVec.ofNat 2 lvl, st := .pending }]) ∧
       (res = .poisoned → (t.mast m).xl.tlbCore = x.tlbCore ∧ t.flts = s.flts ++ [{ m := m, e := 0, kind := 1 }])))

/-- FAULT_RECORD_WRITE of the fault of an engine, with the fault ring in good memory: with a free place the 32-byte record of 13 Table 13-4 stands at FQ_BASE + 32 × FQ_TAIL, FQ_TAIL and FQ_SEQ
count one, and the fault is written; with a full ring it is held and OVERFLOW sets; with FQ_STATUS.EN 0 it is a fault of the job instead. FAULT_RECORD_ACK raises cause 11, 12 or 9 at the
control core, unless a deferrable trap can be taken then, which comes first (14 R368), and ends the work of the
long-vector unit at its element, which stops once its earlier accesses are complete. FQ_TIMEOUT and BOUND_EXCEEDED fault the job with kinds 6 and 7. A write of FQ_BASE to a halted core clears FQ_HEAD, FQ_TAIL
and FQ_SEQ; to a running one it sets XWERR; FQ_HEAD takes its value (13 R350-R352, R356, 15 R394). -/
def Obligations.FaultRecordsAreWritten : Prop :=
  ∀ (s : State) (m : MastId) (e : EngId), s.pow.compOn = true → Sparse.wf s.ram = true →
    let x := (s.mast m).xl
    let a := x.recAddr % 2 ^ 38
    (∀ (f : XFault) (l r : List XFault), x.faults = l ++ f :: r → f.e = e → (∀ q ∈ l, q.e ≠ e) →
      ((f.st = .pending ∨ f.st = .held) → x.fqEn = false → (∀ q ∈ l ++ r, q.e ≠ e) → ∃ t : State, exec (.faultRecordWrite m e) s = .next t ∧
        (t.mast m).xl.faults = l ++ { f with st := .dead } :: r ∧ t.flts = s.flts ++ [{ m := m, e := BitVec.ofNat 3 e.val, kind := if f.kind = 4 then 5 else 6 }] ∧
        t.ram = s.ram) ∧
      ((f.st = .pending ∨ f.st = .held) → x.fqEn = true → x.recBad s.nodeId = false → x.fqFull = false → (s.ask (.walker (dieOf m)) (linesOf a 32)).2 = true → f.kind ≠ 4 →
        ∃ t : State, exec (.faultRecordWrite m e) s = .next t ∧ (t.mast m).xl.faults = l ++ { f with st := .written } :: r ∧
          (t.mast m).xl.fqTail.toNat = (x.fqTail.toNat + 1) % 2 ^ x.fqSize.toNat % 2 ^ 12 ∧ (t.mast m).xl.fqSeq = x.fqSeq + 1 ∧
          (List.range 32).map (fun i => t.peekByte (a + i)) = toBytes 8 f.va.toNat ++
            toBytes 4 (f.e.val + 8 * f.kind.toNat + 64 * f.lvl.toNat + (if f.wr then 256 else 0) + 512 * f.plv.toNat + 2048 * f.side.toNat) ++
            toBytes 4 f.pc.toNat ++ toBytes 4 f.detail.toNat ++ toBytes 4 x.asid.toNat ++ toBytes 4 x.fqSeq.toNat ++ toBytes 4 0) ∧
      (f.st = .pending → x.fqEn = true → x.recBad s.nodeId = false → x.fqFull = true → ∃ t : State, exec (.faultRecordWrite m e) s = .next t ∧
        (t.mast m).xl.faults = l ++ { f with st := .held } :: r ∧ (t.mast m).xl.fqOvf = true ∧ (t.mast m).xl.fqTail = x.fqTail ∧ t.ram = s.ram) ∧
      (f.st = .held → x.fqEn = true → x.recBad s.nodeId = false → x.fqFull = true → exec (.faultRecordWrite m e) s = .next s) ∧
      (f.st = .written → f.kind ≠ 4 →
        (e = 0 → let u := s.modXl m fun y => { y with faults := l ++ r }
          (u.takeDeferrable m = none → exec (.faultRecordAck m e) s = .next (u.raise m
            (if f.kind = 1 then 11 else if f.kind = 2 then 12 else 9) f.slot.toNat (f.detail.getLsbD 0) (f.va.zeroExtend 64))) ∧
          ∀ t : State, u.takeDeferrable m = some t → exec (.faultRecordAck m e) s = .next t) ∧
        (e = 1 → ∃ u : State, exec (.faultRecordAck m e) s = .next (u.vecSettle m) ∧ (u.mast m).xl.faults = l ++ r ∧
          (u.mast m).vec = { (s.mast m).vec with failing := true, ready := [], tail := [], faultVa := f.va, faultPc := f.pc, faultWr := f.wr
                                                 faultKind := if f.kind = 3 then 4 else f.kind, faultElem := f.detail.setWidth 10 }))) ∧
    (∀ (f : XFault) (l r : List XFault), x.faults = l ++ f :: r → f.st = .held → (∀ q ∈ l, q.st ≠ .held) → ∃ t : State, exec (.fqTimeout m) s = .next t ∧
      (t.mast m).xl.fqTimeout = true ∧ (t.mast m).xl.faults = l ++ { f with st := .dead } :: r ∧
      t.flts = s.flts ++ [{ m := m, e := BitVec.ofNat 3 f.e.val, kind := 6 }]) ∧
    (s.engRequests m e = true → ∃ t : State, exec (.boundExceeded m e) s = .next t ∧ t.flts = s.flts ++ [{ m := m, e := BitVec.ofNat 3 e.val, kind := 7 }] ∧
      (t.mast m).core.ipend = (s.mast m).core.ipend ||| 0x100 ∧ t.ram = s.ram) ∧
    (∀ v : Word, ((s.mast m).core.halted = true → ∃ t : State, exec (.fqBaseWrite m v) s = .next t ∧ (t.mast m).xl.fqHead = 0 ∧ (t.mast m).xl.fqTail = 0 ∧
        (t.mast m).xl.fqSeq = 0 ∧ (t.mast m).xl.fqBase.toNat = v.toNat / 2 ^ 12 % 2 ^ 40 ∧
        (t.mast m).xl.fqSize.toNat = if 4 ≤ v.toNat % 16 ∧ v.toNat % 16 ≤ 12 then v.toNat % 16 else 4) ∧
      ((s.mast m).core.halted = false → exec (.fqBaseWrite m v) s = .next (s.modCore m fun c => { c with xwerr := true })) ∧
      ∃ t : State, exec (.fqHeadWrite m v) s = .next t ∧ (t.mast m).xl.fqHead = v.setWidth 12 ∧ (t.mast m).xl.fqTail = x.fqTail ∧ (t.mast m).core = (s.mast m).core)

/-- A write of XL_INV_CMD queues an invalidation of a legal scope while fewer than four wait, and sets OVERFLOW otherwise. INV_APPLY of the first removes every matching entry of every translation
buffer and walk cache, and no other entry, and its running walks start again from the top. INV_COMPLETE, once the uses that were under way are over, takes it out and sets
DONE (13 R353-R355). -/
def Obligations.InvalidationsComplete : Prop :=
  ∀ (s : State), s.pow.compOn = true →
    (∀ v : Word, s.invs.length < 4 → v.toNat % 4 ≠ 3 → v.toNat / 2 ^ 34 = 0 → exec (.xlInvCmd v) s = .next { s with
      invs := s.invs ++ [{ scope := v.setWidth 2, asid := BitVec.ofNat 12 (v.toNat / 4), npages := BitVec.ofNat 20 (v.toNat / 2 ^ 14), va := s.invVa
                           applied := false, uses := [], host := none }] }) ∧
    (∀ v : Word, (4 ≤ s.invs.length ∨ v.toNat % 4 = 3 ∨ v.toNat / 2 ^ 34 ≠ 0) → exec (.xlInvCmd v) s = .next { s with invOvf := true }) ∧
    (∀ (i : Inval) (rest : List Inval), s.invs = i :: rest →
      (i.applied = false → ∃ (t : State) (us : List InvUse), exec .invApply s = .next t ∧ t.invs = { i with applied := true, uses := us } :: rest ∧ t.ram = s.ram ∧
        (∀ m : MastId, let p := (t.mast m).xl; let q := (s.mast m).xl
          p.tlbCore = q.tlbCore.filter (fun e => !i.hitsTlb e) ∧ p.tlbVec = q.tlbVec.filter (fun e => !i.hitsTlb e) ∧
          p.tlbHal = q.tlbHal.filter (fun e => !i.hitsTlb e) ∧ p.faults = q.faults ∧ (t.mast m).core = (s.mast m).core) ∧
        (∀ d : DieId, (t.die d).wc = (s.die d).wc.filter (fun w => !i.hitsWc w) ∧
          (t.die d).walks = (s.die d).walks.map fun w => if w.running = true ∧ (i.scope = 0 ∨ w.asid = i.asid) then { w with fromTop := true } else w)) ∧
      (i.applied = true → i.uses.all (fun u => s.useOver u) = true → i.host = none → exec .invComplete s = .next { s with invs := rest, invDone := true }) ∧
      (i.applied = true → i.uses.all (fun u => s.useOver u) = false → exec .invComplete s = .next s))

/-! ## Homes, caches and memory (11 R276, R285-R290, 12 R305-R334) -/

/-- GETS, GETM and UPG of a cache that arrive in order at a home line that is there, not busy and not reserved for another, as 12 Table 12-3 gives them: without a contact the grant or the UpgAck leaves and the line waits for Cmp;
otherwise Inv goes to the other sharers and FwdS, FwdM or FwdR to the owner, and the line waits for their answers. The requester of a poisoned line becomes neither sharer nor owner, as its cache
keeps none (12 R331). At a busy line, or one reserved for another, the request is refused (12 R317, R321, R324). -/
def Obligations.HomeServesCacheRequests : Prop :=
  ∀ (s : State) (m : MastId) (line : Line) (l r : List Msg) (k : ReqKind), s.pow.compOn = true → s.msgs = l ++ .req m line k :: r →
    (∀ y ∈ l, (Msg.req m line k).sameRoute y = false) →
    let c : Instr := match k with | .getM => .getm m line | .upg => .upg m line | _ => .gets m line
    (k = .getM ∨ k = .upg ∨ ∃ wt, k = .getS wt) →
    (s.homeOpen (.core m) line = false → ∃ t : State, exec c s = .next t ∧ t.msgs = l ++ r ++ [.nack m line false] ∧ t.homes = s.homes) ∧
    (∀ h : HomeLine, s.home line = some h → s.homeOpen (.core m) line = true → (h.dir = .i → h.sharers = 0) →
      let holds := h.sharers.getLsbD m.val
      let all := sharerList h.sharers
      let others := all.filter (· ≠ m)
      let granted := fun (d : DirSt) (own : MastId) (sh : BitVec 128) (x : Msg) => ∃ (t : State) (b : Busy), exec c s = .next t ∧ t.msgs = l ++ r ++ [x] ∧
        t.home line = some { h with putting := false, dir := d, owner := own, sharers := sh, busy := some b } ∧ b.needCmp = some m ∧ t.masts = s.masts ∧ t.ram = s.ram
      let asked := fun (is : List MastId) (fw : Option Msg) => ∃ (t : State) (b : Busy), exec c s = .next t ∧
        t.msgs = l ++ r ++ is.map (fun n => Msg.inv n line) ++ fw.toList ∧ t.home line = some { h with putting := false, busy := some b } ∧ b.invs = is ∧
        b.fwd = fw.map (fun _ => h.owner) ∧ b.needCmp = none ∧ t.masts = s.masts ∧ t.ram = s.ram
      let data := fun (st : CacheSt) => Msg.grant m line st h.data h.poison
      let owned := if h.poison then granted .i h.owner 0 (data .m) else granted .em m 0 (data .m)
      match k with
      | .getS wt => match h.dir with
        | .i => if h.poison then granted .i h.owner 0 (data .s) else if wt then granted .s h.owner (sharerBit m) (data .s) else granted .em m 0 (data .e)
        | .s => granted .s h.owner (h.sharers ||| if h.poison then 0 else sharerBit m) (data .s)
        | .em => asked [] (some (.fwdS h.owner line))
        | .o => asked [] (some (.fwdR h.owner line))
      | .getM => match h.dir with
        | .i => owned
        | .s => if others = [] then owned else asked others none
        | .em => asked [] (some (.fwdM h.owner line))
        | .o => asked others (some (.fwdM h.owner line))
      | _ => match h.dir with
        | .i => owned
        | .s => if others = [] then (if holds then granted .em m 0 (.upgAck m line) else owned) else asked others none
        | .em => if m = h.owner then granted .em m 0 (.upgAck m line) else asked [] (some (.fwdM h.owner line))
        | .o =>
          if m = h.owner then (if all = [] then granted .em m 0 (.upgAck m line) else asked all none)
          else if holds then asked (h.owner :: others) none
          else asked all (some (.fwdM h.owner line)))

/-- RDU, WRU and ATOM at a home line that no cache holds and that takes the request: of an accepted member of the job they are answered with the bytes, an acknowledgement, or the old value of the word, and a write or an
atomic leaves its new bytes in the line; of an unaccepted one they are refused; RDU of a control core gives the bytes to its load. HOME_FILL brings the line from HBM to
a waiting request, poisoned where the code finds it uncorrectable: the cache that asked then gets it without becoming its owner (12 R317, R319, R329, R331, 15 R393). -/
def Obligations.HomeServesUncachedAccesses : Prop :=
  (∀ (s : State) (plane : Fin 2) (k : Fin 3) (node : BitVec 14) (jobid : BitVec 16) (line : Line) (off : Fin 128), s.pow.compOn = true →
     let q : Requester := .remote plane k node jobid
     (∀ h : HomeLine, s.accepts node jobid = true → placeOf (lineAddr line) = .hbm → s.home line = some h → s.homeOpen q line = true → h.dir = .i →
       (∀ len : Nat, off.val + len ≤ 128 → ∃ u : State, exec (.rdu q line off len) s = .next (u.reply plane k node jobid (.rduReply node (lineGet h.data off.val len) h.poison none)) ∧
         u.home line = some { h with putting := false } ∧ u.masts = s.masts ∧ u.ram = s.ram ∧ u.sent = s.sent) ∧
       (∀ (bs : List Byte) (crc : Option (BitVec 32)), off.val + bs.length ≤ 128 → ∃ u : State, exec (.wru q line off ⟨bs, crc⟩) s = .next (u.reply plane k node jobid (.wruAck node)) ∧
         u.home line = some { h with putting := false, data := linePut h.data off.val bs, dirty := true, sharers := 0, poison := h.poison && decide (bs.length < 128) } ∧
         u.masts = s.masts ∧ u.ram = s.ram ∧ u.sent = s.sent) ∧
       (∀ op : AtomReq, let n := if op.dbl then 8 else 4
         let old := ofBytes (lineGet h.data off.val n)
         h.poison = false → off.val + n ≤ 128 → ∃ u : State, exec (.atom q line off op) s = .next (u.reply plane k node jobid (.atomReply node old false)) ∧
           u.home line = some { h with putting := false, data := linePut h.data off.val (toBytes n (atomNew op n old)), dirty := true, sharers := 0 } ∧ u.masts = s.masts ∧
           u.ram = s.ram ∧ u.sent = s.sent)) ∧
     (s.accepts node jobid = false → let t := (s.flitsIn plane node jobid 1).refuse plane k node jobid
       (∀ len, exec (.rdu q line off len) s = .next t) ∧ (∀ bs crc, exec (.wru q line off ⟨bs, crc⟩) s = .next t) ∧ ∀ op, exec (.atom q line off op) s = .next t)) ∧
  (∀ (s : State) (m : MastId) (line : Line) (off : Fin 128) (len : Nat) (l r : List Msg) (h : HomeLine) (d : LoadPend) (p : LoadPart), s.pow.compOn = true →
     s.msgs = l ++ .rdu m line off.val len :: r → (∀ y ∈ l, (Msg.rdu m line off.val len).sameRoute y = false) → s.home line = some h → s.homeOpen (.core m) line = true → h.dir = .i →
     (s.mast m).core.loads = [d] → d.parts = [p] → p.src = .rdu → lineOf (localOf p.pa) = line → (s.mast m).core.wq = [] → h.poison = false →
     ∃ t : State, exec (.rdu (.core m) line off len) s = .next t ∧ t.msgs = l ++ r ∧
       (t.mast m).core.loads = [{ d with parts := [{ p with src := .ready (lineGet h.data off.val len) }] }] ∧ t.ram = s.ram) ∧
  (∀ (s : State) (m : MastId) (line : Line) (ecc : Ecc) (h : HomeLine) (b : Busy), s.pow.compOn = true → s.home line = some h → h.busy = some b → b.needFill = true → b.noRoom = false →
     h.dir = .i → b.req = .getS m false →
     let bad := s.ramPoison line || (!s.hbmWq.contains line && (decide (ecc = .uncorrectable) || s.bad fun (u : Cell) => decide (u = .hbm line)))
     ∃ (t : State) (c : Busy), exec (.homeFill line ecc) s = .next t ∧ t.msgs = s.msgs ++ [.grant m line (if bad then .s else .e) (ramLine s.ram line) bad] ∧
       t.home line = some (if bad then { h with data := ramLine s.ram line, poison := true, busy := some c }
         else { h with data := ramLine s.ram line, poison := false, dir := .em, owner := m, sharers := 0, busy := some c }) ∧ c.needCmp = some m ∧
       c.needFill = false ∧ t.ram = s.ram ∧ t.ramPoison line = bad)

/-- What a cache does with the messages of a home that arrive in order (01 R28, 12 Table 12-4): DATAS, DATAE and DATAM install the line, with the waiting stores of an owned grant merged into it, and answer Cmp; UPGACK makes a
held line M with the waiting stores in it, and answers Cmp; INV drops the line and answers InvAck, and stores that waited for room go on; FWDS, FWDM and FWDR answer FwdData and leave the line O or S, gone, or as it
was; PUTACK frees the writeback entry, for which the fifth line of a flush may wait; NACK lets the request wait, and NACK_RETRY sends it again (12 R307-R309, R316, R318, R323). -/
def Obligations.CachesAnswerHomes : Prop :=
  ∀ (s : State) (m : MastId) (line : Line) (l r : List Msg), s.pow.compOn = true →
    let dc := (s.mast m).dc
    let wq := (s.mast m).core.wq
    let took := fun (x : Msg) => s.msgs = l ++ x :: r ∧ ∀ y ∈ l, x.sameRoute y = false
    let put := fun (d : BitVec 1024) => wq.foldl (fun d e => linePut d (localOf e.pa % 128) e.data) d
    let mine := ∀ e ∈ wq, e.wp = 0 ∧ e.st ≠ .performed ∧ lineOf (localOf e.pa) = line
    (∀ (st : CacheSt) (d : BitVec 1024), took (.grant m line st d false) → (dc.drop line).lines.length < 48 →
      (st = .m → mine) → (st ≠ .m → wq = []) →
      let got := fun (c : Instr) (v : BitVec 1024) => ∃ t : State, exec c s = .next t ∧ t.msgs = l ++ r ++ [.cmp m line] ∧
        (t.mast m).dc.held line = some { addr := line, st := st, data := v } ∧ (t.mast m).dc.reqs = dc.reqs.filter (fun q => q.line ≠ line) ∧
        (t.mast m).core.wq = [] ∧ t.ram = s.ram ∧ t.homes = s.homes
      (st = .s → got (.datas m line) d) ∧ (st = .e → got (.datae m line) d) ∧ (st = .m → got (.datam m line) (put d))) ∧
    (∀ x : CacheLine, dc.held line = some x →
      (took (.upgAck m line) → mine → dc.lines.length ≤ 48 → dc.victims.length ≤ 8 → ∃ t : State, exec (.upgack m line) s = .next t ∧ t.msgs = l ++ r ++ [.cmp m line] ∧
        (t.mast m).dc.held line = some { x with st := .m, data := put x.data } ∧ (t.mast m).core.wq = []) ∧
      (∀ (k : Msg) (c : Instr) (st : CacheSt),
        ((k = .fwdS m line ∧ c = .fwds m line ∧ st = if x.st = .e then .s else .o) ∨ (k = .fwdR m line ∧ c = .fwdr m line ∧ st = x.st)) →
        took k → ∃ t : State, exec c s = .next t ∧ t.msgs = l ++ r ++ [.fwdData m line x.data (decide (x.st = .m ∨ x.st = .o)) false] ∧
          (t.mast m).dc.held line = some { x with st := st } ∧ (t.mast m).core = ((s.cacheRead m line 0 128).mast m).core) ∧
      (took (.fwdM m line) → ∃ t : State, exec (.fwdm m line) s = .next t ∧
        t.msgs = l ++ r ++ [.fwdData m line x.data (decide (x.st = .m ∨ x.st = .o)) false] ∧ (t.mast m).dc.held line = none)) ∧
    (took (.inv m line) → ∃ u : State, exec (.inv m line) s = .next (u.kickAll m) ∧ u.msgs = l ++ r ++ [.invAck m line] ∧
      (u.mast m).dc.held line = none ∧ (∀ k : Line, k ≠ line → (u.mast m).dc.held k = dc.held k) ∧ (u.mast m).core = (s.mast m).core) ∧
    (∀ (a b : List WbLine) (w : WbLine), took (.putAck m line) → dc.wb = a ++ w :: b → w.line.addr = line → (∀ v ∈ a, v.line.addr ≠ line) →
      ∃ u : State, u.msgs = l ++ r ∧ (u.mast m).dc.wb = a ++ b ∧ (u.mast m).dc.lines = dc.lines ∧
        (dc.wb.length ≤ 4 → exec (.putack m line) s = .next (u.kickAll m)) ∧
        (∀ v : WbLine, 4 < dc.wb.length → (a ++ b)[3]? = some v → exec (.putack m line) s = .next ((u.sendPut m v.line).kickAll m))) ∧
    (∀ (a b : List CacheReq) (q : CacheReq), dc.reqs = a ++ q :: b → q.line = line → (∀ v ∈ a, v.line ≠ line) →
      (took (.nack m line false) → ∃ t : State, exec (.nack m line) s = .next t ∧ t.msgs = l ++ r ∧
        (t.mast m).dc.reqs = a ++ { q with backoff := true } :: b) ∧
      (q.backoff = true → ∃ t : State, exec (.nackRetry m line) s = .next t ∧ t.msgs = s.msgs ++ [q.msg] ∧ (t.mast m).dc.reqs = a ++ { q with backoff := false } :: b))

/-- What a home does with answers and Puts: the last INVACK due to a GetM lets its grant leave, an earlier one is only counted; FWDDATA to a GetS brings the owner's data, the line then owned or
shared, and the grant leaves; the requester of a poisoned line becomes neither sharer nor owner (12 R331); CMP ends the busy state; PUTM, PUTO and PUTE of the owner at a line that is not busy give the line up, with their data where dirty, and are
acknowledged, as is a stale Put, which changes nothing; a Put at a busy line is refused, unless the home waits for that cache, and then held (12 R317, R318, R321, R325). -/
def Obligations.HomesTakeAnswersAndPuts : Prop :=
  ∀ (s : State) (m : MastId) (line : Line) (l r : List Msg) (h : HomeLine), s.pow.compOn = true → s.home line = some h →
    let took := fun (x : Msg) => s.msgs = l ++ x :: r ∧ ∀ y ∈ l, x.sameRoute y = false
    (∀ b : Busy, h.busy = some b →
      (took (.invAck m line) → m ∈ b.invs →
        ((b.invs.erase m ≠ [] ∨ b.fwd ≠ none) → ∃ t : State, exec (.invack m line) s = .next t ∧ t.msgs = l ++ r ∧
          t.home line = some { h with busy := some { b with invs := b.invs.erase m } }) ∧
        (∀ k : MastId, b.invs = [m] → b.fwd = none → b.req = .getM k → b.gotEvict = false → ∃ (t : State) (c : Busy), exec (.invack m line) s = .next t ∧
          t.msgs = l ++ r ++ [.grant k line .m h.data h.poison] ∧
          t.home line = some (if h.poison then { h with dir := .i, sharers := 0, busy := some c } else { h with dir := .em, owner := k, sharers := 0, busy := some c }) ∧
          c.needCmp = some k)) ∧
      (∀ (k : MastId) (wt dirty : Bool) (d : BitVec 1024), took (.fwdData m line d dirty false) → b.fwd = some m →
        b.invs = [] → b.req = .getS k wt → h.dir = .em → ∃ (t : State) (c : Busy), exec (.fwddata m line) s = .next t ∧
          t.msgs = l ++ r ++ [.grant k line .s d h.poison] ∧ c.needCmp = some k ∧
          t.home line = some { h with data := d, dir := if dirty then .o else .s
                                      sharers := (if h.poison then 0 else sharerBit k) ||| (if dirty then 0 else sharerBit h.owner), busy := some c }) ∧
      (took (.cmp m line) → b.needCmp = some m → ∃ t : State, exec (.cmpMessage m line) s = .next t ∧
        t.msgs = l ++ r ++ b.heldPuts.map (fun p => Msg.putAck p line) ∧ t.home line = some { h with busy := none })) ∧
    (∀ (st : CacheSt) (c : Instr) (d : BitVec 1024), ((st = .m ∧ c = .putm m line) ∨ (st = .o ∧ c = .puto m line) ∨ (st = .e ∧ c = .pute m line)) →
      took (.put m line st d) →
      (s.lineBusy line = false → h.owner = m → (h.dir = .em ∨ h.dir = .o) → ∃ t : State, exec c s = .next t ∧ t.msgs = l ++ r ++ [.putAck m line] ∧
        t.home line = some { h with data := if st = .e then h.data else d, dirty := h.dirty || decide (st ≠ .e)
                                    dir := if h.dir = .o ∧ h.sharers ≠ 0 then .s else .i, sharers := if h.dir = .o then h.sharers else 0, putting := true }) ∧
      (s.lineBusy line = false → (h.owner ≠ m ∨ h.dir = .i ∨ h.dir = .s) → ∃ t : State, exec c s = .next t ∧ t.msgs = l ++ r ++ [.putAck m line] ∧
        t.home line = some { h with putting := true }) ∧
      (∀ b : Busy, h.busy = some b → b.fwdTo = some m → ∃ t : State, exec c s = .next t ∧ t.msgs = l ++ r ∧
        t.home line = some { h with busy := some { b with heldPuts := b.heldPuts ++ [m] } }) ∧
      (s.lineBusy line = true → (∀ b : Busy, h.busy = some b → b.fwdTo ≠ some m) → ∃ t : State, exec c s = .next t ∧ t.msgs = l ++ r ++ [.nack m line true] ∧ t.homes = s.homes))

/-- HBM_WRITE_TURN takes at most eight lines of its pseudo-channel out of the write queue, oldest first, and leaves memory; HBM_REFRESH puts its bank into refresh; HBM_SCRUB_READ and CANVAS_SCRUB go on to
the next line, and an uncorrectable line is logged and marked bad, but for one that waits in the write queue; DC_CTL.FLUSH of a halted core empties the data cache and puts every owned or exclusive line into the writeback buffer, with a Put for as many as its four entries take, no directory entry
names its mast as a sharer any more (log entry 108), and it does nothing to a running core; SC_CTL.FLUSH writes every dirty line of its slice to HBM and leaves it clean, FLUSHING until SC_FLUSH_DONE (11 R276, R285-R290,
12 R332-R334). -/
def Obligations.MemoryIsMaintained : Prop :=
  ∀ (s : State), s.pow.compOn = true →
    (∀ (k : Fin 8) (pc : Fin 32), ∃ (t : State) (out : List Line), exec (.hbmWriteTurn k pc) s = .next t ∧
      out = (s.hbmWq.filter fun x => decide (stackOf (lineAddr x) = k) && decide (lineAddr x / 2 ^ 7 % 32 = pc.val)).take 8 ∧
      t.hbmWq = s.hbmWq.filter (fun x => !out.contains x) ∧ t.ram = s.ram ∧ t.masts = s.masts) ∧
    (∀ (k : Fin 8) (pc : Fin 32) (bank : BitVec 8), Sparse.wf s.hbmRef = true → ∃ t : State, exec (.hbmRefresh k pc bank) s = .next t ∧
      (∀ j : Nat, Sparse.get t.hbmRef j = if j = 32 * k.val + pc.val then bank else Sparse.get s.hbmRef j) ∧ t.ram = s.ram ∧ t.masts = s.masts) ∧
    (∀ (k : Fin 8) (ecc : Ecc), let st := fun (u : State) => (u.die (Fin.ofNat 2 (k.val / 4))).hbm.get (Fin.ofNat 4 k.val)
      let x := stackLine k (st s).pos
      (st s).scrub = true → stackOf (lineAddr x) = k → ∃ t : State, exec (.hbmScrubRead k ecc) s = .next t ∧ (st t).pos = (if (st s).pos + 1 < 201326592 then (st s).pos + 1 else 0) ∧
        let bad := ecc = .uncorrectable ∨ s.bad (fun (u : Cell) => decide (u = .hbm x)) = true
        ((s.hbmWq.contains x = true ∨ ¬ bad) → (st t).errValid = (st s).errValid ∧ t.hosts = s.hosts) ∧
        (s.hbmWq.contains x = false → bad → (st t).errValid = true ∧ (st t).errScrub = true ∧ (st t).errPa.toNat = lineAddr x ∧ t.ramPoison x = true)) ∧
    (∀ (m : MastId) (n : Fin 4) (ecc : Ecc), let c := (s.mast m).canv
      let a := 0x3000000000 + m.val * 0x4000000 + n.val * 0x1000000 + 128 * (c.pos.get n).toNat
      c.scrub = true → ∃ t : State, exec (.canvasScrub m n ecc) s = .next t ∧ ((t.mast m).canv.pos.get n) = c.pos.get n + 1 ∧ t.ram = s.ram ∧
        let sound := ∀ u ∈ s.upsets, wordsAt a 128 u.cell = false
        (sound → ecc = .clean → (t.mast m).canv.ce = c.ce ∧ (t.mast m).canv.ue = c.ue ∧ t.canvasBad = s.canvasBad) ∧
        (sound → ecc = .corrected → fld (t.mast m).canv.ce.toNat (15 * n.val) 15 = min (2 ^ 15 - 1) (fld c.ce.toNat (15 * n.val) 15 + 1) ∧ t.canvasBad = s.canvasBad) ∧
        (ecc = .uncorrectable → (t.mast m).canv.ue = true ∧ a / 8 ∈ t.canvasBad ∧ (sound → (t.mast m).canv.ce = c.ce))) ∧
    (∀ m : MastId, let c := (s.mast m).dc
      ((s.mast m).core.halted = true → ∃ t : State, exec (.dcCtlFlush m) s = .next t ∧ (t.mast m).dc.lines = [] ∧ (t.mast m).dc.victims = [] ∧
        let out := (c.lines ++ c.victims).filter fun (x : CacheLine) => decide (x.st = .m ∨ x.st = .o ∨ x.st = .e)
        t.msgs = s.msgs ++ (out.take (4 - c.wb.length)).map (fun x => Msg.put m x.addr x.st x.data) ∧
        (t.mast m).dc.wb = c.wb ++ out.map (fun x => ({ line := x, backoff := false } : WbLine)) ∧
        t.homes = s.homes.map (fun h => let v := h.sharers &&& ~~~sharerBit m
          { h with sharers := v, dir := if h.dir = .s ∧ v = 0 ∧ h.busy = none then .i else h.dir }) ∧ t.ram = s.ram) ∧
      ((s.mast m).core.halted = false → exec (.dcCtlFlush m) s = .next s)) ∧
    (∀ (d : DieId) (k : Fin 64), Sparse.wf s.ram = true → (s.homes.map fun h => h.addr).Nodup → (s.die d).scFlush.getLsbD k.val = false →
      let mine := fun (h : HomeLine) => decide (homeOf (lineAddr h.addr) = (d, k))
      ∃ t : State, exec (.scCtlFlush d k) s = .next t ∧ (∀ h ∈ s.homes, mine h = true → h.dirty = true → ramLine t.ram h.addr = h.data) ∧
        t.homes = s.homes.map (fun h => if mine h then { h with dirty := false } else h) ∧ (t.die d).scFlush.getLsbD k.val = true ∧ t.masts = s.masts) ∧
    (∀ (d : DieId) (k : Fin 64), ∃ t : State, exec (.scFlushDone d k) s = .next t ∧ (t.die d).scFlush.getLsbD k.val = false ∧
      (∀ j : Fin 64, j ≠ k → (t.die d).scFlush.getLsbD j.val = (s.die d).scFlush.getLsbD j.val) ∧ t.homes = s.homes ∧ t.ram = s.ram)

/-! ## Shroud links, faults of jobs and reduction channels (15, 17 R449, 18 R469) -/

/-- A Shroud port: SHROUD_FORWARD takes a passing message into the receive buffer of the port it came by and hands it to the port of its plane and of its first dimension that still differs,
where it leaves, as far as the port is up and has credits; it turns into a new dimension only the way the job's block gives; a message spends its flits, reserved credits first;
REPLAY_REQUEST of a flit dropped here counts it and asks for a replay, one of the peer sends again what the peer lost and counts a replay, and more than 32 in 250 ao take the port down;
LANE_LOCK_LOSS takes an up port down, opens its link-loss window and retrains it if it is enabled; TRAINING_COMPLETE with the right peer brings the port up at version 3, or at 2
where planes are on, and what waited for it leaves as far as it has credits, which are full after a full training; with a wrong peer, or after a retrain with another one, it stays down as
MISCABLE, at version 2 without planes as DOWNV2; with a round trip above 2,048 cc it trains on; PLUG_DETECT and SHR_PCTL.RETRAIN start training (15 R383-R392, R395, 17 R449).
Credits that have come back, the waits of 01 R25 and acknowledged flits are free values: the model's choice, log entries 103, 122 and 123. -/
def Obligations.LinksCarryAndTrain : Prop :=
  ∀ (s : State) (p : PortId), s.pow.compOn = true →
    let x := s.sport p
    let only := fun (t : State) => (∀ q : PortId, q ≠ p → t.sport q = s.sport q) ∧ t.ram = s.ram ∧ t.masts = s.masts
    let onlyRx := fun (t : State) => (∀ q : PortId, q ≠ p → ({ t.sport q with rx := (s.sport q).rx } : SPort) = s.sport q) ∧ t.ram = s.ram ∧ t.masts = s.masts
    (∀ (c : Credits) (k : Fin 3) (n : Nat), (c.take k n = none ↔ c.own.get k + c.shared < n) ∧ ∀ (d : Credits) (own sh : Nat), c.take k n = some (d, own, sh) →
      own = min n (c.own.get k) ∧ own + sh = n ∧ d.shared + sh = c.shared ∧ d.own.get k + own = c.own.get k ∧ ∀ j : Fin 3, j ≠ k → d.own.get j = c.own.get j) ∧
    (∀ (pin : PortId) (msg : LinkMsg), (s.sport pin).up = true → s.portUsed pin = true → pin.val / 8 = p.val / 8 → (∀ k < p.val % 8 / 2, coord s.nodeId k = coord msg.dst k) →
      coord s.nodeId (p.val % 8 / 2) ≠ coord msg.dst (p.val % 8 / 2) →
      ((pin.val % 8 / 2 < p.val % 8 / 2 ∧ p = exitPort s.shrCfg (s.replyBlock msg.jobid) s.nodeId msg.dst (pin.val / 8)) ∨ p.val = Nat.xor pin.val 1) →
      ((s.sport pin).rx.take msg.cls msg.flits = none → exec (.shroudForward pin p msg) s = .next s) ∧
      ∀ (rx : Credits) (own sh : Nat), (s.sport pin).rx.take msg.cls msg.flits = some (rx, own, sh) →
        let ws := x.waiting ++ [{ msg := .forward msg, cls := msg.cls, src := some (pin, own, sh) }]
        let r := sendable (Config.aged s.frees) ws.length (x.tx.refill s.frees) ws
        ∃ u : State, exec (.shroudForward pin p msg) s = .next (u.pump pin) ∧ onlyRx u ∧ (u.sport p).up = x.up ∧
          (x.up = true → u.sent = s.sent ++ r.2.1.map (fun w => (p, w.msg)) ∧ (u.sport p).waiting = r.2.2 ∧ (u.sport p).tx = r.1) ∧
          (x.up = false → u.sent = s.sent ∧ (u.sport p).waiting = ws ∧ (u.sport pin).rx = rx)) ∧
    (∀ r : ReplayReq, r.port = p → x.up = true → Sparse.wf s.snap.cnt = true →
      let f := fun (u : State) (lo : Nat) => (Sparse.get u.snap.cnt (0x10118 + 0x40 * p.val)).toNat / 2 ^ lo % 2 ^ 16
      let plus := fun (a n : Nat) => min (2 ^ 16 - 1) (a + n)
      ∃ t : State, exec (.replayRequest r) s = .next t ∧ onlyRx t ∧ f t 0 = plus (f s 0) r.corrected ∧
        (r.here = true → (p, OutMsg.replay) ∈ t.sent ∧ (t.sport p).up = true ∧ f t 16 = plus (f s 16) (b2n r.uncorr) ∧ f t 32 = f s 32 ∧ f t 48 = f s 48) ∧
        (r.here = false → t.sent = s.sent ∧ (t.sport p).kept = x.kept.drop (x.kept.length - r.lost) ∧ f t 32 = plus (f s 32) 1 ∧ f t 16 = f s 16 ∧
          (r.burst = false → (t.sport p).up = true ∧ f t 48 = f s 48) ∧
          (r.burst = true → (t.sport p).up = false ∧ (t.sport p).window = true ∧ f t 48 = plus (f s 48) 1 ∧ (x.en = true → (t.sport p).training = true)))) ∧
    (x.up = true → ∃ t : State, exec (.laneLockLoss p) s = .next t ∧ only t ∧ (t.sport p).up = false ∧ (t.sport p).window = true ∧ (t.sport p).ver = 0 ∧
      (x.en = true → (t.sport p).training = true ∧ (t.sport p).trainFull = false)) ∧
    (∀ r : TrainResult, x.training = true → s.portUsed p = true →
      let ver : BitVec 2 := if x.v2only = false ∧ r.peerV3 = true then 3 else 2
      let right := r.peerNode = s.wantedPeer p ∧ r.peerPort.toNat = Nat.xor p.val 1
      let other := x.trainFull = false ∧ x.peerKnown = true ∧ (x.linkNode ≠ r.peerNode ∨ x.linkPort ≠ r.peerPort ∨ x.peerVer ≠ ver)
      (right → ¬other → (ver = 3 ∨ s.shrCfg.planes = true) → 2048 < r.rtt → exec (.trainingComplete p r) s = .next (s.modSport p fun y =>
        { y with peerNode := r.peerNode, peerPort := r.peerPort })) ∧
      (right → ¬other → ver ≠ 3 → s.shrCfg.planes = false → exec (.trainingComplete p r) s = .next (s.modSport p fun y =>
        { y with peerNode := r.peerNode, peerPort := r.peerPort, training := false, downv2 := true })) ∧
      (r.rtt ≤ 2048 → right → ¬other → (ver = 3 ∨ s.shrCfg.planes = true) → ∃ t : State, exec (.trainingComplete p r) s = .next t ∧
        let q := sendable (Config.aged s.frees) x.waiting.length ((if x.trainFull then Credits.full else x.tx).refill s.frees) x.waiting
        onlyRx t ∧ (t.sport p).up = true ∧ (t.sport p).training = false ∧ (t.sport p).window = false ∧ (t.sport p).ver = ver ∧
        (t.sport p).linkNode = r.peerNode ∧ (t.sport p).linkPort = r.peerPort ∧ (t.sport p).peerVer = ver ∧
        (t.sport p).peerNode = r.peerNode ∧ (t.sport p).peerPort = r.peerPort ∧ (t.sport p).lat = r.lat ∧ (t.sport p).rtt.toNat = r.rtt ∧
        (t.sport p).tx = q.1 ∧ (t.sport p).waiting = q.2.2 ∧ t.sent = s.sent ++ q.2.1.map fun w => (p, w.msg)) ∧
      ((¬right ∨ other) → ∃ t : State, exec (.trainingComplete p r) s = .next t ∧ only t ∧ (t.sport p).up = x.up ∧ (t.sport p).training = false ∧
        (t.sport p).miscable = true ∧ (t.sport p).linkNode = x.linkNode ∧ t.sent = s.sent)) ∧
    (s.pow.aoOn = true → x.plugged = false → x.en = true → s.portUsed p = true → ∃ t : State, exec (.plugDetect p true) s = .next t ∧ only t ∧ (t.sport p).plugged = true ∧ (t.sport p).training = true ∧
      (t.sport p).trainFull = true) ∧
    (s.pow.aoOn = true → ∃ t : State, exec (.plugDetect p false) s = .next t ∧ only t ∧ (t.sport p).plugged = false ∧ (t.sport p).up = false ∧ (t.sport p).training = false ∧
      (t.sport p).window = (x.window || x.up)) ∧
    (x.en = true → s.portUsed p = true → ∃ t : State, exec (.shrPctlRetrain p) s = .next t ∧ only t ∧ (t.sport p).up = false ∧ (t.sport p).training = true ∧
      (t.sport p).trainFull = x.stuck ∧ (t.sport p).stuck = false ∧ t.sent = s.sent)

/-- Lost links and faults fence jobs: LINK_LOSS_WINDOW_EXPIRY of a port that is still down makes it LOST, tells every other port that is up, and fences with reason 1 and fault kind 9 every job
whose block holds both ends; LINK_LOST_NOTICE seen for the first time is passed on and fences with reason 2; FENCE_NOTICE fences the job of its JOBID with reason 3, with fault
kind 10 if it comes from a fault; JOB_FAULT_MESSAGE records the mast, the engine and the kind of the first fault, counts it, and fences with reason 4; SHR_JCTL.FENCE fences with
reason 4 and asks the engines of the job to stop. A job that is fenced already keeps its reason (15 R395-R398, 18 R469, R470). -/
def Obligations.LostLinksAndFaultsFenceJobs : Prop :=
  ∀ (s : State), s.pow.compOn = true →
    let fenced := fun (t : State) (j : JobSlot) (reason : BitVec 3) => (t.job j).fenced = true ∧ (t.job j).reason = (if (s.job j).fenced then (s.job j).reason else reason)
    let flt := fun (t : State) (j : JobSlot) (kind : BitVec 4) => (t.job j).fltValid = true ∧ ((s.job j).fltValid = false → (t.job j).fltKind = kind) ∧
      ((s.job j).fltValid = true → (t.job j).fltKind = (s.job j).fltKind) ∧ (t.job j).fltCnt.toNat = min (2 ^ 32 - 1) ((s.job j).fltCnt.toNat + 1)
    let cut := fun (t : State) (n1 n2 : BitVec 14) (reason : BitVec 3) => ∀ j : JobSlot,
      if (s.job j).valid = true ∧ inBlock s.shrCfg (s.job j).jblk n1 = true ∧ inBlock s.shrCfg (s.job j).jblk n2 = true then fenced t j reason ∧ flt t j 9
      else t.job j = s.job j
    let told := fun (p : PortId) (n1 n2 : BitVec 14) => ((fins 16).filter fun q => decide (q ≠ p) && (s.sport q).up && s.portUsed q).map fun q => (q, OutMsg.linkLost n1 n2)
    let quiet := ∀ q : PortId, (s.sport q).up = true → (s.sport q).waiting = []
    let passed := fun (t : State) (p : PortId) (n1 n2 : BitVec 14) => (∀ e ∈ told p n1 n2, e ∈ t.sent) ∧ (quiet → t.sent = s.sent ++ told p n1 n2)
    (∀ p : PortId, (s.sport p).window = true → (s.sport p).up = false → ∃ t : State, exec (.linkLossWindowExpiry p) s = .next t ∧
      (t.sport p).lost = true ∧ (t.sport p).stuck = true ∧ (t.sport p).window = false ∧ (t.sport p).training = false ∧ passed t p s.nodeId (s.sport p).linkNode ∧
      cut t s.nodeId (s.sport p).linkNode 1 ∧ t.ram = s.ram) ∧
    (∀ (p : PortId) (n1 n2 : BitVec 14), (s.sport p).up = true → (n1, n2) ∉ s.seenLost → (n2, n1) ∉ s.seenLost → ∃ t : State,
      exec (.linkLostNotice p n1 n2) s = .next t ∧ passed t p n1 n2 ∧ t.seenLost = s.seenLost ++ [(n1, n2)] ∧
      (∀ q : PortId, let y := s.sport q; ({ t.sport q with tx := y.tx, rx := y.rx, waiting := y.waiting, kept := y.kept } : SPort) = y) ∧
      cut t n1 n2 2 ∧ t.ram = s.ram) ∧
    (∀ (p : PortId) (n1 n2 : BitVec 14), ((s.sport p).up = false ∨ (n1, n2) ∈ s.seenLost ∨ (n2, n1) ∈ s.seenLost) → exec (.linkLostNotice p n1 n2) s = .next s) ∧
    (∀ (jobid : BitVec 16) (ff : Bool), ∃ t : State, exec (.fenceNotice jobid ff) s = .next t ∧ t.sent = s.sent ∧ t.ram = s.ram ∧ ∀ j : JobSlot,
      if (s.job j).valid = true ∧ (s.job j).jobid = jobid then fenced t j 3 ∧ (ff = true → flt t j 10) else t.job j = s.job j) ∧
    (∀ (m : MastId) (f : FltMsg) (l r : List FltMsg), s.flts = l ++ f :: r → f.m = m → (∀ g ∈ l, g.m ≠ m) → (s.mast m).jvalid = true →
      let j := (s.mast m).jslot
      (s.job j).valid = true → ∃ t : State, exec (.jobFaultMessage m) s = .next t ∧ t.flts = l ++ r ∧ fenced t j 4 ∧ flt t j f.kind ∧
        ((s.job j).fltValid = false → (t.job j).fltMast.toNat = m.val ∧ (t.job j).fltEng = f.e) ∧ t.ram = s.ram) ∧
    (∀ j : JobSlot, (s.job j).valid = true → (s.job j).fenced = false → ∃ t : State, exec (.shrJctlFence j) s = .next t ∧ fenced t j 4 ∧
      (∀ k : JobSlot, k ≠ j → t.job k = s.job k) ∧ t.ram = s.ram ∧
      (∀ m : MastId, if (s.mast m).jvalid = true ∧ (s.mast m).jslot = j then
          (t.mast m).core.ipend = (s.mast m).core.ipend ||| 0x200 ∧ (t.mast m).vec.stopReq = ((s.mast m).vec.stopReq || !(s.mast m).vec.stopped) ∧
          (t.mast m).sheet.stopReq = ((s.mast m).sheet.stopReq || !(s.mast m).sheet.stopped) ∧
          (t.mast m).hal.stopReq = ((s.mast m).hal.stopReq || !(s.mast m).hal.stopped) ∧
          (∀ a : ArrId, (t.array m a).stopReq = ((s.array m a).stopReq || !(s.array m a).stopped))
        else t.mast m = s.mast m) ∧
      (∀ n < blkMembers (s.job j).jblk, let node := blkNode s.shrCfg (s.job j).jblk n
        let q := exitPort s.shrCfg (s.job j).jblk s.nodeId node 0
        node ≠ s.nodeId → (q, OutMsg.fence (s.job j).jobid false node) ∈ t.sent ∨ ∃ w ∈ (t.sport q).waiting, w.msg = OutMsg.fence (s.job j).jobid false node))

/-- A reduction channel. ALLREDUCE_RUN, REDUCE_RUN and BROADCAST_RUN start a run of their mode once its slot holds P tokens: P leave, RUN counts, and every contributor stands at segment 0; a bad
descriptor faults with kind 1. CHANNEL_SEGMENT writes a segment of the run into a free place of its rank's staging area at STOFF, does nothing while none is free, and faults with kind 2 on other parameters.
CHANNEL_SEGMENT_SEND puts a rank's values into a free place of a partner on this module. CHANNEL_COMMAND loads a segment, combines it with a partner's out of the staging area (an
uncorrectable word there is fault 3), or writes the result at DOFF. CHANNEL_RUN_COMPLETE, once no segment of the run waits for a port, ends the run and posts DONE to each contributor. RC_CTL.DISCARD abandons it (15 R400-R407).
Which free place a segment goes to is a free value: the model's choice, log entry 124. -/
def Obligations.ChannelsReduce : Prop :=
  ∀ (s : State) (c : ChanId), s.pow.compOn = true →
    let x := s.chan c
    let d := x.desc
    let ms := cdMasts d
    let jb := s.job x.jslot
    (∀ (mode : Nat) (i : Instr), ((mode = 0 ∧ i = .allreduceRun c) ∨ (mode = 1 ∧ i = .reduceRun c) ∨ (mode = 2 ∧ i = .broadcastRun c)) →
      x.st = 0 → cdMode d = mode → ms ≠ [] → ms.length ≤ x.count.toNat → jb.valid = true → jb.fenced = false →
      (s.chanBad d = true → ∃ t : State, exec i s = .next t ∧ (t.chan c).st = 2 ∧ (t.chan c).fault = 1 ∧ (t.job x.jslot).fenced = true) ∧
      (s.chanBad d = false → (cdDoneEn d = true → ∀ m ∈ ms, badToken (cdDone d m) = false) → x.early = [] → ∃ t : State, exec i s = .next t ∧
        (t.chan c).st = 1 ∧ (t.chan c).run = x.run + 1 ∧ (t.chan c).count.toNat = x.count.toNat - ms.length ∧ t.ram = s.ram ∧ t.posts = s.posts ∧
        (t.chan c).ranks = ms.zipIdx.map fun q => let g := s.chanRank c * ms.length + q.2
          { m := q.1, g := g, seg := 0, lvl := 0, phase := if mode = 2 then (if g = 0 then .write else .waitDown) else .load, val := [] })) ∧
    (∀ e : SegMsg, s.accepts e.node e.jobid = false → ∃ t : State, exec (.channelSegment c e) s = .next t ∧ t.chan c = x ∧ t.ram = s.ram) ∧
    (∀ e : SegMsg, s.accepts e.node e.jobid = true → e.jobid = jb.jobid → x.st = 1 → e.run = x.run →
      (∀ (r : Rank) (a b : List Rank), e.key = chanKey d → x.ranks = a ++ r :: b → r.g = e.dst → (∀ q ∈ a, q.g ≠ e.dst) → x.early = [] →
        (x.staged.filter fun q => decide (q.dst = e.dst)).length < 4 → ∃ (t : State) (k : Fin 4), exec (.channelSegment c e) s = .next t ∧
          (∀ q ∈ x.staged, q.dst = e.dst → q.place ≠ k) ∧ t.ram = Mem.put s.ram (sliceAddr r.m (cdStoff d + 0x8000 * k.val)) e.data ∧
          t.chan c = { x with staged := x.staged ++ [{ dst := e.dst, src := e.src, seg := e.seg, place := k, len := e.data.length }] }) ∧
      (e.key = chanKey d → (∀ k : Fin 4, ∃ q ∈ x.staged, q.dst = e.dst ∧ q.place = k) → exec (.channelSegment c e) s = .next s) ∧
      (e.key ≠ chanKey d → ∃ t : State, exec (.channelSegment c e) s = .next t ∧ (t.chan c).st = 2 ∧ (t.chan c).fault = 2)) ∧
    (∀ (m : MastId) (r : Rank) (a b : List Rank), x.st = 1 → x.ranks = a ++ r :: b → r.m = m → (∀ q ∈ a, q.m ≠ m) →
      let up := r.g - 2 ^ r.lvl
      let src := segPlace d (cdSoff d) r.seg
      let w := (cdFmt d).width
      (∀ (u : Rank) (k l : List Rank), r.phase = .sendUp → cdMode d = 0 → up / ms.length = s.chanRank c → x.ranks = k ++ u :: l → u.g = up → (∀ q ∈ k, q.g ≠ up) →
        x.early = [] → (x.staged.filter fun q => decide (q.dst = up)).length < 4 →
        let bs := r.val.flatMap fun v => toBytes ((cdCf d).width / 8) v
        ∃ (t : State) (j : Fin 4), exec (.channelSegmentSend c m) s = .next t ∧ (t.chan c).ranks = a ++ { r with phase := .waitDown, val := [] } :: b ∧
          (∀ q ∈ x.staged, q.dst = up → q.place ≠ j) ∧ t.ram = Mem.put s.ram (sliceAddr u.m (cdStoff d + 0x8000 * j.val)) bs ∧
          (t.chan c).staged = x.staged ++ [{ dst := up, src := r.g, seg := r.seg, place := j, len := bs.length }]) ∧
      (r.phase = .load → s.badWords (sliceAddr m src.1) src.2 = false → ∃ (t : State) (q : Rank), exec (.channelCommand c m) s = .next t ∧
        (t.chan c).ranks = a ++ q :: b ∧ q.m = m ∧ q.seg = r.seg ∧ t.ram = s.ram ∧
        q.val = (List.range (cdSegLen d r.seg)).map fun i => (toCf d (Mem.load s.ram (sliceAddr m src.1) src.2 / 2 ^ (w * i) % 2 ^ w)).1) ∧
      (∀ (u : Staged) (k l : List Staged), r.phase = .up → x.staged = k ++ u :: l → u.dst = r.g → u.src = r.g + 2 ^ r.lvl → u.seg = r.seg →
        (∀ v ∈ k, v.dst ≠ r.g) →
        let sa := sliceAddr m (cdStoff d + 0x8000 * u.place.val)
        (s.badWords sa u.len = true → ∃ t : State, exec (.channelCommand c m) s = .next t ∧ (t.chan c).st = 2 ∧ (t.chan c).fault = 3 ∧ t.ram = s.ram) ∧
        (s.badWords sa u.len = false → ∃ (t : State) (q : Rank), exec (.channelCommand c m) s = .next t ∧ (t.chan c).staged = k ++ l ∧
          (t.chan c).ranks = a ++ q :: b ∧ t.ram = s.ram ∧
          q.val = (r.val.zip (cfVals (cdCf d) (cdSegLen d r.seg) (Mem.bytes s.ram sa u.len))).map fun p => (combine d p.1 p.2).1)) ∧
      (r.phase = .write → cdMode d ≠ 2 → ∃ (t : State) (q : Rank), exec (.channelCommand c m) s = .next t ∧ (t.chan c).ranks = a ++ q :: b ∧
        t.ram = Mem.put s.ram (sliceAddr m (segPlace d (cdDoff d) r.seg).1) (packVals w (r.val.map fun v => (toEf d v).1)) ∧
        (cdMode d = 1 → cdSegs d ≤ r.seg + 1 → q.phase = .done))) ∧
    (∀ (p : PortId) (w : Waiting) (e : SegMsg) (n : BitVec 14), w ∈ (s.sport p).waiting → w.msg = .segment c e n → exec (.channelRunComplete c) s = .next s) ∧
    (x.st = 1 → (∀ r ∈ x.ranks, r.phase = .done) → (∀ p : PortId, ∀ w ∈ (s.sport p).waiting, ∀ (e : SegMsg) (n : BitVec 14), w.msg ≠ .segment c e n) →
      ∃ t : State, exec (.channelRunComplete c) s = .next t ∧ (t.chan c).st = 0 ∧ (t.chan c).count = x.count ∧ t.ram = s.ram ∧
      t.posts = s.posts ++ (if cdDoneEn d then ms.map fun m => { addr := cdDone d m, src := .chan c, seq := 0 } else [])) ∧
    exec (.rcCtlDiscard c) s = .next (s.modChan c fun y => { y with st := 0, fault := 0, count := 0, run := 0, ranks := [], staged := [], early := [] })

/-! ## Host ports (16 R410-R430, 18 R459, R467) -/

/-- The host commands that act on queues, once their turn in their queue has come: NOP, CREATE_SQ, CREATE_CQ, DELETE_SQ, DELETE_CQ and GRANT_QIDS have their effect and status 0; a QID of another
function gives status 4, one that exists 6; a virtual function that has negotiated version 2, or is granted by a physical one that has, owns at most 65,536 QIDs (16 R428); DELETE_SQ waits for the commands of its queue; INVALIDATE queues its invalidation and waits for it. SQ_FETCH of the queue whose turn it is
takes the entry at its head; COMMAND_COMPLETION writes the 16-byte completion at the tail of its queue and advances the tail (16 R412-R420). -/
def Obligations.QueueCommandsComplete : Prop :=
  (∀ (s : State) (c : HCmd) (l r : List HCmd), s.pow.compOn = true → s.hosts.cmds = l ++ c :: r → c.status = none → (∀ d ∈ l ++ r, d.ref ≠ c.ref) →
     (∀ d ∈ l ++ r, d.ref.fn = c.ref.fn → d.ref.q = c.ref.q → d.seq < c.seq → d.started = true ∧ c.fence = false) →
     let h := s.hosts
     let f := c.ref.fn
     let op := eb c.entry 1 1
     let done := fun (h : Hosts) (st : Option (BitVec 8)) =>
       ({ s with hosts := { h with cmds := l ++ { c with started := true, status := st } :: r } } : State)
     let qid := c.arg 0 4
     let num := c.arg 0 2
     (op = 0 → exec (.nop c.ref) s = .next (done h (some 0))) ∧
     (op = 0x40 → qid < 2 ^ 20 → h.ownerOf qid ≠ f → exec (.createSq c.ref) s = .next (done h (some 4))) ∧
     (op = 0x40 → qid < 2 ^ 20 → h.ownerOf qid = f → ringOk (c.arg 4 8) (c.arg 12 1) (entryLen (s.hfn f).major) = true →
       ((s.hfn f).cqs.any fun k => decide (k.num.toNat = c.arg 13 2)) = true →
       ((∃ q ∈ h.sqs, q.qid.toNat = qid) → exec (.createSq c.ref) s = .next (done h (some 6))) ∧
       ((∀ q ∈ h.sqs, q.qid.toNat ≠ qid) → exec (.createSq c.ref) s = .next (done { h with
         sqs := h.sqs ++ [{ qid := BitVec.ofNat 20 qid, fn := f, base := BitVec.ofNat 64 (c.arg 4 8), sz := 2 ^ c.arg 12 1
                            cq := BitVec.ofNat 12 (c.arg 13 2), head := 0, tail := 0, stopped := false }] } (some 0)))) ∧
     (op = 0x42 → num < 4096 → ringOk (c.arg 2 8) (c.arg 10 1) 16 = true → (∀ k ∈ (s.hfn f).cqs, k.num.toNat ≠ num) →
       exec (.createCq c.ref) s = .next ((done h (some 0)).modFn f fun x =>
         { x with cqs := x.cqs ++ [Cq.fresh (BitVec.ofNat 12 num) (BitVec.ofNat 64 (c.arg 2 8)) (2 ^ c.arg 10 1)] })) ∧
     (op = 0x41 → qid < 2 ^ 20 → h.ownerOf qid = f → (∃ q ∈ h.sqs, q.qid.toNat = qid) →
       ((∀ d ∈ h.cmds, d.ref.q.map (·.toNat) ≠ some qid) → ∃ t : State, exec (.deleteSq c.ref) s = .next t ∧
         t.hosts.sqs = h.sqs.filter (fun q => decide (q.qid.toNat ≠ qid)) ∧ t.hosts.cmds = l ++ { c with started := true, status := some 0 } :: r) ∧
       ((∃ d ∈ h.cmds, d.ref.q.map (·.toNat) = some qid) → exec (.deleteSq c.ref) s = .next (done h none))) ∧
     (op = 0x43 → (∃ k ∈ (s.hfn f).cqs, k.num.toNat = num) →
       ((∃ q ∈ h.sqs, q.fn = f ∧ q.cq.toNat = num) → exec (.deleteCq c.ref) s = .next (done h (some 6))) ∧
       ((∀ q ∈ h.sqs, q.fn = f → q.cq.toNat ≠ num) → ∃ t : State, exec (.deleteCq c.ref) s = .next t ∧
         (t.hfn f).cqs = (s.hfn f).cqs.filter (fun k => decide (k.num.toNat ≠ num)) ∧ t.hosts.cmds = l ++ { c with started := true, status := some 0 } :: r)) ∧
     (op = 0x44 → let n := c.arg 4 4
       let vf := c.arg 8 1
       let vfn : FnId := ⟨f.port, Fin.ofNat 17 vf⟩
       n ≠ 0 → 0 < vf → vf ≤ 16 → qid / 2 ^ 19 = f.port.val → (qid + n - 1) / 2 ^ 19 = f.port.val →
       (∀ g ∈ h.grants, g.first + g.count ≤ qid ∨ qid + n ≤ g.first) →
       (∀ q ∈ h.sqs, q.qid.toNat < qid ∨ qid + n ≤ q.qid.toNat ∨ h.ownerOf q.qid.toNat = ⟨f.port, 0⟩) →
       let more := 65536 < ((h.grants.filter fun g => decide (g.fn.port = f.port ∧ g.fn.fn.val = vf)).map (·.count)).sum + n
       ((c.major = 2 ∨ (s.hfn vfn).major = 2) → more → exec (.grantQids c.ref) s = .next (done h (some 3))) ∧
       (((c.major ≠ 2 ∧ (s.hfn vfn).major ≠ 2) ∨ ¬more) →
       exec (.grantQids c.ref) s = .next (done { h with grants := h.grants ++ [{ first := qid, count := n, fn := vfn }] } (some 0)))) ∧
     (op = 4 → let v := c.arg 0 8
       v % 4 ≠ 3 → v / 2 ^ 34 = 0 → s.invs.length < 4 → (∀ i ∈ s.invs, i.host ≠ some c.ref) →
       exec (.invalidate c.ref) s = .next { done h none with
         invs := s.invs ++ [{ scope := BitVec.ofNat 2 v, asid := BitVec.ofNat 12 (v / 4), npages := BitVec.ofNat 20 (v / 2 ^ 14)
                              va := BitVec.ofNat 40 (c.arg 8 8 / 2 ^ 16), applied := false, uses := [], host := some c.ref }] })) ∧
  (∀ (s : State) (f : FnId) (entry : List Byte), s.pow.compOn = true → (s.hfn f).ver = 0x301 → s.fetchNext f.port = some (f, 0) →
     let e := entry.take 64
     ∃ (t : State) (c : HCmd), exec (.sqFetch f none entry) s = .next t ∧ t.hosts.cmds = s.hosts.cmds ++ [c] ∧ c.ref = { fn := f, q := none, cid := BitVec.ofNat 32 (eb e 4 4) } ∧
       c.entry = e ∧ c.ver = 0x301 ∧ c.step = 0 ∧ c.pas = [] ∧ c.sqHead = ((s.hfn f).asqHead + 1) % 2 ^ (s.hfn f).aqSz.toNat ∧ (t.hfn f).asqHead = c.sqHead ∧ (t.hfn f).asqTail = (s.hfn f).asqTail ∧
       c.fence = decide (eb e 2 2 % 2 = 1) ∧ c.seq = s.hosts.seq ∧ c.silent = false ∧ (eb e 0 1 ≠ 3 → c.status = some 1) ∧
       (eb e 0 1 = 3 → eb e 1 1 = 0 → c.status = none ∧ c.started = false) ∧ t.ram = s.ram) ∧
  (∀ (s : State) (c : HCmd) (l r : List HCmd) (st : BitVec 8), s.pow.compOn = true → s.hosts.cmds = l ++ c :: r → (∀ d ∈ l, d.ref ≠ c.ref) → c.status = some st →
     c.silent = false → c.ref.q = none → s.hosts.dbs = [] →
     let f := c.ref.fn
     let x := s.hfn f
     let n := 2 ^ x.acqSz.toNat
     x.acq.hold = [] → (x.acq.tail + 1) % n ≠ x.acq.head → ((x.acq.tail + 1) % n + 1) % n ≠ x.acq.head →
     ∃ t : State, exec (.commandCompletion c.ref) s = .next t ∧ t.hosts.cmds = l ++ r ∧ (t.hfn f).acq.tail = (x.acq.tail + 1) % n ∧
       (t.hfn f).acq.head = x.acq.head ∧ (t.hfn f).acq.phase = (if (x.acq.tail + 1) % n = 0 then !x.acq.phase else x.acq.phase) ∧
       (t.hport f.port).mem = Mem.put (s.hport f.port).mem ((BitVec.ofNat 64 (x.acqBase.toNat * 4096)).toNat + 16 * x.acq.tail)
         (toBytes 4 c.ref.cid.toNat ++ toBytes 3 0 ++ toBytes 1 st.toNat ++ toBytes 2 c.sqHead ++ toBytes 5 0 ++ [if x.acq.phase then 1 else 0]))

/-- The host commands of a job, once their turn has come. POST sends its token; COPY_IN and COPY_OUT of one page of canvas move the bytes, and those of a page of another module wait for its
answers; a failed access of host memory gives COPY_OUT status 9. JOB LOAD of halted cores flushes their caches and queues the invalidation of the address space, and once both are done puts the
image into every IMEM and sets ROOT, ASID and the slot; JOB START starts every core at START_PC at level S with IM set; JOB FENCE fences the job; JOB END of a fenced job whose cores have halted and
whose engines have stopped discards their queues and flushes and invalidates, and then frees the masts and the slot. A command for a job that the function did not load has status 4 (16 R419, 18
R467). That a second COPY_IN stands for the answers of other modules, and whether one refused, are the model's choices: log entries 116 and 118. -/
def Obligations.JobCommandsComplete : Prop :=
  ∀ (s : State) (c : HCmd) (l r : List HCmd), s.pow.compOn = true → s.hosts.cmds = l ++ c :: r → c.status = none → (∀ d ∈ l ++ r, d.ref ≠ c.ref) →
    (∀ d ∈ l ++ r, d.ref.fn = c.ref.fn → d.ref.q = c.ref.q → d.seq < c.seq → d.started = true ∧ c.fence = false) →
    let op := eb c.entry 1 1
    let u : State := { s with hosts := { s.hosts with cmds := l ++ { c with started := true } :: r } }
    let ended := fun (t : State) (st : Option (BitVec 8)) => t.hosts.cmds = l ++ { c with started := true, status := st } :: r
    let clearing := fun (t : State) (asid : BitVec 12) => t.hosts.cmds = l ++ { c with started := true, step := 1 } :: r ∧
      t.invs = s.invs ++ [{ scope := 1, asid := asid, npages := 0, va := 0, applied := false, uses := [], host := some c.ref }]
    (s.cmdJob c = none → (op = 3 → ∃ t, exec (.postCmd c.ref) s = .next t ∧ ended t (some 4) ∧ t.posts = s.posts) ∧
      (op = 1 → ∀ bs, ∃ t, exec (.copyIn c.ref bs) s = .next t ∧ ended t (some 4) ∧ t.ram = s.ram) ∧
      (op = 5 → c.arg 0 1 = 1 → ∃ t, exec (.jobStart c.ref) s = .next t ∧ ended t (some 4) ∧ t.masts = s.masts)) ∧
    (∀ j : JobSlot, s.cmdJob c = some j →
      let ms := maskMasts (s.job j).masts
      (op = 3 → let a : BitVec 32 := BitVec.ofNat 32 (c.arg 0 4)
        badToken a = false → tokenNode a = s.nodeId → (slotOf a).bind s.slotJob = some j → ∃ t, exec (.postCmd c.ref) s = .next t ∧ ended t none ∧
          t.posts = s.posts ++ [{ addr := a, src := .host c.ref.fn.port, seq := c.seq }] ∧ t.ram = s.ram) ∧
      (∀ (x : Xl) (bs : List Byte) (pa : BitVec 52), s.jobXl j = some x → c.step = 0 →
        let a := c.copyArgs false
        op = 1 → a.len ≠ 0 → a.len ≤ c.copyMax → a.va < 2 ^ 56 → bs.length = a.len →
        let q := u.copyXlate c.ref.fn.port j x true (copyPieces a.va a.len)
        q.2 = some (some [(pa, a.len)]) →
        (s.isOwn pa = true → 0x3000000000 ≤ localOf pa → localOf pa + a.len ≤ 0x3200000000 → ∃ t, exec (.copyIn c.ref bs) s = .next t ∧ ended t (some 0) ∧
          t.ram = Mem.put q.1.ram (localOf pa) bs) ∧
        (s.isOwn pa = false → ∃ t, exec (.copyIn c.ref bs) s = .next t ∧
          t.hosts.cmds = l ++ { c with started := true, step := 1, pas := [(pa, a.len)] } :: r ∧ t.ram = q.1.ram)) ∧
      (∀ bs : List Byte, op = 1 → c.step = 1 → Config.postRefused s.frees = false → ∃ t, exec (.copyIn c.ref bs) s = .next t ∧ ended t (some 0) ∧ t.ram = s.ram) ∧
      (∀ (x : Xl) (pa : BitVec 52) (w : CopyOutRun), s.jobXl j = some x → c.step = 0 → w.ref = c.ref →
        let a := c.copyArgs true
        op = 2 → a.len ≠ 0 → a.len ≤ c.copyMax → a.va < 2 ^ 56 → s.isOwn pa = true → 0x3000000000 ≤ localOf pa → localOf pa + a.len ≤ 0x3200000000 →
        let q := u.copyXlate c.ref.fn.port j x false (copyPieces a.va a.len)
        q.2 = some (some [(pa, a.len)]) → q.1.badWords (localOf pa) a.len = false → ∃ t, exec (.copyOut w) s = .next t ∧
          ended t (some (if w.hostOk then 0 else 9)) ∧ t.ram = q.1.ram ∧
          (w.hostOk = true → (t.hport c.ref.fn.port).mem = Mem.put (s.hport c.ref.fn.port).mem a.host (Mem.bytes q.1.ram (localOf pa) a.len))) ∧
      (op = 5 → c.arg 0 1 = 1 → (s.job j).fenced = false → (s.job j).loaded = true → (s.job j).started = false → ∃ t, exec (.jobStart c.ref) s = .next t ∧
        ended t none ∧ (t.job j).started = true ∧ t.ram = s.ram ∧
        (∀ m : MastId, if m ∈ ms then (t.mast m).core = { (s.mast m).core with
            halted := false, stopReq := false, npc := (s.job j).startPc.setWidth 18, level := 1, im := true, bank := 1, opening := [], waiting := none }
          else t.mast m = s.mast m)) ∧
      (op = 5 → c.arg 0 1 = 2 → exec (.jobFence c.ref) s = .next (u.fenceWrite j false)) ∧
      (op = 5 → c.arg 0 1 = 3 → (s.job j).fenced = true → (∀ m ∈ ms, (s.mast m).core.halted = true ∧ (s.mast m).enginesStopped = true) →
        (c.step = 0 → s.invs.length < 4 → ∃ t, exec (.jobEnd c.ref) s = .next t ∧ clearing t (s.job j).asid ∧ (t.job j).valid = true ∧
          ∀ m ∈ ms, (t.mast m).vec.queue = [] ∧ (t.mast m).sheet.queue = [] ∧ (t.mast m).hal.queue = [] ∧ (t.mast m).dc.lines = []) ∧
        (c.step = 2 → (∀ m ∈ ms, (s.mast m).dc.flushing = false) → ∃ t, exec (.jobEnd c.ref) s = .next t ∧ ended t (some 0) ∧ (t.job j).valid = false ∧
          (∀ m ∈ ms, (t.mast m).jvalid = false) ∧ t.ram = s.ram) ∧
        ((c.step = 1 ∨ (c.step = 2 ∧ ∃ m ∈ ms, (s.mast m).dc.flushing = true)) → exec (.jobEnd c.ref) s = .next u))) ∧
    (∀ (image : List Byte), c.ver = 0x301 →
      let a := loadArgs (c.entry.drop 16)
      let ms := maskMasts a.masts
      op = 5 → c.arg 0 1 = 0 → eb (c.entry.drop 16) 1 1 ≤ 7 → a.imlen ≠ 0 → a.imlen ≤ 112 → a.root.toNat / 2 ^ 28 = s.nodeId.toNat →
      a.root.toNat * 2 ^ 10 % 2 ^ 38 < 0x3000000000 → (s.job a.jslot).valid = false → (∀ m ∈ ms, (s.mast m).jvalid = false ∧ (s.mast m).core.halted = true) →
      (c.step = 0 → s.invs.length < 4 → ∃ t, exec (.jobLoad c.ref image []) s = .next t ∧ clearing t a.asid ∧ (t.job a.jslot).valid = false ∧
        ∀ m ∈ ms, (t.mast m).dc.lines = [] ∧ (t.mast m).core.imem = (s.mast m).core.imem) ∧
      (c.step = 2 → (∀ m ∈ ms, (s.mast m).dc.flushing = false) → image.length = 1024 * a.imlen → ∃ t, exec (.jobLoad c.ref image []) s = .next t ∧ ended t (some 0) ∧
        (∀ m ∈ ms, let x := t.mast m
          x.core.imem = Mem.put (s.mast m).core.imem 0 image ∧ x.xl.root = a.root ∧ x.xl.asid = a.asid ∧ x.jslot = a.jslot ∧ x.jvalid = true ∧
          x.tok.count = [] ∧ x.core.halted = true ∧ x.core.ipend = 0 ∧ x.bankMem = [] ∧ x.vec.queue = []) ∧
        (∀ m : MastId, m ∉ ms → (t.mast m).core = (s.mast m).core ∧ (t.mast m).jvalid = (s.mast m).jvalid) ∧
        (t.job a.jslot).valid = true ∧ (t.job a.jslot).jobid.toNat = eb c.entry 8 2 ∧ (t.job a.jslot).owner = some c.ref.fn ∧ (t.job a.jslot).fenced = false ∧
        (t.job a.jslot).masts = a.masts ∧ (t.job a.jslot).startPc = a.startPc ∧ (t.job a.jslot).jblk = a.jblk ∧ t.ram = s.ram))

/-- A host port: HOST_VER takes an offered version once, and otherwise sets VER_ERR; a doorbell of an owned queue sets its tail, a bad tail stops the queue, and a doorbell of another's is counted;
CQ_DOORBELL and HOST_EVT_CTL set a head; the HSIG pin pulses on a requested attention, then is low, and leaves busy once no cause is left; a function-level reset returns the function, and
every other reset all functions of the port, to their reset values, fences their jobs and makes the port busy; PORT_READY ends that (16 R414, R421-R428, 18 R459). -/
def Obligations.HostPortsSignalAndReset : Prop :=
  ∀ (s : State) (f : FnId), s.pow.compOn = true → s.pow.aoOn = true →
    let h := f.port
    let x := s.hfn f
    let p := s.hport h
    (∀ v : BitVec 16, p.linkUp = true →
      let ok := x.ver = 0 ∧ (v = 0x300 ∨ v = 0x301 ∨ v = 0x201 ∨ v = 0x202 ∨ v = 0x203 ∨ (v = 0x200 ∧ f.fn = 0))
      (ok → exec (.hostVerReq f v) s = .next (s.modFn f fun y => { y with ver := v })) ∧
      (¬ok → exec (.hostVerReq f v) s = .next (s.modFn f fun y => { y with verErr := true }))) ∧
    (∀ v : Word, s.accepting f = true → s.hosts.dbs = [] →
      let qid : BitVec 20 := v.setWidth 20
      let new := v.toNat / 2 ^ 20 % 2 ^ 16
      (s.hosts.ownerOf qid.toNat ≠ f → exec (.doorbell f v) s = .next (s.modFn f fun y => { y with dbOwn := BitVec.ofNat 16 (min 65535 (y.dbOwn.toNat + 1)) })) ∧
      (∀ (q : Sq) (a b : List Sq), s.hosts.ownerOf qid.toNat = f → s.hosts.sqs = a ++ q :: b → q.qid = qid → (∀ k ∈ a, k.qid ≠ qid) → q.stopped = false →
        (f, false, qid.toNat) ∈ s.hosts.resident →
        (tailBad q.sz q.head q.tail new = false → ∃ t, exec (.doorbell f v) s = .next t ∧ t.hosts.sqs = a ++ { q with tail := new } :: b ∧
          t.hosts.cmds = s.hosts.cmds ∧ t.ram = s.ram) ∧
        (tailBad q.sz q.head q.tail new = true → ∃ t, exec (.doorbell f v) s = .next t ∧ t.hosts.sqs = a ++ { q with stopped := true } :: b ∧
          (∀ c ∈ t.hosts.cmds, c.ref.fn = f → c.ref.q = some qid → c.silent = true))) ∧
      (x.asqStopped = false → tailBad (2 ^ x.aqSz.toNat) x.asqHead x.asqTail (v.toNat % 2 ^ 16) = false →
        exec (.adminDoorbell f v) s = .next (s.modFn f fun y => { y with asqTail := v.toNat % 2 ^ 16 })) ∧
      (∀ (c : Cq) (a b : List Cq), v.getLsbD 28 = false → x.cqs = a ++ c :: b → c.num.toNat = v.toNat % 4096 → (∀ k ∈ a, k.num ≠ c.num) → c.hold = [] →
        (f, true, c.num.toNat) ∈ s.hosts.resident →
        let top := v.toNat / 2 ^ 12 % 2 ^ 16
        top < c.sz → (top + c.sz - c.head) % c.sz ≤ (c.tail + c.sz - c.head) % c.sz → ∃ t, exec (.cqDoorbell f v) s = .next t ∧
          (t.hfn f).cqs = a ++ { c with head := top } :: b ∧ (t.hport h).mem = p.mem ∧ t.ram = s.ram)) ∧
    (∀ v : Word, p.linkUp = true → (x.ovfDue = false → exec (.hostEvtCtl f v) s = .next (s.modFn f fun y =>
        { y with arm := v.getLsbD 0, evHead := BitVec.ofNat 12 (v.toNat / 2) })) ∧
      (x.ovfDue = true → (x.evTail.toNat + 1) % 2 ^ x.evSz.toNat ≠ v.toNat / 2 % 2 ^ 12 → ∃ t, exec (.hostEvtCtl f v) s = .next t ∧ (t.hfn f).ovfDue = false ∧
        (t.hfn f).evTail.toNat = (x.evTail.toNat + 1) % 2 ^ x.evSz.toNat % 2 ^ 12 ∧ (t.hport h).attn.getLsbD f.fn.val = true)) ∧
    (p.hsig = .ready → p.attnReq = true → exec (.attentionPulse h) s = .next (s.modHport h fun y => { y with hsig := .pulse, attnReq := false })) ∧
    (p.hsig = .pulse → exec (.attentionPulseEnd h) s = .next (s.modHport h fun y => { y with hsig := .gap })) ∧
    (p.hsig = .gap → exec (.attentionPulseEnd h) s = .next (s.modHport h fun y => { y with hsig := if p.attnReq then .pulse else .ready, attnReq := false })) ∧
    (p.hsig = .busy → p.causeReset = false → s.boot.fwBusy = false → s.svc.strike = .idle → s.pow.hotDrain = false →
      exec (.busyEnd h) s = .next (s.modHport h fun y => { y with hsig := .gap })) ∧
    (p.hsig = .busy → (p.causeReset = true ∨ s.boot.fwBusy = true ∨ s.svc.strike ≠ .idle ∨ s.pow.hotDrain = true) → exec (.busyEnd h) s = .next s) ∧
    (s.hosts.dbs = [] → let gone := fun (t : State) (g : FnId) => t.hfn g = Fn.reset ∧ (∀ q ∈ t.hosts.sqs, q.fn ≠ g) ∧ (∀ k ∈ t.hosts.grants, k.fn ≠ g) ∧
       (∀ c ∈ t.hosts.cmds, c.ref.fn = g → c.silent = true) ∧ (∀ j : JobSlot, (s.job j).valid = true → (s.job j).owner = some g → (t.job j).fenced = true)
     let busy := fun (t : State) => (t.hport h).hsig = .busy ∧ (t.hport h).causeReset = true ∧ t.ram = s.ram
     (p.linkUp = true → ∃ t, exec (.functionLevelReset f) s = .next t ∧ busy t ∧ gone t f ∧
       (∀ g : FnId, g.port = h → f.fn ≠ 0 → g.fn ≠ f.fn → (t.hfn g).ver = (s.hfn g).ver ∧ (t.hfn g).cqs = (s.hfn g).cqs)) ∧
     (∃ t, exec (.hotReset h) s = .next t ∧ busy t ∧ (∀ k : Fin 17, gone t ⟨h, k⟩) ∧ (t.hport h).linkUp = p.linkUp) ∧
     (∃ t, exec (.portLinkDown h) s = .next t ∧ busy t ∧ (∀ k : Fin 17, gone t ⟨h, k⟩) ∧ (t.hport h).linkUp = false) ∧
     (∃ t, exec (.perstAssert h) s = .next t ∧ busy t ∧ (∀ k : Fin 17, gone t ⟨h, k⟩) ∧ (t.hport h).linkUp = false ∧ (t.hport h).perst = true)) ∧
    (s.boot.stage = 5 → (∀ c ∈ s.hosts.cmds, c.ref.fn.port = h → c.silent = false) → ∃ t, exec (.portReady h) s = .next t ∧ (t.hport h).linkUp = true ∧
      (t.hport h).perst = false ∧ (t.hport h).causeReset = false ∧
      (p.hsig = .busy → s.boot.fwBusy = false → s.svc.strike = .idle → s.pow.hotDrain = false → (t.hport h).hsig = .gap))

/-! ## Power, snapshots and the panel (17) -/

/-- Snapshots and trim: SNAP_CTL.REQ of a free tree sends the token to every unit and counts SEQ, and is ignored while a snapshot runs; SNAPSHOT_TOKEN lets a unit copy its counters, and the last of a block sets its SNAP_TAG (the model's choice: log entry 119); SNAP_MARKER of a
sender that has copied records what was in flight, and the snapshot ends with the last; PWR_TRIM.REQ sends a change down the tree, TRIM_APPLY reports a unit, and
TRIM_CHANGE_DONE makes the profile and its cap current. The governor rises in a window above the cap or above 100 °C, to at most 8, and falls after four low ones; above 110 °C every
job is fenced and the ports are busy. An input fault takes the compute domain down, IIN_TRIP also opens the switch, STANDBY_LOSS takes all down but flash and fuses;
PRECHARGE_DONE closes the switch and lets a waiting start-up go on, and after PRECHARGE_TIMEOUT nothing starts (17 R431-R444, Table 17-1). -/
def Obligations.PowerFollowsItsRules : Prop :=
  ∀ (s : State), s.pow.aoOn = true →
    let p := s.pow
    (p.compOn = true →
      (s.snap.busy = false → p.tree = .idle → p.changing = false → p.govWait = false → ∃ t, exec .snapCtlReq s = .next t ∧ t.pow.tree = .snap snapUnits ∧
        t.snap.busy = true ∧ t.snap.seq = s.snap.seq + 1 ∧ t.snap.markers = allMarkers ∧ t.masts = s.masts) ∧
      (s.snap.busy = true → exec .snapCtlReq s = .next s) ∧
      (∀ (us : List SnapUnit) (u : SnapUnit), p.tree = .snap us → u ∈ us → us.filter (fun v => decide (v ≠ u)) ≠ [] → ∃ t, exec (.snapshotToken u) s = .next t ∧
        t.pow.tree = .snap (us.filter fun v => decide (v ≠ u)) ∧ t.ram = s.ram ∧
        (∀ m e, u = .engine m e → (t.mast m).shadow = Tab.copied (if e = 5 then Sparse.set (s.mast m).cnt 0x1C008 ((s.mast m).canv.ce.setWidth 64) else (s.mast m).cnt)
            (s.mast m).shadow (snapHolds u) ∧ (t.mast m).cnt = (s.mast m).cnt ∧
          (t.mast m).snapTag = if us.any fun v => decide (v ≠ u) && snapWith u v then (s.mast m).snapTag else s.snap.seq) ∧
        (∀ d, u = .die d ∨ (∃ k, u = .slice d k) ∨ (∃ k, u = .hbm d k) → (t.die d).shadow = Tab.copied (s.die d).cnt (s.die d).shadow (snapHolds u) ∧
          (t.die d).cnt = (s.die d).cnt ∧ (t.die d).snapTag = if us.any fun v => decide (v ≠ u) && snapWith u v then (s.die d).snapTag else s.snap.seq) ∧
        ((∃ p, u = .port p) ∨ (∃ c, u = .chan c) → t.snap.shadow = Tab.copied s.snap.cnt s.snap.shadow (snapHolds u) ∧ t.snap.cnt = s.snap.cnt)) ∧
      (∀ (n : Fin 128) (i : Fin 6) (k : Fin 3) (v : BitVec 16), Sparse.wf s.snap.infl = true → markerNum n i k ∈ s.snap.markers → (∀ w ∈ markerFrom n i, w ∉ p.snapDue) →
        ∃ t, exec (.snapMarker n i k v) s = .next t ∧ t.snap.markers = s.snap.markers.filter (fun q => decide (q ≠ markerNum n i k)) ∧
          t.snap.busy = !t.snap.markers.isEmpty ∧
          (Sparse.get t.snap.infl (n.val * 6 + i.val)).toNat / 2 ^ (16 * k.val) % 2 ^ 16 = if SnapUnit.router n ∈ p.snapDue then 0 else v.toNat) ∧
      (∀ (b : Bool) (us : List TrimUnit) (u : TrimUnit), p.tree = .trim b us →
        exec (.trimApply u) s = .next (s.modPow fun q => { q with tree := .trim b (us.filter fun v => decide (v ≠ u)) })) ∧
      (p.tree = .trim true [] → p.govWait = false → p.snapWait = false → exec .trimChangeDone s = .next (s.modPow fun q =>
        { q with tree := .idle, trimCur := p.trimReq, changing := false, cap := if p.trimReq = 0 then 1400 else 1800 })) ∧
      (∀ vin iin pin : BitVec 16, let above := p.cap.toNat < pin.toNat ∨ 100 < p.tmax.toNat
        (above → ∃ t, exec (.governorWindow vin iin pin) s = .next t ∧ t.pow.gov.toNat = (if p.gov.toNat < 8 then p.gov.toNat + 1 else p.gov.toNat) ∧
          t.pow.overcap = true ∧ t.pow.below = 0 ∧ t.pow.pin = pin ∧ t.masts = s.masts) ∧
        (¬above → pin.toNat + 50 < p.cap.toNat → p.below = 3 → ∃ t, exec (.governorWindow vin iin pin) s = .next t ∧ t.pow.gov.toNat = p.gov.toNat - 1 ∧
          t.pow.overcap = p.overcap ∧ t.pow.below = 0 ∧ t.pow.vin = vin ∧ t.pow.iin = iin) ∧
        (¬above → (p.cap.toNat ≤ pin.toNat + 50 ∨ p.below < 3) → ∃ t, exec (.governorWindow vin iin pin) s = .next t ∧ t.pow.gov = p.gov ∧
          t.pow.below = (if pin.toNat + 50 < p.cap.toNat then p.below + 1 else 0))) ∧
      (∀ t : BitVec 8, 110 < t.toNat → p.hotDrain = false → ∃ u, exec (.thermalReading t) s = .next u ∧ u.pow.tmax = t ∧ u.pow.thermal = true ∧
        u.pow.hotDrain = true ∧ (∀ h : HostPort, (u.hport h).hsig = .busy) ∧ (∀ j : JobSlot, (s.job j).valid = true → (u.job j).fenced = true) ∧
        (∀ c ∈ u.hosts.cmds, c.status ≠ none) ∧ u.ram = s.ram) ∧
      (∀ i ∈ [Instr.vinLow, .vinHigh, .iinHigh, .iinTrip], ∃ t, exec i s = .next t ∧ t.pow.compOn = false ∧ t.pow.infault = true ∧ t.pow.aoOn = true ∧
        t.pow.inSwitch = (p.inSwitch && decide (i ≠ .iinTrip)) ∧ (∀ j : JobSlot, (t.job j).valid = false) ∧ (∀ m : MastId, (t.mast m).core.halted = true) ∧
        t.boot.flash = s.boot.flash)) ∧
    (∀ t : BitVec 8, t.toNat ≤ 110 → p.hotDrain = false → exec (.thermalReading t) s = .next (s.modPow fun q =>
      { q with tmax := t, thermal := q.thermal || decide (100 < t.toNat), cool := if t.toNat < 100 then q.cool + 1 else 0 })) ∧
    (p.compOn = false → (∀ i ∈ [Instr.vinLow, .vinHigh, .iinHigh], exec i s = .next (s.modPow fun q => { q with infault := true })) ∧
      exec .iinTrip s = .next (s.modPow fun q => { q with infault := true, inSwitch := false })) ∧
    (∃ t, exec .standbyLoss s = .next t ∧ t.pow.aoOn = false ∧ t.pow.compOn = false ∧ t.pow.inSwitch = false ∧ t.boot.stage = 0 ∧ t.boot.flash = s.boot.flash ∧
      t.boot.fuseCn = s.boot.fuseCn ∧ t.boot.fuseMast = s.boot.fuseMast ∧ t.boot.revoked = s.boot.revoked) ∧
    (s.boot.stage ≠ 6 → (∀ v : BitVec 2, (p.changing = false → p.tree = .idle → exec (.pwrTrimReq v) s = .next (s.modPow fun q =>
        { q with trimReq := v, changing := true, tree := .trim true trimUnits })) ∧ (p.changing = true → exec (.pwrTrimReq v) s = .next s))) ∧
    (p.inSwitch = false → p.noStart = true → exec .prechargeDone s = .next s) ∧
    (p.inSwitch = false → p.noStart = false → (s.boot.stage ≠ 1 → exec .prechargeDone s = .next (s.modPow fun q => { q with inSwitch := true })) ∧
      (s.boot.stage = 1 → s.boot.railsOk = false → ∃ t, exec .prechargeDone s = .next t ∧ t.boot.stage = 6 ∧ t.boot.fail = 5 ∧ t.pow.compOn = false ∧
        t.pow.inSwitch = true) ∧
      (s.boot.stage = 1 → s.boot.railsOk = true → s.boot.hbmOk = false → ∃ t, exec .prechargeDone s = .next t ∧ t.boot.stage = 6 ∧ t.boot.fail = 6 ∧ t.pow.compOn = false) ∧
      (s.boot.stage = 1 → s.boot.railsOk = true → s.boot.hbmOk = true → s.boot.checkBank s.boot.marked 2 = 0 → ∃ t, exec .prechargeDone s = .next t ∧
        t.boot.stage = 5 ∧ t.pow.compOn = true ∧ t.pow.inSwitch = true ∧ (∀ m : MastId, (t.mast m).core.imem =
          Mem.put [] 0x1C000 (Mem.bytes s.boot.flash (flashBase s.boot.marked 2 + 384) (Mem.load s.boot.flash (flashBase s.boot.marked 2 + 16) 4))))) ∧
    (p.inSwitch = false → exec .prechargeTimeout s = .next (s.modPow fun q => { q with noStart := true })) ∧
    (p.inSwitch = true → exec .prechargeTimeout s = .next s)

/-- The service panel: a strike from IDLE, by SVC_CTL or the button, goes to DRAINING, fences every job, gives every command a status and makes both ports busy; DRAIN_COMPLETE with no command left takes
the links down, furls every mast and, with no firmware update, goes to CLEAR; FORCED_STRIKE and DRAIN_TIMEOUT go to CLEAR at once and abandon an update; UNSTRIKE goes
from CLEAR to IDLE and retrains; LEVER_OPEN faults every job and forces the strike; LOCATE_TOUCH toggles the pattern and tells both hosts when it starts, and
SVC_CTL.LOCATE starts it without telling (17 R446-R450, Table 17-4). -/
def Obligations.PanelDrainsAndLocates : Prop :=
  ∀ (s : State), s.pow.aoOn = true → s.boot.stage ≠ 6 →
    let drains := fun (t : State) => t.svc.strike = .draining ∧ t.svc.forced = false ∧ t.svc.drained = false ∧ (∀ h : HostPort, (t.hport h).hsig = .busy) ∧
      (∀ j : JobSlot, (s.job j).valid = true → (t.job j).fenced = true) ∧ (∀ c ∈ t.hosts.cmds, c.started = true ∧ c.status ≠ none) ∧ t.ram = s.ram
    let idles := fun (t : State) => t.svc.strike = .idle ∧ t.svc.lever = s.svc.lever ∧ t.ram = s.ram ∧ ∀ p : PortId,
      (s.sport p).plugged = true → (s.sport p).en = true → s.portUsed p = true → (t.sport p).training = true ∧ (t.sport p).up = false
    let forced := fun (t : State) => t.svc.strike = .clear ∧ t.svc.forced = true ∧ t.boot.fwBusy = false ∧ t.boot.flash = s.boot.flash ∧
      (s.boot.fwBusy = true → t.boot.fwResult = 6)
    let told := fun (t : State) => ∀ h : HostPort, let x := s.hfn ⟨h, 0⟩
      x.ver = 0x301 → x.evFull = false → (t.hfn ⟨h, 0⟩).evTail.toNat = (x.evTail.toNat + 1) % 2 ^ x.evSz.toNat % 2 ^ 12 ∧ (t.hport h).attn.getLsbD 0 = true
    (s.svc.strike = .idle → ∀ i ∈ [Instr.strike, .strikeButtonPress], ∃ t, exec i s = .next t ∧ drains t) ∧
    (s.svc.strike ≠ .idle → exec .strike s = .next s) ∧
    (s.svc.strike = .clear → ∀ i ∈ [Instr.unstrike, .strikeButtonPress], ∃ t, exec i s = .next t ∧ idles t) ∧
    (s.svc.strike ≠ .clear → exec .unstrike s = .next s) ∧
    (s.svc.strike = .draining → (∃ t, exec .forcedStrike s = .next t ∧ forced t ∧ t.jobs = s.jobs) ∧
      (s.svc.drained = false → ∃ t, exec .drainTimeout s = .next t ∧ forced t ∧ t.jobs = s.jobs) ∧
      exec .strikeButtonPress s = .next s ∧
      (s.svc.drained = false → s.hosts.cmds = [] → ∃ t, exec .drainComplete s = .next t ∧ t.svc.drained = true ∧ (∀ p : PortId, (t.sport p).up = false) ∧
        (∀ m : MastId, (t.mast m).sail = 0xAAA ∧ (t.mast m).core = (s.mast m).core) ∧ t.svc.strike = (if s.boot.fwBusy then .draining else .clear)) ∧
      (s.hosts.cmds ≠ [] → exec .drainComplete s = .next s)) ∧
    (s.svc.strike ≠ .draining → exec .forcedStrike s = .next s ∧ exec .drainTimeout s = .next s) ∧
    (∃ t, exec .leverOpen s = .next t ∧ t.svc.lever = true ∧ t.ram = s.ram ∧ (s.svc.strike = .clear → told t ∧ t.jobs = s.jobs ∧ t.svc.strike = .clear) ∧
      (s.svc.strike ≠ .clear → forced t ∧ (∀ h : HostPort, (t.hport h).hsig = .busy) ∧
        ∀ j : JobSlot, (s.job j).valid = true → (t.job j).fenced = true ∧ (t.job j).fltValid = true ∧ ((s.job j).fltValid = false → (t.job j).fltKind = 12))) ∧
    (∃ t, exec .leverClose s = .next t ∧ t.svc = { s.svc with lever := false } ∧ (s.svc.strike ≠ .draining → told t)) ∧
    (s.svc.locate = false → ∃ t, exec .locateTouch s = .next t ∧ t.svc = { s.svc with locate := true } ∧ told t) ∧
    (s.svc.locate = true → exec .locateTouch s = .next (s.modSvc fun v => { v with locate := false })) ∧
    exec .locate s = .next (s.modSvc fun v => { v with locate := true }) ∧
    (∀ i ∈ [Instr.locateOff, .locateTimeout], exec i s = .next (s.modSvc fun v => { v with locate := false }))

/-! ## Start-up, security and register writes (01 R18-R20, R474, 18) -/

/-- Start-up and security: AO_RESET_EXIT runs the Crowsnest image of the marked bank, or else the other as FALLBACK, or enters recovery with the code of the failing check; MOD_RST.GO counts a reset, zeroes
canvas and keeps HBM; FW_CTL.BEGIN is refused while a job is valid; FINISH puts a good image into the inactive bank and marks it, and a bad one changes no flash; ABORT
abandons; COMMIT only raises the fuses, and revokes no key that the running image uses; the node record is kept; a report is built for the nonce of its request and holds it with
the digests and the signature (18 R456-R466). -/
def Obligations.StartUpAndSecurity : Prop :=
  ∀ (s : State),
    (∀ i : BootInput, s.boot.stage = 0 → s.pow.inSwitch = false →
      let b : Boot := { s.boot with foundCn := ⟨#[i.cnA, i.cnB], rfl⟩, foundMast := ⟨#[i.mastA, i.mastB], rfl⟩ }
      let bad := b.checkBank s.boot.marked 1
      let run := fun (t : State) (bank : Bool) => t.boot.stage = 1 ∧ t.boot.cnBank = bank ∧ t.boot.fallback = (bank != s.boot.marked) ∧ t.pow.aoOn = true ∧
        t.boot.resets = 0 ∧ t.boot.runCn = headerFacts s.boot.flash (flashBase bank 1) ∧ (∀ h : HostPort, (t.hport h).hsig = .busy) ∧ t.ram = s.ram
      ∃ t, exec (.aoResetExit i) s = .next t ∧ (bad = 0 → run t s.boot.marked) ∧
        (bad ≠ 0 → b.checkBank (!s.boot.marked) 1 = 0 → run t (!s.boot.marked) ∧ t.boot.fail.toNat = bad) ∧
        (bad ≠ 0 → b.checkBank (!s.boot.marked) 1 ≠ 0 → t.boot.stage = 6 ∧ t.boot.fail.toNat = bad ∧ t.pow.compOn = false)) ∧
    (s.pow.aoOn = true →
      (∀ i : BootInput, s.boot.stage ≠ 6 → s.pow.compOn = true → ∃ t, exec (.modRstGo i) s = .next t ∧
        t.boot.resets.toNat = min (2 ^ 32 - 1) (s.boot.resets.toNat + 1) ∧ (∀ h : HostPort, (t.hport h).hsig = .busy) ∧ (∀ j : JobSlot, (t.job j).valid = false) ∧
        (i.hbmOk = true → (∀ a : Nat, a < 0x2FF8000000 → Sparse.get t.ram a = Sparse.get s.ram a) ∧ (∀ a : Nat, 0x2FF8000000 ≤ a → Sparse.get t.ram a = 0)) ∧
        (i.hbmOk = false → t.boot.stage = 6 ∧ t.boot.fail = 6)) ∧
      (s.boot.fwBusy = false → ((∀ j : JobSlot, (s.job j).valid = false) → ∃ t, exec .fwCtlBegin s = .next t ∧ t.boot.fwBusy = true ∧ t.boot.fwResult = 0 ∧
          ∀ h : HostPort, (t.hport h).hsig = .busy) ∧
        ((∃ j : JobSlot, (s.job j).valid = true) → exec .fwCtlBegin s = .next (s.modBoot fun b => { b with fwResult := 6 }))) ∧
      (∀ c : CryptoFindings, s.boot.fwBusy = true →
        let b := s.boot
        let typ := Mem.load b.stageMem 4 2
        let good := (typ = 1 ∨ typ = 2) ∧ imageCheck b b.stageMem 0 typ c = 0
        ∃ t, exec (.fwCtlFinish c) s = .next t ∧ t.boot.fwBusy = false ∧
          (good → t.boot.fwResult = 1 ∧ t.boot.marked = !b.marked ∧ t.boot.inactiveBad = false ∧
            t.boot.flash = Mem.put b.flash (flashBase (!b.marked) typ) (Mem.bytes b.stageMem 0 (384 + min 0x80000 (Mem.load b.stageMem 16 4)))) ∧
          (¬good → t.boot.fwResult ≠ 1 ∧ t.boot.marked = b.marked ∧ t.boot.flash = b.flash)) ∧
      (s.boot.fwBusy = true → ∃ t, exec .fwCtlAbort s = .next t ∧ t.boot.fwBusy = false ∧ t.boot.fwResult = 6 ∧ t.boot.inactiveBad = true ∧
        t.boot.flash = s.boot.flash) ∧
      (∃ t, exec .fwCtlCommit s = .next t ∧ t.boot.fuseCn.toNat = max s.boot.fuseCn.toNat (min 64 s.boot.runCn.svn.toNat) ∧
        t.boot.fuseMast.toNat = max s.boot.fuseMast.toNat (min 64 s.boot.runMast.svn.toNat) ∧
        (∀ k < 4, t.boot.revoked.getLsbD k = (s.boot.revoked.getLsbD k || (s.boot.runCn.revoke.getLsbD k && decide (k ≠ s.boot.runCn.keyidx.toNat))))) ∧
      (∀ sig : List Byte, s.boot.attBusy = true → sig.length = 132 → s.boot.reqNonce.length = 32 → ∃ t, exec (.attReportDone sig) s = .next t ∧
        t.boot.attBusy = false ∧ t.boot.attDone = true ∧ Mem.bytes t.boot.report 28 32 = s.boot.reqNonce ∧ Mem.bytes t.boot.report 216 132 = sig ∧
        Mem.load t.boot.report 60 64 = s.boot.runCn.digest.toNat ∧ Mem.load t.boot.report 124 64 = s.boot.runMast.digest.toNat ∧
        Mem.load t.boot.report 8 16 = s.boot.serial.toNat ∧ Mem.load t.boot.report 24 2 = s.nodeId.toNat) ∧
      (s.boot.stage ≠ 6 →
        (∀ (node : BitVec 14) (cfg : Word), exec (.nodeRecordWrite node cfg) s = .next (s.modBoot fun b => { b with recValid := true, recNode := node, recCfg := cfg })) ∧
        (s.boot.attBusy = false → exec .attCtlReq s = .next (s.modBoot fun b => { b with attBusy := true, reqNonce := Mem.bytes s.boot.nonce 0 32 }) ∧
          ∀ nonce, exec (.attestationRequest nonce) s = .next (s.modBoot fun b => { b with attBusy := true, reqNonce := nonce })) ∧
        (s.boot.attBusy = true → exec .attCtlReq s = .next s ∧ ∀ nonce, exec (.attestationRequest nonce) s = .next s)))

/-- REGISTER_WRITE: a write whose size is not 4 or 8 or that is not aligned reaches no register, and completes with Completer Abort for a host; nor does one at U or S to a register that Table 14-1
does not grant; a host's write to BAR0 that is not of 8 aligned bytes completes with Completer Abort, one to an offset that is not listed with Unsupported Request; a host's write to LDM lands while the core is halted, a
4-byte write in its half alone, and sets XWERR otherwise; a write of the gate table by the core itself is used by gates only after a FENCE; write-1-to-clear bits clear; SHR_JBLK keeps its
value while the slot is valid; a host function's queue registers take their fields (01 R18-R20, R474, 02 R78, 14 R360, R374, 15 R408, 16 R411, R430). -/
def Obligations.RegisterWritesReachTheirRegisters : Prop :=
  ∀ (s : State) (pa : LocalPA) (v : Word), s.pow.compOn = true →
    let a : RegAddr := .window pa
    (∀ (who : Who) (size : Nat), ((size ≠ 4 ∧ size ≠ 8) ∨ pa.toNat % size ≠ 0) → (∀ h : HostPort, who ≠ .host h) → exec (.registerWrite who a size v) s = .next s) ∧
    (∀ (h : HostPort) (size : Nat), ((size ≠ 4 ∧ size ≠ 8) ∨ pa.toNat % size ≠ 0) → (s.hport h).linkUp = true →
      exec (.registerWrite (.host h) a size v) s = .next (s.modHport h fun p => { p with cpl := some .ca })) ∧
    (∀ (f : FnId) (off size : Nat), (s.hport f.port).linkUp = true →
      ((size ≠ 8 ∨ off % 8 ≠ 0) → exec (.registerWrite (.host f.port) (.bar f off) size v) s = .next (s.modHport f.port fun p => { p with cpl := some .ca })) ∧
      (size = 8 → off % 8 = 0 → barListed f off = false →
        exec (.registerWrite (.host f.port) (.bar f off) size v) s = .next (s.modHport f.port fun p => { p with cpl := some .ur }))) ∧
    (∀ (m : MastId) (r : Reg) (size : Nat), regAt pa.toNat = some r →
      (r.grant m 0 true = false → exec (.registerWrite (.core m .u) a size v) s = .next s) ∧
      (r.grant m 1 true = false → exec (.registerWrite (.core m .s) a size v) s = .next s)) ∧
    (∀ (m : MastId) (w : Nat) (h : HostPort), regAt (8 * (pa.toNat / 8)) = some (.mast m (.ldm w)) → regAt pa.toNat = some (.mast m (.ldm w)) → Sparse.wf (s.mast m).core.ldm = true →
      (s.hport h).linkUp = true → (pa.toNat % 8 = 0 ∨ pa.toNat % 8 = 4) →
      ((s.mast m).core.halted = true →
        (pa.toNat % 8 = 0 → exec (.registerWrite (.host h) a 8 v) s = .next ((((s.modHport h fun p => { p with cpl := some .wrote })).mend fun (u : Cell) => decide (u = .ldm m w)).modCore m fun c => { c with ldm := Mem.store c.ldm (8 * w) 8 v.toNat })) ∧
        ∃ t, exec (.registerWrite (.host h) a 4 v) s = .next t ∧
          Mem.load (t.mast m).core.ldm (8 * w + pa.toNat % 8) 4 = v.toNat % 2 ^ 32 ∧
          (∀ k : Nat, (k < 8 * w + pa.toNat % 8 ∨ 8 * w + pa.toNat % 8 + 4 ≤ k) → Sparse.get (t.mast m).core.ldm k = Sparse.get (s.mast m).core.ldm k)) ∧
      ((s.mast m).core.halted = false → ∃ t, exec (.registerWrite (.host h) a 4 v) s = .next t ∧ (t.mast m).core = { (s.mast m).core with xwerr := true })) ∧
    (∀ (m : MastId) (w : Nat), pa.toNat % 8 = 0 → regAt pa.toNat = some (.mast m (.gate w)) → (s.mast m).core.fenced = false →
      exec (.registerWrite (.core m .m) a 8 v) s = .next (s.modCore m fun c => { c with gate := Mem.store c.gate (8 * w) 8 v.toNat })) ∧
    (∀ (m : MastId), pa.toNat % 8 = 0 → regAt pa.toNat = some (.mast m .numFlags) →
      exec (.registerWrite (.core m .u) a 8 v) s = .next (s.modMast m fun x => { x with num := { x.num with flags := x.num.flags &&& ~~~v.setWidth 32 } })) ∧
    (∀ (j : JobSlot), pa.toNat % 8 = 0 → regAt pa.toNat = some (.module (.shrJblk j)) →
      ((s.job j).valid = false → exec (.registerWrite .crowsnest a 8 v) s = .next (s.modJob j fun x => { x with jblk := v &&& 0x77FF77FF })) ∧
      ((s.job j).valid = true → exec (.registerWrite .crowsnest a 8 v) s = .next s)) ∧
    (∀ f : FnId, (s.hport f.port).linkUp = true → 4 ≤ v.toNat % 16 → v.toNat % 16 ≤ 12 →
      exec (.registerWrite (.host f.port) (.bar f 0x18) 8 v) s = .next ((s.modHport f.port fun p => { p with cpl := some .wrote }).modFn f fun x =>
        { x with aqSz := v.setWidth 4, aqBase := BitVec.ofNat 52 (v.toNat / 2 ^ 12) }))
end

