-- ==== Sys2Proof/Laws/Mem.lean ====
section
/-!
SUPPORT. The laws of the memories: every operation keeps the canonical form, a read after a write gives the value written, and a write leaves every
other address alone.
-/

namespace Sys2Proof.Machine

variable {w : Nat}

/-! ## One value -/

theorem sparse_above_trans {a b : Nat} (h : a ≤ b) : ∀ m : Sparse w, Sparse.above b m = true → Sparse.above a m = true
  | [], _ => rfl
  | (k, v) :: t, hm => by
    simp only [Sparse.above, Bool.and_eq_true, decide_eq_true_eq] at hm ⊢
    exact ⟨by omega, sparse_above_trans h t hm.2⟩

/-- An address at or below every listed one reads as blank. -/
theorem sparse_get_above {a b : Nat} (h : b ≤ a) : ∀ m : Sparse w, Sparse.above a m = true → Sparse.get m b = Sparse.blank w
  | [], _ => rfl
  | (k, v) :: t, hm => by
    simp only [Sparse.above, Bool.and_eq_true, decide_eq_true_eq] at hm
    simp only [Sparse.get]
    rw [if_neg (by omega)]
    exact sparse_get_above h t hm.2

theorem sparse_set_above {a b : Nat} {v : BitVec w} (h : a < b) : ∀ m : Sparse w, Sparse.above a m = true → Sparse.above a (Sparse.set m b v) = true
  | [], _ => by simp only [Sparse.set]; split <;> simp [Sparse.above, h]
  | (k, x) :: t, hm => by
    have hm' := hm
    simp only [Sparse.above, Bool.and_eq_true, decide_eq_true_eq] at hm
    simp only [Sparse.set]
    split
    · split
      · exact hm'
      · simp [Sparse.above, h, hm.1, hm.2]
    · split
      · split
        · exact hm.2
        · simp [Sparse.above, h, hm.2]
      · simp [Sparse.above, hm.1, sparse_set_above h t hm.2]

/-- Writing one value keeps the canonical form. -/
theorem sparse_set_wf (a : Nat) (v : BitVec w) : ∀ m : Sparse w, Sparse.wf m = true → Sparse.wf (Sparse.set m a v) = true
  | [], _ => by simp only [Sparse.set]; split <;> simp_all [Sparse.wf, Sparse.above]
  | (k, x) :: t, hm => by
    have hm' := hm
    simp only [Sparse.wf, Bool.and_eq_true, decide_eq_true_eq] at hm
    obtain ⟨⟨hx, ha⟩, ht⟩ := hm
    simp only [Sparse.set]
    split
    · rename_i hk
      split
      · exact hm'
      · rename_i hv
        simp only [Sparse.wf, Sparse.above, Bool.and_eq_true, decide_eq_true_eq]
        exact ⟨⟨hv, hk, sparse_above_trans (by omega) t ha⟩, ⟨hx, ha⟩, ht⟩
    · split
      · rename_i hk
        split
        · exact ht
        · rename_i hv
          subst hk
          simp only [Sparse.wf, Bool.and_eq_true, decide_eq_true_eq]
          exact ⟨⟨hv, ha⟩, ht⟩
      · simp only [Sparse.wf, Bool.and_eq_true, decide_eq_true_eq]
        exact ⟨⟨hx, sparse_set_above (by omega) t ha⟩, sparse_set_wf a v t ht⟩

/-- A read after a write to the same address gives the value written. -/
theorem sparse_get_set_same (a : Nat) (v : BitVec w) : ∀ m : Sparse w, Sparse.wf m = true → Sparse.get (Sparse.set m a v) a = v
  | [], _ => by simp only [Sparse.set]; split <;> simp_all [Sparse.get]
  | (k, x) :: t, hm => by
    simp only [Sparse.wf, Bool.and_eq_true, decide_eq_true_eq] at hm
    obtain ⟨⟨_, ha⟩, ht⟩ := hm
    simp only [Sparse.set]
    split
    · rename_i hk
      split
      · rename_i hv
        simp only [Sparse.get]
        rw [if_neg (by omega), hv]
        exact sparse_get_above (by omega) t ha
      · simp [Sparse.get]
    · split
      · rename_i hk
        split
        · rename_i hv
          rw [hv]
          exact sparse_get_above (by omega) t ha
        · simp [Sparse.get]
      · rename_i hk
        simp only [Sparse.get]
        rw [if_neg hk]
        exact sparse_get_set_same a v t ht

/-- A write leaves every other address alone. -/
theorem sparse_get_set_ne {a b : Nat} (h : b ≠ a) (v : BitVec w) : ∀ m : Sparse w, Sparse.get (Sparse.set m a v) b = Sparse.get m b
  | [] => by simp only [Sparse.set]; split <;> simp [Sparse.get, h]
  | (k, x) :: t => by
    simp only [Sparse.set]
    split
    · split <;> simp [Sparse.get, h]
    · split
      · rename_i hk
        subst hk
        split <;> simp [Sparse.get, h]
      · simp only [Sparse.get]
        rw [sparse_get_set_ne h v t]

theorem sparse_filter_above {a : Nat} (p : Nat × BitVec w → Bool) : ∀ m : Sparse w, Sparse.above a m = true → Sparse.above a (m.filter p) = true
  | [], _ => rfl
  | (k, v) :: t, hm => by
    simp only [Sparse.above, Bool.and_eq_true, decide_eq_true_eq] at hm
    rw [List.filter_cons]
    split
    · simp [Sparse.above, hm.1, sparse_filter_above p t hm.2]
    · exact sparse_filter_above p t hm.2

/-- Dropping entries keeps the canonical form. -/
theorem sparse_filter_wf (p : Nat × BitVec w → Bool) : ∀ m : Sparse w, Sparse.wf m = true → Sparse.wf (m.filter p) = true
  | [], _ => rfl
  | (k, v) :: t, hm => by
    simp only [Sparse.wf, Bool.and_eq_true, decide_eq_true_eq] at hm
    rw [List.filter_cons]
    split
    · simp only [Sparse.wf, Bool.and_eq_true, decide_eq_true_eq]
      exact ⟨⟨hm.1.1, sparse_filter_above p t hm.1.2⟩, sparse_filter_wf p t hm.2⟩
    · exact sparse_filter_wf p t hm.2

/-- Dropping the entries of some addresses makes those read as blank, and no others. -/
theorem sparse_get_filter (p : Nat → Bool) (a : Nat) : ∀ m : Sparse w, Sparse.wf m = true →
    Sparse.get (m.filter fun e => p e.1) a = if p a then Sparse.get m a else Sparse.blank w
  | [], _ => by simp [Sparse.get]
  | (k, v) :: t, hm => by
    simp only [Sparse.wf, Bool.and_eq_true, decide_eq_true_eq] at hm
    have ih := sparse_get_filter p a t hm.2
    by_cases hk : a = k
    · subst hk
      by_cases hp : p a
      · simp [Sparse.get, hp]
      · rw [List.filter_cons, if_neg (by simpa using hp), ih, if_neg hp, if_neg hp]
    · by_cases hp : p k
      · simp only [List.filter_cons, hp, if_true, Sparse.get, if_neg hk]
        exact ih
      · rw [List.filter_cons, if_neg (by simpa using hp), ih]
        simp [Sparse.get, hk]

/-- Removing a range keeps the canonical form. -/
theorem sparse_erase_wf (a n : Nat) (m : Sparse w) (h : Sparse.wf m = true) : Sparse.wf (Sparse.erase m a n) = true := sparse_filter_wf _ m h

/-- A removed range reads as blank, and every other address as before. -/
theorem sparse_get_erase (a n b : Nat) (m : Sparse w) (h : Sparse.wf m = true) :
    Sparse.get (Sparse.erase m a n) b = if a ≤ b ∧ b < a + n then Sparse.blank w else Sparse.get m b := by
  rw [Sparse.erase, sparse_get_filter (fun k => decide (k < a ∨ a + n ≤ k)) b m h]
  simp only [decide_eq_true_eq]
  split <;> split <;> first | rfl | omega

/-! ## Bytes -/

theorem ofBytes_toBytes : ∀ n v : Nat, ofBytes (toBytes n v) = v % 2 ^ (8 * n)
  | 0, v => by simp [toBytes, ofBytes, Nat.mod_one]
  | n + 1, v => by
    have ih := ofBytes_toBytes n (v / 256)
    simp only [toBytes, ofBytes, BitVec.toNat_ofNat, ih]
    rw [show 8 * (n + 1) = 8 + 8 * n by omega, Nat.pow_add, Nat.mod_mul]

theorem toBytes_length : ∀ n v : Nat, (toBytes n v).length = n
  | 0, _ => rfl
  | n + 1, v => by simp [toBytes, toBytes_length n]

/-- Writing bytes keeps the canonical form. -/
theorem mem_put_wf : ∀ (bs : List Byte) (m : Mem) (a : Nat), Sparse.wf m = true → Sparse.wf (Mem.put m a bs) = true
  | [], _, _, h => h
  | b :: bs, m, a, h => mem_put_wf bs _ (a + 1) (sparse_set_wf a b m h)

/-- Writing a number keeps the canonical form. -/
theorem mem_store_wf (m : Mem) (a n v : Nat) (h : Sparse.wf m = true) : Sparse.wf (Mem.store m a n v) = true := mem_put_wf _ m a h

/-- Counting keeps the canonical form. -/
theorem tab_inc_wf (t : Tab) (a : Nat) (h : Sparse.wf t = true) : Sparse.wf (Tab.inc t a) = true := sparse_set_wf a _ t h

theorem tab_add_wf (t : Tab) (a n : Nat) (h : Sparse.wf t = true) : Sparse.wf (Tab.add t a n) = true := sparse_set_wf a _ t h

theorem sparse_puts_wf (l : List (Nat × BitVec w)) : ∀ t : Sparse w, Sparse.wf t = true → Sparse.wf (l.foldl (fun t e => Sparse.set t e.1 e.2) t) = true := by
  induction l with
  | nil => exact fun _ h => h
  | cons e l ih => exact fun t h => ih _ (sparse_set_wf _ _ t h)

/-- A copy of some counting fields keeps the canonical form. -/
theorem tab_copied_wf (cnt shadow : Tab) (p : Nat → Bool) (h : Sparse.wf shadow = true) : Sparse.wf (Tab.copied cnt shadow p) = true :=
  sparse_puts_wf _ _ (sparse_filter_wf _ shadow h)

theorem sparse_get_puts (a : Nat) : ∀ (l t : Sparse w), Sparse.wf l = true → Sparse.wf t = true →
    Sparse.get (l.foldl (fun t e => Sparse.set t e.1 e.2) t) a = if Sparse.get l a = Sparse.blank w then Sparse.get t a else Sparse.get l a
  | [], t, _, _ => by simp [Sparse.get]
  | (k, v) :: l, t, hl, ht => by
    simp only [Sparse.wf, Bool.and_eq_true, decide_eq_true_eq] at hl
    rw [List.foldl_cons, sparse_get_puts a l _ hl.2 (sparse_set_wf k v t ht)]
    by_cases hk : a = k
    · subst hk
      rw [sparse_get_above (Nat.le_refl a) l hl.1.2, sparse_get_set_same a v t ht]
      simp [Sparse.get, hl.1.1]
    · simp only [Sparse.get, if_neg hk, sparse_get_set_ne hk]

/-- After a copy, the fields it picks read as they count, and the others as before. -/
theorem tab_get_copied (cnt shadow : Tab) (p : Nat → Bool) (a : Nat) (hc : Sparse.wf cnt = true) (hs : Sparse.wf shadow = true) :
    Sparse.get (Tab.copied cnt shadow p) a = if p a then Sparse.get cnt a else Sparse.get shadow a := by
  have hs' := sparse_get_filter (fun k => !p k) a shadow hs
  rw [Tab.copied, sparse_get_puts a _ _ (sparse_filter_wf _ cnt hc) (sparse_filter_wf _ shadow hs), sparse_get_filter p a cnt hc, hs']
  cases p a <;> simp
  intro h
  exact h.symm

/-- Writing bytes leaves every address outside them alone. -/
theorem mem_get_put_out : ∀ (bs : List Byte) (m : Mem) (a b : Nat), (b < a ∨ a + bs.length ≤ b) → Sparse.get (Mem.put m a bs) b = Sparse.get m b
  | [], _, _, _, _ => rfl
  | x :: bs, m, a, b, h => by
    rw [List.length_cons] at h
    rw [Mem.put, mem_get_put_out bs _ (a + 1) b (by omega), sparse_get_set_ne (by omega)]

/-- A number leaves every address outside it alone. -/
theorem mem_get_store_out (m : Mem) (a n v b : Nat) (h : b < a ∨ a + n ≤ b) : Sparse.get (Mem.store m a n v) b = Sparse.get m b :=
  mem_get_put_out _ m a b (by rw [toBytes_length]; exact h)

/-- The bytes read after a write of bytes to the same place are those written. -/
theorem mem_bytes_put : ∀ (bs : List Byte) (m : Mem) (a : Nat), Sparse.wf m = true → Mem.bytes (Mem.put m a bs) a bs.length = bs
  | [], _, _, _ => rfl
  | b :: bs, m, a, h => by
    have hw := sparse_set_wf a b m h
    rw [List.length_cons, Mem.bytes, Mem.put, mem_bytes_put bs _ (a + 1) hw, mem_get_put_out bs _ (a + 1) a (by omega), sparse_get_set_same a b m h]

theorem mem_bytes_length : ∀ (n : Nat) (m : Mem) (a : Nat), (Mem.bytes m a n).length = n
  | 0, _, _ => rfl
  | n + 1, m, a => by simp [Mem.bytes, mem_bytes_length n]

/-- Bytes that a write does not touch read as before. -/
theorem mem_bytes_put_out : ∀ (n : Nat) (bs : List Byte) (m : Mem) (a b : Nat), (b + n ≤ a ∨ a + bs.length ≤ b) →
    Mem.bytes (Mem.put m a bs) b n = Mem.bytes m b n
  | 0, _, _, _, _, _ => rfl
  | n + 1, bs, m, a, b, h => by
    rw [Mem.bytes, Mem.bytes, mem_get_put_out bs m a b (by omega), mem_bytes_put_out n bs m a (b + 1) (by omega)]

/-- A number read after it was written is the number, at its width. -/
theorem mem_load_store (m : Mem) (a n v : Nat) (h : Sparse.wf m = true) : Mem.load (Mem.store m a n v) a n = v % 2 ^ (8 * n) := by
  have hb := mem_bytes_put (toBytes n v) m a h
  rw [toBytes_length] at hb
  rw [Mem.load, Mem.store, hb, ofBytes_toBytes]

/-- A number outside a written one reads as before. -/
theorem mem_load_store_out (m : Mem) (a n v b k : Nat) (h : b + k ≤ a ∨ a + n ≤ b) : Mem.load (Mem.store m a n v) b k = Mem.load m b k := by
  rw [Mem.load, Mem.load, Mem.store, mem_bytes_put_out k _ m a b (by rw [toBytes_length]; exact h)]

end Sys2Proof.Machine
end

