-- ==== Sys2Proof/Laws/State.lean ====
section
/-!
SUPPORT. What each update of the state does to each field: one lemma per field and update, true by definition, so that no proof unfolds a record
update.
-/

namespace Sys2Proof.Machine

/-! ### Vectors -/

/-- `get` is indexing. -/
theorem vget_eq {α : Type} {n : Nat} (v : Vector α n) (i : Fin n) : v.get i = v[i.val] := rfl

@[simp] theorem vget_set_self {α : Type} {n : Nat} (v : Vector α n) (i : Fin n) (x : α) (h : i.val < n) : (v.set i.val x h).get i = x := by
  simp [vget_eq]

theorem vget_set_ne {α : Type} {n : Nat} (v : Vector α n) {i j : Fin n} (x : α) (h : i.val < n) (e : j ≠ i) :
    (v.set i.val x h).get j = v.get j := by
  have : i.val ≠ j.val := fun k => e (Fin.ext k.symm)
  simp [vget_eq, this]

@[simp] theorem vset_get {α : Type} {n : Nat} (v : Vector α n) (i : Fin n) (h : i.val < n) : v.set i.val (v.get i) h = v := by
  simp [vget_eq]

@[simp] theorem vset_set {α : Type} {n : Nat} (v : Vector α n) (i : Fin n) (x y : α) (h : i.val < n) :
    (v.set i.val x h).set i.val y h = v.set i.val y h := by
  simp

@[simp] theorem vget_replicate {α : Type} {n : Nat} (x : α) (i : Fin n) : (Vector.replicate n x).get i = x := by
  simp [vget_eq]

@[simp] theorem vget_map {α β : Type} {n : Nat} (f : α → β) (v : Vector α n) (i : Fin n) : (v.map f).get i = f (v.get i) := by
  simp [vget_eq]

/-! ### `setMast` -/

@[simp] theorem setMast_dies (s : State) (m : MastId) (x : Mast) : (s.setMast m x).dies = s.dies := rfl
@[simp] theorem setMast_ram (s : State) (m : MastId) (x : Mast) : (s.setMast m x).ram = s.ram := rfl
@[simp] theorem setMast_hbmPoison (s : State) (m : MastId) (x : Mast) : (s.setMast m x).hbmPoison = s.hbmPoison := rfl
@[simp] theorem setMast_hbmWq (s : State) (m : MastId) (x : Mast) : (s.setMast m x).hbmWq = s.hbmWq := rfl
@[simp] theorem setMast_hbmRef (s : State) (m : MastId) (x : Mast) : (s.setMast m x).hbmRef = s.hbmRef := rfl
@[simp] theorem setMast_canvasBad (s : State) (m : MastId) (x : Mast) : (s.setMast m x).canvasBad = s.canvasBad := rfl
@[simp] theorem setMast_upsets (s : State) (m : MastId) (x : Mast) : (s.setMast m x).upsets = s.upsets := rfl
@[simp] theorem setMast_check (s : State) (m : MastId) (x : Mast) : (s.setMast m x).check = s.check := rfl
@[simp] theorem setMast_making (s : State) (m : MastId) (x : Mast) : (s.setMast m x).making = s.making := rfl
@[simp] theorem setMast_homes (s : State) (m : MastId) (x : Mast) : (s.setMast m x).homes = s.homes := rfl
@[simp] theorem setMast_frees (s : State) (m : MastId) (x : Mast) : (s.setMast m x).frees = s.frees := rfl
@[simp] theorem setMast_resvs (s : State) (m : MastId) (x : Mast) : (s.setMast m x).resvs = s.resvs := rfl
@[simp] theorem setMast_tries (s : State) (m : MastId) (x : Mast) : (s.setMast m x).tries = s.tries := rfl
@[simp] theorem setMast_msgs (s : State) (m : MastId) (x : Mast) : (s.setMast m x).msgs = s.msgs := rfl
@[simp] theorem setMast_posts (s : State) (m : MastId) (x : Mast) : (s.setMast m x).posts = s.posts := rfl
@[simp] theorem setMast_acks (s : State) (m : MastId) (x : Mast) : (s.setMast m x).acks = s.acks := rfl
@[simp] theorem setMast_order (s : State) (m : MastId) (x : Mast) : (s.setMast m x).order = s.order := rfl
@[simp] theorem setMast_held (s : State) (m : MastId) (x : Mast) : (s.setMast m x).held = s.held := rfl
@[simp] theorem setMast_flts (s : State) (m : MastId) (x : Mast) : (s.setMast m x).flts = s.flts := rfl
@[simp] theorem setMast_nodeId (s : State) (m : MastId) (x : Mast) : (s.setMast m x).nodeId = s.nodeId := rfl
@[simp] theorem setMast_shrCfg (s : State) (m : MastId) (x : Mast) : (s.setMast m x).shrCfg = s.shrCfg := rfl
@[simp] theorem setMast_sports (s : State) (m : MastId) (x : Mast) : (s.setMast m x).sports = s.sports := rfl
@[simp] theorem setMast_sent (s : State) (m : MastId) (x : Mast) : (s.setMast m x).sent = s.sent := rfl
@[simp] theorem setMast_seenLost (s : State) (m : MastId) (x : Mast) : (s.setMast m x).seenLost = s.seenLost := rfl
@[simp] theorem setMast_jobs (s : State) (m : MastId) (x : Mast) : (s.setMast m x).jobs = s.jobs := rfl
@[simp] theorem setMast_chans (s : State) (m : MastId) (x : Mast) : (s.setMast m x).chans = s.chans := rfl
@[simp] theorem setMast_invs (s : State) (m : MastId) (x : Mast) : (s.setMast m x).invs = s.invs := rfl
@[simp] theorem setMast_invVa (s : State) (m : MastId) (x : Mast) : (s.setMast m x).invVa = s.invVa := rfl
@[simp] theorem setMast_invDone (s : State) (m : MastId) (x : Mast) : (s.setMast m x).invDone = s.invDone := rfl
@[simp] theorem setMast_invOvf (s : State) (m : MastId) (x : Mast) : (s.setMast m x).invOvf = s.invOvf := rfl
@[simp] theorem setMast_hosts (s : State) (m : MastId) (x : Mast) : (s.setMast m x).hosts = s.hosts := rfl
@[simp] theorem setMast_pow (s : State) (m : MastId) (x : Mast) : (s.setMast m x).pow = s.pow := rfl
@[simp] theorem setMast_snap (s : State) (m : MastId) (x : Mast) : (s.setMast m x).snap = s.snap := rfl
@[simp] theorem setMast_svc (s : State) (m : MastId) (x : Mast) : (s.setMast m x).svc = s.svc := rfl
@[simp] theorem setMast_boot (s : State) (m : MastId) (x : Mast) : (s.setMast m x).boot = s.boot := rfl
@[simp] theorem setMast_pending (s : State) (m : MastId) (x : Mast) : (s.setMast m x).pending = s.pending := rfl

/-! ### `modMast` -/

@[simp] theorem modMast_dies (s : State) (m : MastId) (f : Mast → Mast) : (s.modMast m f).dies = s.dies := rfl
@[simp] theorem modMast_ram (s : State) (m : MastId) (f : Mast → Mast) : (s.modMast m f).ram = s.ram := rfl
@[simp] theorem modMast_hbmPoison (s : State) (m : MastId) (f : Mast → Mast) : (s.modMast m f).hbmPoison = s.hbmPoison := rfl
@[simp] theorem modMast_hbmWq (s : State) (m : MastId) (f : Mast → Mast) : (s.modMast m f).hbmWq = s.hbmWq := rfl
@[simp] theorem modMast_hbmRef (s : State) (m : MastId) (f : Mast → Mast) : (s.modMast m f).hbmRef = s.hbmRef := rfl
@[simp] theorem modMast_canvasBad (s : State) (m : MastId) (f : Mast → Mast) : (s.modMast m f).canvasBad = s.canvasBad := rfl
@[simp] theorem modMast_upsets (s : State) (m : MastId) (f : Mast → Mast) : (s.modMast m f).upsets = s.upsets := rfl
@[simp] theorem modMast_check (s : State) (m : MastId) (f : Mast → Mast) : (s.modMast m f).check = s.check := rfl
@[simp] theorem modMast_making (s : State) (m : MastId) (f : Mast → Mast) : (s.modMast m f).making = s.making := rfl
@[simp] theorem modMast_homes (s : State) (m : MastId) (f : Mast → Mast) : (s.modMast m f).homes = s.homes := rfl
@[simp] theorem modMast_frees (s : State) (m : MastId) (f : Mast → Mast) : (s.modMast m f).frees = s.frees := rfl
@[simp] theorem modMast_resvs (s : State) (m : MastId) (f : Mast → Mast) : (s.modMast m f).resvs = s.resvs := rfl
@[simp] theorem modMast_tries (s : State) (m : MastId) (f : Mast → Mast) : (s.modMast m f).tries = s.tries := rfl
@[simp] theorem modMast_msgs (s : State) (m : MastId) (f : Mast → Mast) : (s.modMast m f).msgs = s.msgs := rfl
@[simp] theorem modMast_posts (s : State) (m : MastId) (f : Mast → Mast) : (s.modMast m f).posts = s.posts := rfl
@[simp] theorem modMast_acks (s : State) (m : MastId) (f : Mast → Mast) : (s.modMast m f).acks = s.acks := rfl
@[simp] theorem modMast_order (s : State) (m : MastId) (f : Mast → Mast) : (s.modMast m f).order = s.order := rfl
@[simp] theorem modMast_held (s : State) (m : MastId) (f : Mast → Mast) : (s.modMast m f).held = s.held := rfl
@[simp] theorem modMast_flts (s : State) (m : MastId) (f : Mast → Mast) : (s.modMast m f).flts = s.flts := rfl
@[simp] theorem modMast_nodeId (s : State) (m : MastId) (f : Mast → Mast) : (s.modMast m f).nodeId = s.nodeId := rfl
@[simp] theorem modMast_shrCfg (s : State) (m : MastId) (f : Mast → Mast) : (s.modMast m f).shrCfg = s.shrCfg := rfl
@[simp] theorem modMast_sports (s : State) (m : MastId) (f : Mast → Mast) : (s.modMast m f).sports = s.sports := rfl
@[simp] theorem modMast_sent (s : State) (m : MastId) (f : Mast → Mast) : (s.modMast m f).sent = s.sent := rfl
@[simp] theorem modMast_seenLost (s : State) (m : MastId) (f : Mast → Mast) : (s.modMast m f).seenLost = s.seenLost := rfl
@[simp] theorem modMast_jobs (s : State) (m : MastId) (f : Mast → Mast) : (s.modMast m f).jobs = s.jobs := rfl
@[simp] theorem modMast_chans (s : State) (m : MastId) (f : Mast → Mast) : (s.modMast m f).chans = s.chans := rfl
@[simp] theorem modMast_invs (s : State) (m : MastId) (f : Mast → Mast) : (s.modMast m f).invs = s.invs := rfl
@[simp] theorem modMast_invVa (s : State) (m : MastId) (f : Mast → Mast) : (s.modMast m f).invVa = s.invVa := rfl
@[simp] theorem modMast_invDone (s : State) (m : MastId) (f : Mast → Mast) : (s.modMast m f).invDone = s.invDone := rfl
@[simp] theorem modMast_invOvf (s : State) (m : MastId) (f : Mast → Mast) : (s.modMast m f).invOvf = s.invOvf := rfl
@[simp] theorem modMast_hosts (s : State) (m : MastId) (f : Mast → Mast) : (s.modMast m f).hosts = s.hosts := rfl
@[simp] theorem modMast_pow (s : State) (m : MastId) (f : Mast → Mast) : (s.modMast m f).pow = s.pow := rfl
@[simp] theorem modMast_snap (s : State) (m : MastId) (f : Mast → Mast) : (s.modMast m f).snap = s.snap := rfl
@[simp] theorem modMast_svc (s : State) (m : MastId) (f : Mast → Mast) : (s.modMast m f).svc = s.svc := rfl
@[simp] theorem modMast_boot (s : State) (m : MastId) (f : Mast → Mast) : (s.modMast m f).boot = s.boot := rfl
@[simp] theorem modMast_pending (s : State) (m : MastId) (f : Mast → Mast) : (s.modMast m f).pending = s.pending := rfl

/-! ### `modCore` -/

@[simp] theorem modCore_dies (s : State) (m : MastId) (f : Core → Core) : (s.modCore m f).dies = s.dies := rfl
@[simp] theorem modCore_ram (s : State) (m : MastId) (f : Core → Core) : (s.modCore m f).ram = s.ram := rfl
@[simp] theorem modCore_hbmPoison (s : State) (m : MastId) (f : Core → Core) : (s.modCore m f).hbmPoison = s.hbmPoison := rfl
@[simp] theorem modCore_hbmWq (s : State) (m : MastId) (f : Core → Core) : (s.modCore m f).hbmWq = s.hbmWq := rfl
@[simp] theorem modCore_hbmRef (s : State) (m : MastId) (f : Core → Core) : (s.modCore m f).hbmRef = s.hbmRef := rfl
@[simp] theorem modCore_canvasBad (s : State) (m : MastId) (f : Core → Core) : (s.modCore m f).canvasBad = s.canvasBad := rfl
@[simp] theorem modCore_upsets (s : State) (m : MastId) (f : Core → Core) : (s.modCore m f).upsets = s.upsets := rfl
@[simp] theorem modCore_check (s : State) (m : MastId) (f : Core → Core) : (s.modCore m f).check = s.check := rfl
@[simp] theorem modCore_making (s : State) (m : MastId) (f : Core → Core) : (s.modCore m f).making = s.making := rfl
@[simp] theorem modCore_homes (s : State) (m : MastId) (f : Core → Core) : (s.modCore m f).homes = s.homes := rfl
@[simp] theorem modCore_frees (s : State) (m : MastId) (f : Core → Core) : (s.modCore m f).frees = s.frees := rfl
@[simp] theorem modCore_resvs (s : State) (m : MastId) (f : Core → Core) : (s.modCore m f).resvs = s.resvs := rfl
@[simp] theorem modCore_tries (s : State) (m : MastId) (f : Core → Core) : (s.modCore m f).tries = s.tries := rfl
@[simp] theorem modCore_msgs (s : State) (m : MastId) (f : Core → Core) : (s.modCore m f).msgs = s.msgs := rfl
@[simp] theorem modCore_posts (s : State) (m : MastId) (f : Core → Core) : (s.modCore m f).posts = s.posts := rfl
@[simp] theorem modCore_acks (s : State) (m : MastId) (f : Core → Core) : (s.modCore m f).acks = s.acks := rfl
@[simp] theorem modCore_order (s : State) (m : MastId) (f : Core → Core) : (s.modCore m f).order = s.order := rfl
@[simp] theorem modCore_held (s : State) (m : MastId) (f : Core → Core) : (s.modCore m f).held = s.held := rfl
@[simp] theorem modCore_flts (s : State) (m : MastId) (f : Core → Core) : (s.modCore m f).flts = s.flts := rfl
@[simp] theorem modCore_nodeId (s : State) (m : MastId) (f : Core → Core) : (s.modCore m f).nodeId = s.nodeId := rfl
@[simp] theorem modCore_shrCfg (s : State) (m : MastId) (f : Core → Core) : (s.modCore m f).shrCfg = s.shrCfg := rfl
@[simp] theorem modCore_sports (s : State) (m : MastId) (f : Core → Core) : (s.modCore m f).sports = s.sports := rfl
@[simp] theorem modCore_sent (s : State) (m : MastId) (f : Core → Core) : (s.modCore m f).sent = s.sent := rfl
@[simp] theorem modCore_seenLost (s : State) (m : MastId) (f : Core → Core) : (s.modCore m f).seenLost = s.seenLost := rfl
@[simp] theorem modCore_jobs (s : State) (m : MastId) (f : Core → Core) : (s.modCore m f).jobs = s.jobs := rfl
@[simp] theorem modCore_chans (s : State) (m : MastId) (f : Core → Core) : (s.modCore m f).chans = s.chans := rfl
@[simp] theorem modCore_invs (s : State) (m : MastId) (f : Core → Core) : (s.modCore m f).invs = s.invs := rfl
@[simp] theorem modCore_invVa (s : State) (m : MastId) (f : Core → Core) : (s.modCore m f).invVa = s.invVa := rfl
@[simp] theorem modCore_invDone (s : State) (m : MastId) (f : Core → Core) : (s.modCore m f).invDone = s.invDone := rfl
@[simp] theorem modCore_invOvf (s : State) (m : MastId) (f : Core → Core) : (s.modCore m f).invOvf = s.invOvf := rfl
@[simp] theorem modCore_hosts (s : State) (m : MastId) (f : Core → Core) : (s.modCore m f).hosts = s.hosts := rfl
@[simp] theorem modCore_pow (s : State) (m : MastId) (f : Core → Core) : (s.modCore m f).pow = s.pow := rfl
@[simp] theorem modCore_snap (s : State) (m : MastId) (f : Core → Core) : (s.modCore m f).snap = s.snap := rfl
@[simp] theorem modCore_svc (s : State) (m : MastId) (f : Core → Core) : (s.modCore m f).svc = s.svc := rfl
@[simp] theorem modCore_boot (s : State) (m : MastId) (f : Core → Core) : (s.modCore m f).boot = s.boot := rfl
@[simp] theorem modCore_pending (s : State) (m : MastId) (f : Core → Core) : (s.modCore m f).pending = s.pending := rfl

/-! ### `modDc` -/

@[simp] theorem modDc_dies (s : State) (m : MastId) (f : DCache → DCache) : (s.modDc m f).dies = s.dies := rfl
@[simp] theorem modDc_ram (s : State) (m : MastId) (f : DCache → DCache) : (s.modDc m f).ram = s.ram := rfl
@[simp] theorem modDc_hbmPoison (s : State) (m : MastId) (f : DCache → DCache) : (s.modDc m f).hbmPoison = s.hbmPoison := rfl
@[simp] theorem modDc_hbmWq (s : State) (m : MastId) (f : DCache → DCache) : (s.modDc m f).hbmWq = s.hbmWq := rfl
@[simp] theorem modDc_hbmRef (s : State) (m : MastId) (f : DCache → DCache) : (s.modDc m f).hbmRef = s.hbmRef := rfl
@[simp] theorem modDc_canvasBad (s : State) (m : MastId) (f : DCache → DCache) : (s.modDc m f).canvasBad = s.canvasBad := rfl
@[simp] theorem modDc_upsets (s : State) (m : MastId) (f : DCache → DCache) : (s.modDc m f).upsets = s.upsets := rfl
@[simp] theorem modDc_check (s : State) (m : MastId) (f : DCache → DCache) : (s.modDc m f).check = s.check := rfl
@[simp] theorem modDc_making (s : State) (m : MastId) (f : DCache → DCache) : (s.modDc m f).making = s.making := rfl
@[simp] theorem modDc_homes (s : State) (m : MastId) (f : DCache → DCache) : (s.modDc m f).homes = s.homes := rfl
@[simp] theorem modDc_frees (s : State) (m : MastId) (f : DCache → DCache) : (s.modDc m f).frees = s.frees := rfl
@[simp] theorem modDc_resvs (s : State) (m : MastId) (f : DCache → DCache) : (s.modDc m f).resvs = s.resvs := rfl
@[simp] theorem modDc_tries (s : State) (m : MastId) (f : DCache → DCache) : (s.modDc m f).tries = s.tries := rfl
@[simp] theorem modDc_msgs (s : State) (m : MastId) (f : DCache → DCache) : (s.modDc m f).msgs = s.msgs := rfl
@[simp] theorem modDc_posts (s : State) (m : MastId) (f : DCache → DCache) : (s.modDc m f).posts = s.posts := rfl
@[simp] theorem modDc_acks (s : State) (m : MastId) (f : DCache → DCache) : (s.modDc m f).acks = s.acks := rfl
@[simp] theorem modDc_order (s : State) (m : MastId) (f : DCache → DCache) : (s.modDc m f).order = s.order := rfl
@[simp] theorem modDc_held (s : State) (m : MastId) (f : DCache → DCache) : (s.modDc m f).held = s.held := rfl
@[simp] theorem modDc_flts (s : State) (m : MastId) (f : DCache → DCache) : (s.modDc m f).flts = s.flts := rfl
@[simp] theorem modDc_nodeId (s : State) (m : MastId) (f : DCache → DCache) : (s.modDc m f).nodeId = s.nodeId := rfl
@[simp] theorem modDc_shrCfg (s : State) (m : MastId) (f : DCache → DCache) : (s.modDc m f).shrCfg = s.shrCfg := rfl
@[simp] theorem modDc_sports (s : State) (m : MastId) (f : DCache → DCache) : (s.modDc m f).sports = s.sports := rfl
@[simp] theorem modDc_sent (s : State) (m : MastId) (f : DCache → DCache) : (s.modDc m f).sent = s.sent := rfl
@[simp] theorem modDc_seenLost (s : State) (m : MastId) (f : DCache → DCache) : (s.modDc m f).seenLost = s.seenLost := rfl
@[simp] theorem modDc_jobs (s : State) (m : MastId) (f : DCache → DCache) : (s.modDc m f).jobs = s.jobs := rfl
@[simp] theorem modDc_chans (s : State) (m : MastId) (f : DCache → DCache) : (s.modDc m f).chans = s.chans := rfl
@[simp] theorem modDc_invs (s : State) (m : MastId) (f : DCache → DCache) : (s.modDc m f).invs = s.invs := rfl
@[simp] theorem modDc_invVa (s : State) (m : MastId) (f : DCache → DCache) : (s.modDc m f).invVa = s.invVa := rfl
@[simp] theorem modDc_invDone (s : State) (m : MastId) (f : DCache → DCache) : (s.modDc m f).invDone = s.invDone := rfl
@[simp] theorem modDc_invOvf (s : State) (m : MastId) (f : DCache → DCache) : (s.modDc m f).invOvf = s.invOvf := rfl
@[simp] theorem modDc_hosts (s : State) (m : MastId) (f : DCache → DCache) : (s.modDc m f).hosts = s.hosts := rfl
@[simp] theorem modDc_pow (s : State) (m : MastId) (f : DCache → DCache) : (s.modDc m f).pow = s.pow := rfl
@[simp] theorem modDc_snap (s : State) (m : MastId) (f : DCache → DCache) : (s.modDc m f).snap = s.snap := rfl
@[simp] theorem modDc_svc (s : State) (m : MastId) (f : DCache → DCache) : (s.modDc m f).svc = s.svc := rfl
@[simp] theorem modDc_boot (s : State) (m : MastId) (f : DCache → DCache) : (s.modDc m f).boot = s.boot := rfl
@[simp] theorem modDc_pending (s : State) (m : MastId) (f : DCache → DCache) : (s.modDc m f).pending = s.pending := rfl

/-! ### `modXl` -/

@[simp] theorem modXl_dies (s : State) (m : MastId) (f : Xl → Xl) : (s.modXl m f).dies = s.dies := rfl
@[simp] theorem modXl_ram (s : State) (m : MastId) (f : Xl → Xl) : (s.modXl m f).ram = s.ram := rfl
@[simp] theorem modXl_hbmPoison (s : State) (m : MastId) (f : Xl → Xl) : (s.modXl m f).hbmPoison = s.hbmPoison := rfl
@[simp] theorem modXl_hbmWq (s : State) (m : MastId) (f : Xl → Xl) : (s.modXl m f).hbmWq = s.hbmWq := rfl
@[simp] theorem modXl_hbmRef (s : State) (m : MastId) (f : Xl → Xl) : (s.modXl m f).hbmRef = s.hbmRef := rfl
@[simp] theorem modXl_canvasBad (s : State) (m : MastId) (f : Xl → Xl) : (s.modXl m f).canvasBad = s.canvasBad := rfl
@[simp] theorem modXl_upsets (s : State) (m : MastId) (f : Xl → Xl) : (s.modXl m f).upsets = s.upsets := rfl
@[simp] theorem modXl_check (s : State) (m : MastId) (f : Xl → Xl) : (s.modXl m f).check = s.check := rfl
@[simp] theorem modXl_making (s : State) (m : MastId) (f : Xl → Xl) : (s.modXl m f).making = s.making := rfl
@[simp] theorem modXl_homes (s : State) (m : MastId) (f : Xl → Xl) : (s.modXl m f).homes = s.homes := rfl
@[simp] theorem modXl_frees (s : State) (m : MastId) (f : Xl → Xl) : (s.modXl m f).frees = s.frees := rfl
@[simp] theorem modXl_resvs (s : State) (m : MastId) (f : Xl → Xl) : (s.modXl m f).resvs = s.resvs := rfl
@[simp] theorem modXl_tries (s : State) (m : MastId) (f : Xl → Xl) : (s.modXl m f).tries = s.tries := rfl
@[simp] theorem modXl_msgs (s : State) (m : MastId) (f : Xl → Xl) : (s.modXl m f).msgs = s.msgs := rfl
@[simp] theorem modXl_posts (s : State) (m : MastId) (f : Xl → Xl) : (s.modXl m f).posts = s.posts := rfl
@[simp] theorem modXl_acks (s : State) (m : MastId) (f : Xl → Xl) : (s.modXl m f).acks = s.acks := rfl
@[simp] theorem modXl_order (s : State) (m : MastId) (f : Xl → Xl) : (s.modXl m f).order = s.order := rfl
@[simp] theorem modXl_held (s : State) (m : MastId) (f : Xl → Xl) : (s.modXl m f).held = s.held := rfl
@[simp] theorem modXl_flts (s : State) (m : MastId) (f : Xl → Xl) : (s.modXl m f).flts = s.flts := rfl
@[simp] theorem modXl_nodeId (s : State) (m : MastId) (f : Xl → Xl) : (s.modXl m f).nodeId = s.nodeId := rfl
@[simp] theorem modXl_shrCfg (s : State) (m : MastId) (f : Xl → Xl) : (s.modXl m f).shrCfg = s.shrCfg := rfl
@[simp] theorem modXl_sports (s : State) (m : MastId) (f : Xl → Xl) : (s.modXl m f).sports = s.sports := rfl
@[simp] theorem modXl_sent (s : State) (m : MastId) (f : Xl → Xl) : (s.modXl m f).sent = s.sent := rfl
@[simp] theorem modXl_seenLost (s : State) (m : MastId) (f : Xl → Xl) : (s.modXl m f).seenLost = s.seenLost := rfl
@[simp] theorem modXl_jobs (s : State) (m : MastId) (f : Xl → Xl) : (s.modXl m f).jobs = s.jobs := rfl
@[simp] theorem modXl_chans (s : State) (m : MastId) (f : Xl → Xl) : (s.modXl m f).chans = s.chans := rfl
@[simp] theorem modXl_invs (s : State) (m : MastId) (f : Xl → Xl) : (s.modXl m f).invs = s.invs := rfl
@[simp] theorem modXl_invVa (s : State) (m : MastId) (f : Xl → Xl) : (s.modXl m f).invVa = s.invVa := rfl
@[simp] theorem modXl_invDone (s : State) (m : MastId) (f : Xl → Xl) : (s.modXl m f).invDone = s.invDone := rfl
@[simp] theorem modXl_invOvf (s : State) (m : MastId) (f : Xl → Xl) : (s.modXl m f).invOvf = s.invOvf := rfl
@[simp] theorem modXl_hosts (s : State) (m : MastId) (f : Xl → Xl) : (s.modXl m f).hosts = s.hosts := rfl
@[simp] theorem modXl_pow (s : State) (m : MastId) (f : Xl → Xl) : (s.modXl m f).pow = s.pow := rfl
@[simp] theorem modXl_snap (s : State) (m : MastId) (f : Xl → Xl) : (s.modXl m f).snap = s.snap := rfl
@[simp] theorem modXl_svc (s : State) (m : MastId) (f : Xl → Xl) : (s.modXl m f).svc = s.svc := rfl
@[simp] theorem modXl_boot (s : State) (m : MastId) (f : Xl → Xl) : (s.modXl m f).boot = s.boot := rfl
@[simp] theorem modXl_pending (s : State) (m : MastId) (f : Xl → Xl) : (s.modXl m f).pending = s.pending := rfl

/-! ### `modVec` -/

@[simp] theorem modVec_dies (s : State) (m : MastId) (f : Vec → Vec) : (s.modVec m f).dies = s.dies := rfl
@[simp] theorem modVec_ram (s : State) (m : MastId) (f : Vec → Vec) : (s.modVec m f).ram = s.ram := rfl
@[simp] theorem modVec_hbmPoison (s : State) (m : MastId) (f : Vec → Vec) : (s.modVec m f).hbmPoison = s.hbmPoison := rfl
@[simp] theorem modVec_hbmWq (s : State) (m : MastId) (f : Vec → Vec) : (s.modVec m f).hbmWq = s.hbmWq := rfl
@[simp] theorem modVec_hbmRef (s : State) (m : MastId) (f : Vec → Vec) : (s.modVec m f).hbmRef = s.hbmRef := rfl
@[simp] theorem modVec_canvasBad (s : State) (m : MastId) (f : Vec → Vec) : (s.modVec m f).canvasBad = s.canvasBad := rfl
@[simp] theorem modVec_upsets (s : State) (m : MastId) (f : Vec → Vec) : (s.modVec m f).upsets = s.upsets := rfl
@[simp] theorem modVec_check (s : State) (m : MastId) (f : Vec → Vec) : (s.modVec m f).check = s.check := rfl
@[simp] theorem modVec_making (s : State) (m : MastId) (f : Vec → Vec) : (s.modVec m f).making = s.making := rfl
@[simp] theorem modVec_homes (s : State) (m : MastId) (f : Vec → Vec) : (s.modVec m f).homes = s.homes := rfl
@[simp] theorem modVec_frees (s : State) (m : MastId) (f : Vec → Vec) : (s.modVec m f).frees = s.frees := rfl
@[simp] theorem modVec_resvs (s : State) (m : MastId) (f : Vec → Vec) : (s.modVec m f).resvs = s.resvs := rfl
@[simp] theorem modVec_tries (s : State) (m : MastId) (f : Vec → Vec) : (s.modVec m f).tries = s.tries := rfl
@[simp] theorem modVec_msgs (s : State) (m : MastId) (f : Vec → Vec) : (s.modVec m f).msgs = s.msgs := rfl
@[simp] theorem modVec_posts (s : State) (m : MastId) (f : Vec → Vec) : (s.modVec m f).posts = s.posts := rfl
@[simp] theorem modVec_acks (s : State) (m : MastId) (f : Vec → Vec) : (s.modVec m f).acks = s.acks := rfl
@[simp] theorem modVec_order (s : State) (m : MastId) (f : Vec → Vec) : (s.modVec m f).order = s.order := rfl
@[simp] theorem modVec_held (s : State) (m : MastId) (f : Vec → Vec) : (s.modVec m f).held = s.held := rfl
@[simp] theorem modVec_flts (s : State) (m : MastId) (f : Vec → Vec) : (s.modVec m f).flts = s.flts := rfl
@[simp] theorem modVec_nodeId (s : State) (m : MastId) (f : Vec → Vec) : (s.modVec m f).nodeId = s.nodeId := rfl
@[simp] theorem modVec_shrCfg (s : State) (m : MastId) (f : Vec → Vec) : (s.modVec m f).shrCfg = s.shrCfg := rfl
@[simp] theorem modVec_sports (s : State) (m : MastId) (f : Vec → Vec) : (s.modVec m f).sports = s.sports := rfl
@[simp] theorem modVec_sent (s : State) (m : MastId) (f : Vec → Vec) : (s.modVec m f).sent = s.sent := rfl
@[simp] theorem modVec_seenLost (s : State) (m : MastId) (f : Vec → Vec) : (s.modVec m f).seenLost = s.seenLost := rfl
@[simp] theorem modVec_jobs (s : State) (m : MastId) (f : Vec → Vec) : (s.modVec m f).jobs = s.jobs := rfl
@[simp] theorem modVec_chans (s : State) (m : MastId) (f : Vec → Vec) : (s.modVec m f).chans = s.chans := rfl
@[simp] theorem modVec_invs (s : State) (m : MastId) (f : Vec → Vec) : (s.modVec m f).invs = s.invs := rfl
@[simp] theorem modVec_invVa (s : State) (m : MastId) (f : Vec → Vec) : (s.modVec m f).invVa = s.invVa := rfl
@[simp] theorem modVec_invDone (s : State) (m : MastId) (f : Vec → Vec) : (s.modVec m f).invDone = s.invDone := rfl
@[simp] theorem modVec_invOvf (s : State) (m : MastId) (f : Vec → Vec) : (s.modVec m f).invOvf = s.invOvf := rfl
@[simp] theorem modVec_hosts (s : State) (m : MastId) (f : Vec → Vec) : (s.modVec m f).hosts = s.hosts := rfl
@[simp] theorem modVec_pow (s : State) (m : MastId) (f : Vec → Vec) : (s.modVec m f).pow = s.pow := rfl
@[simp] theorem modVec_snap (s : State) (m : MastId) (f : Vec → Vec) : (s.modVec m f).snap = s.snap := rfl
@[simp] theorem modVec_svc (s : State) (m : MastId) (f : Vec → Vec) : (s.modVec m f).svc = s.svc := rfl
@[simp] theorem modVec_boot (s : State) (m : MastId) (f : Vec → Vec) : (s.modVec m f).boot = s.boot := rfl
@[simp] theorem modVec_pending (s : State) (m : MastId) (f : Vec → Vec) : (s.modVec m f).pending = s.pending := rfl

/-! ### `modSheet` -/

@[simp] theorem modSheet_dies (s : State) (m : MastId) (f : Sheet → Sheet) : (s.modSheet m f).dies = s.dies := rfl
@[simp] theorem modSheet_ram (s : State) (m : MastId) (f : Sheet → Sheet) : (s.modSheet m f).ram = s.ram := rfl
@[simp] theorem modSheet_hbmPoison (s : State) (m : MastId) (f : Sheet → Sheet) : (s.modSheet m f).hbmPoison = s.hbmPoison := rfl
@[simp] theorem modSheet_hbmWq (s : State) (m : MastId) (f : Sheet → Sheet) : (s.modSheet m f).hbmWq = s.hbmWq := rfl
@[simp] theorem modSheet_hbmRef (s : State) (m : MastId) (f : Sheet → Sheet) : (s.modSheet m f).hbmRef = s.hbmRef := rfl
@[simp] theorem modSheet_canvasBad (s : State) (m : MastId) (f : Sheet → Sheet) : (s.modSheet m f).canvasBad = s.canvasBad := rfl
@[simp] theorem modSheet_upsets (s : State) (m : MastId) (f : Sheet → Sheet) : (s.modSheet m f).upsets = s.upsets := rfl
@[simp] theorem modSheet_check (s : State) (m : MastId) (f : Sheet → Sheet) : (s.modSheet m f).check = s.check := rfl
@[simp] theorem modSheet_making (s : State) (m : MastId) (f : Sheet → Sheet) : (s.modSheet m f).making = s.making := rfl
@[simp] theorem modSheet_homes (s : State) (m : MastId) (f : Sheet → Sheet) : (s.modSheet m f).homes = s.homes := rfl
@[simp] theorem modSheet_frees (s : State) (m : MastId) (f : Sheet → Sheet) : (s.modSheet m f).frees = s.frees := rfl
@[simp] theorem modSheet_resvs (s : State) (m : MastId) (f : Sheet → Sheet) : (s.modSheet m f).resvs = s.resvs := rfl
@[simp] theorem modSheet_tries (s : State) (m : MastId) (f : Sheet → Sheet) : (s.modSheet m f).tries = s.tries := rfl
@[simp] theorem modSheet_msgs (s : State) (m : MastId) (f : Sheet → Sheet) : (s.modSheet m f).msgs = s.msgs := rfl
@[simp] theorem modSheet_posts (s : State) (m : MastId) (f : Sheet → Sheet) : (s.modSheet m f).posts = s.posts := rfl
@[simp] theorem modSheet_acks (s : State) (m : MastId) (f : Sheet → Sheet) : (s.modSheet m f).acks = s.acks := rfl
@[simp] theorem modSheet_order (s : State) (m : MastId) (f : Sheet → Sheet) : (s.modSheet m f).order = s.order := rfl
@[simp] theorem modSheet_held (s : State) (m : MastId) (f : Sheet → Sheet) : (s.modSheet m f).held = s.held := rfl
@[simp] theorem modSheet_flts (s : State) (m : MastId) (f : Sheet → Sheet) : (s.modSheet m f).flts = s.flts := rfl
@[simp] theorem modSheet_nodeId (s : State) (m : MastId) (f : Sheet → Sheet) : (s.modSheet m f).nodeId = s.nodeId := rfl
@[simp] theorem modSheet_shrCfg (s : State) (m : MastId) (f : Sheet → Sheet) : (s.modSheet m f).shrCfg = s.shrCfg := rfl
@[simp] theorem modSheet_sports (s : State) (m : MastId) (f : Sheet → Sheet) : (s.modSheet m f).sports = s.sports := rfl
@[simp] theorem modSheet_sent (s : State) (m : MastId) (f : Sheet → Sheet) : (s.modSheet m f).sent = s.sent := rfl
@[simp] theorem modSheet_seenLost (s : State) (m : MastId) (f : Sheet → Sheet) : (s.modSheet m f).seenLost = s.seenLost := rfl
@[simp] theorem modSheet_jobs (s : State) (m : MastId) (f : Sheet → Sheet) : (s.modSheet m f).jobs = s.jobs := rfl
@[simp] theorem modSheet_chans (s : State) (m : MastId) (f : Sheet → Sheet) : (s.modSheet m f).chans = s.chans := rfl
@[simp] theorem modSheet_invs (s : State) (m : MastId) (f : Sheet → Sheet) : (s.modSheet m f).invs = s.invs := rfl
@[simp] theorem modSheet_invVa (s : State) (m : MastId) (f : Sheet → Sheet) : (s.modSheet m f).invVa = s.invVa := rfl
@[simp] theorem modSheet_invDone (s : State) (m : MastId) (f : Sheet → Sheet) : (s.modSheet m f).invDone = s.invDone := rfl
@[simp] theorem modSheet_invOvf (s : State) (m : MastId) (f : Sheet → Sheet) : (s.modSheet m f).invOvf = s.invOvf := rfl
@[simp] theorem modSheet_hosts (s : State) (m : MastId) (f : Sheet → Sheet) : (s.modSheet m f).hosts = s.hosts := rfl
@[simp] theorem modSheet_pow (s : State) (m : MastId) (f : Sheet → Sheet) : (s.modSheet m f).pow = s.pow := rfl
@[simp] theorem modSheet_snap (s : State) (m : MastId) (f : Sheet → Sheet) : (s.modSheet m f).snap = s.snap := rfl
@[simp] theorem modSheet_svc (s : State) (m : MastId) (f : Sheet → Sheet) : (s.modSheet m f).svc = s.svc := rfl
@[simp] theorem modSheet_boot (s : State) (m : MastId) (f : Sheet → Sheet) : (s.modSheet m f).boot = s.boot := rfl
@[simp] theorem modSheet_pending (s : State) (m : MastId) (f : Sheet → Sheet) : (s.modSheet m f).pending = s.pending := rfl

/-! ### `modHal` -/

@[simp] theorem modHal_dies (s : State) (m : MastId) (f : Hal → Hal) : (s.modHal m f).dies = s.dies := rfl
@[simp] theorem modHal_ram (s : State) (m : MastId) (f : Hal → Hal) : (s.modHal m f).ram = s.ram := rfl
@[simp] theorem modHal_hbmPoison (s : State) (m : MastId) (f : Hal → Hal) : (s.modHal m f).hbmPoison = s.hbmPoison := rfl
@[simp] theorem modHal_hbmWq (s : State) (m : MastId) (f : Hal → Hal) : (s.modHal m f).hbmWq = s.hbmWq := rfl
@[simp] theorem modHal_hbmRef (s : State) (m : MastId) (f : Hal → Hal) : (s.modHal m f).hbmRef = s.hbmRef := rfl
@[simp] theorem modHal_canvasBad (s : State) (m : MastId) (f : Hal → Hal) : (s.modHal m f).canvasBad = s.canvasBad := rfl
@[simp] theorem modHal_upsets (s : State) (m : MastId) (f : Hal → Hal) : (s.modHal m f).upsets = s.upsets := rfl
@[simp] theorem modHal_check (s : State) (m : MastId) (f : Hal → Hal) : (s.modHal m f).check = s.check := rfl
@[simp] theorem modHal_making (s : State) (m : MastId) (f : Hal → Hal) : (s.modHal m f).making = s.making := rfl
@[simp] theorem modHal_homes (s : State) (m : MastId) (f : Hal → Hal) : (s.modHal m f).homes = s.homes := rfl
@[simp] theorem modHal_frees (s : State) (m : MastId) (f : Hal → Hal) : (s.modHal m f).frees = s.frees := rfl
@[simp] theorem modHal_resvs (s : State) (m : MastId) (f : Hal → Hal) : (s.modHal m f).resvs = s.resvs := rfl
@[simp] theorem modHal_tries (s : State) (m : MastId) (f : Hal → Hal) : (s.modHal m f).tries = s.tries := rfl
@[simp] theorem modHal_msgs (s : State) (m : MastId) (f : Hal → Hal) : (s.modHal m f).msgs = s.msgs := rfl
@[simp] theorem modHal_posts (s : State) (m : MastId) (f : Hal → Hal) : (s.modHal m f).posts = s.posts := rfl
@[simp] theorem modHal_acks (s : State) (m : MastId) (f : Hal → Hal) : (s.modHal m f).acks = s.acks := rfl
@[simp] theorem modHal_order (s : State) (m : MastId) (f : Hal → Hal) : (s.modHal m f).order = s.order := rfl
@[simp] theorem modHal_held (s : State) (m : MastId) (f : Hal → Hal) : (s.modHal m f).held = s.held := rfl
@[simp] theorem modHal_flts (s : State) (m : MastId) (f : Hal → Hal) : (s.modHal m f).flts = s.flts := rfl
@[simp] theorem modHal_nodeId (s : State) (m : MastId) (f : Hal → Hal) : (s.modHal m f).nodeId = s.nodeId := rfl
@[simp] theorem modHal_shrCfg (s : State) (m : MastId) (f : Hal → Hal) : (s.modHal m f).shrCfg = s.shrCfg := rfl
@[simp] theorem modHal_sports (s : State) (m : MastId) (f : Hal → Hal) : (s.modHal m f).sports = s.sports := rfl
@[simp] theorem modHal_sent (s : State) (m : MastId) (f : Hal → Hal) : (s.modHal m f).sent = s.sent := rfl
@[simp] theorem modHal_seenLost (s : State) (m : MastId) (f : Hal → Hal) : (s.modHal m f).seenLost = s.seenLost := rfl
@[simp] theorem modHal_jobs (s : State) (m : MastId) (f : Hal → Hal) : (s.modHal m f).jobs = s.jobs := rfl
@[simp] theorem modHal_chans (s : State) (m : MastId) (f : Hal → Hal) : (s.modHal m f).chans = s.chans := rfl
@[simp] theorem modHal_invs (s : State) (m : MastId) (f : Hal → Hal) : (s.modHal m f).invs = s.invs := rfl
@[simp] theorem modHal_invVa (s : State) (m : MastId) (f : Hal → Hal) : (s.modHal m f).invVa = s.invVa := rfl
@[simp] theorem modHal_invDone (s : State) (m : MastId) (f : Hal → Hal) : (s.modHal m f).invDone = s.invDone := rfl
@[simp] theorem modHal_invOvf (s : State) (m : MastId) (f : Hal → Hal) : (s.modHal m f).invOvf = s.invOvf := rfl
@[simp] theorem modHal_hosts (s : State) (m : MastId) (f : Hal → Hal) : (s.modHal m f).hosts = s.hosts := rfl
@[simp] theorem modHal_pow (s : State) (m : MastId) (f : Hal → Hal) : (s.modHal m f).pow = s.pow := rfl
@[simp] theorem modHal_snap (s : State) (m : MastId) (f : Hal → Hal) : (s.modHal m f).snap = s.snap := rfl
@[simp] theorem modHal_svc (s : State) (m : MastId) (f : Hal → Hal) : (s.modHal m f).svc = s.svc := rfl
@[simp] theorem modHal_boot (s : State) (m : MastId) (f : Hal → Hal) : (s.modHal m f).boot = s.boot := rfl
@[simp] theorem modHal_pending (s : State) (m : MastId) (f : Hal → Hal) : (s.modHal m f).pending = s.pending := rfl

/-! ### `modArr` -/

@[simp] theorem modArr_dies (s : State) (m : MastId) (a : ArrId) (f : Arr → Arr) : (s.modArr m a f).dies = s.dies := rfl
@[simp] theorem modArr_ram (s : State) (m : MastId) (a : ArrId) (f : Arr → Arr) : (s.modArr m a f).ram = s.ram := rfl
@[simp] theorem modArr_hbmPoison (s : State) (m : MastId) (a : ArrId) (f : Arr → Arr) : (s.modArr m a f).hbmPoison = s.hbmPoison := rfl
@[simp] theorem modArr_hbmWq (s : State) (m : MastId) (a : ArrId) (f : Arr → Arr) : (s.modArr m a f).hbmWq = s.hbmWq := rfl
@[simp] theorem modArr_hbmRef (s : State) (m : MastId) (a : ArrId) (f : Arr → Arr) : (s.modArr m a f).hbmRef = s.hbmRef := rfl
@[simp] theorem modArr_canvasBad (s : State) (m : MastId) (a : ArrId) (f : Arr → Arr) : (s.modArr m a f).canvasBad = s.canvasBad := rfl
@[simp] theorem modArr_upsets (s : State) (m : MastId) (a : ArrId) (f : Arr → Arr) : (s.modArr m a f).upsets = s.upsets := rfl
@[simp] theorem modArr_check (s : State) (m : MastId) (a : ArrId) (f : Arr → Arr) : (s.modArr m a f).check = s.check := rfl
@[simp] theorem modArr_making (s : State) (m : MastId) (a : ArrId) (f : Arr → Arr) : (s.modArr m a f).making = s.making := rfl
@[simp] theorem modArr_homes (s : State) (m : MastId) (a : ArrId) (f : Arr → Arr) : (s.modArr m a f).homes = s.homes := rfl
@[simp] theorem modArr_frees (s : State) (m : MastId) (a : ArrId) (f : Arr → Arr) : (s.modArr m a f).frees = s.frees := rfl
@[simp] theorem modArr_resvs (s : State) (m : MastId) (a : ArrId) (f : Arr → Arr) : (s.modArr m a f).resvs = s.resvs := rfl
@[simp] theorem modArr_tries (s : State) (m : MastId) (a : ArrId) (f : Arr → Arr) : (s.modArr m a f).tries = s.tries := rfl
@[simp] theorem modArr_msgs (s : State) (m : MastId) (a : ArrId) (f : Arr → Arr) : (s.modArr m a f).msgs = s.msgs := rfl
@[simp] theorem modArr_posts (s : State) (m : MastId) (a : ArrId) (f : Arr → Arr) : (s.modArr m a f).posts = s.posts := rfl
@[simp] theorem modArr_acks (s : State) (m : MastId) (a : ArrId) (f : Arr → Arr) : (s.modArr m a f).acks = s.acks := rfl
@[simp] theorem modArr_order (s : State) (m : MastId) (a : ArrId) (f : Arr → Arr) : (s.modArr m a f).order = s.order := rfl
@[simp] theorem modArr_held (s : State) (m : MastId) (a : ArrId) (f : Arr → Arr) : (s.modArr m a f).held = s.held := rfl
@[simp] theorem modArr_flts (s : State) (m : MastId) (a : ArrId) (f : Arr → Arr) : (s.modArr m a f).flts = s.flts := rfl
@[simp] theorem modArr_nodeId (s : State) (m : MastId) (a : ArrId) (f : Arr → Arr) : (s.modArr m a f).nodeId = s.nodeId := rfl
@[simp] theorem modArr_shrCfg (s : State) (m : MastId) (a : ArrId) (f : Arr → Arr) : (s.modArr m a f).shrCfg = s.shrCfg := rfl
@[simp] theorem modArr_sports (s : State) (m : MastId) (a : ArrId) (f : Arr → Arr) : (s.modArr m a f).sports = s.sports := rfl
@[simp] theorem modArr_sent (s : State) (m : MastId) (a : ArrId) (f : Arr → Arr) : (s.modArr m a f).sent = s.sent := rfl
@[simp] theorem modArr_seenLost (s : State) (m : MastId) (a : ArrId) (f : Arr → Arr) : (s.modArr m a f).seenLost = s.seenLost := rfl
@[simp] theorem modArr_jobs (s : State) (m : MastId) (a : ArrId) (f : Arr → Arr) : (s.modArr m a f).jobs = s.jobs := rfl
@[simp] theorem modArr_chans (s : State) (m : MastId) (a : ArrId) (f : Arr → Arr) : (s.modArr m a f).chans = s.chans := rfl
@[simp] theorem modArr_invs (s : State) (m : MastId) (a : ArrId) (f : Arr → Arr) : (s.modArr m a f).invs = s.invs := rfl
@[simp] theorem modArr_invVa (s : State) (m : MastId) (a : ArrId) (f : Arr → Arr) : (s.modArr m a f).invVa = s.invVa := rfl
@[simp] theorem modArr_invDone (s : State) (m : MastId) (a : ArrId) (f : Arr → Arr) : (s.modArr m a f).invDone = s.invDone := rfl
@[simp] theorem modArr_invOvf (s : State) (m : MastId) (a : ArrId) (f : Arr → Arr) : (s.modArr m a f).invOvf = s.invOvf := rfl
@[simp] theorem modArr_hosts (s : State) (m : MastId) (a : ArrId) (f : Arr → Arr) : (s.modArr m a f).hosts = s.hosts := rfl
@[simp] theorem modArr_pow (s : State) (m : MastId) (a : ArrId) (f : Arr → Arr) : (s.modArr m a f).pow = s.pow := rfl
@[simp] theorem modArr_snap (s : State) (m : MastId) (a : ArrId) (f : Arr → Arr) : (s.modArr m a f).snap = s.snap := rfl
@[simp] theorem modArr_svc (s : State) (m : MastId) (a : ArrId) (f : Arr → Arr) : (s.modArr m a f).svc = s.svc := rfl
@[simp] theorem modArr_boot (s : State) (m : MastId) (a : ArrId) (f : Arr → Arr) : (s.modArr m a f).boot = s.boot := rfl
@[simp] theorem modArr_pending (s : State) (m : MastId) (a : ArrId) (f : Arr → Arr) : (s.modArr m a f).pending = s.pending := rfl

/-! ### `modDie` -/

@[simp] theorem modDie_masts (s : State) (d : DieId) (f : Die → Die) : (s.modDie d f).masts = s.masts := rfl
@[simp] theorem modDie_ram (s : State) (d : DieId) (f : Die → Die) : (s.modDie d f).ram = s.ram := rfl
@[simp] theorem modDie_hbmPoison (s : State) (d : DieId) (f : Die → Die) : (s.modDie d f).hbmPoison = s.hbmPoison := rfl
@[simp] theorem modDie_hbmWq (s : State) (d : DieId) (f : Die → Die) : (s.modDie d f).hbmWq = s.hbmWq := rfl
@[simp] theorem modDie_hbmRef (s : State) (d : DieId) (f : Die → Die) : (s.modDie d f).hbmRef = s.hbmRef := rfl
@[simp] theorem modDie_canvasBad (s : State) (d : DieId) (f : Die → Die) : (s.modDie d f).canvasBad = s.canvasBad := rfl
@[simp] theorem modDie_upsets (s : State) (d : DieId) (f : Die → Die) : (s.modDie d f).upsets = s.upsets := rfl
@[simp] theorem modDie_check (s : State) (d : DieId) (f : Die → Die) : (s.modDie d f).check = s.check := rfl
@[simp] theorem modDie_making (s : State) (d : DieId) (f : Die → Die) : (s.modDie d f).making = s.making := rfl
@[simp] theorem modDie_homes (s : State) (d : DieId) (f : Die → Die) : (s.modDie d f).homes = s.homes := rfl
@[simp] theorem modDie_frees (s : State) (d : DieId) (f : Die → Die) : (s.modDie d f).frees = s.frees := rfl
@[simp] theorem modDie_resvs (s : State) (d : DieId) (f : Die → Die) : (s.modDie d f).resvs = s.resvs := rfl
@[simp] theorem modDie_tries (s : State) (d : DieId) (f : Die → Die) : (s.modDie d f).tries = s.tries := rfl
@[simp] theorem modDie_msgs (s : State) (d : DieId) (f : Die → Die) : (s.modDie d f).msgs = s.msgs := rfl
@[simp] theorem modDie_posts (s : State) (d : DieId) (f : Die → Die) : (s.modDie d f).posts = s.posts := rfl
@[simp] theorem modDie_acks (s : State) (d : DieId) (f : Die → Die) : (s.modDie d f).acks = s.acks := rfl
@[simp] theorem modDie_order (s : State) (d : DieId) (f : Die → Die) : (s.modDie d f).order = s.order := rfl
@[simp] theorem modDie_held (s : State) (d : DieId) (f : Die → Die) : (s.modDie d f).held = s.held := rfl
@[simp] theorem modDie_flts (s : State) (d : DieId) (f : Die → Die) : (s.modDie d f).flts = s.flts := rfl
@[simp] theorem modDie_nodeId (s : State) (d : DieId) (f : Die → Die) : (s.modDie d f).nodeId = s.nodeId := rfl
@[simp] theorem modDie_shrCfg (s : State) (d : DieId) (f : Die → Die) : (s.modDie d f).shrCfg = s.shrCfg := rfl
@[simp] theorem modDie_sports (s : State) (d : DieId) (f : Die → Die) : (s.modDie d f).sports = s.sports := rfl
@[simp] theorem modDie_sent (s : State) (d : DieId) (f : Die → Die) : (s.modDie d f).sent = s.sent := rfl
@[simp] theorem modDie_seenLost (s : State) (d : DieId) (f : Die → Die) : (s.modDie d f).seenLost = s.seenLost := rfl
@[simp] theorem modDie_jobs (s : State) (d : DieId) (f : Die → Die) : (s.modDie d f).jobs = s.jobs := rfl
@[simp] theorem modDie_chans (s : State) (d : DieId) (f : Die → Die) : (s.modDie d f).chans = s.chans := rfl
@[simp] theorem modDie_invs (s : State) (d : DieId) (f : Die → Die) : (s.modDie d f).invs = s.invs := rfl
@[simp] theorem modDie_invVa (s : State) (d : DieId) (f : Die → Die) : (s.modDie d f).invVa = s.invVa := rfl
@[simp] theorem modDie_invDone (s : State) (d : DieId) (f : Die → Die) : (s.modDie d f).invDone = s.invDone := rfl
@[simp] theorem modDie_invOvf (s : State) (d : DieId) (f : Die → Die) : (s.modDie d f).invOvf = s.invOvf := rfl
@[simp] theorem modDie_hosts (s : State) (d : DieId) (f : Die → Die) : (s.modDie d f).hosts = s.hosts := rfl
@[simp] theorem modDie_pow (s : State) (d : DieId) (f : Die → Die) : (s.modDie d f).pow = s.pow := rfl
@[simp] theorem modDie_snap (s : State) (d : DieId) (f : Die → Die) : (s.modDie d f).snap = s.snap := rfl
@[simp] theorem modDie_svc (s : State) (d : DieId) (f : Die → Die) : (s.modDie d f).svc = s.svc := rfl
@[simp] theorem modDie_boot (s : State) (d : DieId) (f : Die → Die) : (s.modDie d f).boot = s.boot := rfl
@[simp] theorem modDie_pending (s : State) (d : DieId) (f : Die → Die) : (s.modDie d f).pending = s.pending := rfl

/-! ### `modJob` -/

@[simp] theorem modJob_masts (s : State) (j : JobSlot) (f : Job → Job) : (s.modJob j f).masts = s.masts := rfl
@[simp] theorem modJob_dies (s : State) (j : JobSlot) (f : Job → Job) : (s.modJob j f).dies = s.dies := rfl
@[simp] theorem modJob_ram (s : State) (j : JobSlot) (f : Job → Job) : (s.modJob j f).ram = s.ram := rfl
@[simp] theorem modJob_hbmPoison (s : State) (j : JobSlot) (f : Job → Job) : (s.modJob j f).hbmPoison = s.hbmPoison := rfl
@[simp] theorem modJob_hbmWq (s : State) (j : JobSlot) (f : Job → Job) : (s.modJob j f).hbmWq = s.hbmWq := rfl
@[simp] theorem modJob_hbmRef (s : State) (j : JobSlot) (f : Job → Job) : (s.modJob j f).hbmRef = s.hbmRef := rfl
@[simp] theorem modJob_canvasBad (s : State) (j : JobSlot) (f : Job → Job) : (s.modJob j f).canvasBad = s.canvasBad := rfl
@[simp] theorem modJob_upsets (s : State) (j : JobSlot) (f : Job → Job) : (s.modJob j f).upsets = s.upsets := rfl
@[simp] theorem modJob_check (s : State) (j : JobSlot) (f : Job → Job) : (s.modJob j f).check = s.check := rfl
@[simp] theorem modJob_making (s : State) (j : JobSlot) (f : Job → Job) : (s.modJob j f).making = s.making := rfl
@[simp] theorem modJob_homes (s : State) (j : JobSlot) (f : Job → Job) : (s.modJob j f).homes = s.homes := rfl
@[simp] theorem modJob_frees (s : State) (j : JobSlot) (f : Job → Job) : (s.modJob j f).frees = s.frees := rfl
@[simp] theorem modJob_resvs (s : State) (j : JobSlot) (f : Job → Job) : (s.modJob j f).resvs = s.resvs := rfl
@[simp] theorem modJob_tries (s : State) (j : JobSlot) (f : Job → Job) : (s.modJob j f).tries = s.tries := rfl
@[simp] theorem modJob_msgs (s : State) (j : JobSlot) (f : Job → Job) : (s.modJob j f).msgs = s.msgs := rfl
@[simp] theorem modJob_posts (s : State) (j : JobSlot) (f : Job → Job) : (s.modJob j f).posts = s.posts := rfl
@[simp] theorem modJob_acks (s : State) (j : JobSlot) (f : Job → Job) : (s.modJob j f).acks = s.acks := rfl
@[simp] theorem modJob_order (s : State) (j : JobSlot) (f : Job → Job) : (s.modJob j f).order = s.order := rfl
@[simp] theorem modJob_held (s : State) (j : JobSlot) (f : Job → Job) : (s.modJob j f).held = s.held := rfl
@[simp] theorem modJob_flts (s : State) (j : JobSlot) (f : Job → Job) : (s.modJob j f).flts = s.flts := rfl
@[simp] theorem modJob_nodeId (s : State) (j : JobSlot) (f : Job → Job) : (s.modJob j f).nodeId = s.nodeId := rfl
@[simp] theorem modJob_shrCfg (s : State) (j : JobSlot) (f : Job → Job) : (s.modJob j f).shrCfg = s.shrCfg := rfl
@[simp] theorem modJob_sports (s : State) (j : JobSlot) (f : Job → Job) : (s.modJob j f).sports = s.sports := rfl
@[simp] theorem modJob_sent (s : State) (j : JobSlot) (f : Job → Job) : (s.modJob j f).sent = s.sent := rfl
@[simp] theorem modJob_seenLost (s : State) (j : JobSlot) (f : Job → Job) : (s.modJob j f).seenLost = s.seenLost := rfl
@[simp] theorem modJob_chans (s : State) (j : JobSlot) (f : Job → Job) : (s.modJob j f).chans = s.chans := rfl
@[simp] theorem modJob_invs (s : State) (j : JobSlot) (f : Job → Job) : (s.modJob j f).invs = s.invs := rfl
@[simp] theorem modJob_invVa (s : State) (j : JobSlot) (f : Job → Job) : (s.modJob j f).invVa = s.invVa := rfl
@[simp] theorem modJob_invDone (s : State) (j : JobSlot) (f : Job → Job) : (s.modJob j f).invDone = s.invDone := rfl
@[simp] theorem modJob_invOvf (s : State) (j : JobSlot) (f : Job → Job) : (s.modJob j f).invOvf = s.invOvf := rfl
@[simp] theorem modJob_hosts (s : State) (j : JobSlot) (f : Job → Job) : (s.modJob j f).hosts = s.hosts := rfl
@[simp] theorem modJob_pow (s : State) (j : JobSlot) (f : Job → Job) : (s.modJob j f).pow = s.pow := rfl
@[simp] theorem modJob_snap (s : State) (j : JobSlot) (f : Job → Job) : (s.modJob j f).snap = s.snap := rfl
@[simp] theorem modJob_svc (s : State) (j : JobSlot) (f : Job → Job) : (s.modJob j f).svc = s.svc := rfl
@[simp] theorem modJob_boot (s : State) (j : JobSlot) (f : Job → Job) : (s.modJob j f).boot = s.boot := rfl
@[simp] theorem modJob_pending (s : State) (j : JobSlot) (f : Job → Job) : (s.modJob j f).pending = s.pending := rfl

/-! ### `modChan` -/

@[simp] theorem modChan_masts (s : State) (c : ChanId) (f : Chan → Chan) : (s.modChan c f).masts = s.masts := rfl
@[simp] theorem modChan_dies (s : State) (c : ChanId) (f : Chan → Chan) : (s.modChan c f).dies = s.dies := rfl
@[simp] theorem modChan_ram (s : State) (c : ChanId) (f : Chan → Chan) : (s.modChan c f).ram = s.ram := rfl
@[simp] theorem modChan_hbmPoison (s : State) (c : ChanId) (f : Chan → Chan) : (s.modChan c f).hbmPoison = s.hbmPoison := rfl
@[simp] theorem modChan_hbmWq (s : State) (c : ChanId) (f : Chan → Chan) : (s.modChan c f).hbmWq = s.hbmWq := rfl
@[simp] theorem modChan_hbmRef (s : State) (c : ChanId) (f : Chan → Chan) : (s.modChan c f).hbmRef = s.hbmRef := rfl
@[simp] theorem modChan_canvasBad (s : State) (c : ChanId) (f : Chan → Chan) : (s.modChan c f).canvasBad = s.canvasBad := rfl
@[simp] theorem modChan_upsets (s : State) (c : ChanId) (f : Chan → Chan) : (s.modChan c f).upsets = s.upsets := rfl
@[simp] theorem modChan_check (s : State) (c : ChanId) (f : Chan → Chan) : (s.modChan c f).check = s.check := rfl
@[simp] theorem modChan_making (s : State) (c : ChanId) (f : Chan → Chan) : (s.modChan c f).making = s.making := rfl
@[simp] theorem modChan_homes (s : State) (c : ChanId) (f : Chan → Chan) : (s.modChan c f).homes = s.homes := rfl
@[simp] theorem modChan_frees (s : State) (c : ChanId) (f : Chan → Chan) : (s.modChan c f).frees = s.frees := rfl
@[simp] theorem modChan_resvs (s : State) (c : ChanId) (f : Chan → Chan) : (s.modChan c f).resvs = s.resvs := rfl
@[simp] theorem modChan_tries (s : State) (c : ChanId) (f : Chan → Chan) : (s.modChan c f).tries = s.tries := rfl
@[simp] theorem modChan_msgs (s : State) (c : ChanId) (f : Chan → Chan) : (s.modChan c f).msgs = s.msgs := rfl
@[simp] theorem modChan_posts (s : State) (c : ChanId) (f : Chan → Chan) : (s.modChan c f).posts = s.posts := rfl
@[simp] theorem modChan_acks (s : State) (c : ChanId) (f : Chan → Chan) : (s.modChan c f).acks = s.acks := rfl
@[simp] theorem modChan_order (s : State) (c : ChanId) (f : Chan → Chan) : (s.modChan c f).order = s.order := rfl
@[simp] theorem modChan_held (s : State) (c : ChanId) (f : Chan → Chan) : (s.modChan c f).held = s.held := rfl
@[simp] theorem modChan_flts (s : State) (c : ChanId) (f : Chan → Chan) : (s.modChan c f).flts = s.flts := rfl
@[simp] theorem modChan_nodeId (s : State) (c : ChanId) (f : Chan → Chan) : (s.modChan c f).nodeId = s.nodeId := rfl
@[simp] theorem modChan_shrCfg (s : State) (c : ChanId) (f : Chan → Chan) : (s.modChan c f).shrCfg = s.shrCfg := rfl
@[simp] theorem modChan_sports (s : State) (c : ChanId) (f : Chan → Chan) : (s.modChan c f).sports = s.sports := rfl
@[simp] theorem modChan_sent (s : State) (c : ChanId) (f : Chan → Chan) : (s.modChan c f).sent = s.sent := rfl
@[simp] theorem modChan_seenLost (s : State) (c : ChanId) (f : Chan → Chan) : (s.modChan c f).seenLost = s.seenLost := rfl
@[simp] theorem modChan_jobs (s : State) (c : ChanId) (f : Chan → Chan) : (s.modChan c f).jobs = s.jobs := rfl
@[simp] theorem modChan_invs (s : State) (c : ChanId) (f : Chan → Chan) : (s.modChan c f).invs = s.invs := rfl
@[simp] theorem modChan_invVa (s : State) (c : ChanId) (f : Chan → Chan) : (s.modChan c f).invVa = s.invVa := rfl
@[simp] theorem modChan_invDone (s : State) (c : ChanId) (f : Chan → Chan) : (s.modChan c f).invDone = s.invDone := rfl
@[simp] theorem modChan_invOvf (s : State) (c : ChanId) (f : Chan → Chan) : (s.modChan c f).invOvf = s.invOvf := rfl
@[simp] theorem modChan_hosts (s : State) (c : ChanId) (f : Chan → Chan) : (s.modChan c f).hosts = s.hosts := rfl
@[simp] theorem modChan_pow (s : State) (c : ChanId) (f : Chan → Chan) : (s.modChan c f).pow = s.pow := rfl
@[simp] theorem modChan_snap (s : State) (c : ChanId) (f : Chan → Chan) : (s.modChan c f).snap = s.snap := rfl
@[simp] theorem modChan_svc (s : State) (c : ChanId) (f : Chan → Chan) : (s.modChan c f).svc = s.svc := rfl
@[simp] theorem modChan_boot (s : State) (c : ChanId) (f : Chan → Chan) : (s.modChan c f).boot = s.boot := rfl
@[simp] theorem modChan_pending (s : State) (c : ChanId) (f : Chan → Chan) : (s.modChan c f).pending = s.pending := rfl

/-! ### `modSport` -/

@[simp] theorem modSport_masts (s : State) (p : PortId) (f : SPort → SPort) : (s.modSport p f).masts = s.masts := rfl
@[simp] theorem modSport_dies (s : State) (p : PortId) (f : SPort → SPort) : (s.modSport p f).dies = s.dies := rfl
@[simp] theorem modSport_ram (s : State) (p : PortId) (f : SPort → SPort) : (s.modSport p f).ram = s.ram := rfl
@[simp] theorem modSport_hbmPoison (s : State) (p : PortId) (f : SPort → SPort) : (s.modSport p f).hbmPoison = s.hbmPoison := rfl
@[simp] theorem modSport_hbmWq (s : State) (p : PortId) (f : SPort → SPort) : (s.modSport p f).hbmWq = s.hbmWq := rfl
@[simp] theorem modSport_hbmRef (s : State) (p : PortId) (f : SPort → SPort) : (s.modSport p f).hbmRef = s.hbmRef := rfl
@[simp] theorem modSport_canvasBad (s : State) (p : PortId) (f : SPort → SPort) : (s.modSport p f).canvasBad = s.canvasBad := rfl
@[simp] theorem modSport_upsets (s : State) (p : PortId) (f : SPort → SPort) : (s.modSport p f).upsets = s.upsets := rfl
@[simp] theorem modSport_check (s : State) (p : PortId) (f : SPort → SPort) : (s.modSport p f).check = s.check := rfl
@[simp] theorem modSport_making (s : State) (p : PortId) (f : SPort → SPort) : (s.modSport p f).making = s.making := rfl
@[simp] theorem modSport_homes (s : State) (p : PortId) (f : SPort → SPort) : (s.modSport p f).homes = s.homes := rfl
@[simp] theorem modSport_frees (s : State) (p : PortId) (f : SPort → SPort) : (s.modSport p f).frees = s.frees := rfl
@[simp] theorem modSport_resvs (s : State) (p : PortId) (f : SPort → SPort) : (s.modSport p f).resvs = s.resvs := rfl
@[simp] theorem modSport_tries (s : State) (p : PortId) (f : SPort → SPort) : (s.modSport p f).tries = s.tries := rfl
@[simp] theorem modSport_msgs (s : State) (p : PortId) (f : SPort → SPort) : (s.modSport p f).msgs = s.msgs := rfl
@[simp] theorem modSport_posts (s : State) (p : PortId) (f : SPort → SPort) : (s.modSport p f).posts = s.posts := rfl
@[simp] theorem modSport_acks (s : State) (p : PortId) (f : SPort → SPort) : (s.modSport p f).acks = s.acks := rfl
@[simp] theorem modSport_order (s : State) (p : PortId) (f : SPort → SPort) : (s.modSport p f).order = s.order := rfl
@[simp] theorem modSport_held (s : State) (p : PortId) (f : SPort → SPort) : (s.modSport p f).held = s.held := rfl
@[simp] theorem modSport_flts (s : State) (p : PortId) (f : SPort → SPort) : (s.modSport p f).flts = s.flts := rfl
@[simp] theorem modSport_nodeId (s : State) (p : PortId) (f : SPort → SPort) : (s.modSport p f).nodeId = s.nodeId := rfl
@[simp] theorem modSport_shrCfg (s : State) (p : PortId) (f : SPort → SPort) : (s.modSport p f).shrCfg = s.shrCfg := rfl
@[simp] theorem modSport_sent (s : State) (p : PortId) (f : SPort → SPort) : (s.modSport p f).sent = s.sent := rfl
@[simp] theorem modSport_seenLost (s : State) (p : PortId) (f : SPort → SPort) : (s.modSport p f).seenLost = s.seenLost := rfl
@[simp] theorem modSport_jobs (s : State) (p : PortId) (f : SPort → SPort) : (s.modSport p f).jobs = s.jobs := rfl
@[simp] theorem modSport_chans (s : State) (p : PortId) (f : SPort → SPort) : (s.modSport p f).chans = s.chans := rfl
@[simp] theorem modSport_invs (s : State) (p : PortId) (f : SPort → SPort) : (s.modSport p f).invs = s.invs := rfl
@[simp] theorem modSport_invVa (s : State) (p : PortId) (f : SPort → SPort) : (s.modSport p f).invVa = s.invVa := rfl
@[simp] theorem modSport_invDone (s : State) (p : PortId) (f : SPort → SPort) : (s.modSport p f).invDone = s.invDone := rfl
@[simp] theorem modSport_invOvf (s : State) (p : PortId) (f : SPort → SPort) : (s.modSport p f).invOvf = s.invOvf := rfl
@[simp] theorem modSport_hosts (s : State) (p : PortId) (f : SPort → SPort) : (s.modSport p f).hosts = s.hosts := rfl
@[simp] theorem modSport_pow (s : State) (p : PortId) (f : SPort → SPort) : (s.modSport p f).pow = s.pow := rfl
@[simp] theorem modSport_snap (s : State) (p : PortId) (f : SPort → SPort) : (s.modSport p f).snap = s.snap := rfl
@[simp] theorem modSport_svc (s : State) (p : PortId) (f : SPort → SPort) : (s.modSport p f).svc = s.svc := rfl
@[simp] theorem modSport_boot (s : State) (p : PortId) (f : SPort → SPort) : (s.modSport p f).boot = s.boot := rfl
@[simp] theorem modSport_pending (s : State) (p : PortId) (f : SPort → SPort) : (s.modSport p f).pending = s.pending := rfl

/-! ### `modHosts` -/

@[simp] theorem modHosts_masts (s : State) (f : Hosts → Hosts) : (s.modHosts f).masts = s.masts := rfl
@[simp] theorem modHosts_dies (s : State) (f : Hosts → Hosts) : (s.modHosts f).dies = s.dies := rfl
@[simp] theorem modHosts_ram (s : State) (f : Hosts → Hosts) : (s.modHosts f).ram = s.ram := rfl
@[simp] theorem modHosts_hbmPoison (s : State) (f : Hosts → Hosts) : (s.modHosts f).hbmPoison = s.hbmPoison := rfl
@[simp] theorem modHosts_hbmWq (s : State) (f : Hosts → Hosts) : (s.modHosts f).hbmWq = s.hbmWq := rfl
@[simp] theorem modHosts_hbmRef (s : State) (f : Hosts → Hosts) : (s.modHosts f).hbmRef = s.hbmRef := rfl
@[simp] theorem modHosts_canvasBad (s : State) (f : Hosts → Hosts) : (s.modHosts f).canvasBad = s.canvasBad := rfl
@[simp] theorem modHosts_upsets (s : State) (f : Hosts → Hosts) : (s.modHosts f).upsets = s.upsets := rfl
@[simp] theorem modHosts_check (s : State) (f : Hosts → Hosts) : (s.modHosts f).check = s.check := rfl
@[simp] theorem modHosts_making (s : State) (f : Hosts → Hosts) : (s.modHosts f).making = s.making := rfl
@[simp] theorem modHosts_homes (s : State) (f : Hosts → Hosts) : (s.modHosts f).homes = s.homes := rfl
@[simp] theorem modHosts_frees (s : State) (f : Hosts → Hosts) : (s.modHosts f).frees = s.frees := rfl
@[simp] theorem modHosts_resvs (s : State) (f : Hosts → Hosts) : (s.modHosts f).resvs = s.resvs := rfl
@[simp] theorem modHosts_tries (s : State) (f : Hosts → Hosts) : (s.modHosts f).tries = s.tries := rfl
@[simp] theorem modHosts_msgs (s : State) (f : Hosts → Hosts) : (s.modHosts f).msgs = s.msgs := rfl
@[simp] theorem modHosts_posts (s : State) (f : Hosts → Hosts) : (s.modHosts f).posts = s.posts := rfl
@[simp] theorem modHosts_acks (s : State) (f : Hosts → Hosts) : (s.modHosts f).acks = s.acks := rfl
@[simp] theorem modHosts_order (s : State) (f : Hosts → Hosts) : (s.modHosts f).order = s.order := rfl
@[simp] theorem modHosts_held (s : State) (f : Hosts → Hosts) : (s.modHosts f).held = s.held := rfl
@[simp] theorem modHosts_flts (s : State) (f : Hosts → Hosts) : (s.modHosts f).flts = s.flts := rfl
@[simp] theorem modHosts_nodeId (s : State) (f : Hosts → Hosts) : (s.modHosts f).nodeId = s.nodeId := rfl
@[simp] theorem modHosts_shrCfg (s : State) (f : Hosts → Hosts) : (s.modHosts f).shrCfg = s.shrCfg := rfl
@[simp] theorem modHosts_sports (s : State) (f : Hosts → Hosts) : (s.modHosts f).sports = s.sports := rfl
@[simp] theorem modHosts_sent (s : State) (f : Hosts → Hosts) : (s.modHosts f).sent = s.sent := rfl
@[simp] theorem modHosts_seenLost (s : State) (f : Hosts → Hosts) : (s.modHosts f).seenLost = s.seenLost := rfl
@[simp] theorem modHosts_jobs (s : State) (f : Hosts → Hosts) : (s.modHosts f).jobs = s.jobs := rfl
@[simp] theorem modHosts_chans (s : State) (f : Hosts → Hosts) : (s.modHosts f).chans = s.chans := rfl
@[simp] theorem modHosts_invs (s : State) (f : Hosts → Hosts) : (s.modHosts f).invs = s.invs := rfl
@[simp] theorem modHosts_invVa (s : State) (f : Hosts → Hosts) : (s.modHosts f).invVa = s.invVa := rfl
@[simp] theorem modHosts_invDone (s : State) (f : Hosts → Hosts) : (s.modHosts f).invDone = s.invDone := rfl
@[simp] theorem modHosts_invOvf (s : State) (f : Hosts → Hosts) : (s.modHosts f).invOvf = s.invOvf := rfl
@[simp] theorem modHosts_pow (s : State) (f : Hosts → Hosts) : (s.modHosts f).pow = s.pow := rfl
@[simp] theorem modHosts_snap (s : State) (f : Hosts → Hosts) : (s.modHosts f).snap = s.snap := rfl
@[simp] theorem modHosts_svc (s : State) (f : Hosts → Hosts) : (s.modHosts f).svc = s.svc := rfl
@[simp] theorem modHosts_boot (s : State) (f : Hosts → Hosts) : (s.modHosts f).boot = s.boot := rfl
@[simp] theorem modHosts_pending (s : State) (f : Hosts → Hosts) : (s.modHosts f).pending = s.pending := rfl

/-! ### `modHport` -/

@[simp] theorem modHport_masts (s : State) (h : HostPort) (f : HPort → HPort) : (s.modHport h f).masts = s.masts := rfl
@[simp] theorem modHport_dies (s : State) (h : HostPort) (f : HPort → HPort) : (s.modHport h f).dies = s.dies := rfl
@[simp] theorem modHport_ram (s : State) (h : HostPort) (f : HPort → HPort) : (s.modHport h f).ram = s.ram := rfl
@[simp] theorem modHport_hbmPoison (s : State) (h : HostPort) (f : HPort → HPort) : (s.modHport h f).hbmPoison = s.hbmPoison := rfl
@[simp] theorem modHport_hbmWq (s : State) (h : HostPort) (f : HPort → HPort) : (s.modHport h f).hbmWq = s.hbmWq := rfl
@[simp] theorem modHport_hbmRef (s : State) (h : HostPort) (f : HPort → HPort) : (s.modHport h f).hbmRef = s.hbmRef := rfl
@[simp] theorem modHport_canvasBad (s : State) (h : HostPort) (f : HPort → HPort) : (s.modHport h f).canvasBad = s.canvasBad := rfl
@[simp] theorem modHport_upsets (s : State) (h : HostPort) (f : HPort → HPort) : (s.modHport h f).upsets = s.upsets := rfl
@[simp] theorem modHport_check (s : State) (h : HostPort) (f : HPort → HPort) : (s.modHport h f).check = s.check := rfl
@[simp] theorem modHport_making (s : State) (h : HostPort) (f : HPort → HPort) : (s.modHport h f).making = s.making := rfl
@[simp] theorem modHport_homes (s : State) (h : HostPort) (f : HPort → HPort) : (s.modHport h f).homes = s.homes := rfl
@[simp] theorem modHport_frees (s : State) (h : HostPort) (f : HPort → HPort) : (s.modHport h f).frees = s.frees := rfl
@[simp] theorem modHport_resvs (s : State) (h : HostPort) (f : HPort → HPort) : (s.modHport h f).resvs = s.resvs := rfl
@[simp] theorem modHport_tries (s : State) (h : HostPort) (f : HPort → HPort) : (s.modHport h f).tries = s.tries := rfl
@[simp] theorem modHport_msgs (s : State) (h : HostPort) (f : HPort → HPort) : (s.modHport h f).msgs = s.msgs := rfl
@[simp] theorem modHport_posts (s : State) (h : HostPort) (f : HPort → HPort) : (s.modHport h f).posts = s.posts := rfl
@[simp] theorem modHport_acks (s : State) (h : HostPort) (f : HPort → HPort) : (s.modHport h f).acks = s.acks := rfl
@[simp] theorem modHport_order (s : State) (h : HostPort) (f : HPort → HPort) : (s.modHport h f).order = s.order := rfl
@[simp] theorem modHport_held (s : State) (h : HostPort) (f : HPort → HPort) : (s.modHport h f).held = s.held := rfl
@[simp] theorem modHport_flts (s : State) (h : HostPort) (f : HPort → HPort) : (s.modHport h f).flts = s.flts := rfl
@[simp] theorem modHport_nodeId (s : State) (h : HostPort) (f : HPort → HPort) : (s.modHport h f).nodeId = s.nodeId := rfl
@[simp] theorem modHport_shrCfg (s : State) (h : HostPort) (f : HPort → HPort) : (s.modHport h f).shrCfg = s.shrCfg := rfl
@[simp] theorem modHport_sports (s : State) (h : HostPort) (f : HPort → HPort) : (s.modHport h f).sports = s.sports := rfl
@[simp] theorem modHport_sent (s : State) (h : HostPort) (f : HPort → HPort) : (s.modHport h f).sent = s.sent := rfl
@[simp] theorem modHport_seenLost (s : State) (h : HostPort) (f : HPort → HPort) : (s.modHport h f).seenLost = s.seenLost := rfl
@[simp] theorem modHport_jobs (s : State) (h : HostPort) (f : HPort → HPort) : (s.modHport h f).jobs = s.jobs := rfl
@[simp] theorem modHport_chans (s : State) (h : HostPort) (f : HPort → HPort) : (s.modHport h f).chans = s.chans := rfl
@[simp] theorem modHport_invs (s : State) (h : HostPort) (f : HPort → HPort) : (s.modHport h f).invs = s.invs := rfl
@[simp] theorem modHport_invVa (s : State) (h : HostPort) (f : HPort → HPort) : (s.modHport h f).invVa = s.invVa := rfl
@[simp] theorem modHport_invDone (s : State) (h : HostPort) (f : HPort → HPort) : (s.modHport h f).invDone = s.invDone := rfl
@[simp] theorem modHport_invOvf (s : State) (h : HostPort) (f : HPort → HPort) : (s.modHport h f).invOvf = s.invOvf := rfl
@[simp] theorem modHport_pow (s : State) (h : HostPort) (f : HPort → HPort) : (s.modHport h f).pow = s.pow := rfl
@[simp] theorem modHport_snap (s : State) (h : HostPort) (f : HPort → HPort) : (s.modHport h f).snap = s.snap := rfl
@[simp] theorem modHport_svc (s : State) (h : HostPort) (f : HPort → HPort) : (s.modHport h f).svc = s.svc := rfl
@[simp] theorem modHport_boot (s : State) (h : HostPort) (f : HPort → HPort) : (s.modHport h f).boot = s.boot := rfl
@[simp] theorem modHport_pending (s : State) (h : HostPort) (f : HPort → HPort) : (s.modHport h f).pending = s.pending := rfl

/-! ### `modFn` -/

@[simp] theorem modFn_masts (s : State) (k : FnId) (f : Fn → Fn) : (s.modFn k f).masts = s.masts := rfl
@[simp] theorem modFn_dies (s : State) (k : FnId) (f : Fn → Fn) : (s.modFn k f).dies = s.dies := rfl
@[simp] theorem modFn_ram (s : State) (k : FnId) (f : Fn → Fn) : (s.modFn k f).ram = s.ram := rfl
@[simp] theorem modFn_hbmPoison (s : State) (k : FnId) (f : Fn → Fn) : (s.modFn k f).hbmPoison = s.hbmPoison := rfl
@[simp] theorem modFn_hbmWq (s : State) (k : FnId) (f : Fn → Fn) : (s.modFn k f).hbmWq = s.hbmWq := rfl
@[simp] theorem modFn_hbmRef (s : State) (k : FnId) (f : Fn → Fn) : (s.modFn k f).hbmRef = s.hbmRef := rfl
@[simp] theorem modFn_canvasBad (s : State) (k : FnId) (f : Fn → Fn) : (s.modFn k f).canvasBad = s.canvasBad := rfl
@[simp] theorem modFn_upsets (s : State) (k : FnId) (f : Fn → Fn) : (s.modFn k f).upsets = s.upsets := rfl
@[simp] theorem modFn_check (s : State) (k : FnId) (f : Fn → Fn) : (s.modFn k f).check = s.check := rfl
@[simp] theorem modFn_making (s : State) (k : FnId) (f : Fn → Fn) : (s.modFn k f).making = s.making := rfl
@[simp] theorem modFn_homes (s : State) (k : FnId) (f : Fn → Fn) : (s.modFn k f).homes = s.homes := rfl
@[simp] theorem modFn_frees (s : State) (k : FnId) (f : Fn → Fn) : (s.modFn k f).frees = s.frees := rfl
@[simp] theorem modFn_resvs (s : State) (k : FnId) (f : Fn → Fn) : (s.modFn k f).resvs = s.resvs := rfl
@[simp] theorem modFn_tries (s : State) (k : FnId) (f : Fn → Fn) : (s.modFn k f).tries = s.tries := rfl
@[simp] theorem modFn_msgs (s : State) (k : FnId) (f : Fn → Fn) : (s.modFn k f).msgs = s.msgs := rfl
@[simp] theorem modFn_posts (s : State) (k : FnId) (f : Fn → Fn) : (s.modFn k f).posts = s.posts := rfl
@[simp] theorem modFn_acks (s : State) (k : FnId) (f : Fn → Fn) : (s.modFn k f).acks = s.acks := rfl
@[simp] theorem modFn_order (s : State) (k : FnId) (f : Fn → Fn) : (s.modFn k f).order = s.order := rfl
@[simp] theorem modFn_held (s : State) (k : FnId) (f : Fn → Fn) : (s.modFn k f).held = s.held := rfl
@[simp] theorem modFn_flts (s : State) (k : FnId) (f : Fn → Fn) : (s.modFn k f).flts = s.flts := rfl
@[simp] theorem modFn_nodeId (s : State) (k : FnId) (f : Fn → Fn) : (s.modFn k f).nodeId = s.nodeId := rfl
@[simp] theorem modFn_shrCfg (s : State) (k : FnId) (f : Fn → Fn) : (s.modFn k f).shrCfg = s.shrCfg := rfl
@[simp] theorem modFn_sports (s : State) (k : FnId) (f : Fn → Fn) : (s.modFn k f).sports = s.sports := rfl
@[simp] theorem modFn_sent (s : State) (k : FnId) (f : Fn → Fn) : (s.modFn k f).sent = s.sent := rfl
@[simp] theorem modFn_seenLost (s : State) (k : FnId) (f : Fn → Fn) : (s.modFn k f).seenLost = s.seenLost := rfl
@[simp] theorem modFn_jobs (s : State) (k : FnId) (f : Fn → Fn) : (s.modFn k f).jobs = s.jobs := rfl
@[simp] theorem modFn_chans (s : State) (k : FnId) (f : Fn → Fn) : (s.modFn k f).chans = s.chans := rfl
@[simp] theorem modFn_invs (s : State) (k : FnId) (f : Fn → Fn) : (s.modFn k f).invs = s.invs := rfl
@[simp] theorem modFn_invVa (s : State) (k : FnId) (f : Fn → Fn) : (s.modFn k f).invVa = s.invVa := rfl
@[simp] theorem modFn_invDone (s : State) (k : FnId) (f : Fn → Fn) : (s.modFn k f).invDone = s.invDone := rfl
@[simp] theorem modFn_invOvf (s : State) (k : FnId) (f : Fn → Fn) : (s.modFn k f).invOvf = s.invOvf := rfl
@[simp] theorem modFn_pow (s : State) (k : FnId) (f : Fn → Fn) : (s.modFn k f).pow = s.pow := rfl
@[simp] theorem modFn_snap (s : State) (k : FnId) (f : Fn → Fn) : (s.modFn k f).snap = s.snap := rfl
@[simp] theorem modFn_svc (s : State) (k : FnId) (f : Fn → Fn) : (s.modFn k f).svc = s.svc := rfl
@[simp] theorem modFn_boot (s : State) (k : FnId) (f : Fn → Fn) : (s.modFn k f).boot = s.boot := rfl
@[simp] theorem modFn_pending (s : State) (k : FnId) (f : Fn → Fn) : (s.modFn k f).pending = s.pending := rfl

/-! ### `modPow` -/

@[simp] theorem modPow_masts (s : State) (f : Power → Power) : (s.modPow f).masts = s.masts := rfl
@[simp] theorem modPow_dies (s : State) (f : Power → Power) : (s.modPow f).dies = s.dies := rfl
@[simp] theorem modPow_ram (s : State) (f : Power → Power) : (s.modPow f).ram = s.ram := rfl
@[simp] theorem modPow_hbmPoison (s : State) (f : Power → Power) : (s.modPow f).hbmPoison = s.hbmPoison := rfl
@[simp] theorem modPow_hbmWq (s : State) (f : Power → Power) : (s.modPow f).hbmWq = s.hbmWq := rfl
@[simp] theorem modPow_hbmRef (s : State) (f : Power → Power) : (s.modPow f).hbmRef = s.hbmRef := rfl
@[simp] theorem modPow_canvasBad (s : State) (f : Power → Power) : (s.modPow f).canvasBad = s.canvasBad := rfl
@[simp] theorem modPow_upsets (s : State) (f : Power → Power) : (s.modPow f).upsets = s.upsets := rfl
@[simp] theorem modPow_check (s : State) (f : Power → Power) : (s.modPow f).check = s.check := rfl
@[simp] theorem modPow_making (s : State) (f : Power → Power) : (s.modPow f).making = s.making := rfl
@[simp] theorem modPow_homes (s : State) (f : Power → Power) : (s.modPow f).homes = s.homes := rfl
@[simp] theorem modPow_frees (s : State) (f : Power → Power) : (s.modPow f).frees = s.frees := rfl
@[simp] theorem modPow_resvs (s : State) (f : Power → Power) : (s.modPow f).resvs = s.resvs := rfl
@[simp] theorem modPow_tries (s : State) (f : Power → Power) : (s.modPow f).tries = s.tries := rfl
@[simp] theorem modPow_msgs (s : State) (f : Power → Power) : (s.modPow f).msgs = s.msgs := rfl
@[simp] theorem modPow_posts (s : State) (f : Power → Power) : (s.modPow f).posts = s.posts := rfl
@[simp] theorem modPow_acks (s : State) (f : Power → Power) : (s.modPow f).acks = s.acks := rfl
@[simp] theorem modPow_order (s : State) (f : Power → Power) : (s.modPow f).order = s.order := rfl
@[simp] theorem modPow_held (s : State) (f : Power → Power) : (s.modPow f).held = s.held := rfl
@[simp] theorem modPow_flts (s : State) (f : Power → Power) : (s.modPow f).flts = s.flts := rfl
@[simp] theorem modPow_nodeId (s : State) (f : Power → Power) : (s.modPow f).nodeId = s.nodeId := rfl
@[simp] theorem modPow_shrCfg (s : State) (f : Power → Power) : (s.modPow f).shrCfg = s.shrCfg := rfl
@[simp] theorem modPow_sports (s : State) (f : Power → Power) : (s.modPow f).sports = s.sports := rfl
@[simp] theorem modPow_sent (s : State) (f : Power → Power) : (s.modPow f).sent = s.sent := rfl
@[simp] theorem modPow_seenLost (s : State) (f : Power → Power) : (s.modPow f).seenLost = s.seenLost := rfl
@[simp] theorem modPow_jobs (s : State) (f : Power → Power) : (s.modPow f).jobs = s.jobs := rfl
@[simp] theorem modPow_chans (s : State) (f : Power → Power) : (s.modPow f).chans = s.chans := rfl
@[simp] theorem modPow_invs (s : State) (f : Power → Power) : (s.modPow f).invs = s.invs := rfl
@[simp] theorem modPow_invVa (s : State) (f : Power → Power) : (s.modPow f).invVa = s.invVa := rfl
@[simp] theorem modPow_invDone (s : State) (f : Power → Power) : (s.modPow f).invDone = s.invDone := rfl
@[simp] theorem modPow_invOvf (s : State) (f : Power → Power) : (s.modPow f).invOvf = s.invOvf := rfl
@[simp] theorem modPow_hosts (s : State) (f : Power → Power) : (s.modPow f).hosts = s.hosts := rfl
@[simp] theorem modPow_snap (s : State) (f : Power → Power) : (s.modPow f).snap = s.snap := rfl
@[simp] theorem modPow_svc (s : State) (f : Power → Power) : (s.modPow f).svc = s.svc := rfl
@[simp] theorem modPow_boot (s : State) (f : Power → Power) : (s.modPow f).boot = s.boot := rfl
@[simp] theorem modPow_pending (s : State) (f : Power → Power) : (s.modPow f).pending = s.pending := rfl

/-! ### `modSnap` -/

@[simp] theorem modSnap_masts (s : State) (f : Snap → Snap) : (s.modSnap f).masts = s.masts := rfl
@[simp] theorem modSnap_dies (s : State) (f : Snap → Snap) : (s.modSnap f).dies = s.dies := rfl
@[simp] theorem modSnap_ram (s : State) (f : Snap → Snap) : (s.modSnap f).ram = s.ram := rfl
@[simp] theorem modSnap_hbmPoison (s : State) (f : Snap → Snap) : (s.modSnap f).hbmPoison = s.hbmPoison := rfl
@[simp] theorem modSnap_hbmWq (s : State) (f : Snap → Snap) : (s.modSnap f).hbmWq = s.hbmWq := rfl
@[simp] theorem modSnap_hbmRef (s : State) (f : Snap → Snap) : (s.modSnap f).hbmRef = s.hbmRef := rfl
@[simp] theorem modSnap_canvasBad (s : State) (f : Snap → Snap) : (s.modSnap f).canvasBad = s.canvasBad := rfl
@[simp] theorem modSnap_upsets (s : State) (f : Snap → Snap) : (s.modSnap f).upsets = s.upsets := rfl
@[simp] theorem modSnap_check (s : State) (f : Snap → Snap) : (s.modSnap f).check = s.check := rfl
@[simp] theorem modSnap_making (s : State) (f : Snap → Snap) : (s.modSnap f).making = s.making := rfl
@[simp] theorem modSnap_homes (s : State) (f : Snap → Snap) : (s.modSnap f).homes = s.homes := rfl
@[simp] theorem modSnap_frees (s : State) (f : Snap → Snap) : (s.modSnap f).frees = s.frees := rfl
@[simp] theorem modSnap_resvs (s : State) (f : Snap → Snap) : (s.modSnap f).resvs = s.resvs := rfl
@[simp] theorem modSnap_tries (s : State) (f : Snap → Snap) : (s.modSnap f).tries = s.tries := rfl
@[simp] theorem modSnap_msgs (s : State) (f : Snap → Snap) : (s.modSnap f).msgs = s.msgs := rfl
@[simp] theorem modSnap_posts (s : State) (f : Snap → Snap) : (s.modSnap f).posts = s.posts := rfl
@[simp] theorem modSnap_acks (s : State) (f : Snap → Snap) : (s.modSnap f).acks = s.acks := rfl
@[simp] theorem modSnap_order (s : State) (f : Snap → Snap) : (s.modSnap f).order = s.order := rfl
@[simp] theorem modSnap_held (s : State) (f : Snap → Snap) : (s.modSnap f).held = s.held := rfl
@[simp] theorem modSnap_flts (s : State) (f : Snap → Snap) : (s.modSnap f).flts = s.flts := rfl
@[simp] theorem modSnap_nodeId (s : State) (f : Snap → Snap) : (s.modSnap f).nodeId = s.nodeId := rfl
@[simp] theorem modSnap_shrCfg (s : State) (f : Snap → Snap) : (s.modSnap f).shrCfg = s.shrCfg := rfl
@[simp] theorem modSnap_sports (s : State) (f : Snap → Snap) : (s.modSnap f).sports = s.sports := rfl
@[simp] theorem modSnap_sent (s : State) (f : Snap → Snap) : (s.modSnap f).sent = s.sent := rfl
@[simp] theorem modSnap_seenLost (s : State) (f : Snap → Snap) : (s.modSnap f).seenLost = s.seenLost := rfl
@[simp] theorem modSnap_jobs (s : State) (f : Snap → Snap) : (s.modSnap f).jobs = s.jobs := rfl
@[simp] theorem modSnap_chans (s : State) (f : Snap → Snap) : (s.modSnap f).chans = s.chans := rfl
@[simp] theorem modSnap_invs (s : State) (f : Snap → Snap) : (s.modSnap f).invs = s.invs := rfl
@[simp] theorem modSnap_invVa (s : State) (f : Snap → Snap) : (s.modSnap f).invVa = s.invVa := rfl
@[simp] theorem modSnap_invDone (s : State) (f : Snap → Snap) : (s.modSnap f).invDone = s.invDone := rfl
@[simp] theorem modSnap_invOvf (s : State) (f : Snap → Snap) : (s.modSnap f).invOvf = s.invOvf := rfl
@[simp] theorem modSnap_hosts (s : State) (f : Snap → Snap) : (s.modSnap f).hosts = s.hosts := rfl
@[simp] theorem modSnap_pow (s : State) (f : Snap → Snap) : (s.modSnap f).pow = s.pow := rfl
@[simp] theorem modSnap_svc (s : State) (f : Snap → Snap) : (s.modSnap f).svc = s.svc := rfl
@[simp] theorem modSnap_boot (s : State) (f : Snap → Snap) : (s.modSnap f).boot = s.boot := rfl
@[simp] theorem modSnap_pending (s : State) (f : Snap → Snap) : (s.modSnap f).pending = s.pending := rfl

/-! ### `modSvc` -/

@[simp] theorem modSvc_masts (s : State) (f : Svc → Svc) : (s.modSvc f).masts = s.masts := rfl
@[simp] theorem modSvc_dies (s : State) (f : Svc → Svc) : (s.modSvc f).dies = s.dies := rfl
@[simp] theorem modSvc_ram (s : State) (f : Svc → Svc) : (s.modSvc f).ram = s.ram := rfl
@[simp] theorem modSvc_hbmPoison (s : State) (f : Svc → Svc) : (s.modSvc f).hbmPoison = s.hbmPoison := rfl
@[simp] theorem modSvc_hbmWq (s : State) (f : Svc → Svc) : (s.modSvc f).hbmWq = s.hbmWq := rfl
@[simp] theorem modSvc_hbmRef (s : State) (f : Svc → Svc) : (s.modSvc f).hbmRef = s.hbmRef := rfl
@[simp] theorem modSvc_canvasBad (s : State) (f : Svc → Svc) : (s.modSvc f).canvasBad = s.canvasBad := rfl
@[simp] theorem modSvc_upsets (s : State) (f : Svc → Svc) : (s.modSvc f).upsets = s.upsets := rfl
@[simp] theorem modSvc_check (s : State) (f : Svc → Svc) : (s.modSvc f).check = s.check := rfl
@[simp] theorem modSvc_making (s : State) (f : Svc → Svc) : (s.modSvc f).making = s.making := rfl
@[simp] theorem modSvc_homes (s : State) (f : Svc → Svc) : (s.modSvc f).homes = s.homes := rfl
@[simp] theorem modSvc_frees (s : State) (f : Svc → Svc) : (s.modSvc f).frees = s.frees := rfl
@[simp] theorem modSvc_resvs (s : State) (f : Svc → Svc) : (s.modSvc f).resvs = s.resvs := rfl
@[simp] theorem modSvc_tries (s : State) (f : Svc → Svc) : (s.modSvc f).tries = s.tries := rfl
@[simp] theorem modSvc_msgs (s : State) (f : Svc → Svc) : (s.modSvc f).msgs = s.msgs := rfl
@[simp] theorem modSvc_posts (s : State) (f : Svc → Svc) : (s.modSvc f).posts = s.posts := rfl
@[simp] theorem modSvc_acks (s : State) (f : Svc → Svc) : (s.modSvc f).acks = s.acks := rfl
@[simp] theorem modSvc_order (s : State) (f : Svc → Svc) : (s.modSvc f).order = s.order := rfl
@[simp] theorem modSvc_held (s : State) (f : Svc → Svc) : (s.modSvc f).held = s.held := rfl
@[simp] theorem modSvc_flts (s : State) (f : Svc → Svc) : (s.modSvc f).flts = s.flts := rfl
@[simp] theorem modSvc_nodeId (s : State) (f : Svc → Svc) : (s.modSvc f).nodeId = s.nodeId := rfl
@[simp] theorem modSvc_shrCfg (s : State) (f : Svc → Svc) : (s.modSvc f).shrCfg = s.shrCfg := rfl
@[simp] theorem modSvc_sports (s : State) (f : Svc → Svc) : (s.modSvc f).sports = s.sports := rfl
@[simp] theorem modSvc_sent (s : State) (f : Svc → Svc) : (s.modSvc f).sent = s.sent := rfl
@[simp] theorem modSvc_seenLost (s : State) (f : Svc → Svc) : (s.modSvc f).seenLost = s.seenLost := rfl
@[simp] theorem modSvc_jobs (s : State) (f : Svc → Svc) : (s.modSvc f).jobs = s.jobs := rfl
@[simp] theorem modSvc_chans (s : State) (f : Svc → Svc) : (s.modSvc f).chans = s.chans := rfl
@[simp] theorem modSvc_invs (s : State) (f : Svc → Svc) : (s.modSvc f).invs = s.invs := rfl
@[simp] theorem modSvc_invVa (s : State) (f : Svc → Svc) : (s.modSvc f).invVa = s.invVa := rfl
@[simp] theorem modSvc_invDone (s : State) (f : Svc → Svc) : (s.modSvc f).invDone = s.invDone := rfl
@[simp] theorem modSvc_invOvf (s : State) (f : Svc → Svc) : (s.modSvc f).invOvf = s.invOvf := rfl
@[simp] theorem modSvc_hosts (s : State) (f : Svc → Svc) : (s.modSvc f).hosts = s.hosts := rfl
@[simp] theorem modSvc_pow (s : State) (f : Svc → Svc) : (s.modSvc f).pow = s.pow := rfl
@[simp] theorem modSvc_snap (s : State) (f : Svc → Svc) : (s.modSvc f).snap = s.snap := rfl
@[simp] theorem modSvc_boot (s : State) (f : Svc → Svc) : (s.modSvc f).boot = s.boot := rfl
@[simp] theorem modSvc_pending (s : State) (f : Svc → Svc) : (s.modSvc f).pending = s.pending := rfl

/-! ### `modBoot` -/

@[simp] theorem modBoot_masts (s : State) (f : Boot → Boot) : (s.modBoot f).masts = s.masts := rfl
@[simp] theorem modBoot_dies (s : State) (f : Boot → Boot) : (s.modBoot f).dies = s.dies := rfl
@[simp] theorem modBoot_ram (s : State) (f : Boot → Boot) : (s.modBoot f).ram = s.ram := rfl
@[simp] theorem modBoot_hbmPoison (s : State) (f : Boot → Boot) : (s.modBoot f).hbmPoison = s.hbmPoison := rfl
@[simp] theorem modBoot_hbmWq (s : State) (f : Boot → Boot) : (s.modBoot f).hbmWq = s.hbmWq := rfl
@[simp] theorem modBoot_hbmRef (s : State) (f : Boot → Boot) : (s.modBoot f).hbmRef = s.hbmRef := rfl
@[simp] theorem modBoot_canvasBad (s : State) (f : Boot → Boot) : (s.modBoot f).canvasBad = s.canvasBad := rfl
@[simp] theorem modBoot_upsets (s : State) (f : Boot → Boot) : (s.modBoot f).upsets = s.upsets := rfl
@[simp] theorem modBoot_check (s : State) (f : Boot → Boot) : (s.modBoot f).check = s.check := rfl
@[simp] theorem modBoot_making (s : State) (f : Boot → Boot) : (s.modBoot f).making = s.making := rfl
@[simp] theorem modBoot_homes (s : State) (f : Boot → Boot) : (s.modBoot f).homes = s.homes := rfl
@[simp] theorem modBoot_frees (s : State) (f : Boot → Boot) : (s.modBoot f).frees = s.frees := rfl
@[simp] theorem modBoot_resvs (s : State) (f : Boot → Boot) : (s.modBoot f).resvs = s.resvs := rfl
@[simp] theorem modBoot_tries (s : State) (f : Boot → Boot) : (s.modBoot f).tries = s.tries := rfl
@[simp] theorem modBoot_msgs (s : State) (f : Boot → Boot) : (s.modBoot f).msgs = s.msgs := rfl
@[simp] theorem modBoot_posts (s : State) (f : Boot → Boot) : (s.modBoot f).posts = s.posts := rfl
@[simp] theorem modBoot_acks (s : State) (f : Boot → Boot) : (s.modBoot f).acks = s.acks := rfl
@[simp] theorem modBoot_order (s : State) (f : Boot → Boot) : (s.modBoot f).order = s.order := rfl
@[simp] theorem modBoot_held (s : State) (f : Boot → Boot) : (s.modBoot f).held = s.held := rfl
@[simp] theorem modBoot_flts (s : State) (f : Boot → Boot) : (s.modBoot f).flts = s.flts := rfl
@[simp] theorem modBoot_nodeId (s : State) (f : Boot → Boot) : (s.modBoot f).nodeId = s.nodeId := rfl
@[simp] theorem modBoot_shrCfg (s : State) (f : Boot → Boot) : (s.modBoot f).shrCfg = s.shrCfg := rfl
@[simp] theorem modBoot_sports (s : State) (f : Boot → Boot) : (s.modBoot f).sports = s.sports := rfl
@[simp] theorem modBoot_sent (s : State) (f : Boot → Boot) : (s.modBoot f).sent = s.sent := rfl
@[simp] theorem modBoot_seenLost (s : State) (f : Boot → Boot) : (s.modBoot f).seenLost = s.seenLost := rfl
@[simp] theorem modBoot_jobs (s : State) (f : Boot → Boot) : (s.modBoot f).jobs = s.jobs := rfl
@[simp] theorem modBoot_chans (s : State) (f : Boot → Boot) : (s.modBoot f).chans = s.chans := rfl
@[simp] theorem modBoot_invs (s : State) (f : Boot → Boot) : (s.modBoot f).invs = s.invs := rfl
@[simp] theorem modBoot_invVa (s : State) (f : Boot → Boot) : (s.modBoot f).invVa = s.invVa := rfl
@[simp] theorem modBoot_invDone (s : State) (f : Boot → Boot) : (s.modBoot f).invDone = s.invDone := rfl
@[simp] theorem modBoot_invOvf (s : State) (f : Boot → Boot) : (s.modBoot f).invOvf = s.invOvf := rfl
@[simp] theorem modBoot_hosts (s : State) (f : Boot → Boot) : (s.modBoot f).hosts = s.hosts := rfl
@[simp] theorem modBoot_pow (s : State) (f : Boot → Boot) : (s.modBoot f).pow = s.pow := rfl
@[simp] theorem modBoot_snap (s : State) (f : Boot → Boot) : (s.modBoot f).snap = s.snap := rfl
@[simp] theorem modBoot_svc (s : State) (f : Boot → Boot) : (s.modBoot f).svc = s.svc := rfl
@[simp] theorem modBoot_pending (s : State) (f : Boot → Boot) : (s.modBoot f).pending = s.pending := rfl

/-! ### Parts by number -/

@[simp] theorem setMast_mast_self (s : State) (m : MastId) (x : Mast) : (s.setMast m x).mast m = x := by
  simp [State.setMast, State.mast]

theorem setMast_mast_ne (s : State) {m n : MastId} (x : Mast) (h : n ≠ m) : (s.setMast m x).mast n = s.mast n := by
  simp [State.setMast, State.mast, vget_set_ne, h]

@[simp] theorem modMast_mast_self (s : State) (m : MastId) (f : Mast → Mast) : (s.modMast m f).mast m = f (s.mast m) := by
  simp [State.modMast]

theorem modMast_mast_ne (s : State) {m n : MastId} (f : Mast → Mast) (h : n ≠ m) : (s.modMast m f).mast n = s.mast n := by
  simp [State.modMast, setMast_mast_ne, h]

@[simp] theorem modCore_mast_self (s : State) (m : MastId) (f : Core → Core) :
    (s.modCore m f).mast m = { s.mast m with core := f (s.mast m).core } := by simp [State.modCore]

theorem modCore_mast_ne (s : State) {m n : MastId} (f : Core → Core) (h : n ≠ m) : (s.modCore m f).mast n = s.mast n := by
  simp [State.modCore, modMast_mast_ne, h]

@[simp] theorem modDc_mast_self (s : State) (m : MastId) (f : DCache → DCache) :
    (s.modDc m f).mast m = { s.mast m with dc := f (s.mast m).dc } := by simp [State.modDc]

theorem modDc_mast_ne (s : State) {m n : MastId} (f : DCache → DCache) (h : n ≠ m) : (s.modDc m f).mast n = s.mast n := by
  simp [State.modDc, modMast_mast_ne, h]

@[simp] theorem modXl_mast_self (s : State) (m : MastId) (f : Xl → Xl) :
    (s.modXl m f).mast m = { s.mast m with xl := f (s.mast m).xl } := by simp [State.modXl]

theorem modXl_mast_ne (s : State) {m n : MastId} (f : Xl → Xl) (h : n ≠ m) : (s.modXl m f).mast n = s.mast n := by
  simp [State.modXl, modMast_mast_ne, h]

@[simp] theorem modVec_mast_self (s : State) (m : MastId) (f : Vec → Vec) :
    (s.modVec m f).mast m = { s.mast m with vec := f (s.mast m).vec } := by simp [State.modVec]

theorem modVec_mast_ne (s : State) {m n : MastId} (f : Vec → Vec) (h : n ≠ m) : (s.modVec m f).mast n = s.mast n := by
  simp [State.modVec, modMast_mast_ne, h]

@[simp] theorem modSheet_mast_self (s : State) (m : MastId) (f : Sheet → Sheet) :
    (s.modSheet m f).mast m = { s.mast m with sheet := f (s.mast m).sheet } := by simp [State.modSheet]

theorem modSheet_mast_ne (s : State) {m n : MastId} (f : Sheet → Sheet) (h : n ≠ m) : (s.modSheet m f).mast n = s.mast n := by
  simp [State.modSheet, modMast_mast_ne, h]

@[simp] theorem modHal_mast_self (s : State) (m : MastId) (f : Hal → Hal) :
    (s.modHal m f).mast m = { s.mast m with hal := f (s.mast m).hal } := by simp [State.modHal]

theorem modHal_mast_ne (s : State) {m n : MastId} (f : Hal → Hal) (h : n ≠ m) : (s.modHal m f).mast n = s.mast n := by
  simp [State.modHal, modMast_mast_ne, h]

@[simp] theorem modDie_die_self (s : State) (i : DieId) (f : Die → Die) : (s.modDie i f).die i = f (s.die i) := by
  simp [State.modDie, State.die]

theorem modDie_die_ne (s : State) {i k : DieId} (f : Die → Die) (h : k ≠ i) : (s.modDie i f).die k = s.die k := by
  simp [State.modDie, State.die, vget_set_ne, h]

@[simp] theorem modJob_job_self (s : State) (i : JobSlot) (f : Job → Job) : (s.modJob i f).job i = f (s.job i) := by
  simp [State.modJob, State.job]

theorem modJob_job_ne (s : State) {i k : JobSlot} (f : Job → Job) (h : k ≠ i) : (s.modJob i f).job k = s.job k := by
  simp [State.modJob, State.job, vget_set_ne, h]

@[simp] theorem modChan_chan_self (s : State) (i : ChanId) (f : Chan → Chan) : (s.modChan i f).chan i = f (s.chan i) := by
  simp [State.modChan, State.chan]

theorem modChan_chan_ne (s : State) {i k : ChanId} (f : Chan → Chan) (h : k ≠ i) : (s.modChan i f).chan k = s.chan k := by
  simp [State.modChan, State.chan, vget_set_ne, h]

@[simp] theorem modSport_sport_self (s : State) (i : PortId) (f : SPort → SPort) : (s.modSport i f).sport i = f (s.sport i) := by
  simp [State.modSport, State.sport]

theorem modSport_sport_ne (s : State) {i k : PortId} (f : SPort → SPort) (h : k ≠ i) : (s.modSport i f).sport k = s.sport k := by
  simp [State.modSport, State.sport, vget_set_ne, h]

@[simp] theorem setMast_die (s : State) (m : MastId) (x : Mast) (d' : DieId) : (s.setMast m x).die d' = s.die d' := rfl
@[simp] theorem setMast_job (s : State) (m : MastId) (x : Mast) (j' : JobSlot) : (s.setMast m x).job j' = s.job j' := rfl
@[simp] theorem setMast_chan (s : State) (m : MastId) (x : Mast) (c' : ChanId) : (s.setMast m x).chan c' = s.chan c' := rfl
@[simp] theorem setMast_sport (s : State) (m : MastId) (x : Mast) (p' : PortId) : (s.setMast m x).sport p' = s.sport p' := rfl
@[simp] theorem modMast_die (s : State) (m : MastId) (f : Mast → Mast) (d' : DieId) : (s.modMast m f).die d' = s.die d' := rfl
@[simp] theorem modMast_job (s : State) (m : MastId) (f : Mast → Mast) (j' : JobSlot) : (s.modMast m f).job j' = s.job j' := rfl
@[simp] theorem modMast_chan (s : State) (m : MastId) (f : Mast → Mast) (c' : ChanId) : (s.modMast m f).chan c' = s.chan c' := rfl
@[simp] theorem modMast_sport (s : State) (m : MastId) (f : Mast → Mast) (p' : PortId) : (s.modMast m f).sport p' = s.sport p' := rfl
@[simp] theorem modCore_die (s : State) (m : MastId) (f : Core → Core) (d' : DieId) : (s.modCore m f).die d' = s.die d' := rfl
@[simp] theorem modCore_job (s : State) (m : MastId) (f : Core → Core) (j' : JobSlot) : (s.modCore m f).job j' = s.job j' := rfl
@[simp] theorem modCore_chan (s : State) (m : MastId) (f : Core → Core) (c' : ChanId) : (s.modCore m f).chan c' = s.chan c' := rfl
@[simp] theorem modCore_sport (s : State) (m : MastId) (f : Core → Core) (p' : PortId) : (s.modCore m f).sport p' = s.sport p' := rfl
@[simp] theorem modDc_die (s : State) (m : MastId) (f : DCache → DCache) (d' : DieId) : (s.modDc m f).die d' = s.die d' := rfl
@[simp] theorem modDc_job (s : State) (m : MastId) (f : DCache → DCache) (j' : JobSlot) : (s.modDc m f).job j' = s.job j' := rfl
@[simp] theorem modDc_chan (s : State) (m : MastId) (f : DCache → DCache) (c' : ChanId) : (s.modDc m f).chan c' = s.chan c' := rfl
@[simp] theorem modDc_sport (s : State) (m : MastId) (f : DCache → DCache) (p' : PortId) : (s.modDc m f).sport p' = s.sport p' := rfl
@[simp] theorem modXl_die (s : State) (m : MastId) (f : Xl → Xl) (d' : DieId) : (s.modXl m f).die d' = s.die d' := rfl
@[simp] theorem modXl_job (s : State) (m : MastId) (f : Xl → Xl) (j' : JobSlot) : (s.modXl m f).job j' = s.job j' := rfl
@[simp] theorem modXl_chan (s : State) (m : MastId) (f : Xl → Xl) (c' : ChanId) : (s.modXl m f).chan c' = s.chan c' := rfl
@[simp] theorem modXl_sport (s : State) (m : MastId) (f : Xl → Xl) (p' : PortId) : (s.modXl m f).sport p' = s.sport p' := rfl
@[simp] theorem modVec_die (s : State) (m : MastId) (f : Vec → Vec) (d' : DieId) : (s.modVec m f).die d' = s.die d' := rfl
@[simp] theorem modVec_job (s : State) (m : MastId) (f : Vec → Vec) (j' : JobSlot) : (s.modVec m f).job j' = s.job j' := rfl
@[simp] theorem modVec_chan (s : State) (m : MastId) (f : Vec → Vec) (c' : ChanId) : (s.modVec m f).chan c' = s.chan c' := rfl
@[simp] theorem modVec_sport (s : State) (m : MastId) (f : Vec → Vec) (p' : PortId) : (s.modVec m f).sport p' = s.sport p' := rfl
@[simp] theorem modSheet_die (s : State) (m : MastId) (f : Sheet → Sheet) (d' : DieId) : (s.modSheet m f).die d' = s.die d' := rfl
@[simp] theorem modSheet_job (s : State) (m : MastId) (f : Sheet → Sheet) (j' : JobSlot) : (s.modSheet m f).job j' = s.job j' := rfl
@[simp] theorem modSheet_chan (s : State) (m : MastId) (f : Sheet → Sheet) (c' : ChanId) : (s.modSheet m f).chan c' = s.chan c' := rfl
@[simp] theorem modSheet_sport (s : State) (m : MastId) (f : Sheet → Sheet) (p' : PortId) : (s.modSheet m f).sport p' = s.sport p' := rfl
@[simp] theorem modHal_die (s : State) (m : MastId) (f : Hal → Hal) (d' : DieId) : (s.modHal m f).die d' = s.die d' := rfl
@[simp] theorem modHal_job (s : State) (m : MastId) (f : Hal → Hal) (j' : JobSlot) : (s.modHal m f).job j' = s.job j' := rfl
@[simp] theorem modHal_chan (s : State) (m : MastId) (f : Hal → Hal) (c' : ChanId) : (s.modHal m f).chan c' = s.chan c' := rfl
@[simp] theorem modHal_sport (s : State) (m : MastId) (f : Hal → Hal) (p' : PortId) : (s.modHal m f).sport p' = s.sport p' := rfl
@[simp] theorem modArr_die (s : State) (m : MastId) (a : ArrId) (f : Arr → Arr) (d' : DieId) : (s.modArr m a f).die d' = s.die d' := rfl
@[simp] theorem modArr_job (s : State) (m : MastId) (a : ArrId) (f : Arr → Arr) (j' : JobSlot) : (s.modArr m a f).job j' = s.job j' := rfl
@[simp] theorem modArr_chan (s : State) (m : MastId) (a : ArrId) (f : Arr → Arr) (c' : ChanId) : (s.modArr m a f).chan c' = s.chan c' := rfl
@[simp] theorem modArr_sport (s : State) (m : MastId) (a : ArrId) (f : Arr → Arr) (p' : PortId) : (s.modArr m a f).sport p' = s.sport p' := rfl
@[simp] theorem modDie_mast (s : State) (d : DieId) (f : Die → Die) (m' : MastId) : (s.modDie d f).mast m' = s.mast m' := rfl
@[simp] theorem modDie_job (s : State) (d : DieId) (f : Die → Die) (j' : JobSlot) : (s.modDie d f).job j' = s.job j' := rfl
@[simp] theorem modDie_chan (s : State) (d : DieId) (f : Die → Die) (c' : ChanId) : (s.modDie d f).chan c' = s.chan c' := rfl
@[simp] theorem modDie_sport (s : State) (d : DieId) (f : Die → Die) (p' : PortId) : (s.modDie d f).sport p' = s.sport p' := rfl
@[simp] theorem modJob_mast (s : State) (j : JobSlot) (f : Job → Job) (m' : MastId) : (s.modJob j f).mast m' = s.mast m' := rfl
@[simp] theorem modJob_die (s : State) (j : JobSlot) (f : Job → Job) (d' : DieId) : (s.modJob j f).die d' = s.die d' := rfl
@[simp] theorem modJob_chan (s : State) (j : JobSlot) (f : Job → Job) (c' : ChanId) : (s.modJob j f).chan c' = s.chan c' := rfl
@[simp] theorem modJob_sport (s : State) (j : JobSlot) (f : Job → Job) (p' : PortId) : (s.modJob j f).sport p' = s.sport p' := rfl
@[simp] theorem modChan_mast (s : State) (c : ChanId) (f : Chan → Chan) (m' : MastId) : (s.modChan c f).mast m' = s.mast m' := rfl
@[simp] theorem modChan_die (s : State) (c : ChanId) (f : Chan → Chan) (d' : DieId) : (s.modChan c f).die d' = s.die d' := rfl
@[simp] theorem modChan_job (s : State) (c : ChanId) (f : Chan → Chan) (j' : JobSlot) : (s.modChan c f).job j' = s.job j' := rfl
@[simp] theorem modChan_sport (s : State) (c : ChanId) (f : Chan → Chan) (p' : PortId) : (s.modChan c f).sport p' = s.sport p' := rfl
@[simp] theorem modSport_mast (s : State) (p : PortId) (f : SPort → SPort) (m' : MastId) : (s.modSport p f).mast m' = s.mast m' := rfl
@[simp] theorem modSport_die (s : State) (p : PortId) (f : SPort → SPort) (d' : DieId) : (s.modSport p f).die d' = s.die d' := rfl
@[simp] theorem modSport_job (s : State) (p : PortId) (f : SPort → SPort) (j' : JobSlot) : (s.modSport p f).job j' = s.job j' := rfl
@[simp] theorem modSport_chan (s : State) (p : PortId) (f : SPort → SPort) (c' : ChanId) : (s.modSport p f).chan c' = s.chan c' := rfl
@[simp] theorem modHosts_mast (s : State) (f : Hosts → Hosts) (m' : MastId) : (s.modHosts f).mast m' = s.mast m' := rfl
@[simp] theorem modHosts_die (s : State) (f : Hosts → Hosts) (d' : DieId) : (s.modHosts f).die d' = s.die d' := rfl
@[simp] theorem modHosts_job (s : State) (f : Hosts → Hosts) (j' : JobSlot) : (s.modHosts f).job j' = s.job j' := rfl
@[simp] theorem modHosts_chan (s : State) (f : Hosts → Hosts) (c' : ChanId) : (s.modHosts f).chan c' = s.chan c' := rfl
@[simp] theorem modHosts_sport (s : State) (f : Hosts → Hosts) (p' : PortId) : (s.modHosts f).sport p' = s.sport p' := rfl
@[simp] theorem modHport_mast (s : State) (h : HostPort) (f : HPort → HPort) (m' : MastId) : (s.modHport h f).mast m' = s.mast m' := rfl
@[simp] theorem modHport_die (s : State) (h : HostPort) (f : HPort → HPort) (d' : DieId) : (s.modHport h f).die d' = s.die d' := rfl
@[simp] theorem modHport_job (s : State) (h : HostPort) (f : HPort → HPort) (j' : JobSlot) : (s.modHport h f).job j' = s.job j' := rfl
@[simp] theorem modHport_chan (s : State) (h : HostPort) (f : HPort → HPort) (c' : ChanId) : (s.modHport h f).chan c' = s.chan c' := rfl
@[simp] theorem modHport_sport (s : State) (h : HostPort) (f : HPort → HPort) (p' : PortId) : (s.modHport h f).sport p' = s.sport p' := rfl
@[simp] theorem modFn_mast (s : State) (k : FnId) (f : Fn → Fn) (m' : MastId) : (s.modFn k f).mast m' = s.mast m' := rfl
@[simp] theorem modFn_die (s : State) (k : FnId) (f : Fn → Fn) (d' : DieId) : (s.modFn k f).die d' = s.die d' := rfl
@[simp] theorem modFn_job (s : State) (k : FnId) (f : Fn → Fn) (j' : JobSlot) : (s.modFn k f).job j' = s.job j' := rfl
@[simp] theorem modFn_chan (s : State) (k : FnId) (f : Fn → Fn) (c' : ChanId) : (s.modFn k f).chan c' = s.chan c' := rfl
@[simp] theorem modFn_sport (s : State) (k : FnId) (f : Fn → Fn) (p' : PortId) : (s.modFn k f).sport p' = s.sport p' := rfl
@[simp] theorem modPow_mast (s : State) (f : Power → Power) (m' : MastId) : (s.modPow f).mast m' = s.mast m' := rfl
@[simp] theorem modPow_die (s : State) (f : Power → Power) (d' : DieId) : (s.modPow f).die d' = s.die d' := rfl
@[simp] theorem modPow_job (s : State) (f : Power → Power) (j' : JobSlot) : (s.modPow f).job j' = s.job j' := rfl
@[simp] theorem modPow_chan (s : State) (f : Power → Power) (c' : ChanId) : (s.modPow f).chan c' = s.chan c' := rfl
@[simp] theorem modPow_sport (s : State) (f : Power → Power) (p' : PortId) : (s.modPow f).sport p' = s.sport p' := rfl
@[simp] theorem modSnap_mast (s : State) (f : Snap → Snap) (m' : MastId) : (s.modSnap f).mast m' = s.mast m' := rfl
@[simp] theorem modSnap_die (s : State) (f : Snap → Snap) (d' : DieId) : (s.modSnap f).die d' = s.die d' := rfl
@[simp] theorem modSnap_job (s : State) (f : Snap → Snap) (j' : JobSlot) : (s.modSnap f).job j' = s.job j' := rfl
@[simp] theorem modSnap_chan (s : State) (f : Snap → Snap) (c' : ChanId) : (s.modSnap f).chan c' = s.chan c' := rfl
@[simp] theorem modSnap_sport (s : State) (f : Snap → Snap) (p' : PortId) : (s.modSnap f).sport p' = s.sport p' := rfl
@[simp] theorem modSvc_mast (s : State) (f : Svc → Svc) (m' : MastId) : (s.modSvc f).mast m' = s.mast m' := rfl
@[simp] theorem modSvc_die (s : State) (f : Svc → Svc) (d' : DieId) : (s.modSvc f).die d' = s.die d' := rfl
@[simp] theorem modSvc_job (s : State) (f : Svc → Svc) (j' : JobSlot) : (s.modSvc f).job j' = s.job j' := rfl
@[simp] theorem modSvc_chan (s : State) (f : Svc → Svc) (c' : ChanId) : (s.modSvc f).chan c' = s.chan c' := rfl
@[simp] theorem modSvc_sport (s : State) (f : Svc → Svc) (p' : PortId) : (s.modSvc f).sport p' = s.sport p' := rfl
@[simp] theorem modBoot_mast (s : State) (f : Boot → Boot) (m' : MastId) : (s.modBoot f).mast m' = s.mast m' := rfl
@[simp] theorem modBoot_die (s : State) (f : Boot → Boot) (d' : DieId) : (s.modBoot f).die d' = s.die d' := rfl
@[simp] theorem modBoot_job (s : State) (f : Boot → Boot) (j' : JobSlot) : (s.modBoot f).job j' = s.job j' := rfl
@[simp] theorem modBoot_chan (s : State) (f : Boot → Boot) (c' : ChanId) : (s.modBoot f).chan c' = s.chan c' := rfl
@[simp] theorem modBoot_sport (s : State) (f : Boot → Boot) (p' : PortId) : (s.modBoot f).sport p' = s.sport p' := rfl

/-! ### Updates in a row -/

@[simp] theorem setMast_setMast (s : State) (m : MastId) (x y : Mast) : (s.setMast m x).setMast m y = s.setMast m y := by
  simp [State.setMast]

theorem modMast_modMast (s : State) (m : MastId) (f g : Mast → Mast) : (s.modMast m f).modMast m g = s.modMast m fun x => g (f x) := by
  simp [State.modMast]

theorem modCore_modCore (s : State) (m : MastId) (f g : Core → Core) : (s.modCore m f).modCore m g = s.modCore m fun c => g (f c) := by
  simp [State.modCore, modMast_modMast]

@[simp] theorem setMast_mast (s : State) (m : MastId) : s.setMast m (s.mast m) = s := by
  unfold State.setMast State.mast
  rw [vset_get]

@[simp] theorem modCore_id (s : State) (m : MastId) : (s.modCore m fun c => c) = s := setMast_mast s m

end Sys2Proof.Machine
end

