-- ==== Sys2Proof/Laws/Keep.lean ====
section
/-!
SUPPORT. What the plain updates of the state keep: the invariant of the module, one lemma for each part that is changed, and for each way of
doing a thing for many parts.
-/

namespace Sys2Proof.Machine

/-! ## Lists of steps -/

/-- A property that every step keeps holds after a list of steps. -/
theorem fold_keeps {α σ : Type} {P : σ → Prop} {f : σ → α → σ} (hf : ∀ t x, P t → P (f t x)) : ∀ (l : List α) {s : σ}, P s → P (l.foldl f s)
  | [], _, h => h
  | x :: l, s, h => fold_keeps hf l (hf s x h)

theorem foldl_inv {α : Type} {f : State → α → State} {l : List α} {s : State} (h : s.Inv) (hf : ∀ (t : State) x, t.Inv → (f t x).Inv) :
    (l.foldl f s).Inv := fold_keeps hf l h

theorem foldl_fst_inv {α β : Type} {f : State × β → α → State × β} {l : List α} {s : State × β} (h : s.1.Inv)
    (hf : ∀ (t : State × β) x, t.1.Inv → (f t x).1.Inv) : (l.foldl f s).1.Inv := fold_keeps (P := fun t : State × β => t.1.Inv) hf l h

theorem eachMast_inv {f : MastId → State → State} {s : State} (h : s.Inv) (hf : ∀ m (t : State), t.Inv → (f m t).Inv) : (s.eachMast f).Inv :=
  foldl_inv h fun t m ht => hf m t ht

theorem eachJob_inv {f : JobSlot → State → State} {s : State} (h : s.Inv) (hf : ∀ m (t : State), t.Inv → (f m t).Inv) : (s.eachJob f).Inv :=
  foldl_inv h fun t m ht => hf m t ht

theorem eachChan_inv {f : ChanId → State → State} {s : State} (h : s.Inv) (hf : ∀ m (t : State), t.Inv → (f m t).Inv) : (s.eachChan f).Inv :=
  foldl_inv h fun t m ht => hf m t ht

/-! ## Parts of the state -/

theorem setMast_inv {s : State} {m : MastId} {x : Mast} (h : s.Inv) (hx : x.Ok) : (s.setMast m x).Inv :=
  { h with
    masts := fun k => by
      by_cases e : k = m
      · subst e; simpa using hx
      · simpa [State.mast, State.setMast, vget_set_ne _ _ _ e] using h.masts k }

theorem modMast_inv {s : State} {m : MastId} {f : Mast → Mast} (h : s.Inv) (hf : ∀ x : Mast, x.Ok → (f x).Ok) : (s.modMast m f).Inv :=
  setMast_inv h (hf _ (h.masts m))

theorem modCore_inv {s : State} {m : MastId} {f : Core → Core} (h : s.Inv) (hf : ∀ c : Core, c.Ok → (f c).Ok) : (s.modCore m f).Inv :=
  modMast_inv h fun _ hx => { hx with core := hf _ hx.core }

theorem modDc_inv {s : State} {m : MastId} {f : DCache → DCache} (h : s.Inv) : (s.modDc m f).Inv := modMast_inv h fun _ hx => { hx with }

theorem modXl_inv {s : State} {m : MastId} {f : Xl → Xl} (h : s.Inv) : (s.modXl m f).Inv := modMast_inv h fun _ hx => { hx with }

theorem modHal_inv {s : State} {m : MastId} {f : Hal → Hal} (h : s.Inv) : (s.modHal m f).Inv := modMast_inv h fun _ hx => { hx with }

theorem modArr_inv {s : State} {m : MastId} {a : ArrId} {f : Arr → Arr} (h : s.Inv) : (s.modArr m a f).Inv :=
  modMast_inv h fun _ hx => { hx with }

/-- The registers of a long-vector unit are in canonical form. -/
def Vec.Ok (v : Vec) : Prop := Sparse.wf v.vreg = true ∧ Sparse.wf v.kreg = true

theorem modVec_inv {s : State} {m : MastId} {f : Vec → Vec} (h : s.Inv) (hf : ∀ v : Vec, v.Ok → (f v).Ok) : (s.modVec m f).Inv :=
  modMast_inv h fun x hx => have k := hf x.vec ⟨hx.vreg, hx.kreg⟩; { hx with vreg := k.1, kreg := k.2 }

/-- The memories of a sheet engine are in canonical form. -/
def Sheet.Ok (x : Sheet) : Prop := x.hist.all Sparse.wf = true ∧ Sparse.wf x.breg = true

theorem modSheet_inv {s : State} {m : MastId} {f : Sheet → Sheet} (h : s.Inv) (hf : ∀ v : Sheet, v.Ok → (f v).Ok) : (s.modSheet m f).Inv :=
  modMast_inv h fun x hx => have k := hf x.sheet ⟨hx.hist, hx.breg⟩; { hx with hist := k.1, breg := k.2 }

/-- The counting fields of a die are in canonical form. -/
def Die.Ok (x : Die) : Prop := Sparse.wf x.cnt = true ∧ Sparse.wf x.shadow = true

theorem State.Inv.die {s : State} (h : s.Inv) (d : DieId) : (s.die d).Ok := ⟨h.dieCnt d, h.dieShadow d⟩

theorem modDie_inv {s : State} {d : DieId} {f : Die → Die} (h : s.Inv) (hf : ∀ x : Die, x.Ok → (f x).Ok) : (s.modDie d f).Inv := by
  have k : ∀ e : DieId, ((s.modDie d f).die e).Ok := fun e => by
    by_cases i : e = d
    · subst i; simpa using hf _ (h.die e)
    · simpa [State.die, State.modDie, vget_set_ne _ _ _ i] using h.die e
  exact { h with dieCnt := fun e => (k e).1, dieShadow := fun e => (k e).2 }

theorem modJob_inv {s : State} {j : JobSlot} {f : Job → Job} (h : s.Inv) (hf : ∀ x : Job, Sparse.wf x.bundles = true → Sparse.wf (f x).bundles = true) :
    (s.modJob j f).Inv :=
  { h with
    bundles := fun e => by
      by_cases i : e = j
      · subst i; simpa using hf _ (h.bundles e)
      · simpa [State.job, State.modJob, vget_set_ne _ _ _ i] using h.bundles e }

theorem modChan_inv {s : State} {c : ChanId} {f : Chan → Chan} (h : s.Inv) : (s.modChan c f).Inv := { h with }
theorem modSport_inv {s : State} {p : PortId} {f : SPort → SPort} (h : s.Inv) : (s.modSport p f).Inv := { h with }
theorem modPow_inv {s : State} {f : Power → Power} (h : s.Inv) : (s.modPow f).Inv := { h with }
theorem modSvc_inv {s : State} {f : Svc → Svc} (h : s.Inv) : (s.modSvc f).Inv := { h with }

/-- The host memory of a port is in canonical form. -/
def HPort.Ok (x : HPort) : Prop := Sparse.wf x.mem = true

theorem modHosts_inv {s : State} {f : Hosts → Hosts} (h : s.Inv) (hf : ∀ x : Hosts, (∀ p, (x.ports.get p).Ok) → ∀ p, ((f x).ports.get p).Ok) :
    (s.modHosts f).Inv := { h with hostMem := hf s.hosts h.hostMem }

theorem modHport_inv {s : State} {p : HostPort} {f : HPort → HPort} (h : s.Inv) (hf : ∀ x : HPort, x.Ok → (f x).Ok) : (s.modHport p f).Inv :=
  modHosts_inv h fun x hx q => by
    by_cases e : q = p
    · subst e; simpa using hf _ (hx q)
    · simpa [vget_set_ne _ _ _ e] using hx q

theorem modFn_inv {s : State} {i : FnId} {f : Fn → Fn} (h : s.Inv) : (s.modFn i f).Inv := modHport_inv h fun _ hx => hx

/-- The tables of a snapshot are in canonical form. -/
structure Snap.Ok (x : Snap) : Prop where
  infl : Sparse.wf x.infl = true
  cnt : Sparse.wf x.cnt = true
  shadow : Sparse.wf x.shadow = true

theorem modSnap_inv {s : State} {f : Snap → Snap} (h : s.Inv) (hf : ∀ x : Snap, x.Ok → (f x).Ok) : (s.modSnap f).Inv :=
  have k := hf s.snap ⟨h.infl, h.cnt, h.shadow⟩
  { h with infl := k.infl, cnt := k.cnt, shadow := k.shadow }

/-- The memories of the start-up are in canonical form. -/
structure Boot.Ok (x : Boot) : Prop where
  flash : Sparse.wf x.flash = true
  stageMem : Sparse.wf x.stageMem = true
  nonce : Sparse.wf x.nonce = true
  report : Sparse.wf x.report = true
  cert : Sparse.wf x.cert = true

theorem State.Inv.boot {s : State} (h : s.Inv) : s.boot.Ok := ⟨h.flash, h.stageMem, h.nonce, h.report, h.cert⟩

theorem modBoot_inv {s : State} {f : Boot → Boot} (h : s.Inv) (hf : ∀ x : Boot, x.Ok → (f x).Ok) : (s.modBoot f).Inv :=
  have k := hf s.boot h.boot
  { h with flash := k.flash, stageMem := k.stageMem, nonce := k.nonce, report := k.report, cert := k.cert }

/-! ## Updates of the whole record -/

/-- A record that takes the parts with memories from a state that meets the invariant meets it. -/
theorem mk_inv {s : State} {hbmPoison : List Nat} {hbmWq : List Line} {canvasBad : List Nat} {upsets : List Upset} {making : List Making}
    {homes : List HomeLine} {frees : Nat} {resvs : List Resv} {tries : List Attempt} {msgs : List Msg} {posts : List Post} {acks : List AckDue} {order : Nat}
    {held : List (SlotId × Post)} {flts : List FltMsg} {nodeId : BitVec 14} {shrCfg : ShrCfg} {sports : Vector SPort 16} {sent : List (PortId × OutMsg)}
    {seenLost : List (BitVec 14 × BitVec 14)} {chans : Vector Chan 64} {invs : List Inval} {invVa : BitVec 40} {invDone : Bool} {invOvf : Bool}
    {pow : Power} {svc : Svc} {pending : List Instr} (h : s.Inv) :
    (State.mk s.masts s.dies s.ram hbmPoison hbmWq s.hbmRef canvasBad upsets s.check making homes frees resvs tries msgs posts acks order held flts nodeId
    shrCfg sports sent seenLost s.jobs chans invs invVa invDone invOvf s.hosts pow s.snap svc s.boot pending).Inv := { h with }

/-- The same with another RAM in canonical form. -/
theorem mk_ram_inv {s : State} {ram : Mem} {hbmPoison : List Nat} {hbmWq : List Line} {canvasBad : List Nat} {upsets : List Upset} {making : List Making}
    {homes : List HomeLine} {frees : Nat} {resvs : List Resv} {tries : List Attempt} {msgs : List Msg} {posts : List Post} {acks : List AckDue} {order : Nat}
    {held : List (SlotId × Post)} {flts : List FltMsg} {nodeId : BitVec 14} {shrCfg : ShrCfg} {sports : Vector SPort 16} {sent : List (PortId × OutMsg)}
    {seenLost : List (BitVec 14 × BitVec 14)} {chans : Vector Chan 64} {invs : List Inval} {invVa : BitVec 40} {invDone : Bool} {invOvf : Bool}
    {pow : Power} {svc : Svc} {pending : List Instr} (h : s.Inv) (hr : Sparse.wf ram = true) :
    (State.mk s.masts s.dies ram hbmPoison hbmWq s.hbmRef canvasBad upsets s.check making homes frees resvs tries msgs posts acks order held flts nodeId
    shrCfg sports sent seenLost s.jobs chans invs invVa invDone invOvf s.hosts pow s.snap svc s.boot pending).Inv := { h with ram := hr }

/-- The same with other check entries in canonical form. -/
theorem mk_check_inv {s : State} {check : Tab} {hbmPoison : List Nat} {hbmWq : List Line} {canvasBad : List Nat} {upsets : List Upset} {making : List Making}
    {homes : List HomeLine} {frees : Nat} {resvs : List Resv} {tries : List Attempt} {msgs : List Msg} {posts : List Post} {acks : List AckDue} {order : Nat}
    {held : List (SlotId × Post)} {flts : List FltMsg} {nodeId : BitVec 14} {shrCfg : ShrCfg} {sports : Vector SPort 16} {sent : List (PortId × OutMsg)}
    {seenLost : List (BitVec 14 × BitVec 14)} {chans : Vector Chan 64} {invs : List Inval} {invVa : BitVec 40} {invDone : Bool} {invOvf : Bool}
    {pow : Power} {svc : Svc} {pending : List Instr} (h : s.Inv) (hc : Sparse.wf check = true) :
    (State.mk s.masts s.dies s.ram hbmPoison hbmWq s.hbmRef canvasBad upsets check making homes frees resvs tries msgs posts acks order held flts nodeId
    shrCfg sports sent seenLost s.jobs chans invs invVa invDone invOvf s.hosts pow s.snap svc s.boot pending).Inv := { h with check := hc }

/-- The same with both. -/
theorem mk_ram_check_inv {s : State} {ram : Mem} {check : Tab} {hbmPoison : List Nat} {hbmWq : List Line} {canvasBad : List Nat} {upsets : List Upset} {making : List Making}
    {homes : List HomeLine} {frees : Nat} {resvs : List Resv} {tries : List Attempt} {msgs : List Msg} {posts : List Post} {acks : List AckDue} {order : Nat}
    {held : List (SlotId × Post)} {flts : List FltMsg} {nodeId : BitVec 14} {shrCfg : ShrCfg} {sports : Vector SPort 16} {sent : List (PortId × OutMsg)}
    {seenLost : List (BitVec 14 × BitVec 14)} {chans : Vector Chan 64} {invs : List Inval} {invVa : BitVec 40} {invDone : Bool} {invOvf : Bool}
    {pow : Power} {svc : Svc} {pending : List Instr} (h : s.Inv)
    (hr : Sparse.wf ram = true) (hc : Sparse.wf check = true) :
    (State.mk s.masts s.dies ram hbmPoison hbmWq s.hbmRef canvasBad upsets check making homes frees resvs tries msgs posts acks order held flts nodeId
    shrCfg sports sent seenLost s.jobs chans invs invVa invDone invOvf s.hosts pow s.snap svc s.boot pending).Inv := { h with ram := hr, check := hc }

/-! ## Counting fields -/

theorem tab_satField_wf {t : Tab} {a lo w : Nat} (h : Sparse.wf t = true) : Sparse.wf (Tab.satField t a lo w) = true := sparse_set_wf _ _ _ h

theorem tab_satAdd_wf {t : Tab} {a lo w n : Nat} (h : Sparse.wf t = true) : Sparse.wf (Tab.satAdd t a lo w n) = true :=
  fold_keeps (P := fun t => Sparse.wf t = true) (fun _ _ ht => tab_satField_wf ht) _ h

theorem bump_inv {s : State} {m : MastId} {a : Nat} (h : s.Inv) : (s.bump m a).Inv := modMast_inv h fun _ hx => { hx with cnt := tab_inc_wf _ _ hx.cnt }
theorem bumpBy_inv {s : State} {m : MastId} {a n : Nat} (h : s.Inv) : (s.bumpBy m a n).Inv :=
  modMast_inv h fun _ hx => { hx with cnt := tab_add_wf _ _ _ hx.cnt }
theorem bumpDie_inv {s : State} {d : DieId} {a : Nat} (h : s.Inv) : (s.bumpDie d a).Inv := modDie_inv h fun _ hx => ⟨tab_inc_wf _ _ hx.1, hx.2⟩
theorem bumpMod_inv {s : State} {a : Nat} (h : s.Inv) : (s.bumpMod a).Inv := modSnap_inv h fun _ hx => { hx with cnt := tab_inc_wf _ _ hx.cnt }

end Sys2Proof.Machine
end

