-- ==== Sys2Proof/Laws/Ops.lean ====
section
/-!
SUPPORT. Every operation of Machine/Ops.lean keeps the invariant of the module.
-/

namespace Sys2Proof.Machine

theorem mend_inv {s : State} (hs : s.Inv) (p : Cell → Bool) : (s.mend p).Inv := by
  unfold State.mend
  repeat' first
    | with_reducible assumption | dsimp only | with_reducible apply mk_inv | (intro x hx; exact { hx with }) | (intro x hx; exact hx)
    | (intro x hx; exact ⟨hx.1, hx.2⟩)
    | (intro x hx; (try dsimp only); (repeat' split) <;> first | exact hx | exact { hx with } | exact ⟨hx.1, hx.2⟩) | intro

theorem setSlot_inv {s : State} (hs : s.Inv) (i : SlotId) (v : BitVec 8) : (s.setSlot i v).Inv := by
  unfold State.setSlot
  split
  · exact modMast_inv hs fun x hx => { hx with tok := sparse_set_wf _ _ _ hx.tok }
  · exact modChan_inv hs

theorem post_inv {s : State} (hs : s.Inv) (addr : BitVec 32) (src : Poster) (seq : Nat) : (s.post addr src seq).Inv := by
  unfold State.post
  repeat' first
    | with_reducible assumption | dsimp only | with_reducible apply mk_inv

theorem postFrom_inv {s : State} (hs : s.Inv) (m : MastId) (e : EngId) (addr : BitVec 32) : (s.postFrom m e addr).Inv := by
  unfold State.postFrom
  repeat' first
    | with_reducible assumption | with_reducible apply post_inv | dsimp only

theorem awaitAck_inv {s : State} (hs : s.Inv) (m : MastId) (e : EngId) (tag : Nat) (pa : BitVec 52) : (s.awaitAck m e tag pa).Inv := by
  unfold State.awaitAck
  repeat' first
    | with_reducible assumption | dsimp only | with_reducible apply mk_inv

theorem wake_inv {s : State} (hs : s.Inv) (m : MastId) (e : EngId) : (s.wake m e).Inv := modMast_inv hs fun _ hx => { hx with }

theorem landHeld_inv {s : State} (hs : s.Inv) (i : SlotId) : (s.landHeld i).Inv := by
  unfold State.landHeld
  repeat' first
    | with_reducible assumption | with_reducible apply setSlot_inv | dsimp only | split | with_reducible apply mk_inv
    | (intro x hx; exact { hx with }) | (intro x hx; exact hx) | (intro x hx; exact ⟨hx.1, hx.2⟩)
    | (intro x hx; (try dsimp only); (repeat' split) <;> first | exact hx | exact { hx with } | exact ⟨hx.1, hx.2⟩) | intro

theorem land_inv {s : State} (hs : s.Inv) (i : SlotId) (p : Post) : (s.land i p).Inv := by
  unfold State.land
  repeat' first
    | with_reducible assumption | with_reducible apply landHeld_inv | with_reducible apply setSlot_inv | dsimp only | split
    | with_reducible apply mk_inv

theorem consume_inv {s : State} (hs : s.Inv) (m : MastId) (is : List (Fin 96)) : (s.consume m is).Inv := by
  unfold State.consume
  repeat' first
    | with_reducible assumption | with_reducible apply foldl_inv | with_reducible apply setSlot_inv | with_reducible apply foldl_inv
    | with_reducible apply foldl_fst_inv | dsimp only | (intro x hx; exact { hx with }) | (intro x hx; exact hx) | (intro x hx; exact ⟨hx.1, hx.2⟩)
    | (intro x hx; (try dsimp only); (repeat' split) <;> first | exact hx | exact { hx with } | exact ⟨hx.1, hx.2⟩) | intro

theorem clearStall_inv {s : State} (hs : s.Inv) (m : MastId) (e : EngId) : (s.clearStall m e).Inv := by
  unfold State.clearStall
  repeat' first
    | with_reducible assumption | with_reducible apply modMast_inv | dsimp only | (intro x hx; exact { hx with }) | (intro x hx; exact hx)
    | (intro x hx; exact ⟨hx.1, hx.2⟩)
    | (intro x hx; (try dsimp only); (repeat' split) <;> first | exact hx | exact { hx with } | exact ⟨hx.1, hx.2⟩) | intro

theorem emit_inv {s : State} (hs : s.Inv) (p : PortId) (msg : OutMsg) : (s.emit p msg).Inv :=
  mk_inv (modSport_inv (modSnap_inv hs fun _ hx => { hx with cnt := tab_add_wf _ _ _ hx.cnt }))

theorem leaveBy_inv {s : State} (hs : s.Inv) (p : PortId) (w : Waiting) : (s.leaveBy p w).Inv := by
  unfold State.leaveBy
  repeat' first
    | with_reducible assumption | with_reducible apply emit_inv | with_reducible apply modSport_inv | dsimp only | split
    | (intro x hx; exact { hx with }) | (intro x hx; exact hx) | (intro x hx; exact ⟨hx.1, hx.2⟩)
    | (intro x hx; (try dsimp only); (repeat' split) <;> first | exact hx | exact { hx with } | exact ⟨hx.1, hx.2⟩) | intro

theorem pump_inv {s : State} (hs : s.Inv) (p : PortId) : (s.pump p).Inv := by
  unfold State.pump
  repeat' first
    | with_reducible assumption | with_reducible apply modSport_inv | with_reducible apply foldl_inv | with_reducible apply leaveBy_inv
    | with_reducible apply foldl_inv | with_reducible apply foldl_fst_inv | dsimp only | split | with_reducible apply mk_inv
    | (intro x hx; exact { hx with }) | (intro x hx; exact hx) | (intro x hx; exact ⟨hx.1, hx.2⟩)
    | (intro x hx; (try dsimp only); (repeat' split) <;> first | exact hx | exact { hx with } | exact ⟨hx.1, hx.2⟩) | intro

theorem sendOn_inv {s : State} (hs : s.Inv) (p : PortId) (k : Fin 3) (src : Option (PortId × Nat × Nat)) (msg : OutMsg) : (s.sendOn p k src msg).Inv := by
  unfold State.sendOn
  repeat' first
    | with_reducible assumption | with_reducible apply modSport_inv | with_reducible apply pump_inv | dsimp only | (intro x hx; exact { hx with })
    | (intro x hx; exact hx) | (intro x hx; exact ⟨hx.1, hx.2⟩)
    | (intro x hx; (try dsimp only); (repeat' split) <;> first | exact hx | exact { hx with } | exact ⟨hx.1, hx.2⟩) | intro

theorem sendTo_inv {s : State} (hs : s.Inv) (b : Word) (dst : BitVec 14) (plane : Nat) (k : Fin 3) (msg : OutMsg) : (s.sendTo b dst plane k msg).Inv := by
  unfold State.sendTo
  repeat' first
    | with_reducible assumption | with_reducible apply sendOn_inv | dsimp only

theorem flitsIn_inv {s : State} (hs : s.Inv) (plane : Fin 2) (node : BitVec 14) (jobid : BitVec 16) (n : Nat) : (s.flitsIn plane node jobid n).Inv := by
  unfold State.flitsIn
  exact modSnap_inv hs fun _ hx => { hx with cnt := tab_add_wf _ _ _ hx.cnt }

theorem reply_inv {s : State} (hs : s.Inv) (plane : Fin 2) (k : Fin 3) (node : BitVec 14) (jobid : BitVec 16) (msg : OutMsg) : (s.reply plane k node jobid msg).Inv := by
  unfold State.reply
  repeat' first
    | with_reducible assumption | with_reducible apply sendTo_inv | dsimp only

theorem refuse_inv {s : State} (hs : s.Inv) (plane : Fin 2) (k : Fin 3) (node : BitVec 14) (jobid : BitVec 16) : (s.refuse plane k node jobid).Inv := by
  unfold State.refuse
  repeat' first
    | with_reducible assumption | with_reducible apply reply_inv | dsimp only

theorem writeEvent_inv {s : State} (hs : s.Inv) (f : FnId) (t : EvType) (jobid : BitVec 16) (detail : List Byte) :
    (s.writeEvent f t jobid detail).Inv :=
  by
  unfold State.writeEvent
  exact modHport_inv (modFn_inv hs) fun _ hx => mem_put_wf _ _ _ hx

theorem event_inv {s : State} (hs : s.Inv) (f : FnId) (t : EvType) (jobid : BitVec 16) (detail : List Byte) : (s.event f t jobid detail).Inv := by
  unfold State.event
  repeat' first
    | with_reducible assumption | with_reducible apply modFn_inv | with_reducible apply writeEvent_inv | dsimp only | split
    | (intro x hx; exact { hx with }) | (intro x hx; exact hx) | (intro x hx; exact ⟨hx.1, hx.2⟩)
    | (intro x hx; (try dsimp only); (repeat' split) <;> first | exact hx | exact { hx with } | exact ⟨hx.1, hx.2⟩) | intro

theorem moduleEvent_inv {s : State} (hs : s.Inv) (t : EvType) (info : Nat) : (s.moduleEvent t info).Inv := by
  unfold State.moduleEvent
  repeat' first
    | with_reducible assumption | with_reducible apply event_inv | dsimp only

theorem jobEvent_inv {s : State} (hs : s.Inv) (j : JobSlot) (t : EvType) (detail : List Byte) : (s.jobEvent j t detail).Inv := by
  unfold State.jobEvent
  repeat' first
    | with_reducible assumption | with_reducible apply event_inv | dsimp only | split

theorem raiseBusy_inv {s : State} (hs : s.Inv) (h : HostPort) : (s.raiseBusy h).Inv := by
  unfold State.raiseBusy
  repeat' first
    | with_reducible assumption | with_reducible apply modHport_inv | dsimp only | (intro x hx; exact { hx with }) | (intro x hx; exact hx)
    | (intro x hx; exact ⟨hx.1, hx.2⟩)
    | (intro x hx; (try dsimp only); (repeat' split) <;> first | exact hx | exact { hx with } | exact ⟨hx.1, hx.2⟩) | intro

theorem raiseBusyBoth_inv {s : State} (hs : s.Inv)  : (s.raiseBusyBoth).Inv := by
  unfold State.raiseBusyBoth
  repeat' first
    | with_reducible assumption | with_reducible apply raiseBusy_inv | dsimp only

theorem jobFault_inv {s : State} (hs : s.Inv) (m : MastId) (e : Nat) (kind : Nat) : (s.jobFault m e kind).Inv := by
  unfold State.jobFault
  repeat' first
    | with_reducible assumption | with_reducible apply modCore_inv | dsimp only | with_reducible apply mk_inv | (intro x hx; exact { hx with })
    | (intro x hx; exact hx) | (intro x hx; exact ⟨hx.1, hx.2⟩)
    | (intro x hx; (try dsimp only); (repeat' split) <;> first | exact hx | exact { hx with } | exact ⟨hx.1, hx.2⟩) | intro

theorem answered_inv {s : State} (hs : s.Inv) (m : MastId) (e : EngId) (pa : BitVec 52) (jobid : BitVec 16) (refused : Bool) (n : Nat) :
    (s.answered m e pa jobid refused n).1.Inv := by
  unfold State.answered
  dsimp only
  split
  · exact jobFault_inv (flitsIn_inv hs _ _ _ _) _ _ _
  · exact flitsIn_inv hs _ _ _ _

theorem fenceJob_inv {s : State} (hs : s.Inv) (j : JobSlot) (reason : Nat) : (s.fenceJob j reason).Inv := by
  unfold State.fenceJob
  repeat' first
    | with_reducible assumption | with_reducible apply modJob_inv | with_reducible apply eachMast_inv | with_reducible apply modMast_inv
    | with_reducible apply modCore_inv | with_reducible apply eachChan_inv | with_reducible apply modChan_inv | with_reducible apply jobEvent_inv
    | dsimp only | split | with_reducible apply mk_inv | (intro x hx; exact { hx with }) | (intro x hx; exact hx) | (intro x hx; exact ⟨hx.1, hx.2⟩)
    | (intro x hx; (try dsimp only); (repeat' split) <;> first | exact hx | exact { hx with } | exact ⟨hx.1, hx.2⟩) | intro

theorem sendFenceNotices_inv {s : State} (hs : s.Inv) (j : JobSlot) (fromFault : Bool) : (s.sendFenceNotices j fromFault).Inv := by
  unfold State.sendFenceNotices
  repeat' first
    | with_reducible assumption | with_reducible apply foldl_inv | with_reducible apply sendTo_inv | with_reducible apply foldl_inv
    | with_reducible apply foldl_fst_inv | dsimp only | split | (intro x hx; exact { hx with }) | (intro x hx; exact hx)
    | (intro x hx; exact ⟨hx.1, hx.2⟩)
    | (intro x hx; (try dsimp only); (repeat' split) <;> first | exact hx | exact { hx with } | exact ⟨hx.1, hx.2⟩) | intro

theorem fenceWrite_inv {s : State} (hs : s.Inv) (j : JobSlot) (fromFault : Bool) : (s.fenceWrite j fromFault).Inv := by
  unfold State.fenceWrite
  repeat' first
    | with_reducible assumption | with_reducible apply fenceJob_inv | with_reducible apply sendFenceNotices_inv | dsimp only | split

theorem recordFault_inv {s : State} (hs : s.Inv) (j : JobSlot) (mast : Nat) (e : Nat) (kind : Nat) : (s.recordFault j mast e kind).Inv := by
  unfold State.recordFault
  repeat' first
    | with_reducible assumption | with_reducible apply modJob_inv | with_reducible apply jobEvent_inv | with_reducible apply jobFault_inv
    | dsimp only | split | (intro x hx; exact { hx with }) | (intro x hx; exact hx) | (intro x hx; exact ⟨hx.1, hx.2⟩)
    | (intro x hx; (try dsimp only); (repeat' split) <;> first | exact hx | exact { hx with } | exact ⟨hx.1, hx.2⟩) | intro

theorem moduleFault_inv {s : State} (hs : s.Inv) (j : JobSlot) (kind : Nat) : (s.moduleFault j kind).Inv := by
  unfold State.moduleFault
  repeat' first
    | with_reducible assumption | with_reducible apply recordFault_inv | dsimp only | split

theorem faultAllJobs_inv {s : State} (hs : s.Inv) (kind : Nat) : (s.faultAllJobs kind).Inv := by
  unfold State.faultAllJobs
  repeat' first
    | with_reducible assumption | with_reducible apply eachJob_inv | with_reducible apply moduleFault_inv | with_reducible apply fenceWrite_inv
    | dsimp only | split | (intro x hx; exact { hx with }) | (intro x hx; exact hx) | (intro x hx; exact ⟨hx.1, hx.2⟩)
    | (intro x hx; (try dsimp only); (repeat' split) <;> first | exact hx | exact { hx with } | exact ⟨hx.1, hx.2⟩) | intro

end Sys2Proof.Machine
end

