-- ==== Sys2Proof/Laws/Startup.lean ====
section
/-!
SUPPORT. Every operation of Machine/Startup.lean keeps the invariant of the module.
-/

namespace Sys2Proof.Machine

theorem hport_map_ok {x : Hosts} {f : HPort → HPort} (h : ∀ p, (x.ports.get p).Ok) (hf : ∀ y : HPort, y.Ok → (f y).Ok) (p : HostPort) :
    ((x.ports.map f).get p).Ok := by
  simpa using hf _ (h p)

theorem mast_reset_ok : Mast.reset.Ok where
  core := ⟨rfl, rfl, rfl, rfl, Or.inl ⟨by decide, by decide⟩⟩
  vreg := rfl
  kreg := rfl
  tok := rfl
  bankMem := rfl
  rowmap := rfl
  hist := rfl
  breg := rfl
  tiles := fun i => by simp [Mast.reset, Tile.reset, Sparse.wf]
  cnt := rfl
  shadow := rfl

theorem recovery_inv {s : State} (hs : s.Inv) (fail : Nat) : (s.recovery fail).Inv := by
  unfold State.recovery
  repeat' first
    | with_reducible assumption | with_reducible apply modBoot_inv | with_reducible apply modPow_inv | with_reducible apply raiseBusyBoth_inv
    | dsimp only | (intro x hx; exact { hx with }) | (intro x hx; exact hx) | (intro x hx; exact ⟨hx.1, hx.2⟩)
    | (intro x hx; (try dsimp only); (repeat' split) <;> first | exact hx | exact { hx with } | exact ⟨hx.1, hx.2⟩) | intro

theorem computeReset_inv {s : State} (hs : s.Inv) : s.computeReset.Inv where
  masts := fun m => by simpa [State.mast, State.computeReset] using mast_reset_ok
  dieCnt := fun d => by simp [State.die, State.computeReset, Die.reset, Sparse.wf]
  dieShadow := fun d => by simp [State.die, State.computeReset, Die.reset, Sparse.wf]
  ram := hs.ram
  hbmRef := rfl
  check := rfl
  bundles := fun j => by simp [State.job, State.computeReset, Job.reset, Sparse.wf]
  hostMem := hport_map_ok hs.hostMem fun _ hy => hy
  infl := rfl
  cnt := rfl
  shadow := rfl
  flash := hs.flash
  stageMem := hs.stageMem
  nonce := hs.nonce
  report := hs.report
  cert := hs.cert

theorem applyRecord_inv {s : State} (hs : s.Inv) : s.applyRecord.Inv := by
  have go : ∀ t : State, t.Inv → ((fins 16).foldl (fun t p =>
      if (t.sport p).en && (t.sport p).plugged && t.portUsed p then t.modSport p fun x => { x with training := true, trainFull := true, up := false } else t) t).Inv :=
    fun t ht => foldl_inv ht fun t p ht => by
      split
      · exact modSport_inv ht
      · exact ht
  unfold State.applyRecord
  dsimp only
  split
  · with_reducible refine go _ ?_
    exact { hs with }
  · with_reducible refine go _ ?_
    exact { hs with }

theorem loadStartPcs_inv {s : State} (hs : s.Inv) : s.loadStartPcs.Inv :=
  eachMast_inv hs fun _ _ ht => modCore_inv ht fun _ hc => { hc with }

theorem loadMastImage_inv {s t : State} (hs : s.Inv) (e : s.loadMastImage = some t) : t.Inv := by
  have hp : ∀ bs : List Byte, Sparse.wf (Mem.put [] 0x1C000 bs) = true := fun bs => mem_put_wf bs [] _ rfl
  have go : ∀ (i : ImgFacts) (bs : List Byte),
      ((s.modBoot fun b => { b with runMast := i }).eachMast fun m t => t.modCore m fun c => { c with imem := Mem.put [] 0x1C000 bs }).Inv := fun i bs =>
    eachMast_inv (modBoot_inv hs fun _ hx => { hx with }) fun m t ht => modCore_inv ht fun c hc => { hc with imem := hp _ }
  have fin : ∀ (a : Nat) (bs : List Byte), ((s.modBoot fun b => { b with runMast := headerFacts b.flash a }).eachMast fun m t =>
      t.modCore m fun c => { c with imem := Mem.put [] 0x1C000 bs }).Inv := fun a bs => by
    have h := go (headerFacts s.boot.flash a) bs
    unfold State.modBoot at h ⊢
    exact h
  unfold State.loadMastImage at e
  split at e
  · obtain rfl := Option.some.inj e
    with_reducible exact fin _ _
  · split at e
    · obtain rfl := Option.some.inj e
      with_reducible exact fin _ _
    · cases e

theorem startTail_inv {s : State} (hs : s.Inv) (hbmOk : Bool) : (s.startTail hbmOk).Inv := by
  have hb : ∀ (t : State) (f : Boot → Boot), t.Inv → (∀ x : Boot, x.Ok → (f x).Ok) → (t.modBoot f).Inv := fun _ _ ht hf => modBoot_inv ht hf
  unfold State.startTail
  dsimp only
  have h2 := hb s (fun b => { b with stage := 2 }) hs fun _ hx => { hx with }
  split
  · exact recovery_inv h2 _
  · have h3 : (State.modBoot { s.modBoot (fun b => { b with stage := 2 }) with
        ram := zeroRam (s.modBoot fun b => { b with stage := 2 }).ram
        dies := (s.modBoot fun b => { b with stage := 2 }).dies.map fun d => { d with hbm := d.hbm.map fun h => { h with trained := true } } }
        fun b => { b with stage := 3 }).Inv := by
      refine hb _ _ ?_ fun _ hx => { hx with }
      exact { h2 with
        ram := sparse_filter_wf _ _ h2.ram
        dieCnt := fun d => by simpa [State.die] using h2.dieCnt d
        dieShadow := fun d => by simpa [State.die] using h2.dieShadow d }
    split
    · exact recovery_inv h3 _
    · rename_i t e
      exact hb _ _ (applyRecord_inv (loadStartPcs_inv (loadMastImage_inv h3 e))) fun _ hx => { hx with }

theorem aoRegsReset_inv {s : State} (hs : s.Inv) : s.aoRegsReset.Inv := by
  unfold State.aoRegsReset
  exact modBoot_inv (modSvc_inv (modPow_inv hs)) fun _ hx => { hx with stageMem := rfl, nonce := rfl, report := rfl }

theorem moduleReset_inv {s : State} (hs : s.Inv)  : (s.moduleReset).Inv := by
  unfold State.moduleReset
  repeat' first
    | with_reducible assumption | with_reducible apply faultAllJobs_inv | with_reducible apply computeReset_inv
    | with_reducible apply aoRegsReset_inv | with_reducible apply raiseBusyBoth_inv | with_reducible apply modBoot_inv
    | with_reducible apply startTail_inv | dsimp only | (intro x hx; exact { hx with }) | (intro x hx; exact hx) | (intro x hx; exact ⟨hx.1, hx.2⟩)
    | (intro x hx; (try dsimp only); (repeat' split) <;> first | exact hx | exact { hx with } | exact ⟨hx.1, hx.2⟩) | intro

theorem railsUp_inv {s : State} (hs : s.Inv)  : (s.railsUp).Inv := by
  unfold State.railsUp
  repeat' first
    | with_reducible assumption | with_reducible apply recovery_inv | with_reducible apply modPow_inv | with_reducible apply startTail_inv
    | dsimp only | split | (intro x hx; exact { hx with }) | (intro x hx; exact hx) | (intro x hx; exact ⟨hx.1, hx.2⟩)
    | (intro x hx; (try dsimp only); (repeat' split) <;> first | exact hx | exact { hx with } | exact ⟨hx.1, hx.2⟩) | intro

theorem powerOn_inv {s : State} (hs : s.Inv) (i : BootInput) : (s.powerOn i).Inv := by
  unfold State.powerOn
  repeat' first
    | with_reducible assumption | with_reducible apply modBoot_inv | with_reducible apply computeReset_inv | with_reducible apply aoRegsReset_inv
    | with_reducible apply raiseBusyBoth_inv | with_reducible apply railsUp_inv | with_reducible apply recovery_inv | dsimp only | split
    | (intro x hx; exact { hx with }) | (intro x hx; exact hx) | (intro x hx; exact ⟨hx.1, hx.2⟩)
    | (intro x hx; (try dsimp only); (repeat' split) <;> first | exact hx | exact { hx with } | exact ⟨hx.1, hx.2⟩) | intro

end Sys2Proof.Machine
end

