-- ==== Sys2Proof/Laws/Traps.lean ====
section
/-!
SUPPORT. Every operation of Machine/Traps.lean keeps the invariant of the module.
-/

namespace Sys2Proof.Machine

/-! ## The control core -/

theorem Core.modBank_ok {c : Core} {b : Fin 4} {f : CoreBank → CoreBank} (h : c.Ok) : (c.modBank b f).Ok := { h with }
theorem Core.modCur_ok {c : Core} {f : CoreBank → CoreBank} (h : c.Ok) : (c.modCur f).Ok := { h with }
theorem Core.modSys_ok {c : Core} {b : Fin 4} {f : SysBank → SysBank} (h : c.Ok) : (c.modSys b f).Ok := { h with }

theorem Core.enter_ok {c : Core} {b : Fin 4} {l : BitVec 2} {cause tval : Word} (h : c.Ok)
    (hm : (b.val < 3 ∧ l.toNat = b.val) ∨ (b = 3 ∧ l = 2)) : (c.enter b l cause tval).Ok := { h with mode := hm }

theorem Core.landMul_ok {c : Core} {p : MulPend} (h : c.Ok) : (c.landMul p).Ok := { h with }

theorem Core.landMuls_ok {c : Core} (h : c.Ok) : c.landMuls.Ok := by
  have k : (c.muls.foldl Core.landMul c).Ok := fold_keeps (P := Core.Ok) (fun _ _ ht => Core.landMul_ok ht) _ h
  exact { k with }

/-- The bank that serves a level other than 3 runs at it. -/
theorem bankOf_mode {l : BitVec 2} (h : l.toNat < 3) : ((bankOf l).val < 3 ∧ l.toNat = (bankOf l).val) ∨ (bankOf l = 3 ∧ l = 2) := by
  have e : (bankOf l).val = l.toNat := by
    have := l.isLt
    simp only [bankOf, Fin.ofNat]
    omega
  exact Or.inl ⟨by omega, e.symm⟩

theorem Core.passMuls_ok {c : Core} (h : c.Ok) (b : Fin 4) (k : Nat) : (c.passMuls b k).Ok := by
  have q : ((c.muls.filter fun p => p.counts b && decide (p.left ≤ k)).foldl Core.landMul c).Ok :=
    fold_keeps (P := Core.Ok) (fun _ _ ht => Core.landMul_ok ht) _ h
  exact { q with }

theorem Core.age_ok {c : Core} (h : c.Ok) (n : Nat) : (c.age n).Ok := { h with }

theorem Core.pass_ok {c : Core} (h : c.Ok) (b : Fin 4) (k n : Nat) : (c.pass b k n).Ok := Core.age_ok (Core.passMuls_ok h b k) n

theorem countHalf_inv {s : State} (hs : s.Inv) (m : MastId) (off : Nat) (hi : Bool) (n : Nat) : (s.countHalf m off hi n).Inv :=
  modMast_inv hs fun _ hx => { hx with cnt := sparse_set_wf _ _ _ hx.cnt }

theorem stallFor_inv {s : State} (hs : s.Inv) (m : MastId) (off : Nat) (hi : Bool) (n : Nat) : (s.stallFor m off hi n).Inv :=
  modCore_inv (countHalf_inv hs _ _ _ _) fun _ hc => Core.pass_ok hc _ _ _

theorem trapEntry_inv {s : State} (hs : s.Inv) (m : MastId) (b : Fin 4) (l : BitVec 2) (cause tval : Word)
    (hm : (b.val < 3 ∧ l.toNat = b.val) ∨ (b = 3 ∧ l = 2)) : (s.trapEntry m b l cause tval).Inv := by
  have k := countHalf_inv (modXl_inv (f := Xl.withdraw) (m := m) (modCore_inv (m := m) hs fun _ hc =>
    Core.age_ok (Core.enter_ok (cause := cause) (tval := tval) hc hm) 8)) m 0x30 false 8
  unfold State.trapEntry
  dsimp only
  split
  · exact bump_inv (bump_inv k)
  · exact bump_inv k

theorem raise_inv {s : State} (hs : s.Inv) (m : MastId) (code slot : Nat) (half : Bool) (tval : Word) : (s.raise m code slot half tval).Inv := by
  unfold State.raise
  dsimp only
  split
  · exact moduleReset_inv hs
  · split
    · exact trapEntry_inv hs _ _ _ _ _ (Or.inr ⟨rfl, rfl⟩)
    · refine trapEntry_inv hs _ _ _ _ _ (bankOf_mode ?_)
      split <;> decide

theorem raiseReturn_inv {s : State} (hs : s.Inv) (m : MastId) (tval : Word) : (s.raiseReturn m tval).Inv := by
  unfold State.raiseReturn
  dsimp only
  split
  · exact moduleReset_inv hs
  · exact trapEntry_inv hs _ _ _ _ _ (hs.masts m).core.mode

theorem takeDeferrable_inv {s t : State} (hs : s.Inv) (m : MastId) (e : s.takeDeferrable m = some t) : t.Inv := by
  have lt : ∀ c : Prop, ∀ _ : Decidable c, (if c then (2 : BitVec 2) else 1).toNat < 3 := fun c _ => by split <;> decide
  unfold State.takeDeferrable at e
  dsimp only at e
  split at e
  · cases e
  · split at e
    · obtain rfl := Option.some.inj e
      exact trapEntry_inv hs _ _ _ _ _ (bankOf_mode (lt _ _))
    · split at e
      · obtain rfl := Option.some.inj e
        exact trapEntry_inv hs _ _ _ _ _ (bankOf_mode (lt _ _))
      · split at e
        · obtain rfl := Option.some.inj e
          exact trapEntry_inv hs _ _ _ _ _ (bankOf_mode (lt _ _))
        · cases e

theorem beginHalt_inv {s : State} (hs : s.Inv) (m : MastId) : (s.beginHalt m).Inv :=
  modXl_inv (modCore_inv hs fun _ hc => { Core.landMuls_ok hc with })

end Sys2Proof.Machine
end

