-- ==== Sys2Proof/Laws/Homes.lean ====
section
/-!
SUPPORT. Every operation of Machine/Homes.lean keeps the invariant of the module.
-/

namespace Sys2Proof.Machine

theorem scBump_inv {s : State} (hs : s.Inv) (l : Line) (reg : Nat) : (s.scBump l reg).Inv := by
  unfold State.scBump
  repeat' first
    | with_reducible assumption | with_reducible apply bumpDie_inv | dsimp only

theorem hbmDrain_inv {s : State} (hs : s.Inv) (k : Fin 8) (pc : Nat) : (s.hbmDrain k pc).Inv := by
  unfold State.hbmDrain
  extract_lets out
  refine modDie_inv ?_ fun _ hx => ⟨tab_add_wf _ _ _ hx.1, hx.2⟩
  with_reducible exact mk_inv hs

theorem hbmWrite_inv {s : State} (hs : s.Inv) (l : Line) (d : BitVec 1024) (poison : Bool) : (s.hbmWrite l d poison).Inv := by
  unfold State.hbmWrite
  extract_lets k pc t ps
  have ht : t.Inv := by unfold t; split <;> first | exact hbmDrain_inv hs _ _ | exact hs
  have h := mem_store_wf t.ram (lineAddr l) 128 d.toNat ht.ram
  clear_value t
  refine mend_inv ?_ _
  with_reducible exact mk_ram_inv ht h

theorem hbmSat_inv {s : State} (hs : s.Inv) (l : Line) (reg lo n : Nat) : (s.hbmSat l reg lo n).Inv := by
  unfold State.hbmSat
  exact modDie_inv hs fun _ hx => ⟨tab_satAdd_wf hx.1, hx.2⟩

theorem modHbm_inv {s : State} (hs : s.Inv) (k : Fin 8) (f : Hbm → Hbm) : (s.modHbm k f).Inv := by
  unfold State.modHbm
  repeat' first
    | with_reducible assumption | with_reducible apply modDie_inv | dsimp only | (intro x hx; exact { hx with }) | (intro x hx; exact hx)
    | (intro x hx; exact ⟨hx.1, hx.2⟩)
    | (intro x hx; (try dsimp only); (repeat' split) <;> first | exact hx | exact { hx with } | exact ⟨hx.1, hx.2⟩) | intro

theorem hbmBad_inv {s : State} (hs : s.Inv) (l : Line) (scrub : Bool) : (s.hbmBad l scrub).Inv := by
  unfold State.hbmBad
  repeat' first
    | with_reducible assumption | with_reducible apply hbmSat_inv | with_reducible apply modHbm_inv | dsimp only | split
    | with_reducible apply mk_inv | (intro x hx; exact { hx with }) | (intro x hx; exact hx) | (intro x hx; exact ⟨hx.1, hx.2⟩)
    | (intro x hx; (try dsimp only); (repeat' split) <;> first | exact hx | exact { hx with } | exact ⟨hx.1, hx.2⟩) | intro

theorem hbmRead_inv {s : State} (hs : s.Inv) (l : Line) (scrub : Bool) : (s.hbmRead l scrub).Inv := by
  unfold State.hbmRead
  repeat' first
    | with_reducible assumption | with_reducible apply bumpDie_inv | with_reducible apply hbmSat_inv | with_reducible apply hbmBad_inv | dsimp only
    | split | (intro x hx; exact { hx with }) | (intro x hx; exact hx) | (intro x hx; exact ⟨hx.1, hx.2⟩)
    | (intro x hx; (try dsimp only); (repeat' split) <;> first | exact hx | exact { hx with } | exact ⟨hx.1, hx.2⟩) | intro

theorem modCanvas_inv {s : State} (hs : s.Inv) (pa : Nat) (f : Canvas → Canvas) : (s.modCanvas pa f).Inv := by
  unfold State.modCanvas
  repeat' first
    | with_reducible assumption | with_reducible apply modMast_inv | dsimp only | (intro x hx; exact { hx with }) | (intro x hx; exact hx)
    | (intro x hx; exact ⟨hx.1, hx.2⟩)
    | (intro x hx; (try dsimp only); (repeat' split) <;> first | exact hx | exact { hx with } | exact ⟨hx.1, hx.2⟩) | intro

theorem canvasCe_inv {s : State} (hs : s.Inv) (w : Nat) : (s.canvasCe w).Inv := by
  unfold State.canvasCe
  repeat' first
    | with_reducible assumption | with_reducible apply modCanvas_inv | dsimp only | (intro x hx; exact { hx with }) | (intro x hx; exact hx)
    | (intro x hx; exact ⟨hx.1, hx.2⟩)
    | (intro x hx; (try dsimp only); (repeat' split) <;> first | exact hx | exact { hx with } | exact ⟨hx.1, hx.2⟩) | intro

theorem canvasUe_inv {s : State} (hs : s.Inv) (w : Nat) : (s.canvasUe w).Inv := by
  unfold State.canvasUe
  repeat' first
    | with_reducible assumption | with_reducible apply modCanvas_inv | dsimp only | split | with_reducible apply mk_inv
    | (intro x hx; exact { hx with }) | (intro x hx; exact hx) | (intro x hx; exact ⟨hx.1, hx.2⟩)
    | (intro x hx; (try dsimp only); (repeat' split) <;> first | exact hx | exact { hx with } | exact ⟨hx.1, hx.2⟩) | intro

theorem canvasRead_inv {s : State} (hs : s.Inv) (pa : Nat) (n : Nat) : (s.canvasRead pa n).Inv := by
  unfold State.canvasRead
  repeat' first
    | with_reducible assumption | with_reducible apply foldl_inv | with_reducible apply canvasCe_inv | with_reducible apply canvasUe_inv
    | with_reducible apply foldl_inv | with_reducible apply foldl_fst_inv | dsimp only | split | (intro x hx; exact { hx with })
    | (intro x hx; exact hx) | (intro x hx; exact ⟨hx.1, hx.2⟩)
    | (intro x hx; (try dsimp only); (repeat' split) <;> first | exact hx | exact { hx with } | exact ⟨hx.1, hx.2⟩) | intro

theorem putHome_inv {s : State} (hs : s.Inv) (h : HomeLine) : (s.putHome h).Inv := by
  unfold State.putHome
  repeat' first
    | with_reducible assumption | dsimp only | with_reducible apply mk_inv | (intro x hx; exact { hx with }) | (intro x hx; exact hx)
    | (intro x hx; exact ⟨hx.1, hx.2⟩)
    | (intro x hx; (try dsimp only); (repeat' split) <;> first | exact hx | exact { hx with } | exact ⟨hx.1, hx.2⟩) | intro

theorem cacheRead_inv {s : State} (hs : s.Inv) (m : MastId) (l : Line) (off n : Nat) :
    (s.cacheRead m l off n).Inv := by
  unfold State.cacheRead
  repeat' first
    | with_reducible assumption | with_reducible apply jobFault_inv | dsimp only | split

theorem ownerRead_inv {s : State} (hs : s.Inv) (h : HomeLine) :
    (s.ownerRead h).Inv := by
  unfold State.ownerRead
  repeat' first
    | with_reducible assumption | with_reducible apply cacheRead_inv | dsimp only | split

theorem recallLine_inv {s : State} (hs : s.Inv) (h : HomeLine) :
    (s.recallLine h).1.Inv := by
  unfold State.recallLine
  repeat' first
    | with_reducible assumption | with_reducible apply ownerRead_inv | with_reducible apply foldl_inv | with_reducible apply modDc_inv
    | with_reducible apply foldl_inv | with_reducible apply foldl_fst_inv | dsimp only | split | with_reducible apply mk_inv | (intro x hx; exact { hx with }) | (intro x hx; exact hx) | (intro x hx; exact ⟨hx.1, hx.2⟩)
    | (intro x hx; (try dsimp only); (repeat' split) <;> first | exact hx | exact { hx with } | exact ⟨hx.1, hx.2⟩) | intro

theorem dropHome_inv {s : State} (hs : s.Inv) (h : HomeLine) : (s.dropHome h).Inv := by
  unfold State.dropHome
  repeat' first
    | with_reducible assumption | with_reducible apply hbmWrite_inv | dsimp only | split | with_reducible apply mk_inv
    | (intro x hx; exact { hx with }) | (intro x hx; exact hx) | (intro x hx; exact ⟨hx.1, hx.2⟩)
    | (intro x hx; (try dsimp only); (repeat' split) <;> first | exact hx | exact { hx with } | exact ⟨hx.1, hx.2⟩) | intro

theorem makeRoom_inv {s : State} (hs : s.Inv) (l : Line) : (s.makeRoom l).Inv := by
  unfold State.makeRoom
  repeat' first
    | with_reducible assumption | with_reducible apply dropHome_inv | dsimp only | split | (intro x hx; exact { hx with }) | (intro x hx; exact hx)
    | (intro x hx; exact ⟨hx.1, hx.2⟩)
    | (intro x hx; (try dsimp only); (repeat' split) <;> first | exact hx | exact { hx with } | exact ⟨hx.1, hx.2⟩) | intro

theorem touchHome_inv {s : State} (hs : s.Inv) (l : Line) :
    (s.touchHome l).1.Inv := by
  unfold State.touchHome
  repeat' first
    | with_reducible assumption | with_reducible apply putHome_inv | with_reducible apply scBump_inv | with_reducible apply makeRoom_inv
    | with_reducible apply hbmRead_inv | dsimp only | split | with_reducible apply mk_inv

theorem readLine_inv {s : State} (hs : s.Inv) (l : Line) :
    (s.readLine l).1.Inv := by
  unfold State.readLine
  repeat' first
    | with_reducible assumption | with_reducible apply touchHome_inv | with_reducible apply ownerRead_inv | dsimp only | split

theorem writeLine_inv {s : State} (hs : s.Inv) (l : Line) (off : Nat) (bs : List Byte) : (s.writeLine l off bs).Inv := by
  unfold State.writeLine
  repeat' first
    | with_reducible assumption | with_reducible apply touchHome_inv | with_reducible apply recallLine_inv | with_reducible apply putHome_inv
    | dsimp only

theorem readBytes_inv {s : State} (hs : s.Inv) (pa n : Nat) : (s.readBytes pa n).1.Inv := by
  have go : ∀ (t : State), t.Inv → ∀ n, (readGo t pa n).1.Inv := fun t ht n => by
    induction n with
    | zero => exact ht
    | succ n h =>
      simp only [readGo]
      repeat' first | with_reducible assumption | with_reducible apply readLine_inv | split
  exact go _ (canvasRead_inv hs pa n) n

theorem canvasPut_inv {s : State} (hs : s.Inv) (w : Option (MastId × EngId)) (pa : Nat) (bs : List Byte) : (s.canvasPut w pa bs).Inv := by
  have hc : Sparse.wf (if w.isSome then s.check
      else (List.range (cdiv (pa % 4096 + bs.length) 4096)).foldl (fun t i => clearValid t (blockOf pa + i)) s.check) = true := by
    split
    · exact hs.check
    · exact fold_keeps (P := fun t => Sparse.wf t = true) (fun t _ ht => sparse_set_wf _ _ t ht) _ hs.check
  have hr := mem_put_wf bs s.ram pa hs.ram
  unfold State.canvasPut
  extract_lets whole
  refine mend_inv ?_ _
  with_reducible exact mk_ram_check_inv hs hr hc

theorem canvasWrite_inv {s : State} (hs : s.Inv) (pa : Nat) (bs : List Byte) : (s.canvasWrite pa bs).Inv := by
  unfold State.canvasWrite
  repeat' first
    | with_reducible assumption | with_reducible apply canvasPut_inv | dsimp only

theorem writeBytes_inv {s : State} (hs : s.Inv) (pa : Nat) (bs : List Byte) : (s.writeBytes pa bs).Inv := by
  unfold State.writeBytes
  repeat' first
    | with_reducible assumption | with_reducible apply foldl_inv | with_reducible apply writeLine_inv | with_reducible apply canvasWrite_inv
    | with_reducible apply foldl_inv | with_reducible apply foldl_fst_inv | dsimp only | split | (intro x hx; exact { hx with })
    | (intro x hx; exact hx) | (intro x hx; exact ⟨hx.1, hx.2⟩)
    | (intro x hx; (try dsimp only); (repeat' split) <;> first | exact hx | exact { hx with } | exact ⟨hx.1, hx.2⟩) | intro

theorem taken_inv {s : State} (hs : s.Inv) (who : Requester) (l : Line) : (s.taken who l).Inv := by
  unfold State.taken
  repeat' first
    | with_reducible assumption | dsimp only | with_reducible apply mk_inv | (intro x hx; exact { hx with }) | (intro x hx; exact hx)
    | (intro x hx; exact ⟨hx.1, hx.2⟩)
    | (intro x hx; (try dsimp only); (repeat' split) <;> first | exact hx | exact { hx with } | exact ⟨hx.1, hx.2⟩) | intro

theorem reserve_inv {s : State} (hs : s.Inv) (who : Requester) (l : Line) (n : Nat) : (s.reserve who l n).Inv := by
  unfold State.reserve
  repeat' first
    | with_reducible assumption | with_reducible apply scBump_inv | dsimp only | split | with_reducible apply mk_inv
    | (intro x hx; exact { hx with }) | (intro x hx; exact hx) | (intro x hx; exact ⟨hx.1, hx.2⟩)
    | (intro x hx; (try dsimp only); (repeat' split) <;> first | exact hx | exact { hx with } | exact ⟨hx.1, hx.2⟩) | intro

theorem refused_inv {s : State} (hs : s.Inv) (who : Requester) (l : Line) : (s.refused who l).Inv := by
  unfold State.refused
  extract_lets t u mine n rest
  have ht : t.Inv := scBump_inv (mk_inv hs) _ _
  have hu : u.Inv := by unfold u; split <;> first | exact bump_inv ht | exact ht
  clear_value t u
  refine reserve_inv ?_ _ _ _
  with_reducible exact mk_inv hu

end Sys2Proof.Machine
end

