-- ==== Sys2Proof/Laws/Coh.lean ====
section
/-!
SUPPORT. Every operation of Machine/Coh.lean keeps the invariant of the module.
-/

namespace Sys2Proof.Machine

theorem send_inv {s : State} (hs : s.Inv) (x : Msg) : (s.send x).Inv := by
  unfold State.send
  repeat' first
    | with_reducible assumption | dsimp only | with_reducible apply mk_inv

theorem takeMsg_inv {s : State} (hs : s.Inv) {p : Msg → Bool} {x : Msg} {t : State} (e : s.takeMsg p = some (x, t)) : t.Inv := by
  unfold State.takeMsg at e
  split at e
  · split at e
    · cases e
    · cases e; exact { hs with }
  · cases e

theorem feedPart_inv {s : State} (hs : s.Inv) (m : MastId) (p : LoadPart → Bool) (bs : LoadPart → List Byte) : (s.feedPart m p bs).Inv := by
  unfold State.feedPart
  repeat' first
    | with_reducible assumption | with_reducible apply modCore_inv | dsimp only | (intro x hx; exact { hx with }) | (intro x hx; exact hx)
    | (intro x hx; exact ⟨hx.1, hx.2⟩)
    | (intro x hx; (try dsimp only); (repeat' split) <;> first | exact hx | exact { hx with } | exact ⟨hx.1, hx.2⟩) | intro

theorem wqDone_inv {s : State} (hs : s.Inv) (m : MastId) (l : Line) : (s.wqDone m l).Inv := by
  unfold State.wqDone
  repeat' first
    | with_reducible assumption | with_reducible apply modCore_inv | dsimp only | (intro x hx; exact { hx with }) | (intro x hx; exact hx)
    | (intro x hx; exact ⟨hx.1, hx.2⟩)
    | (intro x hx; (try dsimp only); (repeat' split) <;> first | exact hx | exact { hx with } | exact ⟨hx.1, hx.2⟩) | intro

theorem feedLine_inv {s : State} (hs : s.Inv) (m : MastId) (l : Line) (d : BitVec 1024) : (s.feedLine m l d).Inv := by
  unfold State.feedLine
  repeat' first
    | with_reducible assumption | with_reducible apply modCore_inv | dsimp only | split | (intro x hx; exact { hx with }) | (intro x hx; exact hx)
    | (intro x hx; exact ⟨hx.1, hx.2⟩)
    | (intro x hx; (try dsimp only); (repeat' split) <;> first | exact hx | exact { hx with } | exact ⟨hx.1, hx.2⟩) | intro

theorem cacheMend_inv {s : State} (hs : s.Inv) (m : MastId) (l : Line) (off : Nat) (n : Nat) : (s.cacheMend m l off n).Inv := by
  unfold State.cacheMend
  repeat' first
    | with_reducible assumption | with_reducible apply mend_inv | dsimp only | split | (intro x hx; exact { hx with }) | (intro x hx; exact hx)
    | (intro x hx; exact ⟨hx.1, hx.2⟩)
    | (intro x hx; (try dsimp only); (repeat' split) <;> first | exact hx | exact { hx with } | exact ⟨hx.1, hx.2⟩) | intro

theorem sendPut_inv {s : State} (hs : s.Inv) (m : MastId) (x : CacheLine) : (s.sendPut m x).Inv := by
  unfold State.sendPut
  repeat' first
    | with_reducible assumption | with_reducible apply cacheRead_inv | with_reducible apply send_inv | with_reducible apply bump_inv | dsimp only
    | split

theorem leave_inv {s : State} (hs : s.Inv) (m : MastId) (x : CacheLine) : (s.leave m x).Inv := by
  unfold State.leave
  repeat' first
    | with_reducible assumption | with_reducible apply modDc_inv | with_reducible apply sendPut_inv | dsimp only | split
    | (intro x hx; exact { hx with }) | (intro x hx; exact hx) | (intro x hx; exact ⟨hx.1, hx.2⟩)
    | (intro x hx; (try dsimp only); (repeat' split) <;> first | exact hx | exact { hx with } | exact ⟨hx.1, hx.2⟩) | intro

theorem install_inv {s : State} (hs : s.Inv) (m : MastId) (x : CacheLine) : (s.install m x).Inv := by
  unfold State.install
  repeat' first
    | with_reducible assumption | with_reducible apply modDc_inv | with_reducible apply foldl_inv | with_reducible apply leave_inv
    | with_reducible apply foldl_inv | with_reducible apply foldl_fst_inv | dsimp only | split | (intro x hx; exact { hx with })
    | (intro x hx; exact hx) | (intro x hx; exact ⟨hx.1, hx.2⟩)
    | (intro x hx; (try dsimp only); (repeat' split) <;> first | exact hx | exact { hx with } | exact ⟨hx.1, hx.2⟩) | intro

theorem touchLine_inv {s : State} (hs : s.Inv) (m : MastId) (l : Line) : (s.touchLine m l).Inv := by
  unfold State.touchLine
  repeat' first
    | with_reducible assumption | with_reducible apply modDc_inv | with_reducible apply install_inv | dsimp only | split
    | (intro x hx; exact { hx with }) | (intro x hx; exact hx) | (intro x hx; exact ⟨hx.1, hx.2⟩)
    | (intro x hx; (try dsimp only); (repeat' split) <;> first | exact hx | exact { hx with } | exact ⟨hx.1, hx.2⟩) | intro

theorem sendReq_inv {s : State} (hs : s.Inv) (m : MastId) (l : Line) (k : ReqKind) (x : Msg) : (s.sendReq m l k x).Inv := by
  unfold State.sendReq
  repeat' first
    | with_reducible assumption | with_reducible apply modDc_inv | with_reducible apply send_inv | dsimp only | (intro x hx; exact { hx with })
    | (intro x hx; exact hx) | (intro x hx; exact ⟨hx.1, hx.2⟩)
    | (intro x hx; (try dsimp only); (repeat' split) <;> first | exact hx | exact { hx with } | exact ⟨hx.1, hx.2⟩) | intro

theorem issueWq_inv {s : State} (hs : s.Inv) (m : MastId) (e : WqEnt) : (s.issueWq m e).Inv := by
  unfold State.issueWq
  repeat' first
    | with_reducible assumption | with_reducible apply modCore_inv | with_reducible apply touchLine_inv | with_reducible apply modDc_inv
    | with_reducible apply cacheMend_inv | with_reducible apply bump_inv | with_reducible apply sendReq_inv | dsimp only | split
    | (intro x hx; exact { hx with }) | (intro x hx; exact hx) | (intro x hx; exact ⟨hx.1, hx.2⟩)
    | (intro x hx; (try dsimp only); (repeat' split) <;> first | exact hx | exact { hx with } | exact ⟨hx.1, hx.2⟩) | intro

theorem kickWq_inv {s : State} (hs : s.Inv) (m : MastId) (l : Line) : (s.kickWq m l).Inv := by
  unfold State.kickWq
  repeat' first
    | with_reducible assumption | with_reducible apply core_inv | with_reducible apply foldl_inv | with_reducible apply issueWq_inv
    | with_reducible apply foldl_inv | with_reducible apply foldl_fst_inv | dsimp only | split | (intro x hx; exact { hx with })
    | (intro x hx; exact hx) | (intro x hx; exact ⟨hx.1, hx.2⟩)
    | (intro x hx; (try dsimp only); (repeat' split) <;> first | exact hx | exact { hx with } | exact ⟨hx.1, hx.2⟩) | intro

theorem kickAll_inv {s : State} (hs : s.Inv) (m : MastId) : (s.kickAll m).Inv := by
  unfold State.kickAll
  repeat' first
    | with_reducible assumption | with_reducible apply core_inv | with_reducible apply foldl_inv | with_reducible apply kickWq_inv
    | with_reducible apply foldl_inv | with_reducible apply foldl_fst_inv | dsimp only | (intro x hx; exact { hx with }) | (intro x hx; exact hx)
    | (intro x hx; exact ⟨hx.1, hx.2⟩)
    | (intro x hx; (try dsimp only); (repeat' split) <;> first | exact hx | exact { hx with } | exact ⟨hx.1, hx.2⟩) | intro

theorem answer_inv {s : State} (hs : s.Inv) (r : Requester) (l : Line) (kind : ReqKind) (red : Bool) (bs : List Byte) (poison : Bool) : (s.answer r l kind red bs poison).Inv := by
  unfold State.answer
  repeat' first
    | with_reducible assumption | with_reducible apply core_inv | with_reducible apply jobFault_inv | with_reducible apply modDc_inv
    | with_reducible apply feedPart_inv | with_reducible apply wqDone_inv | with_reducible apply kickWq_inv | with_reducible apply reply_inv
    | dsimp only | split | (intro x hx; exact { hx with }) | (intro x hx; exact hx) | (intro x hx; exact ⟨hx.1, hx.2⟩)
    | (intro x hx; (try dsimp only); (repeat' split) <;> first | exact hx | exact { hx with } | exact ⟨hx.1, hx.2⟩) | intro

theorem complete_inv {s : State} (hs : s.Inv) (h : HomeLine) (b : Busy) : (s.complete h b).Inv := by
  unfold State.complete
  extract_lets h1 free grant
  have hf : ∀ h t, t.Inv → (free h t).Inv := fun h t ht => putHome_inv (foldl_inv ht fun t m ht => send_inv ht _) _
  have hg : ∀ m h t, t.Inv → (grant m h t).Inv := fun m h t ht => putHome_inv ht _
  clear_value h1 free grant
  repeat' first
    | with_reducible assumption | with_reducible apply hf | with_reducible apply hg | with_reducible apply answer_inv | with_reducible apply send_inv
    | with_reducible apply scBump_inv | with_reducible apply dropHome_inv
    | with_reducible apply foldl_inv | dsimp only | split | (intro t x ht)

theorem contact_inv {s : State} (hs : s.Inv) (h : HomeLine) (r : HomeReq) : (s.contact h r).Inv := by
  unfold State.contact
  repeat' first
    | with_reducible assumption | with_reducible apply complete_inv | with_reducible apply foldl_inv | with_reducible apply send_inv
    | with_reducible apply putHome_inv | with_reducible apply foldl_inv | with_reducible apply foldl_fst_inv | dsimp only | split
    | (intro x hx; exact { hx with }) | (intro x hx; exact hx) | (intro x hx; exact ⟨hx.1, hx.2⟩)
    | (intro x hx; (try dsimp only); (repeat' split) <;> first | exact hx | exact { hx with } | exact ⟨hx.1, hx.2⟩) | intro

theorem recallFor_inv {s : State} (hs : s.Inv) (l : Line) : (s.recallFor l).Inv := by
  unfold State.recallFor
  repeat' first
    | with_reducible assumption | with_reducible apply contact_inv | dsimp only | split | (intro x hx; exact { hx with }) | (intro x hx; exact hx)
    | (intro x hx; exact ⟨hx.1, hx.2⟩)
    | (intro x hx; (try dsimp only); (repeat' split) <;> first | exact hx | exact { hx with } | exact ⟨hx.1, hx.2⟩) | intro

theorem accept_inv {s : State} (hs : s.Inv) (l : Line) (r : HomeReq) : (s.accept l r).Inv := by
  unfold State.accept
  repeat' first
    | with_reducible assumption | with_reducible apply putHome_inv | with_reducible apply scBump_inv | with_reducible apply contact_inv
    | with_reducible apply makeRoom_inv | with_reducible apply recallFor_inv | dsimp only | split

theorem ask_inv {s : State} (hs : s.Inv) (who : Requester) (ls : List Line) : (s.ask who ls).1.Inv := by
  unfold State.ask
  repeat' first
    | with_reducible assumption | with_reducible apply refused_inv | with_reducible apply recallFor_inv | with_reducible apply foldl_inv
    | with_reducible apply taken_inv | with_reducible apply foldl_inv | with_reducible apply foldl_fst_inv | dsimp only | split
    | (intro x hx; exact { hx with }) | (intro x hx; exact hx) | (intro x hx; exact ⟨hx.1, hx.2⟩)
    | (intro x hx; (try dsimp only); (repeat' split) <;> first | exact hx | exact { hx with } | exact ⟨hx.1, hx.2⟩) | intro

theorem nack_inv {s : State} (hs : s.Inv) (m : MastId) (l : Line) : (s.nack m l).Inv := by
  unfold State.nack
  repeat' first
    | with_reducible assumption | with_reducible apply send_inv | with_reducible apply nack_inv | with_reducible apply scBump_inv
    | with_reducible apply modDc_inv | with_reducible apply reserve_inv | with_reducible apply core_inv | dsimp only | split
    | with_reducible apply mk_inv | (intro x hx; exact { hx with }) | (intro x hx; exact hx) | (intro x hx; exact ⟨hx.1, hx.2⟩)
    | (intro x hx; (try dsimp only); (repeat' split) <;> first | exact hx | exact { hx with } | exact ⟨hx.1, hx.2⟩) | intro

theorem arrive_inv {s : State} (hs : s.Inv) (m : MastId) (l : Line) (r : HomeReq) : (s.arrive m l r).Inv := by
  unfold State.arrive
  repeat' first
    | with_reducible assumption | with_reducible apply core_inv | with_reducible apply taken_inv | with_reducible apply accept_inv
    | with_reducible apply nack_inv | dsimp only | split

theorem putArrives_inv {s : State} (hs : s.Inv) (m : MastId) (l : Line) (st : CacheSt) (d : BitVec 1024) : (s.putArrives m l st d).Inv := by
  unfold State.putArrives
  repeat' first
    | with_reducible assumption | with_reducible apply send_inv | with_reducible apply nack_inv | with_reducible apply scBump_inv
    | with_reducible apply putHome_inv | dsimp only | split | with_reducible apply mk_inv

theorem settle_inv {s : State} (hs : s.Inv) (h : HomeLine) (b : Busy) : (s.settle h b).Inv := by
  unfold State.settle
  repeat' first
    | with_reducible assumption | with_reducible apply complete_inv | with_reducible apply putHome_inv | dsimp only | split

theorem cacheInv_inv {s : State} (hs : s.Inv) (m : MastId) (l : Line) : (s.cacheInv m l).Inv := by
  unfold State.cacheInv
  repeat' first
    | with_reducible assumption | with_reducible apply modDc_inv | with_reducible apply send_inv | with_reducible apply kickAll_inv | dsimp only
    | (intro x hx; exact { hx with }) | (intro x hx; exact hx) | (intro x hx; exact ⟨hx.1, hx.2⟩)
    | (intro x hx; (try dsimp only); (repeat' split) <;> first | exact hx | exact { hx with } | exact ⟨hx.1, hx.2⟩) | intro

theorem cacheFwd_inv {s : State} (hs : s.Inv) (m : MastId) (l : Line) (after : CacheSt → Option CacheSt) : (s.cacheFwd m l after).Inv := by
  unfold State.cacheFwd
  repeat' first
    | with_reducible assumption | with_reducible apply cacheRead_inv | with_reducible apply send_inv | with_reducible apply modDc_inv | dsimp only
    | split | (intro x hx; exact { hx with }) | (intro x hx; exact hx) | (intro x hx; exact ⟨hx.1, hx.2⟩)
    | (intro x hx; (try dsimp only); (repeat' split) <;> first | exact hx | exact { hx with } | exact ⟨hx.1, hx.2⟩) | intro

theorem cacheGrant_inv {s : State} (hs : s.Inv) (m : MastId) (l : Line) (st : CacheSt) (d : BitVec 1024) (poison : Bool) : (s.cacheGrant m l st d poison).Inv := by
  unfold State.cacheGrant
  repeat' first
    | with_reducible assumption | with_reducible apply modDc_inv | with_reducible apply send_inv | with_reducible apply jobFault_inv
    | with_reducible apply feedLine_inv | with_reducible apply modCore_inv | with_reducible apply kickWq_inv | with_reducible apply core_inv
    | with_reducible apply foldl_inv | with_reducible apply cacheMend_inv | with_reducible apply install_inv | with_reducible apply kickAll_inv
    | with_reducible apply foldl_inv | with_reducible apply foldl_fst_inv | dsimp only | split | (intro x hx; exact { hx with })
    | (intro x hx; exact hx) | (intro x hx; exact ⟨hx.1, hx.2⟩)
    | (intro x hx; (try dsimp only); (repeat' split) <;> first | exact hx | exact { hx with } | exact ⟨hx.1, hx.2⟩) | intro

theorem cacheUpg_inv {s : State} (hs : s.Inv) (m : MastId) (l : Line) : (s.cacheUpg m l).Inv := by
  unfold State.cacheUpg
  repeat' first
    | with_reducible assumption | with_reducible apply modDc_inv | with_reducible apply touchLine_inv | with_reducible apply send_inv
    | with_reducible apply core_inv | with_reducible apply foldl_inv | with_reducible apply modCore_inv | with_reducible apply kickWq_inv
    | with_reducible apply foldl_inv | with_reducible apply foldl_fst_inv | dsimp only | (intro x hx; exact { hx with }) | (intro x hx; exact hx)
    | (intro x hx; exact ⟨hx.1, hx.2⟩)
    | (intro x hx; (try dsimp only); (repeat' split) <;> first | exact hx | exact { hx with } | exact ⟨hx.1, hx.2⟩) | intro

end Sys2Proof.Machine
end

