-- ==== Sys2Proof/Laws/Access.lean ====
section
/-!
SUPPORT. Every operation of Machine/Access.lean keeps the invariant of the module.
-/

namespace Sys2Proof.Machine

theorem issueLoad_inv {s : State} (hs : s.Inv) (m : MastId) (p : GPart) : (s.issueLoad m p).1.Inv := by
  unfold State.issueLoad
  repeat' first
    | with_reducible assumption | with_reducible apply core_inv | with_reducible apply bump_inv | with_reducible apply sendTo_inv
    | with_reducible apply cacheRead_inv | with_reducible apply touchLine_inv | with_reducible apply sendReq_inv | dsimp only | split
    | (intro x hx; exact { hx with }) | (intro x hx; exact hx) | (intro x hx; exact ⟨hx.1, hx.2⟩)
    | (intro x hx; (try dsimp only); (repeat' split) <;> first | exact hx | exact { hx with } | exact ⟨hx.1, hx.2⟩) | intro

theorem issueLoads_inv {s : State} (hs : s.Inv) (m : MastId) (ps : List GPart) : (s.issueLoads m ps).1.Inv := by
  induction ps generalizing s with
  | nil => exact hs
  | cons p ps ih => exact ih (issueLoad_inv hs m p)

theorem issueLdg_inv {s : State} (hs : s.Inv) (m : MastId) (d : MBody) (ps : List GPart) : (s.issueLdg m d ps).Inv := by
  unfold State.issueLdg
  exact modCore_inv (issueLoads_inv hs m ps) fun c hx => { ldm := hx.ldm, imem := hx.imem, gate := hx.gate, gateUsed := hx.gateUsed, mode := hx.mode }

theorem issueStg_inv {s : State} (hs : s.Inv) (m : MastId) (v : Word) (d : MBody) (ps : List GPart) : (s.issueStg m v d ps).Inv := by
  unfold State.issueStg
  repeat' first
    | with_reducible assumption | with_reducible apply modCore_inv | dsimp only | (intro x hx; exact { hx with }) | (intro x hx; exact hx)
    | (intro x hx; exact ⟨hx.1, hx.2⟩)
    | (intro x hx; (try dsimp only); (repeat' split) <;> first | exact hx | exact { hx with } | exact ⟨hx.1, hx.2⟩) | intro

theorem issueAtom_inv {s : State} (hs : s.Inv) (m : MastId) (o : LOp) (d : MBody) (a y : Word) (ps : List GPart) :
    (s.issueAtom m o d a y ps).Inv := by
  unfold State.issueAtom
  repeat' first
    | with_reducible assumption | with_reducible apply bump_inv | with_reducible apply sendReq_inv | with_reducible apply sendTo_inv
    | with_reducible apply modCore_inv | dsimp only | split | with_reducible apply mk_inv | (intro x hx; exact { hx with }) | (intro x hx; exact hx) | (intro x hx; exact ⟨hx.1, hx.2⟩)
    | (intro x hx; (try dsimp only); (repeat' split) <;> first | exact hx | exact { hx with } | exact ⟨hx.1, hx.2⟩) | intro

end Sys2Proof.Machine
end

