-- ==== Sys2Proof/Laws/Scalar.lean ====
section
/-!
SUPPORT. Every operation of Machine/Scalar.lean keeps the invariant of the module.
-/

namespace Sys2Proof.Machine

theorem Core.mtsr_ok {c : Core} (h : c.Ok) (n : Nat) (v : Word) : (c.mtsr n v).Ok := by
  unfold Core.mtsr
  split
  · split
    · exact h
    · exact { h with }
  all_goals first | exact h | exact Core.modSys_ok h | exact { h with }

theorem Core.setAF_ok {c : Core} (h : c.Ok) (r : Word × Word) (f : Bool) : (c.setAF r f).Ok := Core.modCur_ok h

theorem Core.startMul_ok {c : Core} (h : c.Ok) (acc : Bool) (p : BitVec 128) : (c.startMul acc p).Ok := { h with }

theorem cEffect_ok {c : Core} (h : c.Ok) (o : COp) (d : MBody) (node : BitVec 14) (c0 : Core) : (cEffect o d node c0 c).Ok := by
  cases o
  case mul | mulu | mac | macu => exact Core.startMul_ok h _ _
  case mfsr | cmp | tst => unfold cEffect; exact Core.modCur_ok h
  case mtsr => exact Core.mtsr_ok h _ _
  all_goals exact Core.setAF_ok h _ _

theorem Core.ldmPut_ok {c : Core} (h : c.Ok) (a n : Nat) (v : Word) : (c.ldmPut a n v).Ok := { h with ldm := mem_store_wf _ _ _ _ h.ldm }

theorem lEffect_ok {c : Core} (h : c.Ok) (o : LOp) (d : MBody) (c0 : Core) : (lEffect o d c0 c).Ok := by
  unfold lEffect
  split
  case h_4 =>
    split
    · dsimp only
      split <;> first | exact h | exact Core.modCur_ok h
    · exact Core.ldmPut_ok h _ _ _
  all_goals first
    | exact h | exact Core.modCur_ok h | exact Core.ldmPut_ok h _ _ _ | exact Core.modCur_ok (Core.ldmPut_ok h _ _ _)

/-- A gate entry that passes the checks of GATE names S or M as its level. -/
theorem gateCheck_level {c : Core} {g : Nat} (h : gateCheck c g = none) : fld (c.gateWord g 0) 17 2 = 1 ∨ fld (c.gateWord g 0) 17 2 = 2 := by
  have hl : fld (c.gateWord g 0) 17 2 < 4 := Nat.mod_lt _ (by decide)
  have hb : gateBad c g = false := by
    unfold gateCheck at h
    dsimp only at h
    split at h
    · cases h
    · rename_i hn
      cases hg : gateBad c g
      · rfl
      · exact absurd (.inr (.inr hg)) hn
  unfold gateBad at hb
  simp only [Bool.or_eq_false_iff, decide_eq_false_iff_not] at hb
  omega

theorem gateEnter_ok {c0 c : Core} (h : c.Ok) {g after : Nat} (hg : gateCheck c0 g = none) : (gateEnter c0 c g after).Ok := by
  unfold gateEnter
  dsimp only
  refine ⟨h.ldm, h.imem, h.gate, h.gateUsed, .inl ?_⟩
  rcases gateCheck_level hg with e | e <;> simp [e, Fin.ofNat]

theorem rfeBad_level {c : Core} (h : rfeBad c = false) : wfld (c.sys.get c.bank).estatus 0 2 < 3 := by
  have hl : wfld (c.sys.get c.bank).estatus 0 2 < 4 := Nat.mod_lt _ (by decide)
  unfold rfeBad at h
  simp only [Bool.or_eq_false_iff, decide_eq_false_iff_not] at h
  omega

theorem rfeLeave_ok {c0 c : Core} (h : c.Ok) (hb : rfeBad c0 = false) : (rfeLeave c0 c).Ok := by
  unfold rfeLeave
  dsimp only
  have hl := rfeBad_level hb
  generalize wfld (c0.sys.get c0.bank).estatus 0 2 = p at hl ⊢
  have hm : ((Fin.ofNat 4 p).val < 3 ∧ (BitVec.ofNat 2 p).toNat = (Fin.ofNat 4 p).val) := by
    simp [Fin.ofNat]; omega
  split <;> exact ⟨h.ldm, h.imem, h.gate, h.gateUsed, .inl hm⟩

/-- A B syllable that passes the check of gates and returns keeps the core's invariant. -/
theorem bEffect_ok {c : Core} (h : c.Ok) (o : BOp) (d : BBody) (after : Nat) (c0 : Core)
    (hg : o = .gate → gateCheck c0 (fld d.off.toNat 0 16) = none) (hr : o = .rfe → rfeBad c0 = false) : (bEffect o d after c0 c).Ok := by
  cases o
  case gate => exact gateEnter_ok h (hg rfl)
  case rfe => exact rfeLeave_ok h (hr rfl)
  case call | calla => unfold bEffect; exact Core.modCur_ok (Core.ldmPut_ok h _ _ _)
  case ret | loop | ifence => unfold bEffect; exact Core.modCur_ok h
  all_goals exact h


end Sys2Proof.Machine
end

