-- ==== Sys2Proof/Laws/Xlate.lean ====
section
/-!
SUPPORT. Every operation of Machine/Xlate.lean keeps the invariant of the module.
-/

namespace Sys2Proof.Machine

/-- Reading tables keeps the invariant. -/
theorem walkGo_inv (who : Requester) (asid : BitVec 12) (va : Nat) :
    ∀ (lvl tab : Nat) (s : State) (acc : List WcEnt), s.Inv → (walkGo who asid va lvl tab s acc).1.Inv := by
  intro lvl
  induction lvl with
  | zero =>
    intro tab s acc hs
    have ha := ask_inv hs who [lineOf (tab % 2 ^ 38 + 8 * levelIdx 0 va)]
    have hr := readLine_inv ha (lineOf (tab % 2 ^ 38 + 8 * levelIdx 0 va))
    unfold walkGo
    dsimp only
    repeat' split
    all_goals first | exact ha | exact hr
  | succ k ih =>
    intro tab s acc hs
    have ha := ask_inv hs who [lineOf (tab % 2 ^ 38 + 8 * levelIdx (k + 1) va)]
    have hr := readLine_inv ha (lineOf (tab % 2 ^ 38 + 8 * levelIdx (k + 1) va))
    unfold walkGo
    dsimp only
    repeat' split
    all_goals first | exact ha | exact hr | exact ih _ _ _ hr

theorem walk_inv {s : State} (hs : s.Inv) (who : Requester) (d : DieId) (asid : BitVec 12) (root : BitVec 42) (va : Nat) (top : Bool) :
    (s.walk who d asid root va top).1.Inv := by
  unfold State.walk
  dsimp only
  repeat' split
  all_goals first | exact hs | exact bumpDie_inv hs | exact walkGo_inv _ _ _ _ _ _ _ hs

theorem addFault_inv {s : State} (hs : s.Inv) (m : MastId) (f : XFault) : (s.addFault m f).Inv := by
  unfold State.addFault
  repeat' first
    | with_reducible assumption | with_reducible apply modXl_inv | with_reducible apply jobFault_inv | dsimp only | split
    | (intro x hx; exact { hx with }) | (intro x hx; exact hx) | (intro x hx; exact ⟨hx.1, hx.2⟩)
    | (intro x hx; (try dsimp only); (repeat' split) <;> first | exact hx | exact { hx with } | exact ⟨hx.1, hx.2⟩) | intro

theorem addMiss_inv {s : State} (hs : s.Inv) (m : MastId) (f : XFault) : (s.addMiss m f).Inv := by
  unfold State.addMiss
  repeat' first
    | with_reducible assumption | with_reducible apply modXl_inv | dsimp only | (intro x hx; exact { hx with }) | (intro x hx; exact hx)
    | (intro x hx; exact ⟨hx.1, hx.2⟩)
    | (intro x hx; (try dsimp only); (repeat' split) <;> first | exact hx | exact { hx with } | exact ⟨hx.1, hx.2⟩) | intro

theorem useXlate_inv {s : State} (hs : s.Inv) (m : MastId) (e : EngId) (vas : List Nat) : (s.useXlate m e vas).Inv := modXl_inv hs

end Sys2Proof.Machine
end

