-- ==== Sys2Proof/Laws/Issue.lean ====
section
/-!
SUPPORT. Every operation of Machine/Issue.lean keeps the invariant of the module.
-/

namespace Sys2Proof.Machine

theorem vec_push_ok {v : Vec} (h : v.Ok) (k : VCmd) : (v.push k).Ok := ⟨h.1, h.2⟩

theorem Core.takeLc_ok {c : Core} (h : c.Ok) (b : Fin 4) (a : Option Nat) (n : CoreBank) : (c.takeLc b a n).Ok := Core.modBank_ok h

theorem Core.makeAg_ok {c : Core} (h : c.Ok) (ys : List Syl) : (c.makeAg ys).Ok := by
  refine fold_keeps (P := Core.Ok) ?_ _ h
  exact fun _ _ ht => { ht with }

theorem Core.stalled_ok {c : Core} (h : c.Ok) (n : Nat) : (c.stalled n).Ok :=
  Core.pass_ok (c := { c with stalls := c.stalls + 1 }) ⟨h.ldm, h.imem, h.gate, h.gateUsed, h.mode⟩ _ _ _

theorem Core.thaw_ok {c : Core} (h : c.Ok) : c.thaw.Ok := { h with }

/-- What the end of a bundle does keeps the core's invariant. -/
theorem Core.advance_ok {c : Core} (h : c.Ok) (c0 : Core) (ys : List Syl) : (c0.advance c ys).Ok := by
  have k := fun b n x k m i => Core.pass_ok (Core.makeAg_ok (Core.takeLc_ok (b := b) h n x) ys) k m i
  have g : ∀ (p : Prop) [Decidable p] {x : Core}, x.Ok → (if p then x.thaw else x).Ok := fun p _ x hx => by
    split
    · exact Core.thaw_ok hx
    · exact hx
  exact ⟨(g _ (k _ _ _ _ _ _)).ldm, (g _ (k _ _ _ _ _ _)).imem, (g _ (k _ _ _ _ _ _)).gate, (g _ (k _ _ _ _ _ _)).gateUsed,
    (g _ (k _ _ _ _ _ _)).mode⟩

/-- A bundle without exception has only syllables that pass the check of gates and returns. -/
theorem exception_none {s : State} {m : MastId} {ys : List Syl} (h : s.exception m ys = none) {y : Syl} (hy : y ∈ ys) :
    branchHold (s.mast m).core y = none := by
  unfold State.exception at h
  cases e : s.encodingHold m ys with
  | some a => simp [e] at h
  | none =>
    rw [e] at h
    replace h : s.valueHold m ys = none := h
    unfold State.valueHold at h
    dsimp only at h
    split at h
    · cases h
    · rename_i e
      cases e1 : ys.findSome? (targetHold (s.mast m).core) with
      | some a => simp [e1] at e
      | none =>
        rw [e1] at e
        exact List.findSome?_eq_none_iff.mp e y hy

/-- A bundle that nothing holds raises no exception. -/
theorem hold_none {s : State} {m : MastId} {ys : List Syl} (h : s.hold m ys = none) : s.exception m ys = none := by
  unfold State.hold at h
  split at h
  · cases h
  · rename_i e
    split at h
    · cases h
    · split at h
      · cases h
      · rename_i e2
        have v : s.valueHold m ys = none := by
          cases a : s.engineHold m ys <;> cases b : s.waits m ys <;> simp_all [Option.orElse]
        simp [State.exception, e, v]

theorem fenceEffect_inv {s : State} (hs : s.Inv) (m : MastId) : (s.fenceEffect m).Inv :=
  modDc_inv (modCore_inv hs fun _ hx => ⟨hx.ldm, hx.imem, hx.gate, hx.gate, hx.mode⟩)

theorem lEffect_inv {s : State} (hs : s.Inv) (m : MastId) (c0 : Core) (op : LOp) (d : MBody) : (s.lEffect m c0 op d).Inv := by
  unfold State.lEffect
  split
  · exact modCore_inv (post_inv hs _ _ _) fun _ hx => ⟨hx.ldm, hx.imem, hx.gate, hx.gateUsed, hx.mode⟩
  · exact fenceEffect_inv hs m
  · split
    · exact modCore_inv hs fun c hx => lEffect_ok hx _ _ _
    · split
      · exact hs
      · split
        · exact issueLdg_inv (useXlate_inv hs _ _ _) _ _ _
        · exact issueStg_inv (useXlate_inv hs _ _ _) _ _ _ _
        · exact issueAtom_inv (useXlate_inv hs _ _ _) _ _ _ _ _ _

theorem v1Effect_inv {s : State} (hs : s.Inv) (m : MastId) (c0 : Core) (op : V1Op) (d : V1Body) : (s.v1Effect m c0 op d).Inv := by
  unfold State.v1Effect
  split
  · exact modCore_inv hs fun c hx => ⟨hx.ldm, hx.imem, hx.gate, hx.gateUsed, hx.mode⟩
  · exact modVec_inv hs fun v hv => vec_push_ok hv _

theorem xEffect_inv {s : State} (hs : s.Inv) (m : MastId) (c0 : Core) (op : XOp) (d : XBody) : (s.xEffect m c0 op d).Inv := by
  unfold State.xEffect
  repeat' first
    | with_reducible assumption | with_reducible apply modArr_inv | dsimp only | split | (intro x hx; exact { hx with }) | (intro x hx; exact hx)
    | (intro x hx; exact ⟨hx.1, hx.2⟩)
    | (intro x hx; (try dsimp only); (repeat' split) <;> first | exact hx | exact { hx with } | exact ⟨hx.1, hx.2⟩) | intro

theorem sEffect_inv {s : State} (hs : s.Inv) (m : MastId) (c0 : Core) (op : SOp) (d : SBody) : (s.sEffect m c0 op d).Inv := by
  unfold State.sEffect
  repeat' first
    | with_reducible assumption | with_reducible apply modSheet_inv | with_reducible apply modHal_inv | dsimp only | split
    | (intro x hx; exact { hx with }) | (intro x hx; exact hx) | (intro x hx; exact ⟨hx.1, hx.2⟩)
    | (intro x hx; (try dsimp only); (repeat' split) <;> first | exact hx | exact { hx with } | exact ⟨hx.1, hx.2⟩) | intro

theorem bEffect_inv {s : State} (hs : s.Inv) (m : MastId) {c0 : Core} {op : BOp} {d : BBody} (after : Nat)
    (h : branchHold c0 (.b op d) = none) : (s.bEffect m c0 op d after).Inv := by
  unfold State.bEffect
  split
  · exact modDc_inv (consume_inv hs _ _)
  · refine modCore_inv hs fun c hx => bEffect_ok hx _ _ _ _ ?_ ?_
    · rintro rfl
      simpa [branchHold] using h
    · rintro rfl
      simpa [branchHold] using h

theorem sylEffect_inv {s : State} (hs : s.Inv) (m : MastId) {c0 : Core} (after : Nat) {y : Syl} (h : branchHold c0 y = none) :
    (s.sylEffect m c0 after y).Inv := by
  unfold State.sylEffect
  split
  · exact modCore_inv hs fun c hx => cEffect_ok hx _ _ _ _
  · exact lEffect_inv hs _ _ _ _
  · exact modVec_inv hs fun v hv => vec_push_ok hv _
  · exact v1Effect_inv hs _ _ _ _
  · exact xEffect_inv hs _ _ _ _
  · exact sEffect_inv hs _ _ _ _
  · exact bEffect_inv hs _ _ h

theorem advance_inv {s : State} (hs : s.Inv) (m : MastId) (c0 : Core) (ys : List Syl) : (s.advance m c0 ys).Inv := by
  have h : ((((s.modCore m fun c => c0.advance c ys).bump m 0x38).countHalf m 0x30 false (redirectCost c0 ys)).clearStall m 0).Inv :=
    clearStall_inv (countHalf_inv (bump_inv (modCore_inv hs fun c hx => Core.advance_ok hx _ _)) _ _ _ _) _ _
  unfold State.advance
  dsimp only
  split
  · exact beginHalt_inv h m
  · exact h

theorem coreEcc_inv {s : State} (hs : s.Inv) (m : MastId) (ldm imem other : Cell → Bool) : (s.coreEcc m ldm imem other).Inv := by
  have h := modMast_inv (m := m) (f := fun x =>
    { x with cnt := Tab.satAdd (Tab.satAdd x.cnt 0x20 0 32 (s.flaws .corr fun c => ldm c || other c)) 0x20 32 32 (s.flaws .corr imem) }) hs
    fun _ hx => { hx with cnt := tab_satAdd_wf (tab_satAdd_wf hx.cnt) }
  unfold State.coreEcc
  dsimp only
  split
  · exact jobFault_inv h _ _ _
  · exact h

theorem fenceOver_inv {s : State} (hs : s.Inv) (m : MastId) : (s.fenceOver m).Inv := by
  unfold State.fenceOver
  repeat' first
    | with_reducible assumption | with_reducible apply modCore_inv | dsimp only | split | (intro x hx; exact { hx with }) | (intro x hx; exact hx)
    | (intro x hx; exact ⟨hx.1, hx.2⟩)
    | (intro x hx; (try dsimp only); (repeat' split) <;> first | exact hx | exact { hx with } | exact ⟨hx.1, hx.2⟩) | intro

theorem fetched_inv {s : State} (hs : s.Inv) (m : MastId) (ys : List Syl) : (s.fetched m ys).Inv :=
  fenceOver_inv (modCore_inv (coreEcc_inv hs _ _ _ _) fun _ hx => Core.modCur_ok hx) m

theorem finish_inv {s : State} (hs : s.Inv) (m : MastId) (c0 : Core) (ys : List Syl) : (s.finish m c0 ys).Inv :=
  advance_inv (mend_inv hs _) _ _ _

theorem issue_inv {s : State} (hs : s.Inv) {m : MastId} {ys : List Syl} (h : s.exception m ys = none) : (s.issue m ys).Inv := by
  have k : ∀ (l : List Syl) (t : State), (∀ y ∈ l, branchHold (s.mast m).core y = none) → t.Inv →
      (l.foldl (fun t y => t.sylEffect m (s.mast m).core ((s.mast m).core.npc.toNat + bundleBytes ys) y) t).Inv := by
    intro l
    induction l with
    | nil => intro t _ ht; exact ht
    | cons y l ih => intro t hl ht; exact ih _ (fun z hz => hl z (.tail _ hz)) (sylEffect_inv ht m _ (hl y (.head _)))
  exact finish_inv (k ys _ (fun y hy => exception_none h hy) (fetched_inv hs m ys)) _ _ _

theorem stopAt_inv {s : State} (hs : s.Inv) (m : MastId) (h : Hold) : (s.stopAt m h).Inv := by
  unfold State.stopAt
  repeat' first
    | with_reducible assumption | with_reducible apply stallFor_inv | with_reducible apply raiseReturn_inv | with_reducible apply raise_inv
    | with_reducible apply addMiss_inv | with_reducible apply addFault_inv | dsimp only | split
    | (refine modCore_inv ?_ ?_; rotate_left; exact fun _ hx => { hx with })

theorem afterWait_inv {s : State} (hs : s.Inv) (m : MastId) : (s.afterWait m).Inv := by
  have k : ∀ (n : Nat) (p : Bool), (s.modCore m fun c => { c.stalled n with returned := c.returned && p }).Inv :=
    fun n p => modCore_inv hs fun c hx => { Core.stalled_ok hx n with }
  unfold State.afterWait
  dsimp only
  split
  · exact hs
  · split
    · exact hs
    · split
      · exact countHalf_inv (k _ _) _ _ _ _
      · exact k _ _

theorem afterLoad_inv {s : State} (hs : s.Inv) (m : MastId) (ys : List Syl) : (s.afterLoad m ys).Inv := by
  unfold State.afterLoad
  dsimp only
  split
  · refine stallFor_inv (modCore_inv hs ?_) _ _ _ _
    exact fun _ hx => { hx with }
  · exact hs

theorem exactWaits_inv {s : State} (hs : s.Inv) (m : MastId) (ys : List Syl) : (s.exactWaits m ys).Inv := by
  have k : ∀ {t : State} (p : Prop) [Decidable p] (o : Nat) (b : Bool) (n : Nat), t.Inv → (if p then t else t.stallFor m o b n).Inv := by
    intro t p _ o b n ht
    split
    · exact ht
    · exact stallFor_inv ht _ _ _ _
  unfold State.exactWaits
  extract_lets c w t b v u a
  have ht : t.Inv := k _ _ _ _ hs
  clear_value v t
  have hu : u.Inv := k _ _ _ _ ht
  clear_value a u
  exact k _ _ _ _ hu

theorem ready_inv {s : State} (hs : s.Inv) (m : MastId) (ys : List Syl) : (s.ready m ys).Inv :=
  exactWaits_inv (afterLoad_inv (afterWait_inv hs m) m ys) m ys

theorem trapReads_inv {s : State} (hs : s.Inv) (m : MastId) (ys : List Syl) (n : Nat) (h : Hold) : (s.trapReads m ys n h).Inv := by
  unfold State.trapReads
  split
  · exact coreEcc_inv hs _ _ _ _
  · exact hs

theorem bundle_inv {s : State} (hs : s.Inv) (m : MastId) (ys : List Syl) : (s.bundle m ys).Inv := by
  have h := ready_inv hs m ys
  unfold State.bundle
  extract_lets t
  have ht : t.Inv := h
  clear_value t
  split
  · rename_i e; exact takeDeferrable_inv ht m e
  · split
    · exact stopAt_inv (trapReads_inv ht _ _ _ _) _ _
    · rename_i e; exact issue_inv ht (hold_none e)

theorem present_inv {s : State} (hs : s.Inv) (m : MastId) (y : Syl) : (s.present m y).Inv := by
  unfold State.present
  repeat' first
    | with_reducible assumption | with_reducible apply modCore_inv | with_reducible apply core_inv | with_reducible apply bundle_inv | dsimp only
    | split | (intro x hx; exact { hx with }) | (intro x hx; exact hx) | (intro x hx; exact ⟨hx.1, hx.2⟩)
    | (intro x hx; (try dsimp only); (repeat' split) <;> first | exact hx | exact { hx with } | exact ⟨hx.1, hx.2⟩) | intro

end Sys2Proof.Machine
end

