-- ==== Sys2Proof/Laws/VecUnit.lean ====
section
/-!
SUPPORT. Every operation of Machine/VecUnit.lean keeps the invariant of the module.
-/

namespace Sys2Proof.Machine

/-! ## The registers (04 R103-R107) -/

theorem Vec.setElem_ok {v : Vec} (h : v.Ok) (r n i x : Nat) : (v.setElem r n i x).Ok := ⟨mem_store_wf _ _ _ _ h.1, h.2⟩

theorem Vec.setKbit_ok {v : Vec} (h : v.Ok) (k i : Nat) (b : Bool) : (v.setKbit k i b).Ok := ⟨h.1, sparse_set_wf _ _ _ h.2⟩

theorem Vec.put_ok {v : Vec} (h : v.Ok) (k : VCmd) (vd n i : Nat) (on : Bool) (x : Nat) : (v.put k vd n i on x).Ok := by
  unfold Vec.put
  split
  · exact Vec.setElem_ok h _ _ _ _
  · split
    · exact Vec.setElem_ok h _ _ _ _
    · exact h

theorem Vec.kop_ok {v : Vec} (h : v.Ok) (d : V0Body) : (v.kop d).Ok :=
  fold_keeps (P := Vec.Ok) (fun _ _ ht => Vec.setKbit_ok ht _ _ _) _ h

theorem Vec.v0Run_ok {v : Vec} (h : v.Ok) (k : VCmd) (op : V0Op) (d : V0Body) (ovm ftz : Bool) (lo : Nat) : (v.v0Run k op d ovm ftz lo).1.Ok := by
  unfold Vec.v0Run
  dsimp only
  refine fold_keeps (P := fun p : Vec × NF => p.1.Ok) (fun t i ht => ?_) _ h
  split
  · split
    · exact Vec.setKbit_ok ht _ _ _
    · split
      · exact Vec.setKbit_ok ht _ _ _
      · exact ht
  · split
    · exact Vec.setKbit_ok ht _ _ _
    · split
      · exact Vec.setKbit_ok ht _ _ _
      · exact ht
  · exact Vec.setElem_ok ht _ _ _ _
  · exact Vec.put_ok ht _ _ _ _ _ _
  · exact Vec.put_ok ht _ _ _ _ _ _

theorem Vec.v0_ok {v : Vec} (h : v.Ok) (k : VCmd) (op : V0Op) (d : V0Body) (ovm ftz : Bool) (lo : Nat) : (v.v0 k op d ovm ftz lo).1.Ok := by
  unfold Vec.v0
  dsimp only
  split
  · dsimp only
    with_reducible exact Vec.kop_ok h d
  · split
    · exact h
    · split
      · exact Vec.setElem_ok h _ _ _ _
      · split
        · exact Vec.setElem_ok h _ _ _ _
        · exact Vec.v0Run_ok h _ _ _ _ _ _

theorem Vec.permute_ok {v : Vec} (h : v.Ok) (k : VCmd) (op : V1Op) (d : V1Body) : (v.permute k op d).Ok := by
  unfold Vec.permute
  dsimp only
  split
  · exact fold_keeps (P := Vec.Ok) (fun _ _ ht => Vec.setElem_ok ht _ _ _ _) _ h
  · exact fold_keeps (P := Vec.Ok) (fun _ _ ht => Vec.put_ok ht _ _ _ _ _ _) _ h

theorem Vec.takeReg_ok {u : Vec} (h : u.Ok) (p : Vec) (r : Nat) : (u.takeReg p r).Ok := by
  unfold Vec.takeReg
  generalize Mem.bytes p.vreg (0x400 * r) 0x400 = b1
  generalize Mem.bytes p.kreg (0x80 * (r - 32)) 0x80 = b2
  split
  · exact ⟨mem_put_wf _ _ _ h.1, h.2⟩
  · exact ⟨h.1, mem_put_wf _ _ _ h.2⟩

theorem Vec.rewind_ok {v : Vec} (h : v.Ok) (a : ArithRun) (b : Nat) : (v.rewind a b).1.Ok := by
  unfold Vec.rewind
  split
  · exact h
  · exact fold_keeps (P := Vec.Ok) (fun u r hu => Vec.takeReg_ok hu _ r) _ h

theorem Vec.asStopped_ok {v : Vec} (h : v.Ok) : v.asStopped.1.Ok := by
  unfold Vec.asStopped
  split
  · exact Vec.rewind_ok h _ _
  · exact h

theorem vecHalt_ok {x : Mast} (h : x.Ok) : x.vecHalt.Ok :=
  have k : x.vec.asStopped.1.Ok := Vec.asStopped_ok ⟨h.vreg, h.kreg⟩
  ⟨h.core, k.1, k.2, h.tok, h.bankMem, h.rowmap, h.hist, h.breg, h.tiles, h.cnt, h.shadow⟩

theorem Vec.zeroOff_ok {v : Vec} (h : v.Ok) (k : VCmd) (op : V1Op) (d : V1Body) (lo hi : Nat) : (v.zeroOff k op d lo hi).Ok := by
  unfold Vec.zeroOff
  split
  all_goals
    first
    | exact h
    | split
      · exact fold_keeps (P := Vec.Ok) (fun _ _ ht => Vec.setElem_ok ht _ _ _ _) _ h
      · exact h

theorem State.Inv.vec {s : State} (h : s.Inv) (m : MastId) : (s.mast m).vec.Ok := ⟨(h.masts m).vreg, (h.masts m).kreg⟩

/-! ## The unit -/

theorem vecSettle_inv {s : State} (hs : s.Inv) (m : MastId) : (s.vecSettle m).Inv := by
  unfold State.vecSettle
  split
  · exact modMast_inv hs fun _ => vecHalt_ok
  · exact hs

theorem vecFails_inv {s : State} (hs : s.Inv) (m : MastId) (kind : Nat) (va : BitVec 56) (pc : BitVec 17) (wr : Bool) (elem : Nat) (idx : Nat) : (s.vecFails m kind va pc wr elem idx).Inv := by
  unfold State.vecFails
  repeat' first
    | with_reducible assumption | with_reducible apply modVec_inv | with_reducible apply vecSettle_inv | dsimp only
    | (intro x hx; exact { hx with }) | (intro x hx; exact hx) | (intro x hx; exact ⟨hx.1, hx.2⟩)
    | (intro x hx; (try dsimp only); (repeat' split) <;> first | exact hx | exact { hx with } | exact ⟨hx.1, hx.2⟩) | intro

theorem engWrite_inv {s : State} (hs : s.Inv) (m : MastId) (cls : Nat) (pa : BitVec 52) (bs : List Byte) : (s.engWrite m cls pa bs).Inv := by
  unfold State.engWrite
  repeat' first
    | with_reducible assumption | with_reducible apply writeBytes_inv | with_reducible apply awaitAck_inv | with_reducible apply sendTo_inv
    | dsimp only | split

theorem engMask_inv {s : State} (hs : s.Inv) (m : MastId) (cls : Nat) (lo n : Nat) (ws : List (Nat × List Byte)) :
    (s.engMask m cls lo n ws).Inv := by
  unfold State.engMask
  repeat' first
    | with_reducible assumption | with_reducible apply awaitAck_inv | with_reducible apply sendTo_inv | dsimp only | split
    | (intro x hx; exact { hx with }) | (intro x hx; exact hx) | (intro x hx; exact ⟨hx.1, hx.2⟩)
    | (intro x hx; (try dsimp only); (repeat' split) <;> first | exact hx | exact { hx with } | exact ⟨hx.1, hx.2⟩) | intro

theorem vaccess_inv {s : State} (hs : s.Inv) (m : MastId) (op : V1Op) (d : V1Body) (n : Nat) (g : List (Nat × BitVec 52)) :
    (s.vaccess m op d n g).Inv := by
  unfold State.vaccess
  dsimp only
  split
  · split
    · exact engMask_inv hs _ _ _ _ _
    · exact foldl_inv hs fun t x ht => engWrite_inv ht _ _ _ _
  · refine modVec_inv ?_ (by intro v hv; exact ⟨hv.1, hv.2⟩)
    split
    · exact mk_inv (sendTo_inv hs _ _ _ _ _)
    · exact mk_inv hs

theorem vdrain_inv {s : State} (hs : s.Inv) (m : MastId) (op : V1Op) (d : V1Body) (n : Nat) (gs : List (List (Nat × BitVec 52))) :
    (s.vdrain m op d n gs).Inv := by
  induction gs generalizing s with
  | nil => exact modVec_inv hs (by intro v hv; exact ⟨hv.1, hv.2⟩)
  | cons g rest ih =>
    have k : ∀ t : State, t.Inv → (t.modVec m fun v => { v with ready := g :: rest }).Inv := fun t ht =>
      modVec_inv ht (by intro v hv; exact ⟨hv.1, hv.2⟩)
    have hq := ask_inv hs (.vec m) (s.vlines op n g)
    unfold State.vdrain
    dsimp only
    split
    · exact k _ hs
    · split
      · exact ih (vaccess_inv hq _ _ _ _ _)
      · exact k _ hq

theorem vbeat_inv {s : State} (hs : s.Inv) (m : MastId) (k : VCmd) (op : V1Op) (d : V1Body) (lo : Nat) : (s.vbeat m k op d lo).1.Inv := by
  unfold State.vbeat
  extract_lets v hi is cs good bad s1 go
  have h1 : s1.Inv := useXlate_inv hs m _ _
  have hz : ∀ (r : List (List (Nat × BitVec 52))) (u : List (Nat × BitVec 52)) (i j : Nat),
      (s1.modVec m fun v => { (v.zeroOff k op d lo j) with ready := r, tail := u, mnext := i }).Inv := fun r u i j =>
    modVec_inv h1 fun v hv => (Vec.zeroOff_ok hv k op d lo j : (v.zeroOff k op d lo j).Ok)
  have hg : ∀ es i, (go es i).Inv := by
    intro es i
    dsimp only [go]
    split
    · exact bumpBy_inv (hz _ _ _ _)
    · exact hz _ _ _ _
  clear_value bad good s1 go
  split
  · exact hg _ _
  · split
    · exact hg _ _
    · split
      · exact modVec_inv h1 fun _ hv => ⟨hv.1, hv.2⟩
      have h3 := fun (i : Nat) => modVec_inv (m := m) (f := fun v => { (v.zeroOff k op d lo i) with mnext := i }) h1
        fun v hv => (Vec.zeroOff_ok hv k op d lo i : (v.zeroOff k op d lo i).Ok)
      dsimp only
      split
      · exact addMiss_inv (h3 _) _ _
      · exact vecFails_inv (h3 _) _ _ _ _ _ _ _
      · exact addFault_inv (h3 _) _ _
      · exact h3 _

theorem vmem_inv {s : State} (hs : s.Inv) (m : MastId) : (s.vmem m).1.Inv := by
  unfold State.vmem
  dsimp only
  split
  · exact hs
  · split
    · exact hs
    · split
      · exact vdrain_inv hs _ _ _ _ _
      · have k := modVec_inv (m := m) (f := fun v => { v with mem := none, mnext := 0, arith := v.arith.map fun a => { a with first := true } }) hs
          (by intro v hv; exact ⟨hv.1, hv.2⟩)
        have f := modVec_inv (m := m) (f := Vec.flushTail) hs (by intro v hv; exact ⟨hv.1, hv.2⟩)
        repeat' split
        all_goals first | with_reducible exact hs | with_reducible exact k | with_reducible exact f | exact vbeat_inv hs _ _ _ _ _

theorem vecArith_inv {s : State} (hs : s.Inv) (m : MastId) (k : VCmd) (op : V0Op) (d : V0Body) : (s.vecArith m k op d).Inv := by
  have h := fun md lo => Vec.v0_ok (hs.vec m) k op d md lo
  unfold State.vecArith
  dsimp only
  refine modMast_inv (modVec_inv hs fun v hv => ⟨(h _ _ _).1, (h _ _ _).2⟩) ?_
  exact fun x hx => { hx with }

theorem vhead_inv {s : State} (hs : s.Inv) (m : MastId) (k : VCmd) : (s.vhead m k).1.Inv := by
  have hp : ∀ t : State, t.Inv → ((t.modVec m fun v => { (v.pop k) with vidxM := 0 }).clearStall m 1).Inv := by
    intro t ht
    refine clearStall_inv (modVec_inv ht ?_) _ _
    exact fun v hv => ⟨hv.1, hv.2⟩
  unfold State.vhead
  dsimp only
  split
  · exact hs
  · split
    · exact clearStall_inv (vecArith_inv hs _ _ _ _) _ _
    · split
      · exact hs
      · split
        · exact hp _ hs
        · split
          · split
            · exact hs
            · exact hp _ (modVec_inv hs (by intro v hv; exact ⟨hv.1, hv.2⟩))
          · split
            · split
              · exact hp _ (consume_inv hs _ _)
              · exact hs
            · split
              · exact hp _ (postFrom_inv hs _ _ _)
              · exact hp _ (modVec_inv hs fun v hv => Vec.permute_ok hv _ _ _)
    · exact hp _ hs

theorem vecGo_inv {s : State} (hs : s.Inv) (m : MastId) (n : Nat) : (s.vecGo m n).Inv := by
  induction n generalizing s with
  | zero => exact hs
  | succ n ih =>
    have h := vmem_inv hs m
    unfold State.vecGo
    dsimp only
    split
    · exact hs
    · split
      · exact ih h
      · split
        · exact h
        · split
          · exact h
          · have g := fun k => vhead_inv h m k
            split
            · exact ih (g _)
            · exact g _

theorem vecAdvance_inv {s : State} (hs : s.Inv) (m : MastId) : (s.vecAdvance m).Inv := by
  unfold State.vecAdvance
  repeat' first
    | with_reducible assumption | with_reducible apply vecGo_inv | with_reducible apply vecSettle_inv | dsimp only

theorem vecWrite_inv {s : State} (hs : s.Inv) (m : MastId) (r : VReq) (bs : List Byte) : (s.vecWrite m r bs).Inv := by
  refine modVec_inv hs fun v hv => ?_
  split
  · exact ⟨hv.1, mem_put_wf _ _ _ hv.2⟩
  · exact ⟨mem_put_wf _ _ _ hv.1, hv.2⟩

theorem vecReturn_inv {s : State} (hs : s.Inv) (m : MastId) (remote : RemoteData) : (s.vecReturn m remote).Inv := by
  unfold State.vecReturn
  split
  · exact hs
  split
  · exact hs
  extract_lets mine g t base far g2 u q v w
  have hg : g.1.Inv := ask_inv hs _ _
  have hg2 : g2.1.Inv := by
    dsimp only [g2]
    clear_value far
    cases far with
    | nil => exact hg
    | cons r l => exact answered_inv hg _ _ _ _ _ _
  have hq : q.1.Inv := foldl_fst_inv hg2 fun t x ht => by
    dsimp only
    split
    · exact vecWrite_inv (readBytes_inv ht _ _) _ _ _
    · exact vecWrite_inv ht _ _ _
  have hv : v.Inv := modVec_inv hq (by intro v hv; exact ⟨hv.1, hv.2⟩)
  clear_value v q
  split
  · exact hg
  · refine vecAdvance_inv ?_ m
    dsimp only [w]
    split
    · exact jobFault_inv hv _ _ _
    · exact hv

end Sys2Proof.Machine
end

