-- ==== Sys2Proof/Laws/Accum.lean ====
section
/-!
SUPPORT. Every operation of Machine/Accum.lean keeps the invariant of the module.
-/

namespace Sys2Proof.Machine

theorem setCrc_inv {s : State} (hs : s.Inv) (m : MastId) (e : EngId) (pa : Nat) : (s.setCrc m e pa).Inv :=
  mk_check_inv hs (sparse_set_wf _ _ _ hs.check)

end Sys2Proof.Machine
end

