-- ==== Sys2Proof/Laws/Passes.lean ====
section
/-!
SUPPORT. Every operation of Machine/Passes.lean keeps the invariant of the module.
-/

namespace Sys2Proof.Machine

/-- A table written by rising index, zeros left out, is in canonical form. -/
theorem sparse_range_wf {w : Nat} {g : Nat → Option (Nat × BitVec w)} (hg : ∀ n e, g n = some e → e.1 = n ∧ e.2 ≠ Sparse.blank w) :
    ∀ k a : Nat, Sparse.wf ((List.range' a k).filterMap g) = true ∧ ∀ b, b < a → Sparse.above b ((List.range' a k).filterMap g) = true := by
  intro k
  induction k with
  | zero => intro a; exact ⟨rfl, fun _ _ => rfl⟩
  | succ k ih =>
    intro a
    obtain ⟨h1, h2⟩ := ih (a + 1)
    rw [List.range'_succ, List.filterMap_cons]
    cases e : g a with
    | none => exact ⟨h1, fun b hb => h2 b (by omega)⟩
    | some x =>
      obtain ⟨rfl, hx⟩ := hg _ _ e
      refine ⟨?_, fun b hb => ?_⟩
      · simp [Sparse.wf, h1, h2 x.1 (by omega), hx]
      · simp [Sparse.above, hb, h2 b (by omega)]

theorem APass.entries_wf (p : APass) (cv bk : Nat → Byte) (t : Tile) (b : Nat) : Sparse.wf (p.entries cv bk t b).1 = true := by
  unfold APass.entries
  dsimp only
  rw [List.filterMap_map, List.range_eq_range']
  refine (sparse_range_wf (fun n e h => ?_) _ _).1
  dsimp only [Function.comp] at h
  split at h
  · cases h
  · rename_i hz
    cases h
    refine ⟨rfl, fun h => hz ?_⟩
    have := congrArg BitVec.toNat h
    simpa [Sparse.blank] using this

/-! ## The steps of a pass -/

theorem foldl_mem_inv {α : Type} {Q : α → Prop} {f : State → α → State} (hf : ∀ (t : State) x, Q x → t.Inv → (f t x).Inv) :
    ∀ (l : List α) {s : State}, (∀ x ∈ l, Q x) → s.Inv → (l.foldl f s).Inv
  | [], _, _, h => h
  | x :: l, _, hl, h => foldl_mem_inv hf l (fun y hy => hl y (.tail _ hy)) (hf _ x (hl x (.head _)) h)

theorem askStop_inv {s : State} (hs : s.Inv) (m : MastId) (a : ArrId) : (s.askStop m a).Inv := by
  unfold State.askStop
  repeat' first
    | with_reducible assumption | with_reducible apply modArr_inv | with_reducible apply ask_inv | dsimp only | split
    | (intro x hx; exact { hx with }) | (intro x hx; exact hx) | (intro x hx; exact ⟨hx.1, hx.2⟩)
    | (intro x hx; (try dsimp only); (repeat' split) <;> first | exact hx | exact { hx with } | exact ⟨hx.1, hx.2⟩) | intro

theorem arrFault_inv {s : State} (hs : s.Inv) (m : MastId) (a : ArrId) (kind : Nat) (tile : Nat) (kdone : Nat) (daddr : BitVec 12) (batch : Option (Fin 4)) (pc : BitVec 17) : (s.arrFault m a kind tile kdone daddr batch pc).Inv := by
  unfold State.arrFault
  repeat' first
    | with_reducible assumption | with_reducible apply modArr_inv | with_reducible apply askStop_inv | with_reducible apply jobFault_inv
    | dsimp only | split | (intro x hx; exact { hx with }) | (intro x hx; exact hx) | (intro x hx; exact ⟨hx.1, hx.2⟩)
    | (intro x hx; (try dsimp only); (repeat' split) <;> first | exact hx | exact { hx with } | exact ⟨hx.1, hx.2⟩) | intro

theorem modPassK_inv {s : State} (hs : s.Inv) (m : MastId) (t : Fin 16) (f : PassK → PassK) : (s.modPassK m t f).Inv := by
  unfold State.modPassK
  repeat' first
    | with_reducible assumption | with_reducible apply modArr_inv | dsimp only | (intro x hx; exact { hx with }) | (intro x hx; exact hx)
    | (intro x hx; exact ⟨hx.1, hx.2⟩)
    | (intro x hx; (try dsimp only); (repeat' split) <;> first | exact hx | exact { hx with } | exact ⟨hx.1, hx.2⟩) | intro

theorem modTile_inv {s : State} (hs : s.Inv) (m : MastId) (t : Fin 16) {f : Tile → Tile}
    (hf : ∀ x : Tile, Sparse.wf x.ents = true → Sparse.wf (f x).ents = true) : (s.modTile m t f).Inv :=
  modMast_inv hs fun x hx => { hx with
    tiles := fun i => by
      by_cases e : i = t
      · subst e; simpa using hf _ (hx.tiles i)
      · simpa [vget_set_ne _ _ _ e] using hx.tiles i }

theorem readStep_inv {s : State} (hs : s.Inv) (m : MastId) (p : APass) (b : Nat) : (s.readStep m p b).Inv := by
  unfold State.readStep
  repeat' first
    | with_reducible assumption | with_reducible apply foldl_inv | with_reducible apply canvasRead_inv | with_reducible apply foldl_inv
    | with_reducible apply foldl_fst_inv | dsimp only | split | (intro x hx; exact { hx with }) | (intro x hx; exact hx)
    | (intro x hx; exact ⟨hx.1, hx.2⟩)
    | (intro x hx; (try dsimp only); (repeat' split) <;> first | exact hx | exact { hx with } | exact ⟨hx.1, hx.2⟩) | intro

theorem setPass_inv {s : State} (hs : s.Inv) (m : MastId) (p : APass) (q : Option APass) : (s.setPass m p q).Inv := by
  unfold State.setPass
  repeat' first
    | with_reducible assumption | with_reducible apply modArr_inv | dsimp only | split | (intro x hx; exact { hx with }) | (intro x hx; exact hx)
    | (intro x hx; exact ⟨hx.1, hx.2⟩)
    | (intro x hx; (try dsimp only); (repeat' split) <;> first | exact hx | exact { hx with } | exact ⟨hx.1, hx.2⟩) | intro

theorem passFault_inv {s : State} (hs : s.Inv) (m : MastId) (p : APass) (kind : Nat) (j : Nat) : (s.passFault m p kind j).Inv := by
  unfold State.passFault
  repeat' first
    | with_reducible assumption | with_reducible apply setPass_inv | with_reducible apply modPassK_inv | with_reducible apply modArr_inv
    | with_reducible apply fire_inv | with_reducible apply arrFault_inv | dsimp only | split | (intro x hx; exact { hx with })
    | (intro x hx; exact hx) | (intro x hx; exact ⟨hx.1, hx.2⟩)
    | (intro x hx; (try dsimp only); (repeat' split) <;> first | exact hx | exact { hx with } | exact ⟨hx.1, hx.2⟩) | intro

theorem writeStep_inv {s : State} (hs : s.Inv) (m : MastId) (p : APass) {e : Tab × NF} (he : Sparse.wf e.1 = true) : (s.writeStep m p e).Inv := by
  have h := mend_inv (modTile_inv (f := fun t => { t with ents := e.1 }) hs m p.tile fun _ _ => he)
    fun c => match c with | .tile k t _ => decide (k = m ∧ t = p.tile) | _ => false
  have h := modMast_inv (f := fun x => x.setFlags (1 + p.arr.val) e.2) (m := m) h fun x hx => { hx with }
  unfold State.writeStep
  exact setPass_inv (modPassK_inv h m p.tile _) m p _

theorem passFinal_inv {s : State} (hs : s.Inv) (m : MastId) (p : APass) : (s.passFinal m p).Inv := by
  unfold State.passFinal
  repeat' first
    | with_reducible assumption | with_reducible apply setPass_inv | with_reducible apply modPassK_inv | with_reducible apply modTile_inv
    | with_reducible apply bump_inv | with_reducible apply postFrom_inv | dsimp only | split | (intro x hx; exact { hx with })
    | (intro x hx; exact hx) | (intro x hx; exact ⟨hx.1, hx.2⟩)
    | (intro x hx; (try dsimp only); (repeat' split) <;> first | exact hx | exact { hx with } | exact ⟨hx.1, hx.2⟩) | intro

theorem passRepeat_inv {s : State} (hs : s.Inv) (m : MastId) (p : APass) (ovf : Bool) : (s.passRepeat m p ovf).Inv := by
  unfold State.passRepeat
  repeat' first
    | with_reducible assumption | with_reducible apply setPass_inv | with_reducible apply modPassK_inv | with_reducible apply modTile_inv
    | with_reducible apply modArr_inv | with_reducible apply bump_inv | dsimp only | split | (intro x hx; exact { hx with })
    | (intro x hx; exact hx) | (intro x hx; exact ⟨hx.1, hx.2⟩)
    | (intro x hx; (try dsimp only); (repeat' split) <;> first | exact hx | exact { hx with } | exact ⟨hx.1, hx.2⟩) | intro

theorem stopTwin_inv {s : State} (hs : s.Inv) (m : MastId) : (s.stopTwin m).Inv := by
  unfold State.stopTwin
  repeat' first
    | with_reducible assumption | with_reducible apply modArr_inv | dsimp only | split
    | (intro x hx; exact { hx with }) | (intro x hx; exact hx) | (intro x hx; exact ⟨hx.1, hx.2⟩)
    | (intro x hx; (try dsimp only); (repeat' split) <;> first | exact hx | exact { hx with } | exact ⟨hx.1, hx.2⟩) | intro

theorem kstep_inv {s : State} (hs : s.Inv) (m : MastId) (ps : List APass) : (s.kstep m ps).Inv := by
  unfold State.kstep
  extract_lets t fault es
  have ht : t.Inv := foldl_inv hs fun t p ht => readStep_inv ht _ _ _
  have he : ∀ e ∈ es, Sparse.wf e.2.1 = true := by
    intro e he
    obtain ⟨p, _, rfl⟩ := List.mem_map.mp he
    exact APass.entries_wf _ _ _ _ _
  clear_value fault es t
  cases fault with
  | some k => exact foldl_inv ht fun t p ht => passFault_inv ht _ _ _ _
  | none =>
    dsimp only
    split
    · split
      · exact foldl_inv ht fun t p ht => passFault_inv ht _ _ _ _
      · exact stopTwin_inv (foldl_inv ht fun t p ht => passRepeat_inv ht _ _ _) m
    · refine foldl_mem_inv (Q := fun e : APass × Tab × NF => Sparse.wf e.2.1 = true) (fun t e he ht => ?_) _ he ht
      split
      · exact passFinal_inv (writeStep_inv ht _ _ he) _ _
      · exact writeStep_inv ht _ _ he

theorem kStepWrite_inv {s : State} (hs : s.Inv) (m : MastId) (t : Fin 16) : (s.kStepWrite m t).Inv := by
  unfold State.kStepWrite
  repeat' first
    | with_reducible assumption | with_reducible apply modArr_inv | with_reducible apply kstep_inv | dsimp only | split
    | (intro x hx; exact { hx with }) | (intro x hx; exact hx) | (intro x hx; exact ⟨hx.1, hx.2⟩)
    | (intro x hx; (try dsimp only); (repeat' split) <;> first | exact hx | exact { hx with } | exact ⟨hx.1, hx.2⟩) | intro

end Sys2Proof.Machine
end

