-- ==== Sys2Proof/Laws/Arrays.lean ====
section
/-!
SUPPORT. Every operation of Machine/Arrays.lean keeps the invariant of the module.
-/

namespace Sys2Proof.Machine

theorem beginPass_inv {s : State} (hs : s.Inv) (m : MastId) (p : APass) (rows : Nat) : (s.beginPass m p rows).Inv := by
  unfold State.beginPass
  repeat' first
    | with_reducible assumption | with_reducible apply modArr_inv | with_reducible apply modTile_inv | with_reducible apply modMast_inv
    | with_reducible apply setFlags_inv | with_reducible apply modPassK_inv | dsimp only | split | (intro x hx; exact { hx with })
    | (intro x hx; exact hx) | (intro x hx; exact ⟨hx.1, hx.2⟩)
    | (intro x hx; (try dsimp only); (repeat' split) <;> first | exact hx | exact { hx with } | exact ⟨hx.1, hx.2⟩) | intro

theorem unstop_inv {s : State} (hs : s.Inv) (m : MastId) (t : Fin 16) : (s.unstop m t).Inv := by
  unfold State.unstop
  repeat' first
    | with_reducible assumption | with_reducible apply modTile_inv | with_reducible apply modPassK_inv | dsimp only | split
    | (intro x hx; exact { hx with }) | (intro x hx; exact hx) | (intro x hx; exact ⟨hx.1, hx.2⟩)
    | (intro x hx; (try dsimp only); (repeat' split) <;> first | exact hx | exact { hx with } | exact ⟨hx.1, hx.2⟩) | intro

theorem resumePass_inv {s : State} (hs : s.Inv) (m : MastId) (p : APass) : (s.resumePass m p).Inv := by
  unfold State.resumePass
  repeat' first
    | with_reducible assumption | with_reducible apply modArr_inv | with_reducible apply unstop_inv | dsimp only | (intro x hx; exact { hx with })
    | (intro x hx; exact hx) | (intro x hx; exact ⟨hx.1, hx.2⟩)
    | (intro x hx; (try dsimp only); (repeat' split) <;> first | exact hx | exact { hx with } | exact ⟨hx.1, hx.2⟩) | intro

theorem popArr_inv {s : State} (hs : s.Inv) (m : MastId) (a : ArrId) : (s.popArr m a).Inv := by
  unfold State.popArr
  repeat' first
    | with_reducible assumption | with_reducible apply modArr_inv | with_reducible apply clearStall_inv | dsimp only
    | (intro x hx; exact { hx with }) | (intro x hx; exact hx) | (intro x hx; exact ⟨hx.1, hx.2⟩)
    | (intro x hx; (try dsimp only); (repeat' split) <;> first | exact hx | exact { hx with } | exact ⟨hx.1, hx.2⟩) | intro

theorem startPass_inv {s : State} (hs : s.Inv) (m : MastId) (a : ArrId) (k : ACmd) : (s.startPass m a k).Inv := by
  unfold State.startPass
  repeat' first
    | with_reducible assumption | with_reducible apply foldl_inv | with_reducible apply popArr_inv | with_reducible apply resumePass_inv
    | with_reducible apply arrFault_inv | with_reducible apply beginPass_inv | with_reducible apply consume_inv | with_reducible apply foldl_inv
    | with_reducible apply foldl_fst_inv | dsimp only | split | (intro x hx; exact { hx with }) | (intro x hx; exact hx)
    | (intro x hx; exact ⟨hx.1, hx.2⟩)
    | (intro x hx; (try dsimp only); (repeat' split) <;> first | exact hx | exact { hx with } | exact ⟨hx.1, hx.2⟩) | intro

theorem modBq_inv {s : State} (hs : s.Inv) (m : MastId) (a : ArrId) (q : Fin 4) (f : BQueue → BQueue) : (s.modBq m a q f).Inv := by
  unfold State.modBq
  repeat' first
    | with_reducible assumption | with_reducible apply modArr_inv | dsimp only | (intro x hx; exact { hx with }) | (intro x hx; exact hx)
    | (intro x hx; exact ⟨hx.1, hx.2⟩)
    | (intro x hx; (try dsimp only); (repeat' split) <;> first | exact hx | exact { hx with } | exact ⟨hx.1, hx.2⟩) | intro

theorem arrTake_inv {s : State} (hs : s.Inv) (m : MastId) (a : ArrId) (i : Nat) (n : Nat) : (s.arrTake m a i n).Inv := by
  unfold State.arrTake
  repeat' first
    | with_reducible assumption | with_reducible apply setSlot_inv | dsimp only

theorem armQueue_inv {s : State} (hs : s.Inv) (m : MastId) (a : ArrId) (k : ACmd) : (s.armQueue m a k).Inv := by
  unfold State.armQueue
  repeat' first
    | with_reducible assumption | with_reducible apply arrFault_inv | with_reducible apply popArr_inv | with_reducible apply modBq_inv | dsimp only
    | split | (intro x hx; exact { hx with }) | (intro x hx; exact hx) | (intro x hx; exact ⟨hx.1, hx.2⟩)
    | (intro x hx; (try dsimp only); (repeat' split) <;> first | exact hx | exact { hx with } | exact ⟨hx.1, hx.2⟩) | intro

theorem passStart_inv {s : State} (hs : s.Inv) (m : MastId) (a : ArrId) : (s.passStart m a).Inv := by
  unfold State.passStart
  repeat' first
    | with_reducible assumption | with_reducible apply startPass_inv | with_reducible apply armQueue_inv | dsimp only | split

theorem operandRelease_inv {s : State} (hs : s.Inv) (m : MastId) (a : ArrId) : (s.operandRelease m a).Inv := by
  unfold State.operandRelease
  repeat' first
    | with_reducible assumption | with_reducible apply foldl_inv | with_reducible apply readStep_inv | with_reducible apply modArr_inv
    | with_reducible apply fire_inv | with_reducible apply postFrom_inv | with_reducible apply foldl_inv | with_reducible apply foldl_fst_inv
    | dsimp only | split | (intro x hx; exact { hx with }) | (intro x hx; exact hx) | (intro x hx; exact ⟨hx.1, hx.2⟩)
    | (intro x hx; (try dsimp only); (repeat' split) <;> first | exact hx | exact { hx with } | exact ⟨hx.1, hx.2⟩) | intro

theorem repeatStart_inv {s : State} (hs : s.Inv) (m : MastId) (a : ArrId) : (s.repeatStart m a).Inv := by
  unfold State.repeatStart
  repeat' first
    | with_reducible assumption | with_reducible apply modArr_inv | dsimp only | split | (intro x hx; exact { hx with }) | (intro x hx; exact hx)
    | (intro x hx; exact ⟨hx.1, hx.2⟩)
    | (intro x hx; (try dsimp only); (repeat' split) <;> first | exact hx | exact { hx with } | exact ⟨hx.1, hx.2⟩) | intro

theorem fire_inv {s : State} (hs : s.Inv) (m : MastId) (a : ArrId) (q : Fin 4) : (s.fire m a q).Inv := by
  unfold State.fire
  repeat' first
    | with_reducible assumption | with_reducible apply foldl_inv | with_reducible apply canvasRead_inv | with_reducible apply arrFault_inv
    | with_reducible apply arrTake_inv | with_reducible apply modBq_inv | with_reducible apply modArr_inv | with_reducible apply foldl_inv
    | with_reducible apply foldl_fst_inv | dsimp only | split | (intro x hx; exact { hx with }) | (intro x hx; exact hx)
    | (intro x hx; exact ⟨hx.1, hx.2⟩)
    | (intro x hx; (try dsimp only); (repeat' split) <;> first | exact hx | exact { hx with } | exact ⟨hx.1, hx.2⟩) | intro

theorem batchFire_inv {s : State} (hs : s.Inv) (m : MastId) (a : ArrId) (q : Fin 4) : (s.batchFire m a q).Inv := by
  unfold State.batchFire
  repeat' first
    | with_reducible assumption | with_reducible apply arrTake_inv | with_reducible apply fire_inv | dsimp only | split

theorem fillExpiry_inv {s : State} (hs : s.Inv) (m : MastId) (a : ArrId) (q : Fin 4) : (s.fillExpiry m a q).Inv := by
  unfold State.fillExpiry
  repeat' first
    | with_reducible assumption | with_reducible apply fire_inv | dsimp only | split

theorem fireAssembly_inv {s : State} (hs : s.Inv) (m : MastId) (a : ArrId) : (s.fireAssembly m a).Inv := by
  unfold State.fireAssembly
  repeat' first
    | with_reducible assumption | with_reducible apply foldl_inv | with_reducible apply canvasRead_inv | with_reducible apply modArr_inv
    | with_reducible apply arrFault_inv | with_reducible apply mend_inv | with_reducible apply foldl_inv | with_reducible apply foldl_fst_inv
    | dsimp only | split | (intro x hx; exact { hx with }) | (intro x hx; exact hx) | (intro x hx; exact ⟨hx.1, hx.2⟩)
    | (intro x hx; (try dsimp only); (repeat' split) <;> first | exact hx | exact { hx with } | exact ⟨hx.1, hx.2⟩) | intro

theorem batchPassStart_inv {s : State} (hs : s.Inv) (m : MastId) (a : ArrId) : (s.batchPassStart m a).Inv := by
  unfold State.batchPassStart
  repeat' first
    | with_reducible assumption
    | (intro x hx; exact { hx with rowmap := fold_keeps (P := fun p : Mem × Nat => Sparse.wf p.1 = true) (fun _ _ ht => mem_put_wf _ _ _ ht) _ hx.rowmap })
    | with_reducible apply modArr_inv | with_reducible apply arrFault_inv | with_reducible apply consume_inv | with_reducible apply modMast_inv
    | with_reducible apply foldl_inv | with_reducible apply beginPass_inv | with_reducible apply foldl_inv | with_reducible apply foldl_fst_inv
    | dsimp only | split | (intro x hx; exact { hx with }) | (intro x hx; exact hx) | (intro x hx; exact ⟨hx.1, hx.2⟩)
    | (intro x hx; (try dsimp only); (repeat' split) <;> first | exact hx | exact { hx with } | exact ⟨hx.1, hx.2⟩) | intro

theorem arriveTimers_inv {s : State} (hs : s.Inv) (m : MastId) (i : Fin 96) : (s.arriveTimers m i).Inv := by
  unfold State.arriveTimers
  repeat' first
    | with_reducible assumption | with_reducible apply modArr_inv | dsimp only | split | (intro x hx; exact { hx with }) | (intro x hx; exact hx)
    | (intro x hx; exact ⟨hx.1, hx.2⟩)
    | (intro x hx; (try dsimp only); (repeat' split) <;> first | exact hx | exact { hx with } | exact ⟨hx.1, hx.2⟩) | intro

theorem arrStop_inv {s : State} (hs : s.Inv) (m : MastId) (a : ArrId) : (s.arrStop m a).Inv := by
  unfold State.arrStop
  repeat' first
    | with_reducible assumption | with_reducible apply askStop_inv | dsimp only | split

theorem arrStopped_inv {s : State} (hs : s.Inv) (m : MastId) (a : ArrId) : (s.arrStopped m a).Inv := by
  unfold State.arrStopped
  repeat' first
    | with_reducible assumption | with_reducible apply foldl_inv | with_reducible apply modPassK_inv | with_reducible apply modArr_inv
    | with_reducible apply foldl_inv | with_reducible apply foldl_fst_inv | dsimp only | split | (intro x hx; exact { hx with })
    | (intro x hx; exact hx) | (intro x hx; exact ⟨hx.1, hx.2⟩)
    | (intro x hx; (try dsimp only); (repeat' split) <;> first | exact hx | exact { hx with } | exact ⟨hx.1, hx.2⟩) | intro

theorem unstopArr_inv {s : State} (hs : s.Inv) (m : MastId) (a : ArrId) : (s.unstopArr m a).Inv := by
  unfold State.unstopArr
  repeat' first
    | with_reducible assumption | with_reducible apply modArr_inv | with_reducible apply foldl_inv | with_reducible apply unstop_inv
    | with_reducible apply foldl_inv | with_reducible apply foldl_fst_inv | dsimp only | (intro x hx; exact { hx with }) | (intro x hx; exact hx)
    | (intro x hx; exact ⟨hx.1, hx.2⟩)
    | (intro x hx; (try dsimp only); (repeat' split) <;> first | exact hx | exact { hx with } | exact ⟨hx.1, hx.2⟩) | intro

theorem arrRun_inv {s : State} (hs : s.Inv) (m : MastId) (a : ArrId) : (s.arrRun m a).Inv := by
  unfold State.arrRun
  repeat' first
    | with_reducible assumption | with_reducible apply unstopArr_inv | dsimp only | split | (intro x hx; exact { hx with }) | (intro x hx; exact hx)
    | (intro x hx; exact ⟨hx.1, hx.2⟩)
    | (intro x hx; (try dsimp only); (repeat' split) <;> first | exact hx | exact { hx with } | exact ⟨hx.1, hx.2⟩) | intro

theorem arrDiscard_inv {s : State} (hs : s.Inv) (m : MastId) (a : ArrId) : (s.arrDiscard m a).Inv := by
  unfold State.arrDiscard
  repeat' first
    | with_reducible assumption | with_reducible apply modArr_inv | with_reducible apply clearStall_inv | with_reducible apply foldl_inv
    | with_reducible apply modTile_inv | with_reducible apply foldl_inv | with_reducible apply foldl_fst_inv | dsimp only | split
    | (intro x hx; exact { hx with }) | (intro x hx; exact hx) | (intro x hx; exact ⟨hx.1, hx.2⟩)
    | (intro x hx; (try dsimp only); (repeat' split) <;> first | exact hx | exact { hx with } | exact ⟨hx.1, hx.2⟩) | intro

end Sys2Proof.Machine
end

