-- ==== Sys2Proof/Laws/Bundle.lean ====
section
/-!
SUPPORT. What brings a syllable to a core, in one equation for all syllables; and when a bundle is not held.
-/

namespace Sys2Proof.Machine

/-- The command of a syllable presents it to the core of its mast. -/
theorem exec_sylCmd (m : MastId) (y : Syl) (s : State) : exec (sylCmd m y) s = .next (s.core m y) := by
  rcases y with ⟨o, b⟩ | ⟨o, b⟩ | ⟨o, b⟩ | ⟨o, b⟩ | ⟨o, b⟩ | ⟨o, b⟩ | ⟨o, b⟩ <;> cases o <;> rfl

/-- A bundle that waits on nothing waits on no engine. -/
theorem engineHold_none (s : State) (m : MastId) (ys : List Syl) (h : s.waitList m ys = []) : s.engineHold m ys = none := by
  simp [State.engineHold, h]

/-- A bundle is not held exactly when it raises no exception and waits on nothing, load data included. -/
theorem hold_eq_none (s : State) (m : MastId) (ys : List Syl) :
    s.hold m ys = none ↔ s.exception m ys = none ∧ s.dataWait m ys = false ∧ s.waits m ys = none := by
  have e := engineHold_none s m ys
  unfold State.hold State.exception State.waits
  cases s.encodingHold m ys <;> cases s.dataWait m ys <;> cases hv : s.valueHold m ys with
  | none => cases hw : s.waitList m ys <;> simp_all [Option.orElse] <;> cases s.engineHold m ys <;> simp
  | some h => cases h <;> cases hw : s.waitList m ys <;> simp_all [Option.orElse] <;> cases s.engineHold m ys <;> simp

/-- A command of the compute domain does nothing while it is off. -/
theorem on_off (s : State) (f : State → State) (h : s.pow.compOn = false) : s.on f = s := by simp [State.on, h]

theorem on_on (s : State) (f : State → State) (h : s.pow.compOn = true) : s.on f = f s := by simp [State.on, h]

end Sys2Proof.Machine
end

