-- ==== Sys2Proof/Laws/Sheet.lean ====
section
/-!
SUPPORT. Every operation of Machine/Sheet.lean keeps the invariant of the module.
-/

namespace Sys2Proof.Machine

theorem Tile.putEntries_wf {t : Tile} (h : Sparse.wf t.ents = true) (n : Nat) (bs : List Byte) : Sparse.wf (t.putEntries n bs).ents = true :=
  fold_keeps (P := fun t : Tab => Sparse.wf t = true) (fun _ _ ht => sparse_set_wf _ _ _ ht) _ h

theorem State.Inv.tile {s : State} (h : s.Inv) (m : MastId) (t : Fin 16) : Sparse.wf (s.tile m t).ents = true := (h.masts m).tiles t

theorem setFlags_inv {s : State} (hs : s.Inv) (m : MastId) (g : Nat) (f : NF) : (s.modMast m fun x => x.setFlags g f).Inv :=
  modMast_inv hs fun _ hx => ⟨hx.core, hx.vreg, hx.kreg, hx.tok, hx.bankMem, hx.rowmap, hx.hist, hx.breg, hx.tiles, hx.cnt, hx.shadow⟩

theorem histBins_wf (s : State) (m : MastId) (d : Desc) : Sparse.wf (s.histBins m d) = true := by
  unfold State.histBins
  generalize List.range 64 = l
  exact fold_keeps (P := fun t : Tab => Sparse.wf t = true) (fun _ _ ht => sparse_set_wf _ _ _ ht) l rfl

theorem sheetFault_inv {s : State} (hs : s.Inv) (m : MastId) (c : SCmd) (kind : Nat) (row : Nat) : (s.sheetFault m c kind row).Inv := by
  unfold State.sheetFault
  repeat' first
    | with_reducible assumption | with_reducible apply modSheet_inv | with_reducible apply jobFault_inv | dsimp only | split
    | (intro x hx; exact { hx with }) | (intro x hx; exact hx) | (intro x hx; exact ⟨hx.1, hx.2⟩)
    | (intro x hx; (try dsimp only); (repeat' split) <;> first | exact hx | exact { hx with } | exact ⟨hx.1, hx.2⟩) | intro

theorem sheetIssued_inv {s : State} (hs : s.Inv) (m : MastId) : (s.sheetIssued m).Inv :=
  modSheet_inv hs fun v hv => by
    split
    · exact ⟨rfl, hv.2⟩
    · exact hv

theorem settleGo_inv {s : State} (hs : s.Inv) (m : MastId) (n : Nat) : (s.settleGo m n).Inv := by
  induction n generalizing s with
  | zero => exact hs
  | succ n ih =>
    unfold State.settleGo
    dsimp only
    repeat' split
    all_goals first | exact hs | exact ih (sheetIssued_inv hs m)

theorem sheetSettle_inv {s : State} (hs : s.Inv) (m : MastId) :
    (s.sheetSettle m).Inv := by
  unfold State.sheetSettle
  repeat' first
    | with_reducible assumption | with_reducible apply settleGo_inv | dsimp only

theorem sheetStart_inv {s : State} (hs : s.Inv) (m : MastId) (opk : Nat) : (s.sheetStart m opk).Inv := by
  unfold State.sheetStart
  repeat' first
    | with_reducible assumption | with_reducible apply sheetFault_inv | with_reducible apply consume_inv | with_reducible apply clearStall_inv
    | with_reducible apply modSheet_inv | with_reducible apply sheetSettle_inv | dsimp only | split | (intro x hx; exact { hx with })
    | (intro x hx; exact hx) | (intro x hx; exact ⟨hx.1, hx.2⟩) | (intro x hx; exact ⟨rfl, hx.2⟩)
    | (intro x hx; (try dsimp only); (repeat' split) <;> first | exact hx | exact { hx with } | exact ⟨hx.1, hx.2⟩ | exact ⟨rfl, hx.2⟩) | intro

theorem sliceWrite_inv {s : State} (hs : s.Inv) (m : MastId) (chkw : Bool) (off : Nat) (bs : List Byte) : (s.sliceWrite m chkw off bs).Inv := by
  unfold State.sliceWrite
  repeat' first
    | with_reducible assumption | with_reducible apply canvasWrite_inv | with_reducible apply foldl_inv | with_reducible apply setCrc_inv
    | with_reducible apply canvasPut_inv | with_reducible apply foldl_inv | with_reducible apply foldl_fst_inv | dsimp only | split
    | (intro x hx; exact { hx with }) | (intro x hx; exact hx) | (intro x hx; exact ⟨hx.1, hx.2⟩)
    | (intro x hx; (try dsimp only); (repeat' split) <;> first | exact hx | exact { hx with } | exact ⟨hx.1, hx.2⟩) | intro

theorem sheetSticky_inv {s : State} (hs : s.Inv) (m : MastId) (i : Nat) (on : Bool) : (s.sheetSticky m i on).Inv := by
  unfold State.sheetSticky
  repeat' first
    | with_reducible assumption | with_reducible apply modSheet_inv | dsimp only | split | (intro x hx; exact { hx with }) | (intro x hx; exact hx)
    | (intro x hx; exact ⟨hx.1, hx.2⟩)
    | (intro x hx; (try dsimp only); (repeat' split) <;> first | exact hx | exact { hx with } | exact ⟨hx.1, hx.2⟩) | intro

theorem sheetElems_inv {s : State} (hs : s.Inv) (m : MastId) (n : Nat) : (s.sheetElems m n).Inv := by
  unfold State.sheetElems
  repeat' first
    | with_reducible assumption | with_reducible apply bumpBy_inv | dsimp only

theorem sheetFlags_inv {s : State} (hs : s.Inv) (m : MastId) (f : NF) : (s.sheetFlags m f).Inv := by
  unfold State.sheetFlags
  repeat' first
    | with_reducible assumption | with_reducible apply modMast_inv | with_reducible apply setFlags_inv | dsimp only
    | (intro x hx; exact { hx with }) | (intro x hx; exact hx) | (intro x hx; exact ⟨hx.1, hx.2⟩)
    | (intro x hx; (try dsimp only); (repeat' split) <;> first | exact hx | exact { hx with } | exact ⟨hx.1, hx.2⟩) | intro

theorem beatChain_inv {s : State} (hs : s.Inv) (m : MastId) (d : Desc) (run : SRun) (segs : List (Nat × Nat × Nat)) : (s.beatChain m d run segs).Inv := by
  unfold State.beatChain
  repeat' first
    | with_reducible assumption | with_reducible apply foldl_inv | with_reducible apply sliceWrite_inv | with_reducible apply sheetFlags_inv
    | with_reducible apply sheetElems_inv | with_reducible apply foldl_inv | with_reducible apply foldl_fst_inv | dsimp only
    | (intro x hx; exact { hx with }) | (intro x hx; exact hx) | (intro x hx; exact ⟨hx.1, hx.2⟩)
    | (intro x hx; (try dsimp only); (repeat' split) <;> first | exact hx | exact { hx with } | exact ⟨hx.1, hx.2⟩) | intro

theorem rowOp_inv {s : State} (hs : s.Inv) (m : MastId) (f : FFmt) (ends : Bool) (segs : List (Nat × Nat × Nat))
    (val : State → Nat → Nat → FVal × NF) {fin : State → Nat → List FVal → State} (hf : ∀ t i vs, t.Inv → (fin t i vs).Inv) :
    (s.rowOp m f ends segs val fin).Inv := by
  refine foldl_inv hs fun t g ht => ?_
  have h : ∀ w, (t.sheetFlags m w).Inv := fun w => sheetFlags_inv ht m w
  dsimp only
  split
  · exact hf _ _ _ (modSheet_inv (h _) (by intro x hx; exact ⟨hx.1, hx.2⟩))
  · exact modSheet_inv (h _) (by intro x hx; exact ⟨hx.1, hx.2⟩)

theorem reduceRow_inv {s : State} (hs : s.Inv) (m : MastId) (d : Desc) (md : Bool × Bool) (row : Nat) (vals : List FVal) : (s.reduceRow m d md row vals).Inv := by
  unfold State.reduceRow
  repeat' first
    | with_reducible assumption | with_reducible apply sliceWrite_inv | with_reducible apply sheetSticky_inv | with_reducible apply sheetFlags_inv
    | with_reducible apply sheetElems_inv | with_reducible apply foldl_inv | with_reducible apply foldl_inv | with_reducible apply foldl_fst_inv
    | dsimp only | split | (intro x hx; exact { hx with }) | (intro x hx; exact hx) | (intro x hx; exact ⟨hx.1, hx.2⟩)
    | (intro x hx; (try dsimp only); (repeat' split) <;> first | exact hx | exact { hx with } | exact ⟨hx.1, hx.2⟩) | intro

theorem beatReduce_inv {s : State} (hs : s.Inv) (m : MastId) (d : Desc) (run : SRun) (segs : List (Nat × Nat × Nat)) (ends : Bool) :
    (s.beatReduce m d run segs ends).Inv := rowOp_inv hs _ _ _ _ _ fun _ _ _ ht => reduceRow_inv ht _ _ _ _ _

theorem beatImage_inv {s : State} (hs : s.Inv) (m : MastId) (d : Desc) (row : Nat) : (s.beatImage m d row).Inv := by
  have k : ∀ (t : Fin 16) (j : Nat) (bs : List Byte), (s.modTile m t fun x =>
      if j = 32 then (x.setMeta (ofBytes (bs.take 8))).setScale (ofBytes (bs.drop 8)) else x.putEntries (128 * j) bs).Inv :=
    fun t j bs => modTile_inv hs _ _ fun x hx => by
      split
      · exact hx
      · exact Tile.putEntries_wf hx _ _
  unfold State.beatImage
  extract_lets per t j off x bs bs2 s2
  have h2 : s2.Inv := mend_inv (k t j bs2) _
  clear_value bs bs2 s2 j
  split
  · exact sheetElems_inv (sliceWrite_inv hs _ _ _ _) _ _
  · exact sheetElems_inv h2 _ _

theorem beatBload_inv {s : State} (hs : s.Inv) (m : MastId) (d : Desc) (md : Bool × Bool) (segs : List (Nat × Nat × Nat)) :
    (s.beatBload m d md segs).Inv := by
  refine foldl_inv hs fun t g ht => ?_
  extract_lets vs lo s2
  have h2 : s2.Inv := by
    refine mend_inv (modSheet_inv ht ?_) _
    exact fun x hx => ⟨hx.1, mem_put_wf _ _ _ hx.2⟩
  clear_value s2
  exact sheetElems_inv (sheetFlags_inv h2 _ _) _ _

theorem rowOut_inv {s : State} (hs : s.Inv) (m : MastId) (d : Desc) (md : Bool × Bool) (i : Nat) (n : Nat) (c : Nat) (vs : List FVal) (fl : NF) : (s.rowOut m d md i n c vs fl).Inv := by
  unfold State.rowOut
  repeat' first
    | with_reducible assumption | with_reducible apply sliceWrite_inv | with_reducible apply sheetFlags_inv | with_reducible apply sheetElems_inv
    | dsimp only | split

theorem rescale_inv {s : State} (hs : s.Inv) (m : MastId) (o : Fin 16) (md : Bool × Bool) (i : Nat) (f : FVal) : (s.rescale m o md i f).Inv := by
  have k : ∀ e : Tab, Sparse.wf e = true → (s.modTile m o fun t => { t with ents := e }).Inv := fun e he => modTile_inv hs m o fun _ _ => he
  unfold State.rescale
  split
  · exact hs
  · extract_lets t c fmt r
    have hr : Sparse.wf r.1 = true :=
      fold_keeps (P := fun p : Tab × NF => Sparse.wf p.1 = true) (fun _ _ ht => sparse_set_wf _ _ _ ht) _ (hs.tile m o)
    clear_value r
    exact sheetFlags_inv (mend_inv (k _ hr) _) _ _

theorem softmaxRow_inv {s : State} (hs : s.Inv) (m : MastId) (d : Desc) (run : SRun) (st : FVal × FVal × NF) (i : Nat) (vs : List FVal) :
    (s.softmaxRow m d run st i vs).Inv := by
  unfold State.softmaxRow
  extract_lets md old r mq sb t q
  have ht : t.Inv := sheetFlags_inv (sliceWrite_inv hs _ _ _ _) _ _
  clear_value t q r
  split
  · exact rowOut_inv ht _ _ _ _ _ _ _ _
  · refine rowOut_inv ?_ _ _ _ _ _ _ _ _
    split
    · exact rescale_inv ht _ _ _ _ _
    · exact ht

theorem beatFinish_inv {s : State} (hs : s.Inv) (m : MastId) (d : Desc) (run : SRun) (segs : List (Nat × Nat × Nat)) (ends : Bool) :
    (s.beatFinish m d run segs ends).Inv := by
  unfold State.beatFinish
  refine foldl_inv hs fun t p ht => ?_
  extract_lets g vs st l r t1 t2
  have h2 : t2.Inv := modSheet_inv (sheetFlags_inv ht _ _) (by intro x hx; exact ⟨hx.1, hx.2⟩)
  clear_value t2 r
  exact rowOut_inv h2 _ _ _ _ _ _ _ _

theorem beatSoftmax_inv {s : State} (hs : s.Inv) (m : MastId) (d : Desc) (run : SRun) (segs : List (Nat × Nat × Nat)) (ends : Bool) :
    (s.beatSoftmax m d run segs ends).Inv := by
  unfold State.beatSoftmax
  split
  · exact beatFinish_inv hs _ _ _ _ _
  · exact rowOp_inv hs _ _ _ _ _ fun _ _ _ ht => softmaxRow_inv ht _ _ _ _ _ _

theorem rmsRowOut_inv {s : State} (hs : s.Inv) (m : MastId) (d : Desc) (run : SRun) (i : Nat) (vs : List FVal) : (s.rmsRowOut m d run i vs).Inv := by
  unfold State.rmsRowOut
  repeat' first
    | with_reducible assumption | with_reducible apply rowOut_inv | dsimp only | (intro x hx; exact { hx with }) | (intro x hx; exact hx)
    | (intro x hx; exact ⟨hx.1, hx.2⟩)
    | (intro x hx; (try dsimp only); (repeat' split) <;> first | exact hx | exact { hx with } | exact ⟨hx.1, hx.2⟩) | intro

theorem beatRms_inv {s : State} (hs : s.Inv) (m : MastId) (d : Desc) (run : SRun) (segs : List (Nat × Nat × Nat)) (ends : Bool) :
    (s.beatRms m d run segs ends).Inv := rowOp_inv hs _ _ _ _ _ fun _ _ _ ht => rmsRowOut_inv ht _ _ _ _ _

theorem statsRowOut_inv {s : State} (hs : s.Inv) (m : MastId) (d : Desc) (run : SRun) (i : Nat) (vs : List FVal) : (s.statsRowOut m d run i vs).Inv := by
  unfold State.statsRowOut
  extract_lets r out t t2
  have ht : t.Inv := sheetSticky_inv (sliceWrite_inv hs _ _ _ _) _ _ _
  have h2 : t2.Inv := by
    refine modSheet_inv ht ?_
    intro x hx
    refine ⟨?_, hx.2⟩
    have h := hx.1
    cases e : x.hist with
    | none => rfl
    | some b =>
      rw [e] at h
      exact fold_keeps (P := fun t : Tab => Sparse.wf t = true) (fun _ _ ht => tab_inc_wf _ _ ht) _ h
  clear_value t2 r
  exact sheetElems_inv (sheetFlags_inv h2 _ _) _ _

theorem beatStats_inv {s : State} (hs : s.Inv) (m : MastId) (d : Desc) (run : SRun) (segs : List (Nat × Nat × Nat)) (ends : Bool) :
    (s.beatStats m d run segs ends).Inv := by
  unfold State.beatStats
  extract_lets bins t
  have hb : Sparse.wf bins = true := histBins_wf s m d
  clear_value bins
  have ht : t.Inv := by
    refine modSheet_inv hs ?_
    intro x hx
    refine ⟨?_, hx.2⟩
    have h := hx.1
    cases e : x.hist with
    | none => exact hb
    | some b => rw [e] at h; exact h
  clear_value t
  exact rowOp_inv ht _ _ _ _ _ fun _ _ _ ht => statsRowOut_inv ht _ _ _ _ _

theorem flushHist_inv {s : State} (hs : s.Inv) (m : MastId) (d : Desc) : (s.flushHist m d).Inv := by
  unfold State.flushHist
  split
  · exact hs
  · exact modSheet_inv (sliceWrite_inv hs _ _ _ _) (by intro x hx; exact ⟨rfl, hx.2⟩)

theorem beatEffect_inv {s : State} (hs : s.Inv) (m : MastId) (d : Desc) (run : SRun) (row : Nat) (segs : List (Nat × Nat × Nat)) (ends : Bool) : (s.beatEffect m d run row segs ends).Inv := by
  unfold State.beatEffect
  repeat' first
    | with_reducible assumption | with_reducible apply beatReduce_inv | with_reducible apply beatImage_inv | with_reducible apply beatBload_inv
    | with_reducible apply beatSoftmax_inv | with_reducible apply beatRms_inv | with_reducible apply beatStats_inv
    | with_reducible apply beatChain_inv | dsimp only | split

theorem beatDone_inv {s : State} (hs : s.Inv) (m : MastId) (d : Desc) (run : SRun) (segs : List (Nat × Nat × Nat)) (ends : Bool) :
    (s.beatDone m d run segs ends).Inv := by
  unfold State.beatDone
  repeat' first
    | with_reducible assumption | with_reducible apply modSheet_inv | with_reducible apply bumpBy_inv | with_reducible apply flushHist_inv
    | with_reducible apply sheetIssued_inv | with_reducible apply sheetSettle_inv | dsimp only | split | with_reducible apply mk_inv
    | (intro x hx; exact { hx with }) | (intro x hx; exact hx) | (intro x hx; exact ⟨hx.1, hx.2⟩)
    | (intro x hx; (try dsimp only); (repeat' split) <;> first | exact hx | exact { hx with } | exact ⟨hx.1, hx.2⟩) | intro

theorem sheetBeat_inv {s : State} (hs : s.Inv) (m : MastId) : (s.sheetBeat m).Inv := by
  unfold State.sheetBeat
  repeat' first
    | with_reducible assumption | with_reducible apply sheetFault_inv | with_reducible apply modSheet_inv | with_reducible apply foldl_inv
    | with_reducible apply canvasRead_inv | with_reducible apply sheetSticky_inv | with_reducible apply beatEffect_inv
    | with_reducible apply beatDone_inv | with_reducible apply foldl_inv | with_reducible apply foldl_fst_inv | dsimp only | split
    | (intro x hx; exact { hx with }) | (intro x hx; exact hx) | (intro x hx; exact ⟨hx.1, hx.2⟩)
    | (intro x hx; (try dsimp only); (repeat' split) <;> first | exact hx | exact { hx with } | exact ⟨hx.1, hx.2⟩) | intro

theorem rowReply_inv {s : State} (hs : s.Inv) (m : MastId) : (s.rowReply m).Inv := by
  unfold State.rowReply
  repeat' first
    | with_reducible assumption | with_reducible apply modSheet_inv | with_reducible apply postFrom_inv | dsimp only | split
    | (intro x hx; exact { hx with }) | (intro x hx; exact hx) | (intro x hx; exact ⟨hx.1, hx.2⟩)
    | (intro x hx; (try dsimp only); (repeat' split) <;> first | exact hx | exact { hx with } | exact ⟨hx.1, hx.2⟩) | intro

theorem sheetDone_inv {s : State} (hs : s.Inv) (m : MastId) : (s.sheetDone m).Inv := by
  unfold State.sheetDone
  repeat' first
    | with_reducible assumption | with_reducible apply modSheet_inv | with_reducible apply postFrom_inv | dsimp only | split
    | (intro x hx; exact { hx with }) | (intro x hx; exact hx) | (intro x hx; exact ⟨hx.1, hx.2⟩)
    | (intro x hx; (try dsimp only); (repeat' split) <;> first | exact hx | exact { hx with } | exact ⟨hx.1, hx.2⟩) | intro

theorem sheetStop_inv {s : State} (hs : s.Inv) (m : MastId) : (s.sheetStop m).Inv := by
  unfold State.sheetStop
  repeat' first
    | with_reducible assumption | with_reducible apply modSheet_inv | dsimp only | split | (intro x hx; exact { hx with }) | (intro x hx; exact hx)
    | (intro x hx; exact ⟨hx.1, hx.2⟩)
    | (intro x hx; (try dsimp only); (repeat' split) <;> first | exact hx | exact { hx with } | exact ⟨hx.1, hx.2⟩) | intro

theorem sheetStopped_inv {s : State} (hs : s.Inv) (m : MastId) : (s.sheetStopped m).Inv := by
  unfold State.sheetStopped
  repeat' first
    | with_reducible assumption | with_reducible apply flushHist_inv | with_reducible apply modSheet_inv | dsimp only | split
    | (intro x hx; exact { hx with }) | (intro x hx; exact hx) | (intro x hx; exact ⟨hx.1, hx.2⟩) | (intro x hx; exact ⟨rfl, hx.2⟩)
    | (intro x hx; (try dsimp only); (repeat' split) <;> first | exact hx | exact { hx with } | exact ⟨hx.1, hx.2⟩ | exact ⟨rfl, hx.2⟩) | intro

theorem sheetRun_inv {s : State} (hs : s.Inv) (m : MastId) : (s.sheetRun m).Inv := by
  unfold State.sheetRun
  repeat' first
    | with_reducible assumption | with_reducible apply modSheet_inv | dsimp only | split | (intro x hx; exact { hx with }) | (intro x hx; exact hx)
    | (intro x hx; exact ⟨hx.1, hx.2⟩) | (intro x hx; exact ⟨rfl, hx.2⟩)
    | (intro x hx; (try dsimp only); (repeat' split) <;> first | exact hx | exact { hx with } | exact ⟨hx.1, hx.2⟩ | exact ⟨rfl, hx.2⟩) | intro

theorem sheetDiscard_inv {s : State} (hs : s.Inv) (m : MastId) : (s.sheetDiscard m).Inv := by
  unfold State.sheetDiscard
  repeat' first
    | with_reducible assumption | with_reducible apply modSheet_inv | with_reducible apply clearStall_inv | dsimp only | split
    | (intro x hx; exact { hx with }) | (intro x hx; exact hx) | (intro x hx; exact ⟨hx.1, hx.2⟩) | (intro x hx; exact ⟨rfl, hx.2⟩)
    | (intro x hx; (try dsimp only); (repeat' split) <;> first | exact hx | exact { hx with } | exact ⟨hx.1, hx.2⟩ | exact ⟨rfl, hx.2⟩) | intro

end Sys2Proof.Machine
end

