-- ==== Sys2Proof/Laws/Hal.lean ====
section
/-!
SUPPORT. Every operation of Machine/Hal.lean keeps the invariant of the module.
-/

namespace Sys2Proof.Machine

theorem Tile.putImage_wf {t : Tile} (h : Sparse.wf t.ents = true) (i : Nat) (bs : List Byte) : Sparse.wf (t.putImage i bs).ents = true := by
  unfold Tile.putImage
  dsimp only
  split <;> exact Tile.putEntries_wf h _ _

theorem halFault_inv {s : State} (hs : s.Inv) (m : MastId) (c : HalCmd) (kind : Nat) (side : Nat) (va : Nat) (block : Nat) : (s.halFault m c kind side va block).Inv := by
  unfold State.halFault
  repeat' first
    | with_reducible assumption | with_reducible apply modHal_inv | with_reducible apply jobFault_inv | dsimp only | split
    | (intro x hx; exact { hx with }) | (intro x hx; exact hx) | (intro x hx; exact ⟨hx.1, hx.2⟩)
    | (intro x hx; (try dsimp only); (repeat' split) <;> first | exact hx | exact { hx with } | exact ⟨hx.1, hx.2⟩) | intro

theorem modProg_inv {s : State} (hs : s.Inv) (m : MastId) (ch : Fin 2) (f : HalProg → HalProg) : (s.modProg m ch f).Inv := by
  unfold State.modProg
  repeat' first
    | with_reducible assumption | with_reducible apply modHal_inv | dsimp only | (intro x hx; exact { hx with }) | (intro x hx; exact hx)
    | (intro x hx; exact ⟨hx.1, hx.2⟩)
    | (intro x hx; (try dsimp only); (repeat' split) <;> first | exact hx | exact { hx with } | exact ⟨hx.1, hx.2⟩) | intro

theorem halXlate_inv {s : State} (hs : s.Inv) (m : MastId) : (s.halXlate m).Inv := by
  unfold State.halXlate
  repeat' first
    | with_reducible assumption | with_reducible apply modXl_inv | with_reducible apply foldl_inv | with_reducible apply modHal_inv
    | with_reducible apply addMiss_inv | with_reducible apply addFault_inv | with_reducible apply foldl_inv | with_reducible apply foldl_fst_inv
    | dsimp only | split | (intro x hx; exact { hx with }) | (intro x hx; exact hx) | (intro x hx; exact ⟨hx.1, hx.2⟩)
    | (intro x hx; (try dsimp only); (repeat' split) <;> first | exact hx | exact { hx with } | exact ⟨hx.1, hx.2⟩) | intro

theorem halXlates_inv {s : State} (hs : s.Inv) (m : MastId) : (s.halXlates m).Inv := by
  unfold State.halXlates
  repeat' first
    | with_reducible assumption | with_reducible apply foldl_inv | with_reducible apply halXlate_inv | with_reducible apply foldl_inv
    | with_reducible apply foldl_fst_inv | dsimp only | (intro x hx; exact { hx with }) | (intro x hx; exact hx) | (intro x hx; exact ⟨hx.1, hx.2⟩)
    | (intro x hx; (try dsimp only); (repeat' split) <;> first | exact hx | exact { hx with } | exact ⟨hx.1, hx.2⟩) | intro

theorem setHal_inv {s : State} (hs : s.Inv) (m : MastId) (r : HalRun) : (s.setHal m r).Inv := by
  unfold State.setHal
  repeat' first
    | with_reducible assumption | with_reducible apply modHal_inv | dsimp only | (intro x hx; exact { hx with }) | (intro x hx; exact hx)
    | (intro x hx; exact ⟨hx.1, hx.2⟩)
    | (intro x hx; (try dsimp only); (repeat' split) <;> first | exact hx | exact { hx with } | exact ⟨hx.1, hx.2⟩) | intro

theorem halReadLine_inv {s : State} (hs : s.Inv) (m : MastId) (p : HalPlace) : (s.halReadLine m p).1.Inv := by
  unfold State.halReadLine
  split
  · split
    · exact readLine_inv hs _
    · exact canvasRead_inv hs _ _
  · exact sendTo_inv hs _ _ _ _ _
  · exact hs
  · exact hs

theorem halWord_inv {s : State} (hs : s.Inv) (m : MastId) (d : Desc) (pages : List (Nat × BitVec 52)) (blk : Nat) :
    (s.halWord m d pages blk).1.Inv := by
  unfold State.halWord
  induction ckPieces d blk with
  | nil => exact hs
  | cons w l ih =>
    rw [List.foldr_cons]
    revert ih
    generalize l.foldr _ _ = acc
    intro ih
    dsimp only
    split
    · exact readBytes_inv ih _ _
    · exact sendTo_inv ih _ _ _ _ _
    · exact ih

theorem halCheck_inv {s : State} (hs : s.Inv) (m : MastId) (d : Desc) (pages : List (Nat × BitVec 52)) (b : Nat) (bytes : List Byte) :
    (s.halCheck m d pages b bytes).1.Inv := by
  unfold State.halCheck
  extract_lets w
  have hw : w.1.Inv := by
    dsimp only [w]
    split
    · exact halWord_inv hs _ _ _ _
    · exact hs
  clear_value w
  dsimp only
  split
  · split <;> first | exact hw | exact hs
  · exact hw
  · exact hw
  · exact hs

theorem halReadBlock_inv {s : State} (hs : s.Inv) (m : MastId) (r : HalRun) (pages : List (Nat × BitVec 52)) (ls : List Nat) :
    (s.halReadBlock m r pages ls).1.Inv := by
  unfold State.halReadBlock
  extract_lets d draws q
  have hq : q.1.Inv := foldl_fst_inv hs fun t l ht => halReadLine_inv ht _ _
  clear_value q
  split
  · exact hq
  · refine foldl_fst_inv hq fun t b ht => ?_
    dsimp only
    split
    · exact ht
    · exact halCheck_inv ht _ _ _ _ _

theorem halReadUnit_inv {s : State} (hs : s.Inv) (m : MastId) (r : HalRun) : (s.halReadUnit m r).1.Inv := by
  have ha := fun ls => ask_inv hs (.hal m) ls
  have hq := fun ls pages l => setHal_inv (halReadBlock_inv (ha ls) m r pages l) m
  unfold State.halReadUnit
  dsimp only
  repeat' split
  all_goals first | with_reducible exact hs | with_reducible exact ha _ | with_reducible exact hq _ _ _ _

theorem halFill_inv {s : State} (hs : s.Inv) (m : MastId) (ch : Fin 2) (n : Nat) : (s.halFill m ch n).Inv := by
  induction n generalizing s with
  | zero => exact hs
  | succ n ih =>
    unfold State.halFill
    split
    · exact hs
    · have h := halReadUnit_inv hs m ‹HalRun›
      dsimp only
      split
      · exact ih h
      · exact h

theorem halReads_inv {s : State} (hs : s.Inv) (m : MastId) : (s.halReads m).Inv := by
  have h : ({ s with frees := s.frees + 1 } : State).Inv := mk_inv hs
  exact halFill_inv (halFill_inv h _ _ _) _ _ _

theorem halGo_inv {s : State} (hs : s.Inv) (m : MastId) : (s.halGo m).Inv := by
  unfold State.halGo
  repeat' first
    | with_reducible assumption | with_reducible apply halXlates_inv | with_reducible apply halReads_inv | dsimp only

theorem halStart_inv {s : State} (hs : s.Inv) (m : MastId) (mode : Nat) : (s.halStart m mode).Inv := by
  unfold State.halStart
  repeat' first
    | with_reducible assumption | with_reducible apply halFault_inv | with_reducible apply consume_inv | with_reducible apply clearStall_inv
    | with_reducible apply modHal_inv | with_reducible apply modProg_inv | with_reducible apply halGo_inv | dsimp only | split
    | (intro x hx; exact { hx with }) | (intro x hx; exact hx) | (intro x hx; exact ⟨hx.1, hx.2⟩)
    | (intro x hx; (try dsimp only); (repeat' split) <;> first | exact hx | exact { hx with } | exact ⟨hx.1, hx.2⟩) | intro

theorem halWrite_inv {s : State} (hs : s.Inv) (m : MastId) (c : HalCmd) (crc : Option (BitVec 32)) (p : HalPlace) (bs : List Byte) :
    (s.halWrite m c crc p bs).Inv := by
  unfold State.halWrite
  split
  · split
    · exact writeBytes_inv hs _ _
    · exact canvasPut_inv hs _ _ _
  · exact sendTo_inv (awaitAck_inv hs _ _ _ _) _ _ _ _ _
  · refine mend_inv (modMast_inv hs ?_) _
    exact fun x hx => { hx with bankMem := mem_put_wf _ _ _ hx.bankMem }
  · exact mend_inv (modTile_inv hs _ _ fun x hx => Tile.putImage_wf hx _ _) _

theorem halSetCrc_inv {s : State} (hs : s.Inv) (m : MastId) (c : HalCmd) (pages : List (Nat × BitVec 52)) (a blk sum : Nat) :
    (s.halSetCrc m c pages a blk sum).Inv := by
  unfold State.halSetCrc
  extract_lets hbm
  clear_value hbm
  split
  · exact foldl_fst_inv hs fun t w ht => halWrite_inv ht _ _ _ _ _
  · split
    · exact setCrc_inv hs _ _ _
    · exact hs

theorem halSources_inv {s : State} (hs : s.Inv) (m : MastId) (ch : Fin 2) (i : Nat) (pages : List (Nat × BitVec 52)) (need : HalLand → Bool) (n : Nat)
    (remote : RemoteData) : (s.halSources m ch i pages need n remote).1.Inv := by
  induction n generalizing s remote with
  | zero => exact hs
  | succ n ih =>
    unfold State.halSources
    split
    · exact hs
    · extract_lets far g t q u v
      have hg : g.1.Inv := by
        dsimp only [g]
        split
        · exact answered_inv hs _ _ _ _ _ _
        · exact hs
      clear_value g
      have hu : u.Inv := setHal_inv hg _ _
      clear_value u q
      have hv : v.1.Inv := halReadUnit_inv hu _ _
      clear_value v
      split
      · exact setHal_inv hg _ _
      · split
        · exact hu
        · split
          · exact ih hv _
          · exact hv

theorem halLast_inv {s : State} (hs : s.Inv) (m : MastId) (ch : Fin 2) (r : HalRun) : (s.halLast m ch r).Inv := by
  unfold State.halLast
  repeat' first
    | with_reducible assumption | with_reducible apply setHal_inv | with_reducible apply modProg_inv | dsimp only | split
    | (intro x hx; exact { hx with }) | (intro x hx; exact hx) | (intro x hx; exact ⟨hx.1, hx.2⟩)
    | (intro x hx; (try dsimp only); (repeat' split) <;> first | exact hx | exact { hx with } | exact ⟨hx.1, hx.2⟩) | intro

theorem halPieces_inv {s : State} (hs : s.Inv) (m : MastId) (c : HalCmd) (crc : Option (BitVec 32)) (place : Nat → HalPlace) (a : Nat) (ps : List (Nat × List Byte)) :
    (s.halPieces m c crc place a ps).Inv := by
  unfold State.halPieces
  repeat' first
    | with_reducible assumption | with_reducible apply foldl_inv | with_reducible apply halWrite_inv | with_reducible apply awaitAck_inv
    | with_reducible apply sendTo_inv | with_reducible apply foldl_inv | with_reducible apply foldl_fst_inv | dsimp only | split
    | (intro x hx; exact { hx with }) | (intro x hx; exact hx) | (intro x hx; exact ⟨hx.1, hx.2⟩)
    | (intro x hx; (try dsimp only); (repeat' split) <;> first | exact hx | exact { hx with } | exact ⟨hx.1, hx.2⟩) | intro

theorem halPut_inv {s : State} (hs : s.Inv) (m : MastId) (ch : Fin 2) (r : HalRun) (pages : List (Nat × BitVec 52)) (i a : Nat) (ps : List (Nat × Nat × Nat)) :
    (s.halPut m ch r pages i a ps).Inv := by
  unfold State.halPut
  repeat' first
    | with_reducible assumption | with_reducible apply foldl_inv | with_reducible apply halPieces_inv | with_reducible apply modProg_inv
    | with_reducible apply bump_inv | with_reducible apply halSetCrc_inv | with_reducible apply setHal_inv | with_reducible apply halLast_inv
    | with_reducible apply foldl_inv | with_reducible apply foldl_fst_inv | dsimp only | split | with_reducible apply mk_inv
    | (intro x hx; exact { hx with }) | (intro x hx; exact hx) | (intro x hx; exact ⟨hx.1, hx.2⟩)
    | (intro x hx; (try dsimp only); (repeat' split) <;> first | exact hx | exact { hx with } | exact ⟨hx.1, hx.2⟩) | intro

theorem halLine_inv {s : State} (hs : s.Inv) (m : MastId) (ch : Fin 2) (remote : RemoteData) : (s.halLine m ch remote).Inv := by
  have h := fun i pages need n => halSources_inv hs m ch i pages need n remote
  unfold State.halLine
  dsimp only
  split
  · exact hs
  · split
    · split
      · exact hs
      · split
        · exact h _ _ _ _
        · have q := fun i pages need n ls => ask_inv (h i pages need n) (.hal m) ls
          repeat' split
          all_goals first
            | with_reducible exact halFault_inv (setHal_inv (h _ _ _ _) _ _) _ _ _ _ _ _
            | with_reducible exact h _ _ _ _
            | with_reducible exact q _ _ _ _ _
            | with_reducible exact halReads_inv (halPut_inv (q _ _ _ _ _) _ _ _ _ _ _ _) _
            | with_reducible exact halReads_inv (halPut_inv (consume_inv (q _ _ _ _ _) _ _) _ _ _ _ _ _ _) _
    · exact hs

theorem halPosts_inv {s : State} (hs : s.Inv) (m : MastId) (n : Nat) : (s.halPosts m n).Inv := by
  induction n generalizing s with
  | zero => exact hs
  | succ n ih =>
    unfold State.halPosts
    extract_lets x older
    split
    · exact hs
    · extract_lets d s1 s2 s3
      have h2 : s2.Inv := by
        dsimp only [s2]
        split
        · exact postFrom_inv (modHal_inv hs) _ _ _
        · exact modHal_inv hs
      have h3 : s3.Inv := by
        dsimp only [s3]
        split
        · exact postFrom_inv h2 _ _ _
        · exact h2
      exact ih h3

theorem halComplete_inv {s : State} (hs : s.Inv) (m : MastId) (ch : Fin 2) : (s.halComplete m ch).Inv := by
  unfold State.halComplete
  repeat' first
    | with_reducible assumption | with_reducible apply setHal_inv | with_reducible apply modProg_inv | with_reducible apply halPosts_inv
    | dsimp only | split | (intro x hx; exact { hx with }) | (intro x hx; exact hx) | (intro x hx; exact ⟨hx.1, hx.2⟩)
    | (intro x hx; (try dsimp only); (repeat' split) <;> first | exact hx | exact { hx with } | exact ⟨hx.1, hx.2⟩) | intro

theorem halStop_inv {s : State} (hs : s.Inv) (m : MastId) : (s.halStop m).Inv := by
  unfold State.halStop
  repeat' first
    | with_reducible assumption | with_reducible apply modHal_inv | dsimp only | split | (intro x hx; exact { hx with }) | (intro x hx; exact hx)
    | (intro x hx; exact ⟨hx.1, hx.2⟩)
    | (intro x hx; (try dsimp only); (repeat' split) <;> first | exact hx | exact { hx with } | exact ⟨hx.1, hx.2⟩) | intro

theorem halStopped_inv {s : State} (hs : s.Inv) (m : MastId) : (s.halStopped m).Inv := by
  unfold State.halStopped
  repeat' first
    | with_reducible assumption | with_reducible apply modXl_inv | with_reducible apply modHal_inv | with_reducible apply foldl_inv
    | with_reducible apply modProg_inv | with_reducible apply foldl_inv | with_reducible apply foldl_fst_inv | dsimp only | split
    | (intro x hx; exact { hx with }) | (intro x hx; exact hx) | (intro x hx; exact ⟨hx.1, hx.2⟩)
    | (intro x hx; (try dsimp only); (repeat' split) <;> first | exact hx | exact { hx with } | exact ⟨hx.1, hx.2⟩) | intro

theorem halRun_inv {s : State} (hs : s.Inv) (m : MastId) : (s.halRun m).Inv := by
  unfold State.halRun
  repeat' first
    | with_reducible assumption | with_reducible apply modHal_inv | with_reducible apply foldl_inv | with_reducible apply modProg_inv
    | with_reducible apply halGo_inv | with_reducible apply foldl_inv | with_reducible apply foldl_fst_inv | dsimp only | split
    | (intro x hx; exact { hx with }) | (intro x hx; exact hx) | (intro x hx; exact ⟨hx.1, hx.2⟩)
    | (intro x hx; (try dsimp only); (repeat' split) <;> first | exact hx | exact { hx with } | exact ⟨hx.1, hx.2⟩) | intro

theorem halDiscard_inv {s : State} (hs : s.Inv) (m : MastId) : (s.halDiscard m).Inv := by
  unfold State.halDiscard
  repeat' first
    | with_reducible assumption | with_reducible apply modHal_inv | with_reducible apply clearStall_inv | dsimp only | split
    | (intro x hx; exact { hx with }) | (intro x hx; exact hx) | (intro x hx; exact ⟨hx.1, hx.2⟩)
    | (intro x hx; (try dsimp only); (repeat' split) <;> first | exact hx | exact { hx with } | exact ⟨hx.1, hx.2⟩) | intro

theorem halTransFault_inv {s : State} (hs : s.Inv) (m : MastId) (f : XFault) : (s.halTransFault m f).Inv := by
  unfold State.halTransFault
  repeat' first
    | with_reducible assumption | with_reducible apply modHal_inv | dsimp only | split | (intro x hx; exact { hx with }) | (intro x hx; exact hx)
    | (intro x hx; exact ⟨hx.1, hx.2⟩)
    | (intro x hx; (try dsimp only); (repeat' split) <;> first | exact hx | exact { hx with } | exact ⟨hx.1, hx.2⟩) | intro

end Sys2Proof.Machine
end

