-- ==== Sys2Proof/Laws/Tokens.lean ====
section
/-!
SUPPORT. Every operation of Machine/Tokens.lean keeps the invariant of the module.
-/

namespace Sys2Proof.Machine

theorem tokenSeen_inv {s : State} (hs : s.Inv) (i : SlotId) (before : BitVec 8) :
    (s.tokenSeen i before).Inv := by
  unfold State.tokenSeen
  repeat' first
    | with_reducible assumption | with_reducible apply wake_inv | with_reducible apply arriveTimers_inv | with_reducible apply vecAdvance_inv
    | dsimp only | split

theorem landAt_inv {s : State} (hs : s.Inv) (i : SlotId) (p : Post) : (s.landAt i p).Inv := by
  unfold State.landAt
  repeat' first
    | with_reducible assumption | with_reducible apply land_inv | with_reducible apply tokenSeen_inv | dsimp only | split

theorem tokenPost_inv {s : State} (hs : s.Inv) (addr : BitVec 32) (src : Poster) :
    (s.tokenPost addr src).Inv := by
  unfold State.tokenPost
  repeat' first
    | with_reducible assumption | with_reducible apply flitsIn_inv | with_reducible apply landAt_inv | with_reducible apply refuse_inv
    | with_reducible apply sendTo_inv | with_reducible apply post_inv | dsimp only | split | with_reducible apply mk_inv
    | (intro x hx; exact { hx with }) | (intro x hx; exact hx) | (intro x hx; exact ⟨hx.1, hx.2⟩)
    | (intro x hx; (try dsimp only); (repeat' split) <;> first | exact hx | exact { hx with } | exact ⟨hx.1, hx.2⟩) | intro

theorem heldLand_inv {s : State} (hs : s.Inv) (i : SlotId) : (s.heldLand i).Inv := by
  unfold State.heldLand
  repeat' first
    | with_reducible assumption | with_reducible apply landHeld_inv | with_reducible apply tokenSeen_inv | dsimp only | split

theorem tokenClear_inv {s : State} (hs : s.Inv) (m : MastId) : (s.tokenClear m).Inv := by
  have h : (s.modMast m fun x => { x with tok := { x.tok with count := [] } }).Inv := modMast_inv hs fun x hx => { hx with tok := rfl }
  unfold State.tokenClear
  split
  · exact hs
  · exact { h with }

theorem tokenStall_inv {s : State} (hs : s.Inv) (m : MastId) (e : EngId) : (s.tokenStall m e).Inv := by
  unfold State.tokenStall
  repeat' first
    | with_reducible assumption | with_reducible apply modMast_inv | with_reducible apply jobEvent_inv | with_reducible apply tokenStall_inv
    | dsimp only | split | (intro x hx; exact { hx with }) | (intro x hx; exact hx) | (intro x hx; exact ⟨hx.1, hx.2⟩)
    | (intro x hx; (try dsimp only); (repeat' split) <;> first | exact hx | exact { hx with } | exact ⟨hx.1, hx.2⟩) | intro

theorem unwake_inv {s : State} (hs : s.Inv) (m : MastId) (e : EngId) :
    (s.unwake m e).Inv := by
  unfold State.unwake
  repeat' first
    | with_reducible assumption | with_reducible apply modMast_inv | dsimp only | with_reducible apply mk_inv
    | (intro x hx; exact { hx with }) | (intro x hx; exact hx) | (intro x hx; exact ⟨hx.1, hx.2⟩)
    | (intro x hx; (try dsimp only); (repeat' split) <;> first | exact hx | exact { hx with } | exact ⟨hx.1, hx.2⟩) | intro

theorem reefEntry_inv {s : State} (hs : s.Inv) (m : MastId) (e : EngId) :
    (s.reefEntry m e).Inv := by
  unfold State.reefEntry
  repeat' first
    | with_reducible assumption | with_reducible apply modMast_inv | with_reducible apply unwake_inv | with_reducible apply modVec_inv | dsimp only
    | split | with_reducible apply mk_inv
    | (intro x hx; exact { hx with }) | (intro x hx; exact hx) | (intro x hx; exact ⟨hx.1, hx.2⟩)
    | (intro x hx; (try dsimp only); (repeat' split) <;> first | exact hx | exact { hx with } | exact ⟨hx.1, hx.2⟩) | intro

theorem reefWake_inv {s : State} (hs : s.Inv) (m : MastId) (e : EngId) :
    (s.reefWake m e).Inv := by
  unfold State.reefWake
  repeat' first
    | with_reducible assumption | with_reducible apply modMast_inv | with_reducible apply unwake_inv | with_reducible apply vecAdvance_inv
    | dsimp only | split
    | (intro x hx; exact { hx with }) | (intro x hx; exact hx) | (intro x hx; exact ⟨hx.1, hx.2⟩)
    | (intro x hx; (try dsimp only); (repeat' split) <;> first | exact hx | exact { hx with } | exact ⟨hx.1, hx.2⟩) | intro

theorem furlEntry_inv {s : State} (hs : s.Inv) (m : MastId) : (s.furlEntry m).Inv := by
  unfold State.furlEntry
  repeat' first
    | with_reducible assumption | with_reducible apply furl_inv | with_reducible apply modMast_inv | dsimp only | split
    | (intro x hx; exact { hx with }) | (intro x hx; exact hx) | (intro x hx; exact ⟨hx.1, hx.2⟩)
    | (intro x hx; (try dsimp only); (repeat' split) <;> first | exact hx | exact { hx with } | exact ⟨hx.1, hx.2⟩) | intro

theorem furlWake_inv {s : State} (hs : s.Inv) (m : MastId) : (s.furlWake m).Inv := by
  unfold State.furlWake
  repeat' first
    | with_reducible assumption | with_reducible apply modMast_inv | dsimp only | split | (intro x hx; exact { hx with }) | (intro x hx; exact hx)
    | (intro x hx; exact ⟨hx.1, hx.2⟩)
    | (intro x hx; (try dsimp only); (repeat' split) <;> first | exact hx | exact { hx with } | exact ⟨hx.1, hx.2⟩) | intro

theorem furl_inv {s : State} (hs : s.Inv) (m : MastId) : (s.furl m).Inv := by
  unfold State.furl
  repeat' first
    | with_reducible assumption | with_reducible apply modMast_inv | dsimp only | (intro x hx; exact { hx with }) | (intro x hx; exact hx)
    | (intro x hx; exact ⟨hx.1, hx.2⟩)
    | (intro x hx; (try dsimp only); (repeat' split) <;> first | exact hx | exact { hx with } | exact ⟨hx.1, hx.2⟩) | intro

end Sys2Proof.Machine
end

