-- ==== Sys2Proof/Laws/Walks.lean ====
section
/-!
SUPPORT. Every operation of Machine/Walks.lean keeps the invariant of the module.
-/

namespace Sys2Proof.Machine

theorem joinWalk_inv {s : State} (hs : s.Inv) (d : DieId) (asid : BitVec 12) (vpn : BitVec 40) (who : List (MastId × EngId)) :
    (s.joinWalk d asid vpn who).Inv := by
  unfold State.joinWalk
  repeat' first
    | with_reducible assumption | with_reducible apply modDie_inv | with_reducible apply bumpDie_inv | dsimp only | with_reducible apply mk_inv
    | (intro x hx; exact { hx with }) | (intro x hx; exact hx) | (intro x hx; exact ⟨hx.1, hx.2⟩)
    | (intro x hx; (try dsimp only); (repeat' split) <;> first | exact hx | exact { hx with } | exact ⟨hx.1, hx.2⟩) | intro

theorem walkRequest_inv {s : State} (hs : s.Inv) (m : MastId) (e : EngId) (va : BitVec 56) :
    (s.walkRequest m e va).Inv := by
  unfold State.walkRequest
  repeat' first
    | with_reducible assumption | with_reducible apply joinWalk_inv | with_reducible apply modDie_inv | with_reducible apply bumpDie_inv
    | dsimp only | split | with_reducible apply mk_inv
    | (intro x hx; exact { hx with }) | (intro x hx; exact hx) | (intro x hx; exact ⟨hx.1, hx.2⟩)
    | (intro x hx; (try dsimp only); (repeat' split) <;> first | exact hx | exact { hx with } | exact ⟨hx.1, hx.2⟩) | intro

theorem nextWalk_inv {s : State} (hs : s.Inv) (d : DieId) (n : Nat) : (s.nextWalk d n).Inv := by
  have g := fun (f : Die → Die) (h : ∀ x : Die, x.Ok → (f x).Ok) => modDie_inv (d := d) hs h
  induction n generalizing s with
  | zero => exact hs
  | succ n ih =>
    unfold State.nextWalk
    dsimp only
    split
    · exact hs
    · split
      · exact hs
      · split
        · have k := joinWalk_inv (g (fun y => { y with walks := ‹List Walk› }) fun _ hx => ⟨hx.1, hx.2⟩) d ‹Walk›.asid ‹Walk›.vpn ‹Walk›.who
          exact ih k fun f h => modDie_inv k h
        · exact bumpDie_inv (g _ fun _ hx => ⟨hx.1, hx.2⟩)

theorem resumeXlate_inv {s : State} (hs : s.Inv) (m : MastId) (e : EngId) : (s.resumeXlate m e).Inv := by
  unfold State.resumeXlate
  repeat' first
    | with_reducible assumption | with_reducible apply vecAdvance_inv | with_reducible apply halGo_inv | dsimp only | split

theorem walkResult_inv {s : State} (hs : s.Inv) (asid : BitVec 12) (va : Nat) (r : WRes) (m : MastId) (e : EngId) : (s.walkResult asid va r m e).Inv := by
  unfold State.walkResult
  repeat' first
    | with_reducible assumption | with_reducible apply modXl_inv | with_reducible apply modCore_inv | with_reducible apply resumeXlate_inv
    | with_reducible apply addFault_inv | with_reducible apply refused_inv | with_reducible apply jobFault_inv | dsimp only | split
    | (intro x hx; exact { hx with }) | (intro x hx; exact hx) | (intro x hx; exact ⟨hx.1, hx.2⟩)
    | (intro x hx; (try dsimp only); (repeat' split) <;> first | exact hx | exact { hx with } | exact ⟨hx.1, hx.2⟩) | intro

theorem walkComplete_inv {s : State} (hs : s.Inv) (d : DieId) (asid : BitVec 12) (vpn : BitVec 40) : (s.walkComplete d asid vpn).Inv := by
  unfold State.walkComplete
  repeat' first
    | with_reducible assumption | with_reducible apply modDie_inv | with_reducible apply walk_inv | with_reducible apply refused_inv
    | with_reducible apply foldl_inv | with_reducible apply walkResult_inv | with_reducible apply nextWalk_inv | with_reducible apply foldl_inv
    | with_reducible apply foldl_fst_inv | dsimp only | split | (intro x hx; exact { hx with }) | (intro x hx; exact hx)
    | (intro x hx; exact ⟨hx.1, hx.2⟩)
    | (intro x hx; (try dsimp only); (repeat' split) <;> first | exact hx | exact { hx with } | exact ⟨hx.1, hx.2⟩) | intro

theorem endPeriod_inv {s : State} (hs : s.Inv) (m : MastId) : (s.endPeriod m).Inv := by
  unfold State.endPeriod
  repeat' first
    | with_reducible assumption | with_reducible apply modXl_inv | dsimp only | split | (intro x hx; exact { hx with }) | (intro x hx; exact hx)
    | (intro x hx; exact ⟨hx.1, hx.2⟩)
    | (intro x hx; (try dsimp only); (repeat' split) <;> first | exact hx | exact { hx with } | exact ⟨hx.1, hx.2⟩) | intro

theorem faultSt_inv {s : State} (hs : s.Inv) (m : MastId) (e : EngId) (a : FaultSt) (b : FaultSt) : (s.faultSt m e a b).Inv := by
  unfold State.faultSt
  repeat' first
    | with_reducible assumption | with_reducible apply modXl_inv | dsimp only | (intro x hx; exact { hx with }) | (intro x hx; exact hx)
    | (intro x hx; exact ⟨hx.1, hx.2⟩)
    | (intro x hx; (try dsimp only); (repeat' split) <;> first | exact hx | exact { hx with } | exact ⟨hx.1, hx.2⟩) | intro

theorem recordWrite_inv {s : State} (hs : s.Inv) (m : MastId) (e : EngId) : (s.recordWrite m e).Inv := by
  unfold State.recordWrite
  repeat' first
    | with_reducible assumption | with_reducible apply faultSt_inv | with_reducible apply jobFault_inv | with_reducible apply modXl_inv
    | with_reducible apply bump_inv | with_reducible apply jobEvent_inv | with_reducible apply ask_inv | with_reducible apply writeBytes_inv
    | with_reducible apply endPeriod_inv | dsimp only | split | (intro x hx; exact { hx with }) | (intro x hx; exact hx)
    | (intro x hx; exact ⟨hx.1, hx.2⟩)
    | (intro x hx; (try dsimp only); (repeat' split) <;> first | exact hx | exact { hx with } | exact ⟨hx.1, hx.2⟩) | intro

theorem takeDeferrable_getD_inv {s t : State} (hs : s.Inv) (ht : t.Inv) (m : MastId) : ((s.takeDeferrable m).getD t).Inv := by
  cases e : s.takeDeferrable m with
  | none => exact ht
  | some u => exact takeDeferrable_inv hs m e

theorem recordAck_inv {s : State} (hs : s.Inv) (m : MastId) (e : EngId) :
    (s.recordAck m e).Inv := by
  unfold State.recordAck
  repeat' first
    | with_reducible assumption | with_reducible apply faultSt_inv | with_reducible apply modXl_inv | with_reducible apply takeDeferrable_getD_inv
    | with_reducible apply raise_inv | with_reducible apply vecFails_inv | with_reducible apply halTransFault_inv | dsimp only | split
    | with_reducible apply mk_inv
    | (intro x hx; exact { hx with }) | (intro x hx; exact hx) | (intro x hx; exact ⟨hx.1, hx.2⟩)
    | (intro x hx; (try dsimp only); (repeat' split) <;> first | exact hx | exact { hx with } | exact ⟨hx.1, hx.2⟩) | intro

theorem fqTimeout_inv {s : State} (hs : s.Inv) (m : MastId) : (s.fqTimeout m).Inv := by
  unfold State.fqTimeout
  repeat' first
    | with_reducible assumption | with_reducible apply modXl_inv | with_reducible apply faultSt_inv | with_reducible apply jobFault_inv | dsimp only
    | split | (intro x hx; exact { hx with }) | (intro x hx; exact hx) | (intro x hx; exact ⟨hx.1, hx.2⟩)
    | (intro x hx; (try dsimp only); (repeat' split) <;> first | exact hx | exact { hx with } | exact ⟨hx.1, hx.2⟩) | intro

theorem boundExceeded_inv {s : State} (hs : s.Inv) (m : MastId) (e : EngId) : (s.boundExceeded m e).Inv := by
  unfold State.boundExceeded
  repeat' first
    | with_reducible assumption | with_reducible apply jobFault_inv | dsimp only | split

theorem xwerr_inv {s : State} (hs : s.Inv) (m : MastId) : (s.xwerr m).Inv := by
  unfold State.xwerr
  repeat' first
    | with_reducible assumption | with_reducible apply modCore_inv | dsimp only | (intro x hx; exact { hx with }) | (intro x hx; exact hx)
    | (intro x hx; exact ⟨hx.1, hx.2⟩)
    | (intro x hx; (try dsimp only); (repeat' split) <;> first | exact hx | exact { hx with } | exact ⟨hx.1, hx.2⟩) | intro

theorem fqBaseWrite_inv {s : State} (hs : s.Inv) (m : MastId) (v : Word) : (s.fqBaseWrite m v).Inv := by
  unfold State.fqBaseWrite
  repeat' first
    | with_reducible assumption | with_reducible apply core_inv | with_reducible apply xwerr_inv | with_reducible apply modXl_inv
    | with_reducible apply endPeriod_inv | dsimp only | split | (intro x hx; exact { hx with }) | (intro x hx; exact hx)
    | (intro x hx; exact ⟨hx.1, hx.2⟩)
    | (intro x hx; (try dsimp only); (repeat' split) <;> first | exact hx | exact { hx with } | exact ⟨hx.1, hx.2⟩) | intro

theorem fqHeadWrite_inv {s : State} (hs : s.Inv) (m : MastId) (v : Word) : (s.fqHeadWrite m v).Inv := by
  unfold State.fqHeadWrite
  repeat' first
    | with_reducible assumption | with_reducible apply modXl_inv | with_reducible apply endPeriod_inv | dsimp only | (intro x hx; exact { hx with })
    | (intro x hx; exact hx) | (intro x hx; exact ⟨hx.1, hx.2⟩)
    | (intro x hx; (try dsimp only); (repeat' split) <;> first | exact hx | exact { hx with } | exact ⟨hx.1, hx.2⟩) | intro

theorem queueInv_inv {s : State} (hs : s.Inv) (v : Word) (va : BitVec 40) (host : Option CmdRef) : (s.queueInv v va host).1.Inv := by
  unfold State.queueInv
  repeat' first
    | with_reducible assumption | dsimp only | split | with_reducible apply mk_inv

theorem invCmd_inv {s : State} (hs : s.Inv) (v : Word) : (s.invCmd v).Inv := by
  unfold State.invCmd
  repeat' first
    | with_reducible assumption | with_reducible apply queueInv_inv | dsimp only | split | with_reducible apply mk_inv

theorem invApply_inv {s : State} (hs : s.Inv)  : (s.invApply).Inv := by
  unfold State.invApply
  repeat' first
    | with_reducible assumption | (intro x hx; exact ⟨tab_add_wf _ _ _ hx.1, hx.2⟩) | with_reducible apply eachMast_inv
    | with_reducible apply modXl_inv | with_reducible apply foldl_inv | with_reducible apply modDie_inv | with_reducible apply foldl_inv
    | with_reducible apply foldl_fst_inv | dsimp only | split | with_reducible apply mk_inv
    | (intro x hx; exact ⟨by first | exact tab_add_wf _ _ _ hx.1 | exact tab_satField_wf hx.1 | exact tab_inc_wf _ _ hx.1, hx.2⟩)
    | (intro x hx; exact { hx with cnt := by first | exact tab_add_wf _ _ _ hx.cnt | exact tab_satField_wf hx.cnt })
    | (intro x hx; exact { hx with }) | (intro x hx; exact hx) | (intro x hx; exact ⟨hx.1, hx.2⟩)
    | (intro x hx; (try dsimp only); (repeat' split) <;> first | exact hx | exact { hx with } | exact ⟨hx.1, hx.2⟩) | intro

theorem cmdDone_inv {s : State} (hs : s.Inv) (r : CmdRef) (st : Nat) : (s.cmdDone r st).Inv := by
  unfold State.cmdDone
  repeat' first
    | with_reducible assumption | with_reducible apply modHosts_inv | dsimp only | (intro x hx; exact { hx with }) | (intro x hx; exact hx)
    | (intro x hx; exact ⟨hx.1, hx.2⟩)
    | (intro x hx; (try dsimp only); (repeat' split) <;> first | exact hx | exact { hx with } | exact ⟨hx.1, hx.2⟩) | intro

theorem invReport_inv {s : State} (hs : s.Inv) (r : CmdRef) :
    (s.invReport r).Inv := by
  unfold State.invReport
  repeat' first
    | with_reducible assumption | with_reducible apply modHosts_inv | dsimp only | split | with_reducible apply mk_inv
    | (intro x hx; exact { hx with }) | (intro x hx; exact hx) | (intro x hx; exact ⟨hx.1, hx.2⟩)
    | (intro x hx; (try dsimp only); (repeat' split) <;> first | exact hx | exact { hx with } | exact ⟨hx.1, hx.2⟩) | intro

theorem invComplete_inv {s : State} (hs : s.Inv) :
    (s.invComplete).Inv := by
  unfold State.invComplete
  repeat' first
    | with_reducible assumption | with_reducible apply invReport_inv | dsimp only | split | with_reducible apply mk_inv
    | (intro x hx; exact { hx with }) | (intro x hx; exact hx) | (intro x hx; exact ⟨hx.1, hx.2⟩)
    | (intro x hx; (try dsimp only); (repeat' split) <;> first | exact hx | exact { hx with } | exact ⟨hx.1, hx.2⟩) | intro

end Sys2Proof.Machine
end

