-- ==== Sys2Proof/Laws/Caches.lean ====
section
/-!
SUPPORT. Every operation of Machine/Caches.lean keeps the invariant of the module.
-/

namespace Sys2Proof.Machine

theorem reqArrives_inv {s : State} (hs : s.Inv) (m : MastId) (l : Line) (p : ReqKind → Option HomeReq) : (s.reqArrives m l p).Inv := by
  unfold State.reqArrives
  repeat' first
    | with_reducible assumption | with_reducible exact takeMsg_inv hs (by assumption) | with_reducible apply arrive_inv | dsimp only | split
    | (intro x hx; exact { hx with }) | (intro x hx; exact hx) | (intro x hx; exact ⟨hx.1, hx.2⟩)
    | (intro x hx; (try dsimp only); (repeat' split) <;> first | exact hx | exact { hx with } | exact ⟨hx.1, hx.2⟩) | intro

theorem putMsg_inv {s : State} (hs : s.Inv) (m : MastId) (l : Line) (st : CacheSt) : (s.putMsg m l st).Inv := by
  unfold State.putMsg
  repeat' first
    | with_reducible assumption | with_reducible exact takeMsg_inv hs (by assumption) | with_reducible apply putArrives_inv | dsimp only | split
    | (intro x hx; exact { hx with }) | (intro x hx; exact hx) | (intro x hx; exact ⟨hx.1, hx.2⟩)
    | (intro x hx; (try dsimp only); (repeat' split) <;> first | exact hx | exact { hx with } | exact ⟨hx.1, hx.2⟩) | intro

theorem memberAccess_inv {s : State} (hs : s.Inv) {plane : Fin 2} {k : Fin 3} {node : BitVec 14} {jobid : BitVec 16} {l : Line} {off len : Nat} {r : HomeReq}
    {canvas : State → State} (hc : ∀ t : State, t.Inv → (canvas t).Inv) : (s.memberAccess plane k node jobid l off len r canvas).Inv := by
  unfold State.memberAccess
  extract_lets t
  have ht : t.Inv := flitsIn_inv hs _ _ _ _
  clear_value t
  repeat' first
    | with_reducible assumption | with_reducible apply refuse_inv | with_reducible apply taken_inv | with_reducible apply accept_inv
    | with_reducible apply refused_inv | with_reducible apply hc | dsimp only | split

theorem rduArrives_inv {s : State} (hs : s.Inv) (r : Requester) (l : Line) (off : Fin 128) (len : Nat) : (s.rduArrives r l off len).Inv := by
  unfold State.rduArrives
  repeat' first
    | with_reducible assumption | with_reducible apply core_inv | with_reducible exact takeMsg_inv hs (by assumption)
    | with_reducible apply arrive_inv | with_reducible apply memberAccess_inv | with_reducible apply readBytes_inv | with_reducible apply reply_inv
    | dsimp only | split | (intro x hx; exact { hx with }) | (intro x hx; exact hx) | (intro x hx; exact ⟨hx.1, hx.2⟩)
    | (intro x hx; (try dsimp only); (repeat' split) <;> first | exact hx | exact { hx with } | exact ⟨hx.1, hx.2⟩) | intro

theorem wruArrives_inv {s : State} (hs : s.Inv) (r : Requester) (l : Line) (off : Fin 128) (bs : List Byte) (crc : Option (BitVec 32)) :
    (s.wruArrives r l off bs crc).Inv := by
  unfold State.wruArrives
  split
  · split
    · exact arrive_inv (takeMsg_inv hs (by assumption)) _ _ _
    · exact hs
  · refine memberAccess_inv hs fun t ht => ?_
    have h := writeBytes_inv ht (lineAddr l + off.val) bs
    dsimp only
    split
    · exact reply_inv (mk_check_inv h (sparse_set_wf _ _ _ h.check)) _ _ _ _ _
    · exact reply_inv h _ _ _ _ _
  · exact hs

theorem atomArrives_inv {s : State} (hs : s.Inv) (r : Requester) (l : Line) (off : Fin 128) (op : AtomReq) : (s.atomArrives r l off op).Inv := by
  unfold State.atomArrives
  repeat' first
    | with_reducible assumption | with_reducible apply core_inv | with_reducible exact takeMsg_inv hs (by assumption)
    | with_reducible apply arrive_inv | with_reducible apply memberAccess_inv | with_reducible apply refuse_inv | dsimp only | split
    | (intro x hx; exact { hx with }) | (intro x hx; exact hx) | (intro x hx; exact ⟨hx.1, hx.2⟩)
    | (intro x hx; (try dsimp only); (repeat' split) <;> first | exact hx | exact { hx with } | exact ⟨hx.1, hx.2⟩) | intro

theorem homeFill_inv {s : State} (hs : s.Inv) (l : Line) (ecc : Ecc) : (s.homeFill l ecc).Inv := by
  unfold State.homeFill
  repeat' first
    | with_reducible assumption | with_reducible apply recallFor_inv | with_reducible apply makeRoom_inv | with_reducible apply hbmRead_inv
    | with_reducible apply hbmSat_inv | with_reducible apply hbmBad_inv | with_reducible apply contact_inv | dsimp only | split

theorem grantMsg_inv {s : State} (hs : s.Inv) (m : MastId) (l : Line) (st : CacheSt) : (s.grantMsg m l st).Inv := by
  unfold State.grantMsg
  repeat' first
    | with_reducible assumption | with_reducible exact takeMsg_inv hs (by assumption) | with_reducible apply cacheGrant_inv | dsimp only | split
    | (intro x hx; exact { hx with }) | (intro x hx; exact hx) | (intro x hx; exact ⟨hx.1, hx.2⟩)
    | (intro x hx; (try dsimp only); (repeat' split) <;> first | exact hx | exact { hx with } | exact ⟨hx.1, hx.2⟩) | intro

theorem upgMsg_inv {s : State} (hs : s.Inv) (m : MastId) (l : Line) : (s.upgMsg m l).Inv := by
  unfold State.upgMsg
  repeat' first
    | with_reducible assumption | with_reducible exact takeMsg_inv hs (by assumption) | with_reducible apply cacheUpg_inv | dsimp only | split
    | (intro x hx; exact { hx with }) | (intro x hx; exact hx) | (intro x hx; exact ⟨hx.1, hx.2⟩)
    | (intro x hx; (try dsimp only); (repeat' split) <;> first | exact hx | exact { hx with } | exact ⟨hx.1, hx.2⟩) | intro

theorem putOver_inv {s : State} (hs : s.Inv) (l : Line) : (s.putOver l).Inv := { hs with }

theorem putAckMsg_inv {s : State} (hs : s.Inv) (m : MastId) (l : Line) : (s.putAckMsg m l).Inv := by
  unfold State.putAckMsg
  repeat' first
    | with_reducible assumption | with_reducible exact takeMsg_inv hs (by assumption) | with_reducible apply putOver_inv
    | with_reducible apply modDc_inv | with_reducible apply sendPut_inv | with_reducible apply kickAll_inv | dsimp only | split
    | (intro x hx; exact { hx with }) | (intro x hx; exact hx) | (intro x hx; exact ⟨hx.1, hx.2⟩)
    | (intro x hx; (try dsimp only); (repeat' split) <;> first | exact hx | exact { hx with } | exact ⟨hx.1, hx.2⟩) | intro

theorem nackMsg_inv {s : State} (hs : s.Inv) (m : MastId) (l : Line) : (s.nackMsg m l).Inv := by
  unfold State.nackMsg
  repeat' first
    | with_reducible assumption | with_reducible apply nack_inv | with_reducible exact takeMsg_inv hs (by assumption)
    | with_reducible apply modDc_inv | with_reducible apply bump_inv | dsimp only | split | (intro x hx; exact { hx with }) | (intro x hx; exact hx)
    | (intro x hx; exact ⟨hx.1, hx.2⟩)
    | (intro x hx; (try dsimp only); (repeat' split) <;> first | exact hx | exact { hx with } | exact ⟨hx.1, hx.2⟩) | intro

theorem nackRetry_inv {s : State} (hs : s.Inv) (m : MastId) (l : Line) : (s.nackRetry m l).Inv := by
  unfold State.nackRetry
  repeat' first
    | with_reducible assumption | with_reducible apply modDc_inv | with_reducible apply send_inv | with_reducible apply vecAdvance_inv
    | with_reducible apply halGo_inv | dsimp only | split | with_reducible apply mk_inv | (intro x hx; exact { hx with }) | (intro x hx; exact hx)
    | (intro x hx; exact ⟨hx.1, hx.2⟩)
    | (intro x hx; (try dsimp only); (repeat' split) <;> first | exact hx | exact { hx with } | exact ⟨hx.1, hx.2⟩) | intro

theorem invMsg_inv {s : State} (hs : s.Inv) (m : MastId) (l : Line) : (s.invMsg m l).Inv := by
  unfold State.invMsg
  repeat' first
    | with_reducible assumption | with_reducible exact takeMsg_inv hs (by assumption) | with_reducible apply cacheInv_inv | dsimp only | split
    | (intro x hx; exact { hx with }) | (intro x hx; exact hx) | (intro x hx; exact ⟨hx.1, hx.2⟩)
    | (intro x hx; (try dsimp only); (repeat' split) <;> first | exact hx | exact { hx with } | exact ⟨hx.1, hx.2⟩) | intro

theorem fwdMsg_inv {s : State} (hs : s.Inv) (m : MastId) (l : Line) (x : Msg) (after : CacheSt → Option CacheSt) : (s.fwdMsg m l x after).Inv := by
  unfold State.fwdMsg
  repeat' first
    | with_reducible assumption | with_reducible exact takeMsg_inv hs (by assumption) | with_reducible apply cacheFwd_inv | dsimp only | split
    | (intro x hx; exact { hx with }) | (intro x hx; exact hx) | (intro x hx; exact ⟨hx.1, hx.2⟩)
    | (intro x hx; (try dsimp only); (repeat' split) <;> first | exact hx | exact { hx with } | exact ⟨hx.1, hx.2⟩) | intro

theorem invAckMsg_inv {s : State} (hs : s.Inv) (m : MastId) (l : Line) : (s.invAckMsg m l).Inv := by
  unfold State.invAckMsg
  repeat' first
    | with_reducible assumption | with_reducible exact takeMsg_inv hs (by assumption) | with_reducible apply settle_inv | dsimp only | split
    | (intro x hx; exact { hx with }) | (intro x hx; exact hx) | (intro x hx; exact ⟨hx.1, hx.2⟩)
    | (intro x hx; (try dsimp only); (repeat' split) <;> first | exact hx | exact { hx with } | exact ⟨hx.1, hx.2⟩) | intro

theorem fwdDataMsg_inv {s : State} (hs : s.Inv) (m : MastId) (l : Line) : (s.fwdDataMsg m l).Inv := by
  unfold State.fwdDataMsg
  repeat' first
    | with_reducible assumption | with_reducible exact takeMsg_inv hs (by assumption) | with_reducible apply settle_inv | dsimp only | split
    | (intro x hx; exact { hx with }) | (intro x hx; exact hx) | (intro x hx; exact ⟨hx.1, hx.2⟩)
    | (intro x hx; (try dsimp only); (repeat' split) <;> first | exact hx | exact { hx with } | exact ⟨hx.1, hx.2⟩) | intro

theorem cmpMsg_inv {s : State} (hs : s.Inv) (m : MastId) (l : Line) : (s.cmpMsg m l).Inv := by
  unfold State.cmpMsg
  repeat' first
    | with_reducible assumption | with_reducible exact takeMsg_inv hs (by assumption) | with_reducible apply foldl_inv
    | with_reducible apply send_inv | with_reducible apply putHome_inv | with_reducible apply foldl_inv | with_reducible apply foldl_fst_inv
    | dsimp only | split | (intro x hx; exact { hx with }) | (intro x hx; exact hx) | (intro x hx; exact ⟨hx.1, hx.2⟩)
    | (intro x hx; (try dsimp only); (repeat' split) <;> first | exact hx | exact { hx with } | exact ⟨hx.1, hx.2⟩) | intro

theorem unshare_inv {s : State} (hs : s.Inv) (m : MastId) :
    (s.unshare m).Inv := by
  unfold State.unshare
  repeat' first
    | with_reducible assumption | dsimp only | split | with_reducible apply mk_inv
    | (intro x hx; exact { hx with }) | (intro x hx; exact hx) | (intro x hx; exact ⟨hx.1, hx.2⟩)
    | (intro x hx; (try dsimp only); (repeat' split) <;> first | exact hx | exact { hx with } | exact ⟨hx.1, hx.2⟩) | intro

theorem dcFlush_inv {s : State} (hs : s.Inv) (m : MastId) :
    (s.dcFlush m).Inv := by
  unfold State.dcFlush
  repeat' first
    | with_reducible assumption | with_reducible apply core_inv | with_reducible apply modDc_inv | with_reducible apply foldl_inv
    | with_reducible apply leave_inv | with_reducible apply unshare_inv | with_reducible apply foldl_inv | with_reducible apply foldl_fst_inv
    | dsimp only | split | with_reducible apply mk_inv
    | (intro x hx; exact { hx with }) | (intro x hx; exact hx) | (intro x hx; exact ⟨hx.1, hx.2⟩)
    | (intro x hx; (try dsimp only); (repeat' split) <;> first | exact hx | exact { hx with } | exact ⟨hx.1, hx.2⟩) | intro

theorem scFlush_inv {s : State} (hs : s.Inv) (d : DieId) (k : Fin 64) : (s.scFlush d k).Inv := by
  unfold State.scFlush
  split
  · exact hs
  · extract_lets mine s1 s2
    have h1 : s1.Inv := modDie_inv hs fun x hx => ⟨hx.1, hx.2⟩
    have h2 : s2.Inv := foldl_inv h1 fun t h ht => hbmWrite_inv ht _ _ _
    exact { h2 with }

theorem scFlushDone_inv {s : State} (hs : s.Inv) (d : DieId) (k : Fin 64) : (s.scFlushDone d k).Inv := by
  unfold State.scFlushDone
  repeat' first
    | with_reducible assumption | with_reducible apply modDie_inv | with_reducible apply scFlush_inv | dsimp only | (intro x hx; exact { hx with })
    | (intro x hx; exact hx) | (intro x hx; exact ⟨hx.1, hx.2⟩)
    | (intro x hx; (try dsimp only); (repeat' split) <;> first | exact hx | exact { hx with } | exact ⟨hx.1, hx.2⟩) | intro

theorem hbmTurn_inv {s : State} (hs : s.Inv) (k : Fin 8) (pc : Fin 32) : (s.hbmTurn k pc).Inv := by
  unfold State.hbmTurn
  repeat' first
    | with_reducible assumption | with_reducible apply hbmDrain_inv | dsimp only

theorem hbmRefresh_inv {s : State} (hs : s.Inv) (k : Fin 8) (pc : Fin 32) (bank : BitVec 8) : (s.hbmRefresh k pc bank).Inv :=
  { hs with hbmRef := sparse_set_wf _ _ _ hs.hbmRef }

theorem hbmScrub_inv {s : State} (hs : s.Inv) (k : Fin 8) (ecc : Ecc) : (s.hbmScrub k ecc).Inv := by
  unfold State.hbmScrub
  repeat' first
    | with_reducible assumption | with_reducible apply modHbm_inv | with_reducible apply hbmRead_inv | with_reducible apply moduleEvent_inv
    | with_reducible apply hbmSat_inv | with_reducible apply hbmBad_inv | with_reducible apply hbmWrite_inv | dsimp only | split
    | (intro x hx; exact { hx with }) | (intro x hx; exact hx) | (intro x hx; exact ⟨hx.1, hx.2⟩)
    | (intro x hx; (try dsimp only); (repeat' split) <;> first | exact hx | exact { hx with } | exact ⟨hx.1, hx.2⟩) | intro

theorem canvasScrub_inv {s : State} (hs : s.Inv) (m : MastId) (t : Fin 4) (ecc : Ecc) : (s.canvasScrub m t ecc).Inv := by
  unfold State.canvasScrub
  repeat' first
    | with_reducible assumption | with_reducible apply modMast_inv | with_reducible apply canvasRead_inv | with_reducible apply canvasCe_inv
    | with_reducible apply canvasUe_inv | with_reducible apply jobFault_inv | dsimp only | split | with_reducible apply mk_inv
    | (intro x hx; exact { hx with }) | (intro x hx; exact hx) | (intro x hx; exact ⟨hx.1, hx.2⟩)
    | (intro x hx; (try dsimp only); (repeat' split) <;> first | exact hx | exact { hx with } | exact ⟨hx.1, hx.2⟩) | intro

end Sys2Proof.Machine
end

