-- ==== Sys2Proof/Laws/Links.lean ====
section
/-!
SUPPORT. Every operation of Machine/Links.lean keeps the invariant of the module.
-/

namespace Sys2Proof.Machine

theorem perr_inv {s : State} (hs : s.Inv) (p : PortId) (lo : Nat) : (s.perr p lo).Inv := by
  unfold State.perr
  repeat' first
    | with_reducible assumption | with_reducible apply modSnap_inv | dsimp only
    | (intro x hx; exact ⟨by first | exact tab_add_wf _ _ _ hx.1 | exact tab_satField_wf hx.1 | exact tab_inc_wf _ _ hx.1, hx.2⟩)
    | (intro x hx; exact { hx with cnt := by first | exact tab_add_wf _ _ _ hx.cnt | exact tab_satField_wf hx.cnt })
    | (intro x hx; exact { hx with }) | (intro x hx; exact hx) | (intro x hx; exact ⟨hx.1, hx.2⟩)
    | (intro x hx; (try dsimp only); (repeat' split) <;> first | exact hx | exact { hx with } | exact ⟨hx.1, hx.2⟩) | intro

theorem forward_inv {s : State} (hs : s.Inv) (pin : PortId) (pout : PortId) (msg : LinkMsg) : (s.forward pin pout msg).Inv := by
  unfold State.forward
  repeat' first
    | with_reducible assumption | with_reducible apply modSnap_inv | with_reducible apply modSport_inv | with_reducible apply sendOn_inv
    | with_reducible apply forward_inv | with_reducible apply pump_inv | dsimp only | split
    | (intro x hx; exact ⟨by first | exact tab_add_wf _ _ _ hx.1 | exact tab_satField_wf hx.1 | exact tab_inc_wf _ _ hx.1, hx.2⟩)
    | (intro x hx; exact { hx with cnt := by first | exact tab_add_wf _ _ _ hx.cnt | exact tab_satField_wf hx.cnt })
    | (intro x hx; exact { hx with }) | (intro x hx; exact hx) | (intro x hx; exact ⟨hx.1, hx.2⟩)
    | (intro x hx; (try dsimp only); (repeat' split) <;> first | exact hx | exact { hx with } | exact ⟨hx.1, hx.2⟩) | intro

theorem lockLoss_inv {s : State} (hs : s.Inv) (p : PortId) : (s.lockLoss p).Inv := by
  unfold State.lockLoss
  repeat' first
    | with_reducible assumption | with_reducible apply modSport_inv | with_reducible apply perr_inv | dsimp only | split
    | (intro x hx; exact { hx with }) | (intro x hx; exact hx) | (intro x hx; exact ⟨hx.1, hx.2⟩)
    | (intro x hx; (try dsimp only); (repeat' split) <;> first | exact hx | exact { hx with } | exact ⟨hx.1, hx.2⟩) | intro

theorem replay_inv {s : State} (hs : s.Inv) (r : ReplayReq) :
    (s.replay r).Inv := by
  unfold State.replay
  repeat' first
    | with_reducible assumption | with_reducible apply modSnap_inv | with_reducible apply perr_inv | with_reducible apply sendOn_inv
    | with_reducible apply modSport_inv | with_reducible apply lockLoss_inv | dsimp only | split | with_reducible apply mk_inv
    | (intro x hx; exact { hx with cnt := by first | exact tab_add_wf _ _ _ hx.cnt | exact tab_satAdd_wf hx.cnt | exact tab_satField_wf hx.cnt })
    | (intro x hx; exact { hx with }) | (intro x hx; exact hx) | (intro x hx; exact ⟨hx.1, hx.2⟩)
    | (intro x hx; (try dsimp only); (repeat' split) <;> first | exact hx | exact { hx with } | exact ⟨hx.1, hx.2⟩) | intro

theorem portUp_inv {s : State} (hs : s.Inv) (p : PortId) (ver : BitVec 2) (r : TrainResult) : (s.portUp p ver r).Inv := by
  unfold State.portUp
  repeat' first
    | with_reducible assumption | with_reducible apply modSport_inv | with_reducible apply pump_inv | dsimp only | split
    | with_reducible apply mk_inv | (intro x hx; exact { hx with }) | (intro x hx; exact hx) | (intro x hx; exact ⟨hx.1, hx.2⟩)
    | (intro x hx; (try dsimp only); (repeat' split) <;> first | exact hx | exact { hx with } | exact ⟨hx.1, hx.2⟩) | intro

theorem trained_inv {s : State} (hs : s.Inv) (p : PortId) (r : TrainResult) : (s.trained p r).Inv := by
  unfold State.trained
  repeat' first
    | with_reducible assumption | with_reducible apply modSport_inv | with_reducible apply portUp_inv | dsimp only | split
    | (intro x hx; exact { hx with }) | (intro x hx; exact hx) | (intro x hx; exact ⟨hx.1, hx.2⟩)
    | (intro x hx; (try dsimp only); (repeat' split) <;> first | exact hx | exact { hx with } | exact ⟨hx.1, hx.2⟩) | intro

theorem plug_inv {s : State} (hs : s.Inv) (p : PortId) (present : Bool) : (s.plug p present).Inv := by
  unfold State.plug
  repeat' first
    | with_reducible assumption | with_reducible apply modSport_inv | dsimp only | split | (intro x hx; exact { hx with }) | (intro x hx; exact hx)
    | (intro x hx; exact ⟨hx.1, hx.2⟩)
    | (intro x hx; (try dsimp only); (repeat' split) <;> first | exact hx | exact { hx with } | exact ⟨hx.1, hx.2⟩) | intro

theorem cutJobs_inv {s : State} (hs : s.Inv) (n1 : BitVec 14) (n2 : BitVec 14) (reason : Nat) : (s.cutJobs n1 n2 reason).Inv := by
  unfold State.cutJobs
  repeat' first
    | with_reducible assumption | with_reducible apply eachJob_inv | with_reducible apply moduleFault_inv | with_reducible apply fenceJob_inv
    | dsimp only | split | (intro x hx; exact { hx with }) | (intro x hx; exact hx) | (intro x hx; exact ⟨hx.1, hx.2⟩)
    | (intro x hx; (try dsimp only); (repeat' split) <;> first | exact hx | exact { hx with } | exact ⟨hx.1, hx.2⟩) | intro

theorem flood_inv {s : State} (hs : s.Inv) (but : PortId) (n1 : BitVec 14) (n2 : BitVec 14) : (s.flood but n1 n2).Inv := by
  unfold State.flood
  repeat' first
    | with_reducible assumption | with_reducible apply foldl_inv | with_reducible apply sendOn_inv | with_reducible apply foldl_inv
    | with_reducible apply foldl_fst_inv | dsimp only | split | (intro x hx; exact { hx with }) | (intro x hx; exact hx)
    | (intro x hx; exact ⟨hx.1, hx.2⟩)
    | (intro x hx; (try dsimp only); (repeat' split) <;> first | exact hx | exact { hx with } | exact ⟨hx.1, hx.2⟩) | intro

theorem windowOver_inv {s : State} (hs : s.Inv) (p : PortId) : (s.windowOver p).Inv := by
  unfold State.windowOver
  repeat' first
    | with_reducible assumption | with_reducible apply modSport_inv | with_reducible apply flood_inv | with_reducible apply moduleEvent_inv
    | with_reducible apply cutJobs_inv | dsimp only | split | with_reducible apply mk_inv | (intro x hx; exact { hx with }) | (intro x hx; exact hx)
    | (intro x hx; exact ⟨hx.1, hx.2⟩)
    | (intro x hx; (try dsimp only); (repeat' split) <;> first | exact hx | exact { hx with } | exact ⟨hx.1, hx.2⟩) | intro

theorem lostNotice_inv {s : State} (hs : s.Inv) (p : PortId) (n1 : BitVec 14) (n2 : BitVec 14) : (s.lostNotice p n1 n2).Inv := by
  unfold State.lostNotice
  repeat' first
    | with_reducible assumption | with_reducible apply flood_inv | with_reducible apply cutJobs_inv | dsimp only | split
    | with_reducible apply mk_inv

theorem fenceNotice_inv {s : State} (hs : s.Inv) (jobid : BitVec 16) (fromFault : Bool) : (s.fenceNotice jobid fromFault).Inv := by
  unfold State.fenceNotice
  repeat' first
    | with_reducible assumption | with_reducible apply eachJob_inv | with_reducible apply moduleFault_inv | with_reducible apply fenceJob_inv
    | dsimp only | split | (intro x hx; exact { hx with }) | (intro x hx; exact hx) | (intro x hx; exact ⟨hx.1, hx.2⟩)
    | (intro x hx; (try dsimp only); (repeat' split) <;> first | exact hx | exact { hx with } | exact ⟨hx.1, hx.2⟩) | intro

theorem retrain_inv {s : State} (hs : s.Inv) (p : PortId) : (s.retrain p).Inv := by
  unfold State.retrain
  repeat' first
    | with_reducible assumption | with_reducible apply modSport_inv | with_reducible apply perr_inv | dsimp only | split
    | (intro x hx; exact { hx with }) | (intro x hx; exact hx) | (intro x hx; exact ⟨hx.1, hx.2⟩)
    | (intro x hx; (try dsimp only); (repeat' split) <;> first | exact hx | exact { hx with } | exact ⟨hx.1, hx.2⟩) | intro

theorem faultMessage_inv {s : State} (hs : s.Inv) (m : MastId) : (s.faultMessage m).Inv := by
  unfold State.faultMessage
  repeat' first
    | with_reducible assumption | with_reducible apply recordFault_inv | with_reducible apply fenceWrite_inv | dsimp only | split
    | with_reducible apply mk_inv | (intro x hx; exact { hx with }) | (intro x hx; exact hx) | (intro x hx; exact ⟨hx.1, hx.2⟩)
    | (intro x hx; (try dsimp only); (repeat' split) <;> first | exact hx | exact { hx with } | exact ⟨hx.1, hx.2⟩) | intro

end Sys2Proof.Machine
end

