-- ==== Sys2Proof/Laws/Chans.lean ====
section
/-!
SUPPORT. Every operation of Machine/Chans.lean keeps the invariant of the module.
-/

namespace Sys2Proof.Machine

theorem chanFault_inv {s : State} (hs : s.Inv) (c : ChanId) (kind : Nat) : (s.chanFault c kind).Inv := by
  unfold State.chanFault
  repeat' first
    | with_reducible assumption | with_reducible apply modChan_inv | with_reducible apply recordFault_inv | with_reducible apply fenceWrite_inv
    | dsimp only | split | (intro x hx; exact { hx with }) | (intro x hx; exact hx) | (intro x hx; exact ⟨hx.1, hx.2⟩)
    | (intro x hx; (try dsimp only); (repeat' split) <;> first | exact hx | exact { hx with } | exact ⟨hx.1, hx.2⟩) | intro

theorem stage_inv {s : State} (hs : s.Inv) (c : ChanId) (dst src seg : Nat) (data : List Byte) :
    (s.stage c dst src seg data).1.Inv := by
  unfold State.stage
  repeat' first
    | with_reducible assumption | with_reducible apply canvasWrite_inv | with_reducible apply modChan_inv | dsimp only | split
    | with_reducible apply mk_inv
    | (intro x hx; exact { hx with }) | (intro x hx; exact hx) | (intro x hx; exact ⟨hx.1, hx.2⟩)
    | (intro x hx; (try dsimp only); (repeat' split) <;> first | exact hx | exact { hx with } | exact ⟨hx.1, hx.2⟩) | intro

theorem chanRun_inv {s : State} (hs : s.Inv) (c : ChanId) (mode : Nat) :
    (s.chanRun c mode).Inv := by
  unfold State.chanRun
  repeat' first
    | with_reducible assumption | with_reducible apply chanFault_inv | with_reducible apply modChan_inv | with_reducible apply foldl_inv
    | with_reducible apply stage_inv | with_reducible apply foldl_inv | with_reducible apply foldl_fst_inv | dsimp only | split
    | with_reducible apply mk_inv
    | (intro x hx; exact { hx with }) | (intro x hx; exact hx) | (intro x hx; exact ⟨hx.1, hx.2⟩)
    | (intro x hx; (try dsimp only); (repeat' split) <;> first | exact hx | exact { hx with } | exact ⟨hx.1, hx.2⟩) | intro

theorem modRank_inv {s : State} (hs : s.Inv) (c : ChanId) (m : MastId) (f : Rank → Rank) : (s.modRank c m f).Inv := by
  unfold State.modRank
  repeat' first
    | with_reducible assumption | with_reducible apply modChan_inv | dsimp only | (intro x hx; exact { hx with }) | (intro x hx; exact hx)
    | (intro x hx; exact ⟨hx.1, hx.2⟩)
    | (intro x hx; (try dsimp only); (repeat' split) <;> first | exact hx | exact { hx with } | exact ⟨hx.1, hx.2⟩) | intro

theorem segArrives_inv {s : State} (hs : s.Inv) (c : ChanId) (e : SegMsg) :
    (s.segArrives c e).Inv := by
  unfold State.segArrives
  repeat' first
    | with_reducible assumption | with_reducible apply flitsIn_inv | with_reducible apply refuse_inv | with_reducible apply chanFault_inv
    | with_reducible apply stage_inv | with_reducible apply modChan_inv | dsimp only | split | with_reducible apply mk_inv
    | (intro x hx; exact { hx with }) | (intro x hx; exact hx) | (intro x hx; exact ⟨hx.1, hx.2⟩)
    | (intro x hx; (try dsimp only); (repeat' split) <;> first | exact hx | exact { hx with } | exact ⟨hx.1, hx.2⟩) | intro

theorem sendSeg_inv {s : State} (hs : s.Inv) (c : ChanId) (src dst seg : Nat) (data : List Byte) :
    (s.sendSeg c src dst seg data).1.Inv := by
  unfold State.sendSeg
  repeat' first
    | with_reducible assumption | with_reducible apply stage_inv | with_reducible apply sendTo_inv | dsimp only | split
    | with_reducible apply mk_inv
    | (intro x hx; exact { hx with }) | (intro x hx; exact hx) | (intro x hx; exact ⟨hx.1, hx.2⟩)
    | (intro x hx; (try dsimp only); (repeat' split) <;> first | exact hx | exact { hx with } | exact ⟨hx.1, hx.2⟩) | intro

theorem segSend_inv {s : State} (hs : s.Inv) (c : ChanId) (m : MastId) : (s.segSend c m).Inv := by
  unfold State.segSend
  repeat' first
    | with_reducible assumption | with_reducible apply sendSeg_inv | with_reducible apply modRank_inv | dsimp only | split
    | (intro x hx; exact { hx with }) | (intro x hx; exact hx) | (intro x hx; exact ⟨hx.1, hx.2⟩)
    | (intro x hx; (try dsimp only); (repeat' split) <;> first | exact hx | exact { hx with } | exact ⟨hx.1, hx.2⟩) | intro

theorem setRcFlags_inv {s : State} (hs : s.Inv) (c : ChanId) (f : NF) : (s.setRcFlags c f).Inv := by
  unfold State.setRcFlags
  repeat' first
    | with_reducible assumption | with_reducible apply modChan_inv | dsimp only | (intro x hx; exact { hx with }) | (intro x hx; exact hx)
    | (intro x hx; exact ⟨hx.1, hx.2⟩)
    | (intro x hx; (try dsimp only); (repeat' split) <;> first | exact hx | exact { hx with } | exact ⟨hx.1, hx.2⟩) | intro

theorem segWrite_inv {s : State} (hs : s.Inv) (c : ChanId) (r : Rank) (bs : List Byte) (l : Nat) : (s.segWrite c r bs l).Inv := by
  unfold State.segWrite
  repeat' first
    | with_reducible assumption | with_reducible apply canvasWrite_inv | with_reducible apply modRank_inv | dsimp only
    | (intro x hx; exact { hx with }) | (intro x hx; exact hx) | (intro x hx; exact ⟨hx.1, hx.2⟩)
    | (intro x hx; (try dsimp only); (repeat' split) <;> first | exact hx | exact { hx with } | exact ⟨hx.1, hx.2⟩) | intro

theorem unstage_inv {s : State} (hs : s.Inv) (c : ChanId) (m : MastId) (q : Staged) (rest : List Staged) :
    (s.unstage c m q rest).1.Inv := by
  unfold State.unstage
  repeat' first
    | with_reducible assumption | with_reducible apply canvasRead_inv | with_reducible apply modChan_inv | with_reducible apply chanFault_inv
    | dsimp only | split | with_reducible apply mk_inv
    | (intro x hx; exact { hx with }) | (intro x hx; exact hx) | (intro x hx; exact ⟨hx.1, hx.2⟩)
    | (intro x hx; (try dsimp only); (repeat' split) <;> first | exact hx | exact { hx with } | exact ⟨hx.1, hx.2⟩) | intro

theorem chanCommand_inv {s : State} (hs : s.Inv) (c : ChanId) (m : MastId) :
    (s.chanCommand c m).Inv := by
  unfold State.chanCommand
  repeat' first
    | with_reducible assumption | with_reducible apply canvasRead_inv | with_reducible apply chanFault_inv | with_reducible apply modRank_inv
    | with_reducible apply setRcFlags_inv | with_reducible apply unstage_inv | with_reducible apply segWrite_inv | dsimp only | split
    | with_reducible apply mk_inv
    | (intro x hx; exact { hx with }) | (intro x hx; exact hx) | (intro x hx; exact ⟨hx.1, hx.2⟩)
    | (intro x hx; (try dsimp only); (repeat' split) <;> first | exact hx | exact { hx with } | exact ⟨hx.1, hx.2⟩) | intro

theorem chanComplete_inv {s : State} (hs : s.Inv) (c : ChanId) : (s.chanComplete c).Inv := by
  unfold State.chanComplete
  repeat' first
    | with_reducible assumption | with_reducible apply modChan_inv | with_reducible apply foldl_inv | with_reducible apply post_inv
    | with_reducible apply foldl_inv | with_reducible apply foldl_fst_inv | dsimp only | split | (intro x hx; exact { hx with })
    | (intro x hx; exact hx) | (intro x hx; exact ⟨hx.1, hx.2⟩)
    | (intro x hx; (try dsimp only); (repeat' split) <;> first | exact hx | exact { hx with } | exact ⟨hx.1, hx.2⟩) | intro

theorem chanDiscard_inv {s : State} (hs : s.Inv) (c : ChanId) : (s.chanDiscard c).Inv := by
  unfold State.chanDiscard
  repeat' first
    | with_reducible assumption | with_reducible apply modChan_inv | dsimp only | (intro x hx; exact { hx with }) | (intro x hx; exact hx)
    | (intro x hx; exact ⟨hx.1, hx.2⟩)
    | (intro x hx; (try dsimp only); (repeat' split) <;> first | exact hx | exact { hx with } | exact ⟨hx.1, hx.2⟩) | intro

end Sys2Proof.Machine
end

