-- ==== Sys2Proof/Laws/Service.lean ====
section
/-!
SUPPORT. Every operation of Machine/Service.lean keeps the invariant of the module.
-/

namespace Sys2Proof.Machine

theorem on_inv {s : State} (hs : s.Inv) {f : State → State} (hf : ∀ t : State, t.Inv → (f t).Inv) : (s.on f).Inv := by
  unfold State.on
  split
  · exact hf s hs
  · exact hs

theorem onAo_inv {s : State} (hs : s.Inv) {f : State → State} (hf : ∀ t : State, t.Inv → (f t).Inv) : (s.onAo f).Inv := by
  unfold State.onAo
  split
  · exact hf s hs
  · exact hs

theorem serve_inv {s : State} (hs : s.Inv) {f : State → State} (hf : ∀ t : State, t.Inv → (f t).Inv) : (s.serve f).Inv := by
  unfold State.serve
  split
  · exact hf s hs
  · exact hs

theorem treeNext_inv {s : State} (hs : s.Inv)  : (s.treeNext).Inv := by
  unfold State.treeNext
  repeat' first
    | with_reducible assumption | with_reducible apply modPow_inv | with_reducible apply modSnap_inv | dsimp only | split
    | (intro x hx; exact { hx with }) | (intro x hx; exact hx) | (intro x hx; exact ⟨hx.1, hx.2⟩)
    | (intro x hx; (try dsimp only); (repeat' split) <;> first | exact hx | exact { hx with } | exact ⟨hx.1, hx.2⟩) | intro

theorem snapReq_inv {s : State} (hs : s.Inv)  : (s.snapReq).Inv := by
  unfold State.snapReq
  repeat' first
    | with_reducible assumption | with_reducible apply modPow_inv | with_reducible apply treeNext_inv | dsimp only | split
    | (intro x hx; exact { hx with }) | (intro x hx; exact hx) | (intro x hx; exact ⟨hx.1, hx.2⟩)
    | (intro x hx; (try dsimp only); (repeat' split) <;> first | exact hx | exact { hx with } | exact ⟨hx.1, hx.2⟩) | intro

theorem copyCounts_inv {s : State} (hs : s.Inv) (u : SnapUnit) (rest : Bool) : (s.copyCounts u rest).Inv := by
  unfold State.copyCounts
  split
  · exact modSnap_inv hs fun x hx => { hx with infl := sparse_erase_wf _ _ _ hx.infl }
  · exact modMast_inv hs fun x hx => { hx with shadow := tab_copied_wf _ _ _ hx.shadow }
  · exact modDie_inv hs fun x hx => ⟨hx.1, tab_copied_wf _ _ _ hx.2⟩
  · exact modDie_inv hs fun x hx => ⟨hx.1, tab_copied_wf _ _ _ hx.2⟩
  · exact modDie_inv hs fun x hx => ⟨hx.1, tab_copied_wf _ _ _ hx.2⟩
  · exact modSnap_inv hs fun x hx => { hx with shadow := tab_copied_wf _ _ _ hx.shadow }
  · exact modSnap_inv hs fun x hx => { hx with shadow := tab_copied_wf _ _ _ hx.shadow }

theorem snapToken_inv {s : State} (hs : s.Inv) (u : SnapUnit) :
    (s.snapToken u).Inv := by
  unfold State.snapToken
  repeat' first
    | with_reducible assumption | with_reducible apply copyCounts_inv | with_reducible apply modPow_inv | with_reducible apply treeNext_inv
    | dsimp only | split | with_reducible apply mk_inv
    | (intro x hx; exact { hx with }) | (intro x hx; exact hx) | (intro x hx; exact ⟨hx.1, hx.2⟩)
    | (intro x hx; (try dsimp only); (repeat' split) <;> first | exact hx | exact { hx with } | exact ⟨hx.1, hx.2⟩) | intro

theorem snapMarker_inv {s : State} (hs : s.Inv) (n : Fin 128) (i : Fin 6) (k : Fin 3) (infl : BitVec 16) : (s.snapMarker n i k infl).Inv := by
  unfold State.snapMarker
  repeat' first
    | with_reducible assumption | (intro x hx; exact { hx with infl := sparse_set_wf _ _ _ hx.infl }) | with_reducible apply modSnap_inv
    | dsimp only | split | (intro x hx; exact { hx with }) | (intro x hx; exact hx) | (intro x hx; exact ⟨hx.1, hx.2⟩)
    | (intro x hx; (try dsimp only); (repeat' split) <;> first | exact hx | exact { hx with } | exact ⟨hx.1, hx.2⟩) | intro

theorem trimReq_inv {s : State} (hs : s.Inv) (v : BitVec 2) : (s.trimReq v).Inv := by
  unfold State.trimReq
  repeat' first
    | with_reducible assumption | with_reducible apply modPow_inv | with_reducible apply treeNext_inv | dsimp only | split
    | (intro x hx; exact { hx with }) | (intro x hx; exact hx) | (intro x hx; exact ⟨hx.1, hx.2⟩)
    | (intro x hx; (try dsimp only); (repeat' split) <;> first | exact hx | exact { hx with } | exact ⟨hx.1, hx.2⟩) | intro

theorem trimApply_inv {s : State} (hs : s.Inv) (u : TrimUnit) : (s.trimApply u).Inv := by
  unfold State.trimApply
  repeat' first
    | with_reducible assumption | with_reducible apply modPow_inv | dsimp only | split | (intro x hx; exact { hx with }) | (intro x hx; exact hx)
    | (intro x hx; exact ⟨hx.1, hx.2⟩)
    | (intro x hx; (try dsimp only); (repeat' split) <;> first | exact hx | exact { hx with } | exact ⟨hx.1, hx.2⟩) | intro

theorem trimDone_inv {s : State} (hs : s.Inv)  : (s.trimDone).Inv := by
  unfold State.trimDone
  repeat' first
    | with_reducible assumption | with_reducible apply modPow_inv | with_reducible apply trimReq_inv | with_reducible apply treeNext_inv
    | dsimp only | split | (intro x hx; exact { hx with }) | (intro x hx; exact hx) | (intro x hx; exact ⟨hx.1, hx.2⟩)
    | (intro x hx; (try dsimp only); (repeat' split) <;> first | exact hx | exact { hx with } | exact ⟨hx.1, hx.2⟩) | intro

theorem setGov_inv {s : State} (hs : s.Inv) (g : BitVec 4) : (s.setGov g).Inv := by
  unfold State.setGov
  repeat' first
    | with_reducible assumption | with_reducible apply modPow_inv | with_reducible apply treeNext_inv | dsimp only | (intro x hx; exact { hx with })
    | (intro x hx; exact hx) | (intro x hx; exact ⟨hx.1, hx.2⟩)
    | (intro x hx; (try dsimp only); (repeat' split) <;> first | exact hx | exact { hx with } | exact ⟨hx.1, hx.2⟩) | intro

theorem govWindow_inv {s : State} (hs : s.Inv) (vin : BitVec 16) (iin : BitVec 16) (pin : BitVec 16) : (s.govWindow vin iin pin).Inv := by
  unfold State.govWindow
  repeat' first
    | with_reducible assumption | with_reducible apply modPow_inv | with_reducible apply setGov_inv | dsimp only | split
    | (intro x hx; exact { hx with }) | (intro x hx; exact hx) | (intro x hx; exact ⟨hx.1, hx.2⟩)
    | (intro x hx; (try dsimp only); (repeat' split) <;> first | exact hx | exact { hx with } | exact ⟨hx.1, hx.2⟩) | intro

theorem drainCmds_inv {s : State} (hs : s.Inv)  : (s.drainCmds).Inv := by
  unfold State.drainCmds
  repeat' first
    | with_reducible assumption | with_reducible apply modHosts_inv | dsimp only | (intro x hx; exact { hx with }) | (intro x hx; exact hx)
    | (intro x hx; exact ⟨hx.1, hx.2⟩)
    | (intro x hx; (try dsimp only); (repeat' split) <;> first | exact hx | exact { hx with } | exact ⟨hx.1, hx.2⟩) | intro

theorem hotEnd_inv {s : State} (hs : s.Inv)  : (s.hotEnd).Inv := by
  unfold State.hotEnd
  repeat' first
    | with_reducible assumption | with_reducible apply modPow_inv | dsimp only | split | (intro x hx; exact { hx with }) | (intro x hx; exact hx)
    | (intro x hx; exact ⟨hx.1, hx.2⟩)
    | (intro x hx; (try dsimp only); (repeat' split) <;> first | exact hx | exact { hx with } | exact ⟨hx.1, hx.2⟩) | intro

theorem thermal_inv {s : State} (hs : s.Inv) (t : BitVec 8) : (s.thermal t).Inv := by
  unfold State.thermal
  repeat' first
    | with_reducible assumption | with_reducible apply modPow_inv | with_reducible apply thermal_inv | with_reducible apply faultAllJobs_inv
    | with_reducible apply drainCmds_inv | with_reducible apply modSvc_inv | with_reducible apply raiseBusyBoth_inv
    | with_reducible apply hotEnd_inv | dsimp only | split | (intro x hx; exact { hx with }) | (intro x hx; exact hx)
    | (intro x hx; exact ⟨hx.1, hx.2⟩)
    | (intro x hx; (try dsimp only); (repeat' split) <;> first | exact hx | exact { hx with } | exact ⟨hx.1, hx.2⟩) | intro

theorem compOff_inv {s : State} (hs : s.Inv)  : (s.compOff).Inv := by
  unfold State.compOff
  repeat' first
    | with_reducible assumption | with_reducible apply faultAllJobs_inv | with_reducible apply modPow_inv | with_reducible apply computeReset_inv
    | dsimp only | (intro x hx; exact { hx with }) | (intro x hx; exact hx) | (intro x hx; exact ⟨hx.1, hx.2⟩)
    | (intro x hx; (try dsimp only); (repeat' split) <;> first | exact hx | exact { hx with } | exact ⟨hx.1, hx.2⟩) | intro

theorem inputFault_inv {s : State} (hs : s.Inv)  : (s.inputFault).Inv := by
  unfold State.inputFault
  repeat' first
    | with_reducible assumption | with_reducible apply compOff_inv | with_reducible apply modPow_inv | dsimp only | split
    | (intro x hx; exact { hx with }) | (intro x hx; exact hx) | (intro x hx; exact ⟨hx.1, hx.2⟩)
    | (intro x hx; (try dsimp only); (repeat' split) <;> first | exact hx | exact { hx with } | exact ⟨hx.1, hx.2⟩) | intro

theorem iinTrip_inv {s : State} (hs : s.Inv)  : (s.iinTrip).Inv := by
  unfold State.iinTrip
  repeat' first
    | with_reducible assumption | with_reducible apply inputFault_inv | with_reducible apply modPow_inv | dsimp only
    | (intro x hx; exact { hx with }) | (intro x hx; exact hx) | (intro x hx; exact ⟨hx.1, hx.2⟩)
    | (intro x hx; (try dsimp only); (repeat' split) <;> first | exact hx | exact { hx with } | exact ⟨hx.1, hx.2⟩) | intro

theorem standbyLoss_inv {s : State} (hs : s.Inv)  : (s.standbyLoss).Inv := by
  unfold State.standbyLoss
  repeat' first
    | with_reducible assumption | with_reducible apply computeReset_inv | with_reducible apply aoRegsReset_inv | with_reducible apply modPow_inv
    | with_reducible apply modBoot_inv | dsimp only | (intro x hx; exact { hx with }) | (intro x hx; exact hx) | (intro x hx; exact ⟨hx.1, hx.2⟩)
    | (intro x hx; (try dsimp only); (repeat' split) <;> first | exact hx | exact { hx with } | exact ⟨hx.1, hx.2⟩) | intro

theorem precharged_inv {s : State} (hs : s.Inv)  : (s.precharged).Inv := by
  unfold State.precharged
  repeat' first
    | with_reducible assumption | with_reducible apply modPow_inv | with_reducible apply railsUp_inv | dsimp only | split
    | (intro x hx; exact { hx with }) | (intro x hx; exact hx) | (intro x hx; exact ⟨hx.1, hx.2⟩)
    | (intro x hx; (try dsimp only); (repeat' split) <;> first | exact hx | exact { hx with } | exact ⟨hx.1, hx.2⟩) | intro

theorem prechargeFails_inv {s : State} (hs : s.Inv) :
    (s.prechargeFails).Inv := by
  unfold State.prechargeFails
  repeat' first
    | with_reducible assumption | with_reducible apply modPow_inv | dsimp only | split | with_reducible apply mk_inv
    | (intro x hx; exact { hx with }) | (intro x hx; exact hx) | (intro x hx; exact ⟨hx.1, hx.2⟩)
    | (intro x hx; (try dsimp only); (repeat' split) <;> first | exact hx | exact { hx with } | exact ⟨hx.1, hx.2⟩) | intro

theorem beginDrain_inv {s : State} (hs : s.Inv)  : (s.beginDrain).Inv := by
  unfold State.beginDrain
  repeat' first
    | with_reducible assumption | with_reducible apply eachJob_inv | with_reducible apply fenceWrite_inv | with_reducible apply drainCmds_inv
    | dsimp only | (intro x hx; exact { hx with }) | (intro x hx; exact hx) | (intro x hx; exact ⟨hx.1, hx.2⟩)
    | (intro x hx; (try dsimp only); (repeat' split) <;> first | exact hx | exact { hx with } | exact ⟨hx.1, hx.2⟩) | intro

theorem beginStrike_inv {s : State} (hs : s.Inv)  : (s.beginStrike).Inv := by
  unfold State.beginStrike
  repeat' first
    | with_reducible assumption | with_reducible apply moduleEvent_inv | with_reducible apply modSvc_inv | with_reducible apply raiseBusyBoth_inv
    | with_reducible apply beginDrain_inv | dsimp only | (intro x hx; exact { hx with }) | (intro x hx; exact hx) | (intro x hx; exact ⟨hx.1, hx.2⟩)
    | (intro x hx; (try dsimp only); (repeat' split) <;> first | exact hx | exact { hx with } | exact ⟨hx.1, hx.2⟩) | intro

theorem svcStrike_inv {s : State} (hs : s.Inv)  : (s.svcStrike).Inv := by
  unfold State.svcStrike
  repeat' first
    | with_reducible assumption | with_reducible apply beginStrike_inv | dsimp only | split

theorem svcUnstrike_inv {s : State} (hs : s.Inv)  : (s.svcUnstrike).Inv := by
  unfold State.svcUnstrike
  repeat' first
    | with_reducible assumption | with_reducible apply modSvc_inv | with_reducible apply foldl_inv | with_reducible apply retrain_inv
    | with_reducible apply foldl_inv | with_reducible apply foldl_fst_inv | dsimp only | split | (intro x hx; exact { hx with })
    | (intro x hx; exact hx) | (intro x hx; exact ⟨hx.1, hx.2⟩)
    | (intro x hx; (try dsimp only); (repeat' split) <;> first | exact hx | exact { hx with } | exact ⟨hx.1, hx.2⟩) | intro

theorem buttonPress_inv {s : State} (hs : s.Inv)  : (s.buttonPress).Inv := by
  unfold State.buttonPress
  repeat' first
    | with_reducible assumption | with_reducible apply beginStrike_inv | with_reducible apply svcUnstrike_inv | dsimp only | split

theorem fwAbandon_inv {s : State} (hs : s.Inv)  : (s.fwAbandon).Inv := by
  unfold State.fwAbandon
  repeat' first
    | with_reducible assumption | with_reducible apply modBoot_inv | dsimp only | split | (intro x hx; exact { hx with }) | (intro x hx; exact hx)
    | (intro x hx; exact ⟨hx.1, hx.2⟩)
    | (intro x hx; (try dsimp only); (repeat' split) <;> first | exact hx | exact { hx with } | exact ⟨hx.1, hx.2⟩) | intro

theorem force_inv {s : State} (hs : s.Inv)  : (s.force).Inv := by
  unfold State.force
  repeat' first
    | with_reducible assumption | with_reducible apply fwAbandon_inv | with_reducible apply modSvc_inv | dsimp only
    | (intro x hx; exact { hx with }) | (intro x hx; exact hx) | (intro x hx; exact ⟨hx.1, hx.2⟩)
    | (intro x hx; (try dsimp only); (repeat' split) <;> first | exact hx | exact { hx with } | exact ⟨hx.1, hx.2⟩) | intro

theorem forcedStrike_inv {s : State} (hs : s.Inv)  : (s.forcedStrike).Inv := by
  unfold State.forcedStrike
  repeat' first
    | with_reducible assumption | with_reducible apply force_inv | dsimp only | split

theorem drainTimeout_inv {s : State} (hs : s.Inv)  : (s.drainTimeout).Inv := by
  unfold State.drainTimeout
  repeat' first
    | with_reducible assumption | with_reducible apply force_inv | dsimp only | split

theorem strikeEnd_inv {s : State} (hs : s.Inv)  : (s.strikeEnd).Inv := by
  unfold State.strikeEnd
  repeat' first
    | with_reducible assumption | with_reducible apply modSvc_inv | dsimp only | split | (intro x hx; exact { hx with }) | (intro x hx; exact hx)
    | (intro x hx; exact ⟨hx.1, hx.2⟩)
    | (intro x hx; (try dsimp only); (repeat' split) <;> first | exact hx | exact { hx with } | exact ⟨hx.1, hx.2⟩) | intro

theorem portsDown_inv {s : State} (hs : s.Inv)  : (s.portsDown).Inv := by
  unfold State.portsDown
  repeat' first
    | with_reducible assumption | dsimp only | with_reducible apply mk_inv | (intro x hx; exact { hx with }) | (intro x hx; exact hx)
    | (intro x hx; exact ⟨hx.1, hx.2⟩)
    | (intro x hx; (try dsimp only); (repeat' split) <;> first | exact hx | exact { hx with } | exact ⟨hx.1, hx.2⟩) | intro

theorem drainComplete_inv {s : State} (hs : s.Inv)  : (s.drainComplete).Inv := by
  unfold State.drainComplete
  repeat' first
    | with_reducible assumption | with_reducible apply modSvc_inv | with_reducible apply portsDown_inv | with_reducible apply eachMast_inv
    | with_reducible apply furl_inv | with_reducible apply strikeEnd_inv | with_reducible apply hotEnd_inv | dsimp only | split
    | (intro x hx; exact { hx with }) | (intro x hx; exact hx) | (intro x hx; exact ⟨hx.1, hx.2⟩)
    | (intro x hx; (try dsimp only); (repeat' split) <;> first | exact hx | exact { hx with } | exact ⟨hx.1, hx.2⟩) | intro

theorem leverOpen_inv {s : State} (hs : s.Inv)  : (s.leverOpen).Inv := by
  unfold State.leverOpen
  repeat' first
    | with_reducible assumption | with_reducible apply modSvc_inv | with_reducible apply moduleEvent_inv | with_reducible apply faultAllJobs_inv
    | with_reducible apply force_inv | with_reducible apply raiseBusyBoth_inv | dsimp only | split | (intro x hx; exact { hx with })
    | (intro x hx; exact hx) | (intro x hx; exact ⟨hx.1, hx.2⟩)
    | (intro x hx; (try dsimp only); (repeat' split) <;> first | exact hx | exact { hx with } | exact ⟨hx.1, hx.2⟩) | intro

theorem leverClose_inv {s : State} (hs : s.Inv)  : (s.leverClose).Inv := by
  unfold State.leverClose
  repeat' first
    | with_reducible assumption | with_reducible apply modSvc_inv | with_reducible apply moduleEvent_inv | dsimp only | split
    | (intro x hx; exact { hx with }) | (intro x hx; exact hx) | (intro x hx; exact ⟨hx.1, hx.2⟩)
    | (intro x hx; (try dsimp only); (repeat' split) <;> first | exact hx | exact { hx with } | exact ⟨hx.1, hx.2⟩) | intro

theorem setLocate_inv {s : State} (hs : s.Inv) (v : Bool) : (s.setLocate v).Inv := by
  unfold State.setLocate
  repeat' first
    | with_reducible assumption | with_reducible apply modSvc_inv | dsimp only | (intro x hx; exact { hx with }) | (intro x hx; exact hx)
    | (intro x hx; exact ⟨hx.1, hx.2⟩)
    | (intro x hx; (try dsimp only); (repeat' split) <;> first | exact hx | exact { hx with } | exact ⟨hx.1, hx.2⟩) | intro

theorem locateTouch_inv {s : State} (hs : s.Inv)  : (s.locateTouch).Inv := by
  unfold State.locateTouch
  repeat' first
    | with_reducible assumption | with_reducible apply setLocate_inv | with_reducible apply moduleEvent_inv | dsimp only | split

end Sys2Proof.Machine
end

