-- ==== Sys2Proof/Laws/Ctl.lean ====
section
/-!
SUPPORT. Every operation of Machine/Ctl.lean keeps the invariant of the module.
-/

namespace Sys2Proof.Machine

theorem ccStart_inv {s : State} (hs : s.Inv) (m : MastId) : (s.ccStart m).Inv := by
  unfold State.ccStart
  split
  · exact wake_inv (modCore_inv hs fun c hc =>
      Core.age_ok (c := { c with halted := false, npc := c.startPc.setWidth 18, bank := 2, level := 2, opening := [], waiting := none })
        ⟨hc.ldm, hc.imem, hc.gate, hc.gateUsed, .inl ⟨show 2 < 3 by decide, rfl⟩⟩ 11) m 0
  · exact hs

theorem ccStop_inv {s : State} (hs : s.Inv) (m : MastId) : (s.ccStop m).Inv := by
  unfold State.ccStop
  repeat' first
    | with_reducible assumption | with_reducible apply core_inv | with_reducible apply beginHalt_inv | dsimp only | split

theorem haltComplete_inv {s : State} (hs : s.Inv) (m : MastId) : (s.haltComplete m).Inv := by
  unfold State.haltComplete
  repeat' first
    | with_reducible assumption | with_reducible apply core_inv | with_reducible apply modCore_inv | dsimp only | split
    | (intro x hx; exact { hx with }) | (intro x hx; exact hx) | (intro x hx; exact ⟨hx.1, hx.2⟩)
    | (intro x hx; (try dsimp only); (repeat' split) <;> first | exact hx | exact { hx with } | exact ⟨hx.1, hx.2⟩) | intro

theorem irqSet_inv {s : State} (hs : s.Inv) (m : MastId) (v : BitVec 8) : (s.irqSet m v).Inv := by
  unfold State.irqSet
  repeat' first
    | with_reducible assumption | with_reducible apply modCore_inv | dsimp only | (intro x hx; exact { hx with }) | (intro x hx; exact hx)
    | (intro x hx; exact ⟨hx.1, hx.2⟩)
    | (intro x hx; (try dsimp only); (repeat' split) <;> first | exact hx | exact { hx with } | exact ⟨hx.1, hx.2⟩) | intro

theorem vecStop_inv {s : State} (hs : s.Inv) (m : MastId) : (s.vecStop m).Inv := by
  unfold State.vecStop
  repeat' first
    | with_reducible assumption | with_reducible apply modVec_inv | dsimp only | split | (intro x hx; exact { hx with }) | (intro x hx; exact hx)
    | (intro x hx; exact ⟨hx.1, hx.2⟩)
    | (intro x hx; (try dsimp only); (repeat' split) <;> first | exact hx | exact { hx with } | exact ⟨hx.1, hx.2⟩) | intro

theorem vecStopped_inv {s : State} (hs : s.Inv) (m : MastId) : (s.vecStopped m).Inv := by
  unfold State.vecStopped
  dsimp only
  split
  · exact modMast_inv (modXl_inv hs) fun _ => vecHalt_ok
  · exact hs

theorem vecRun_inv {s : State} (hs : s.Inv) (m : MastId) : (s.vecRun m).Inv := by
  unfold State.vecRun
  repeat' first
    | with_reducible assumption | with_reducible apply modVec_inv | with_reducible apply vecAdvance_inv | dsimp only | split
    | (intro x hx; exact { hx with }) | (intro x hx; exact hx) | (intro x hx; exact ⟨hx.1, hx.2⟩)
    | (intro x hx; (try dsimp only); (repeat' split) <;> first | exact hx | exact { hx with } | exact ⟨hx.1, hx.2⟩) | intro

theorem vecDiscard_inv {s : State} (hs : s.Inv) (m : MastId) : (s.vecDiscard m).Inv := by
  unfold State.vecDiscard
  repeat' first
    | with_reducible assumption | with_reducible apply modVec_inv | with_reducible apply clearStall_inv | dsimp only | split
    | (intro x hx; exact { hx with }) | (intro x hx; exact hx) | (intro x hx; exact ⟨hx.1, hx.2⟩)
    | (intro x hx; (try dsimp only); (repeat' split) <;> first | exact hx | exact { hx with } | exact ⟨hx.1, hx.2⟩) | intro

end Sys2Proof.Machine
end

