-- ==== Sys2Proof/Laws/Security.lean ====
section
/-!
SUPPORT. Every operation of Machine/Security.lean keeps the invariant of the module.
-/

namespace Sys2Proof.Machine

theorem aoExit_inv {s : State} (hs : s.Inv) (b : BootInput) : (s.aoExit b).Inv := by
  unfold State.aoExit
  repeat' first
    | with_reducible assumption | with_reducible apply modPow_inv | with_reducible apply powerOn_inv | dsimp only | split
    | (intro x hx; exact { hx with }) | (intro x hx; exact hx) | (intro x hx; exact ⟨hx.1, hx.2⟩)
    | (intro x hx; (try dsimp only); (repeat' split) <;> first | exact hx | exact { hx with } | exact ⟨hx.1, hx.2⟩) | intro

theorem modRst_inv {s : State} (hs : s.Inv) (b : BootInput) : (s.modRst b).Inv := by
  unfold State.modRst
  repeat' first
    | with_reducible assumption | with_reducible apply modBoot_inv | with_reducible apply moduleReset_inv | dsimp only | split
    | (intro x hx; exact { hx with }) | (intro x hx; exact hx) | (intro x hx; exact ⟨hx.1, hx.2⟩)
    | (intro x hx; (try dsimp only); (repeat' split) <;> first | exact hx | exact { hx with } | exact ⟨hx.1, hx.2⟩) | intro

theorem fwBegin_inv {s : State} (hs : s.Inv)  : (s.fwBegin).Inv := by
  unfold State.fwBegin
  repeat' first
    | with_reducible assumption | with_reducible apply modBoot_inv | with_reducible apply raiseBusyBoth_inv | dsimp only | split
    | (intro x hx; exact { hx with }) | (intro x hx; exact hx) | (intro x hx; exact ⟨hx.1, hx.2⟩)
    | (intro x hx; (try dsimp only); (repeat' split) <;> first | exact hx | exact { hx with } | exact ⟨hx.1, hx.2⟩) | intro

theorem fwFinish_inv {s : State} (hs : s.Inv) (c : CryptoFindings) : (s.fwFinish c).Inv := by
  unfold State.fwFinish
  split
  · exact hs
  · extract_lets b t fail s1 bank i s2
    have h1 : s1.Inv := modBoot_inv hs fun x hx => { hx with }
    clear_value s1 fail
    have h2 : s2.Inv := by
      dsimp only [s2]
      split
      · exact h1
      · exact modBoot_inv h1 fun x hx => ⟨mem_put_wf _ _ _ hx.flash, hx.stageMem, hx.nonce, hx.report, hx.cert⟩
    exact strikeEnd_inv h2

theorem fwAbort_inv {s : State} (hs : s.Inv)  : (s.fwAbort).Inv := by
  unfold State.fwAbort
  repeat' first
    | with_reducible assumption | with_reducible apply fwAbandon_inv | with_reducible apply strikeEnd_inv | dsimp only

theorem fwCommit_inv {s : State} (hs : s.Inv)  : (s.fwCommit).Inv := by
  unfold State.fwCommit
  repeat' first
    | with_reducible assumption | with_reducible apply modBoot_inv | dsimp only | (intro x hx; exact { hx with }) | (intro x hx; exact hx)
    | (intro x hx; exact ⟨hx.1, hx.2⟩)
    | (intro x hx; (try dsimp only); (repeat' split) <;> first | exact hx | exact { hx with } | exact ⟨hx.1, hx.2⟩) | intro

theorem recordNode_inv {s : State} (hs : s.Inv) (node : BitVec 14) (cfg : Word) : (s.recordNode node cfg).Inv := by
  unfold State.recordNode
  repeat' first
    | with_reducible assumption | with_reducible apply modBoot_inv | dsimp only | (intro x hx; exact { hx with }) | (intro x hx; exact hx)
    | (intro x hx; exact ⟨hx.1, hx.2⟩)
    | (intro x hx; (try dsimp only); (repeat' split) <;> first | exact hx | exact { hx with } | exact ⟨hx.1, hx.2⟩) | intro

theorem attStart_inv {s : State} (hs : s.Inv) (nonce : List Byte) : (s.attStart nonce).Inv := by
  unfold State.attStart
  repeat' first
    | with_reducible assumption | with_reducible apply modBoot_inv | dsimp only | split | (intro x hx; exact { hx with }) | (intro x hx; exact hx)
    | (intro x hx; exact ⟨hx.1, hx.2⟩)
    | (intro x hx; (try dsimp only); (repeat' split) <;> first | exact hx | exact { hx with } | exact ⟨hx.1, hx.2⟩) | intro

theorem attReq_inv {s : State} (hs : s.Inv)  : (s.attReq).Inv := by
  unfold State.attReq
  repeat' first
    | with_reducible assumption | with_reducible apply attStart_inv | dsimp only

theorem attDone_inv {s : State} (hs : s.Inv) (sig : List Byte) : (s.attDone sig).Inv := by
  unfold State.attDone
  split
  · extract_lets r
    clear_value r
    exact modBoot_inv hs fun x hx => ⟨hx.flash, hx.stageMem, hx.nonce, mem_put_wf _ _ _ rfl, hx.cert⟩
  · exact hs

end Sys2Proof.Machine
end

