-- ==== Sys2Proof/Laws/HostPort.lean ====
section
/-!
SUPPORT. Every operation of Machine/HostPort.lean keeps the invariant of the module.
-/

namespace Sys2Proof.Machine

theorem loadCtx_inv {s : State} (hs : s.Inv) (k : FnId × Bool × Nat) (out : Option (FnId × Bool × Nat)) :
    (s.loadCtx k out).1.Inv := by
  unfold State.loadCtx
  repeat' first
    | with_reducible assumption | with_reducible apply ask_inv | with_reducible apply writeBytes_inv | with_reducible apply readLine_inv
    | with_reducible apply modHosts_inv | with_reducible apply modFn_inv | dsimp only | split | with_reducible apply mk_inv
    | (intro x hx; exact { hx with }) | (intro x hx; exact hx) | (intro x hx; exact ⟨hx.1, hx.2⟩)
    | (intro x hx; (try dsimp only); (repeat' split) <;> first | exact hx | exact { hx with } | exact ⟨hx.1, hx.2⟩) | intro

theorem touchCtx_inv {s : State} (hs : s.Inv) (k : FnId × Bool × Nat) : (s.touchCtx k).1.Inv := by
  unfold State.touchCtx
  repeat' first
    | with_reducible assumption | with_reducible apply loadCtx_inv | with_reducible apply modHosts_inv | dsimp only | split
    | (intro x hx; exact hx)

theorem Cq.drain_wf : ∀ (n : Nat) (c : Cq) (mem : Mem) (k : Nat), Sparse.wf mem = true → Sparse.wf (Cq.drain n c mem k).2.1 = true
  | 0, _, _, _, h => h
  | n + 1, c, mem, k, h => by
    unfold Cq.drain
    split
    · exact h
    · split
      · exact h
      · exact Cq.drain_wf n _ _ _ (mem_put_wf _ _ _ h)

theorem verReq_inv {s : State} (hs : s.Inv) (f : FnId) (v : BitVec 16) : (s.verReq f v).Inv := by
  unfold State.verReq
  repeat' first
    | with_reducible assumption | with_reducible apply modFn_inv | dsimp only | split | (intro x hx; exact { hx with }) | (intro x hx; exact hx)
    | (intro x hx; exact ⟨hx.1, hx.2⟩)
    | (intro x hx; (try dsimp only); (repeat' split) <;> first | exact hx | exact { hx with } | exact ⟨hx.1, hx.2⟩) | intro

theorem modSq_inv {s : State} (hs : s.Inv) (qid : BitVec 20) (f : Sq → Sq) : (s.modSq qid f).Inv := by
  unfold State.modSq
  repeat' first
    | with_reducible assumption | with_reducible apply modHosts_inv | dsimp only | (intro x hx; exact { hx with }) | (intro x hx; exact hx)
    | (intro x hx; exact ⟨hx.1, hx.2⟩)
    | (intro x hx; (try dsimp only); (repeat' split) <;> first | exact hx | exact { hx with } | exact ⟨hx.1, hx.2⟩) | intro

theorem queueError_inv {s : State} (hs : s.Inv) (f : FnId) (q : Option (BitVec 20)) : (s.queueError f q).Inv := by
  unfold State.queueError
  repeat' first
    | with_reducible assumption | with_reducible apply modHosts_inv | with_reducible apply event_inv | with_reducible apply queueError_inv
    | dsimp only | split | (intro x hx; exact { hx with }) | (intro x hx; exact hx) | (intro x hx; exact ⟨hx.1, hx.2⟩)
    | (intro x hx; (try dsimp only); (repeat' split) <;> first | exact hx | exact { hx with } | exact ⟨hx.1, hx.2⟩) | intro

theorem drainCq_inv {s : State} (hs : s.Inv) (f : FnId) (i : Option (BitVec 12)) (c : Cq) : (s.drainCq f i c).Inv := by
  refine foldl_inv (modFn_inv (modHport_inv hs fun _ _ => ?_)) fun t _ ht => event_inv ht _ _ _ _
  exact Cq.drain_wf _ _ _ _ (hs.hostMem f.port)

theorem doorbellNow_inv {s : State} (hs : s.Inv) (f : FnId) (v : Word) : (s.doorbellNow f v).1.Inv := by
  unfold State.doorbellNow
  repeat' first
    | with_reducible assumption | with_reducible apply modFn_inv | with_reducible apply touchCtx_inv | with_reducible apply modSq_inv
    | with_reducible apply queueError_inv | dsimp only | split

theorem cqDoorbellNow_inv {s : State} (hs : s.Inv) (f : FnId) (v : Word) : (s.cqDoorbellNow f v).1.Inv := by
  unfold State.cqDoorbellNow
  have hb : ∀ t : State, t.Inv → (t.modFn f fun x => { x with cqh := true }).Inv := fun _ ht => modFn_inv ht
  extract_lets num new i bad t
  split
  · exact hs
  · split
    · exact hb _ hs
    · split
      · exact hb _ hs
      · have ht : t.1.Inv := by
          dsimp only [t]
          split
          · exact hs
          · exact touchCtx_inv hs _
        clear_value t
        split
        · exact ht
        · split
          · exact hb _ ht
          · exact drainCq_inv ht _ _ _

theorem ringOne_inv {s : State} (hs : s.Inv) (d : Bool × FnId × Word) : (s.ringOne d).1.Inv := by
  unfold State.ringOne
  split
  · exact cqDoorbellNow_inv hs _ _
  · exact doorbellNow_inv hs _ _

theorem ringFrom_inv {s : State} (hs : s.Inv) (ds : List (Bool × FnId × Word)) : (s.ringFrom ds).1.Inv := by
  induction ds generalizing s with
  | nil => exact hs
  | cons d ds ih =>
    have h := ringOne_inv hs d
    unfold State.ringFrom
    dsimp only
    split
    · exact ih h
    · exact h

theorem ringDbs_inv {s : State} (hs : s.Inv) : s.ringDbs.Inv := by
  unfold State.ringDbs
  split
  · exact hs
  · exact modHosts_inv (ringFrom_inv hs _) fun _ hx => hx

theorem ring_inv {s : State} (hs : s.Inv) (d : Bool × FnId × Word) : (s.ring d).Inv := by
  have h := ringOne_inv hs d
  unfold State.ring
  dsimp only
  split
  · split
    · exact h
    · exact modHosts_inv h fun _ hx => hx
  · split
    · exact ringDbs_inv (modHosts_inv hs fun _ hx => hx)
    · exact hs

theorem doorbell_inv {s : State} (hs : s.Inv) (f : FnId) (v : Word) : (s.doorbell f v).Inv := ring_inv hs _

theorem cqDoorbell_inv {s : State} (hs : s.Inv) (f : FnId) (v : Word) : (s.cqDoorbell f v).Inv := ring_inv hs _

theorem adminDoorbell_inv {s : State} (hs : s.Inv) (f : FnId) (v : Word) : (s.adminDoorbell f v).Inv := by
  unfold State.adminDoorbell
  repeat' first
    | with_reducible assumption | with_reducible apply modFn_inv | with_reducible apply queueError_inv | dsimp only | split
    | (intro x hx; exact { hx with }) | (intro x hx; exact hx) | (intro x hx; exact ⟨hx.1, hx.2⟩)
    | (intro x hx; (try dsimp only); (repeat' split) <;> first | exact hx | exact { hx with } | exact ⟨hx.1, hx.2⟩) | intro

theorem evtCtl_inv {s : State} (hs : s.Inv) (f : FnId) (v : Word) : (s.evtCtl f v).Inv := by
  unfold State.evtCtl
  repeat' first
    | with_reducible assumption | with_reducible apply modFn_inv | with_reducible apply writeEvent_inv | dsimp only | split
    | (intro x hx; exact { hx with }) | (intro x hx; exact hx) | (intro x hx; exact ⟨hx.1, hx.2⟩)
    | (intro x hx; (try dsimp only); (repeat' split) <;> first | exact hx | exact { hx with } | exact ⟨hx.1, hx.2⟩) | intro

theorem sqFetch_inv {s : State} (hs : s.Inv) (f : FnId) (q : Option (BitVec 20)) (entry : List Byte) : (s.sqFetch f q entry).Inv := by
  unfold State.sqFetch
  extract_lets key x e st add head
  have ha : ∀ n (t : State), t.Inv → (add n t).Inv := fun n t ht =>
    modFn_inv (modHport_inv (modHosts_inv ht fun _ hx => hx) fun _ hx => hx)
  clear_value add
  split
  · exact hs
  · split
    · exact ha _ _ (modFn_inv hs)
    · split
      · exact hs
      · have ht := touchCtx_inv hs (f, false, ‹BitVec 20›.toNat)
        dsimp only
        split
        · exact ht
        · exact ha _ _ (modSq_inv ht _ _)

theorem runCmd_inv {s : State} (hs : s.Inv) {r : CmdRef} {op : Nat} {f : HCmd → State → State × Option Nat}
    (hf : ∀ c (t : State), t.Inv → (f c t).1.Inv) : (s.runCmd r op f).Inv := by
  unfold State.runCmd
  split
  · exact hs
  · have h := hf ‹HCmd› (s.modHosts fun h => { h with cmds := updFirst (fun d => decide (d.ref = r ∧ d.status = none)) (fun d => { d with started := true }) h.cmds })
      (modHosts_inv hs fun _ hx => hx)
    dsimp only
    split
    · exact cmdDone_inv h _ _
    · exact h

theorem hostRefused_inv {s : State} (hs : s.Inv) (j : JobSlot) :
    (s.hostRefused j).Inv := by
  unfold State.hostRefused
  repeat' first
    | with_reducible assumption | with_reducible apply recordFault_inv | with_reducible apply fenceWrite_inv | dsimp only

theorem complCmd_inv {s : State} (hs : s.Inv) (r : CmdRef) : (s.complCmd r).Inv := by
  have pay : ∀ (p : Bool) (j : Option JobSlot) (t : State), t.Inv → (if p then (match j with | some j => t.hostRefused j | none => t) else t).Inv := by
    intro p j t ht
    split
    · split
      · exact hostRefused_inv ht _
      · exact ht
    · exact ht
  unfold State.complCmd
  split
  · split
    · exact mk_inv hs
    · exact hs
  · extract_lets lost pays done st
    have hp : ∀ t : State, t.Inv → (pays t).Inv := fun t ht => pay _ _ _ ht
    have hd : done.Inv := modHosts_inv (hp _ hs) fun _ hx => hx
    clear_value done
    split
    · exact ringDbs_inv hd
    · split
      · exact ringDbs_inv hd
      · extract_lets ctx t
        have hc : ctx.1.Inv := by
          dsimp only [ctx]
          split
          · exact touchCtx_inv hs _
          · exact hs
        have ht : t.Inv := modHosts_inv (hp _ hc) fun _ hx => hx
        clear_value ctx t
        split
        · exact hc
        · split
          · exact ringDbs_inv ht
          · exact ringDbs_inv (drainCq_inv ht _ _ _)

theorem cmdNop_inv {s : State} (hs : s.Inv) (r : CmdRef) : (s.cmdNop r).Inv := by
  unfold State.cmdNop
  repeat' first
    | with_reducible assumption | with_reducible apply runCmd_inv | dsimp only | (intro x hx; exact { hx with }) | (intro x hx; exact hx)
    | (intro x hx; exact ⟨hx.1, hx.2⟩)
    | (intro x hx; (try dsimp only); (repeat' split) <;> first | exact hx | exact { hx with } | exact ⟨hx.1, hx.2⟩) | intro

theorem cmdInvalidate_inv {s : State} (hs : s.Inv) (r : CmdRef) : (s.cmdInvalidate r).Inv := by
  unfold State.cmdInvalidate
  repeat' first
    | with_reducible assumption | with_reducible apply runCmd_inv | with_reducible apply queueInv_inv | dsimp only | split
    | (intro x hx; exact { hx with }) | (intro x hx; exact hx) | (intro x hx; exact ⟨hx.1, hx.2⟩)
    | (intro x hx; (try dsimp only); (repeat' split) <;> first | exact hx | exact { hx with } | exact ⟨hx.1, hx.2⟩) | intro

theorem cmdCreateSq_inv {s : State} (hs : s.Inv) (r : CmdRef) : (s.cmdCreateSq r).Inv := by
  unfold State.cmdCreateSq
  repeat' first
    | with_reducible assumption | with_reducible apply runCmd_inv | with_reducible apply modHosts_inv | dsimp only | split
    | (intro x hx; exact { hx with }) | (intro x hx; exact hx) | (intro x hx; exact ⟨hx.1, hx.2⟩)
    | (intro x hx; (try dsimp only); (repeat' split) <;> first | exact hx | exact { hx with } | exact ⟨hx.1, hx.2⟩) | intro

theorem cmdDeleteSq_inv {s : State} (hs : s.Inv) (r : CmdRef) : (s.cmdDeleteSq r).Inv := by
  unfold State.cmdDeleteSq
  repeat' first
    | with_reducible assumption | with_reducible apply runCmd_inv | with_reducible apply modHosts_inv | dsimp only | split
    | (intro x hx; exact { hx with }) | (intro x hx; exact hx) | (intro x hx; exact ⟨hx.1, hx.2⟩)
    | (intro x hx; (try dsimp only); (repeat' split) <;> first | exact hx | exact { hx with } | exact ⟨hx.1, hx.2⟩) | intro

theorem cmdCreateCq_inv {s : State} (hs : s.Inv) (r : CmdRef) : (s.cmdCreateCq r).Inv := by
  unfold State.cmdCreateCq
  repeat' first
    | with_reducible assumption | with_reducible apply runCmd_inv | with_reducible apply modFn_inv | dsimp only | split
    | (intro x hx; exact { hx with }) | (intro x hx; exact hx) | (intro x hx; exact ⟨hx.1, hx.2⟩)
    | (intro x hx; (try dsimp only); (repeat' split) <;> first | exact hx | exact { hx with } | exact ⟨hx.1, hx.2⟩) | intro

theorem cmdDeleteCq_inv {s : State} (hs : s.Inv) (r : CmdRef) : (s.cmdDeleteCq r).Inv := by
  unfold State.cmdDeleteCq
  repeat' first
    | with_reducible assumption | with_reducible apply runCmd_inv | with_reducible apply modFn_inv | with_reducible apply modHosts_inv | dsimp only
    | split | (intro x hx; exact { hx with }) | (intro x hx; exact hx) | (intro x hx; exact ⟨hx.1, hx.2⟩)
    | (intro x hx; (try dsimp only); (repeat' split) <;> first | exact hx | exact { hx with } | exact ⟨hx.1, hx.2⟩) | intro

theorem cmdGrant_inv {s : State} (hs : s.Inv) (r : CmdRef) : (s.cmdGrant r).Inv := by
  unfold State.cmdGrant
  repeat' first
    | with_reducible assumption | with_reducible apply runCmd_inv | with_reducible apply modHosts_inv | dsimp only | split
    | (intro x hx; exact { hx with }) | (intro x hx; exact hx) | (intro x hx; exact ⟨hx.1, hx.2⟩)
    | (intro x hx; (try dsimp only); (repeat' split) <;> first | exact hx | exact { hx with } | exact ⟨hx.1, hx.2⟩) | intro

theorem attnPulse_inv {s : State} (hs : s.Inv) (h : HostPort) : (s.attnPulse h).Inv := by
  unfold State.attnPulse
  repeat' first
    | with_reducible assumption | with_reducible apply modHport_inv | dsimp only | split | (intro x hx; exact { hx with }) | (intro x hx; exact hx)
    | (intro x hx; exact ⟨hx.1, hx.2⟩)
    | (intro x hx; (try dsimp only); (repeat' split) <;> first | exact hx | exact { hx with } | exact ⟨hx.1, hx.2⟩) | intro

theorem attnEnd_inv {s : State} (hs : s.Inv) (h : HostPort) : (s.attnEnd h).Inv := by
  unfold State.attnEnd
  repeat' first
    | with_reducible assumption | with_reducible apply modHport_inv | dsimp only | split | (intro x hx; exact { hx with }) | (intro x hx; exact hx)
    | (intro x hx; exact ⟨hx.1, hx.2⟩)
    | (intro x hx; (try dsimp only); (repeat' split) <;> first | exact hx | exact { hx with } | exact ⟨hx.1, hx.2⟩) | intro

theorem busyEnd_inv {s : State} (hs : s.Inv) (h : HostPort) : (s.busyEnd h).Inv := by
  unfold State.busyEnd
  repeat' first
    | with_reducible assumption | with_reducible apply modHport_inv | dsimp only | split | (intro x hx; exact { hx with }) | (intro x hx; exact hx)
    | (intro x hx; exact ⟨hx.1, hx.2⟩)
    | (intro x hx; (try dsimp only); (repeat' split) <;> first | exact hx | exact { hx with } | exact ⟨hx.1, hx.2⟩) | intro

theorem resetFn_inv {s : State} (hs : s.Inv) (f : FnId) :
    (s.resetFn f).Inv := by
  unfold State.resetFn
  repeat' first
    | with_reducible assumption | with_reducible apply eachJob_inv | with_reducible apply moduleFault_inv | with_reducible apply fenceWrite_inv
    | with_reducible apply modHosts_inv | with_reducible apply modHport_inv | with_reducible apply raiseBusy_inv | with_reducible apply ringDbs_inv
    | dsimp only | split | with_reducible apply mk_inv
    | (intro x hx; exact { hx with }) | (intro x hx; exact hx) | (intro x hx; exact ⟨hx.1, hx.2⟩)
    | (intro x hx; (try dsimp only); (repeat' split) <;> first | exact hx | exact { hx with } | exact ⟨hx.1, hx.2⟩) | intro

theorem flr_inv {s : State} (hs : s.Inv) (f : FnId) : (s.flr f).Inv := by
  unfold State.flr
  repeat' first
    | with_reducible assumption | with_reducible apply resetFn_inv | dsimp only | split

theorem hotReset_inv {s : State} (hs : s.Inv) (h : HostPort) : (s.hotReset h).Inv := by
  unfold State.hotReset
  repeat' first
    | with_reducible assumption | with_reducible apply resetFn_inv | dsimp only

theorem hostLinkDown_inv {s : State} (hs : s.Inv) (h : HostPort) : (s.hostLinkDown h).Inv := by
  unfold State.hostLinkDown
  repeat' first
    | with_reducible assumption | with_reducible apply resetFn_inv | with_reducible apply modHport_inv | dsimp only
    | (intro x hx; exact { hx with }) | (intro x hx; exact hx) | (intro x hx; exact ⟨hx.1, hx.2⟩)
    | (intro x hx; (try dsimp only); (repeat' split) <;> first | exact hx | exact { hx with } | exact ⟨hx.1, hx.2⟩) | intro

theorem perst_inv {s : State} (hs : s.Inv) (h : HostPort) : (s.perst h).Inv := by
  unfold State.perst
  repeat' first
    | with_reducible assumption | with_reducible apply resetFn_inv | with_reducible apply modHport_inv | dsimp only
    | (intro x hx; exact { hx with }) | (intro x hx; exact hx) | (intro x hx; exact ⟨hx.1, hx.2⟩)
    | (intro x hx; (try dsimp only); (repeat' split) <;> first | exact hx | exact { hx with } | exact ⟨hx.1, hx.2⟩) | intro

theorem portReady_inv {s : State} (hs : s.Inv) (h : HostPort) : (s.portReady h).Inv := by
  unfold State.portReady
  repeat' first
    | with_reducible assumption | with_reducible apply modHport_inv | with_reducible apply busyEnd_inv | dsimp only | split
    | (intro x hx; exact { hx with }) | (intro x hx; exact hx) | (intro x hx; exact ⟨hx.1, hx.2⟩)
    | (intro x hx; (try dsimp only); (repeat' split) <;> first | exact hx | exact { hx with } | exact ⟨hx.1, hx.2⟩) | intro

end Sys2Proof.Machine
end

