-- ==== Sys2Proof/Laws/Jobs.lean ====
section
/-!
SUPPORT. Every operation of Machine/Jobs.lean keeps the invariant of the module.
-/

namespace Sys2Proof.Machine

theorem Core.loaded_ok {c : Core} (h : c.Ok) (v : Nat → Word) (image : List Byte) : (c.loaded v image).Ok := by
  have hg : ∀ bs : List Byte, Sparse.wf (Mem.put [] 0 bs) = true := fun bs => mem_put_wf bs [] 0 rfl
  unfold Core.loaded
  constructor
  all_goals dsimp only
  · exact h.ldm
  · exact mem_put_wf _ _ _ h.imem
  · with_reducible exact hg _
  · with_reducible exact hg _
  · exact h.mode

theorem Mast.loaded_ok {x : Mast} (h : x.Ok) (a : LoadArgs) (v : Nat → Word) (image : List Byte) : (x.loaded a v image).Ok where
  core := Core.loaded_ok h.core v image
  vreg := rfl
  kreg := rfl
  tok := rfl
  bankMem := rfl
  rowmap := h.rowmap
  hist := rfl
  breg := rfl
  tiles := mast_reset_ok.tiles
  cnt := h.cnt
  shadow := h.shadow

theorem runOnJob_inv {s : State} (hs : s.Inv) {r : CmdRef} {op : Nat} {f : HCmd → JobSlot → State → State × Option Nat}
    (hf : ∀ c j (t : State), t.Inv → (f c j t).1.Inv) : (s.runOnJob r op f).Inv := by
  refine runCmd_inv hs fun c t ht => ?_
  split
  · exact ht
  · exact hf _ _ _ ht

theorem copyPage_inv {s : State} (hs : s.Inv) (p : HostPort) (j : JobSlot) (x : Xl) (wr : Bool) (va : Nat) : (s.copyPage p j x wr va).1.Inv := by
  have h : ∀ es, (((s.walk (.host p) (Fin.ofNat 2 p.val) x.asid x.root va false).1.modDie (Fin.ofNat 2 p.val) fun y => { y with wc := wcFill y.wc es }).bumpDie
      (Fin.ofNat 2 p.val) 0x400000).Inv := fun es => bumpDie_inv (modDie_inv (walk_inv hs _ _ _ _ _ _) fun x hx => ⟨hx.1, hx.2⟩)
  unfold State.copyPage
  dsimp only
  repeat' split
  all_goals first
    | with_reducible exact walk_inv hs _ _ _ _ _ _ | with_reducible exact h _ | with_reducible exact fenceWrite_inv (recordFault_inv (h _) _ _ _ _) _ _

theorem copyXlate_inv {s : State} (hs : s.Inv) (p : HostPort) (j : JobSlot) (x : Xl) (wr : Bool) (ps : List (Nat × Nat)) : (s.copyXlate p j x wr ps).1.Inv := by
  induction ps generalizing s with
  | nil => exact hs
  | cons q ps ih =>
    have h := copyPage_inv hs p j x wr (q.1 % 2 ^ 56)
    unfold State.copyXlate
    dsimp only
    split
    · exact h
    · exact h
    · exact ih h

theorem copyAsk_inv {s : State} (hs : s.Inv) {h : HostPort} {ps : List (BitVec 52 × Nat)} {go : State → State × Option Nat}
    (hg : ∀ t : State, t.Inv → (go t).1.Inv) : (s.copyAsk h ps go).1.Inv := by
  have ha := ask_inv hs (.host h) (s.copyLines ps)
  unfold State.copyAsk
  dsimp only
  split
  · exact hg _ ha
  · exact ha

theorem copyWait_inv {s : State} (hs : s.Inv) (r : CmdRef) (ps : List (BitVec 52 × Nat)) : (s.copyWait r ps).1.Inv := by
  unfold State.copyWait
  dsimp only
  exact modHosts_inv hs fun _ hx => hx

theorem copySend_inv {s : State} (hs : s.Inv) (h : HostPort) (j : JobSlot) (pa : BitVec 52) (msg : OutMsg) : (s.copySend h j pa msg).Inv :=
  sendTo_inv hs _ _ _ _ _

theorem copyFlits_inv {s : State} (hs : s.Inv) (h : HostPort) (j : JobSlot) (ps : List (BitVec 52 × Nat)) : (s.copyFlits h j ps).Inv := by
  refine foldl_inv hs fun t p ht => ?_
  split
  · exact ht
  · exact flitsIn_inv ht _ _ _ _

theorem copyRun_inv {s : State} (hs : s.Inv) {r : CmdRef} {op : Nat} {out : Bool} {back : HCmd → JobSlot → CopyArgs → State → State × Option Nat}
    {go : HCmd → JobSlot → CopyArgs → List (BitVec 52 × Nat) → State → State × Option Nat} (hb : ∀ c j a (t : State), t.Inv → (back c j a t).1.Inv)
    (hg : ∀ c j a ps (t : State), t.Inv → (go c j a ps t).1.Inv) : (s.copyRun r op out back go).Inv := by
  refine runOnJob_inv hs fun c j t ht => ?_
  have h := fun p x ps => copyXlate_inv ht p j x (!out) ps
  dsimp only
  repeat' split
  all_goals first
    | with_reducible exact ht | with_reducible exact hb _ _ _ _ ht | with_reducible exact h _ _ _
    | exact copyAsk_inv (h _ _ _) fun t ht => hg _ _ _ _ _ ht

theorem cmdCopyIn_inv {s : State} (hs : s.Inv) (r : CmdRef) (data : List Byte) : (s.cmdCopyIn r data).Inv := by
  refine copyRun_inv hs (fun c j _ t ht => ?_) fun _ j _ ps t ht => ?_
  · split
    · exact hostRefused_inv ht j
    · exact copyFlits_inv ht _ _ _
  · have h : (ps.foldl (fun (q : State × List Byte) p =>
        let bs := q.2.take p.2
        (if q.1.isOwn p.1 then q.1.writeBytes (localOf p.1) bs
         else (linePieces p.1.toNat bs).foldl (fun t w =>
           if w.2.isEmpty then t else t.copySend r.fn.port j p.1 (.wru (BitVec.ofNat 52 w.1) w.2 (t.job j).jobid none)) q.1, q.2.drop p.2)) (t, data)).1.Inv := by
      refine foldl_fst_inv ht fun q p hq => ?_
      dsimp only
      split
      · exact writeBytes_inv hq _ _
      · refine foldl_inv hq fun t w ht => ?_
        split
        · exact ht
        · exact copySend_inv ht _ _ _ _
    split
    · exact ht
    · extract_lets u
      change u.Inv at h
      clear_value u
      split
      · exact h
      · exact copyWait_inv h _ _

theorem copyTo_inv {s : State} (hs : s.Inv) (j : JobSlot) (a : CopyArgs) (ps : List (BitVec 52 × Nat)) (w : CopyOutRun) : (s.copyTo j a ps w).1.Inv := by
  unfold State.copyTo
  extract_lets q t
  have hq : q.1.Inv := by
    refine foldl_fst_inv hs fun q p hq => ?_
    split
    · exact readBytes_inv hq _ _
    · exact hq
  clear_value q
  have ht : t.Inv := by
    show State.Inv (if _ then _ else _)
    split
    · exact fenceWrite_inv (recordFault_inv hq _ _ _ _) _ _
    · exact hq
  clear_value t
  split
  · dsimp only
    exact modHport_inv ht fun x hx => mem_put_wf _ _ _ hx
  · exact ht

theorem cmdCopyOut_inv {s : State} (hs : s.Inv) (w : CopyOutRun) : (s.cmdCopyOut w).Inv := by
  refine copyRun_inv hs (fun c j a t ht => ?_) fun _ j a ps t ht => ?_
  · extract_lets ok
    clear_value ok
    split
    · exact hostRefused_inv ht j
    · exact copyAsk_inv (copyFlits_inv ht _ _ _) fun t ht => copyTo_inv ht _ _ _ _
  · split
    · exact copyTo_inv ht _ _ _ _
    · refine copyWait_inv (foldl_inv ht fun t p ht => ?_) _ _
      split
      · exact ht
      · refine foldl_inv ht fun t q ht => ?_
        split
        · exact ht
        · exact copySend_inv ht _ _ _ _

theorem cmdPost_inv {s : State} (hs : s.Inv) (r : CmdRef) : (s.cmdPost r).Inv := by
  refine runOnJob_inv hs fun c j t ht => ?_
  extract_lets addr own ok
  clear_value ok
  split
  · exact ht
  · exact post_inv ht _ _ _

theorem runSub_inv {s : State} (hs : s.Inv) {r : CmdRef} {sub : Nat} {f : HCmd → State → State × Option Nat}
    (hf : ∀ c (t : State), t.Inv → (f c t).1.Inv) : (s.runSub r sub f).Inv := by
  unfold State.runSub
  split
  · split
    · exact runCmd_inv hs hf
    · exact hs
  · exact hs

theorem invalJob_inv {s : State} (hs : s.Inv) (r : CmdRef) (a : BitVec 12) : (s.invalJob r a).Inv := by
  have h := queueInv_inv hs (BitVec.ofNat 64 (1 + 4 * a.toNat)) 0 (some r)
  unfold State.invalJob
  dsimp only
  split
  · exact modHosts_inv h fun _ hx => hx
  · exact hs

theorem loadJob_inv {s : State} (hs : s.Inv) (c : HCmd) (a : LoadArgs) (image : List Byte) : (s.loadJob c a image).Inv := by
  unfold State.loadJob
  refine snapReq_inv (modPow_inv (eachChan_inv (modJob_inv (foldl_inv hs fun t m ht => ?_) fun _ _ => rfl) fun k t ht => ?_))
  · refine mend_inv (modMast_inv ?_ fun x hx => Mast.loaded_ok hx _ _ _) _
    exact mk_check_inv ht (sparse_erase_wf _ _ _ ht.check)
  · extract_lets new
    clear_value new
    have h : (t.modChan k fun x => x.loaded a.jslot new).Inv := modChan_inv ht
    exact { h with }

theorem jobLoad_inv {s : State} (hs : s.Inv) (r : CmdRef) (image param : List Byte) : (s.jobLoad r image param).Inv := by
  refine runSub_inv hs fun c t ht => ?_
  have hd : ∀ ms : List MastId, (ms.foldl (fun t m => t.dcFlush m) t).Inv := fun ms => foldl_inv ht fun t m ht => dcFlush_inv ht m
  have hh : ∀ ms : List MastId, (ms.foldl (fun t m => t.ccStop m) t).Inv := fun ms => foldl_inv ht fun t m ht => ccStop_inv ht m
  extract_lets v2 bs a ms
  clear_value bs
  repeat' split
  all_goals first | with_reducible exact ht | with_reducible exact hh _ | with_reducible exact invalJob_inv (hd _) _ _ | exact loadJob_inv ht _ _ _

theorem runSubOn_inv {s : State} (hs : s.Inv) {r : CmdRef} {sub : Nat} {f : HCmd → JobSlot → State → State × Option Nat}
    (hf : ∀ c j (t : State), t.Inv → (f c j t).1.Inv) : (s.runSubOn r sub f).Inv := by
  refine runSub_inv hs fun c t ht => ?_
  split
  · exact ht
  · exact hf _ _ _ ht

theorem jobStart_inv {s : State} (hs : s.Inv) (r : CmdRef) : (s.jobStart r).Inv := by
  refine runSubOn_inv hs fun c j t ht => ?_
  extract_lets x ms t2 b
  have h2 : t2.Inv := foldl_inv ht fun t m ht => modCore_inv ht fun c hc => ⟨hc.ldm, hc.imem, hc.gate, hc.gateUsed, .inl ⟨show 1 < 3 by decide, rfl⟩⟩
  have hb : Sparse.wf b = true := fold_keeps (P := fun b : Tab => Sparse.wf b = true) (fun _ _ hb => sparse_set_wf _ _ _ hb) _ rfl
  clear_value t2 b
  split
  · exact ht
  · split
    · exact ht
    · dsimp only
      exact modJob_inv h2 fun _ _ => hb

theorem jobFence_inv {s : State} (hs : s.Inv) (r : CmdRef) : (s.jobFence r).Inv := runSubOn_inv hs fun _ _ _ ht => fenceWrite_inv ht _ _

theorem endEngines_inv {s : State} (hs : s.Inv) (ms : List MastId) : (s.endEngines ms).Inv :=
  foldl_inv hs fun _ m ht =>
    dcFlush_inv (halDiscard_inv (sheetDiscard_inv (arrDiscard_inv (arrDiscard_inv (vecDiscard_inv ht m) m 0) m 1) m) m) m

theorem endJob_inv {s : State} (hs : s.Inv) (j : JobSlot) : (s.endJob j).Inv :=
  modJob_inv (foldl_inv hs fun _ _ ht => modMast_inv ht fun _ hx => { hx with }) fun _ _ => rfl

theorem jobEnd_inv {s : State} (hs : s.Inv) (r : CmdRef) : (s.jobEnd r).Inv := by
  refine runSubOn_inv hs fun c j t ht => ?_
  extract_lets t2 ms
  have h2 : t2.Inv := fenceWrite_inv ht _ _
  clear_value t2 ms
  split
  · exact foldl_inv h2 fun t m ht => ccStop_inv ht m
  · split
    · exact h2
    · split
      · exact invalJob_inv (endEngines_inv h2 _) _ _
      · split
        · exact h2
        · exact endJob_inv h2 _

end Sys2Proof.Machine
end

