-- ==== Sys2Proof/Laws/RegRead.lean ====
section
/-!
SUPPORT. Every operation of Machine/RegRead.lean keeps the invariant of the module.
-/

namespace Sys2Proof.Machine

theorem regRead_inv {s : State} (hs : s.Inv) (who : Who) (r : Reg) : (s.regRead who r).1.Inv := by
  unfold State.regRead
  repeat' first
    | with_reducible assumption | with_reducible apply modArr_inv | dsimp only | split | (intro x hx; exact { hx with }) | (intro x hx; exact hx)
    | (intro x hx; exact ⟨hx.1, hx.2⟩)
    | (intro x hx; (try dsimp only); (repeat' split) <;> first | exact hx | exact { hx with } | exact ⟨hx.1, hx.2⟩) | intro

theorem regReadBytes_inv {s : State} (hs : s.Inv) (who : Who) (pa : Nat) (n : Nat) : (s.regReadBytes who pa n).1.Inv := by
  unfold State.regReadBytes
  repeat' first
    | with_reducible assumption | with_reducible apply regRead_inv | with_reducible apply coreEcc_inv | dsimp only | split
    | (intro x hx; exact { hx with }) | (intro x hx; exact hx) | (intro x hx; exact ⟨hx.1, hx.2⟩)
    | (intro x hx; (try dsimp only); (repeat' split) <;> first | exact hx | exact { hx with } | exact ⟨hx.1, hx.2⟩) | intro

end Sys2Proof.Machine
end

