-- ==== Sys2Proof/Laws/RegWrite.lean ====
section
/-!
SUPPORT. Every operation of Machine/RegWrite.lean keeps the invariant of the module.
-/

namespace Sys2Proof.Machine

theorem putWord_wf {m : Mem} (h : Sparse.wf m = true) (w : Nat) (v : RegIn) : Sparse.wf (putWord m w v) = true := mem_store_wf _ _ _ _ h

theorem Core.setBankWord_ok {c : Core} (h : c.Ok) (b : Fin 4) (i : Nat) (v : Word) : (c.setBankWord b i v).Ok := by
  unfold Core.setBankWord
  dsimp only
  split
  · exact Core.modBank_ok h
  · exact Core.modSys_ok (Core.modBank_ok h)

theorem ifBit_inv {s : State} (hs : s.Inv) {v : RegIn} {i : Nat} {f : State → State} (hf : ∀ t : State, t.Inv → (f t).Inv) : (s.ifBit v i f).Inv := by
  unfold State.ifBit
  split
  · exact hf s hs
  · exact hs

theorem bankWrite_inv {s : State} (hs : s.Inv) (m : MastId) (own : Bool) (b : Fin 4) (i : Nat) (v : Word) : (s.bankWrite m own b i v).Inv := by
  unfold State.bankWrite
  dsimp only
  split
  · exact modCore_inv hs fun c hc => Core.setBankWord_ok hc _ _ _
  · exact xwerr_inv hs m

theorem gateWrite_inv {s : State} (hs : s.Inv) (m : MastId) (who : Who) (w : Nat) (v : RegIn) : (s.gateWrite m who w v).Inv := by
  unfold State.gateWrite
  split
  · refine modCore_inv hs fun c hc => ⟨hc.ldm, hc.imem, putWord_wf hc.gate _ _, ?_, hc.mode⟩
    dsimp only
    split
    · exact hc.gateUsed
    · exact putWord_wf hc.gateUsed _ _
  · exact hs

theorem coreWindow_inv {s : State} (hs : s.Inv) {m : MastId} {own : Bool} {f : Core → Core} (hf : ∀ c : Core, c.Ok → (f c).Ok) :
    (s.coreWindow m own f).Inv := by
  unfold State.coreWindow
  split
  · exact modCore_inv hs hf
  · exact xwerr_inv hs m

theorem ifHalted_inv {s : State} (hs : s.Inv) (m : MastId) (f : Xl → Xl) : (s.ifHalted m f).Inv := by
  unfold State.ifHalted
  repeat' first
    | with_reducible assumption | with_reducible apply core_inv | with_reducible apply modXl_inv | with_reducible apply xwerr_inv | dsimp only
    | split

theorem writeCore_inv {s : State} (hs : s.Inv) (who : Who) (m : MastId) (r : MReg) (v : RegIn) :
    (s.writeCore who m r v).Inv := by
  unfold State.writeCore
  repeat' first
    | with_reducible assumption | (intro x hx; exact ⟨putWord_wf hx.ldm _ _, hx.imem, hx.gate, hx.gateUsed, hx.mode⟩)
    | (intro x hx; exact ⟨hx.ldm, putWord_wf hx.imem _ _, hx.gate, hx.gateUsed, hx.mode⟩) | with_reducible apply core_inv | with_reducible apply ifBit_inv | with_reducible apply ccStart_inv
    | with_reducible apply ccStop_inv | with_reducible apply modCore_inv | with_reducible apply xwerr_inv | with_reducible apply modMast_inv
    | with_reducible apply dcFlush_inv | with_reducible apply ifHalted_inv | with_reducible apply fqBaseWrite_inv
    | with_reducible apply fqHeadWrite_inv | with_reducible apply endPeriod_inv | with_reducible apply modXl_inv
    | with_reducible apply fqTimeout_inv | with_reducible apply irqSet_inv | with_reducible apply bankWrite_inv
    | with_reducible apply gateWrite_inv | with_reducible apply coreWindow_inv | dsimp only | split | with_reducible apply mk_inv
    | (intro x hx; exact { hx with }) | (intro x hx; exact hx) | (intro x hx; exact ⟨hx.1, hx.2⟩)
    | (intro x hx; (try dsimp only); (repeat' split) <;> first | exact hx | exact { hx with } | exact ⟨hx.1, hx.2⟩) | intro

theorem ifVec_inv {s : State} (hs : s.Inv) {m : MastId} {f : Vec → Vec} (hf : ∀ x : Vec, x.Ok → (f x).Ok) : (s.ifVec m f).Inv :=
  modVec_inv hs fun x hx => by
    split
    · exact hf x hx
    · exact ⟨hx.1, hx.2⟩

theorem ifSheet_inv {s : State} (hs : s.Inv) {m : MastId} {f : Sheet → Sheet} (hf : ∀ x : Sheet, x.Ok → (f x).Ok) : (s.ifSheet m f).Inv :=
  modSheet_inv hs fun x hx => by
    split
    · exact hf x hx
    · exact ⟨hx.1, hx.2⟩

theorem ifHal_inv {s : State} (hs : s.Inv) (m : MastId) (f : Hal → Hal) : (s.ifHal m f).Inv := by
  unfold State.ifHal
  repeat' first
    | with_reducible assumption | with_reducible apply modHal_inv | dsimp only | split | (intro x hx; exact { hx with }) | (intro x hx; exact hx)
    | (intro x hx; exact ⟨hx.1, hx.2⟩)
    | (intro x hx; (try dsimp only); (repeat' split) <;> first | exact hx | exact { hx with } | exact ⟨hx.1, hx.2⟩) | intro

theorem ifArr_inv {s : State} (hs : s.Inv) (m : MastId) (a : ArrId) (f : Arr → Arr) : (s.ifArr m a f).Inv := by
  unfold State.ifArr
  repeat' first
    | with_reducible assumption | with_reducible apply modArr_inv | dsimp only | split | (intro x hx; exact { hx with }) | (intro x hx; exact hx)
    | (intro x hx; exact ⟨hx.1, hx.2⟩)
    | (intro x hx; (try dsimp only); (repeat' split) <;> first | exact hx | exact { hx with } | exact ⟨hx.1, hx.2⟩) | intro

theorem writeEng_inv {s : State} (hs : s.Inv) (m : MastId) (r : MReg) (v : RegIn) : (s.writeEng m r v).Inv := by
  unfold State.writeEng
  repeat' first
    | with_reducible assumption | (intro x hx; exact ⟨hx.1, putWord_wf hx.2 _ _⟩) | (intro x hx; exact ⟨putWord_wf hx.1 _ _, hx.2⟩)
    | (intro x hx; split <;> first | exact hx | exact ⟨hx.1, putWord_wf hx.2 _ _⟩) | exact { hs with check := sparse_set_wf _ _ _ hs.check }
    | with_reducible apply ifBit_inv | with_reducible apply sheetStop_inv | with_reducible apply sheetRun_inv
    | with_reducible apply sheetDiscard_inv | with_reducible apply modSheet_inv | with_reducible apply xwerr_inv | with_reducible apply ifSheet_inv
    | with_reducible apply sheetSticky_inv | with_reducible apply clearStall_inv | with_reducible apply halStop_inv
    | with_reducible apply halRun_inv | with_reducible apply halDiscard_inv | with_reducible apply modHal_inv | with_reducible apply ifHal_inv
    | with_reducible apply modMast_inv | with_reducible apply tokenClear_inv | with_reducible apply vecStop_inv | with_reducible apply vecRun_inv
    | with_reducible apply vecDiscard_inv | with_reducible apply modVec_inv | with_reducible apply ifVec_inv | dsimp only | split
    | with_reducible apply mk_inv | (intro x hx; exact { hx with }) | (intro x hx; exact hx) | (intro x hx; exact ⟨hx.1, hx.2⟩)
    | (intro x hx; (try dsimp only); (repeat' split) <;> first | exact hx | exact { hx with } | exact ⟨hx.1, hx.2⟩) | intro

theorem ifTile_inv {s : State} (hs : s.Inv) {m : MastId} {t : Fin 16} {f : Tile → Tile}
    (hf : ∀ x : Tile, Sparse.wf x.ents = true → Sparse.wf (f x).ents = true) : (s.ifTile m t f).Inv := by
  unfold State.ifTile
  split
  · exact modTile_inv hs _ _ hf
  · exact modArr_inv hs

theorem writeArr_inv {s : State} (hs : s.Inv) (m : MastId) (r : MReg) (v : RegIn) : (s.writeArr m r v).Inv := by
  unfold State.writeArr
  repeat' first
    | with_reducible assumption | (intro x hx; exact { hx with rowmap := putWord_wf hx.rowmap _ _ })
    | (intro x hx; exact { hx with bankMem := putWord_wf hx.bankMem _ _ }) | (intro x hx; exact sparse_set_wf _ _ _ hx)
    | with_reducible apply ifBit_inv | with_reducible apply arrStop_inv | with_reducible apply arrRun_inv | with_reducible apply arrDiscard_inv
    | with_reducible apply modArr_inv | with_reducible apply xwerr_inv | with_reducible apply ifArr_inv | with_reducible apply clearStall_inv
    | with_reducible apply modMast_inv | with_reducible apply ifTile_inv | dsimp only | split | (intro x hx; exact { hx with })
    | (intro x hx; exact hx) | (intro x hx; exact ⟨hx.1, hx.2⟩)
    | (intro x hx; (try dsimp only); (repeat' split) <;> first | exact hx | exact { hx with } | exact ⟨hx.1, hx.2⟩) | intro

theorem writeDie_inv {s : State} (hs : s.Inv) (d : DieId) (r : DReg) (v : RegIn) : (s.writeDie d r v).Inv := by
  unfold State.writeDie
  repeat' first
    | with_reducible assumption | with_reducible apply modHbm_inv | with_reducible apply ifBit_inv | with_reducible apply scFlush_inv | dsimp only
    | split | (intro x hx; exact { hx with }) | (intro x hx; exact hx) | (intro x hx; exact ⟨hx.1, hx.2⟩)
    | (intro x hx; (try dsimp only); (repeat' split) <;> first | exact hx | exact { hx with } | exact ⟨hx.1, hx.2⟩) | intro

theorem pctlWrite_inv {s : State} (hs : s.Inv) (p : PortId) (v : RegIn) : (s.pctlWrite p v).Inv := by
  unfold State.pctlWrite
  repeat' first
    | with_reducible assumption | with_reducible apply modSport_inv | with_reducible apply ifBit_inv | with_reducible apply retrain_inv | dsimp only
    | split | (intro x hx; exact { hx with }) | (intro x hx; exact hx) | (intro x hx; exact ⟨hx.1, hx.2⟩)
    | (intro x hx; (try dsimp only); (repeat' split) <;> first | exact hx | exact { hx with } | exact ⟨hx.1, hx.2⟩) | intro

theorem shrJobWrite_inv {s : State} (hs : s.Inv) (j : JobSlot) (v : RegIn) : (s.shrJobWrite j v).Inv := by
  unfold State.shrJobWrite
  repeat' first
    | with_reducible assumption | with_reducible apply modJob_inv | dsimp only | split | (intro x hx; exact { hx with }) | (intro x hx; exact hx)
    | (intro x hx; exact ⟨hx.1, hx.2⟩)
    | (intro x hx; (try dsimp only); (repeat' split) <;> first | exact hx | exact { hx with } | exact ⟨hx.1, hx.2⟩) | intro

theorem writeMod_inv {s : State} (hs : s.Inv) (who : Who) (r : UReg) (v : RegIn) : (s.writeMod who r v).Inv := by
  unfold State.writeMod
  repeat' first
    | with_reducible assumption | with_reducible apply invCmd_inv | with_reducible apply pctlWrite_inv | with_reducible apply modSport_inv
    | with_reducible apply shrJobWrite_inv | with_reducible apply modJob_inv | with_reducible apply ifBit_inv | with_reducible apply fenceWrite_inv
    | with_reducible apply modChan_inv | with_reducible apply chanDiscard_inv | with_reducible apply snapReq_inv | dsimp only | split
    | with_reducible apply mk_inv | (intro x hx; exact { hx with }) | (intro x hx; exact hx) | (intro x hx; exact ⟨hx.1, hx.2⟩)
    | (intro x hx; (try dsimp only); (repeat' split) <;> first | exact hx | exact { hx with } | exact ⟨hx.1, hx.2⟩) | intro

theorem writeCrow_inv {s : State} (hs : s.Inv) (r : CReg) (v : RegIn) : (s.writeCrow r v).Inv := by
  unfold State.writeCrow
  repeat' first
    | with_reducible assumption | (intro x hx; exact { hx with stageMem := putWord_wf hx.stageMem _ _ })
    | (intro x hx; exact { hx with nonce := putWord_wf hx.nonce _ _ }) | with_reducible apply ifBit_inv | with_reducible apply fwBegin_inv
    | with_reducible apply fwFinish_inv | with_reducible apply fwAbort_inv | with_reducible apply fwCommit_inv | with_reducible apply modBoot_inv
    | with_reducible apply trimReq_inv | with_reducible apply modPow_inv | with_reducible apply thermal_inv | with_reducible apply setLocate_inv
    | with_reducible apply svcStrike_inv | with_reducible apply svcUnstrike_inv | with_reducible apply modRst_inv | with_reducible apply attDone_inv
    | with_reducible apply attReq_inv | dsimp only | split | (intro x hx; exact { hx with }) | (intro x hx; exact hx)
    | (intro x hx; exact ⟨hx.1, hx.2⟩)
    | (intro x hx; (try dsimp only); (repeat' split) <;> first | exact hx | exact { hx with } | exact ⟨hx.1, hx.2⟩) | intro

theorem writeReg_inv {s : State} (hs : s.Inv) (who : Who) (r : Reg) (v : RegIn) : (s.writeReg who r v).Inv := by
  unfold State.writeReg
  repeat' first
    | with_reducible assumption | with_reducible apply writeCore_inv | with_reducible apply writeEng_inv | with_reducible apply writeArr_inv
    | with_reducible apply writeDie_inv | with_reducible apply writeMod_inv | with_reducible apply writeCrow_inv | dsimp only | split

theorem regWrite_inv {s : State} (hs : s.Inv) (who : Who) (pa : Nat) (size : Nat) (v : Word) : (s.regWrite who pa size v).Inv := by
  unfold State.regWrite
  repeat' first
    | with_reducible assumption | with_reducible apply mend_inv | with_reducible apply writeReg_inv | dsimp only | split

theorem setCpl_inv {s : State} (hs : s.Inv) (h : HostPort) (c : Cpl) :
    (s.setCpl h c).Inv := by
  unfold State.setCpl
  repeat' first
    | with_reducible assumption | with_reducible apply modHport_inv | dsimp only | with_reducible apply mk_inv
    | (intro x hx; exact { hx with }) | (intro x hx; exact hx) | (intro x hx; exact ⟨hx.1, hx.2⟩)
    | (intro x hx; (try dsimp only); (repeat' split) <;> first | exact hx | exact { hx with } | exact ⟨hx.1, hx.2⟩) | intro

theorem barPut_inv {s : State} (hs : s.Inv) (f : FnId) (off : Nat) (v : Word) :
    (s.barPut f off v).Inv := by
  unfold State.barPut
  repeat' first
    | with_reducible assumption | with_reducible apply verReq_inv | with_reducible apply modFn_inv | with_reducible apply evtCtl_inv
    | with_reducible apply doorbell_inv | with_reducible apply adminDoorbell_inv | with_reducible apply cqDoorbell_inv
    | with_reducible apply modHport_inv | dsimp only | split | with_reducible apply mk_inv
    | (intro x hx; exact { hx with }) | (intro x hx; exact hx) | (intro x hx; exact ⟨hx.1, hx.2⟩)
    | (intro x hx; (try dsimp only); (repeat' split) <;> first | exact hx | exact { hx with } | exact ⟨hx.1, hx.2⟩) | intro

theorem barWrite_inv {s : State} (hs : s.Inv) (f : FnId) (off size : Nat) (v : Word) :
    (s.barWrite f off size v).Inv := by
  unfold State.barWrite
  repeat' first
    | with_reducible assumption | with_reducible apply setCpl_inv | with_reducible apply barPut_inv | dsimp only | split

theorem windowWrite_inv {s : State} (hs : s.Inv) (who : Who) (pa size : Nat) (v : Word) :
    (s.windowWrite who pa size v).Inv := by
  unfold State.windowWrite
  repeat' first
    | with_reducible assumption | with_reducible apply setCpl_inv | with_reducible apply regWrite_inv | dsimp only | split

theorem registerWrite_inv {s : State} (hs : s.Inv) (who : Who) (a : RegAddr) (size : Nat) (v : Word) :
    (s.registerWrite who a size v).Inv := by
  unfold State.registerWrite
  repeat' first
    | with_reducible assumption | with_reducible apply windowWrite_inv | with_reducible apply barWrite_inv | dsimp only | split

end Sys2Proof.Machine
end

