-- ==== Sys2Proof/Laws/CoreEvents.lean ====
section
/-!
SUPPORT. Every operation of Machine/CoreEvents.lean keeps the invariant of the module.
-/

namespace Sys2Proof.Machine

theorem vecFollows_inv {t : State} (ht : t.Inv) (s : State) (m : MastId) : (s.vecFollows t m).Inv := by
  unfold State.vecFollows
  split
  · exact ht
  · exact vecAdvance_inv ht m

theorem multiplyWrite_inv {s : State} (hs : s.Inv) (m : MastId) : (s.multiplyWrite m).Inv := by
  unfold State.multiplyWrite
  dsimp only
  split
  · exact hs
  · exact modCore_inv hs fun _ hc => Core.pass_ok hc _ _ _

theorem sample_inv {s : State} (hs : s.Inv) (m : MastId) (lvl : BitVec 2) (p : LoadPart) : (s.sample m lvl p).1.Inv := by
  unfold State.sample
  repeat' first
    | with_reducible assumption | with_reducible apply readBytes_inv | with_reducible apply regReadBytes_inv | with_reducible apply core_inv
    | dsimp only | split

theorem loadThere_inv {s : State} (hs : s.Inv) (m : MastId) (q : Nat) (ok : LoadPart → Bool) : (s.loadThere m q ok).Inv := by
  unfold State.loadThere
  repeat' split
  · exact hs
  · exact hs
  · exact hs
  · exact modCore_inv (sample_inv hs _ _ _) fun _ hc => ⟨hc.ldm, hc.imem, hc.gate, hc.gateUsed, hc.mode⟩

theorem loadReach_inv {s : State} (hs : s.Inv) (m : MastId) (q : Nat) : (s.loadReach m q).Inv := loadThere_inv hs m q _

theorem loadPart_inv {s : State} (hs : s.Inv) (m : MastId) (p : LoadPart) (remote : List Byte) : (s.loadPart m p remote).1.Inv := by
  unfold State.loadPart
  repeat' first
    | with_reducible assumption | with_reducible apply jobFault_inv | with_reducible apply cacheMend_inv | with_reducible apply install_inv
    | dsimp only | split

theorem loadParts_inv {s : State} (hs : s.Inv) (m : MastId) (ps : List LoadPart) (remote : List Byte) :
    (s.loadParts m ps remote).1.Inv := by
  induction ps generalizing s remote with
  | nil => exact hs
  | cons p ps ih =>
    have h := loadPart_inv hs m p remote
    unfold State.loadParts
    dsimp only
    split
    · exact hs
    · exact ih h _

theorem loadReturn_inv {s : State} (hs : s.Inv) (m : MastId) (remote : RemoteData) : (s.loadReturn m remote).Inv := by
  unfold State.loadReturn
  split
  · exact hs
  · extract_lets fin far q
    have hfin : ∀ (t : State) v, t.Inv → (fin t v).Inv := fun t v ht => by
      dsimp only [fin]
      with_reducible apply vecAdvance_inv
      with_reducible apply modCore_inv ht
      intro c hc
      exact ⟨hc.ldm, hc.imem, hc.gate, hc.gateUsed, hc.mode⟩
    have hq : q.1.Inv := by
      dsimp only [q]
      clear_value far
      cases far
      · exact hs
      · exact answered_inv hs _ _ _ _ _ _
    clear_value fin q
    split
    · exact hfin _ _ { hq with }
    · have h := loadParts_inv hq m (‹LoadPend› : LoadPend).parts remote.bytes
      split
      · exact hs
      · refine hfin _ _ ?_
        split
        · exact jobFault_inv h _ _ _
        · exact h

theorem storeThere_inv {s : State} (hs : s.Inv) (m : MastId) (e : WqEnt) : (s.storeThere m e).Inv := by
  unfold State.storeThere
  repeat' first
    | with_reducible assumption | with_reducible apply regWrite_inv | with_reducible apply core_inv | with_reducible apply canvasWrite_inv
    | with_reducible apply cacheMend_inv | with_reducible apply modDc_inv | with_reducible apply modCore_inv | dsimp only | split
    | (intro x hx; exact { hx with }) | (intro x hx; exact hx) | (intro x hx; exact ⟨hx.1, hx.2⟩)
    | (intro x hx; (try dsimp only); (repeat' split) <;> first | exact hx | exact { hx with } | exact ⟨hx.1, hx.2⟩) | intro

theorem storeAt_inv {s : State} (hs : s.Inv) (m : MastId) (q : Nat) (ok : WqEnt → Bool) : (s.storeAt m q ok).Inv := by
  unfold State.storeAt
  dsimp only
  repeat' split
  · exact hs
  · exact hs
  · refine storeThere_inv (modCore_inv hs ?_) _ _
    exact fun c hc => ⟨hc.ldm, hc.imem, hc.gate, hc.gateUsed, hc.mode⟩

theorem storeReach_inv {s : State} (hs : s.Inv) (m : MastId) (q : Nat) : (s.storeReach m q).Inv := storeAt_inv hs m q _

theorem settleOwn_inv {s : State} (hs : s.Inv) (m : MastId) : (s.settleOwn m).Inv :=
  foldl_inv (bumpBy_inv (modCore_inv hs fun _ hc => ⟨hc.ldm, hc.imem, hc.gate, hc.gateUsed, hc.mode⟩)) fun _ _ ht =>
    loadThere_inv (loadThere_inv (storeAt_inv ht _ _ _) _ _ _) _ _ _

theorem fenceOwn_inv {t : State} (ht : t.Inv) (s : State) (m : MastId) (y : Syl) : (s.fenceOwn t m y).Inv := by
  unfold State.fenceOwn
  dsimp only
  split
  · exact modCore_inv (settleOwn_inv ht m) fun _ hc => ⟨hc.ldm, hc.imem, hc.gate, hc.gate, hc.mode⟩
  · exact ht

theorem core_inv {s : State} (hs : s.Inv) (m : MastId) (y : Syl) : (s.core m y).Inv :=
  on_inv hs fun s hs => vecFollows_inv (fenceOwn_inv (present_inv hs m y) s m y) s m

theorem storeSlot_inv {s : State} (hs : s.Inv) (m : MastId) : (s.storeSlot m).Inv := by
  unfold State.storeSlot
  repeat' first
    | with_reducible assumption | with_reducible apply core_inv | with_reducible apply modCore_inv | with_reducible apply kickWq_inv
    | with_reducible apply touchLine_inv | with_reducible apply bump_inv | with_reducible apply sendTo_inv | dsimp only | split
    | (intro x hx; exact { hx with }) | (intro x hx; exact hx) | (intro x hx; exact ⟨hx.1, hx.2⟩)
    | (intro x hx; (try dsimp only); (repeat' split) <;> first | exact hx | exact { hx with } | exact ⟨hx.1, hx.2⟩) | intro

theorem writeAck_inv {s : State} (hs : s.Inv) (m : MastId) (a : AckAnswer) : (s.writeAck m a).Inv := by
  have h : ∀ e pa n, (s.answered m e pa a.jobid a.refused n).1.Inv := fun e pa n => answered_inv hs m e pa a.jobid a.refused n
  unfold State.writeAck
  split
  · split
    · exact jobFault_inv hs _ _ _
    · exact hs
  · split
    · split
      · exact hs
      · extract_lets u
        have hu : u.Inv := by
          show State.Inv (if _ then _ else _)
          split
          · exact hs
          · exact h _ _ _
        clear_value u
        with_reducible apply vecAdvance_inv
        with_reducible apply modCore_inv hu
        intro c hc
        exact ⟨hc.ldm, hc.imem, hc.gate, hc.gateUsed, hc.mode⟩
    · split
      · exact hs
      · with_reducible apply vecAdvance_inv
        with_reducible exact mk_inv (h _ _ _)

theorem trapNow_inv {s : State} (hs : s.Inv) (m : MastId) (ws : List (BitVec 32)) : (s.trapNow m ws).Inv := by
  have h := ready_inv hs m (wordSyls ws)
  unfold State.trapNow
  split
  · exact hs
  · dsimp only
    split
    · rename_i e; exact takeDeferrable_inv h m e
    · split
      · exact hs
      · split
        · exact stopAt_inv (trapReads_inv h _ _ _ _) _ _
        · exact hs

end Sys2Proof.Machine
end

