-- ==== Sys2Proof/WellFormed.lean ====
section
/-!
DEFINITION. Which commands are well formed: what the operands of a command must satisfy for the spec to give it at all. A syllable is well
formed whatever its fields say: an illegal one takes the exception that 14 R363 names.
-/

namespace Sys2Proof

/-- Whether a command is well formed: an uncached access lies in its line (12 R317), an Atom is an atomic operation on an aligned word
(12 R326, R327), a forwarded message leaves on another port and goes to another node (15 R391), a lost link has two ends (15 R396),
a segment goes to another rank and carries data (15 R402), a submission queue entry has 32 or 64 bytes (16 R417, R428), a nonce has 32 bytes
and a signature 132 (18 R466), and an access has a size of 1, 2, 4 or 8 bytes (01 R19). -/
def Instr.wf (i : Instr) : Bool :=
  match i with
  | .ld _ _ | .add _ _ | .adc _ _ | .sub _ _ | .sbc _ _ | .and _ _ | .or _ _ | .xor _ _ | .cmp _ _ | .tst _ _ | .shl _ _ | .shr _ _
  | .sar _ _ | .rol _ _ | .min _ _ | .max _ _ | .minu _ _ | .maxu _ _ | .mul _ _ | .mulu _ _ | .mac _ _ | .macu _ _ | .neg _ _ | .not _ _
  | .sext _ _ | .clz _ _ | .popc _ _ | .movh _ _ | .mfsr _ _ | .mtsr _ _ | .ldx _ _ | .ldy _ _ | .lda _ _ | .sta _ _ | .stx _ _ | .sty _ _
  | .leax _ _ | .leay _ _ | .push _ _ | .pop _ _ | .ldg _ _ | .stg _ _ | .post _ _ | .fence _ _ | .aadd _ _ | .aand _ _ | .aor _ _
  | .axor _ _ | .amin _ _ | .amax _ _ | .aminu _ _ | .amaxu _ _ | .aswap _ _ | .acas _ _ | .afadd _ _ | .radd _ _ | .rfadd _ _ | .rmin _ _
  | .rmax _ _ | .br _ _ | .call _ _ | .calla _ _ | .ja _ _ | .ret _ _ | .loop _ _ | .twait _ _ | .gate _ _ | .rfe _ _ | .halt _ _
  | .ifence _ _ | .vsetvl _ _ | .vfadd _ _ | .vfsub _ _ | .vfrsub _ _ | .vfmul _ _ | .vfma _ _ | .vfms _ _ | .vfdiv _ _ | .vfsqrt _ _
  | .vfmin _ _ | .vfmax _ _ | .vfabs _ _ | .vfneg _ _ | .vfcmp _ _ | .vfcvt _ _ | .vfredsum _ _ | .vfredmax _ _ | .vfredmin _ _ | .vadd _ _
  | .vsub _ _ | .vmul _ _ | .vmin _ _ | .vmax _ _ | .vand _ _ | .vor _ _ | .vxor _ _ | .vshl _ _ | .vshr _ _ | .vcmp _ _ | .vredsum _ _
  | .vredmax _ _ | .vredmin _ _ | .vmerge _ _ | .vmv _ _ | .vid _ _ | .kop _ _ | .kpop _ _ | .vld _ _ | .vst _ _ | .vlds _ _ | .vsts _ _
  | .vldx _ _ | .vstx _ _ | .vkld _ _ | .vkst _ _ | .vtbl _ _ | .vtbl2 _ _ | .vcompress _ _ | .vpost _ _ | .vwait _ _
  | .vectorLoadReturn _ _ | .xpass _ _ | .xbfill _ _ | .xbdisarm _ _ | .passStart _ _ | .kStepWrite _ _ | .operandRelease _ _
  | .repeatStart _ _ | .batchFire _ _ _ | .fillTimerExpiry _ _ _ | .fireAssembly _ _ | .batchPassStart _ _ | .srun _ _ | .drain _ | .map _
  | .ewise _ | .reduce _ | .save _ | .load _ | .bload _ | .softmax _ | .rmsnorm _ | .stats _ | .sheetBeat _ | .rowReply _
  | .sheetDescDone _ | .hrun _ _ | .copy _ | .skew _ | .tskew _ | .trans _ | .fill _ | .halLineWrite _ _ _ | .halDescComplete _ _
  | .tokenPost _ _ | .heldPostLand _ | .tokenStallEvent _ _ | .reefEntry _ _ | .reefWakeDone _ _ | .furlEntry _ | .furlWakeDone _
  | .multiplyWrite _ | .loadDataReturn _ _ | .storeWriteSlot _ | .writeAck _ _ | .haltComplete _ | .trapEntry _ | .walkRequest _ _ _
  | .walkComplete _ _ _ | .faultRecordWrite _ _ | .faultRecordAck _ _ | .fqTimeout _ | .boundExceeded _ _ | .gets _ _ | .getm _ _
  | .upg _ _ | .putm _ _ | .puto _ _ | .pute _ _ => true
  | .rdu _ _ off len => decide (0 < len ∧ off.val + len ≤ 128)
  | .wru _ _ off data => decide (0 < data.bytes.length ∧ off.val + data.bytes.length ≤ 128)
  | .atom _ _ off op => decide (0x30 ≤ op.op.code) && decide (off.val % (if op.dbl then 8 else 4) = 0)
  | .homeFill _ _ | .datas _ _ | .datae _ _ | .datam _ _ | .upgack _ _ | .putack _ _ | .nack _ _ | .nackRetry _ _ | .inv _ _ | .fwds _ _
  | .fwdm _ _ | .fwdr _ _ | .invack _ _ | .fwddata _ _ | .hbmWriteTurn _ _ | .hbmRefresh _ _ _ | .hbmScrubRead _ _
  | .canvasScrub _ _ _ => true
  | .shroudForward pin pout msg => decide (pin ≠ pout) && decide (msg.src ≠ msg.dst)
  | .replayRequest _ | .laneLockLoss _ | .trainingComplete _ _ | .plugDetect _ _ | .linkLossWindowExpiry _ => true
  | .linkLostNotice _ n1 n2 => decide (n1 ≠ n2)
  | .fenceNotice _ _ | .allreduceRun _ | .reduceRun _ | .broadcastRun _ => true
  | .channelSegment _ msg => decide (msg.src ≠ msg.dst) && decide (0 < msg.data.length)
  | .channelSegmentSend _ _ | .channelCommand _ _ | .channelRunComplete _ | .jobFaultMessage _ | .nop _ | .copyIn _ _ | .copyOut _
  | .postCmd _ | .invalidate _ | .jobLoad _ _ _ | .jobStart _ | .jobFence _ | .jobEnd _ | .createSq _ | .deleteSq _ | .createCq _
  | .deleteCq _ | .grantQids _ => true
  | .sqFetch _ _ entry => decide (entry.length = 32 ∨ entry.length = 64)
  | .commandCompletion _ | .doorbell _ _ | .adminDoorbell _ _ | .cqDoorbell _ _ | .hostVerReq _ _ | .hostEvtCtl _ _ | .attentionPulse _
  | .attentionPulseEnd _ | .busyEnd _ | .functionLevelReset _ | .hotReset _ | .portLinkDown _ | .perstAssert _ | .portReady _
  | .ccCtlStart _ | .ccCtlStop _ | .ccIrqSet _ _ | .tokenCtlClear _ | .vecCtlStop _ | .vecStopped _ | .vecCtlRun _ | .vecCtlDiscard _
  | .arrCtlStop _ _ | .arrStopped _ _ | .arrCtlRun _ _ | .arrCtlDiscard _ _ | .sheetCtlStop _ | .sheetStopped _ | .sheetCtlRun _
  | .sheetCtlDiscard _ | .halCtlStop _ | .halStopped _ | .halCtlRun _ | .halCtlDiscard _ | .dcCtlFlush _ | .scCtlFlush _ _
  | .scFlushDone _ _ | .fqBaseWrite _ _ | .fqHeadWrite _ _ | .xlInvCmd _ | .invApply | .invComplete | .shrPctlRetrain _ | .shrJctlFence _
  | .rcCtlDiscard _ | .snapCtlReq | .snapshotToken _ | .snapMarker _ _ _ _ | .pwrTrimReq _ | .trimApply _ | .trimChangeDone
  | .governorWindow _ _ _ | .thermalReading _ | .vinLow | .standbyLoss | .vinHigh | .iinHigh | .iinTrip | .prechargeDone
  | .prechargeTimeout | .aoResetExit _ | .strikeButtonPress | .forcedStrike | .drainTimeout | .drainComplete | .leverOpen | .leverClose
  | .locateTouch | .locateTimeout | .strike | .unstrike | .locate | .locateOff | .fwCtlBegin | .fwCtlFinish _ | .fwCtlAbort | .fwCtlCommit
  | .modRstGo _ | .attCtlReq => true
  | .attestationRequest nonce => decide (nonce.length = 32)
  | .attReportDone sig => decide (sig.length = 132)
  | .nodeRecordWrite _ _ => true
  | .registerWrite _ _ size _ => decide (size = 1 ∨ size = 2 ∨ size = 4 ∨ size = 8)
  | .cmpMessage _ _ => true

end Sys2Proof
end

