-- ==== Sys2Proof/Tests/Slice0.lean ====
section
/-!
SUPPORT. Tests: small states and commands that meet the hypotheses of the statements, with what one command then does; a term that each check of
WellFormed refuses; and values worked out from the spec's tables. Each is one command on a small state.
-/

open Sys2Proof Sys2Proof.Machine

namespace Sys2Proof.Tests

-- One proof at a time: each evaluates a command, and many at once ask for too many threads.
set_option Elab.async false

/-! ## Small states -/

/-- What holds of the state a command answers. -/
def after (o : Host.Outcome State Fault Refusal) (p : State → Bool) : Bool := match o with | .next t => p t | _ => false

/-- The command answers a state with mast 0, the memory and the module's own parts of `t`. -/
def gives (o : Host.Outcome State Fault Refusal) (t : State) : Bool :=
  after o fun u => decide (u.mast 0 = t.mast 0 ∧ u.ram = t.ram ∧ u.posts = t.posts ∧ u.held = t.held ∧ u.flts = t.flts ∧ u.msgs = t.msgs ∧ u.homes = t.homes ∧
    u.invs = t.invs ∧ u.hosts.cmds = t.hosts.cmds ∧ u.hosts.sqs = t.hosts.sqs ∧ u.pow = t.pow ∧ u.snap = t.snap ∧ u.svc = t.svc ∧ u.sent = t.sent)

/-- The module after start-up: its compute domain is on and its HBM trained. -/
def up : State := { State.reset with
  pow := { Power.reset with compOn := true, inSwitch := true }
  boot := { Boot.reset with stage := 5 } }

/-- Every engine of mast 0 is set, and its core runs, changed by `f`. -/
def core (f : Core → Core) : State := up.modMast 0 fun x => { x with sail := 0, core := f { x.core with halted := false } }

/-- Mast 0 with every engine set and its core running, changed by `f`. -/
def mast (f : Mast → Mast) : State := (core id).modMast 0 f

/-- Job 0, of JOBID 0, runs on this module and on module 1, its neighbour in dimension 0. -/
def paired (s : State) : State := ({ s with shrCfg := { ShrCfg.reset with size0 := 1 } } : State).modJob 0 fun j => { j with valid := true, jblk := 0x10000 }

/-- An answer of module 1 that carries bytes. -/
def answer (bs : List Byte) : RemoteData := { jobid := 0, refused := false, bytes := bs, poison := false, checks := [] }

/-- Registers of the current bank. -/
def regs (a x y : Word) (c : Core) : Core := c.modCur fun b => { b with a := a, x := x, y := y }

/-- An M-form body: size, mode and FIELD, a whole bundle. -/
def mb (sz : BitVec 2) (mode : BitVec 3) (field : BitVec 16) : MBody := { sz := sz, sgn := false, mode := mode, field := field, ext := none, stop := true }

/-- A B-form body, a whole bundle. -/
def bb (cond : BitVec 4) (off : BitVec 19) : BBody := { cond := cond, off := off, ext := none, stop := true }

/-- The core of mast 0. -/
abbrev c0 (s : State) : Core := (s.mast 0).core

/-! ## The step and bundles -/

theorem test_StepRunsFrontCommand : ({ up with pending := [.strike, .locate] } : State).pending = .strike :: [.locate] ∧
    step { up with pending := [.strike, .locate] } = exec .strike { up with pending := [.locate] } := ⟨rfl, rfl⟩

theorem test_ResetMeetsInvariant_memory : Sparse.wf (State.reset.mast 127).core.ldm = true ∧ (State.reset.mast 127).core.modeOk := by
  simp only [Core.modeOk]; decide +kernel

theorem test_StepKeepsInvariant : (∃ t, step { up with pending := [.locate] } = .next t) ∧ (up.mast 0).core.modeOk :=
  ⟨⟨_, rfl⟩, by simp only [Core.modeOk]; decide +kernel⟩

theorem test_SyllablesGatherAndIssue_issues :
    let s := core fun c => { regs 7 0 0 c with opening := [.c .add { mb 3 0 5 with stop := false }] }
    s.issues 0 (.l .ldx (mb 3 1 0)) = true ∧
    after (exec (.ldx 0 (mb 3 1 0)) s) (fun t => (c0 t).cur.a = 12 ∧ (c0 t).cur.x = 7 ∧ (c0 t).npc = 8) = true := by decide +kernel

theorem test_SyllablesGatherAndIssue_gathers :
    let s := core id
    let y : Syl := .c .add { mb 3 0 5 with stop := false }
    s.pow.compOn = true ∧ s.coreRuns 0 = true ∧ y.stop = false ∧ ((s.bundleWith 0 y).map Syl.words).sum < 8 ∧
    gives (exec (.add 0 { mb 3 0 5 with stop := false }) s) (s.modCore 0 fun c => { c with opening := [y] }) = true := by decide +kernel

/-- The seventh word joins, and an eighth without STOP ends an ill-formed bundle (02 R56). -/
theorem test_SyllablesGatherAndIssue_eighth :
    let s := fun (n : Nat) => core fun c => { c with opening := List.replicate n (.c .add { mb 3 0 5 with stop := false }), im := false }
    after (exec (.add 0 { mb 3 0 5 with stop := false }) (s 6)) (fun t => (c0 t).opening.length = 7) = true ∧
    after (exec (.add 0 { mb 3 0 5 with stop := false }) (s 7)) (fun t => ((c0 t).sys.get 2).cause = 1 ∧ (c0 t).opening = []) = true := by decide +kernel

/-- A core that waits on nothing, with no STA write to a loop register on its way. -/
theorem test_SyllablesGatherAndIssue_parts :
    (c0 up).waiting = none ∧ (c0 up).returned = false ∧ (∀ k : Fin 3, (c0 up).ag.get k = 0) ∧ (∀ k : Fin 3, (c0 up).cur.arm.get k = 0) ∧ up.upsets = [] ∧
    hasHalt [.c .add (mb 3 0 1)] = false := by decide +kernel

theorem test_NextBundleIsSelected_branch :
    let c := ((core fun c => { regs 3 0 0 c with npc := 0x20 }).mast 0).core
    branchOf c [.b .br (bb 7 0x7FFFF)] = some 0x1C ∧ branchOf c [.b .br (bb 15 4)] = none ∧ branchOf c [.b .loop (bb 0 2)] = none ∧
    (c.advance c [.b .br (bb 7 0x7FFFF)]).npc = 0x1C ∧ (c.advance c [.c .add (mb 3 0 1)]).npc = 0x24 := by decide +kernel

/-- At the end bundle of an active loop the next bundle is LS and the count drops; with a count of 1 the loop ends (02 R72). -/
theorem test_loop_end_test :
    let at' := fun (n : BitVec 32) => ((core fun c => { c with npc := 0x40 }.modCur fun b =>
      { b with ls := b.ls.set 0 0x20, le := b.le.set 0 0x40, lc := b.lc.set 0 n }).mast 0).core
    (let c := at' 2; let d := c.advance c [.c .add (mb 3 0 1)]; d.npc = 0x20 ∧ d.cur.lc.get 0 = 1) ∧
    (let c := at' 1; let d := c.advance c [.c .add (mb 3 0 1)]; d.npc = 0x44 ∧ d.cur.lc.get 0 = 0) := by decide +kernel

/-! ## The C slot -/

theorem test_ScalarOperationResults_add :
    let s := core (regs 0x7FFFFFFFFFFFFFFF 0 0)
    COp.plain .add = true ∧ s.issuesAlone 0 (.c .add (mb 3 0 1)) = true ∧
    after (exec (.add 0 (mb 3 0 1)) s) (fun t => (c0 t).cur.a = 0x8000000000000000 ∧ (c0 t).cur.flags = 0x1C) = true := by decide +kernel

/-- SUB sets C on a borrow; SHL by 0 leaves C; MAXU takes the unsigned larger (02 Table 2-7). -/
theorem test_ScalarOperationResults_others :
    after (exec (.sub 0 (mb 3 0 2)) (core (regs 1 0 0))) (fun t => (c0 t).cur.a = 0xFFFFFFFFFFFFFFFF ∧ (c0 t).cur.flags = 5) = true ∧
    after (exec (.shl 0 (mb 3 0 64)) (core fun c => (regs 1 0 0 c).modCur fun b => { b with flags := 1 })) (fun t => (c0 t).cur.a = 1 ∧ (c0 t).cur.flags = 1) = true ∧
    after (exec (.maxu 0 (mb 3 0 0xFFFF)) (core (regs 1 0 0))) (fun t => (c0 t).cur.a = 0xFFFFFFFFFFFFFFFF) = true ∧
    after (exec (.movh 0 (mb 3 0 2)) (core (regs 7 0 0))) (fun t => (c0 t).cur.a = 0x200000007) = true := by decide +kernel

theorem test_MultiplyStartsAndWrites_starts :
    let s := core (regs 0xFFFFFFFFFFFFFFFF 0 0)
    s.issuesAlone 0 (.c .mul (mb 3 0 5)) = true ∧ s.issuesAlone 0 (.c .mulu (mb 3 0 5)) = true ∧ s.issuesAlone 0 (.c .mac (mb 3 0 5)) = true ∧
    s.issuesAlone 0 (.c .macu (mb 3 0 5)) = true ∧
    after (exec (.mul 0 (mb 3 0 5)) s) (fun t => (c0 t).muls = [{ bank := 2, acc := false, prod := -5, left := 3, frozen := 0 }]) = true ∧
    after (exec (.macu 0 (mb 3 0 5)) s) (fun t => (c0 t).muls = [{ bank := 2, acc := true, prod := 0x4FFFFFFFFFFFFFFFB, left := 3, frozen := 0 }]) = true := by decide +kernel

theorem test_MultiplyStartsAndWrites_writes :
    let p : MulPend := { bank := 2, acc := true, prod := 0x10000000000000002, left := 2, frozen := 0 }
    let o : MulPend := { bank := 1, acc := false, prod := 9, left := 1, frozen := 0 }
    let q : MulPend := { bank := 2, acc := false, prod := 7, left := 3, frozen := 0 }
    let s := core fun c => { c with muls := [o, p, q] }.modCur fun b => { b with pl := 0xFFFFFFFFFFFFFFFF, ph := 0xFFFFFFFFFFFFFFFF }
    s.pow.compOn = true ∧ (c0 s).muls = [o] ++ p :: [q] ∧ (∀ q ∈ [o], q.bank ≠ (c0 s).bank) ∧ p.bank = (c0 s).bank ∧ (∀ z ∈ [q], z.bank = p.bank → p.left < z.left) ∧
    after (exec (.multiplyWrite 0) s) (fun t => (c0 t).muls = [o, { q with left := 1 }] ∧ (c0 t).cur.pl = 1 ∧ (c0 t).cur.ph = 1) = true := by decide +kernel

theorem test_SystemRegisterMoves_mfsr :
    let s := core fun c => { c with level := 1, bank := 1, im := true }
    s.issuesAlone 0 (.c .mfsr (mb 3 0 0)) = true ∧ s.issuesAlone 0 (.c .mfsr (mb 3 0 15)) = true ∧
    after (exec (.mfsr 0 (mb 3 0 0)) s) (fun t => (c0 t).cur.a = 0xD) = true ∧ after (exec (.mfsr 0 (mb 3 0 15)) s) (fun t => (c0 t).cur.a = 0x13) = true := by decide +kernel

theorem test_SystemRegisterMoves_mtsr :
    let s := core fun c => { regs 0xFFFFFFFFFFFFFFFF 0 0 c with ilvl := 1 }
    let u := core fun c => { regs 0xFFFFFFFFFFFFFFFF 0 0 { c with level := 1, bank := 1, mlim := 0x100 } with ilvl := 1 }
    (∀ i ∈ [0, 1, 2, 3, 5, 6, 7, 8, 9, 10, 11, 12, 13], s.issuesAlone 0 (.c .mtsr (mb 3 0 (BitVec.ofNat 16 i))) = true) ∧
    after (exec (.mtsr 0 (mb 3 0 3)) s) (fun t => ((c0 t).sys.get 2).estatus = 0x67) = true ∧
    u.issuesAlone 0 (.c .mtsr (mb 3 0 10)) = true ∧ after (exec (.mtsr 0 (mb 3 0 10)) u) (fun t => (c0 t).ien = 0xFCFE) = true ∧
    u.issuesAlone 0 (.c .mtsr (mb 3 0 12)) = true ∧ after (exec (.mtsr 0 (mb 3 0 12)) u) (fun t => (c0 t).ulim = 0x100) = true := by decide +kernel

/-! ## The L slot -/

/-- Every L operation that stays in the core issues alone in some mode, at the top of the LDM where it takes an address. -/
theorem test_LocalOperationResults :
    let s := core fun c => { regs 0x1122334455667788 0x3FFF8 4 c with ldm := [(0x3FFF8, 0x80), (0x3FFFF, 9)] }.modCur fun b => { b with sp := 0x3FFF8 }
    (∀ o ∈ [LOp.ldx, .ldy, .lda, .stx, .sty, .sta], s.issuesAlone 0 (.l o (mb 3 2 0)) = true) ∧ (∀ o ∈ [LOp.leax, .leay], s.issuesAlone 0 (.l o (mb 3 2 5)) = true) ∧
    s.issuesAlone 0 (.l .sta (mb 3 1 2)) = true ∧ s.issuesAlone 0 (.l .push (mb 3 0 0)) = true ∧ s.issuesAlone 0 (.l .pop (mb 3 0 0)) = true ∧
    after (exec (.lda 0 { mb 0 2 0 with sgn := true }) s) (fun t => (c0 t).cur.a = 0xFFFFFFFFFFFFFF80) = true ∧
    after (exec (.sta 0 (mb 1 2 0)) s) (fun t => (c0 t).ldm = [(0x3FFF8, 0x88), (0x3FFF9, 0x77), (0x3FFFF, 9)]) = true ∧
    after (exec (.leay 0 (mb 3 4 0)) s) (fun t => (c0 t).cur.y = 0x3FFFC) = true ∧
    after (exec (.sta 0 (mb 3 1 2)) s) (fun t => (c0 t).cur.y = 0x1122334455667788) = true := by decide +kernel

/-- A STA to PL issued in the cc in which a multiply of its bank writes is lost, and the product stands (02 R67). -/
theorem test_sta_in_the_cc_of_a_multiply :
    let s := core fun c => { regs 0x99 0 0 c with muls := [{ bank := 2, acc := false, prod := 5, left := 1, frozen := 0 }] }
    s.issuesAlone 0 (.l .sta (mb 3 1 4)) = true ∧ (s.before 0 [.l .sta (mb 3 1 4)]).mulLands = true ∧
    after (exec (.sta 0 (mb 3 1 4)) s) (fun t => (c0 t).cur.pl = 5 ∧ (c0 t).muls = []) = true := by decide +kernel

/-- PUSH at the top of the stack and POP back. -/
theorem test_push_pop :
    let s := core (regs 0x99 0 0)
    after (exec (.push 0 (mb 3 0 0)) s) (fun t => (c0 t).ldm = [(0x3FFF8, 0x99)] ∧ (c0 t).cur.sp = 0x3FFF8 ∧
      after (exec (.pop 0 (mb 3 0 0)) t) (fun u => (c0 u).cur.sp = 0x40000 ∧ (c0 u).cur.a = 0x99)) = true := by decide +kernel

/-- The canonical form holds, and bytes of value 0 are not listed. -/
theorem test_StoredBytesReadBack :
    let d : Mem := [(7, 0xAA), (9, 0xBB)]
    Sparse.wf d = true ∧ Mem.store d 6 4 0x00CC0000 = [(8, 0xCC)] ∧ Mem.load (Mem.store d 6 4 0x12345678) 6 4 = 0x12345678 := by decide +kernel

theorem test_PostAndFenceIssue :
    let s := core (regs 0 0 0)
    s.issuesAlone 0 (.l .post (mb 3 0 1)) = true ∧ s.issuesAlone 0 (.l .fence (mb 3 0 0)) = true ∧
    after (exec (.post 0 (mb 3 0 1)) s) (fun t => t.posts = [{ addr := 1, src := .engine 0 0, seq := 0 }] ∧ (c0 t).seq = 1) = true ∧
    after (exec (.fence 0 (mb 3 0 0)) s) (fun t => (c0 t).fenced = true) = true := by decide +kernel

/-- A leaf of the control core's buffer for the page of VA 0: HBM, readable and writable at M. -/
def leaf0 : TlbEnt := { asid := 0, lvl := 0, vpage := 0, pa := 0, r := true, w := true, u := false, wp := 0 }

/-- Mast 0 with that leaf. -/
def mapped (f : Core → Core) : State := (core f).modXl 0 fun x => { x with tlbCore := [leaf0] }

theorem test_GlobalAccessIssues :
    let s := mapped (regs 0x55 0x10 0)
    (∀ o ∈ [LOp.ldg, .stg, .aadd, .acas, .radd], (gkind o).isSome = true ∧ s.issuesAlone 0 (.l o (mb 3 2 0)) = true) ∧
    after (exec (.ldg 0 (mb 3 2 0)) s) (fun t => (c0 t).loads.length = 1 ∧ (c0 t).cur.a = 0x55) = true ∧
    after (exec (.stg 0 (mb 1 2 0)) s) (fun t => (c0 t).sb = [{ pa := 0x10, data := [0x55, 0], wp := 0, level := 2, seq := 0 }]) = true ∧
    after (exec (.aadd 0 (mb 3 2 0)) s) (fun t => (c0 t).loads.length = 1 ∧ (c0 t).wq = []) = true ∧
    after (exec (.radd 0 (mb 3 2 0)) s) (fun t => (c0 t).loads = [] ∧ (c0 t).wq.length = 1) = true := by decide +kernel

/-! ## The B slot -/

theorem test_BranchSyllableResults :
    let s := core fun c => regs 0x40 0 0 { c with npc := 0x100 }
    let u := core fun c => { regs 0x40 0 0 c with ldm := [(0x3FFF8, 0x20)] }.modCur fun b => { b with sp := 0x3FFF8 }
    (∀ o ∈ [BOp.br, .call, .calla, .ja], s.issuesAlone 0 (.b o (bb (if o = .br then 7 else 0) (if o = .br ∨ o = .call then 3 else 0))) = true) ∧
    s.issuesAlone 0 (.b .ifence (bb 0 0)) = true ∧ s.issuesAlone 0 (.b .loop (bb 4 1)) = true ∧ u.issuesAlone 0 (.b .ret (bb 0 0)) = true ∧
    after (exec (.calla 0 (bb 0 0)) s) (fun t => (c0 t).npc = 0x40 ∧ (c0 t).cur.sp = 0x3FFF8 ∧ Mem.load (c0 t).ldm 0x3FFF8 8 = 0x104) = true ∧
    after (exec (.ret 0 (bb 0 0)) u) (fun t => (c0 t).npc = 0x20 ∧ (c0 t).cur.sp = 0x40000) = true ∧
    after (exec (.loop 0 (bb 4 1)) s) (fun t => (c0 t).cur.ls.get 1 = 0x104 ∧ (c0 t).cur.le.get 1 = 0x104 ∧ (c0 t).cur.lc.get 1 = 0x40) = true := by decide +kernel

theorem test_TokenWaitConsumesNamedSlots :
    let s := mast fun x => { x with tok := { x.tok with count := [(0, 1), (7, 3), (8, 5)] } }
    Sparse.wf (s.mast 0).tok.count = true ∧ s.issuesAlone 0 (.b .twait (bb 0 0x81)) = true ∧
    after (exec (.twait 0 (bb 0 0x81)) s) (fun t => (t.mast 0).tok.count = [(7, 2), (8, 5)] ∧ (c0 t).npc = 4) = true := by decide +kernel

/-- With a named slot empty the bundle waits and nothing is taken (02 R79). -/
theorem test_token_wait_waits :
    let s := mast fun x => { x with tok := { x.tok with count := [(0, 1)] } }
    after (exec (.twait 0 (bb 0 3)) s) (fun t => (t.mast 0).tok.count = [(0, 1)] ∧ (c0 t).npc = 0 ∧ (c0 t).waiting = some (.tokens 3)) = true := by decide +kernel

theorem test_HaltStopsFetch :
    let s := core fun c => { c with muls := [{ bank := 1, acc := false, prod := 9, left := 3, frozen := 0 }] }
    s.issuesAlone 0 (.b .halt (bb 0 0)) = true ∧
    after (exec (.halt 0 (bb 0 0)) s) (fun t => (c0 t).stopReq = true ∧ (c0 t).halted = false ∧ ((c0 t).banks.get 1).pl = 9 ∧ t.coreRuns 0 = false) = true := by decide +kernel

/-- Gate 3 enters bank 1 from U with two arguments: valid, entry at 0x40, callable from U, IM set; the stack at 0x1000. -/
def gated : State := core fun c => (regs 5 6 7 { c with level := 0, bank := 0, glimit := 4, im := false
                                                        gateUsed := Mem.store (Mem.store [] 0xC0 8 (1 + 0x40 + 2 ^ 17 + 2 ^ 19 + 2 * 2 ^ 22 + 2 ^ 24)) 0xC8 8 0x1000 })

theorem test_GateEntersNamedBank :
    gated.issuesAlone 0 (.b .gate (bb 0 3)) = true ∧
    after (exec (.gate 0 (bb 0 3)) gated) (fun t => (c0 t).bank = 1 ∧ (c0 t).level = 1 ∧ (c0 t).im = true ∧ (c0 t).npc = 0x40 ∧ (c0 t).cur.a = 5 ∧ (c0 t).cur.x = 6 ∧
      (c0 t).cur.y = 0 ∧ (c0 t).cur.sp = 0x1000 ∧ ((c0 t).sys.get 1).epc = 4 ∧ ((c0 t).sys.get 1).estatus = 0x50 ∧ ((c0 t).sys.get 1).tval = 3) = true ∧
    after (exec (.gate 0 (bb 0 4)) gated) (fun t => ((c0 t).sys.get 1).cause = BitVec.ofNat 64 (17 + 6 * 1024)) = true := by decide +kernel

theorem test_ReturnRestoresCaller :
    let s := core fun c => (regs 9 0 0 { c with level := 1, bank := 1, im := true }).modSys 1 fun y => { y with estatus := 0x50, epc := 0x24 }
    s.issuesAlone 0 (.b .rfe (bb 0 0)) = true ∧
    after (exec (.rfe 0 (bb 0 0)) s) (fun t => (c0 t).bank = 0 ∧ (c0 t).level = 0 ∧ (c0 t).im = false ∧ (c0 t).npc = 0x24 ∧ (c0 t).cur.a = 9 ∧
      ((c0 t).sys.get 1).estatus = 0x40) = true := by decide +kernel

/-! ## Traps -/

/-- A load of an unmapped address is no trap at once; an LDM address out of range is LDM_RANGE 6 of slot L. -/
theorem test_ExceptionsEnterHandlers_enters :
    let s := core fun c => (regs 0 0x40000 0 { c with im := false, npc := 0x30 }).modSys 2 fun y => { y with tvec := 0x800 }
    let y : Syl := .l .lda (mb 3 2 0)
    s.comes 0 y = true ∧ (s.ready 0 (s.bundleWith 0 y)).hold 0 (s.bundleWith 0 y) = some (.trap 6 1 false 0x40000) ∧
    (s.before 0 (s.bundleWith 0 y)).bank ≠ 3 ∧ (s.before 0 (s.bundleWith 0 y)).im = false ∧
    after (exec (.lda 0 (mb 3 2 0)) s) (fun t => (c0 t).bank = 2 ∧ (c0 t).im = true ∧ (c0 t).npc = 0x800 ∧ ((c0 t).sys.get 2).epc = 0x30 ∧
      ((c0 t).sys.get 2).cause = 0x406 ∧ ((c0 t).sys.get 2).estatus = 0x22 ∧ ((c0 t).sys.get 2).tval = 0x40000) = true := by decide +kernel

/-- The same with IM set escalates to bank 3. -/
theorem test_ExceptionsEnterHandlers_escalates :
    let s := core (regs 0 0x40000 0)
    let y : Syl := .l .lda (mb 3 2 0)
    let c := s.before 0 (s.bundleWith 0 y)
    s.comes 0 y = true ∧ (s.ready 0 (s.bundleWith 0 y)).hold 0 (s.bundleWith 0 y) = some (.trap 6 1 false 0x40000) ∧ c.bank ≠ 3 ∧ c.bank ≠ 0 ∧ c.im = true ∧
    after (exec (.lda 0 (mb 3 2 0)) s) (fun t => (c0 t).bank = 3 ∧ ((c0 t).sys.get 3).cause = 0x606 ∧ ((c0 t).sys.get 3).estatus = 0x36) = true := by decide +kernel

/-- In bank 3 it resets the module. -/
theorem test_ExceptionsEnterHandlers_resets :
    let s := (core fun c => regs 0 0x40000 0 { c with bank := 3 }).modJob 0 fun j => { j with valid := true }
    let y : Syl := .l .lda (mb 3 2 0)
    (c0 s).bank = 3 ∧ s.comes 0 y = true ∧ (s.ready 0 (s.bundleWith 0 y)).hold 0 (s.bundleWith 0 y) = some (.trap 6 1 false 0x40000) ∧
    after (exec (.lda 0 (mb 3 2 0)) s) (fun t => (t.job 0).valid = false ∧ (c0 t).halted = true) = true := by decide +kernel

/-- One bundle for each check of 14 R368, at the end of the IMEM and below. -/
theorem test_ExceptionOrder :
    let at' := fun (n : BitVec 18) (l : BitVec 2) => core fun c => { c with npc := n, level := l, bank := if l = 0 then 0 else 2 }
    let bad : Syl := .c .add (mb 3 7 0)
    (at' 0x1FFFC 2).hold 0 [.c .add (mb 3 0 0)] = none ∧ (at' 0x20000 2).hold 0 [bad] = some (.trap 4 0 false 0x20000) ∧
    (at' 0 0).hold 0 [.b .halt { bb 0 0 with stop := false }, bad] = some (.trap 1 0 false 0) ∧
    (at' 0 0).hold 0 [bad, .b .halt (bb 0 0)] = some (.trap 2 0 false (BitVec.ofNat 64 bad.word)) ∧
    (at' 0 0).hold 0 [.b .halt (bb 0 0)] = some (.trap 3 6 false 0xE5000000) := by decide +kernel

/-- ADD #5, LDX of [X + 0x120008] with the I that extends it, and BR to the word before, word by word (02 Tables 2-4, 2-6, 2-9a). -/
theorem test_BundleWordsSpellSyllables_words :
    let ys : List Syl := [.c .add { mb 3 0 5 with stop := false }, .l .ldx { mb 3 2 8 with ext := some 0x12, stop := false }]
    let y : Syl := .b .br (bb 7 0x7FFFF)
    y.stop = true ∧ (∀ z ∈ ys, z.stop = false) ∧ ((ys ++ [y]).map Syl.words).sum ≤ 8 ∧
    (ys ++ [y]).flatMap Syl.encode = [0x00700005, 0x10320008, 0x70000012, 0xE03FFFFF] ∧
    decodeBundle [0x00700005, 0x10320008, 0x70000012, 0xE03FFFFF, 0] = .syllables (ys ++ [y]) := by decide +kernel

/-- An I that follows nothing, an unassigned opcode of slot X, and a PRIVILEGE exception, at the last word of the IMEM. -/
theorem test_BundleWordsSpellSyllables_traps :
    let s := core fun c => { c with level := 0, bank := 0, im := false, npc := 0x1FFFC }
    s.pow.compOn = true ∧ s.coreRuns 0 = true ∧ (s.afterWait 0).takeDeferrable 0 = none ∧ ((s.afterWait 0).mast 0).core.npc.toNat + 4 = 0x20000 ∧
    decodeBundle [0xF0000000] = .illFormed ∧ decodeBundle [0xCFC00000] = .unassigned 0xCFC00000 ∧
    decodeBundle [0xE5000000] = .syllables [.b .halt (bb 0 0)] ∧ (s.afterWait 0).hold 0 [.b .halt (bb 0 0)] = some (.trap 3 6 false 0xE5000000) ∧
    after (exec (.trapEntry ⟨0, [0xCFC00000]⟩) s) (fun t => ((c0 t).sys.get 1).cause = 2 + 4 * 1024 ∧ ((c0 t).sys.get 1).tval = 0xCFC00000) = true := by decide +kernel

theorem test_InterruptIsTaken_toM :
    let s := core fun c => { c with level := 2, bank := 2, im := false, ipend := 0x102, ien := 0x1FF }
    s.coreRuns 0 = true ∧ (c0 s).im = false ∧ (s.mast 0).vec.faulted = false ∧ (s.mast 0).hal.exc = false ∧
    after (exec (.trapEntry ⟨0, []⟩) s) (fun t => (c0 t).bank = 2 ∧ ((c0 t).sys.get 2).cause = 0x108) = true := by decide +kernel

theorem test_InterruptIsTaken_toS :
    let s := core fun c => { c with level := 1, bank := 1, im := false, ipend := 0x82, ien := 0x82 }
    after (exec (.trapEntry ⟨0, []⟩) s) (fun t => (c0 t).bank = 1 ∧ (c0 t).im = true ∧ ((c0 t).sys.get 1).cause = 0x101) = true := by decide +kernel

/-! ## The long-vector unit -/

/-- A V0 body: VD 3, VS1, VS2 4, KM 0, a whole bundle. -/
def vb (vs1 : BitVec 5) : V0Body := { sc := false, vd := 3, vs1 := vs1, vs2 := 4, km := 0, fn := 0, ext := none, stop := true }

/-- A V1 body of register VR with FN. -/
def wb (vr : BitVec 5) (km : BitVec 3) (fn : BitVec 5) : V1Body := { vr := vr, vi := 0, am := 0, str := 0, km := km, fn := fn, ext := none, stop := true }

/-- Mast 0 with VL, VTYPE and vector registers. -/
def vecs (vl vtype : Word) (v : Mem) : State := (core fun c => c.modCur fun b => { b with vl := vl, vtype := vtype }).modVec 0 fun x => { x with vreg := v }

/-- VTYPE 0x12 is FP32: VLMAX is 256, and A above it gives VL 256. -/
theorem test_VectorSyllablesIssue_vsetvl :
    let s := core (regs 0x100000000 0 0)
    s.issuesAlone 0 (.v1 .vsetvl (wb 0 0 0x12)) = true ∧
    after (exec (.vsetvl 0 (wb 0 0 0x12)) s) (fun t => (c0 t).cur.vl = 256 ∧ (c0 t).cur.a = 256 ∧ (c0 t).cur.vtype = 0x12) = true := by decide +kernel

theorem test_VectorSyllablesIssue_queues :
    let s := (vecs 2 2 []).modVec 0 fun v => { v with stopped := true }
    let y : Syl := .v0 .vadd { vb 2 with sc := true }
    s.issuesAlone 0 y = true ∧ s.issuesAlone 0 (.v1 .vld (wb 1 0 0)) = true ∧ (s.mast 0).vec.stopped = true ∧
    after (exec (sylCmd 0 y) s) (fun t => (t.mast 0).vec.queue.map (fun k => (k.vl, k.vtype, k.scalar)) = [(2, 2, 0)]) = true ∧
    after (exec (.vld 0 (wb 1 0 0)) s) (fun t => (t.mast 0).vec.queue.length = 1) = true := by decide +kernel

theorem test_VectorElementwiseResults :
    let s := vecs 2 0x42 [(0x800, 5), (0x804, 7), (0xC08, 0x99), (0x1000, 3), (0x1004, 1)]
    let d := vb 2
    s.issuesAlone 0 (.v0 .vadd d) = true ∧ s.vecRuns 0 = true ∧ (s.mast 0).vec.queue = [] ∧ (s.mast 0).vec.reqs = [] ∧ (s.mast 0).vec.mem = none ∧
    (s.mast 0).vec.stopReq = false ∧ (s.mast 0).vec.vidxA = 0 ∧
    Sparse.wf (s.mast 0).vec.vreg = true ∧
    after (exec (.vadd 0 d) s) (fun t => (t.mast 0).vec.elem 3 4 0 = 8 ∧ (t.mast 0).vec.elem 3 4 1 = 8 ∧ (t.mast 0).vec.elem 3 4 2 = 0x99 ∧ (t.mast 0).vec.queue = []) = true ∧
    after (exec (.vsub 0 d) s) (fun t => (t.mast 0).vec.elem 3 4 0 = 0xFFFFFFFE) = true ∧
    after (exec (.vid 0 d) s) (fun t => (t.mast 0).vec.elem 3 4 1 = 1) = true := by decide +kernel

/-- Every element-wise operation issues on a kind that it takes. -/
theorem test_VectorElementwiseResults_all :
    (∀ o ∈ [V0Op.vfadd, .vfsub, .vfrsub, .vfmul, .vfma, .vfms, .vfdiv, .vfsqrt, .vfmin, .vfmax, .vfabs, .vfneg], (vecs 1 0x12 []).issuesAlone 0 (.v0 o (vb 2)) = true) ∧
    (∀ o ∈ [V0Op.vadd, .vsub, .vmul, .vmin, .vmax, .vand, .vor, .vxor, .vshl, .vshr, .vmv, .vid], (vecs 256 2 []).issuesAlone 0 (.v0 o (vb 2)) = true) := by decide +kernel

/-- 1.0 + 2.0 = 3.0 and 2.0 / 0 = infinity with DZ, in FP32 (05 R139, R144). -/
theorem test_vector_floats :
    let s := vecs 1 0x12 [(0x802, 0x80), (0x803, 0x3F), (0x1003, 0x40)]
    after (exec (.vfadd 0 (vb 2)) s) (fun t => (t.mast 0).vec.elem 3 4 0 = 0x40400000) = true ∧
    after (exec (.vfmul 0 (vb 4)) s) (fun t => (t.mast 0).vec.elem 3 4 0 = 0x40800000) = true := by decide +kernel

theorem test_VectorIntegerArithmetic :
    (v0Elem .vsub 0x8 false false 0xFF 1 0 0).1 = 2 ∧ (v0Elem .vmin 0x8 false false 0xFF 1 0 0).1 = 0xFF ∧ (v0Elem .vmin 0 false false 0xFF 1 0 0).1 = 1 ∧
    (v0Elem .vshr 0x8 false false 9 0x80 0 0).1 = 0xC0 ∧ (v0Elem .vmul 0x3 false false 0xFFFFFFFFFFFFFFFF 2 0 0).1 % 2 ^ 64 = 0xFFFFFFFFFFFFFFFE := by decide +kernel

theorem test_VectorIntegerArithmetic_sum :
    let v : Vec := { Vec.reset with vreg := [(0x1000, 0xFF), (0x1001, 3), (0x1002, 9)] }
    let k : VCmd := { v0 := none, v1 := none, vl := 2, vtype := 0, scalar := 0, ea := 0, stride := 0, level := 2, pc := 0, numctl := none }
    Sparse.wf v.vreg = true ∧ k.vtype.toNat % 8 ≤ 3 ∧ k.vl ≤ 1024 / 2 ^ (k.vtype.toNat % 8) ∧ k.vl ≠ 0 ∧ (v.v0 k .vredsum (vb 2) false false 0).1.elem 3 1 0 = 2 := by decide +kernel

theorem test_VectorLoadReturnWritesElement :
    let r : VReq := { grp := 4, elem := 1, n := 4, pa := 0x4000000010, reg := 2, mask := false, cls := 2, ord := 0 }
    let a := answer [1, 2, 3, 4]
    let s := (paired (core id)).modVec 0 fun v => { v with reqs := [r, { r with grp := 5, elem := 2 }] }
    s.pow.compOn = true ∧ (s.mast 0).vec.reqs = r :: [{ r with grp := 5, elem := 2 }] ∧ (∀ q ∈ [{ r with grp := 5, elem := 2 }], q.grp ≠ r.grp) ∧ s.isOwn r.pa = false ∧
    a.bytes.length = r.n ∧ r.mask = false ∧ s.accepts (nodeOf r.pa) a.jobid = true ∧
    after (exec (.vectorLoadReturn 0 a) s) (fun t => (t.mast 0).vec.elem 2 4 1 = 0x04030201 ∧ t.flts = []) = true ∧
    after (exec (.vectorLoadReturn 0 { a with poison := true }) s) (fun t => t.flts = [{ m := 0, e := 1, kind := 1 }]) = true ∧
    after (exec (.vectorLoadReturn 0 { a with refused := true }) s) (fun t => (t.mast 0).vec.vreg = [] ∧ (t.mast 0).vec.reqs.length = 1 ∧
      t.flts = [{ m := 0, e := 1, kind := 7 }]) = true := by decide +kernel

/-! ## Stopping, resuming and discarding engines -/

theorem test_StopsAreAskedAndTakeHold_asked :
    let s := core id
    s.pow.compOn = true ∧ (s.array 0 1).passes.all (fun p => !p.cmd.twin) = true ∧
    after (exec (.vecCtlStop 0) s) (fun t => (t.mast 0).vec.stopReq = true) = true ∧ after (exec (.arrCtlStop 0 1) s) (fun t => (t.array 0 1).stopReq = true) = true ∧
    after (exec (.sheetCtlStop 0) s) (fun t => (t.mast 0).sheet.stopReq = true) = true ∧ after (exec (.halCtlStop 0) s) (fun t => (t.mast 0).hal.stopReq = true) = true := by
  decide +kernel

/-- Mast 0 with every engine asked to stop, or stopped. -/
def asked (stop done : Bool) : State := mast fun x =>
  { x with vec := { x.vec with stopReq := stop, stopped := done, vidxM := 9 }
           arr := Vector.replicate 2 { Arr.reset with stopReq := stop, stopped := done }
           sheet := { x.sheet with stopReq := stop, stopped := done }, hal := { x.hal with stopReq := stop, stopped := done } }

/-- Units with nothing under way. -/
theorem test_StopsAreAskedAndTakeHold_idle :
    let s := asked true false
    (s.mast 0).vec.stopReq = true ∧ (s.mast 0).vec.stopped = false ∧ (s.mast 0).vec.failing = false ∧ (s.mast 0).vec.arith = none ∧ (s.mast 0).vec.reqs = [] ∧
    s.acks = [] ∧ (s.mast 0).vec.atBeat = true ∧ (s.array 0 0).stopReq = true ∧ (s.array 0 0).passes = [] ∧ (s.array 0 0).fires = [] ∧
    (s.mast 0).sheet.stopReq = true ∧ (s.mast 0).sheet.fin = [] ∧ (s.mast 0).sheet.replies = [] ∧ (s.mast 0).sheet.queue = [] ∧
    (s.mast 0).hal.stopReq = true ∧ (s.mast 0).hal.act = [] ∧
    after (exec (.vecStopped 0) s) (fun t => (t.mast 0).vec.stopped = true ∧ (t.mast 0).vec.vidxM = 9) = true ∧
    after (exec (.arrStopped 0 0) s) (fun t => (t.array 0 0).stopped = true) = true ∧ after (exec (.sheetStopped 0) s) (fun t => (t.mast 0).sheet.stopped = true) = true ∧
    after (exec (.halStopped 0) s) (fun t => (t.mast 0).hal.stopped = true) = true := by decide +kernel

/-- The memory pipe at element 32 stops; at element 33, within a beat, its command goes on. -/
theorem test_StopsAreAskedAndTakeHold_beat :
    let k := vcmdOf Core.reset none (some (.vld, wb 1 0 0))
    let at' := fun (n : Nat) => (asked true false).modVec 0 fun v => { v with mem := some { k with vl := 64 }, mnext := n }
    ((at' 32).mast 0).vec.atBeat = true ∧ ((at' 33).mast 0).vec.atBeat = false ∧
    after (exec (.vecStopped 0) (at' 32)) (fun t => (t.mast 0).vec.vidxM = 32 ∧ (t.mast 0).vec.queue.length = 1 ∧ (t.mast 0).vec.mem = none) = true ∧
    after (exec (.vecStopped 0) (at' 33)) (fun t => (t.mast 0).vec.stopped = false) = true := by decide +kernel

theorem test_RunResumesAndDiscardEmpties_run :
    let s := asked false true
    let f := (s.modArr 0 0 fun a => { a with faulted := true }).modHal 0 fun x => { x with faulted := true, fKind := 1 }
    (s.mast 0).vec.stopped = true ∧ (s.array 0 1).stopped = true ∧ (s.array 0 1).faulted = false ∧ (s.array 0 1).passes = [] ∧ (∀ k ∈ (s.array 0 1).lead, k.twin = false ∧ k.rept = false) ∧ (s.mast 0).sheet.stopped = true ∧
    (s.mast 0).sheet.faulted = false ∧ (s.mast 0).hal.stopped = true ∧ (s.mast 0).hal.faulted = false ∧ (f.array 0 0).faulted = true ∧ (f.mast 0).hal.fKind ≠ 5 ∧
    after (exec (.vecCtlRun 0) s) (fun t => (t.mast 0).vec.stopped = false ∧ (t.mast 0).vec.vidxM = 9) = true ∧
    after (exec (.arrCtlRun 0 1) s) (fun t => (t.array 0 1).stopped = false) = true ∧ after (exec (.sheetCtlRun 0) s) (fun t => (t.mast 0).sheet.stopped = false) = true ∧
    after (exec (.halCtlRun 0) s) (fun _ => true) = true ∧ gives (exec (.arrCtlRun 0 0) f) f = true ∧ gives (exec (.halCtlRun 0) f) f = true := by
  decide +kernel

/-- A twin pass at the head of one array while the other goes on; and a halyard whose stopped descriptor is line 3 of its move. -/
theorem test_RunResumesAndDiscardEmpties_held :
    let k : ACmd := { kind := .pass, desc := 0, daddr := 0, pc := 0, twin := true, q := 0, modes := some (false, false), rept := false }
    let s := (asked false true).modArr 0 0 fun a => { a with queue := [k] }
    let t := s.modArr 0 1 fun a => { a with stopped := false }
    let c : HalCmd := { id := 0, desc := 0, daddr := 0, pc := 0, level := 1, started := true }
    let h := (asked false true).modHal 0 fun x => { x with queue := [c, { c with started := false }], prog := x.prog.set 0 { x.prog.get 0 with lines := 3 } }
    (∃ k ∈ (t.array 0 0).lead, k.twin = true) ∧ (t.array 0 1).stopped = false ∧ gives (exec (.arrCtlRun 0 0) t) t = true ∧
    (h.mast 0).hal.stopped = true ∧ (h.mast 0).hal.faulted = false ∧ c.started = true ∧
    (∀ k ∈ [{ c with started := false }], k.started = false) ∧ (halRunOf c ((h.mast 0).hal.prog.get (hdCh c.desc)).lines.toNat).start = 3 ∧
    after (exec (.halCtlRun 0) h) (fun _ => true) = true := by
  decide +kernel

theorem test_RunResumesAndDiscardEmpties_discard :
    let s := (asked false true).modVec 0 fun v => { v with queue := [vcmdOf Core.reset none (some (.vld, wb 1 0 0))] }
    (s.mast 0).vec.stopped = true ∧ (s.array 0 0).stopped = true ∧ (s.mast 0).sheet.stopped = true ∧ (s.mast 0).hal.stopped = true ∧
    after (exec (.vecCtlDiscard 0) s) (fun t => (t.mast 0).vec.queue = [] ∧ (t.mast 0).vec.stopped = true) = true ∧
    after (exec (.arrCtlDiscard 0 0) s) (fun t => (t.array 0 0).queue = [] ∧ (t.array 0 0).stopped = true) = true ∧
    after (exec (.sheetCtlDiscard 0) s) (fun t => (t.mast 0).sheet.queue = []) = true ∧ after (exec (.halCtlDiscard 0) s) (fun t => (t.mast 0).hal.queue = []) = true := by
  decide +kernel

/-! ## The core between bundles -/

theorem test_CoreStartsAndStops :
    let h := core fun c => { c with halted := true, startPc := 0x40, level := 0, bank := 0 }
    let r := core fun c => { c with muls := [{ bank := 2, acc := false, prod := 6, left := 2, frozen := 0 }], npc := 8 }
    let d := core fun c => { c with stopReq := true }
    (c0 h).halted = true ∧ (c0 r).halted = false ∧ (c0 d).stopReq = true ∧ (c0 d).muls = [] ∧ (c0 d).loads = [] ∧ (c0 d).sb = [] ∧ (c0 d).wq = [] ∧ (c0 r).muls ≠ [] ∧
    after (exec (.ccCtlStart 0) h) (fun t => (c0 t).halted = false ∧ (c0 t).npc = 0x40 ∧ (c0 t).bank = 2 ∧ (c0 t).level = 2) = true ∧ gives (exec (.ccCtlStart 0) r) r = true ∧
    after (exec (.ccCtlStop 0) r) (fun t => (c0 t).stopReq = true ∧ (c0 t).cur.pl = 6 ∧ (c0 t).npc = 8) = true ∧ gives (exec (.ccCtlStop 0) h) h = true ∧
    after (exec (.haltComplete 0) d) (fun t => (c0 t).halted = true) = true ∧ gives (exec (.haltComplete 0) r) r = true ∧
    after (exec (.ccIrqSet 0 0x81) r) (fun t => (c0 t).ipend = 0x81) = true := by decide +kernel

/-- A load whose bytes are there, and one whose answer has come. -/
theorem test_GlobalAccessesComplete_loads :
    let at' := fun (x : LoadSrc) => paired (core fun c =>
      { c with loads := [{ bank := 1, level := 1, size := 2, sgn := true, seq := 0, left := none, parts := [{ pa := 0x4000000040, n := 2, src := x }] }] })
    let d := answer [0x80, 0xFF, 7]
    let ok := fun (s : State) => after (exec (.loadDataReturn 0 ⟨none, d⟩) s) (fun t => ((c0 t).banks.get 1).a = 0xFFFFFFFFFFFFFF80 ∧ (c0 t).loads = [] ∧ (c0 t).cur.a = 0)
    ok (at' (.ready [0x80, 0xFF])) = true ∧ ok (at' (.got [0x80, 0xFF] false)) = true ∧ ok (at' .remote) = true ∧ 2 ≤ d.bytes.length ∧ d.bytes.take 2 = [0x80, 0xFF] ∧
    (at' .remote).accepts (nodeOf 0x4000000040) d.jobid = true ∧
    after (exec (.loadDataReturn 0 ⟨none, { d with refused := true }⟩) (at' .remote)) (fun t => (c0 t).loads = [] ∧ t.flts = [{ m := 0, e := 0, kind := 7 }]) = true := by
  decide +kernel

/-- Canvas address 0x3000000010 of this module: the last byte of its line 0 is at 0x7F. -/
theorem test_GlobalAccessesComplete_samples :
    let p : LoadPart := { pa := 0x300000007E, n := 2, src := .canvasUc }
    let l : LoadPend := { bank := 1, level := 1, size := 2, sgn := true, seq := 4, left := none, parts := [p] }
    let s : State := { core fun c => { c with loads := [l] } with ram := [(0x300000007F, 9)] }
    s.isOwn p.pa = true ∧ placeOf (localOf p.pa) = .canvas 0 ∧ s.isNext 0 4 (localOf p.pa) = true ∧ localOf p.pa % 128 + p.n = 128 ∧
    after (exec (.loadDataReturn 0 ⟨some 4, answer []⟩) s) (fun t =>
      (c0 t).loads = [{ l with parts := [{ p with src := .got [0, 9] false }] }]) = true := by decide +kernel

/-- Stores to HBM, a register, canvas and another module leave the store buffer; a canvas store lands, and a performed one is taken. -/
theorem test_GlobalAccessesComplete_stores :
    let at' := fun (pa : BitVec 52) => core fun c => { c with sb := [{ pa := pa, data := [1], wp := 0, level := 2, seq := 0 }] }
    let st := fun (pa : BitVec 52) => after (exec (.storeWriteSlot 0) (at' pa)) (fun t => (c0 t).sb = [] ∧ (c0 t).wq.length = 1)
    let w : WqEnt := { pa := 0x3000000010, data := [2], wp := 0, level := 2, seq := 3, st := .requested }
    let s := core fun c => { c with wq := [{ w with seq := 2 }, w] }
    let u := core fun c => { c with wq := [{ w with seq := 2 }, { w with st := .performed }] }
    st 0x80 = true ∧ placeOf (localOf 0x80) = .hbm ∧ st 0x3000000010 = true ∧ st (BitVec.ofNat 52 0x4000000000) = true ∧
    up.isOwn (BitVec.ofNat 52 0x4000000000) = false ∧
    s.isOwn w.pa = true ∧ placeOf (localOf w.pa) = .canvas 0 ∧ (∀ x ∈ [{ w with seq := 2 }], x.seq ≠ w.seq) ∧
    after (exec (.writeAck 0 ⟨0, none, 0, false, false⟩) u) (fun t => (c0 t).wq = [{ w with seq := 2 }]) = true := by decide +kernel

theorem test_GlobalAccessesComplete_lands :
    let w : WqEnt := { pa := 0x3000000010, data := [2], wp := 0, level := 2, seq := 3, st := .requested }
    let s := core fun c => { c with wq := [w] }
    let k : AckDue := { m := 0, e := 5, seq := 0, tag := 0, pa := 0x4000000000 }
    let a : State := { paired (core id) with acks := [{ k with e := 1 }, k, k] }
    s.isNext 0 3 (localOf w.pa) = true ∧
    after (exec (.writeAck 0 ⟨0, some 3, 0, false, false⟩) s) (fun t => (c0 t).wq = [{ w with st := .performed }] ∧ Sparse.get t.ram 0x3000000010 = 2) = true ∧
    a.acks = [{ k with e := 1 }] ++ k :: [k] ∧ after (exec (.writeAck 0 ⟨5, none, 0, false, false⟩) a) (fun t => t.acks = [{ k with e := 1 }, k] ∧ t.flts = []) = true ∧
    after (exec (.writeAck 0 ⟨5, none, 0, true, false⟩) a) (fun t => t.acks = [{ k with e := 1 }, k] ∧ t.flts = [{ m := 0, e := 5, kind := 7 }]) = true := by decide +kernel

/-! ## Tokens and sail states -/

/-- A token address of slot `i` of engine `e` of mast `m`, on this module. -/
def tokenAt (m e i : Nat) : BitVec 32 := BitVec.ofNat 32 (m * 2 ^ 9 + e * 2 ^ 6 + i)

theorem test_TokenPostCountsOrIsHeld :
    let p : Post := { addr := tokenAt 0 2 15, src := .engine 1 4, seq := 0 }
    let at' := fun (n : BitVec 8) => { (mast fun x => { x with tok := { x.tok with count := [(31, n)] } }) with posts := [p] }
    (at' 254).pow.compOn = true ∧ (at' 254).posts = [p] ∧ (∀ j : Fin 2, p.src ≠ .remote 0 0 (BitVec.ofNat 16 j.val)) ∧ (at' 254).postFree p = true ∧
    slotOf p.addr = some (.mast 0 31) ∧ tokenNode p.addr = (at' 254).nodeId ∧ (at' 254).slotFenced (.mast 0 31) = false ∧
    Sparse.wf ((at' 254).mast 0).tok.count = true ∧ ((at' 254).slotCount (.mast 0 31)).toNat < 255 ∧ ((at' 255).slotCount (.mast 0 31)).toNat = 255 ∧
    after (exec (.tokenPost p.addr p.src) (at' 254)) (fun t => t.slotCount (.mast 0 31) = 255 ∧ t.posts = [] ∧ t.held = []) = true ∧
    after (exec (.tokenPost p.addr p.src) (at' 255)) (fun t => t.slotCount (.mast 0 31) = 255 ∧ t.held = [(.mast 0 31, p)]) = true := by decide +kernel

theorem test_HeldPostsAndStalls_held :
    let p : Post := { addr := tokenAt 0 0 1, src := .engine 1 4, seq := 0 }
    let s := { up with held := [(.mast 0 1, p), (.mast 0 1, { p with src := .engine 2 4 })] }
    let f := mast fun x => { x with tok := { x.tok with count := [(1, 255)] } }
    let j := mast fun x => { x with jvalid := true }
    s.held = [] ++ (.mast 0 1, p) :: [(.mast 0 1, { p with src := .engine 2 4 })] ∧ (s.slotCount (.mast 0 1)).toNat < 255 ∧ (f.slotCount (.mast 0 1)).toNat = 255 ∧
    (f.mast 0).jvalid = false ∧ (j.mast 0).jvalid = true ∧
    after (exec (.heldPostLand (.mast 0 1)) s) (fun t => t.slotCount (.mast 0 1) = 1 ∧ t.held = [(.mast 0 1, { p with src := .engine 2 4 })]) = true ∧
    after (exec (.tokenCtlClear 0) f) (fun t => t.slotCount (.mast 0 1) = 0) = true := by decide +kernel

theorem test_HeldPostsAndStalls_stall :
    let s := core fun c => { c with waiting := some (.tokens 2) }
    let u := s.modMast 0 fun x => { x with tok := { x.tok with stallSent := 1 } }
    (s.mast 0).tok.stallEn = true ∧ (s.mast 0).tok.stallSent.getLsbD 0 = false ∧ s.haveTokens 0 (s.waitSlots 0 0) = false ∧ (u.mast 0).tok.stallSent.getLsbD 0 = true ∧
    after (exec (.tokenStallEvent 0 0) s) (fun t => (t.mast 0).tok.stallSent = 1) = true ∧ gives (exec (.tokenStallEvent 0 0) u) u = true := by decide +kernel

theorem test_SailStatesChange :
    let at' := fun (v : BitVec 12) (f : Core → Core) => (core f).modMast 0 fun x => { x with sail := v }
    let h := at' 0 fun c => { c with halted := true }
    let w := (at' 1 id).modMast 0 fun x => { x with tok := { x.tok with woken := 1 } }
    let r := at' 0x555 fun c => { c with halted := true }
    let g := at' 0xAAA fun c => { c with halted := true, ipend := 4, ien := 4 }
    sailOf (h.mast 0) 0 = 0 ∧ h.engIdle 0 0 = true ∧ sailOf (w.mast 0) 0 = 1 ∧ w.engWoken 0 0 = true ∧ r.pow.furl ≠ 0 ∧ (r.mast 0).sail = 0x555 ∧ (r.mast 0).tok.count = [] ∧
    r.accessOn 0 = false ∧ (g.mast 0).sail = 0xAAA ∧ (g.mast 0).furlWoken = true ∧
    after (exec (.reefEntry 0 0) h) (fun t => (t.mast 0).sail = 1) = true ∧ after (exec (.reefWakeDone 0 0) w) (fun t => (t.mast 0).sail = 0) = true ∧
    after (exec (.furlEntry 0) r) (fun t => (t.mast 0).sail = 0xAAA) = true ∧ after (exec (.furlWakeDone 0) g) (fun t => (t.mast 0).sail = 0x555) = true := by decide +kernel

theorem test_SailStatesChange_furl_off :
    let s := ((core fun c => { c with halted := true }).modMast 0 fun x => { x with sail := 0x555 }).modPow fun p => { p with furl := 0 }
    s.pow.furl = 0 ∧ after (exec (.furlEntry 0) s) (fun t => (t.mast 0).sail = 0x555) = true := by decide +kernel

/-! ## The arrays -/

/-- A descriptor of 64-bit words. -/
def words (ws : List Nat) : Desc := BitVec.ofNat 512 (ws.foldr (fun w n => w + n * 2 ^ 64) 0)

/-- An X body of the main array. -/
def xb (arr q : BitVec 2) (daddr : BitVec 12) : XBody := { arr := arr, q := q, rsv := 0, daddr := daddr, ext := none, stop := true }

theorem test_EngineSyllableQueuesDescriptor :
    let s := core fun c => { c with ldm := [(0x3FFC0, 1), (0x3FFFF, 0x80)], npc := 0x10 }
    s.issuesAlone 0 (.x .xpass (xb 3 0 0xFFF)) = true ∧ s.issuesAlone 0 (.x .xbfill (xb 1 2 0xFFF)) = true ∧ s.issuesAlone 0 (.x .xbdisarm (xb 2 2 0)) = true ∧
    s.issuesAlone 0 (.s .srun { rsv := 0, daddr := 0xFFF, ext := none, stop := true }) = true ∧ s.issuesAlone 0 (.s .hrun { rsv := 0, daddr := 0, ext := none, stop := true }) = true ∧
    after (exec (.xpass 0 (xb 3 0 0xFFF)) s) (fun t => (t.array 0 0).queue = (t.array 0 1).queue ∧
      (t.array 0 1).queue.map (fun k => (k.desc, k.twin, k.pc)) = [(words [1, 0, 0, 0, 0, 0, 0, 0x8000000000000000], true, 0x10)]) = true ∧
    after (exec (.srun 0 { rsv := 0, daddr := 0xFFF, ext := none, stop := true }) s) (fun t => (t.mast 0).sheet.queue.length = 1) = true := by decide +kernel

/-- A pass of main in the square rig on INT8 operands: KB 2, TILE 7, wait slot 15, DONE and RELEASE posted. -/
def passDesc : Desc := words [6 * 2 ^ 4 + 6 * 2 ^ 8 + 7 * 2 ^ 12 + 2 * 2 ^ 18, 15 + 2 ^ 16 + 2 ^ 20 + 2 ^ 21, 1 + 2 * 2 ^ 32, 0x4000 * 2 ^ 32]

/-- The queued pass. -/
def passCmd : ACmd := { kind := .pass, desc := passDesc, daddr := 0, pc := 0, twin := false, q := 0, modes := none, rept := false }

/-- The pass once it runs. -/
def pass : APass := { cmd := passCmd, tile := 7, mizzen := false, modes := (false, false), total := 2, sigma := 0, done := 0, issued := false, halted := false
                      cap := none, bad := none, rept := false, batch := none, rows := [], fire := 0 }

theorem test_PassStartTakesTileAndTokens :
    let s := mast fun x => { x with tok := { x.tok with count := [(31, 2)] }, arr := x.arr.set 0 { Arr.reset with queue := [passCmd] } }
    Sparse.wf (s.mast 0).tok.count = true ∧ (s.array 0 0).queue = passCmd :: [] ∧ passCmd.modes = none ∧ s.canStart 0 0 = true ∧ s.haveTokens 0 (arrSlots 0 (pdSlots passDesc)) = true ∧
    passBad 0 false passDesc = false ∧ fenceBroken 0 (s.array 0 0) (pdFolub passDesc) = false ∧ passTokenBad passDesc = false ∧
    after (exec (.passStart 0 0) s) (fun t => (t.array 0 0).queue = [] ∧ (t.array 0 0).passes = [pass] ∧ (t.mast 0).tok.count = [(31, 1)] ∧
      ((t.mast 0).tiles.get 7).inflight = 1 ∧ ((t.mast 0).tiles.get 7).type = 2 ∧ ((t.array 0 0).passK.get 7).ktotal = 2) = true := by decide +kernel

/-- The same pass as a twin pass into tiles 7 and 15, at the head of both arrays. -/
theorem test_PassStartTakesTileAndTokens_twin :
    let k := { passCmd with twin := true, desc := passDesc ||| (words [15 * 2 ^ 28] : Desc) }
    let s := mast fun x => { x with tok := { x.tok with count := [(31, 1)] }, arr := Vector.replicate 2 { Arr.reset with queue := [k] } }
    k.twin = true ∧ s.canStart 0 0 = true ∧ s.canStart 0 1 = true ∧ s.haveTokens 0 (arrSlots 0 (pdSlots k.desc)) = true ∧ passBad 0 true k.desc = false ∧
    after (exec (.passStart 0 0) s) (fun t => (t.array 0 0).passes.length = 1 ∧ (t.array 0 1).passes.map (fun p => p.mizzen) = [true] ∧ (t.mast 0).tok.count = []) = true := by
  decide +kernel

/-- Mast 0 with that pass running. -/
def running : State := mast fun x => { x with arr := x.arr.set 0 { Arr.reset with passes := [pass] }, tiles := x.tiles.set 7 { Tile.reset with inflight := 1, type := 2 } }

theorem test_KStepWritesEntries :
    let l := { pass with done := 1, issued := true, cap := some { canvas := [], bank := [] } }
    running.pow.compOn = true ∧ (running.array 0 0).passes = pass :: [] ∧ pass.rept = false ∧ pass.halted = false ∧ pass.tile.val / 8 = 0 ∧ pdRepeat passDesc = false ∧ pass.done + 1 < pass.total ∧
    running.stepFault 0 pass 0 = none ∧ l.done + 1 = l.total ∧ l.bad = none := by decide +kernel

/-- One entry of an INT8 block sum: 3 × 5 in one place of the panels is 15, on top of what the tile held. -/
theorem test_block_sum :
    let cv := fun (n : Nat) => if n = 0 then 3 else if n = 0x4000 then (5 : Byte) else 0
    ({ pass with done := 1 }.entry cv (fun _ => 0) Tile.reset 0 0).1 = 15 := by decide +kernel

theorem test_OperandsReleasedAndRepeats :
    let q := { pass with rept := true, issued := true }
    let r := running.modArr 0 0 fun x => { x with passes := [q] }
    (running.array 0 0).issuing = some pass ∧ pass.batch = none ∧ (running.array 0 0).stopReq = false ∧ (r.array 0 0).passes = [] ++ q :: [] ∧ r.arrOpen 0 0 = true ∧
    (r.array 0 0).issuing = none ∧ (r.array 0 0).resumes = false ∧
    after (exec (.operandRelease 0 0) running) (fun t => (t.array 0 0).passes.map (fun p => p.issued) = [true] ∧ t.posts = [{ addr := 2, src := .engine 0 2, seq := 0 }]) = true ∧
    after (exec (.repeatStart 0 0) r) (fun t => (t.array 0 0).passes = [{ q with rept := false }]) = true := by decide +kernel

/-- Both halves of a twin pass that waits for its repeat. -/
theorem test_OperandsReleasedAndRepeats_twin :
    let p := { pass with cmd := { passCmd with twin := true }, rept := true }
    let q := { p with tile := 15, mizzen := true }
    let s := mast fun x => { x with arr := (x.arr.set 0 { Arr.reset with passes := [p] }).set 1 { Arr.reset with passes := [q] } }
    (s.array 0 0).passes = [] ++ p :: [] ∧ (s.array 0 1).passes = [] ++ q :: [] ∧
    (∀ b : ArrId, s.arrOpen 0 b = true ∧ (s.array 0 b).issuing = none ∧ (s.array 0 b).resumes = false) ∧
    after (exec (.repeatStart 0 1) s) (fun t => (t.array 0 0).passes = [{ p with rept := false }] ∧ (t.array 0 1).passes = [{ q with rept := false }]) = true := by
  decide +kernel

/-- A batch queue in the square rig: INT8, KB 1, TILE 0 and 1, ARRIVE slot 0, FLUSH slot 1, FREE slot 2, LIMIT 9, a ring of 16 entries at 0x80. -/
def batch : Desc := words [6 * 2 ^ 4 + 6 * 2 ^ 8 + 2 ^ 18, 0x210 + 9 * 2 ^ 12 + 4 * 2 ^ 32, 0x80 * 2 ^ 32]

/-- Mast 0 with that queue armed and ARRIVE, FLUSH and FREE counts. -/
def armed (arrive flush : BitVec 8) (fires : List Fire) : State :=
  mast fun x => { x with
    tok := { x.tok with count := (if arrive = 0 then [] else [(16, arrive)]) ++ (if flush = 0 then [] else [(17, flush)]) ++ [(18, 1)] }
    arr := x.arr.set 0 { Arr.reset with fires := fires, bqs := Vector.replicate 4 { cfg := batch, armed := true, head := 15, set := false, trun := true, timer := 0 } } }

theorem test_BatchQueueFires :
    Sparse.wf ((armed 64 0 []).mast 0).tok.count = true ∧ (armed 64 0 []).mayFire 0 0 3 = true ∧ (armed 64 0 []).arrCount 0 0 0 = 64 ∧ rowLanes (pdFore batch) = 64 ∧
    (armed 2 1 []).arrCount 0 0 1 = 1 ∧ dfld batch 1 12 20 = 9 ∧ (armed 0 1 []).arrCount 0 0 0 = 0 ∧
    after (exec (.batchFire 0 0 3) (armed 2 1 [])) (fun t => (t.array 0 0).fires.map (fun f => (f.q, f.entries.length)) = [(3, 2)] ∧ t.arrCount 0 0 0 = 0 ∧
      ((t.array 0 0).bqs.get 3).head = 1) = true ∧
    ((armed 64 0 []).badWords (sliceAddr 0 0x80) 16) = false ∧
    after (exec (.fillTimerExpiry 0 0 3) (armed 1 0 [])) (fun t => (t.array 0 0).fires.length = 1) = true ∧
    after (exec (.batchFire 0 0 3) (armed 0 1 [])) (fun t => t.arrCount 0 0 1 = 0 ∧ (t.array 0 0).fires = []) = true ∧
    after (exec (.batchFire 0 0 3) (armed 2 0 [])) (fun t => (t.array 0 0).fires = []) = true := by decide +kernel

theorem test_FireIsAssembledAndStarts :
    let f : Fire := { id := 0, q := 3, desc := batch, set := true, entries := [List.replicate 16 0], rows := none, started := 0 }
    let g : Fire := { f with rows := some [[1, 2]] }
    let s := armed 1 0 [f]
    let u := armed 1 0 [g]
    ((s.array 0 0).fires.filter fun g => g.rows.isSome).length < 2 ∧ (s.array 0 0).fires.find? (fun g => g.rows.isNone) = some f ∧
    (f.entries.all fun e => !s.badWords (sliceAddr 0 (ofBytes (e.take 4))) (batchRowBytes f.desc)) = true ∧
    (u.array 0 0).nextFirePass = some g ∧ (u.array 0 0).issuing = none ∧ (u.array 0 0).resumes = false ∧ (u.array 0 0).passes = [] ∧ u.batchReady 0 0 = true ∧ fenceBroken 0 (u.array 0 0) false = false ∧
    batchTile g.desc g.set g.started / 8 = 0 ∧
    after (exec (.fireAssembly 0 0) s) (fun t => (t.array 0 0).fires.map (fun g => g.rows) = [some [List.replicate 32 0]]) = true ∧
    after (exec (.batchPassStart 0 0) u) (fun t => (t.array 0 0).passes.map (fun p => (p.tile, p.rows, p.batch)) = [(1, [[1, 2]], some 3)] ∧ t.arrCount 0 0 2 = 0) = true := by
  decide +kernel

/-! ## The sheet engine -/

/-- BLOAD of 4 FP32 elements at slice offset 0x100 into bias register 3, waiting on slot 15, with DONE. -/
def bloadDesc : Desc := words [6 + 2 ^ 16 + 3 * 2 ^ 35, 15 + 2 ^ 16 + 2 ^ 20, 1, 0x100, 0, 1 + 4 * 2 ^ 16]

/-- A queued sheet command. -/
def sheetCmd (d : Desc) : SCmd := { desc := d, daddr := 7, pc := 0, level := 1, bad := false, run := none }

/-- Mast 0 with a sheet command and one token in slot 15 of the engine. -/
def sheeted (c : SCmd) : State := mast fun x => { x with tok := { x.tok with count := [(63, 1)] }, sheet := { x.sheet with queue := [c] } }

theorem test_SheetDescriptorStarts :
    let s := sheeted (sheetCmd bloadDesc)
    Sparse.wf (s.mast 0).tok.count = true ∧ (s.mast 0).sheet.queue = sheetCmd bloadDesc :: [] ∧ (s.mast 0).sheet.fin = [] ∧ sdOpk bloadDesc = 6 ∧ s.sheetOpen 0 = true ∧
    s.haveTokens 0 (sdSlots bloadDesc) = true ∧ s.sheetBad 0 bloadDesc = false ∧ (dbit bloadDesc 1 20 && badToken (BitVec.ofNat 32 (dfld bloadDesc 2 0 32))) = false ∧
    after (exec (.bload 0) s) (fun t => (t.mast 0).sheet.queue.map (fun c => c.run) = [some { modes := (false, false), recs := [] }] ∧ (t.mast 0).tok.count = [] ∧
      (t.mast 0).sheet.st = 1) = true ∧
    after (exec (.drain 0) s) (fun t => (t.mast 0).sheet = (s.mast 0).sheet) = true := by decide +kernel

/-- DRAIN of tile 0 as FP32 to slice offset 0x1000, waiting on slot 15. -/
def drainDesc : Desc := words [2 ^ 12, 15 + 2 ^ 16, 0, 0x1000 * 2 ^ 32]

/-- A DRAIN behind a BLOAD in its only beat starts (08 R225). -/
theorem test_SheetDescriptorStarts_behind :
    let b := { sheetCmd bloadDesc with run := some { modes := (false, false), recs := [] } }
    let s := (sheeted b).modSheet 0 fun x => { x with queue := [b, sheetCmd drainDesc], st := 1 }
    b.run.isSome = true ∧ readsCanvas drainDesc = false ∧ (s.startedSpan 0 0 0 (s.mast 0).sheet.queue).isSome = true ∧ s.sheetOpen 0 = true ∧
    s.haveTokens 0 (sdSlots drainDesc) = true ∧ s.sheetBad 0 drainDesc = false ∧ sdOpk drainDesc = 0 ∧
    after (exec (.drain 0) s) (fun t => (t.mast 0).sheet.queue.map (fun c => c.run.isSome) = [true, true] ∧ (t.mast 0).tok.count = []) = true := by decide +kernel

/-- Words read with an uncorrectable error are kind 2, and a DONE to slot 63 of engine 5 of mast 511 of node 1 is kind 4. -/
theorem test_SheetDescriptorStarts_faults :
    let e := { sheetCmd bloadDesc with bad := true }
    let d := bloadDesc ||| (words [0, 0, 0xFFFFFFFF] : Desc)
    (dbit d 1 20 && badToken (BitVec.ofNat 32 (dfld d 2 0 32))) = true ∧ (sheeted (sheetCmd d)).sheetBad 0 d = false ∧
    after (exec (.bload 0) (sheeted e)) (fun t => (t.mast 0).sheet.fKind = 2 ∧ (t.mast 0).tok.count = [(63, 1)]) = true ∧
    after (exec (.bload 0) (sheeted (sheetCmd d))) (fun t => (t.mast 0).sheet.fKind = 4) = true := by decide +kernel

/-- A descriptor of each kind may stand at the head; with a reserved bit set it faults with kind 1. -/
theorem test_SheetDescriptorStarts_bad :
    (∀ k : Fin 10, let d := words [k.val, 0, 0, 0, 0, 0, 2 ^ 63]
      sdOpk d = k.val ∧ (sheeted (sheetCmd d)).sheetOpen 0 = true ∧ (sheeted (sheetCmd d)).haveTokens 0 (sdSlots d) = true ∧ (sheeted (sheetCmd d)).sheetBad 0 d = true ∧
      after (exec (sheetStartCmd 0 k) (sheeted (sheetCmd d))) (fun t => (t.mast 0).sheet.faulted = true ∧ (t.mast 0).sheet.fKind = 1 ∧ (t.mast 0).sheet.fDaddr = 7 ∧
        (t.mast 0).tok.count = [(63, 1)]) = true) := by decide +kernel

theorem test_SheetBeatsAndCompletes_bload :
    let run : SRun := { modes := (false, false), recs := [] }
    let c := { sheetCmd bloadDesc with run := some run }
    let s := { (sheeted c) with ram := [(sliceAddr 0 0x102, 0x80), (sliceAddr 0 0x103, 0x3F)] }
    let reads := s.beatReads 0 run bloadDesc 0 (s.beatSegs 0 run bloadDesc 0 0)
    (s.mast 0).sheet.queue = c :: [] ∧ c.run = some run ∧ (s.mast 0).sheet.stopped = false ∧ (s.mast 0).sheet.faulted = false ∧
    s.engSet 0 4 = true ∧ (s.mast 0).sheet.row = 0 ∧ (s.mast 0).sheet.beat = 0 ∧ (s.mast 0).sheet.hist = none ∧ s.beatSegs 0 run bloadDesc 0 0 = [(0, 0, 4)] ∧
    (reads.foldl (fun (t : State) (r : Nat × Nat) => t.canvasRead (sliceAddr 0 r.1) r.2) s).readFault 0 (sdChkr bloadDesc) reads = none ∧
    s.endsRow 0 run bloadDesc 0 = true ∧
    after (exec (.sheetBeat 0) s) (fun t => (t.mast 0).sheet.breg = [(0x3002, 0x80), (0x3003, 0x3F)] ∧ (t.mast 0).sheet.queue = [] ∧ (t.mast 0).sheet.fin = [c]) = true := by
  decide +kernel

/-- BLOAD of 300 elements: its first beat is not the last of the row. -/
theorem test_SheetBeatsAndCompletes_long :
    let d : Desc := words [6 + 2 ^ 16 + 3 * 2 ^ 35, 0, 0, 0x100, 0, 1 + 300 * 2 ^ 16]
    let run : SRun := { modes := (false, false), recs := [] }
    let s := sheeted { sheetCmd d with run := some run }
    s.beatSegs 0 run d 0 0 = [(0, 0, 128)] ∧ s.beatSegs 0 run d 0 2 = [(0, 256, 44)] ∧ s.endsRow 0 run d 1 = false ∧ s.endsRow 0 run d 2 = true := by decide +kernel

/-- EWISE of one row of 4 FP32 elements at 0x100 to 0x1000, and the DRAIN of a tile that it reads for the first time. -/
theorem test_SheetBeatsAndCompletes_chain :
    let d : Desc := words [2 + 2 ^ 12 + 2 ^ 16, 0, 0, 0x100 + 0x1000 * 2 ^ 32, 0, 1 + 4 * 2 ^ 16]
    let run : SRun := { modes := (false, false), recs := [] }
    let at' := fun (d : Desc) => { (sheeted { sheetCmd d with run := some run }) with ram := [(sliceAddr 0 0x102, 0x80), (sliceAddr 0 0x103, 0x3F)] }
    let ok := fun (d : Desc) =>
      let s := at' d
      let segs := s.beatSegs 0 run d 0 0
      let ts := s.beatTiles 0 run d 0 segs (s.endsRow 0 run d 0)
      decide (sdOpk d = 0 ∨ sdOpk d = 2) && !sdChkw d && s.goesOn 0 d && ts.all (fun t => decide ((s.tile 0 t).inflight = 0)) && (s.recordBad 0 run d 0 ts).isNone &&
        !s.bad (s.beatCells 0 (s.firstReads 0 run ts) d 0 segs true) && (s.readFault 0 (sdChkr d) (s.beatReads 0 (s.firstReads 0 run ts) d 0 segs)).isNone
    ok d = true ∧ ok drainDesc = true ∧ after (exec (.sheetBeat 0) (at' d)) (fun t => Mem.load t.ram (sliceAddr 0 0x1000) 4 = 0x3F800000) = true := by decide +kernel

theorem test_SheetBeatsAndCompletes_completes :
    let c := { sheetCmd bloadDesc with run := some { modes := (false, false), recs := [] } }
    let s := mast fun x => { x with sheet := { x.sheet with fin := [c], replies := [5, 6], owed := [2] } }
    let u := mast fun x => { x with sheet := { x.sheet with fin := [c], owed := [0] } }
    (s.mast 0).sheet.replies = 5 :: [6] ∧ (u.mast 0).sheet.fin = c :: [] ∧ (u.mast 0).sheet.owed.headD 0 = 0 ∧ (s.mast 0).sheet.owed.headD 0 ≠ 0 ∧
    after (exec (.rowReply 0) s) (fun t => t.posts = [{ addr := 5, src := .engine 0 4, seq := s.order }] ∧ (t.mast 0).sheet.replies = [6] ∧ (t.mast 0).sheet.owed = [1]) = true ∧
    after (exec (.sheetDescDone 0) u) (fun t => t.posts = [{ addr := 1, src := .engine 0 4, seq := s.order }] ∧ (t.mast 0).sheet.fin = []) = true ∧
    gives (exec (.sheetDescDone 0) s) s = true := by decide +kernel

/-! ## The halyard -/

/-- FILL of two rows of 64 bytes with stride 256 at slice offset 0xC0, pattern 0x44332211, on channel 1, with DONE2. -/
def fillDesc : Desc := words [4 + 2 ^ 6 + 2 ^ 11 + 0x44332211 * 2 ^ 32, 2 ^ 37, 3 * 2 ^ 32, 0, 0xC0, 2 + 64 * 2 ^ 16, 256 * 2 ^ 32]

/-- A queued halyard command. -/
def halCmd (d : Desc) : HalCmd := { id := 0, desc := d, daddr := 9, pc := 0, level := 1, started := false }

/-- Mast 0 with one halyard command queued. -/
def halyard (d : Desc) : State := mast fun x => { x with hal := { x.hal with queue := [halCmd d], nextId := 1 } }

theorem test_HalyardDescriptorStarts :
    let s := halyard fillDesc
    (s.mast 0).hal.queue = halCmd fillDesc :: [] ∧ hdMode fillDesc = 4 ∧ s.halOpen 0 = true ∧ ((s.mast 0).hal.onCh (hdCh fillDesc)).length < 2 ∧
    s.haveTokens 0 (hdWslots fillDesc) = true ∧ halBad fillDesc = false ∧ halTokenBad fillDesc = false ∧
    (halCmd fillDesc).started = false ∧ ((s.mast 0).hal.onCh (hdCh fillDesc)).all HalRun.allRead = true ∧ after (exec (.fill 0) s) (fun _ => true) = true ∧
    after (exec (.copy 0) s) (fun t => (t.mast 0).hal.queue = [halCmd fillDesc]) = true := by decide +kernel

theorem test_HalyardDescriptorStarts_bad :
    (∀ k : Fin 5, let d := words [k.val + 2 ^ 31]
      hdMode d = k.val ∧ halBad d = true ∧ (halyard d).halOpen 0 = true ∧ (halyard d).haveTokens 0 (hdWslots d) = true ∧
      after (exec (halStartCmd 0 k) (halyard d)) (fun t => (t.mast 0).hal.faulted = true ∧ (t.mast 0).hal.fKind = 1 ∧ (t.mast 0).hal.fDaddr = 9) = true) := by decide +kernel

/-- That fill with every read issued. -/
def fillRun : HalRun := { halRunOf (halCmd fillDesc) 0 with pages := some [], ahead := 2 }

/-- Mast 0 with that fill in the write stage of channel 1 and `n` lines written. -/
def filling (n : BitVec 30) (r : HalRun) : State := mast fun x => { x with hal := { x.hal with
  act := [r], prog := x.hal.prog.set 1 { lines := n, st := 1, dwok := true } } }

theorem test_HalyardWritesAndCompletes_writes :
    let s := filling 1 fillRun
    (s.mast 0).hal.writing 1 = some fillRun ∧ fillRun.pages = some [] ∧ fillRun.land = [] ∧ hdSkind fillDesc = 0 ∧ hdDkind fillDesc = 1 ∧ hdChkw fillDesc = false ∧
    (hdDest fillDesc).line 1 = some (0x180, [(0x1C0, 64, 64)]) ∧ (s.mast 0).hal.onCh 1 = [fillRun] ∧
    (s.mast 0).hal.stopped = false ∧ (s.mast 0).hal.faulted = false ∧ (s.mast 0).hal.stopReq = false ∧ s.engSet 0 5 = true ∧ ((s.mast 0).hal.prog.get 1).dwok = true ∧
    after (exec (.halLineWrite 0 1 (answer [])) s) (fun _ => true) = true := by decide +kernel

theorem test_HalyardWritesAndCompletes_completes :
    let r := { fillRun with wrote := true }
    let e := filling 2 r
    (e.mast 0).hal.act = [r] ∧ r.wrote = true ∧ r.done = false ∧ hdCh fillDesc = 1 ∧ e.acksDue 0 5 (fun (k : AckDue) => decide (k.tag = r.cmd.id)) = false ∧
    (e.mast 0).hal.queue = [] ∧
    after (exec (.halDescComplete 0 1) e) (fun t => (t.mast 0).hal.act = [] ∧ t.posts = [{ addr := 3, src := .engine 0 5, seq := e.order }]) = true := by decide +kernel

/-! ## Translation -/

/-- A miss of the control core at VA 0x10000. -/
def missed : XFault := { e := 0, kind := 0, lvl := 0, wr := true, plv := 1, side := 0, va := 0x10000, pc := 0x40, detail := 0, slot := 1, st := .pending }

/-- A walk of that page. -/
def walk1 (root : BitVec 42) (who : List (MastId × EngId)) (running : Bool) : Walk := { asid := 0, vpn := 1, root := root, who := who, running := running, fromTop := false }

/-- Mast 0 waiting on that miss, with its fault ring on, tables in memory, and walks of die 0. -/
def missing (ram : Mem) (ws : List Walk) : State :=
  { ((core fun c => { c with waiting := some (.walk 0x10000) }).modXl 0 fun x => { x with miss := [missed], fqEn := true, fqBase := 1, fqTail := 2 }).modDie 0 fun d =>
    { d with walks := ws } with ram := ram }

theorem test_WalksServeMisses_requests :
    let other := fun (n : Nat) (run : Bool) => (List.range n).map fun i => { walk1 0 [(1, 1)] run with vpn := BitVec.ofNat 40 (100 + i) }
    let a := missing [] (other 15 true)
    let b := missing [] (other 16 true ++ (other 63 false).map fun w => { w with asid := 1 })
    let c := missing [] (other 16 true ++ (other 64 false).map fun w => { w with asid := 1 })
    let j := missing [] [walk1 0 [(1, 1)] true]
    (∃ f ∈ (a.mast 0).xl.miss, f.e = 0 ∧ f.va.toNat / 2 ^ 16 = 1) ∧ (∀ w ∈ (c.die 0).walks, w.isFor 0 1 = false) ∧ ((a.die 0).walks.filter fun w => w.running).length = 15 ∧
    (b.die 0).walks.length - ((b.die 0).walks.filter fun w => w.running).length = 63 ∧ (c.die 0).walks.length - ((c.die 0).walks.filter fun w => w.running).length = 64 ∧
    (j.die 0).walks = [] ++ walk1 0 [(1, 1)] true :: [] ∧ (walk1 0 [(1, 1)] true).isFor 0 1 = true ∧
    after (exec (.walkRequest 0 0 0x10000) a) (fun t => (t.die 0).walks = other 15 true ++ [walk1 0 [(0, 0)] true]) = true ∧
    after (exec (.walkRequest 0 0 0x10000) b) (fun t => (t.die 0).walks.getLast? = some (walk1 0 [(0, 0)] false)) = true ∧
    after (exec (.walkRequest 0 0 0x10000) c) (fun t => (t.die 0).walks = (c.die 0).walks) = true ∧
    after (exec (.walkRequest 0 0 0x10000) j) (fun t => (t.die 0).walks = [walk1 0 [(1, 1), (0, 0)] true]) = true := by decide +kernel

/-- Tables at 0x4000 (level 3), 0x8000 (2), 0xC000 (1) and 0x10000 (0): VA 0x10000 maps 64 KiB at 0x20000, readable and writable at S. -/
def tables : Mem := Mem.store (Mem.store (Mem.store (Mem.store [] 0x4000 8 0x8001) 0x8000 8 0xC001) 0xC000 8 0x10001) 0x10008 8 0x2000F

theorem test_WalksServeMisses_completes :
    let s := missing tables [walk1 0x10 [(0, 0)] true]
    let n := missing [] [walk1 0x10 [(0, 0)] true]
    let f := missing (Mem.store [] 0x4000 8 3) [walk1 0x10 [(0, 0)] true]
    let p := { (missing tables [walk1 0x10 [(0, 0)] true]) with hbmPoison := [0x4000 / 128] }
    (s.die 0).walks = [] ++ walk1 0x10 [(0, 0)] true :: [] ∧ (s.mast 0).xl.miss = [missed] ∧ missed.va.toNat / 2 ^ 16 = 1 ∧ (n.mast 0).xl.fqEn = true ∧ (n.mast 0).xl.recBad 0 = false ∧
    (s.walk (.walker 0) 0 0 0x10 0x10000 false).2.2 = .leaf 0 0x2000F ∧ (n.walk (.walker 0) 0 0 0x10 0x10000 false).2.2 = .noTrans 3 ∧
    (f.walk (.walker 0) 0 0 0x10 0x10000 false).2.2 = .malformed 3 ∧ (p.walk (.walker 0) 0 0 0x10 0x10000 false).2.2 = .poisoned ∧
    after (exec (.walkComplete 0 0 1) s) (fun t => (t.mast 0).xl.tlbCore = [{ asid := 0, lvl := 0, vpage := 1, pa := 0x20000, r := true, w := true, u := false, wp := 0 }] ∧
      (t.die 0).walks = [] ∧ (t.die 0).wc.length = 4) = true ∧
    after (exec (.walkComplete 0 0 1) n) (fun t => (t.mast 0).xl.faults = [{ missed with kind := 1, lvl := 3 }] ∧ (c0 t).waiting = some .fault) = true ∧
    after (exec (.walkComplete 0 0 1) f) (fun t => (t.mast 0).xl.faults = [{ missed with kind := 4, lvl := 3 }]) = true ∧
    after (exec (.walkComplete 0 0 1) p) (fun t => t.flts = [{ m := 0, e := 0, kind := 1 }]) = true := by decide +kernel

/-- Mast 0 with one fault of an engine in a state, and FQ_HEAD. -/
def faulty (e : EngId) (st : FaultSt) (head : BitVec 12) : State := (core fun c => { c with im := false }).modXl 0 fun x =>
  { x with faults := [{ missed with e := e, kind := 1, lvl := 2, st := st }], fqEn := true, fqBase := 1, fqTail := 15, fqHead := head }

theorem test_FaultRecordsAreWritten :
    let s := faulty 0 .pending 2
    let q := faulty 0 .pending 0
    let h := faulty 0 .held 0
    let w := faulty 0 .written 0
    let v := faulty 1 .written 0
    let st := core fun c => { c with halted := true }
    (s.mast 0).xl.faults = [] ++ { missed with kind := 1, lvl := 2 } :: [] ∧ (s.mast 0).xl.recBad 0 = false ∧ (s.mast 0).xl.fqFull = false ∧
    (s.ask (.walker 0) (linesOf ((s.mast 0).xl.recAddr % 2 ^ 38) 32)).2 = true ∧ Sparse.wf s.ram = true ∧ (q.mast 0).xl.fqFull = true ∧ (h.mast 0).xl.fqFull = true ∧ (c0 st).halted = true ∧ (c0 s).halted = false ∧
    after (exec (.faultRecordWrite 0 0) s) (fun t => (t.mast 0).xl.fqTail = 0 ∧ (t.mast 0).xl.fqSeq = 1 ∧
      (List.range 32).map (fun i => t.peekByte (0x1000 + 32 * 15 + i)) = [0, 0, 1, 0, 0, 0, 0, 0, 0x88, 3, 0, 0, 0x40, 0, 0, 0, 0, 0, 0, 0, 0, 0, 0, 0, 0, 0, 0, 0, 0, 0, 0, 0]) = true ∧
    after (exec (.faultRecordWrite 0 0) q) (fun t => (t.mast 0).xl.faults.map (fun f => f.st) = [.held] ∧ (t.mast 0).xl.fqOvf = true) = true ∧
    gives (exec (.faultRecordWrite 0 0) h) h = true ∧
    after (exec (.faultRecordAck 0 0) w) (fun t => ((c0 t).sys.get 2).cause = 0x40B ∧ (t.mast 0).xl.faults = []) = true ∧
    after (exec (.faultRecordAck 0 1) v) (fun t => (t.mast 0).vec.faulted = true ∧ (t.mast 0).vec.faultVa = 0x10000) = true ∧
    after (exec (.fqTimeout 0) h) (fun t => t.flts = [{ m := 0, e := 0, kind := 6 }]) = true ∧
    after (exec (.fqBaseWrite 0 0x500C) st) (fun t => (t.mast 0).xl.fqBase = 5 ∧ (t.mast 0).xl.fqSize = 12 ∧ (t.mast 0).xl.fqTail = 0) = true ∧
    after (exec (.fqBaseWrite 0 0x500C) s) (fun t => (c0 t).xwerr = true) = true ∧ after (exec (.fqHeadWrite 0 3) s) (fun t => (t.mast 0).xl.fqHead = 3) = true := by decide +kernel

theorem test_FaultRecordsAreWritten_bound :
    let s := core fun c => { c with wq := [{ pa := 0, data := [1], wp := 0, level := 1, seq := 0, st := .requested }] }
    s.engRequests 0 0 = true ∧ after (exec (.boundExceeded 0 0) s) (fun t => t.flts = [{ m := 0, e := 0, kind := 7 }] ∧ (c0 t).ipend = 0x100) = true := by decide +kernel

/-- An invalidation of one page of ASID 2. -/
def inval (applied : Bool) (uses : List InvUse) : Inval := { scope := 2, asid := 2, npages := 0, va := 1, applied := applied, uses := uses, host := none }

theorem test_InvalidationsComplete :
    let hit : TlbEnt := { leaf0 with asid := 2, vpage := 1 }
    let s := { ((core id).modXl 0 fun x => { x with asid := 2, tlbCore := [hit, leaf0, { hit with vpage := 2 }] }) with invs := [inval false []] }
    let use : InvUse := { m := 0, pages := [(0, 0x10000)], seq := 1, grp := 0, ord := 0, elems := [], hal := [], wb := [] }
    let b := { (core fun c => { c with sb := [{ pa := 0, data := [1], wp := 0, level := 1, seq := 0 }] }) with invs := [inval true [use]] }
    let d := { (core id) with invs := [inval true [use]] }
    let full := { up with invs := List.replicate 4 (inval false []) }
    s.invs = inval false [] :: [] ∧ (inval false []).applied = false ∧ [use].all (fun u => d.useOver u) = true ∧ [use].all (fun u => b.useOver u) = false ∧ full.invs.length = 4 ∧
    after (exec (.xlInvCmd 0xA) { up with invs := full.invs.take 3 }) (fun t => t.invs.length = 4 ∧ t.invOvf = false) = true ∧
    after (exec (.xlInvCmd 0xA) full) (fun t => t.invs.length = 4 ∧ t.invOvf = true) = true ∧ after (exec (.xlInvCmd 3) up) (fun t => t.invOvf = true) = true ∧
    after (exec (.xlInvCmd (2 ^ 34)) up) (fun t => t.invOvf = true) = true ∧
    after (exec .invApply s) (fun t => (t.mast 0).xl.tlbCore = [leaf0, { hit with vpage := 2 }] ∧ t.invs.map (fun i => i.applied) = [true]) = true ∧
    after (exec .invComplete d) (fun t => t.invs = [] ∧ t.invDone = true) = true ∧ gives (exec .invComplete b) b = true := by decide +kernel

/-! ## Homes and caches -/

/-- A home line at line 5 with a directory state, an owner, sharers and a busy state. -/
def homeAt (dir : DirSt) (owner : MastId) (sharers : BitVec 128) (busy : Option Busy) : HomeLine :=
  { addr := 5, data := 0x77, dirty := false, dir := dir, owner := owner, sharers := sharers, poison := false, busy := busy, putting := false }

/-- The module with that line and messages on their way. -/
def homed (h : HomeLine) (ms : List Msg) : State := { (core id) with homes := [h], msgs := ms }

/-- A busy state of a request. -/
def busyFor (r : HomeReq) (invs : List MastId) (fwd cmp : Option MastId) : Busy :=
  { req := r, needFill := false, noRoom := false, invs := invs, fwd := fwd, fwdTo := fwd, gotDirty := false, gotEvict := false, needCmp := cmp, heldPuts := [] }

/-- Whether line 5 has a directory state, an owner and sharers. -/
def dirIs (t : State) (d : DirSt) (o : MastId) (sh : BitVec 128) : Bool := (t.home 5).elim false fun h => decide (h.dir = d ∧ h.owner = o ∧ h.sharers = sh)

theorem test_HomeServesCacheRequests_reads :
    let go := fun (d : DirSt) (sh : BitVec 128) => exec (.gets 3 5) (homed (homeAt d 2 sh none) [.cmp 0 0, .req 3 5 (.getS false)])
    let s := homed (homeAt .i 2 0 none) [.cmp 0 0, .req 3 5 (.getS false)]
    let b := homed (homeAt .i 2 0 (some (busyFor (.getM 0) [] none (some 0)))) [.req 3 5 (.getS true)]
    s.msgs = [.cmp 0 0] ++ .req 3 5 (.getS false) :: [] ∧ s.home 5 = some (homeAt .i 2 0 none) ∧ s.homeOpen (.core 3) 5 = true ∧ b.homeOpen (.core 3) 5 = false ∧ (∀ y ∈ [Msg.cmp 0 0], (Msg.req 3 5 (.getS false)).sameRoute y = false) ∧
    after (go .i 0) (fun t => t.msgs = [.cmp 0 0, .grant 3 5 .e 0x77 false] ∧ dirIs t .em 3 0) = true ∧
    after (go .s 4) (fun t => t.msgs = [.cmp 0 0, .grant 3 5 .s 0x77 false] ∧ dirIs t .s 2 0xC) = true ∧
    after (go .em 0) (fun t => t.msgs = [.cmp 0 0, .fwdS 2 5]) = true ∧ after (go .o 0) (fun t => t.msgs = [.cmp 0 0, .fwdR 2 5]) = true ∧
    after (exec (.gets 3 5) b) (fun t => t.msgs = [.nack 3 5 false] ∧ t.homes = b.homes) = true := by decide +kernel

theorem test_HomeServesCacheRequests_writes :
    let go := fun (k : ReqKind) (d : DirSt) (sh : BitVec 128) =>
      exec (if k = .getM then .getm 3 5 else .upg 3 5) (homed (homeAt d 2 sh none) [.req 3 5 k])
    after (go .getM .s 8) (fun t => t.msgs = [.grant 3 5 .m 0x77 false] ∧ dirIs t .em 3 0) = true ∧
    after (go .getM .s 0xC) (fun t => t.msgs = [.inv 2 5]) = true ∧ after (go .getM .em 0) (fun t => t.msgs = [.fwdM 2 5]) = true ∧
    after (go .getM .o 0x10) (fun t => t.msgs = [.inv 4 5, .fwdM 2 5]) = true ∧
    after (go .upg .s 8) (fun t => t.msgs = [.upgAck 3 5] ∧ dirIs t .em 3 0) = true ∧ after (go .upg .s 0) (fun t => t.msgs = [.grant 3 5 .m 0x77 false]) = true ∧
    after (go .upg .o 8) (fun t => t.msgs = [.inv 2 5]) = true := by decide +kernel

/-- Job slot 1 holds job 9 whose block is the whole module of node 0. -/
def withJob : State := (core id).modJob 1 fun j => { j with valid := true, jobid := 9 }

theorem test_HomeServesUncachedAccesses_remote :
    let s := { withJob with homes := [homeAt .i 0 0 none] }
    s.accepts 0 9 = true ∧ placeOf (lineAddr 5) = .hbm ∧ s.home 5 = some (homeAt .i 0 0 none) ∧ s.homeOpen (.remote 0 0 0 9) 5 = true ∧ s.accepts 0 8 = false ∧
    after (exec (.rdu (.remote 0 0 0 9) 5 0 2) s) (fun t => (t.home 5).isSome) = true ∧
    after (exec (.wru (.remote 0 0 0 9) 5 127 ⟨[0xAB], none⟩) s) (fun t => (t.home 5).elim false fun h => h.dirty && lineGet h.data 127 1 == [0xAB]) = true ∧
    after (exec (.atom (.remote 0 0 0 9) 5 0 { op := .aadd, dbl := true, val := 1, cmp := 0, ovm := false, ftz := false }) s) (fun t => (t.home 5).elim false fun h => h.data == 0x78) = true ∧
    after (exec (.wru (.remote 0 0 0 8) 5 127 ⟨[0xAB], none⟩) s) (fun t => t.homes = s.homes) = true := by decide +kernel

theorem test_HomeServesUncachedAccesses_core :
    let p : LoadPart := { pa := 0x280, n := 2, src := .rdu }
    let d : LoadPend := { bank := 2, level := 2, size := 2, sgn := false, seq := 0, left := none, parts := [p] }
    let s := { (core fun c => { c with loads := [d] }) with homes := [homeAt .i 0 0 none], msgs := [.rdu 0 5 0 2] }
    s.msgs = [] ++ .rdu 0 5 0 2 :: [] ∧ s.homeOpen (.core 0) 5 = true ∧ (c0 s).loads = [d] ∧ lineOf (localOf p.pa) = 5 ∧ (c0 s).wq = [] ∧
    after (exec (.rdu (.core 0) 5 0 2) s) (fun t => (c0 t).loads = [{ d with parts := [{ p with src := .ready [0x77, 0] }] }] ∧ t.msgs = []) = true := by decide +kernel

theorem test_HomeServesUncachedAccesses_fill :
    let b := { busyFor (.getS 3 false) [] none none with needFill := true }
    let s := { (homed (homeAt .i 0 0 (some b)) []) with ram := [(0x280, 0x99)] }
    s.home 5 = some (homeAt .i 0 0 (some b)) ∧ b.needFill = true ∧ b.noRoom = false ∧ b.req = .getS 3 false ∧
    after (exec (.homeFill 5 .clean) s) (fun t => t.msgs = [.grant 3 5 .e 0x99 false] ∧ dirIs t .em 3 0) = true ∧
    after (exec (.homeFill 5 .uncorrectable) s) (fun t => t.msgs = [.grant 3 5 .s 0x99 true] ∧ dirIs t .i 0 0 ∧ t.ramPoison 5 = true) = true := by decide +kernel

/-- Mast 0 with line 5 in a cache state, stores in the write queue, and messages on their way. -/
def caching (lines : List CacheLine) (wq : List WqEnt) (ms : List Msg) : State :=
  { ((core fun c => { c with wq := wq }).modDc 0 fun d => { d with lines := lines }) with msgs := ms }

/-- A store of one byte to the second byte of line 5. -/
def store5 : WqEnt := { pa := 0x281, data := [0xEE], wp := 0, level := 2, seq := 0, st := .requested }

theorem test_CachesAnswerHomes_grants :
    let s := caching [] [] [.grant 0 5 .s 7 false]
    let e := caching [] [] [.grant 0 5 .e 7 false]
    let m := caching [] [store5] [.grant 0 5 .m 7 false]
    let u := caching [{ addr := 5, st := .s, data := 7 }] [store5] [.upgAck 0 5]
    s.msgs = [] ++ .grant 0 5 .s 7 false :: [] ∧ ((s.mast 0).dc.drop 5).lines.length < 48 ∧ (c0 s).wq = [] ∧
    (∀ x ∈ (c0 m).wq, x.wp = 0 ∧ x.st ≠ .performed ∧ lineOf (localOf x.pa) = 5) ∧ (u.mast 0).dc.held 5 = some { addr := 5, st := .s, data := 7 } ∧
    after (exec (.datas 0 5) s) (fun t => (t.mast 0).dc.held 5 = some { addr := 5, st := .s, data := 7 } ∧ t.msgs = [.cmp 0 5]) = true ∧
    after (exec (.datae 0 5) e) (fun t => (t.mast 0).dc.held 5 = some { addr := 5, st := .e, data := 7 }) = true ∧
    after (exec (.datam 0 5) m) (fun t => (t.mast 0).dc.held 5 = some { addr := 5, st := .m, data := 0xEE07 } ∧ (c0 t).wq = []) = true ∧
    after (exec (.upgack 0 5) u) (fun t => (t.mast 0).dc.held 5 = some { addr := 5, st := .m, data := 0xEE07 }) = true := by decide +kernel

theorem test_CachesAnswerHomes_contacts :
    let at' := fun (st : CacheSt) (x : Msg) => caching [{ addr := 5, st := st, data := 7 }] [] [x]
    let q : CacheReq := { line := 5, kind := .getM, msg := .req 0 5 .getM, nacks := 0, backoff := false }
    let n := (caching [] [] [.nack 0 5 false]).modDc 0 fun d => { d with reqs := [q] }
    let b := (caching [] [] []).modDc 0 fun d => { d with reqs := [{ q with backoff := true }] }
    let w := (caching [] [] [.putAck 0 5]).modDc 0 fun d => { d with wb := [{ line := { addr := 5, st := .m, data := 7 }, backoff := false }] }
    (n.mast 0).dc.reqs = [] ++ q :: [] ∧ n.msgs = [] ++ .nack 0 5 false :: [] ∧ w.msgs = [] ++ .putAck 0 5 :: [] ∧
    after (exec (.fwds 0 5) (at' .m (.fwdS 0 5))) (fun t => t.msgs = [.fwdData 0 5 7 true false] ∧ ((t.mast 0).dc.held 5).map (·.st) = some .o) = true ∧
    after (exec (.fwds 0 5) (at' .e (.fwdS 0 5))) (fun t => t.msgs = [.fwdData 0 5 7 false false] ∧ ((t.mast 0).dc.held 5).map (·.st) = some .s) = true ∧
    after (exec (.fwdr 0 5) (at' .o (.fwdR 0 5))) (fun t => t.msgs = [.fwdData 0 5 7 true false] ∧ ((t.mast 0).dc.held 5).map (·.st) = some .o) = true ∧
    after (exec (.fwdm 0 5) (at' .m (.fwdM 0 5))) (fun t => (t.mast 0).dc.held 5 = none) = true ∧
    after (exec (.inv 0 5) (at' .s (.inv 0 5))) (fun t => t.msgs = [.invAck 0 5] ∧ (t.mast 0).dc.held 5 = none) = true ∧
    after (exec (.nack 0 5) n) (fun t => (t.mast 0).dc.reqs.map (·.backoff) = [true] ∧ t.msgs = []) = true ∧
    after (exec (.nackRetry 0 5) b) (fun t => (t.mast 0).dc.reqs.map (·.backoff) = [false] ∧ t.msgs = [.req 0 5 .getM]) = true ∧
    after (exec (.putack 0 5) w) (fun t => (t.mast 0).dc.wb = [] ∧ t.msgs = []) = true := by decide +kernel

theorem test_HomesTakeAnswersAndPuts_answers :
    let a := homed (homeAt .s 0 6 (some (busyFor (.getM 3) [1, 2] none none))) [.invAck 1 5]
    let z := homed (homeAt .s 0 4 (some (busyFor (.getM 3) [2] none none))) [.invAck 2 5]
    let f := homed (homeAt .em 2 0 (some (busyFor (.getS 3 false) [] (some 2) none))) [.fwdData 2 5 9 true false]
    let c := homed (homeAt .em 3 0 (some (busyFor (.getM 3) [] none (some 3)))) [.cmp 3 5]
    a.msgs = [] ++ .invAck 1 5 :: [] ∧ a.home 5 = some (homeAt .s 0 6 (some (busyFor (.getM 3) [1, 2] none none))) ∧ [(1 : MastId), 2].erase 1 ≠ [] ∧
    after (exec (.invack 1 5) a) (fun t => t.msgs = [] ∧ (t.home 5).elim false fun h => h.busy == some (busyFor (.getM 3) [2] none none)) = true ∧
    after (exec (.invack 2 5) z) (fun t => t.msgs = [.grant 3 5 .m 0x77 false] ∧ dirIs t .em 3 0) = true ∧
    after (exec (.fwddata 2 5) f) (fun t => t.msgs = [.grant 3 5 .s 9 false] ∧ dirIs t .o 2 8) = true ∧
    after (exec (.cmpMessage 3 5) c) (fun t => t.msgs = [] ∧ t.lineBusy 5 = false) = true := by decide +kernel

theorem test_HomesTakeAnswersAndPuts_puts :
    let at' := fun (dir : DirSt) (owner : MastId) (busy : Option Busy) (st : CacheSt) => homed (homeAt dir owner 8 busy) [.put 2 5 st 9]
    (at' .em 2 none .m).msgs = [] ++ .put 2 5 .m 9 :: [] ∧
    after (exec (.putm 2 5) (at' .em 2 none .m)) (fun t => t.msgs = [.putAck 2 5] ∧ (t.home 5).elim false fun h => decide (h.data = 9 ∧ h.dirty = true ∧ h.dir = .i)) = true ∧
    after (exec (.puto 2 5) (at' .o 2 none .o)) (fun t => dirIs t .s 2 8 && (t.home 5).elim false fun h => h.data == 9) = true ∧
    after (exec (.pute 2 5) (at' .em 2 none .e)) (fun t => (t.home 5).elim false fun h => decide (h.data = 0x77 ∧ h.dirty = false ∧ h.dir = .i)) = true ∧
    after (exec (.putm 2 5) (at' .em 1 none .m)) (fun t => t.msgs = [.putAck 2 5] ∧ t.homes = [{ homeAt .em 1 8 none with putting := true }]) = true ∧
    after (exec (.putm 2 5) (at' .em 2 (some (busyFor (.getM 3) [] none (some 3))) .m)) (fun t => t.msgs = [.nack 2 5 true]) = true := by decide +kernel

/-- A Put of the cache that the home has asked to forward is held until the request ends. -/
theorem test_HomesTakeAnswersAndPuts_held :
    let b := busyFor (.getM 3) [] (some 2) none
    let s := homed (homeAt .em 2 0 (some b)) [.put 2 5 .m 9]
    b.fwdTo = some 2 ∧ after (exec (.putm 2 5) s) (fun t => t.msgs = [] ∧ t.homes = [homeAt .em 2 0 (some { b with heldPuts := [2] })]) = true := by decide +kernel

theorem test_MemoryIsMaintained :
    let at' := fun (k : Fin 8) (i : Nat) => stackLine k i
    let s := { up with hbmWq := [at' 3 0, at' 2 0, at' 3 32] }
    let h := ((core fun c => { c with halted := true }).modDc 0 fun d => { d with lines := [{ addr := 5, st := .m, data := 7 }, { addr := 6, st := .s, data := 8 }] })
    let d := { up with homes := [{ homeAt .i 0 0 none with dirty := true }] }
    stackOf (lineAddr (at' 3 0)) = 3 ∧ (up.mast 0).canv.scrub = true ∧ ((up.die 0).hbm.get 3).scrub = true ∧ (c0 h).halted = true ∧ (d.die 0).scFlush = 0 ∧
    after (exec (.hbmRefresh 7 31 5) up) (fun t => t.hbmRef = [(255, 5)]) = true ∧
    after (exec (.hbmWriteTurn 3 (Fin.ofNat 32 (lineAddr (at' 3 0) / 128))) s) (fun t => (at' 3 0) ∉ t.hbmWq ∧ (at' 2 0) ∈ t.hbmWq) = true ∧
    after (exec (.hbmScrubRead 3 .uncorrectable) up) (fun t => ((t.die 0).hbm.get 3).pos = 1 ∧ ((t.die 0).hbm.get 3).errValid = true ∧ t.ramPoison (at' 3 0) = true) = true ∧
    after (exec (.canvasScrub 0 3 .uncorrectable) up) (fun t => (t.mast 0).canv.ue = true ∧ ((t.mast 0).canv.pos.get 3) = 1 ∧ t.canvasBad.length = 1) = true ∧
    after (exec (.canvasScrub 0 3 .corrected) up) (fun t => (t.mast 0).canv.ce = 2 ^ 45) = true ∧
    after (exec (.dcCtlFlush 0) h) (fun t => t.msgs = [.put 0 5 .m 7] ∧ (t.mast 0).dc.lines = []) = true ∧ gives (exec (.dcCtlFlush 0) (core id)) (core id) = true ∧
    after (exec (.scCtlFlush (homeOf (lineAddr 5)).1 (homeOf (lineAddr 5)).2) d) (fun t => ramLine t.ram 5 = 0x77 ∧ t.homes.map (fun h => h.dirty) = [false]) = true ∧
    after (exec (.scFlushDone 1 63) (up.modDie 1 fun x => { x with scFlush := 2 ^ 63 + 1 })) (fun t => (t.die 1).scFlush = 1) = true := by decide +kernel

/-! ## Shroud links, faults of jobs and reduction channels -/

/-- The module in a ring of 4 in dimension 0, with Shroud port 0 changed by `f`. -/
def linked (f : SPort → SPort) : State := { (up.modSport 0 f) with shrCfg := { ShrCfg.reset with size0 := 3 } }

theorem test_LinksCarryAndTrain_carries :
    let msg : LinkMsg := { cls := 0, jobid := 9, src := 3, dst := 1, flits := 1, payload := [] }
    let u := (linked fun x => { x with up := true, ver := 3 }).modSport 1 fun x => { x with up := true }
    let d := (linked id).modSport 1 fun x => { x with up := true }
    let w : Waiting := { msg := .forward msg, cls := 0, src := some (1, 1, 0) }
    let e : Credits := { own := Vector.replicate 3 0, shared := 0 }
    let n := u.modSport 1 fun x => { x with rx := e }
    let q : ReplayReq := { port := 0, here := false, uncorr := false, corrected := 2, lost := 1, burst := false }
    let k := u.modSport 0 fun x => { x with kept := [.forward msg, .forward { msg with dst := 2 }] }
    (u.sport 1).up = true ∧ u.portUsed 1 = true ∧ coord u.nodeId 0 ≠ coord msg.dst 0 ∧ (u.sport 0).up = true ∧ (d.sport 0).up = false ∧ Sparse.wf u.snap.cnt = true ∧
    ((u.sport 1).rx.take 0 1).map (·.2) = some (1, 0) ∧ (n.sport 1).rx.take 0 1 = none ∧ Credits.full.take 2 480 = some ({ own := #v[16, 16, 0], shared := 0 }, 16, 464) ∧
    Credits.full.take 2 481 = none ∧ sendable (fun _ => 0) 2 e [w, { w with cls := 1 }] = (e, [], [w, { w with cls := 1 }]) ∧
    (sendable (fun _ => 0) 2 { e with shared := 1 } [{ w with cls := 1 }, w]).2.1 = [w] ∧ (sendable (fun _ => 2) 2 { e with shared := 1 } [w, { w with cls := 1 }]).2.1 = [{ w with cls := 1 }] ∧
    after (exec (.shroudForward 1 0 msg) d) (fun t => (t.sport 0).waiting = [w]) = true ∧ after (exec (.shroudForward 1 0 msg) n) (fun t => t.sent = []) = true ∧
    after (exec (.replayRequest q) k) (fun t => Sparse.get t.snap.cnt 0x10118 = 2 ^ 32 + 2 ∧ (t.sport 0).up = true ∧ (t.sport 0).kept = [.forward { msg with dst := 2 }]) = true ∧
    after (exec (.replayRequest { q with burst := true }) u) (fun t => (t.sport 0).up = false ∧ (t.sport 0).training = true) = true ∧
    after (exec (.replayRequest { q with here := true, uncorr := true }) u) (fun t => Sparse.get t.snap.cnt 0x10118 = 2 ^ 16 + 2 ∧ t.sent = [(0, .replay)]) = true ∧
    after (exec (.laneLockLoss 0) u) (fun t => (t.sport 0).up = false ∧ (t.sport 0).window = true ∧ (t.sport 0).training = true) = true := by decide +kernel

theorem test_LinksCarryAndTrain_trains :
    let s := linked fun x => { x with training := true, trainFull := true, plugged := true, waiting := [{ msg := .linkLost 1 2, cls := 1, src := none }] }
    let r : TrainResult := { peerNode := 1, peerPort := 1, peerV3 := true, lat := 9, rtt := 2048 }
    (s.sport 0).training = true ∧ r.peerNode = s.wantedPeer 0 ∧ r.peerPort.toNat = Nat.xor (0 : Fin 16).val 1 ∧ ((linked id).sport 0).plugged = false ∧ ((linked id).sport 0).en = true ∧ s.portUsed 0 = true ∧ s.pow.aoOn = true ∧
    after (exec (.trainingComplete 0 r) s) (fun t => (t.sport 0).up = true ∧ (t.sport 0).ver = 3 ∧ (t.sport 0).rtt = 2048) = true ∧
    after (exec (.trainingComplete 0 { r with rtt := 2049 }) s) (fun t => (t.sport 0).training = true ∧ (t.sport 0).up = false) = true ∧
    after (exec (.trainingComplete 0 { r with peerV3 := false }) s) (fun t => (t.sport 0).training = false ∧ (t.sport 0).downv2 = true) = true ∧
    after (exec (.trainingComplete 0 { r with peerNode := 2 }) s) (fun t => (t.sport 0).up = false ∧ (t.sport 0).miscable = true) = true ∧
    after (exec (.plugDetect 0 true) (linked id)) (fun t => (t.sport 0).plugged = true ∧ (t.sport 0).training = true) = true ∧
    after (exec (.plugDetect 0 false) (linked fun x => { x with up := true })) (fun t => (t.sport 0).up = false ∧ (t.sport 0).window = true) = true ∧
    after (exec (.shrPctlRetrain 0) (linked fun x => { x with stuck := true })) (fun t => (t.sport 0).up = false ∧ (t.sport 0).trainFull = true) = true := by
  decide +kernel

/-- A planes port comes up at version 2. -/
theorem test_LinksCarryAndTrain_planes :
    let s := { (linked fun x => { x with training := true, v2only := true }) with shrCfg := { ShrCfg.reset with size0 := 3, planes := true } }
    s.shrCfg.planes = true ∧ s.portUsed 0 = true ∧ s.portUsed 8 = false ∧ (s.sport 0).peerKnown = false ∧
    after (exec (.trainingComplete 0 { peerNode := 1, peerPort := 1, peerV3 := true, lat := 9, rtt := 1 }) s) (fun t => (t.sport 0).up = true ∧ (t.sport 0).ver = 2) = true := by decide +kernel

/-- A ring of 4 whose job slot 1 runs job 9 on nodes 0 and 1, and slot 2 job 8 on node 0 alone; mast 0 belongs to slot 1. -/
def jobs : State := ((((linked fun x => { x with window := true, linkNode := 1 }).modSport 2 fun x => { x with up := true }).modJob 1 fun j =>
  { j with valid := true, jobid := 9, jblk := 0x10000 }).modJob 2 fun j => { j with valid := true, jobid := 8 }).modMast 0 fun x => { x with jvalid := true, jslot := 1 }

/-- Whether a slot is fenced, its reason and its fault kind. -/
def fencing (t : State) (j : JobSlot) : Bool × BitVec 3 × Bool × BitVec 4 := ((t.job j).fenced, (t.job j).reason, (t.job j).fltValid, (t.job j).fltKind)

theorem test_LostLinksAndFaultsFenceJobs_links :
    let s := jobs
    inBlock s.shrCfg (s.job 1).jblk 1 = true ∧ inBlock s.shrCfg (s.job 2).jblk 1 = false ∧ (s.sport 0).window = true ∧ (s.sport 0).up = false ∧ (s.sport 2).up = true ∧
    after (exec (.linkLossWindowExpiry 0) (s.modSport 2 fun x => { x with up := false })) (fun t => (t.sport 0).lost = true ∧ fencing t 1 = (true, 1, true, 9) ∧
      fencing t 2 = (false, 0, false, 0)) = true ∧
    ((0 : BitVec 14), (1 : BitVec 14)) ∉ s.seenLost ∧ ((1 : BitVec 14), (0 : BitVec 14)) ∉ s.seenLost ∧
    after (exec (.linkLostNotice 2 0 1) s) (fun t => t.seenLost = [(0, 1)] ∧ fencing t 1 = (true, 2, true, 9)) = true ∧
    after (exec (.linkLostNotice 2 1 0) { s with seenLost := [(0, 1)] }) (fun t => fencing t 1 = (false, 0, false, 0)) = true := by decide +kernel

theorem test_LostLinksAndFaultsFenceJobs_faults :
    let s := { jobs with flts := [{ m := 0, e := 3, kind := 2 }] }
    (s.mast 0).jvalid = true ∧ s.flts = [] ++ { m := 0, e := 3, kind := 2 } :: [] ∧ (s.job 1).valid = true ∧ (s.job 1).fenced = false ∧
    after (exec (.fenceNotice 9 true) s) (fun t => fencing t 1 = (true, 3, true, 10) ∧ fencing t 2 = (false, 0, false, 0)) = true ∧
    after (exec (.fenceNotice 9 false) s) (fun t => fencing t 1 = (true, 3, false, 0)) = true ∧
    after (exec (.jobFaultMessage 0) s) (fun t => fencing t 1 = (true, 4, true, 2) ∧ (t.job 1).fltEng = 3 ∧ (t.job 1).fltCnt = 1 ∧ t.flts = []) = true ∧
    after (exec (.shrJctlFence 1) s) (fun t => fencing t 1 = (true, 4, false, 0) ∧ (t.mast 0).vec.stopReq = true ∧ (c0 t).ipend = 0x200 ∧
      (t.sport 0).waiting.map (·.msg) = [OutMsg.fence 9 false 1]) = true := by decide +kernel

/-- A channel of masts 0 and 5 on this module: two FP32 elements at 0x0 summed to 0x1000, staging at 0x2000, DONE to slot 1 of engine 0. -/
def chanDesc (mode : Nat) : Desc := words [mode + 2 ^ 4 + 2 ^ 13 + 1 * 2 ^ 10, 2 + 1 * 2 ^ 32, 0x1000 * 2 ^ 32, 0x2000, 33]

/-- Channel 63 with that descriptor. -/
def channel (mode : Nat) (f : Chan → Chan) : State := withJob.modChan 63 fun x => f { x with desc := chanDesc mode, count := 2 }

/-- A rank at work. -/
def rank (m : MastId) (g : Nat) (p : RankPhase) (val : List Nat) : Rank := { m := m, g := g, seg := 0, lvl := 0, phase := p, val := val }

theorem test_ChannelsReduce_starts :
    (∀ k : Fin 3, let s := channel k.val id
      (s.chan 63).st = 0 ∧ cdMode (s.chan 63).desc = k.val ∧ cdMasts (s.chan 63).desc = [0, 5] ∧ 2 ≤ (s.chan 63).count.toNat ∧ (s.job (s.chan 63).jslot).valid = true ∧
      (s.job (s.chan 63).jslot).fenced = false ∧ (s.chan 63).early = [] ∧
      s.chanBad (s.chan 63).desc = false ∧ badToken (cdDone (s.chan 63).desc 5) = false ∧
      after (exec (if k = 0 then .allreduceRun 63 else if k = 1 then .reduceRun 63 else .broadcastRun 63) s) (fun t => (t.chan 63).st = 1 ∧ (t.chan 63).run = 1 ∧
        (t.chan 63).count = 0 ∧ (t.chan 63).ranks.map (fun r => (r.m, r.g)) = [(0, 0), (5, 1)]) = true) ∧
    (let s := (channel 0 id).modChan 63 fun x => { x with desc := words [0, 0, 0, 0, 33] ||| 0x400 };
      s.chanBad (s.chan 63).desc = true ∧ (cdMasts (s.chan 63).desc).length ≤ (s.chan 63).count.toNat ∧ after (exec (.allreduceRun 63) s) (fun t => (t.chan 63).st = 2 ∧ (t.chan 63).fault = 1 ∧ (t.job 1).fenced = true) = true) := by
  decide +kernel

theorem test_ChannelsReduce_segments :
    let s := channel 0 fun x => { x with st := 1, run := 4, ranks := [rank 0 0 .load [], rank 5 1 .load []] }
    let f := s.modChan 63 fun x => { x with staged := (fins 4).map fun k => { dst := 1, src := 3, seg := 0, place := k, len := 2 } }
    let e : SegMsg := { plane := 0, run := 4, key := chanKey (chanDesc 0), node := 0, jobid := 9, src := 3, dst := 1, seg := 0, data := [1, 2] }
    s.accepts e.node e.jobid = true ∧ e.jobid = (s.job (s.chan 63).jslot).jobid ∧ (s.chan 63).st = 1 ∧ e.run = (s.chan 63).run ∧ e.key = chanKey (s.chan 63).desc ∧ (s.chan 63).staged = [] ∧
    (s.chan 63).ranks = [rank 0 0 .load []] ++ rank 5 1 .load [] :: [] ∧ (rank 5 1 .load []).g = e.dst ∧ (s.chan 63).early = [] ∧
    (∀ k : Fin 4, ∃ q ∈ (f.chan 63).staged, q.dst = e.dst ∧ q.place = k) ∧ after (exec (.channelSegment 63 e) f) (fun t => t.chan 63 = f.chan 63) = true ∧
    after (exec (.channelSegment 63 { e with key := chanKey (chanDesc 1) }) s) (fun t => (t.chan 63).st = 2 ∧ (t.chan 63).fault = 2) = true := by decide +kernel

theorem test_ChannelsReduce_works :
    let r1 := fun (p : RankPhase) (v : List Nat) => channel 0 fun x => { x with st := 1, ranks := [rank 0 0 .load [], rank 5 1 p v] }
    let u : Staged := { dst := 0, src := 1, seg := 0, place := 2, len := 8 }
    let at' := fun (k : Nat) => sliceAddr 0 (0x2000 + 0x8000 * 2 + k)
    let up' := { (channel 0 fun x => { x with st := 1, ranks := [rank 0 0 .up [0x3F800000, 0x3F800000]], staged := [u] }) with
      ram := [(at' 2, 0x80), (at' 3, 0x3F), (at' 7, 0x40)] }
    let wr := channel 1 fun x => { x with st := 1, ranks := [rank 0 0 .write [0x40000000, 0]] }
    let dn := channel 0 fun x => { x with st := 1, ranks := [rank 0 0 .done [], rank 5 1 .done []] }
    ((r1 .load []).chan 63).ranks = [rank 0 0 .load []] ++ rank 5 1 .load [] :: [] ∧ (r1 .load []).badWords (sliceAddr 5 0) 8 = false ∧
    (up'.chan 63).staged = [] ++ u :: [] ∧ u.src = 0 + 2 ^ 0 ∧ (∀ r ∈ (dn.chan 63).ranks, r.phase = .done) ∧ ((r1 .sendUp []).chan 63).staged = [] ∧
    after (exec (.channelCommand 63 5) { (r1 .load []) with ram := [(sliceAddr 5 2, 0x80), (sliceAddr 5 3, 0x3F)] }) (fun t =>
      (t.chan 63).ranks.map (fun r => (r.val, r.phase)) = [([], .load), ([0x3F800000, 0], .sendUp)]) = true ∧
    ((r1 .sendUp []).chan 63).ranks = [] ++ rank 0 0 .load [] :: [rank 5 1 .sendUp []] ∧ (rank 0 0 .load []).g = 1 - 2 ^ 0 ∧ ((r1 .sendUp []).chan 63).early = [] ∧
    after (exec (.channelCommand 63 0) up') (fun t => (t.chan 63).ranks.map (fun r => r.val) = [[0x40000000, 0x40400000]] ∧ (t.chan 63).staged = []) = true ∧
    after (exec (.channelCommand 63 0) wr) (fun t => t.ram = [(sliceAddr 0 0x1003, 0x40)] ∧ (t.chan 63).ranks.map (fun r => r.phase) = [.done]) = true ∧
    after (exec (.channelRunComplete 63) dn) (fun t => (t.chan 63).st = 0 ∧ t.posts.map (fun p => p.addr) = [1, 0xA01]) = true ∧
    after (exec (.rcCtlDiscard 63) dn) (fun t => (t.chan 63).st = 0 ∧ (t.chan 63).ranks = [] ∧ (t.chan 63).desc = chanDesc 0) = true := by decide +kernel

/-! ## Host ports -/

/-- The physical function of port 0. -/
abbrev pf : FnId := ⟨0, 0⟩

/-- A 64-byte entry of job 9: type 3, opcode, FLAGS 0, CID 7, then ARGS. -/
def entry (op : Byte) (args : List Byte) : List Byte := ([3, op, 0, 0, 7, 0, 0, 0, 9, 0, 0, 0, 0, 0, 0, 0] ++ args ++ List.replicate 48 0).take 64

/-- A command of the admin queue that has been fetched. -/
def hcmd (op : Byte) (args : List Byte) : HCmd :=
  { ref := { fn := pf, q := none, cid := 7 }, ver := 0x301, entry := entry op args, sqHead := 1, seq := 4, fence := true, started := false, step := 0, status := none, silent := false, pas := [] }

/-- Its reference. -/
abbrev r0 : CmdRef := { fn := pf, q := none, cid := 7 }

/-- The module with port 0 ready, its functions at version 3.1 with one completion queue, and commands in work. -/
def hosted (cmds : List HCmd) (f : Hosts → Hosts) : State := ((core id).modHport 0 fun p =>
  { p with linkUp := true, perst := false, hsig := .ready, causeReset := false
           fns := Vector.replicate 17 { Fn.reset with ver := 0x301, cqs := [Cq.fresh 2 0 16], asqTail := 1 } }).modHosts fun h => f { h with cmds := cmds }

/-- The status of the first command. -/
def status (t : State) : Option (BitVec 8) := t.hosts.cmds.head?.bind fun c => c.status

/-- A created queue. -/
def sq5 : Sq := { qid := 5, fn := pf, base := 0x8000, sz := 16, cq := 2, head := 3, tail := 3, stopped := false }

/-- CREATE_SQ 5 at 0x8000 of 16 entries to completion queue 2. -/
def createArgs (qid : Byte) (hi : Byte) : List Byte := [qid, 0, hi, 0, 0, 0x80, 0, 0, 0, 0, 0, 0, 4, 2, 0]

theorem test_QueueCommandsComplete_sq :
    let c := hcmd 0x40 (createArgs 5 0)
    let s := hosted [c] id
    let u := hosted [c] fun h => { h with sqs := [sq5] }
    let o := hosted [hcmd 0x40 (createArgs 5 8)] id
    let d := hosted [hcmd 0x41 [5]] fun h => { h with sqs := [sq5] }
    let w := hosted [hcmd 0x41 [5], { hcmd 0 [] with ref := { fn := pf, q := some 5, cid := 8 } }] fun h => { h with sqs := [sq5] }
    s.hosts.cmds = [] ++ c :: [] ∧ eb c.entry 1 1 = 0x40 ∧ c.arg 0 4 = 5 ∧ s.hosts.ownerOf 5 = pf ∧ o.hosts.ownerOf (5 + 8 * 2 ^ 16) ≠ pf ∧
    ringOk (c.arg 4 8) (c.arg 12 1) (entryLen (s.hfn pf).major) = true ∧ ((s.hfn pf).cqs.any fun k => decide (k.num.toNat = c.arg 13 2)) = true ∧
    (∃ q ∈ u.hosts.sqs, q.qid.toNat = 5) ∧ (∀ e ∈ d.hosts.cmds, e.ref.q.map (·.toNat) ≠ some 5) ∧ (∃ e ∈ w.hosts.cmds, e.ref.q.map (·.toNat) = some 5) ∧
    after (exec (.createSq r0) s) (fun t => status t = some 0 ∧ t.hosts.sqs = [{ sq5 with head := 0, tail := 0 }]) = true ∧
    after (exec (.createSq r0) u) (fun t => status t = some 6) = true ∧ after (exec (.createSq r0) o) (fun t => status t = some 4) = true ∧
    after (exec (.deleteSq r0) d) (fun t => status t = some 0 ∧ t.hosts.sqs = []) = true ∧
    after (exec (.deleteSq r0) w) (fun t => status t = none ∧ t.hosts.sqs = [sq5]) = true := by decide +kernel

theorem test_QueueCommandsComplete_cq :
    let c := hcmd 0x42 [3, 0, 0, 0x80, 0, 0, 0, 0, 0, 0, 4]
    let s := hosted [c] id
    let d := hosted [hcmd 0x43 [2]] id
    let u := hosted [hcmd 0x43 [2]] fun h => { h with sqs := [sq5] }
    let g := hosted [hcmd 0x44 [0, 1, 0, 0, 16, 0, 0, 0, 16]] fun h => { h with sqs := [{ sq5 with qid := 0x105 }] }
    let v := (hosted [hcmd 0x44 [0, 1, 0, 0, 1, 0, 1, 0, 16]] id).modFn ⟨0, 16⟩ fun x => { x with ver := 0x203 }
    ringOk (c.arg 2 8) (c.arg 10 1) 16 = true ∧ (∀ k ∈ (s.hfn pf).cqs, k.num.toNat ≠ 3) ∧ (∃ k ∈ (d.hfn pf).cqs, k.num.toNat = 2) ∧
    (∃ q ∈ u.hosts.sqs, q.fn = pf ∧ q.cq.toNat = 2) ∧ g.hosts.grants = [] ∧ (hcmd 0x44 []).major ≠ 2 ∧ (g.hfn ⟨0, 16⟩).major ≠ 2 ∧ (v.hfn ⟨0, 16⟩).major = 2 ∧
    after (exec (.nop r0) (hosted [hcmd 0 []] id)) (fun t => status t = some 0) = true ∧
    after (exec (.createCq r0) s) (fun t => status t = some 0 ∧ (t.hfn pf).cqs = [Cq.fresh 2 0 16, Cq.fresh 3 0x8000 16]) = true ∧
    after (exec (.deleteCq r0) d) (fun t => status t = some 0 ∧ (t.hfn pf).cqs = []) = true ∧ after (exec (.deleteCq r0) u) (fun t => status t = some 6) = true ∧
    after (exec (.grantQids r0) g) (fun t => status t = some 0 ∧ t.hosts.grants = [{ first := 256, count := 16, fn := ⟨0, 16⟩ }]) = true ∧
    after (exec (.grantQids r0) v) (fun t => status t = some 3 ∧ t.hosts.grants = []) = true := by decide +kernel

theorem test_QueueCommandsComplete_invalidate :
    let c := hcmd 4 [0xA, 0, 0, 0, 0, 0, 0, 0, 0, 0, 1]
    let s := hosted [c] id
    c.arg 0 8 % 4 ≠ 3 ∧ c.arg 0 8 / 2 ^ 34 = 0 ∧ s.invs = [] ∧
    after (exec (.invalidate r0) s) (fun t => status t = none ∧ t.invs.map (fun i => (i.scope, i.asid, i.va, i.host)) = [(2, 2, 1, some r0)]) = true := by decide +kernel

theorem test_QueueCommandsComplete_fetch :
    let s := hosted [] id
    (s.hfn pf).ver = 0x301 ∧ s.fetchNext 0 = some (⟨0, 1⟩, 0) ∧
    after (exec (.sqFetch ⟨0, 1⟩ none (entry 0 [])) s) (fun t => t.hosts.cmds.map (fun c => (c.ref.cid, c.status, c.sqHead)) = [(7, none, 1)] ∧ (t.hfn ⟨0, 1⟩).asqHead = 1) = true ∧
    after (exec (.sqFetch ⟨0, 1⟩ none (2 :: (entry 0 []).drop 1)) s) (fun t => status t = some 1) = true ∧
    after (exec (.sqFetch ⟨0, 2⟩ none (entry 0 [])) s) (fun t => t.hosts.cmds = []) = true := by decide +kernel

theorem test_QueueCommandsComplete_completion :
    let c := { hcmd 0 [] with status := some 4, started := true }
    let s := (hosted [c] id).modFn pf fun x => { x with acq := { x.acq with tail := 15, head := 3 }, acqBase := 1 }
    s.hosts.cmds = [] ++ c :: [] ∧ c.status = some 4 ∧ (s.hfn pf).acq.hold = [] ∧ 2 ^ (s.hfn pf).acqSz.toNat = 16 ∧
    after (exec (.commandCompletion r0) s) (fun t => t.hosts.cmds = [] ∧ (t.hfn pf).acq.tail = 0 ∧ (t.hfn pf).acq.phase = false ∧
      Mem.bytes (t.hport 0).mem 0x10F0 16 = [7, 0, 0, 0, 0, 0, 0, 4, 1, 0, 0, 0, 0, 0, 0, 1]) = true := by decide +kernel

/-- Job 9 in slot 1 of the physical function of port 0 on mast 0, with VA 0x10000 mapped to canvas of mast 0. -/
def jobHost (cmds : List HCmd) (f : Job → Job) (g : Mast → Mast) : State :=
  { (((hosted cmds id).modJob 1 fun j => f { j with valid := true, jobid := 9, owner := some pf, masts := 1, loaded := true, startPc := 0x40 }).modMast 0 fun x =>
      g { x with jvalid := true, jslot := 1, xl := { x.xl with root := 0x10 }, core := { x.core with halted := true } }) with
    ram := Mem.store (Mem.store (Mem.store (Mem.store [] 0x4000 8 0x8001) 0x8000 8 0xC001) 0xC000 8 0x10001) 0x10008 8 (0x3000000000 + 0xF) }

theorem test_JobCommandsComplete_refused :
    let at' := fun (op : Byte) (args : List Byte) => jobHost [{ hcmd op args with entry := (entry op args).set 8 8 }] id id
    (at' 3 [1]).cmdJob { hcmd 3 [1] with entry := (entry 3 [1]).set 8 8 } = none ∧
    after (exec (.postCmd r0) (at' 3 [1])) (fun t => status t = some 4 ∧ t.posts = []) = true ∧ after (exec (.copyIn r0 [1]) (at' 1 [])) (fun t => status t = some 4) = true ∧
    after (exec (.jobStart r0) (at' 5 [1])) (fun t => status t = some 4) = true := by decide +kernel

theorem test_JobCommandsComplete_acts :
    let p := jobHost [hcmd 3 [1]] id id
    let st := jobHost [hcmd 5 [1]] id id
    let fe := jobHost [hcmd 5 [2]] id id
    let en := fun (k : Nat) => jobHost [{ hcmd 5 [3] with step := k }] (fun j => { j with fenced := true }) fun x => { x with
      vec := { x.vec with stopped := true }, arr := x.arr.map fun a => { a with stopped := true }, sheet := { x.sheet with stopped := true }, hal := { x.hal with stopped := true } }
    p.cmdJob (hcmd 3 [1]) = some 1 ∧ badToken (BitVec.ofNat 32 ((hcmd 3 [1]).arg 0 4)) = false ∧ (slotOf 1).bind p.slotJob = some 1 ∧ (st.job 1).loaded = true ∧
    (st.job 1).started = false ∧ ((en 0).mast 0).enginesStopped = true ∧ (c0 (en 0)).halted = true ∧ ((en 0).job 1).fenced = true ∧ ((en 2).mast 0).dc.flushing = false ∧
    after (exec (.postCmd r0) p) (fun t => t.posts = [{ addr := 1, src := .host 0, seq := 4 }] ∧ status t = none) = true ∧
    after (exec (.jobStart r0) st) (fun t => (c0 t).halted = false ∧ (c0 t).npc = 0x40 ∧ (c0 t).level = 1 ∧ (t.job 1).started = true) = true ∧
    after (exec (.jobFence r0) fe) (fun t => (t.job 1).fenced = true ∧ (t.mast 0).hal.stopReq = true) = true ∧
    after (exec (.jobEnd r0) (en 0)) (fun t => status t = none ∧ (t.job 1).valid = true ∧ t.invs.map (fun i => (i.scope, i.host)) = [(1, some r0)] ∧
      t.hosts.cmds.map (·.step) = [1]) = true ∧
    after (exec (.jobEnd r0) (en 2)) (fun t => status t = some 0 ∧ (t.job 1).valid = false ∧ (t.mast 0).jvalid = false) = true := by decide +kernel

theorem test_JobCommandsComplete_copies :
    let ci := hcmd 1 [0, 0, 0, 0, 0, 0, 0, 0, 4, 0, 1, 0, 0, 0, 0, 0, 2]
    let co := hcmd 2 [4, 0, 1, 0, 0, 0, 0, 0, 0, 0x20, 0, 0, 0, 0, 0, 0, 2]
    let s := jobHost [ci] id id
    let u := { (jobHost [co] id id) with ram := Mem.put s.ram 0x3000000004 [0xAB, 0xCD] }
    let w : HCmd := { co with step := 1, pas := [(0x4000000010, 2)] }
    let f := (paired (jobHost [w] id id)).modJob 1 fun j => { j with jblk := 0x10000 }
    (s.jobXl 1).map (·.root) = some 0x10 ∧ (ci.copyArgs false).len = 2 ∧ ci.copyMax = 2 ^ 32 ∧ s.isOwn 0x3000000004 = true ∧
    (s.copyXlate 0 1 { Xl.reset with root := 0x10 } true [(0x10004, 2)]).2 = some (some [(0x3000000004, 2)]) ∧ w.step = 1 ∧
    after (exec (.copyIn r0 [0xAB, 0xCD]) s) (fun t => status t = some 0 ∧ Mem.bytes t.ram 0x3000000004 2 = [0xAB, 0xCD]) = true ∧
    after (exec (.copyOut ⟨r0, answer [], true⟩) u) (fun t => status t = some 0 ∧ (t.hport 0).mem = [(0x2000, 0xAB), (0x2001, 0xCD)]) = true ∧
    after (exec (.copyOut ⟨r0, answer [], false⟩) u) (fun t => status t = some 9) = true ∧
    after (exec (.copyOut ⟨r0, answer [5, 6], true⟩) f) (fun t => status t = some 0 ∧ (t.hport 0).mem = [(0x2000, 5), (0x2001, 6)]) = true ∧
    after (exec (.copyOut ⟨r0, { answer [] with jobid := 8 }, true⟩) f) (fun t => status t = some 8 ∧ (t.job 1).fenced = true) = true := by decide +kernel

/-- LOAD into slot 2 of mast 0 with ASID 3, START_PC 0x40, an image of 1 KiB and tables at 0x4000. -/
theorem test_JobCommandsComplete_load :
    let args : List Byte := [0, 2, 3, 0, 0x40, 0, 0, 1, 0, 0, 0, 0, 0, 0, 0, 0, 1, 0, 0, 0, 0, 0, 0, 0, 0, 0, 0, 0, 0, 0, 0, 0, 0, 0x40]
    let b := (hosted [hcmd 5 args] id).modCore 0 fun c => { c with halted := true }
    let s := (hosted [{ hcmd 5 args with step := 2 }] id).modCore 0 fun c => { c with halted := true }
    let a := loadArgs (entry 5 args |>.drop 16)
    a.imlen = 1 ∧ a.root = 0x10 ∧ a.jslot = 2 ∧ maskMasts a.masts = [0] ∧ (s.job 2).valid = false ∧ (s.mast 0).jvalid = false ∧ (c0 s).halted = true ∧
    (s.mast 0).dc.flushing = false ∧ b.invs = [] ∧
    after (exec (.jobLoad r0 [] []) b) (fun t => status t = none ∧ (t.job 2).valid = false ∧ t.invs.map (fun i => (i.scope, i.asid)) = [(1, 3)] ∧ t.hosts.cmds.map (·.step) = [1]) = true ∧
    after (exec (.jobLoad r0 (0x12 :: List.replicate 1023 0) []) s) (fun t => status t = some 0 ∧ (t.job 2).jobid = 9 ∧ (t.job 2).valid = true ∧ (c0 t).imem = [(0, 0x12)] ∧
      (t.mast 0).xl.root = 0x10 ∧ (t.mast 0).xl.asid = 3 ∧ (t.mast 0).jslot = 2 ∧ (t.job 2).startPc = 0x40) = true := by decide +kernel

theorem test_HostPortsSignalAndReset_registers :
    let s := hosted [] fun h => { h with sqs := [sq5], resident := [(pf, false, 5), (pf, true, 2)] }
    let z := s.modFn pf fun x => { x with ver := 0 }
    let o := s.modFn pf fun x => { x with ovfDue := true }
    (z.hfn pf).ver = 0 ∧ (s.hport 0).linkUp = true ∧ s.accepting pf = true ∧ s.hosts.ownerOf 0x80000 ≠ pf ∧ s.hosts.ownerOf 5 = pf ∧ sq5.stopped = false ∧
    tailBad 16 3 3 2 = false ∧ tailBad 16 3 3 16 = true ∧ tailBad 16 1 1 0 = false ∧ (o.hfn pf).ovfDue = true ∧
    after (exec (.hostVerReq pf 0x200) z) (fun t => (t.hfn pf).ver = 0x200) = true ∧ after (exec (.hostVerReq pf 0x302) z) (fun t => (t.hfn pf).verErr = true) = true ∧
    after (exec (.doorbell pf (5 + 2 * 2 ^ 20)) s) (fun t => t.hosts.sqs = [{ sq5 with tail := 2 }]) = true ∧
    after (exec (.doorbell pf (5 + 16 * 2 ^ 20)) s) (fun t => t.hosts.sqs = [{ sq5 with stopped := true }]) = true ∧
    after (exec (.doorbell pf 0x80000) s) (fun t => (t.hfn pf).dbOwn = 1) = true ∧ after (exec (.adminDoorbell pf 15) s) (fun t => (t.hfn pf).asqTail = 15) = true ∧
    after (exec (.cqDoorbell pf 2) s) (fun t => (t.hfn pf).cqs.map (·.head) = [0]) = true ∧
    after (exec (.hostEvtCtl pf 11) s) (fun t => (t.hfn pf).arm = true ∧ (t.hfn pf).evHead = 5) = true ∧
    after (exec (.hostEvtCtl pf 10) o) (fun t => (t.hfn pf).ovfDue = false ∧ (t.hfn pf).evTail = 1) = true := by decide +kernel

theorem test_HostPortsSignalAndReset_pin :
    let at' := fun (g : Hsig) (a : Bool) => (hosted [] id).modHport 0 fun p => { p with hsig := g, attnReq := a }
    let b := (at' .busy false).modHport 0 fun p => { p with causeReset := true, linkUp := false }
    ((at' .ready true).hport 0).hsig = .ready ∧ ((at' .busy false).hport 0).causeReset = false ∧ up.boot.fwBusy = false ∧ up.svc.strike = .idle ∧ up.pow.hotDrain = false ∧
    (b.hport 0).causeReset = true ∧ b.boot.stage = 5 ∧
    after (exec (.attentionPulse 0) (at' .ready true)) (fun t => (t.hport 0).hsig = .pulse) = true ∧
    after (exec (.attentionPulseEnd 0) (at' .pulse false)) (fun t => (t.hport 0).hsig = .gap) = true ∧
    after (exec (.attentionPulseEnd 0) (at' .gap true)) (fun t => (t.hport 0).hsig = .pulse) = true ∧
    after (exec (.attentionPulseEnd 0) (at' .gap false)) (fun t => (t.hport 0).hsig = .ready) = true ∧
    after (exec (.busyEnd 0) (at' .busy false)) (fun t => (t.hport 0).hsig = .gap) = true ∧ after (exec (.busyEnd 0) b) (fun t => (t.hport 0).hsig = .busy) = true ∧
    after (exec (.portReady 0) b) (fun t => (t.hport 0).linkUp = true ∧ (t.hport 0).causeReset = false ∧ (t.hport 0).hsig = .gap) = true := by decide +kernel

theorem test_HostPortsSignalAndReset_resets :
    let s := jobHost [hcmd 0 []] id id
    let v := s.modHosts fun h => { h with sqs := [sq5, { sq5 with qid := 6, fn := ⟨0, 16⟩ }], grants := [{ first := 6, count := 1, fn := ⟨0, 16⟩ }] }
    (v.hport 0).linkUp = true ∧
    after (exec (.functionLevelReset ⟨0, 16⟩) v) (fun t => t.hosts.sqs = [sq5] ∧ t.hosts.grants = [] ∧ (t.hport 0).hsig = .busy ∧ (t.hfn pf).ver = 0x301 ∧ (t.job 1).fenced = false) = true ∧
    after (exec (.hotReset 0) v) (fun t => t.hosts.sqs = [] ∧ t.hfn pf = Fn.reset ∧ (t.job 1).fenced = true ∧ t.hosts.cmds.all (·.silent) = true) = true ∧
    after (exec (.portLinkDown 0) v) (fun t => (t.hport 0).linkUp = false) = true ∧ after (exec (.perstAssert 0) v) (fun t => (t.hport 0).perst = true) = true := by decide +kernel


/-! ## Power, panel, start-up and register writes -/

/-- The module with power changed by `f`. -/
def powered (f : Power → Power) : State := withJob.modPow f

/-- A command's answer holds every job fenced and both ports busy. -/
def allBusy (t : State) : Bool := decide ((∀ h : HostPort, (t.hport h).hsig = .busy) ∧ ∀ j : JobSlot, (t.job j).valid = true → (t.job j).fenced = true)

theorem test_PowerFollowsItsRules_snapshot :
    let s := powered id
    let w := (powered fun p => { p with tree := .snap [.engine 0 3, .die 1] }).modSnap fun x => { x with busy := true, seq := 5, markers := [markerNum 7 4 2, 9], infl := [(7 * 6 + 4, 0x1_2222_3333)] }
    let d := (powered fun p => { p with tree := .snap [.die 1, .slice 1 2] }).modDie 1 fun x => { x with cnt := [(0x100000, 4), (0x300200, 5)] }
    s.pow.aoOn = true ∧ s.pow.compOn = true ∧ s.snap.busy = false ∧ s.pow.tree = .idle ∧ s.pow.changing = false ∧ s.pow.govWait = false ∧ w.snap.busy = true ∧
    w.pow.tree = .snap [.engine 0 3, .die 1] ∧ d.pow.tree = .snap [.die 1, .slice 1 2] ∧
    Sparse.wf w.snap.infl = true ∧ markerNum 7 4 2 ∈ w.snap.markers ∧ (∀ u ∈ markerFrom 7 4, u ∉ w.pow.snapDue) ∧ snapWith (.die 1) (.slice 1 2) = true ∧
    after (exec .snapCtlReq s) (fun t => t.snap.busy = true ∧ t.snap.seq = 1 ∧ t.pow.tree = .snap snapUnits) = true ∧ gives (exec .snapCtlReq w) w = true ∧
    after (exec (.snapshotToken (.engine 0 3)) w) (fun t => t.pow.tree = .snap [.die 1] ∧ (t.mast 0).snapTag = 5) = true ∧
    after (exec (.snapshotToken (.die 1)) d) (fun t => t.pow.tree = .snap [.slice 1 2] ∧ (t.die 1).shadow = [(0x100000, 4)] ∧ (t.die 1).snapTag = 0) = true ∧
    after (exec (.snapMarker 7 4 2 3) w) (fun t => t.snap.markers = [9] ∧ t.snap.busy = true ∧ t.snap.infl = [(7 * 6 + 4, 0x3_2222_3333)]) = true := by decide +kernel

theorem test_PowerFollowsItsRules_trim :
    let s := powered id
    let w := powered fun p => { p with tree := .trim true [], trimReq := 2, changing := true }
    let u := powered fun p => { p with tree := .trim true [.vec 3, .sheet 3], changing := true }
    let g := powered fun p => { p with below := 3, gov := 8 }
    s.boot.stage ≠ 6 ∧ s.pow.changing = false ∧ s.pow.tree = .idle ∧ w.pow.tree = .trim true [] ∧ w.pow.govWait = false ∧ w.pow.snapWait = false ∧
    u.pow.tree = .trim true [.vec 3, .sheet 3] ∧ u.pow.changing = true ∧ (g.pow.cap.toNat < 1401 ∨ 100 < g.pow.tmax.toNat) ∧
    ¬(g.pow.cap.toNat < 1349 ∨ 100 < g.pow.tmax.toNat) ∧ 1349 + 50 < g.pow.cap.toNat ∧ g.pow.below = 3 ∧
    gives (exec (.trimApply (.vec 3)) u) (u.modPow fun q => { q with tree := .trim true [.sheet 3] }) = true ∧
    gives (exec .trimChangeDone w) (w.modPow fun q => { q with tree := .idle, trimCur := 2, changing := false, cap := 1800 }) = true ∧
    gives (exec (.pwrTrimReq 1) s) (s.modPow fun q => { q with trimReq := 1, changing := true, tree := .trim true trimUnits }) = true ∧ gives (exec (.pwrTrimReq 1) u) u = true ∧
    after (exec (.governorWindow 5000 1000 1401) g) (fun t => t.pow.gov = 8 ∧ t.pow.overcap = true ∧ t.pow.below = 0 ∧ t.pow.pin = 1401) = true ∧
    after (exec (.governorWindow 5000 1000 1349) g) (fun t => t.pow.gov = 7 ∧ t.pow.overcap = false ∧ t.pow.below = 0) = true ∧
    after (exec (.governorWindow 5000 1000 1350) g) (fun t => t.pow.gov = 8 ∧ t.pow.below = 0) = true := by decide +kernel

theorem test_PowerFollowsItsRules_limits :
    let s := powered id
    let f := powered fun p => { p with compOn := false }
    s.pow.hotDrain = false ∧ (s.job 1).valid = true ∧ f.pow.compOn = false ∧ f.pow.aoOn = true ∧
    after (exec (.thermalReading 111) s) (fun t => t.pow.tmax = 111 ∧ t.pow.thermal = true ∧ t.pow.hotDrain = true ∧ allBusy t = true) = true ∧
    gives (exec (.thermalReading 110) s) (s.modPow fun q => { q with tmax := 110, thermal := true, cool := 0 }) = true ∧
    (∀ i ∈ [Instr.vinLow, .vinHigh, .iinHigh, .iinTrip], after (exec i s) (fun t => t.pow.compOn = false ∧ t.pow.infault = true ∧ t.pow.inSwitch = decide (i ≠ .iinTrip) ∧
      (t.job 1).valid = false ∧ (t.mast 0).core.halted = true) = true) ∧
    gives (exec .vinLow f) (f.modPow fun q => { q with infault := true }) = true ∧ gives (exec .iinTrip f) (f.modPow fun q => { q with infault := true, inSwitch := false }) = true ∧
    after (exec .standbyLoss (s.modBoot fun b => { b with fuseCn := 4 })) (fun t => t.pow.aoOn = false ∧ t.pow.compOn = false ∧ t.boot.stage = 0 ∧ t.boot.fuseCn = 4) = true := by
  decide +kernel

/-- Flash with images of bank A: Crowsnest and mast, 8 bytes of body each, SVN 5. -/
def flashA : Mem :=
  let h := fun (m : Mem) (a typ : Nat) => Mem.store (Mem.store (Mem.store (Mem.store (Mem.store m a 4 0x394D4850) (a + 4) 2 typ) (a + 8) 4 5) (a + 16) 4 8) (a + 384) 8 0x11
  h (h [] 0 1) 0x100000 2

/-- The module at stage 1, its switch open, with good images in bank A. -/
def waiting (f : Boot → Boot) : State := { State.reset with
  boot := f { Boot.reset with stage := 1, flash := flashA, foundCn := Vector.replicate 2 ⟨true, true, true⟩, foundMast := Vector.replicate 2 ⟨true, true, true⟩ } }

theorem test_PowerFollowsItsRules_precharge :
    let s := waiting id
    let r := waiting fun b => { b with railsOk := false }
    let h := waiting fun b => { b with hbmOk := false }
    let z := State.reset
    let n := (waiting id).modPow fun q => { q with noStart := true }
    s.pow.noStart = false ∧ s.pow.aoOn = true ∧ s.pow.inSwitch = false ∧ s.boot.stage = 1 ∧ s.boot.railsOk = true ∧ s.boot.hbmOk = true ∧ s.boot.checkBank s.boot.marked 2 = 0 ∧
    r.boot.railsOk = false ∧ h.boot.hbmOk = false ∧ z.boot.stage ≠ 1 ∧
    after (exec .prechargeDone s) (fun t => t.boot.stage = 5 ∧ t.pow.compOn = true ∧ t.pow.inSwitch = true ∧ (t.mast 127).core.imem = [(0x1C000, 0x11)]) = true ∧
    after (exec .prechargeDone r) (fun t => t.boot.stage = 6 ∧ t.boot.fail = 5) = true ∧ after (exec .prechargeDone h) (fun t => t.boot.stage = 6 ∧ t.boot.fail = 6) = true ∧
    gives (exec .prechargeDone z) (z.modPow fun q => { q with inSwitch := true }) = true ∧ gives (exec .prechargeTimeout z) (z.modPow fun q => { q with noStart := true }) = true ∧
    gives (exec .prechargeDone n) n = true ∧ gives (exec .prechargeTimeout up) up = true := by decide +kernel

/-- The module with a job, commands in work and the panel changed by `f`. -/
def paneled (f : Svc → Svc) : State := (hosted [hcmd 0 []] id).modSvc f

theorem test_PanelDrainsAndLocates_strike :
    let s := paneled id
    let c := { (paneled fun v => { v with strike := .clear }) with shrCfg := { ShrCfg.reset with size1 := 3 } }.modSport 2 fun p =>
      { p with plugged := true, en := true, up := true }
    s.svc.strike = .idle ∧ s.pow.aoOn = true ∧ s.boot.stage ≠ 6 ∧ c.svc.strike = .clear ∧ (c.sport 2).plugged = true ∧ c.portUsed 2 = true ∧ (c.sport 2).en = true ∧
    (∀ i ∈ [Instr.strike, .strikeButtonPress], after (exec i s) (fun t => t.svc.strike = .draining ∧ allBusy t = true ∧ status t = some 8) = true) ∧
    gives (exec .unstrike s) s = true ∧ gives (exec .strike c) c = true ∧
    (∀ i ∈ [Instr.unstrike, .strikeButtonPress], after (exec i c) (fun t => t.svc.strike = .idle ∧ (t.sport 2).training = true ∧ (t.sport 2).up = false) = true) := by decide +kernel

theorem test_PanelDrainsAndLocates_drain :
    let s := (paneled fun v => { v with strike := .draining }).modBoot fun b => { b with fwBusy := true }
    let e := (hosted [] id).modSvc fun v => { v with strike := .draining }
    let i := paneled id
    s.svc.strike = .draining ∧ s.svc.drained = false ∧ e.svc.drained = false ∧ e.hosts.cmds = [] ∧ s.hosts.cmds ≠ [] ∧ e.boot.fwBusy = false ∧
    (∀ i ∈ [Instr.forcedStrike, .drainTimeout], after (exec i s) (fun t => t.svc.strike = .clear ∧ t.svc.forced = true ∧ t.boot.fwBusy = false ∧ t.boot.fwResult = 6) = true) ∧
    gives (exec .strikeButtonPress s) s = true ∧ gives (exec .drainComplete s) s = true ∧ gives (exec .forcedStrike i) i = true ∧
    after (exec .drainComplete e) (fun t => t.svc.drained = true ∧ t.svc.strike = .clear ∧ (t.mast 9).sail = 0xAAA) = true := by decide +kernel

theorem test_PanelDrainsAndLocates_panel :
    let s := (paneled id).modJob 1 fun j => { j with valid := true, jobid := 9 }
    let c := paneled fun v => { v with strike := .clear, locate := true }
    (∀ h : HostPort, h = 0 → (s.hfn ⟨h, 0⟩).ver = 0x301 ∧ (s.hfn ⟨h, 0⟩).evFull = false) ∧ s.svc.strike ≠ .clear ∧ s.svc.locate = false ∧ c.svc.locate = true ∧ (s.job 1).fltValid = false ∧
    after (exec .leverOpen s) (fun t => t.svc.lever = true ∧ t.svc.strike = .clear ∧ t.svc.forced = true ∧ allBusy t = true ∧ (t.job 1).fltKind = 12) = true ∧
    after (exec .leverOpen c) (fun t => t.svc.lever = true ∧ t.svc.strike = .clear ∧ (t.hfn pf).evTail = 1 ∧ (t.hport 0).attn.getLsbD 0 = true) = true ∧
    after (exec .leverClose c) (fun t => t.svc = { c.svc with lever := false } ∧ (t.hfn pf).evTail = 1) = true ∧
    after (exec .locateTouch s) (fun t => t.svc.locate = true ∧ (t.hfn pf).evTail = 1) = true ∧
    (∀ i ∈ [Instr.locateTouch, .locateOff, .locateTimeout], gives (exec i c) (c.modSvc fun v => { v with locate := false }) = true) ∧
    gives (exec .locate s) (s.modSvc fun v => { v with locate := true }) = true := by decide +kernel

/-- What a good start-up meets. -/
def goodBoot : BootInput := { railsOk := true, hbmOk := true, cnA := ⟨true, true, true⟩, cnB := ⟨true, true, true⟩, mastA := ⟨true, true, true⟩, mastB := ⟨true, true, true⟩ }

theorem test_StartUpAndSecurity_start :
    let s := State.reset.modBoot fun b => { b with flash := flashA }
    let f := State.reset.modBoot fun b => { b with flash := flashA, marked := true }
    let z := State.reset
    let r := (State.reset.modBoot fun b => { b with stage := 5, flash := flashA, resets := 7 }).modPow fun p => { p with compOn := true, inSwitch := true }
    let m := { r with ram := [(3, 9), (0x2FF8000000, 9)] }
    s.boot.stage = 0 ∧ s.pow.inSwitch = false ∧ m.boot.stage ≠ 6 ∧ m.pow.compOn = true ∧
    after (exec (.aoResetExit goodBoot) s) (fun t => t.boot.stage = 1 ∧ t.boot.cnBank = false ∧ t.boot.fallback = false ∧ t.boot.runCn.svn = 5) = true ∧
    after (exec (.aoResetExit goodBoot) f) (fun t => t.boot.stage = 1 ∧ t.boot.cnBank = false ∧ t.boot.fallback = true ∧ t.boot.fail = 8) = true ∧
    after (exec (.aoResetExit goodBoot) z) (fun t => t.boot.stage = 6 ∧ t.boot.fail = 8 ∧ t.pow.compOn = false) = true ∧
    after (exec (.modRstGo goodBoot) m) (fun t => t.boot.stage = 5 ∧ t.boot.resets = 8 ∧ t.ram = [(3, 9)]) = true ∧
    after (exec (.modRstGo { goodBoot with hbmOk := false }) m) (fun t => t.boot.stage = 6 ∧ t.boot.fail = 6) = true := by decide +kernel

theorem test_StartUpAndSecurity_update :
    let s := up.modBoot fun b => { b with stageMem := flashA }
    let u := s.modBoot fun b => { b with fwBusy := true }
    let x := u.modBoot fun b => { b with fuseCn := 6 }
    let good : CryptoFindings := ⟨true, true, true⟩
    let k := up.modBoot fun b => { b with fuseCn := 3, fuseMast := 70, runCn := { digest := 0, svn := 90, keyidx := 1, revoke := 7 } }
    s.pow.aoOn = true ∧ s.boot.fwBusy = false ∧ (∀ j : JobSlot, (s.job j).valid = false) ∧ (withJob.job 1).valid = true ∧ u.boot.fwBusy = true ∧
    Mem.load u.boot.stageMem 4 2 = 1 ∧ imageCheck u.boot u.boot.stageMem 0 1 good = 0 ∧ imageCheck x.boot x.boot.stageMem 0 1 good = 4 ∧
    after (exec .fwCtlBegin s) (fun t => t.boot.fwBusy = true ∧ t.boot.fwResult = 0 ∧ (t.hport 1).hsig = .busy) = true ∧
    gives (exec .fwCtlBegin withJob) (withJob.modBoot fun b => { b with fwResult := 6 }) = true ∧
    after (exec (.fwCtlFinish good) u) (fun t => t.boot.fwBusy = false ∧ t.boot.fwResult = 1 ∧ t.boot.marked = true ∧
      Mem.load t.boot.flash 0x200000 4 = 0x394D4850 ∧ Mem.load t.boot.flash (0x200000 + 384) 8 = 0x11) = true ∧
    after (exec (.fwCtlFinish good) x) (fun t => t.boot.fwResult = 5 ∧ t.boot.marked = false ∧ t.boot.flash = []) = true ∧
    after (exec .fwCtlAbort u) (fun t => t.boot.fwBusy = false ∧ t.boot.fwResult = 6 ∧ t.boot.inactiveBad = true) = true ∧
    after (exec .fwCtlCommit k) (fun t => t.boot.fuseCn = 64 ∧ t.boot.fuseMast = 70 ∧ t.boot.revoked = 5) = true := by decide +kernel

theorem test_StartUpAndSecurity_attest :
    let s := up.modBoot fun b => { b with nonce := [(0, 1), (31, 2)], serial := 0x99 }
    let n : List Byte := 1 :: List.replicate 30 0 ++ [2]
    let w := s.modBoot fun b => { b with attBusy := true, reqNonce := n }
    let sig : List Byte := List.replicate 132 7
    s.boot.attBusy = false ∧ s.boot.stage ≠ 6 ∧ s.pow.aoOn = true ∧ w.boot.attBusy = true ∧ sig.length = 132 ∧ w.boot.reqNonce.length = 32 ∧
    gives (exec .attCtlReq s) (s.modBoot fun b => { b with attBusy := true, reqNonce := n }) = true ∧ after (exec .attCtlReq s) (fun t => t.boot.reqNonce = n) = true ∧
    after (exec (.attestationRequest n) s) (fun t => t.boot = w.boot) = true ∧ after (exec .attCtlReq w) (fun t => t.boot = w.boot) = true ∧
    after (exec (.attReportDone sig) w) (fun t => t.boot.attBusy = false ∧ t.boot.attDone = true ∧ Mem.bytes t.boot.report 28 32 = n ∧ Mem.bytes t.boot.report 216 132 = sig ∧
      Mem.load t.boot.report 8 16 = 0x99) = true ∧
    after (exec (.nodeRecordWrite 5 6) s) (fun t => t.boot = { s.boot with recValid := true, recNode := 5, recCfg := 6 }) = true := by decide +kernel

theorem test_RegisterWritesReachTheirRegisters :
    let s := (core id).modHport 0 fun p => { p with linkUp := true }
    let h := s.modCore 0 fun c => { c with halted := true, ldm := [(0x24, 1)] }
    let n := s.modMast 0 fun x => { x with num := { x.num with flags := 0xFF } }
    let l : LocalPA := 0x3F00080020
    let v : Word := 0x77FF77FF_88776655
    regAt l.toNat = some (.mast 0 (.ldm 4)) ∧ regAt 0x3F00008000 = some (.mast 0 (.gate 0)) ∧ regAt 0x3F00001008 = some (.mast 0 .numFlags) ∧
    regAt 0x3F80011028 = some (.module (.shrJblk 1)) ∧ (Reg.mast 0 (.ldm 4)).grant 0 0 true = false ∧ (Reg.mast 0 (.gate 0)).grant 0 1 true = false ∧
    (s.mast 0).core.halted = false ∧ (h.mast 0).core.halted = true ∧ Sparse.wf (h.mast 0).core.ldm = true ∧ (s.mast 0).core.fenced = false ∧ (withJob.job 1).valid = true ∧
    gives (exec (.registerWrite (.core 0 .m) (.window l) 3 v) s) s = true ∧ gives (exec (.registerWrite (.core 0 .m) (.window (l + 4)) 8 v) s) s = true ∧
    gives (exec (.registerWrite (.core 0 .u) (.window l) 8 v) s) s = true ∧ gives (exec (.registerWrite (.core 0 .s) (.window 0x3F00008000) 8 v) s) s = true ∧
    after (exec (.registerWrite (.host 0) (.window l) 4 v) h) (fun t => Mem.load (t.mast 0).core.ldm 0x20 8 = 0x1_88776655) = true ∧
    after (exec (.registerWrite (.host 0) (.window (l + 4)) 4 v) h) (fun t => Mem.load (t.mast 0).core.ldm 0x20 8 = 0x88776655_00000000) = true ∧
    after (exec (.registerWrite (.host 0) (.window l) 4 v) s) (fun t => (t.mast 0).core = { (s.mast 0).core with xwerr := true }) = true ∧
    after (exec (.registerWrite (.core 0 .m) (.window 0x3F00008000) 8 v) s) (fun t => Mem.load (t.mast 0).core.gate 0 8 = v.toNat ∧ (t.mast 0).core.gateUsed = (s.mast 0).core.gateUsed) = true ∧
    after (exec (.registerWrite (.core 0 .u) (.window 0x3F00001008) 8 v) n) (fun t => (t.mast 0).num.flags = 0xAA) = true ∧
    after (exec (.registerWrite .crowsnest (.window 0x3F80011028) 8 v) s) (fun t => (t.job 1).jblk = v &&& 0x77FF77FF) = true ∧
    gives (exec (.registerWrite .crowsnest (.window 0x3F80011028) 8 v) withJob) withJob = true ∧
    after (exec (.registerWrite (.host 0) (.window l) 3 v) s) (fun t => (t.hport 0).cpl = some .ca) = true ∧
    after (exec (.registerWrite (.host 0) (.bar pf 0x18) 4 v) s) (fun t => (t.hport 0).cpl = some .ca) = true ∧
    after (exec (.registerWrite (.host 0) (.bar ⟨0, 1⟩ 0x2000) 8 v) s) (fun t => (t.hport 0).cpl = some .ur) = true ∧
    after (exec (.registerWrite (.host 0) (.bar pf 0x18) 8 0x1234567890ABC004) s) (fun t => (t.hfn pf).aqSz = 4 ∧ (t.hfn pf).aqBase = 0x1234567890ABC) = true := by decide +kernel

/-! ## Ill-formed commands, one for each check -/

/-- An atomic addition. -/
def aadd : AtomReq := { op := .aadd, dbl := true, val := 1, cmp := 0, ovm := false, ftz := false }

/-- A message between two nodes. -/
def link (src dst : BitVec 14) : LinkMsg := { cls := 0, jobid := 9, src := src, dst := dst, flits := 1, payload := [] }

/-- A segment. -/
def seg (src dst : Nat) (data : List Byte) : SegMsg :=
  { plane := 0, run := 1, key := chanKey 0, node := 0, jobid := 9, src := src, dst := dst, seg := 0, data := data }

theorem test_wf_lengths :
    (Instr.rdu (.remote 0 0 0 9) 5 120 8).wf = true ∧ (Instr.rdu (.remote 0 0 0 9) 5 0 0).wf = false ∧ (Instr.rdu (.remote 0 0 0 9) 5 121 8).wf = false ∧
    (Instr.wru (.remote 0 0 0 9) 5 127 ⟨[1], none⟩).wf = true ∧ (Instr.wru (.remote 0 0 0 9) 5 0 ⟨[], none⟩).wf = false ∧ (Instr.wru (.remote 0 0 0 9) 5 127 ⟨[1, 2], none⟩).wf = false ∧
    (Instr.sqFetch pf none (entry 0 [])).wf = true ∧ (Instr.sqFetch pf none (List.replicate 33 0)).wf = false ∧
    (Instr.attestationRequest (List.replicate 32 0)).wf = true ∧ (Instr.attestationRequest (List.replicate 31 0)).wf = false ∧
    (Instr.attReportDone (List.replicate 132 0)).wf = true ∧ (Instr.attReportDone (List.replicate 131 0)).wf = false := by decide +kernel

theorem test_wf_operands :
    (Instr.atom (.remote 0 0 0 9) 5 8 aadd).wf = true ∧ (Instr.atom (.remote 0 0 0 9) 5 4 aadd).wf = false ∧ (Instr.atom (.remote 0 0 0 9) 5 8 { aadd with op := .lda }).wf = false ∧
    (Instr.shroudForward 1 0 (link 3 1)).wf = true ∧ (Instr.shroudForward 1 1 (link 3 1)).wf = false ∧ (Instr.shroudForward 1 0 (link 3 3)).wf = false ∧
    (Instr.linkLostNotice 0 3 4).wf = true ∧ (Instr.linkLostNotice 0 3 3).wf = false ∧
    (Instr.channelSegment 0 (seg 0 1 [1])).wf = true ∧ (Instr.channelSegment 0 (seg 1 1 [1])).wf = false ∧ (Instr.channelSegment 0 (seg 0 1 [])).wf = false ∧
    (Instr.registerWrite .crowsnest (.window 0) 4 0).wf = true ∧ (Instr.registerWrite .crowsnest (.window 0) 3 0).wf = false := by decide +kernel

theorem test_decode_no_row_has_bits : decodeTableWord 64 0 = none ∧ State.reset.withFetchWord 64 0 = State.reset := ⟨rfl, rfl⟩

end Sys2Proof.Tests
end

section
/-!
PROOF. The words that a bundle encodes to are decoded as its syllables (02 R55, R56, R60, R69), and TRAP_ENTRY takes the exception of the words at the
pc (02 R58). A syllable's word is its STOP, its slot and the 28 bits below: each field is read back from those, each syllable from its words, and the
bundle by induction over its syllables.
-/

namespace Sys2Proof

open Machine

/-! ## The bits of a syllable's word -/

/-- Bits [21:0] of a word of the M form (02 Table 2-6). -/
def MBody.low (d : MBody) : Nat := d.sz.toNat * 2 ^ 20 + b2n d.sgn * 2 ^ 19 + d.mode.toNat * 2 ^ 16 + d.field.toNat

/-- Bits [21:0] of a word of slot V0 (04 Table 4-2). -/
def V0Body.low (d : V0Body) : Nat :=
  b2n d.sc * 2 ^ 21 + d.vd.toNat * 2 ^ 16 + d.vs1.toNat * 2 ^ 11 + d.vs2.toNat * 2 ^ 6 + d.km.toNat * 8 + d.fn.toNat

/-- Bits [21:0] of a word of slot V1 (04 Table 4-3). -/
def V1Body.low (d : V1Body) : Nat :=
  d.vr.toNat * 2 ^ 17 + d.vi.toNat * 2 ^ 12 + d.am.toNat * 2 ^ 10 + d.str.toNat * 2 ^ 8 + d.km.toNat * 32 + d.fn.toNat

/-- Bits [21:0] of a word of slot X (06 Table 6-3). -/
def XBody.low (d : XBody) : Nat := d.arr.toNat * 2 ^ 20 + d.q.toNat * 2 ^ 18 + d.rsv.toNat * 2 ^ 12 + d.daddr.toNat

/-- Bits [21:0] of a word of slot S (08 Table 8-1). -/
def SBody.low (d : SBody) : Nat := d.rsv.toNat * 2 ^ 12 + d.daddr.toNat

/-- Bits [22:0] of a word of slot B (02 Table 2-9a). -/
def BBody.low (d : BBody) : Nat := d.cond.toNat * 2 ^ 19 + d.off.toNat

/-- Bits [27:0] of the word of a syllable: its OP and its body. -/
def Syl.low : Syl → Nat
  | .c op d => op.code * 2 ^ 22 + d.low
  | .l op d => op.code * 2 ^ 22 + d.low
  | .v0 op d => op.code * 2 ^ 22 + d.low
  | .v1 op d => op.code * 2 ^ 22 + d.low
  | .x op d => op.code * 2 ^ 22 + d.low
  | .s op d => op.code * 2 ^ 22 + d.low
  | .b op d => op.code * 2 ^ 23 + d.low

theorem b2n_lt_two (b : Bool) : b2n b < 2 := by cases b <;> decide

theorem decide_b2n_eq_one (b : Bool) : decide (b2n b = 1) = b := by cases b <;> rfl

theorem stopBit_lt_two (e : Option (BitVec 28)) (b : Bool) : stopBit e b < 2 := by
  unfold stopBit
  split <;> decide

theorem COp.code_lt (o : COp) : o.code < 64 := by cases o <;> decide
theorem LOp.code_lt (o : LOp) : o.code < 64 := by cases o <;> decide
theorem V0Op.code_lt (o : V0Op) : o.code < 64 := by cases o <;> decide
theorem V1Op.code_lt (o : V1Op) : o.code < 64 := by cases o <;> decide
theorem XOp.code_lt (o : XOp) : o.code < 64 := by cases o <;> decide
theorem SOp.code_lt (o : SOp) : o.code < 64 := by cases o <;> decide
theorem BOp.code_lt (o : BOp) : o.code < 32 := by cases o <;> decide

@[simp] theorem COp.ofCode_code (o : COp) : COp.ofCode o.code = some o := by cases o <;> rfl
@[simp] theorem LOp.ofCode_code (o : LOp) : LOp.ofCode o.code = some o := by cases o <;> rfl
@[simp] theorem V0Op.ofCode_code (o : V0Op) : V0Op.ofCode o.code = some o := by cases o <;> rfl
@[simp] theorem V1Op.ofCode_code (o : V1Op) : V1Op.ofCode o.code = some o := by cases o <;> rfl
@[simp] theorem XOp.ofCode_code (o : XOp) : XOp.ofCode o.code = some o := by cases o <;> rfl
@[simp] theorem SOp.ofCode_code (o : SOp) : SOp.ofCode o.code = some o := by cases o <;> rfl
@[simp] theorem BOp.ofCode_code (o : BOp) : BOp.ofCode o.code = some o := by cases o <;> rfl

theorem MBody.low_lt (d : MBody) : d.low < 2 ^ 22 := by
  have hsgn := b2n_lt_two d.sgn
  unfold MBody.low
  omega

theorem V0Body.low_lt (d : V0Body) : d.low < 2 ^ 22 := by
  have hsc := b2n_lt_two d.sc
  unfold V0Body.low
  omega

theorem V1Body.low_lt (d : V1Body) : d.low < 2 ^ 22 := by unfold V1Body.low; omega
theorem XBody.low_lt (d : XBody) : d.low < 2 ^ 22 := by unfold XBody.low; omega
theorem SBody.low_lt (d : SBody) : d.low < 2 ^ 22 := by unfold SBody.low; omega
theorem BBody.low_lt (d : BBody) : d.low < 2 ^ 23 := by unfold BBody.low; omega

/-- An OP of six bits and a body of 22 take 28 bits. -/
theorem op6_body_lt {op body : Nat} (hop : op < 64) (hb : body < 2 ^ 22) : op * 2 ^ 22 + body < 2 ^ 28 := by omega

theorem Syl.low_lt (y : Syl) : y.low < 2 ^ 28 := by
  cases y with
  | c op d => exact op6_body_lt op.code_lt d.low_lt
  | l op d => exact op6_body_lt op.code_lt d.low_lt
  | v0 op d => exact op6_body_lt op.code_lt d.low_lt
  | v1 op d => exact op6_body_lt op.code_lt d.low_lt
  | x op d => exact op6_body_lt op.code_lt d.low_lt
  | s op d => exact op6_body_lt op.code_lt d.low_lt
  | b op d =>
    have hop := op.code_lt
    have hd := d.low_lt
    show op.code * 2 ^ 23 + d.low < 2 ^ 28
    omega

theorem Syl.slot_lt_seven (y : Syl) : y.slot < 7 := by cases y <;> simp [Syl.slot]

/-- A word is STOP, the slot and the 28 bits below them (02 Table 2-4). -/
theorem Syl.word_eq (y : Syl) : y.word = stopBit y.ext y.stop * 2 ^ 31 + y.slot * 2 ^ 28 + y.low := by
  cases y <;> simp only [Syl.word, Syl.ext, Syl.stop, Syl.slot, Syl.low, MBody.low, V0Body.low, V1Body.low, XBody.low, SBody.low, BBody.low] <;> omega

/-- The word of a syllable as it stands in the IMEM. -/
def Syl.word32 (y : Syl) : BitVec 32 := BitVec.ofNat 32 y.word

theorem Syl.word32_toNat (y : Syl) : y.word32.toNat = stopBit y.ext y.stop * 2 ^ 31 + y.slot * 2 ^ 28 + y.low := by
  have hstop := stopBit_lt_two y.ext y.stop
  have hslot := y.slot_lt_seven
  have hlow := y.low_lt
  rw [Syl.word32, BitVec.toNat_ofNat, y.word_eq]
  omega

/-- Bit 31 is STOP of the syllable itself. -/
theorem Syl.word32_stop (y : Syl) : y.word32.getLsbD 31 = (y.ext.isNone && y.stop) := by
  have hslot := y.slot_lt_seven
  have hlow := y.low_lt
  have hbit : (stopBit y.ext y.stop * 2 ^ 31 + y.slot * 2 ^ 28 + y.low) / 2 ^ 31 = stopBit y.ext y.stop := by omega
  rw [BitVec.getLsbD, Nat.testBit_eq_decide_div_mod_eq, y.word32_toNat, hbit]
  unfold stopBit
  cases y.ext.isNone && y.stop <;> rfl

/-- Bits [30:28] are the slot. -/
theorem Syl.word32_slot (y : Syl) : (wordFld y.word32 28 3).toNat = y.slot := by
  have hstop := stopBit_lt_two y.ext y.stop
  have hslot := y.slot_lt_seven
  have hlow := y.low_lt
  rw [wordFld, BitVec.toNat_ofNat, fld, y.word32_toNat]
  omega

/-- A field of the low 28 bits. -/
theorem Syl.word32_fld (y : Syl) {lo n : Nat} (x : BitVec n) (hn : lo + n ≤ 28) (h : y.low / 2 ^ lo % 2 ^ n = x.toNat) :
    wordFld y.word32 lo n = x := by
  have hword : y.word32.toNat = 2 ^ lo * (2 ^ n * (2 ^ (28 - lo - n) * (stopBit y.ext y.stop * 8 + y.slot))) + y.low := by
    have hpow : 2 ^ 28 = 2 ^ lo * (2 ^ n * 2 ^ (28 - lo - n)) := by rw [← Nat.pow_add, ← Nat.pow_add]; congr 1; omega
    rw [y.word32_toNat, ← Nat.mul_assoc (2 ^ n), ← Nat.mul_assoc (2 ^ lo), ← hpow]
    omega
  apply BitVec.eq_of_toNat_eq
  rw [wordFld, BitVec.toNat_ofNat, fld, Nat.mod_mod, hword, Nat.mul_add_div (Nat.two_pow_pos lo), Nat.mul_add_mod, h]

/-- A bit of the low 28 bits. -/
theorem Syl.word32_bit (y : Syl) {i : Nat} (b : Bool) (hi : i < 28) (h : y.low / 2 ^ i % 2 = b2n b) : y.word32.getLsbD i = b := by
  have hf := y.word32_fld (lo := i) (n := 1) (BitVec.ofNat 1 (b2n b)) hi (by rw [BitVec.toNat_ofNat, Nat.pow_one, h]; have := b2n_lt_two b; omega)
  have hn := congrArg BitVec.toNat hf
  rw [wordFld, BitVec.toNat_ofNat, BitVec.toNat_ofNat, fld, Nat.pow_one, Nat.mod_mod, Nat.mod_eq_of_lt (b2n_lt_two b)] at hn
  rw [BitVec.getLsbD, Nat.testBit_eq_decide_div_mod_eq, hn, decide_b2n_eq_one]

/-- A syllable that is not an I. -/
theorem Syl.word32_not_ext (y : Syl) : isExtWord y.word32 = false := by
  have hslot := y.slot_lt_seven
  rw [isExtWord, decide_eq_false_iff_not]
  intro h
  have h7 := congrArg BitVec.toNat h
  rw [y.word32_slot] at h7
  exact absurd h7 (by simp; omega)

/-! ## A syllable from its word -/

section
variable {y : Syl} {op : Nat}

/-- OP of a slot that gives it six bits. -/
theorem Syl.word32_op6 {body : Nat} (h : y.low = op * 2 ^ 22 + body) (hop : op < 64) (hb : body < 2 ^ 22) : (wordFld y.word32 22 6).toNat = op := by
  rw [y.word32_fld (lo := 22) (BitVec.ofNat 6 op) (by decide) (by rw [BitVec.toNat_ofNat]; omega), BitVec.toNat_ofNat]
  omega

/-- OP of slot B. -/
theorem Syl.word32_op5 {body : Nat} (h : y.low = op * 2 ^ 23 + body) (hop : op < 32) (hb : body < 2 ^ 23) : (wordFld y.word32 23 5).toNat = op := by
  rw [y.word32_fld (lo := 23) (BitVec.ofNat 5 op) (by decide) (by rw [BitVec.toNat_ofNat]; omega), BitVec.toNat_ofNat]
  omega

/-- The M-form body read back from a word that has it in its low bits. -/
theorem mBody_of_word32 {d : MBody} (h : y.low = op * 2 ^ 22 + d.low) : mBodyOf y.word32 d.ext d.stop = d := by
  have hsgn := b2n_lt_two d.sgn
  unfold MBody.low at h
  have sz := y.word32_fld (lo := 20) d.sz (by decide) (by omega)
  have sgn := y.word32_bit (i := 19) d.sgn (by decide) (by omega)
  have mode := y.word32_fld (lo := 16) d.mode (by decide) (by omega)
  have field := y.word32_fld (lo := 0) d.field (by decide) (by omega)
  rw [mBodyOf, sz, sgn, mode, field]

/-- The V0 body read back. -/
theorem v0Body_of_word32 {d : V0Body} (h : y.low = op * 2 ^ 22 + d.low) :
    ({ sc := y.word32.getLsbD 21, vd := wordFld y.word32 16 5, vs1 := wordFld y.word32 11 5, vs2 := wordFld y.word32 6 5
       km := wordFld y.word32 3 3, fn := wordFld y.word32 0 3, ext := d.ext, stop := d.stop } : V0Body) = d := by
  have hsc := b2n_lt_two d.sc
  unfold V0Body.low at h
  have sc := y.word32_bit (i := 21) d.sc (by decide) (by omega)
  have vd := y.word32_fld (lo := 16) d.vd (by decide) (by omega)
  have vs1 := y.word32_fld (lo := 11) d.vs1 (by decide) (by omega)
  have vs2 := y.word32_fld (lo := 6) d.vs2 (by decide) (by omega)
  have km := y.word32_fld (lo := 3) d.km (by decide) (by omega)
  have fn := y.word32_fld (lo := 0) d.fn (by decide) (by omega)
  rw [sc, vd, vs1, vs2, km, fn]

/-- The V1 body read back. -/
theorem v1Body_of_word32 {d : V1Body} (h : y.low = op * 2 ^ 22 + d.low) :
    ({ vr := wordFld y.word32 17 5, vi := wordFld y.word32 12 5, am := wordFld y.word32 10 2, str := wordFld y.word32 8 2
       km := wordFld y.word32 5 3, fn := wordFld y.word32 0 5, ext := d.ext, stop := d.stop } : V1Body) = d := by
  unfold V1Body.low at h
  have vr := y.word32_fld (lo := 17) d.vr (by decide) (by omega)
  have vi := y.word32_fld (lo := 12) d.vi (by decide) (by omega)
  have am := y.word32_fld (lo := 10) d.am (by decide) (by omega)
  have str := y.word32_fld (lo := 8) d.str (by decide) (by omega)
  have km := y.word32_fld (lo := 5) d.km (by decide) (by omega)
  have fn := y.word32_fld (lo := 0) d.fn (by decide) (by omega)
  rw [vr, vi, am, str, km, fn]

/-- The X body read back. -/
theorem xBody_of_word32 {d : XBody} (h : y.low = op * 2 ^ 22 + d.low) :
    ({ arr := wordFld y.word32 20 2, q := wordFld y.word32 18 2, rsv := wordFld y.word32 12 6, daddr := wordFld y.word32 0 12
       ext := d.ext, stop := d.stop } : XBody) = d := by
  unfold XBody.low at h
  have arr := y.word32_fld (lo := 20) d.arr (by decide) (by omega)
  have q := y.word32_fld (lo := 18) d.q (by decide) (by omega)
  have rsv := y.word32_fld (lo := 12) d.rsv (by decide) (by omega)
  have daddr := y.word32_fld (lo := 0) d.daddr (by decide) (by omega)
  rw [arr, q, rsv, daddr]

/-- The S body read back. -/
theorem sBody_of_word32 {d : SBody} (h : y.low = op * 2 ^ 22 + d.low) :
    ({ rsv := wordFld y.word32 12 10, daddr := wordFld y.word32 0 12, ext := d.ext, stop := d.stop } : SBody) = d := by
  unfold SBody.low at h
  have rsv := y.word32_fld (lo := 12) d.rsv (by decide) (by omega)
  have daddr := y.word32_fld (lo := 0) d.daddr (by decide) (by omega)
  rw [rsv, daddr]

/-- The B body read back. -/
theorem bBody_of_word32 {d : BBody} (h : y.low = op * 2 ^ 23 + d.low) :
    ({ cond := wordFld y.word32 19 4, off := wordFld y.word32 0 19, ext := d.ext, stop := d.stop } : BBody) = d := by
  unfold BBody.low at h
  have cond := y.word32_fld (lo := 19) d.cond (by decide) (by omega)
  have off := y.word32_fld (lo := 0) d.off (by decide) (by omega)
  rw [cond, off]

end

/-- The word of a syllable spells it, with its I payload and STOP. -/
@[simp] theorem sylOf_word32 (y : Syl) : sylOf y.word32 y.ext y.stop = some y := by
  unfold sylOf
  rw [y.word32_slot]
  cases y with
  | c op d =>
    have hop := Syl.word32_op6 (y := .c op d) rfl op.code_lt d.low_lt
    have hd := mBody_of_word32 (y := .c op d) rfl
    simp [Syl.slot, Syl.ext, Syl.stop, hop, hd]
  | l op d =>
    have hop := Syl.word32_op6 (y := .l op d) rfl op.code_lt d.low_lt
    have hd := mBody_of_word32 (y := .l op d) rfl
    simp [Syl.slot, Syl.ext, Syl.stop, hop, hd]
  | v0 op d =>
    have hop := Syl.word32_op6 (y := .v0 op d) rfl op.code_lt d.low_lt
    have hd := v0Body_of_word32 (y := .v0 op d) rfl
    simp [-BitVec.getLsbD_eq_getElem, Syl.slot, Syl.ext, Syl.stop, hop, hd]
  | v1 op d =>
    have hop := Syl.word32_op6 (y := .v1 op d) rfl op.code_lt d.low_lt
    have hd := v1Body_of_word32 (y := .v1 op d) rfl
    simp [Syl.slot, Syl.ext, Syl.stop, hop, hd]
  | x op d =>
    have hop := Syl.word32_op6 (y := .x op d) rfl op.code_lt d.low_lt
    have hd := xBody_of_word32 (y := .x op d) rfl
    simp [Syl.slot, Syl.ext, Syl.stop, hop, hd]
  | s op d =>
    have hop := Syl.word32_op6 (y := .s op d) rfl op.code_lt d.low_lt
    have hd := sBody_of_word32 (y := .s op d) rfl
    simp [Syl.slot, Syl.ext, Syl.stop, hop, hd]
  | b op d =>
    have hop := Syl.word32_op5 (y := .b op d) rfl op.code_lt d.low_lt
    have hd := bBody_of_word32 (y := .b op d) rfl
    simp [Syl.slot, Syl.ext, Syl.stop, hop, hd]

/-! ## The words of a bundle -/

/-- The I word that carries a payload. -/
def extWord32 (p : BitVec 28) (stop : Bool) : BitVec 32 := BitVec.ofNat 32 (p.toNat + 7 * 2 ^ 28 + b2n stop * 2 ^ 31)

theorem extWord32_toNat (p : BitVec 28) (stop : Bool) : (extWord32 p stop).toNat = p.toNat + 7 * 2 ^ 28 + b2n stop * 2 ^ 31 := by
  have hstop := b2n_lt_two stop
  rw [extWord32, BitVec.toNat_ofNat]
  omega

theorem extWord32_stop (p : BitVec 28) (stop : Bool) : (extWord32 p stop).getLsbD 31 = stop := by
  have hbit : (p.toNat + 7 * 2 ^ 28 + b2n stop * 2 ^ 31) / 2 ^ 31 % 2 = b2n stop := by have := b2n_lt_two stop; omega
  rw [BitVec.getLsbD, Nat.testBit_eq_decide_div_mod_eq, extWord32_toNat, hbit, decide_b2n_eq_one]

theorem extWord32_is_ext (p : BitVec 28) (stop : Bool) : isExtWord (extWord32 p stop) = true := by
  have hstop := b2n_lt_two stop
  rw [isExtWord, decide_eq_true_iff]
  apply BitVec.eq_of_toNat_eq
  rw [wordFld, BitVec.toNat_ofNat, fld, extWord32_toNat]
  simp
  omega

theorem extWord32_payload (p : BitVec 28) (stop : Bool) : wordFld (extWord32 p stop) 0 28 = p := by
  apply BitVec.eq_of_toNat_eq
  rw [wordFld, BitVec.toNat_ofNat, fld, extWord32_toNat]
  omega

theorem Syl.encode_of_ext_none {y : Syl} (h : y.ext = none) : y.encode = [y.word32] := by rw [Syl.encode, h]; rfl

theorem Syl.encode_of_ext_some {y : Syl} {p : BitVec 28} (h : y.ext = some p) : y.encode = [y.word32, extWord32 p y.stop] := by
  rw [Syl.encode, h]; rfl

/-- What the words of a syllable pair to: its word, its payload and STOP. -/
def Syl.paired (y : Syl) : BitVec 32 × Option (BitVec 28) × Bool := (y.word32, y.ext, y.stop)

/-- The words of a bundle end with its first STOP (02 R56). -/
theorem bundleWords_encode_append (y : Syl) {k : Nat} (hk : y.words ≤ k) (r : List (BitVec 32)) :
    bundleWords k (y.encode ++ r) = y.encode ++ if y.stop then [] else bundleWords (k - y.words) r := by
  have hw := y.word32_stop
  cases he : y.ext with
  | none =>
    obtain ⟨k, rfl⟩ : ∃ n, k = n + 1 := ⟨k - 1, by simp [Syl.words, he] at hk; omega⟩
    have hstop : y.word32.getLsbD 31 = y.stop := by simpa [-BitVec.getLsbD_eq_getElem, he] using hw
    rw [Syl.encode_of_ext_none he, List.singleton_append, bundleWords, hstop]
    cases y.stop <;> simp [Syl.words, he]
  | some p =>
    obtain ⟨k, rfl⟩ : ∃ n, k = n + 2 := ⟨k - 2, by simp [Syl.words, he] at hk; omega⟩
    have hword : y.word32.getLsbD 31 = false := by simpa [-BitVec.getLsbD_eq_getElem, he] using hw
    rw [Syl.encode_of_ext_some he, List.cons_append, List.singleton_append, bundleWords, hword, bundleWords, extWord32_stop]
    cases y.stop <;> simp [Syl.words, he]

/-- Only the last syllable of a bundle has STOP: its words are all its words, whatever stands behind them. -/
theorem bundleWords_bundle {y : Syl} (hy : y.stop = true) (r : List (BitVec 32)) :
    ∀ (ys : List Syl) {k : Nat}, (∀ z ∈ ys, z.stop = false) → ((ys ++ [y]).map Syl.words).sum ≤ k →
      bundleWords k ((ys ++ [y]).flatMap Syl.encode ++ r) = (ys ++ [y]).flatMap Syl.encode
  | [], k, _, hk => by
    have h := bundleWords_encode_append y (k := k) (by simpa using hk) r
    simpa [hy] using h
  | z :: ys, k, hs, hk => by
    have hz : z.stop = false := hs z (.head _)
    have hsum : z.words + ((ys ++ [y]).map Syl.words).sum ≤ k := by simpa using hk
    have ih := bundleWords_bundle hy r ys (k := k - z.words) (fun w hw => hs w (.tail _ hw)) (by omega)
    rw [List.cons_append, List.flatMap_cons, List.append_assoc, bundleWords_encode_append z (by omega), hz, ih]
    rfl

/-- The words of a syllable pair off, when no I stands behind them. -/
theorem pairWords_encode_append (y : Syl) {r : List (BitVec 32)} (hr : ∀ w ∈ r.head?, isExtWord w = false) :
    pairWords (y.encode ++ r) = (pairWords r).map (y.paired :: ·) := by
  have hw := y.word32_stop
  cases he : y.ext with
  | some p =>
    simp [-BitVec.getLsbD_eq_getElem, Syl.encode_of_ext_some he, pairWords, y.word32_not_ext, extWord32_is_ext, extWord32_payload,
      extWord32_stop, Syl.paired, he]
  | none =>
    cases r with
    | nil => simp_all [Syl.encode_of_ext_none he, pairWords, y.word32_not_ext, Syl.paired]
    | cons v r => simp_all [Syl.encode_of_ext_none he, pairWords, y.word32_not_ext, Syl.paired]

/-- The words of syllables begin with no I. -/
theorem head_flatMap_encode_not_ext (ys : List Syl) : ∀ w ∈ (ys.flatMap Syl.encode).head?, isExtWord w = false := by
  cases ys with
  | nil => simp
  | cons y ys =>
    intro w hw
    obtain rfl : y.word32 = w := by simpa [Syl.encode, Syl.word32] using hw
    exact y.word32_not_ext

/-- The words of syllables pair to those syllables. -/
theorem pairWords_flatMap_encode (ys : List Syl) : pairWords (ys.flatMap Syl.encode) = some (ys.map Syl.paired) := by
  induction ys with
  | nil => rfl
  | cons y ys ih => rw [List.flatMap_cons, pairWords_encode_append y (head_flatMap_encode_not_ext ys), ih]; rfl

/-- Words that pair to syllables are decoded as those. -/
theorem decodeBundle_of_paired {ws : List (BitVec 32)} {ys : List Syl} (h : pairWords (bundleWords 8 ws) = some (ys.map Syl.paired)) :
    decodeBundle ws = .syllables ys := by
  have known : (ys.map Syl.paired).map (fun p => sylOf p.1 p.2.1 p.2.2) = ys.map some := by simp [Syl.paired]
  have assigned : (ys.map Syl.paired).find? (fun p => (sylOf p.1 p.2.1 p.2.2).isNone) = none := by simp [Syl.paired]
  have all : (ys.map some).filterMap id = ys := by simp [List.filterMap_map]
  rw [decodeBundle, h]
  dsimp only
  rw [assigned, known, all]

/-- A bundle of at most eight words, STOP on its last syllable alone, is decoded as its syllables. -/
theorem decodeBundle_encode {ys : List Syl} {y : Syl} (rest : List (BitVec 32)) (hy : y.stop = true) (hys : ∀ z ∈ ys, z.stop = false)
    (hwords : ((ys ++ [y]).map Syl.words).sum ≤ 8) : decodeBundle ((ys ++ [y]).flatMap Syl.encode ++ rest) = .syllables (ys ++ [y]) :=
  decodeBundle_of_paired (by rw [bundleWords_bundle hy rest ys hys hwords, pairWords_flatMap_encode])

end Sys2Proof

namespace Sys2Proof.Machine

/-! ## TRAP_ENTRY with the words at the pc -/

section
variable {t : State} {m : MastId} {ws : List (BitVec 32)}

/-- Words at the pc that spell no bundle are ILLEGAL_BUNDLE. -/
theorem wordsHold_illFormed (hpc : (t.mast m).core.npc.toNat + min 32 (4 * (bundleWords 8 ws).length) ≤ 0x20000)
    (h : decodeBundle ws = .illFormed) : t.wordsHold m ws = some (.trap 1 0 false 0) := by
  rw [State.wordsHold, if_neg (Nat.not_lt.mpr hpc), h]

/-- An unassigned opcode is ILLEGAL_INSTR, with its slot and its word. -/
theorem wordsHold_unassigned {w : BitVec 32} (hpc : (t.mast m).core.npc.toNat + min 32 (4 * (bundleWords 8 ws).length) ≤ 0x20000)
    (h : decodeBundle ws = .unassigned w) : t.wordsHold m ws = some (.trap 2 (wordFld w 28 3).toNat false (w.zeroExtend 64)) := by
  rw [State.wordsHold, if_neg (Nat.not_lt.mpr hpc), h]

/-- Words that spell syllables raise what the syllables raise. -/
theorem wordsHold_syllables {ys : List Syl} {code slot : Nat} {half : Bool} {tval : Word}
    (hpc : (t.mast m).core.npc.toNat + min 32 (4 * (bundleWords 8 ws).length) ≤ 0x20000)
    (h : decodeBundle ws = .syllables ys) (hh : t.hold m ys = some (.trap code slot half tval)) :
    t.wordsHold m ws = some (.trap code slot half tval) := by
  simp only [State.wordsHold, if_neg (Nat.not_lt.mpr hpc), h, hh]

/-- TRAP_ENTRY takes the exception of the words at the pc, other than RETURN_PRIVILEGE, once the reads of the words have met their codes. -/
theorem exec_trapEntry_of_wordsHold {s : State} {code slot : Nat} {half : Bool} {tval : Word} (on : s.pow.compOn = true) (runs : s.coreRuns m = true)
    (now : (s.ready m (wordSyls ws)).takeDeferrable m = none) (hws : ws ≠ [])
    (h : (s.ready m (wordSyls ws)).wordsHold m ws = some (.trap code slot half tval)) (hcode : code ≠ 20) :
    exec (.trapEntry ⟨m, ws⟩) s = .next ((((s.ready m (wordSyls ws)).trapReads m (wordSyls ws) (4 * (bundleWords 8 ws).length)
      (.trap code slot half tval))).raise m code slot half tval) := by
  have hnow : s.trapNow m ws = ((s.ready m (wordSyls ws)).trapReads m (wordSyls ws) (4 * (bundleWords 8 ws).length)
      (.trap code slot half tval)).stopAt m (.trap code slot half tval) := by
    simp [State.trapNow, runs, now, hws, h]
  show Host.Outcome.next (s.on fun s => s.trapNow m ws) = _
  rw [on_on _ _ on, hnow]
  simp only [State.stopAt, if_neg hcode]

end

/-- Settles O20: the words of a bundle spell its syllables, by induction over them, and TRAP_ENTRY takes what the words raise, by the three things they
can spell. -/
theorem bundleWordsSpellSyllables : Obligations.BundleWordsSpellSyllables := by
  refine ⟨fun ys y rest hy hys hwords => decodeBundle_encode rest hy hys hwords, ?_⟩
  intro s m ws on runs now hws
  dsimp only
  intro hpc
  refine ⟨fun h => ?_, fun w h => ?_, fun ys code slot half tval h hh hcode => ?_⟩
  · exact exec_trapEntry_of_wordsHold on runs now hws (wordsHold_illFormed hpc h) (by decide)
  · exact exec_trapEntry_of_wordsHold on runs now hws (wordsHold_unassigned hpc h) (by decide)
  · exact exec_trapEntry_of_wordsHold on runs now hws (wordsHold_syllables hpc h hh) hcode

end Sys2Proof.Machine
end

section
/-!
PROOF. Syllables gather into bundles, and a bundle issues on the state before it (02 R48): what the arrival of a syllable does, and what the waits, the
fetch and the end of a bundle can change.
-/

namespace Sys2Proof.Machine

/-! ## The arrival of a syllable -/

/-- The long-vector unit does nothing where its queue has not grown. -/
theorem vecFollows_of_queue_le {s t : State} {m : MastId} (h : (t.mast m).vec.queue.length ≤ (s.mast m).vec.queue.length) : s.vecFollows t m = t := by
  rw [State.vecFollows, if_pos h]

/-- The own stores wait where no bundle has issued. -/
theorem fenceOwn_of_not_issued {s t : State} {m : MastId} (h : (t.mast m).cnt = (s.mast m).cnt) (y : Syl) : s.fenceOwn t m y = t := by
  simp [State.fenceOwn, h]

/-- The own stores wait where the bundle has no FENCE. -/
theorem fenceOwn_of_no_fence {s : State} {m : MastId} {y : Syl} (h : ∀ z ∈ s.bundleWith m y, ∀ b, z ≠ .l .fence b) (t : State) :
    s.fenceOwn t m y = t := by
  unfold State.fenceOwn
  refine if_neg fun go => ?_
  simp only [Bool.and_eq_true] at go
  obtain ⟨⟨-, fence⟩, -⟩ := go
  obtain ⟨z, hz, hfence⟩ := List.any_eq_true.mp fence
  split at hfence
  · exact h _ hz _ rfl
  · exact Bool.false_ne_true hfence

/-- A syllable without STOP joins a bundle of fewer than eight words. -/
theorem present_joins {s : State} {m : MastId} {y : Syl} (runs : s.coreRuns m = true) (hy : y.stop = false)
    (hwords : ((s.bundleWith m y).map Syl.words).sum < 8) : s.present m y = s.modCore m fun c => { c with opening := c.opening ++ [y] } := by
  have go : ¬(y.stop = true ∨ 8 ≤ ((s.bundleWith m y).map Syl.words).sum) := by simp [hy, hwords]
  rw [State.bundleWith] at go
  simp only [State.present, runs, Bool.not_true, Bool.false_eq_true, if_false, if_neg go]
  rfl

/-- A syllable with STOP brings its bundle to issue. -/
theorem present_ends {s : State} {m : MastId} {y : Syl} (runs : s.coreRuns m = true) (hy : y.stop = true) :
    s.present m y = s.bundle m (s.bundleWith m y) := by
  simp [State.present, runs, hy, State.bundleWith]

/-- A bundle that nothing deferrable comes before and nothing holds issues on the state as it then is. -/
theorem bundle_issues {s : State} {m : MastId} {ys : List Syl} (now : (s.ready m ys).takeDeferrable m = none) (free : (s.ready m ys).hold m ys = none) :
    s.bundle m ys = s.afterBundle m ys := by
  simp only [State.bundle, now, free, State.issue, State.afterBundle, State.entered, State.before]

/-- What `issues` says, part by part. -/
theorem issues_iff {s : State} {m : MastId} {y : Syl} : s.issues m y = true ↔
    s.pow.compOn = true ∧ s.coreRuns m = true ∧ y.stop = true ∧ (s.ready m (s.bundleWith m y)).takeDeferrable m = none ∧
      (s.ready m (s.bundleWith m y)).hold m (s.bundleWith m y) = none := by
  rw [hold_eq_none]
  simp [State.issues, State.comes, and_assoc]

/-- A syllable that ends a bundle that issues answers the state after the bundle. -/
theorem exec_sylCmd_issues {s : State} {m : MastId} {y : Syl} (h : s.issues m y = true) :
    exec (sylCmd m y) s = .next (s.vecFollows (s.fenceOwn (s.afterBundle m (s.bundleWith m y)) m y) m) := by
  obtain ⟨on, runs, hy, now, free⟩ := issues_iff.mp h
  rw [exec_sylCmd, State.core, on_on _ _ on, present_ends runs hy, bundle_issues now free]

/-- A syllable that joins a bundle changes nothing else. -/
theorem exec_sylCmd_joins {s : State} {m : MastId} {y : Syl} (on : s.pow.compOn = true) (runs : s.coreRuns m = true) (hy : y.stop = false)
    (hwords : ((s.bundleWith m y).map Syl.words).sum < 8) :
    exec (sylCmd m y) s = .next (s.modCore m fun c => { c with opening := c.opening ++ [y] }) := by
  rw [exec_sylCmd, State.core, on_on _ _ on, present_joins runs hy hwords, fenceOwn_of_not_issued (by simp), vecFollows_of_queue_le (by simp)]

/-! ## The cc that pass before a bundle -/

@[simp] theorem laterLoads_zero (ls : List LoadPend) : laterLoads 0 ls = ls := by simp [laterLoads]

@[simp] theorem laterLoads_laterLoads (a b : Nat) (ls : List LoadPend) : laterLoads b (laterLoads a ls) = laterLoads (a + b) ls := by
  simp [laterLoads, Function.comp_def, Nat.sub_sub]

theorem CoreBank.sameRegs_refl (p : CoreBank) : p.sameRegs p := ⟨rfl, rfl, rfl, rfl, rfl, rfl, rfl⟩

theorem CoreBank.sameRegs_trans {p q r : CoreBank} (h : p.sameRegs q) (k : q.sameRegs r) : p.sameRegs r := by
  simp_all [CoreBank.sameRegs]

theorem CoreBank.setLoop_sameRegs (b : CoreBank) (code : Nat) (v : BitVec 32) : (b.setLoop code v).sameRegs b := by
  unfold CoreBank.setLoop
  split
  · exact sameRegs_refl b
  · split <;> exact sameRegs_refl b

theorem CoreBank.ageLoops_sameRegs (b : CoreBank) (n : Nat) : (b.ageLoops n).sameRegs b :=
  fold_keeps (P := fun d => CoreBank.sameRegs d b) (fun _ _ ht => sameRegs_trans (setLoop_sameRegs _ _ _) ht) _ (sameRegs_refl b)

/-- What cc that pass can make of a core: its clocks, those of its loads, and what its time does to loop registers, PL, PH and the multiplies. -/
def Core.Waits (c d : Core) : Prop :=
  ∃ (bs : Vector CoreBank 4) (ms : List MulPend) (ag : Vector Nat 3) (n p : Nat) (ret : Bool),
    d = { c with banks := bs, muls := ms, ag := ag, stalls := n, returned := ret, loads := laterLoads p c.loads } ∧
    ∀ k : Fin 4, CoreBank.sameRegs (bs.get k) (c.banks.get k)

theorem Core.waits_refl (c : Core) : c.Waits c :=
  ⟨c.banks, c.muls, c.ag, c.stalls, 0, c.returned, by rw [laterLoads_zero], fun _ => CoreBank.sameRegs_refl _⟩

theorem Core.Waits.trans {c d e : Core} (h : c.Waits d) (k : d.Waits e) : c.Waits e := by
  obtain ⟨bs, ms, ag, n, p, ret, rfl, hbs⟩ := h
  obtain ⟨bs', ms', ag', n', p', ret', rfl, hbs'⟩ := k
  exact ⟨bs', ms', ag', n', p + p', ret', by simp only [laterLoads_laterLoads], fun i => CoreBank.sameRegs_trans (hbs' i) (hbs i)⟩

theorem Core.landMul_waits (c : Core) (p : MulPend) : c.Waits (c.landMul p) := by
  refine ⟨_, c.muls, c.ag, c.stalls, 0, c.returned, by rw [laterLoads_zero]; rfl, fun k => ?_⟩
  by_cases e : k = p.bank
  · subst e
    rw [vget_set_self]
    exact CoreBank.sameRegs_refl _
  · rw [vget_set_ne _ _ _ e]
    exact CoreBank.sameRegs_refl _

theorem Core.passMuls_waits (c : Core) (b : Fin 4) (k : Nat) : c.Waits (c.passMuls b k) := by
  have land : c.Waits ((c.muls.filter fun p => p.counts b && decide (p.left ≤ k)).foldl Core.landMul c) :=
    fold_keeps (P := c.Waits) (fun d p hd => hd.trans (d.landMul_waits p)) _ c.waits_refl
  obtain ⟨bs, ms, ag, n, p, ret, hd, hbs⟩ := land
  exact ⟨bs, _, ag, n, p, ret, by rw [Core.passMuls, hd], hbs⟩

theorem Core.age_waits (c : Core) (n : Nat) : c.Waits (c.age n) := by
  refine ⟨_, c.muls, _, c.stalls, n, c.returned, rfl, fun k => ?_⟩
  rw [vget_map]
  exact (c.banks.get k).ageLoops_sameRegs n

theorem Core.pass_waits (c : Core) (b : Fin 4) (k n : Nat) : c.Waits (c.pass b k n) := (c.passMuls_waits b k).trans (Core.age_waits _ n)

/-- One more wait counted, and whether a load has returned. -/
theorem Core.waits_stalls_returned (c : Core) (n : Nat) (ret : Bool) : c.Waits { c with stalls := n, returned := ret } :=
  ⟨c.banks, c.muls, c.ag, n, 0, ret, by rw [laterLoads_zero], fun _ => CoreBank.sameRegs_refl _⟩

/-- What the waits of a bundle can make of the module: they change counters of its mast, and its core as cc that pass do. -/
def State.Waits (s : State) (m : MastId) (t : State) : Prop :=
  ∃ (cnt : Tab) (d : Core), t = s.modMast m (fun x => { x with cnt := cnt, core := d }) ∧ (s.mast m).core.Waits d

section
variable {s t u : State} {m : MastId}

theorem State.waits_refl (s : State) (m : MastId) : s.Waits m s :=
  ⟨(s.mast m).cnt, (s.mast m).core, (setMast_mast s m).symm, Core.waits_refl _⟩

theorem State.Waits.trans (h : s.Waits m t) (k : t.Waits m u) : s.Waits m u := by
  obtain ⟨cnt, d, rfl, hd⟩ := h
  obtain ⟨cnt', e, rfl, he⟩ := k
  rw [modMast_mast_self] at he
  exact ⟨cnt', e, by rw [modMast_modMast], hd.trans he⟩

theorem State.modCore_waits {f : Core → Core} (h : (s.mast m).core.Waits (f (s.mast m).core)) : s.Waits m (s.modCore m f) :=
  ⟨(s.mast m).cnt, f (s.mast m).core, rfl, h⟩

theorem State.countHalf_waits (s : State) (m : MastId) (off : Nat) (hi : Bool) (n : Nat) : s.Waits m (s.countHalf m off hi n) :=
  ⟨_, (s.mast m).core, rfl, Core.waits_refl _⟩

theorem State.stallFor_waits (s : State) (m : MastId) (off : Nat) (hi : Bool) (n : Nat) : s.Waits m (s.stallFor m off hi n) :=
  (s.countHalf_waits m off hi n).trans (modCore_waits (Core.pass_waits _ _ _ _))

theorem State.afterWait_waits (s : State) (m : MastId) : s.Waits m (s.afterWait m) := by
  have stalled (n : Nat) (w : Wait) : s.Waits m (s.modCore m fun c => { c.stalled n with returned := c.returned && decide (w ≠ .data) }) :=
    modCore_waits (((Core.waits_stalls_returned _ _ _).trans (Core.pass_waits _ _ n n)).trans (Core.waits_stalls_returned _ _ _))
  unfold State.afterWait
  dsimp only
  split
  · exact s.waits_refl m
  · split
    · exact s.waits_refl m
    · split
      · exact (stalled _ _).trans (countHalf_waits _ _ _ _ _)
      · exact stalled _ _

theorem State.afterLoad_waits (s : State) (m : MastId) (ys : List Syl) : s.Waits m (s.afterLoad m ys) := by
  unfold State.afterLoad
  dsimp only
  split
  · exact (modCore_waits (Core.waits_stalls_returned _ _ _)).trans (stallFor_waits _ _ _ _ _)
  · exact s.waits_refl m

theorem State.stallFor_unless_waits (s : State) (m : MastId) (p : Prop) [Decidable p] (off : Nat) (hi : Bool) (n : Nat) :
    s.Waits m (if p then s else s.stallFor m off hi n) := by
  split
  · exact s.waits_refl m
  · exact s.stallFor_waits m off hi n

theorem State.exactWaits_waits (s : State) (m : MastId) (ys : List Syl) : s.Waits m (s.exactWaits m ys) := by
  unfold State.exactWaits
  extract_lets c w t b v u a
  have addresses : s.Waits m t := s.stallFor_unless_waits m _ _ _ _
  have firstPass : t.Waits m u := t.stallFor_unless_waits m _ _ _ _
  exact (addresses.trans firstPass).trans (u.stallFor_unless_waits m _ _ _ _)

theorem State.ready_waits (s : State) (m : MastId) (ys : List Syl) : s.Waits m (s.ready m ys) :=
  ((s.afterWait_waits m).trans (afterLoad_waits _ m ys)).trans (exactWaits_waits _ m ys)

end

/-! ## A core that waits on nothing -/

theorem foldl_max_eq_zero {l : List Nat} (h : ∀ n ∈ l, n = 0) : l.foldl max 0 = 0 := by
  induction l with
  | nil => rfl
  | cons n l ih =>
    obtain rfl := h n (.head _)
    exact ih fun k hk => h k (.tail _ hk)

/-- No cc until A can be used, where no load of exact latency is out or has just returned. -/
theorem Core.loadDue_eq_zero {c : Core} (hdue : ∀ k : Fin 4, (c.banks.get k).aDue = 0) (hloads : ∀ l ∈ c.loads, l.left = none) (ys : List Syl) :
    c.loadDue ys = 0 := by
  refine foldl_max_eq_zero fun n hn => ?_
  rcases List.mem_append.mp hn with hout | hback
  · split at hout
    · obtain ⟨l, hl, rfl⟩ := List.mem_map.mp hout
      rw [hloads l (List.mem_filter.mp hl).1]
      rfl
    · exact absurd hout List.not_mem_nil
  · obtain ⟨b, -, rfl⟩ := List.mem_map.mp hback
    exact hdue b

/-- Nothing is exact to wait for. -/
theorem State.exactWaits_eq_self {s : State} {m : MastId} (hag : ∀ k : Fin 3, (s.mast m).core.ag.get k = 0)
    (harm : ∀ k : Fin 3, (s.mast m).core.cur.arm.get k = 0) (hdue : ∀ k : Fin 4, ((s.mast m).core.banks.get k).aDue = 0)
    (hloads : ∀ l ∈ (s.mast m).core.loads, l.left = none) (ys : List Syl) : s.exactWaits m ys = s := by
  have noAg : ((ys.flatMap Syl.agUses).map fun r => (s.mast m).core.ag.get r).foldl max 0 = 0 := by
    refine foldl_max_eq_zero fun n hn => ?_
    obtain ⟨r, -, rfl⟩ := List.mem_map.mp hn
    exact hag r
  have noArm (p : Fin 3 → Prop) [DecidablePred p] : ((fins 3).map fun l => if p l then (s.mast m).core.cur.arm.get l else 0).foldl max 0 = 0 := by
    refine foldl_max_eq_zero fun n hn => ?_
    obtain ⟨l, -, rfl⟩ := List.mem_map.mp hn
    rw [harm l, ite_self]
  simp only [State.exactWaits, noAg, if_true, noArm, Core.loadDue_eq_zero hdue hloads]

theorem State.ready_eq_self {s : State} {m : MastId} (hwait : (s.mast m).core.waiting = none) (hret : (s.mast m).core.returned = false)
    (hag : ∀ k : Fin 3, (s.mast m).core.ag.get k = 0) (harm : ∀ k : Fin 3, (s.mast m).core.cur.arm.get k = 0)
    (hdue : ∀ k : Fin 4, ((s.mast m).core.banks.get k).aDue = 0) (hloads : ∀ l ∈ (s.mast m).core.loads, l.left = none) (ys : List Syl) :
    s.ready m ys = s := by
  have noWait : s.afterWait m = s := by simp only [State.afterWait, hwait]
  have noLoad : s.afterLoad m ys = s := by simp [State.afterLoad, hret]
  rw [State.ready, noWait, noLoad, exactWaits_eq_self hag harm hdue hloads]

/-! ## The fetch of a bundle -/

/-- A loop head buffer takes a bundle, and nothing else of the bank changes. -/
theorem CoreBank.capture_eq (b : CoreBank) (pc : Nat) (ys : List Syl) : ∃ hs : Vector (List Syl) 3, b.capture pc ys = { b with heads := hs } := by
  refine fold_keeps (P := fun d : CoreBank => ∃ hs, d = { b with heads := hs }) ?_ _ ⟨b.heads, rfl⟩
  rintro _ l ⟨hs, rfl⟩
  dsimp only
  split
  · exact ⟨_, rfl⟩
  · exact ⟨hs, rfl⟩

/-- A change of the current bank that is a change of its loop head buffers leaves every bank but for its loop head buffers. -/
theorem Core.modCur_heads {c : Core} {f : CoreBank → CoreBank} (h : ∃ hs : Vector (List Syl) 3, f c.cur = { c.cur with heads := hs }) (k : Fin 4) :
    ∃ hs : Vector (List Syl) 3, (c.modCur f).banks.get k = { c.banks.get k with heads := hs } := by
  obtain ⟨hs, hf⟩ := h
  by_cases e : k = c.bank
  · subst e
    exact ⟨hs, by rw [Core.modCur, vget_set_self, hf]; rfl⟩
  · exact ⟨(c.banks.get k).heads, by rw [Core.modCur, vget_set_ne _ _ _ e]⟩

/-- Reads find no uncorrectable error where no memory of the module holds an error. -/
theorem State.bad_of_no_upsets {s : State} (h : s.upsets = []) (p : Cell → Bool) : s.bad p = false := by simp [State.bad, h]

/-- A fault of the job at a mast whose counters have changed sets an interrupt and sends a message. -/
theorem State.jobFault_of_counted (s : State) (m : MastId) (cnt : Mast → Tab) (e kind : Nat) :
    (s.modMast m fun x => { x with cnt := cnt x }).jobFault m e kind =
      ({ s with flts := s.flts ++ [{ m := m, e := BitVec.ofNat 3 e, kind := BitVec.ofNat 4 kind }] } : State).modMast m fun x =>
        { x with cnt := cnt (s.mast m), core := { x.core with ipend := (s.mast m).core.ipend ||| 0x100 } } := by
  simp only [State.jobFault, State.modCore, modMast_modMast]
  rfl

/-- Reads that meet their codes count errors, and set an interrupt and report a fault only where a memory holds an error. -/
theorem State.coreEcc_eq (s : State) (m : MastId) (ldm imem other : Cell → Bool) : ∃ (cnt : Tab) (irq : BitVec 16) (fl : List FltMsg),
    s.coreEcc m ldm imem other = { s with flts := fl }.modMast m (fun x => { x with cnt := cnt, core := { x.core with ipend := irq } }) ∧
    (s.upsets = [] → irq = (s.mast m).core.ipend ∧ fl = s.flts) := by
  unfold State.coreEcc
  dsimp only
  split
  · rename_i hbad
    have clean (h : s.upsets = []) : False := by simp [bad_of_no_upsets, h] at hbad
    exact ⟨_, _, _, s.jobFault_of_counted m _ 0 1, fun h => (clean h).elim⟩
  · exact ⟨_, (s.mast m).core.ipend, s.flts, rfl, fun _ => ⟨rfl, rfl⟩⟩

/-- A FENCE ends or goes on. -/
theorem State.fenceOver_eq (s : State) (m : MastId) : ∃ fenced : Bool,
    s.fenceOver m = s.modCore m (fun c => { c with fenced := fenced }) ∧ (fenced = true → (s.mast m).core.fenced = true) := by
  unfold State.fenceOver
  split
  · exact ⟨(s.mast m).core.fenced, (setMast_mast s m).symm, id⟩
  · exact ⟨false, rfl, fun h => absurd h Bool.false_ne_true⟩

/-- What the fetch of a bundle can change. -/
theorem State.fetched_eq (s : State) (m : MastId) (ys : List Syl) :
    ∃ (bs : Vector CoreBank 4) (fenced : Bool) (irq : BitVec 16) (cnt : Tab) (fl : List FltMsg),
      s.fetched m ys = { s with flts := fl }.modMast m (fun x =>
        { x with cnt := cnt, core := { x.core with banks := bs, fenced := fenced, ipend := irq } }) ∧
      (∀ k : Fin 4, ∃ hs : Vector (List Syl) 3, bs.get k = { (s.mast m).core.banks.get k with heads := hs }) ∧
      (fenced = true → (s.mast m).core.fenced = true) ∧ (s.upsets = [] → irq = (s.mast m).core.ipend ∧ fl = s.flts) := by
  obtain ⟨cnt, irq, fl, hecc, hclean⟩ := s.coreEcc_eq m (ldmCells (s.mast m).core m (ys.filter fun y => !y.isSrun) true)
    (imemCells (s.mast m).core m (bundleBytes ys)) (ldmCells (s.mast m).core m (ys.filter Syl.isSrun) true)
  obtain ⟨fenced, hover, hfenced⟩ := (({ s with flts := fl }.modMast m (fun x => { x with cnt := cnt, core := { x.core with ipend := irq } })).modCore m
    fun k => k.modCur fun b => b.capture (s.mast m).core.npc.toNat ys).fenceOver_eq m
  refine ⟨((s.mast m).core.modCur fun b => b.capture (s.mast m).core.npc.toNat ys).banks, fenced, irq, cnt, fl, ?_,
    Core.modCur_heads (CoreBank.capture_eq _ _ ys), fun h => ?_, hclean⟩
  · rw [State.fetched]
    dsimp only
    rw [hecc, hover]
    simp only [State.modCore, modMast_modMast]
    rfl
  · simp only [modCore_mast_self, modMast_mast_self] at hfenced
    exact hfenced h

/-! ## The end of a bundle -/

/-- What the end of a bundle without HALT changes beside its core: counters, the marks of stall events, and errors of words written whole. -/
theorem State.finish_eq (s : State) (m : MastId) (c0 : Core) {ys : List Syl} (hys : hasHalt ys = false) :
    ∃ (cnt : Tab) (tok : Toks) (ups : List Upset),
      s.finish m c0 ys = { s with upsets := ups }.modMast m (fun x => { x with cnt := cnt, tok := tok, core := c0.advance x.core ys }) ∧
      tok.count = (s.mast m).tok.count ∧ tok.stallEn = (s.mast m).tok.stallEn ∧ (s.upsets = [] → ups = []) := by
  simp only [State.finish, State.advance, hys, Bool.false_eq_true, if_false, State.mend, State.modCore, State.bump, State.countHalf, State.clearStall,
    modMast_modMast]
  exact ⟨_, _, _, rfl, rfl, rfl, fun h => by rw [h]; rfl⟩

/-- Settles O4: a syllable that ends a bundle that issues, one that joins a bundle, and what the waits, the fetch and the end of a bundle change. -/
theorem syllablesGatherAndIssue : Obligations.SyllablesGatherAndIssue := by
  refine ⟨fun s m y => exec_sylCmd_issues, fun s t m y h => fenceOwn_of_no_fence h t, fun s m y => exec_sylCmd_joins, fun s m ys => ⟨?_, ?_, ?_, ?_⟩⟩
  · obtain ⟨cnt, d, hready, bs, ms, ag, n, p, ret, rfl, hbs⟩ := s.ready_waits m ys
    exact ⟨bs, ms, ag, n, p, ret, cnt, hready, hbs⟩
  · exact fun hwait hret hag harm hdue hloads => State.ready_eq_self hwait hret hag harm hdue hloads ys
  · exact s.fetched_eq m ys
  · exact fun c0 hys => s.finish_eq m c0 hys

end Sys2Proof.Machine
end

section
/-!
PROOF. Exceptions (14 R365-R373): what trap entry changes of a core and what it leaves, what an exception that is raised does by the bank it meets, and what a
module reset leaves of the masts and the jobs.
-/

namespace Sys2Proof.Machine

/-! ## What passing time leaves of a core -/

section
variable (c : Core) (n : Nat)

@[simp] theorem Core.age_sys : (c.age n).sys = c.sys := rfl
@[simp] theorem Core.age_level : (c.age n).level = c.level := rfl
@[simp] theorem Core.age_im : (c.age n).im = c.im := rfl
@[simp] theorem Core.age_bank : (c.age n).bank = c.bank := rfl
@[simp] theorem Core.age_npc : (c.age n).npc = c.npc := rfl
@[simp] theorem Core.age_ldm : (c.age n).ldm = c.ldm := rfl
@[simp] theorem Core.age_muls : (c.age n).muls = c.muls := rfl
@[simp] theorem Core.age_opening : (c.age n).opening = c.opening := rfl

end

/-- What the loop registers, the first passes of loops and the cc until A can be used do not touch: the other general registers, the products and the loop
head buffers. -/
def CoreBank.SameButLoops (p q : CoreBank) : Prop := p.sameRegs q ∧ p.pl = q.pl ∧ p.ph = q.ph ∧ p.heads = q.heads

theorem CoreBank.SameButLoops.trans {p q r : CoreBank} : p.SameButLoops q → q.SameButLoops r → p.SameButLoops r
  | ⟨regs, pl, ph, heads⟩, ⟨regs', pl', ph', heads'⟩ => ⟨sameRegs_trans regs regs', pl.trans pl', ph.trans ph', heads.trans heads'⟩

theorem CoreBank.setLoop_sameButLoops (b : CoreBank) (code : Nat) (v : BitVec 32) : (b.setLoop code v).SameButLoops b := by
  unfold CoreBank.setLoop
  split
  · exact ⟨sameRegs_refl b, rfl, rfl, rfl⟩
  · split <;> exact ⟨sameRegs_refl b, rfl, rfl, rfl⟩

theorem CoreBank.ageLoops_sameButLoops (b : CoreBank) (n : Nat) : (b.ageLoops n).SameButLoops b :=
  fold_keeps (P := fun d => CoreBank.SameButLoops d b) (fun _ _ hd => (setLoop_sameButLoops _ _ _).trans hd) _ ⟨sameRegs_refl b, rfl, rfl, rfl⟩

theorem Core.age_sameButLoops (c : Core) (n : Nat) (i : Fin 4) : ((c.age n).banks.get i).SameButLoops (c.banks.get i) := by
  rw [Core.age, vget_map]
  exact CoreBank.ageLoops_sameButLoops _ n

/-! ## Interrupts that are pending at a core -/

/-- A core with other interrupts pending: what a fault of the job that the reads of its bundle meet makes of it. -/
def Core.setIpend (c : Core) (irq : BitVec 16) : Core := { c with ipend := irq }

section
variable (c : Core) (irq : BitVec 16)

@[simp] theorem Core.setIpend_banks : (c.setIpend irq).banks = c.banks := rfl
@[simp] theorem Core.setIpend_sys : (c.setIpend irq).sys = c.sys := rfl
@[simp] theorem Core.setIpend_level : (c.setIpend irq).level = c.level := rfl
@[simp] theorem Core.setIpend_im : (c.setIpend irq).im = c.im := rfl
@[simp] theorem Core.setIpend_bank : (c.setIpend irq).bank = c.bank := rfl
@[simp] theorem Core.setIpend_npc : (c.setIpend irq).npc = c.npc := rfl
@[simp] theorem Core.setIpend_ldm : (c.setIpend irq).ldm = c.ldm := rfl
@[simp] theorem Core.setIpend_muls : (c.setIpend irq).muls = c.muls := rfl

end

/-! ## What trap entry makes of a core -/

section
variable (c : Core) (b : Fin 4) (l : BitVec 2) (cause tval : Word)

@[simp] theorem Core.enter_bank : (c.enter b l cause tval).bank = b := rfl
@[simp] theorem Core.enter_level : (c.enter b l cause tval).level = l := rfl
@[simp] theorem Core.enter_im : (c.enter b l cause tval).im = true := rfl
@[simp] theorem Core.enter_ldm : (c.enter b l cause tval).ldm = c.ldm := rfl
@[simp] theorem Core.enter_opening : (c.enter b l cause tval).opening = [] := rfl
@[simp] theorem Core.enter_banks : (c.enter b l cause tval).banks = c.banks := rfl
@[simp] theorem Core.enter_muls : (c.enter b l cause tval).muls =
    c.muls.map fun p => if p.bank = b ∧ b = c.bank then { p with frozen := p.frozen + 1 } else p := rfl

@[simp] theorem Core.enter_sys_self : (c.enter b l cause tval).sys.get b =
    { c.sys.get b with epc := BitVec.ofNat 64 (c.npc.toNat % 2 ^ 17), cause := cause, tval := tval, estatus := estatusWord c.level c.im b.val false } := by
  simp only [Core.enter, Core.modSys, vget_set_self]

@[simp] theorem Core.enter_npc : (c.enter b l cause tval).npc = BitVec.ofNat 18 (c.sys.get b).tvec.toNat := by
  simp only [Core.enter, Core.modSys, vget_set_self]

end

/-- EPC holds the place of the bundle whole. -/
theorem epc_toNat (n : Nat) : (BitVec.ofNat 64 (n % 2 ^ 17)).toNat = n % 2 ^ 17 := by
  rw [BitVec.toNat_ofNat]
  omega

/-- CAUSE of an exception (14 Table 14-3). -/
theorem causeWord_exception (code : Nat) (esc : Bool) (slot : Nat) (half : Bool) :
    causeWord code false esc slot half = BitVec.ofNat 64 (code + (if esc then 512 else 0) + 1024 * slot + if half then 8192 else 0) := by
  cases esc <;> cases half <;> rfl

/-- ESTATUS of a trap that no gate call made. -/
theorem estatusWord_trap (l : BitVec 2) (im : Bool) (tag : Nat) :
    estatusWord l im tag false = BitVec.ofNat 64 (l.toNat + (if im then 4 else 0) + 16 * tag) := by
  cases im <;> rfl

/-! ## Bundles that have issued -/

/-- CC_BUNDLES of a mast, which counts the bundles that have issued. -/
def State.bundlesIssued (s : State) (m : MastId) : Word := Sparse.get (s.mast m).cnt 0x38

/-- The own stores wait where CC_BUNDLES has not counted. -/
theorem fenceOwn_of_bundlesIssued {s t : State} {m : MastId} (h : t.bundlesIssued m = s.bundlesIssued m) (y : Syl) : s.fenceOwn t m y = t := by
  rw [State.bundlesIssued, State.bundlesIssued] at h
  simp [State.fenceOwn, h]

theorem tab_satAdd_get_ne {t : Tab} {off k : Nat} (h : k ≠ off) (lo w n : Nat) : Sparse.get (Tab.satAdd t off lo w n) k = Sparse.get t k :=
  fold_keeps (P := fun u : Tab => Sparse.get u k = Sparse.get t k) (fun _ _ hu => (sparse_get_set_ne h _ _).trans hu) _ rfl

/-- What an exception leaves beside its core, its counters and a report of errors: memory, posts, the tokens and the long-vector unit of its mast, and the number
of bundles that have issued. -/
structure State.Spares (s : State) (m : MastId) (t : State) : Prop where
  ram : t.ram = s.ram
  posts : t.posts = s.posts
  tok : (t.mast m).tok = (s.mast m).tok
  vec : (t.mast m).vec = (s.mast m).vec
  issued : t.bundlesIssued m = s.bundlesIssued m

theorem State.Spares.refl (s : State) (m : MastId) : s.Spares m s := ⟨rfl, rfl, rfl, rfl, rfl⟩

theorem State.Spares.trans {s t u : State} {m : MastId} (h : s.Spares m t) (k : t.Spares m u) : s.Spares m u :=
  ⟨k.ram.trans h.ram, k.posts.trans h.posts, k.tok.trans h.tok, k.vec.trans h.vec, k.issued.trans h.issued⟩

section
variable (s : State) (m : MastId)

theorem modMast_spares {f : Mast → Mast} (tok : (f (s.mast m)).tok = (s.mast m).tok) (vec : (f (s.mast m)).vec = (s.mast m).vec)
    (cnt : Sparse.get (f (s.mast m)).cnt 0x38 = Sparse.get (s.mast m).cnt 0x38) : s.Spares m (s.modMast m f) :=
  ⟨rfl, rfl, by rw [modMast_mast_self, tok], by rw [modMast_mast_self, vec], by rw [State.bundlesIssued, modMast_mast_self, cnt, State.bundlesIssued]⟩

theorem modCore_spares (f : Core → Core) : s.Spares m (s.modCore m f) := modMast_spares s m rfl rfl rfl

theorem modXl_spares (f : Xl → Xl) : s.Spares m (s.modXl m f) := modMast_spares s m rfl rfl rfl

theorem bump_spares {off : Nat} (h : 0x38 ≠ off) : s.Spares m (s.bump m off) := modMast_spares s m rfl rfl (sparse_get_set_ne h _ _)

theorem countHalf_spares {off : Nat} (h : 0x38 ≠ off) (hi : Bool) (n : Nat) : s.Spares m (s.countHalf m off hi n) :=
  modMast_spares s m rfl rfl (sparse_get_set_ne h _ _)

theorem stallFor_spares {off : Nat} (h : 0x38 ≠ off) (hi : Bool) (n : Nat) : s.Spares m (s.stallFor m off hi n) :=
  (countHalf_spares s m h hi n).trans (modCore_spares _ m _)

theorem stallFor_unless_spares (p : Prop) [Decidable p] {off : Nat} (h : 0x38 ≠ off) (hi : Bool) (n : Nat) :
    s.Spares m (if p then s else s.stallFor m off hi n) := by
  split
  · exact .refl s m
  · exact stallFor_spares s m h hi n

theorem afterWait_spares : s.Spares m (s.afterWait m) := by
  unfold State.afterWait
  dsimp only
  split
  · exact .refl s m
  · split
    · exact .refl s m
    · split
      · exact (modCore_spares s m _).trans (countHalf_spares _ m (by decide) _ _)
      · exact modCore_spares s m _

theorem afterLoad_spares (ys : List Syl) : s.Spares m (s.afterLoad m ys) := by
  unfold State.afterLoad
  dsimp only
  split
  · exact (modCore_spares s m _).trans (stallFor_spares _ m (by decide) _ _)
  · exact .refl s m

theorem exactWaits_spares (ys : List Syl) : s.Spares m (s.exactWaits m ys) := by
  unfold State.exactWaits
  extract_lets c w t b v u a
  have addresses : s.Spares m t := stallFor_unless_spares s m _ (by decide) _ _
  have firstPass : t.Spares m u := stallFor_unless_spares t m _ (by decide) _ _
  exact (addresses.trans firstPass).trans (stallFor_unless_spares u m _ (by decide) _ _)

theorem ready_spares (ys : List Syl) : s.Spares m (s.ready m ys) :=
  ((afterWait_spares s m).trans (afterLoad_spares _ m ys)).trans (exactWaits_spares _ m ys)

theorem jobFault_spares (e kind : Nat) : s.Spares m (s.jobFault m e kind) := by
  obtain ⟨-, -, tok, vec, issued⟩ := modCore_spares s m fun c => { c with ipend := c.ipend ||| 0x100 }
  exact ⟨rfl, rfl, tok, vec, issued⟩

theorem coreEcc_spares (ldm imem other : Cell → Bool) : s.Spares m (s.coreEcc m ldm imem other) := by
  have counted := modMast_spares s m (f := fun x =>
    { x with cnt := Tab.satAdd (Tab.satAdd x.cnt 0x20 0 32 (s.flaws .corr fun c => ldm c || other c)) 0x20 32 32 (s.flaws .corr imem) }) rfl rfl
    ((tab_satAdd_get_ne (by decide) _ _ _).trans (tab_satAdd_get_ne (by decide) _ _ _))
  unfold State.coreEcc
  dsimp only
  split
  · exact counted.trans (jobFault_spares _ m _ _)
  · exact counted

theorem trapReads_spares (ys : List Syl) (n : Nat) (h : Hold) : s.Spares m (s.trapReads m ys n h) := by
  unfold State.trapReads
  split
  · exact coreEcc_spares s m _ _ _
  · exact .refl s m

theorem trapEntry_spares (b : Fin 4) (l : BitVec 2) (cause tval : Word) : s.Spares m (s.trapEntry m b l cause tval) := by
  have entered := (modCore_spares s m fun c => (c.enter b l cause tval).age 8).trans (modXl_spares _ m Xl.withdraw)
  have counted := (entered.trans (countHalf_spares _ m (off := 0x30) (by decide) false 8)).trans (bump_spares _ m (off := 0x4010) (by decide))
  unfold State.trapEntry
  dsimp only
  split
  · exact counted.trans (bump_spares _ m (by decide))
  · exact counted

end

/-! ## What an exception makes of its core -/

section
variable (s : State) (m : MastId)

@[simp] theorem bump_core (off : Nat) : ((s.bump m off).mast m).core = (s.mast m).core := by rw [State.bump, modMast_mast_self]

@[simp] theorem countHalf_core (off : Nat) (hi : Bool) (n : Nat) : ((s.countHalf m off hi n).mast m).core = (s.mast m).core := by
  rw [State.countHalf, modMast_mast_self]

/-- The core of a trap has entered its bank, and 8 cc have passed. -/
theorem trapEntry_core (b : Fin 4) (l : BitVec 2) (cause tval : Word) :
    ((s.trapEntry m b l cause tval).mast m).core = ((s.mast m).core.enter b l cause tval).age 8 := by
  unfold State.trapEntry
  dsimp only
  split
  · rw [bump_core, bump_core, countHalf_core, modXl_mast_self, modCore_mast_self]
  · rw [bump_core, countHalf_core, modXl_mast_self, modCore_mast_self]

theorem coreEcc_core (ldm imem other : Cell → Bool) : ∃ irq : BitVec 16,
    ((s.coreEcc m ldm imem other).mast m).core = (s.mast m).core.setIpend irq := by
  obtain ⟨cnt, irq, fl, h, -⟩ := s.coreEcc_eq m ldm imem other
  exact ⟨irq, by rw [h, modMast_mast_self]; rfl⟩

/-- The reads of a bundle that traps can set an interrupt of its core, and nothing else of it. -/
theorem trapReads_core (ys : List Syl) (n code slot : Nat) (half : Bool) (tval : Word) : ∃ irq : BitVec 16,
    ((s.trapReads m ys n (.trap code slot half tval)).mast m).core = (s.mast m).core.setIpend irq := coreEcc_core s m _ _ _

theorem before_bank (ys : List Syl) : (s.before m ys).bank = (s.mast m).core.bank := by
  obtain ⟨cnt, d, h, bs, ms, ag, k, p, ret, rfl, -⟩ := s.ready_waits m ys
  rw [State.before, h, modMast_mast_self]

end

/-! ## What an exception does by the bank it meets -/

section
variable (s : State) (m : MastId) (code slot : Nat) (half : Bool) (tval : Word)

/-- Outside bank 3 and not with IM set in bank 1 or 2, an exception enters the bank of level S, or of level M from M (14 R366). -/
theorem raise_enters (hbank : (s.mast m).core.bank ≠ 3) (hfree : (s.mast m).core.im = false ∨ (s.mast m).core.bank = 0) :
    s.raise m code slot half tval = s.trapEntry m (if (s.mast m).core.level = 2 then 2 else 1) (if (s.mast m).core.level = 2 then 2 else 1)
      (causeWord code false false slot half) tval := by
  have unmasked : ¬((s.mast m).core.im = true ∧ (s.mast m).core.bank ≠ 0) := by
    rintro ⟨him, hzero⟩
    rcases hfree with h | h
    · simp [h] at him
    · exact hzero h
  rw [State.raise, if_neg hbank, if_neg unmasked]
  dsimp only
  split <;> rfl

/-- With IM set in bank 1 or 2, an exception escalates to bank 3 (14 R372). -/
theorem raise_escalates (hbank : (s.mast m).core.bank ≠ 3) (hzero : (s.mast m).core.bank ≠ 0) (him : (s.mast m).core.im = true) :
    s.raise m code slot half tval = s.trapEntry m 3 2 (causeWord code false true slot half) tval := by
  rw [State.raise, if_neg hbank, if_pos ⟨him, hzero⟩]

end

section
variable {s : State} {m : MastId} {code slot : Nat} {half : Bool} {tval : Word}

/-- In bank 3, an exception resets the module (14 R373). -/
theorem raise_resets (hbank : (s.mast m).core.bank = 3) : s.raise m code slot half tval = s.moduleReset := by rw [State.raise, if_pos hbank]

theorem raiseReturn_resets (hbank : (s.mast m).core.bank = 3) : s.raiseReturn m tval = s.moduleReset := by rw [State.raiseReturn, if_pos hbank]

theorem stopAt_trap_resets (hbank : (s.mast m).core.bank = 3) : s.stopAt m (.trap code slot half tval) = s.moduleReset := by
  simp only [State.stopAt, raise_resets hbank, raiseReturn_resets hbank, ite_self]

end

/-! ## The arrival of a bundle that raises an exception -/

section
variable {s : State} {m : MastId} {y : Syl} {code slot : Nat} {half : Bool} {tval : Word}

/-- What `comes` says, part by part. -/
theorem comes_iff : s.comes m y = true ↔ s.pow.compOn = true ∧ s.coreRuns m = true ∧ y.stop = true ∧
    (s.ready m (s.bundleWith m y)).takeDeferrable m = none := by
  simp [State.comes, and_assoc]

/-- The state in which the exception of the bundle that syllable `y` ends is raised: the bundle has waited, and its reads have met their codes. -/
def State.trapping (s : State) (m : MastId) (y : Syl) (code slot : Nat) (half : Bool) (tval : Word) : State :=
  (s.ready m (s.bundleWith m y)).trapReads m (s.bundleWith m y) (bundleBytes (s.bundleWith m y)) (.trap code slot half tval)

/-- A syllable that ends a bundle that raises an exception answers the state after it. -/
theorem exec_sylCmd_stops (comes : s.comes m y = true)
    (h : (s.ready m (s.bundleWith m y)).hold m (s.bundleWith m y) = some (.trap code slot half tval)) :
    exec (sylCmd m y) s = .next (s.vecFollows (s.fenceOwn ((s.trapping m y code slot half tval).stopAt m (.trap code slot half tval)) m y) m) := by
  obtain ⟨on, runs, hy, now⟩ := comes_iff.mp comes
  have stops : s.bundle m (s.bundleWith m y) = (s.trapping m y code slot half tval).stopAt m (.trap code slot half tval) := by
    simp only [State.bundle, now, h, State.trapping]
  rw [exec_sylCmd, State.core, on_on _ _ on, present_ends runs hy, stops]

theorem trapping_core (s : State) (m : MastId) (y : Syl) (code slot : Nat) (half : Bool) (tval : Word) : ∃ irq : BitVec 16,
    ((s.trapping m y code slot half tval).mast m).core = (s.before m (s.bundleWith m y)).setIpend irq := by
  rw [State.trapping, State.before]
  exact trapReads_core _ m _ _ code slot half tval

section
variable (s : State) (m : MastId) (y : Syl) (code slot : Nat) (half : Bool) (tval : Word)

theorem trapping_bank : ((s.trapping m y code slot half tval).mast m).core.bank = (s.before m (s.bundleWith m y)).bank := by
  obtain ⟨irq, hcore⟩ := trapping_core s m y code slot half tval
  rw [hcore, Core.setIpend_bank]

theorem trapping_im : ((s.trapping m y code slot half tval).mast m).core.im = (s.before m (s.bundleWith m y)).im := by
  obtain ⟨irq, hcore⟩ := trapping_core s m y code slot half tval
  rw [hcore, Core.setIpend_im]

theorem trapping_level : ((s.trapping m y code slot half tval).mast m).core.level = (s.before m (s.bundleWith m y)).level := by
  obtain ⟨irq, hcore⟩ := trapping_core s m y code slot half tval
  rw [hcore, Core.setIpend_level]

end

theorem trapping_spares (s : State) (m : MastId) (y : Syl) (code slot : Nat) (half : Bool) (tval : Word) :
    s.Spares m (s.trapping m y code slot half tval) := by
  rw [State.trapping]
  exact (ready_spares s m _).trans (trapReads_spares _ m _ _ _)

/-- A syllable whose bundle takes a trap answers the state after trap entry, where no bundle has issued and no command has entered a queue. -/
theorem exec_sylCmd_enters (comes : s.comes m y = true)
    (h : (s.ready m (s.bundleWith m y)).hold m (s.bundleWith m y) = some (.trap code slot half tval)) (hcode : code ≠ 20)
    {b : Fin 4} {l : BitVec 2} {cause : Word}
    (enters : (s.trapping m y code slot half tval).raise m code slot half tval = (s.trapping m y code slot half tval).trapEntry m b l cause tval) :
    exec (sylCmd m y) s = .next ((s.trapping m y code slot half tval).trapEntry m b l cause tval) ∧
      s.Spares m ((s.trapping m y code slot half tval).trapEntry m b l cause tval) := by
  have stops : (s.trapping m y code slot half tval).stopAt m (.trap code slot half tval) = (s.trapping m y code slot half tval).trapEntry m b l cause tval := by
    rw [State.stopAt]
    exact (if_neg hcode).trans enters
  have spares := (trapping_spares s m y code slot half tval).trans (trapEntry_spares _ m b l cause tval)
  exact ⟨by rw [exec_sylCmd_stops comes h, stops, fenceOwn_of_bundlesIssued spares.issued, vecFollows_of_queue_le (Nat.le_of_eq (by rw [spares.vec]))], spares⟩

end

/-! ## What a module reset leaves -/

/-- Every mast is as after reset, but for the image in its IMEM and its start address, and no job slot holds a job. -/
structure State.Restarted (s : State) : Prop where
  mast : ∀ m, ∃ (image : Mem) (start : BitVec 17), s.mast m = { Mast.reset with core := { Core.reset with imem := image, startPc := start } }
  job : ∀ j, s.job j = Job.reset

section
variable {s t : State}

theorem State.Restarted.modBoot (h : s.Restarted) (f : Boot → Boot) : (s.modBoot f).Restarted := ⟨h.mast, h.job⟩
theorem State.Restarted.modPow (h : s.Restarted) (f : Power → Power) : (s.modPow f).Restarted := ⟨h.mast, h.job⟩
theorem State.Restarted.modSvc (h : s.Restarted) (f : Svc → Svc) : (s.modSvc f).Restarted := ⟨h.mast, h.job⟩
theorem State.Restarted.modSport (h : s.Restarted) (p : PortId) (f : SPort → SPort) : (s.modSport p f).Restarted := ⟨h.mast, h.job⟩
theorem State.Restarted.modHport (h : s.Restarted) (p : HostPort) (f : HPort → HPort) : (s.modHport p f).Restarted := ⟨h.mast, h.job⟩

theorem State.Restarted.raiseBusyBoth (h : s.Restarted) : s.raiseBusyBoth.Restarted := by
  unfold State.raiseBusyBoth State.raiseBusy
  exact (h.modHport _ _).modHport _ _

theorem State.Restarted.aoRegsReset (h : s.Restarted) : s.aoRegsReset.Restarted := by
  unfold State.aoRegsReset
  exact ((h.modPow _).modSvc _).modBoot _

/-- A load of the IMEM and of the start address of a core leaves it so. -/
theorem State.Restarted.modCore (h : s.Restarted) (m : MastId) {f : Core → Core}
    (hf : ∀ c : Core, ∃ (image : Mem) (start : BitVec 17), f c = { c with imem := image, startPc := start }) : (s.modCore m f).Restarted where
  mast := fun k => by
    by_cases e : k = m
    · subst e
      obtain ⟨image, start, hmast⟩ := h.mast k
      obtain ⟨image', start', hcore⟩ := hf (s.mast k).core
      exact ⟨image', start', by rw [modCore_mast_self, hcore, hmast]⟩
    · rw [modCore_mast_ne s f e]
      exact h.mast k
  job := h.job

theorem State.Restarted.eachMast_modCore (h : s.Restarted) {f : MastId → Core → Core}
    (hf : ∀ m c, ∃ (image : Mem) (start : BitVec 17), f m c = { c with imem := image, startPc := start }) :
    (s.eachMast fun m t => t.modCore m (f m)).Restarted :=
  fold_keeps (fun _ m ht => ht.modCore m (hf m)) _ h

theorem computeReset_mast (s : State) (m : MastId) : s.computeReset.mast m = Mast.reset := vget_replicate Mast.reset m

theorem computeReset_job (s : State) (j : JobSlot) : s.computeReset.job j = Job.reset := vget_replicate Job.reset j

theorem computeReset_restarted (s : State) : s.computeReset.Restarted where
  mast := fun m => ⟨[], 0, computeReset_mast s m⟩
  job := computeReset_job s

theorem State.Restarted.recovery (h : s.Restarted) (fail : Nat) : (s.recovery fail).Restarted := ((h.modBoot _).modPow _).raiseBusyBoth

theorem State.Restarted.applyRecord (h : s.Restarted) : s.applyRecord.Restarted := by
  have trains (u : State) (hu : u.Restarted) : ((fins 16).foldl (fun t p =>
      if (t.sport p).en && (t.sport p).plugged && t.portUsed p then t.modSport p fun x => { x with training := true, trainFull := true, up := false } else t)
      u).Restarted := by
    refine fold_keeps (P := State.Restarted) (fun t p ht => ?_) _ hu
    split
    · exact ht.modSport p _
    · exact ht
  unfold State.applyRecord
  dsimp only
  split
  · with_reducible refine trains _ ?_
    exact ⟨h.mast, h.job⟩
  · with_reducible refine trains _ ?_
    exact ⟨h.mast, h.job⟩

theorem State.Restarted.loadStartPcs (h : s.Restarted) : s.loadStartPcs.Restarted :=
  h.eachMast_modCore (f := fun m c => { c with startPc := BitVec.ofNat 17 (4 * (Config.startPc m.val).toNat) }) fun _ c => ⟨c.imem, _, rfl⟩

theorem State.Restarted.loadMastImage (h : s.Restarted) (e : s.loadMastImage = some t) : t.Restarted := by
  have loads (f : Boot → Boot) (image : Mem) : ((s.modBoot f).eachMast fun m t => t.modCore m fun c => { c with imem := image }).Restarted :=
    State.Restarted.eachMast_modCore (s := s.modBoot f) (f := fun _ c => { c with imem := image }) (h.modBoot f) fun _ c => ⟨image, c.startPc, rfl⟩
  unfold State.loadMastImage at e
  dsimp only at e
  split at e
  · obtain rfl := Option.some.inj e
    with_reducible exact loads _ _
  · split at e
    · obtain rfl := Option.some.inj e
      with_reducible exact loads _ _
    · cases e

theorem State.Restarted.startTail (h : s.Restarted) (hbmOk : Bool) : (s.startTail hbmOk).Restarted := by
  unfold State.startTail
  dsimp only
  split
  · exact (h.modBoot _).recovery _
  · have trained (ram : Mem) (ds : Vector Die 2) (f g : Boot → Boot) : (State.modBoot { s.modBoot f with ram := ram, dies := ds } g).Restarted := by
      have other : State.Restarted { s.modBoot f with ram := ram, dies := ds } := ⟨h.mast, h.job⟩
      exact other.modBoot g
    split
    · with_reducible exact (trained _ _ _ _).recovery _
    · rename_i e
      exact ((trained _ _ _ _).loadMastImage e).loadStartPcs.applyRecord.modBoot _

theorem moduleReset_restarted (s : State) : s.moduleReset.Restarted := by
  unfold State.moduleReset
  exact (((computeReset_restarted (s.faultAllJobs 11)).aoRegsReset.raiseBusyBoth).modBoot _).startTail _

/-- No store of a core is on its way. -/
theorem State.Restarted.ownOut_eq_false (h : s.Restarted) (m : MastId) (lo n : Nat) : s.ownOut m lo n = false := by
  obtain ⟨image, start, hm⟩ := h.mast m
  simp [State.ownOut, hm, Core.reset]

theorem State.Restarted.fenceOwn (h : t.Restarted) (s : State) (m : MastId) (y : Syl) : s.fenceOwn t m y = t := by
  simp [State.fenceOwn, h.ownOut_eq_false]

theorem State.Restarted.vecFollows (h : t.Restarted) (s : State) (m : MastId) : s.vecFollows t m = t := by
  obtain ⟨image, start, hm⟩ := h.mast m
  exact vecFollows_of_queue_le (by rw [hm]; exact Nat.zero_le _)

end

/-! ## The handlers that exceptions enter -/

section
variable {s : State} {m : MastId} {y : Syl} {code slot : Nat} {half : Bool} {tval : Word} (comes : s.comes m y = true)
  (h : (s.ready m (s.bundleWith m y)).hold m (s.bundleWith m y) = some (.trap code slot half tval))
include comes h

/-- Outside bank 3 and not with IM set in bank 1 or 2, the bundle enters its handler. -/
theorem exec_sylCmd_enters_handler (hcode : code ≠ 20) (hbank : (s.before m (s.bundleWith m y)).bank ≠ 3)
    (hfree : (s.before m (s.bundleWith m y)).im = false ∨ (s.before m (s.bundleWith m y)).bank = 0) :
    ∃ (t : State) (irq : BitVec 16), exec (sylCmd m y) s = .next t ∧
      (t.mast m).core = (((s.before m (s.bundleWith m y)).setIpend irq).enter (if (s.before m (s.bundleWith m y)).level = 2 then 2 else 1)
        (if (s.before m (s.bundleWith m y)).level = 2 then 2 else 1) (causeWord code false false slot half) tval).age 8 ∧ s.Spares m t := by
  obtain ⟨irq, hcore⟩ := trapping_core s m y code slot half tval
  have enters := raise_enters (s.trapping m y code slot half tval) m code slot half tval (by rwa [trapping_bank]) (by rwa [trapping_im, trapping_bank])
  rw [trapping_level] at enters
  obtain ⟨hexec, spares⟩ := exec_sylCmd_enters comes h hcode enters
  exact ⟨_, irq, hexec, by rw [trapEntry_core, hcore], spares⟩

/-- With IM set in bank 1 or 2, the bundle enters bank 3. -/
theorem exec_sylCmd_escalates (hcode : code ≠ 20) (hbank : (s.before m (s.bundleWith m y)).bank ≠ 3) (hzero : (s.before m (s.bundleWith m y)).bank ≠ 0)
    (him : (s.before m (s.bundleWith m y)).im = true) :
    ∃ (t : State) (irq : BitVec 16), exec (sylCmd m y) s = .next t ∧
      (t.mast m).core = (((s.before m (s.bundleWith m y)).setIpend irq).enter 3 2 (causeWord code false true slot half) tval).age 8 ∧ s.Spares m t := by
  obtain ⟨irq, hcore⟩ := trapping_core s m y code slot half tval
  have enters := raise_escalates (s.trapping m y code slot half tval) m code slot half tval (by rwa [trapping_bank]) (by rwa [trapping_bank])
    ((trapping_im s m y code slot half tval).trans him)
  obtain ⟨hexec, spares⟩ := exec_sylCmd_enters comes h hcode enters
  exact ⟨_, irq, hexec, by rw [trapEntry_core, hcore], spares⟩

/-- In bank 3 the bundle resets the module. -/
theorem exec_sylCmd_resets (hbank : (s.mast m).core.bank = 3) :
    exec (sylCmd m y) s = .next (s.trapping m y code slot half tval).moduleReset := by
  have restarted := moduleReset_restarted (s.trapping m y code slot half tval)
  have hthree : ((s.trapping m y code slot half tval).mast m).core.bank = 3 := by rw [trapping_bank, before_bank, hbank]
  rw [exec_sylCmd_stops comes h, stopAt_trap_resets hthree, restarted.fenceOwn, restarted.vecFollows]

end

/-- Settles O18: the bundle enters its handler, escalates, or resets the module, by the bank and IM it meets. -/
theorem exceptionsEnterHandlers : Obligations.ExceptionsEnterHandlers := by
  refine ⟨?enters, ?escalates, ?resets⟩
  case enters =>
    intro s m y code slot half tval comes h hcode
    dsimp only
    intro hbank hfree
    obtain ⟨t, irq, hexec, hcore, spares⟩ := exec_sylCmd_enters_handler comes h hcode hbank hfree
    refine ⟨t, hexec, ?_⟩
    rw [hcore, spares.tok, spares.ram, spares.posts]
    generalize s.before m (s.bundleWith m y) = c
    simp only [Core.age_bank, Core.age_level, Core.age_im, Core.age_npc, Core.age_sys, Core.age_muls, Core.age_ldm, Core.age_opening, Core.enter_bank,
      Core.enter_level, Core.enter_im, Core.enter_npc, Core.enter_sys_self, Core.enter_muls, Core.enter_ldm, Core.enter_opening, Core.setIpend_sys,
      Core.setIpend_level, Core.setIpend_im, Core.setIpend_bank, Core.setIpend_npc, Core.setIpend_ldm, Core.setIpend_muls, true_and, and_true]
    refine ⟨?_, BitVec.toNat_ofNat _ _, epc_toNat _, causeWord_exception _ _ _ _, estatusWord_trap _ _ _, fun i => Core.age_sameButLoops _ 8 i, rfl⟩
    split <;> rfl
  case escalates =>
    intro s m y code slot half tval comes h hcode
    dsimp only
    intro hbank hzero him
    obtain ⟨t, irq, hexec, hcore, -⟩ := exec_sylCmd_escalates comes h hcode hbank hzero him
    refine ⟨t, hexec, ?_⟩
    rw [hcore]
    generalize s.before m (s.bundleWith m y) = c at him ⊢
    simp only [Core.age_bank, Core.age_level, Core.age_im, Core.age_sys, Core.enter_bank, Core.enter_level, Core.enter_im, Core.enter_sys_self,
      Core.setIpend_level, Core.setIpend_im, Core.setIpend_npc, him, true_and]
    exact ⟨causeWord_exception _ _ _ _, epc_toNat _, estatusWord_trap _ _ _, fun i => (Core.age_sameButLoops _ 8 i).1⟩
  case resets =>
    intro s m code slot half tval hbank
    refine ⟨raise_resets hbank, raiseReturn_resets hbank, fun y comes h => exec_sylCmd_resets comes h hbank, fun j => ?_⟩
    rw [(moduleReset_restarted s).job j]
    rfl

end Sys2Proof.Machine
end

section
/-!
PROOF. Snapshots, trim, the governor and the input power (17 R431-R444): the control tree by the state it is in, what the faults of jobs leave alone, and
what a start-up leaves in the masts.
-/

namespace Sys2Proof.Machine

/-! ## Lists of steps -/

/-- A property that one step of a list makes, and every step keeps, holds after the list. -/
theorem fold_makes {α σ : Type} {P : σ → Prop} {f : σ → α → σ} {x : α} (keeps : ∀ t y, P t → P (f t y)) (makes : ∀ t, P (f t x)) :
    ∀ (l : List α) (s : σ), x ∈ l → P (l.foldl f s)
  | y :: l, s, hx => by
    rcases List.mem_cons.mp hx with rfl | hx
    · exact fold_keeps keeps l (makes s)
    · exact fold_makes keeps makes l (f s y) hx

/-! ## The domains -/

section
variable {s t : State} {f : State → State}

/-- An operation of the compute domain applies while that is on. -/
theorem next_on (on : s.pow.compOn = true) (h : f s = t) : (.next (s.on f) : Host.Outcome State Fault Refusal) = .next t := by
  rw [State.on, if_pos on, h]

/-- An operation of the always-on domain applies while that is on. -/
theorem next_onAo (ao : s.pow.aoOn = true) (h : f s = t) : (.next (s.onAo f) : Host.Outcome State Fault Refusal) = .next t := by
  rw [State.onAo, if_pos ao, h]

/-- An operation that Crowsnest serves applies outside recovery. -/
theorem next_serve (ao : s.pow.aoOn = true) (stage : s.boot.stage ≠ 6) (h : f s = t) : (.next (s.serve f) : Host.Outcome State Fault Refusal) = .next t := by
  rw [State.serve, ao, decide_eq_true stage, ← h]
  rfl

end

@[simp] theorem modPow_pow (s : State) (f : Power → Power) : (s.modPow f).pow = f s.pow := rfl
@[simp] theorem modSnap_snap (s : State) (f : Snap → Snap) : (s.modSnap f).snap = f s.snap := rfl

/-! ## The control tree -/

section
variable {s : State}

theorem treeNext_of_busy (h : s.pow.tree ≠ .idle) : s.treeNext = s := by rw [State.treeNext, if_pos h]

theorem treeNext_of_changing (tree : s.pow.tree = .idle) (h : s.pow.changing = true) :
    s.treeNext = s.modPow fun p => { p with tree := .trim true trimUnits } := by
  simp [State.treeNext, tree, h]

theorem treeNext_of_snapWait (tree : s.pow.tree = .idle) (trim : s.pow.changing = false) (gov : s.pow.govWait = false) (h : s.pow.snapWait = true) :
    s.treeNext = (s.modPow fun p => { p with tree := .snap snapUnits, snapWait := false }).modSnap fun x =>
      { x with busy := true, seq := x.seq + 1, markers := allMarkers } := by
  simp [State.treeNext, tree, trim, gov, h]

theorem treeNext_of_no_request (trim : s.pow.changing = false) (gov : s.pow.govWait = false) (snap : s.pow.snapWait = false) : s.treeNext = s := by
  simp [State.treeNext, trim, gov, snap]

/-- A free tree takes a request, and changes no register of power and no mast. -/
theorem treeNext_frame (s : State) : s.treeNext.masts = s.masts ∧ ∃ (tree : TreeOp) (govWait snapWait : Bool),
    s.treeNext.pow = { s.pow with tree := tree, govWait := govWait, snapWait := snapWait } := by
  unfold State.treeNext
  split
  · exact ⟨rfl, _, _, _, rfl⟩
  · split
    · exact ⟨rfl, _, _, _, rfl⟩
    · split
      · exact ⟨rfl, _, _, _, rfl⟩
      · split <;> exact ⟨rfl, _, _, _, rfl⟩

end

/-! ## Snapshots -/

section
variable {s : State}

theorem snapReq_of_busy (h : s.snap.busy = true) : s.snapReq = s := by rw [State.snapReq, if_pos h]

theorem snapReq_of_free (busy : s.snap.busy = false) (tree : s.pow.tree = .idle) (trim : s.pow.changing = false) (gov : s.pow.govWait = false) :
    s.snapReq = (s.modPow fun p => { p with tree := .snap snapUnits, snapWait := false }).modSnap fun x =>
      { x with busy := true, seq := x.seq + 1, markers := allMarkers } := by
  simp only [State.snapReq, busy, Bool.false_eq_true, if_false]
  rw [treeNext_of_snapWait (by exact tree) (by exact trim) (by exact gov) rfl]
  rfl

theorem snapDue_of_snap {p : Power} {us : List SnapUnit} (h : p.tree = .snap us) : p.snapDue = us := by rw [Power.snapDue, h]

/-- The token reaches a unit, and others are still due. -/
theorem snapToken_of_due {us : List SnapUnit} {u : SnapUnit} (tree : s.pow.tree = .snap us) (due : u ∈ us)
    (more : us.filter (fun v => decide (v ≠ u)) ≠ []) :
    s.snapToken u = (s.copyCounts u (us.any fun v => decide (v ≠ u) && snapWith u v)).modPow fun p =>
      { p with tree := .snap (us.filter fun v => decide (v ≠ u)) } := by
  have filled : (us.filter fun v => decide (v ≠ u)).isEmpty = false := by simpa using more
  rw [State.snapToken, snapDue_of_snap tree, if_pos (by simpa using due)]
  simp only [filled, Bool.false_eq_true, if_false, List.any_filter]
  exact treeNext_of_busy (by simp [State.modPow])

theorem copyCounts_ram (s : State) (u : SnapUnit) (rest : Bool) : (s.copyCounts u rest).ram = s.ram := by cases u <;> rfl

theorem copyCounts_engine (s : State) (m : MastId) (e : EngId) (rest : Bool) : (s.copyCounts (.engine m e) rest).mast m =
    { s.mast m with
      shadow := Tab.copied (if e = 5 then Sparse.set (s.mast m).cnt 0x1C008 ((s.mast m).canv.ce.setWidth 64) else (s.mast m).cnt) (s.mast m).shadow
        (snapHolds (.engine m e))
      snapTag := if rest then (s.mast m).snapTag else s.snap.seq } := by
  rw [State.copyCounts, modMast_mast_self]

theorem copyCounts_die (s : State) {u : SnapUnit} {d : DieId} (h : u = .die d ∨ (∃ k, u = .slice d k) ∨ (∃ k, u = .hbm d k)) (rest : Bool) :
    (s.copyCounts u rest).die d =
      { s.die d with
        shadow := Tab.copied (s.die d).cnt (s.die d).shadow (snapHolds u), snapTag := if rest then (s.die d).snapTag else s.snap.seq } := by
  rcases h with rfl | ⟨k, rfl⟩ | ⟨k, rfl⟩ <;> rw [State.copyCounts, modDie_die_self]

theorem copyCounts_module (s : State) {u : SnapUnit} (h : (∃ p, u = .port p) ∨ (∃ c, u = .chan c)) (rest : Bool) :
    (s.copyCounts u rest).snap = { s.snap with shadow := Tab.copied s.snap.cnt s.snap.shadow (snapHolds u) } := by
  rcases h with ⟨p, rfl⟩ | ⟨c, rfl⟩ <;> rfl

/-- The word of an input with the count of class `k` put into its field. -/
def inflWord (old : Word) (k : Fin 3) (n : Nat) : Word :=
  BitVec.ofNat 64 (old.toNat - wfld old (16 * k.val) 16 * 2 ^ (16 * k.val) + n * 2 ^ (16 * k.val))

theorem inflWord_field (old : Word) (k : Fin 3) {n : Nat} (hn : n < 2 ^ 16) : (inflWord old k n).toNat / 2 ^ (16 * k.val) % 2 ^ 16 = n := by
  have hold := old.isLt
  rw [inflWord, BitVec.toNat_ofNat, wfld, fld]
  match k with
  | 0 => simp only [Fin.val_zero, Nat.mul_zero, Nat.pow_zero, Nat.div_one]; omega
  | 1 => simp only [Fin.val_one, Nat.mul_one]; omega
  | 2 => simp only [Fin.val_two, Nat.reduceMul]; omega

/-- What a marker adds to the count of its input and class: nothing where the router has not copied. -/
def State.inFlight (s : State) (n : Fin 128) (v : BitVec 16) : Nat := if SnapUnit.router n ∈ s.pow.snapDue then 0 else v.toNat

theorem inFlight_lt (s : State) (n : Fin 128) (v : BitVec 16) : s.inFlight n v < 2 ^ 16 := by
  unfold State.inFlight
  split
  · decide
  · exact v.isLt

/-- The marker of a sender that has copied is taken. -/
theorem snapMarker_of_due {n : Fin 128} {i : Fin 6} {k : Fin 3} (due : markerNum n i k ∈ s.snap.markers)
    (sent : ∀ w ∈ markerFrom n i, w ∉ s.pow.snapDue) (v : BitVec 16) :
    s.snapMarker n i k v = s.modSnap fun x =>
      { x with
        markers := s.snap.markers.filter fun q => decide (q ≠ markerNum n i k)
        busy := !(s.snap.markers.filter fun q => decide (q ≠ markerNum n i k)).isEmpty
        infl := Sparse.set x.infl (n.val * 6 + i.val) (inflWord (Sparse.get x.infl (n.val * 6 + i.val)) k (s.inFlight n v)) } := by
  rw [State.snapMarker, if_pos (by simpa using ⟨due, sent⟩)]
  simp only [State.inFlight, inflWord, List.contains_iff_mem]

end

/-! ## Trim -/

theorem trimReq_of_changing {s : State} (h : s.pow.changing = true) (v : BitVec 2) : s.trimReq v = s := by rw [State.trimReq, if_pos h]

theorem trimReq_of_free {s : State} (trim : s.pow.changing = false) (tree : s.pow.tree = .idle) (v : BitVec 2) :
    s.trimReq v = s.modPow fun p => { p with trimReq := v, changing := true, tree := .trim true trimUnits } := by
  simp only [State.trimReq, trim, Bool.false_eq_true, if_false]
  rw [treeNext_of_changing (by exact tree) rfl]
  rfl

theorem trimApply_of_trim {s : State} {b : Bool} {us : List TrimUnit} (h : s.pow.tree = .trim b us) (u : TrimUnit) :
    s.trimApply u = s.modPow fun p => { p with tree := .trim b (us.filter fun v => decide (v ≠ u)) } := by
  simp only [State.trimApply, State.modPow, h]

/-- The last report makes the profile current, and with nothing waiting the tree stays free. -/
theorem trimDone_of_last {s : State} (tree : s.pow.tree = .trim true []) (gov : s.pow.govWait = false) (snap : s.pow.snapWait = false) :
    s.trimDone = s.modPow fun p => { p with tree := .idle, trimCur := s.pow.trimReq, changing := false, cap := capOf s.pow.trimReq } := by
  simp only [State.trimDone, tree, if_true]
  exact treeNext_of_no_request rfl gov snap

/-! ## The governor -/

/-- A new level changes no register of power but GOV, and no mast. -/
theorem setGov_frame (s : State) (g : BitVec 4) : (s.setGov g).masts = s.masts ∧ ∃ (tree : TreeOp) (govWait snapWait : Bool),
    (s.setGov g).pow = { s.pow with gov := g, tree := tree, govWait := govWait, snapWait := snapWait } := by
  obtain ⟨masts, tree, govWait, snapWait, pow⟩ := treeNext_frame (s.modPow fun p => { p with gov := g, govWait := p.govWait || decide (g ≠ p.gov) })
  exact ⟨masts, tree, govWait, snapWait, pow⟩

/-- Whether a window counts as above the cap: its power is, or the module is above 100 °C. -/
def Power.above (p : Power) (pin : BitVec 16) : Prop := p.cap.toNat < pin.toNat ∨ 100 < p.tmax.toNat

/-- The registers of power after a window with its readings, OVERCAP and the count of low windows. -/
def Power.window (p : Power) (vin iin pin : BitVec 16) (overcap : Bool) (below : Nat) : Power :=
  { p with vin := vin, iin := iin, pin := pin, overcap := overcap, below := below, infault := p.infault && !inLimits vin.toNat iin.toNat }

/-- The level after a window above the cap. -/
def Power.raised (p : Power) : BitVec 4 := if p.gov.toNat < 8 then p.gov + 1 else p.gov

theorem raised_toNat (p : Power) : p.raised.toNat = if p.gov.toNat < 8 then p.gov.toNat + 1 else p.gov.toNat := by
  unfold Power.raised
  split <;> bv_omega

/-- A level above 0 falls by one. -/
theorem lowered_toNat {g : BitVec 4} (h : g ≠ 0) : (g - 1).toNat = g.toNat - 1 := by bv_omega

section
variable {s : State} (on : s.pow.compOn = true) (vin iin pin : BitVec 16)
include on

theorem govWindow_of_above (h : s.pow.above pin) :
    s.govWindow vin iin pin = (s.modPow fun p => p.window vin iin pin true 0).setGov s.pow.raised := by
  have above : (decide (s.pow.cap.toNat < pin.toNat) || decide (100 < s.pow.tmax.toNat)) = true := by simpa [Power.above] using h
  simp [State.govWindow, State.modPow, Power.window, Power.raised, above, on]

theorem govWindow_of_low (h : ¬s.pow.above pin) (low : pin.toNat + 50 < s.pow.cap.toNat) (fourth : s.pow.below = 3) :
    s.govWindow vin iin pin =
      if s.pow.gov = 0 then s.modPow fun p => p.window vin iin pin p.overcap 0
      else (s.modPow fun p => p.window vin iin pin p.overcap 0).setGov (s.pow.gov - 1) := by
  have above : (decide (s.pow.cap.toNat < pin.toNat) || decide (100 < s.pow.tmax.toNat)) = false := by simpa [Power.above] using h
  simp [State.govWindow, State.modPow, Power.window, above, on, low, fourth]

theorem govWindow_of_level (h : ¬s.pow.above pin) (level : s.pow.cap.toNat ≤ pin.toNat + 50 ∨ s.pow.below < 3) : s.govWindow vin iin pin =
    s.modPow fun p => p.window vin iin pin p.overcap (if pin.toNat + 50 < s.pow.cap.toNat then s.pow.below + 1 else 0) := by
  have above : (decide (s.pow.cap.toNat < pin.toNat) || decide (100 < s.pow.tmax.toNat)) = false := by simpa [Power.above] using h
  have few : ¬4 ≤ (if pin.toNat + 50 < s.pow.cap.toNat then s.pow.below + 1 else 0) := by split <;> omega
  simp [State.govWindow, State.modPow, Power.window, above, on, few]

/-- The fourth low window in a row lowers the level, but not below 0. -/
theorem govWindow_of_low_pow (h : ¬s.pow.above pin) (low : pin.toNat + 50 < s.pow.cap.toNat) (fourth : s.pow.below = 3) :
    ∃ (gov : BitVec 4) (tree : TreeOp) (govWait snapWait : Bool), gov.toNat = s.pow.gov.toNat - 1 ∧
      (s.govWindow vin iin pin).pow =
        { s.pow.window vin iin pin s.pow.overcap 0 with gov := gov, tree := tree, govWait := govWait, snapWait := snapWait } := by
  rw [govWindow_of_low on vin iin pin h low fourth]
  split
  · next zero => exact ⟨s.pow.gov, _, _, _, by simp [zero], rfl⟩
  · next above =>
    obtain ⟨-, tree, govWait, snapWait, pow⟩ := setGov_frame (s.modPow fun p => p.window vin iin pin p.overcap 0) (s.pow.gov - 1)
    exact ⟨s.pow.gov - 1, tree, govWait, snapWait, lowered_toNat above, pow⟩

end

/-! ## What the faults of jobs leave alone -/

/-- Memory, power and start-up are unchanged, a slot is as valid as before, and a fenced job stays fenced. -/
structure State.FaultFrame (s t : State) : Prop where
  ram : t.ram = s.ram
  pow : t.pow = s.pow
  boot : t.boot = s.boot
  valid : ∀ j, (t.job j).valid = (s.job j).valid
  fenced : ∀ j, (s.job j).fenced = true → (t.job j).fenced = true

/-- The engines of the masts of a fenced job stop, and their cores are told. -/
def State.stopMasts (s : State) (j : JobSlot) : State := s.eachMast fun m t =>
  if (t.mast m).runs j then (t.modMast m stopEngines).modCore m fun c => { c with ipend := c.ipend ||| 0x200 } else t

/-- The posts to the token slots of a fenced job are dropped. -/
def State.dropPosts (s : State) (j : JobSlot) : State :=
  { s with
    posts := s.posts.filter fun p => !(tokenNode p.addr == s.nodeId &&
      match slotOf p.addr with | some i => decide (s.slotJob i = some j) | none => false)
    held := s.held.filter fun h => !decide (s.slotJob h.1 = some j) }

/-- The runs of the channels of a fenced job are abandoned. -/
def State.dropRuns (s : State) (j : JobSlot) : State := s.eachChan fun c t =>
  if (t.chan c).jslot = j then
    t.modChan c fun x => { x with ranks := [], staged := [], early := [], st := if x.st = 1 then 0 else x.st }
  else t

/-- The fence of a job, step by step (15 R398). -/
theorem fenceJob_of_free {s : State} {j : JobSlot} (valid : (s.job j).valid = true) (free : (s.job j).fenced = false) (reason : Nat) :
    s.fenceJob j reason = ((((s.modJob j fun x => { x with fenced := true, reason := BitVec.ofNat 3 reason }).stopMasts j).dropPosts j).dropRuns j).jobEvent j
      .jobFenced (evDetail .jobFenced reason) := by
  rw [State.fenceJob, valid, free]
  rfl

/-- What a fault of every job does to one slot. -/
def State.faultSlot (s : State) (j : JobSlot) (kind : Nat) : State := if (s.job j).valid then (s.moduleFault j kind).fenceWrite j true else s

theorem faultAllJobs_eq (s : State) (kind : Nat) : s.faultAllJobs kind = (fins 8).foldl (fun t j => t.faultSlot j kind) s := rfl

namespace State.FaultFrame

variable {s t u : State}

theorem refl (s : State) : s.FaultFrame s := ⟨rfl, rfl, rfl, fun _ => rfl, fun _ h => h⟩

theorem trans (h : s.FaultFrame t) (k : t.FaultFrame u) : s.FaultFrame u :=
  ⟨k.ram.trans h.ram, k.pow.trans h.pow, k.boot.trans h.boot, fun j => (k.valid j).trans (h.valid j), fun j f => k.fenced j (h.fenced j f)⟩

/-- A change of none of these parts. -/
theorem of_parts (ram : t.ram = s.ram) (pow : t.pow = s.pow) (boot : t.boot = s.boot) (jobs : t.jobs = s.jobs) : s.FaultFrame t :=
  ⟨ram, pow, boot, fun j => by rw [State.job, jobs, State.job], fun j => by rw [State.job, State.job, jobs]; exact id⟩

theorem foldl {α : Type} {f : State → α → State} (hf : ∀ t x, State.FaultFrame t (f t x)) (l : List α) (s : State) : s.FaultFrame (l.foldl f s) :=
  fold_keeps (P := s.FaultFrame) (fun t x h => h.trans (hf t x)) l (refl s)

theorem modJob (s : State) (j : JobSlot) {f : Job → Job} (valid : (f (s.job j)).valid = (s.job j).valid)
    (fenced : (s.job j).fenced = true → (f (s.job j)).fenced = true) : s.FaultFrame (s.modJob j f) := by
  have slot (k : JobSlot) : ((s.modJob j f).job k).valid = (s.job k).valid ∧ ((s.job k).fenced = true → ((s.modJob j f).job k).fenced = true) := by
    by_cases e : k = j
    · subst e
      rw [modJob_job_self]
      exact ⟨valid, fenced⟩
    · rw [modJob_job_ne s f e]
      exact ⟨rfl, id⟩
  exact ⟨rfl, rfl, rfl, fun k => (slot k).1, fun k => (slot k).2⟩

theorem writeEvent (s : State) (f : FnId) (t : EvType) (jobid : BitVec 16) (detail : List Byte) : s.FaultFrame (s.writeEvent f t jobid detail) :=
  of_parts rfl rfl rfl rfl

theorem event (s : State) (f : FnId) (t : EvType) (jobid : BitVec 16) (detail : List Byte) : s.FaultFrame (s.event f t jobid detail) := by
  unfold State.event
  dsimp only
  split
  · exact of_parts rfl rfl rfl rfl
  · split
    · exact of_parts rfl rfl rfl rfl
    · exact writeEvent s f t jobid detail

theorem jobEvent (s : State) (j : JobSlot) (t : EvType) (detail : List Byte) : s.FaultFrame (s.jobEvent j t detail) := by
  unfold State.jobEvent
  split
  · exact event s _ t _ detail
  · exact refl s

theorem modSport (s : State) (p : PortId) (f : SPort → SPort) : s.FaultFrame (s.modSport p f) := of_parts rfl rfl rfl rfl

theorem emit (s : State) (p : PortId) (msg : OutMsg) : s.FaultFrame (s.emit p msg) := of_parts rfl rfl rfl rfl

theorem leaveBy (s : State) (p : PortId) (w : Waiting) : s.FaultFrame (s.leaveBy p w) := by
  unfold State.leaveBy
  dsimp only
  split
  · exact (emit s p w.msg).trans (modSport _ _ _)
  · exact emit s p w.msg

theorem pump (s : State) (p : PortId) : s.FaultFrame (s.pump p) := by
  have looked (n : Nat) : s.FaultFrame { s with frees := n } := of_parts rfl rfl rfl rfl
  unfold State.pump
  dsimp only
  split
  · exact refl s
  · exact ((looked _).trans (modSport _ p _)).trans (foldl (fun t w => leaveBy t p w) _ _)

theorem sendTo (s : State) (b : Word) (dst : BitVec 14) (plane : Nat) (k : Fin 3) (msg : OutMsg) : s.FaultFrame (s.sendTo b dst plane k msg) :=
  (modSport s _ _).trans (pump _ _)

theorem sendFenceNotices (s : State) (j : JobSlot) (fromFault : Bool) : s.FaultFrame (s.sendFenceNotices j fromFault) := by
  refine foldl (fun t r => ?_) _ s
  dsimp only
  split
  · exact refl t
  · exact sendTo t _ _ _ _ _

theorem stopMasts (s : State) (j : JobSlot) : s.FaultFrame (s.stopMasts j) := by
  refine foldl (fun t m => ?_) _ s
  dsimp only
  split
  · exact of_parts rfl rfl rfl rfl
  · exact refl t

theorem dropPosts (s : State) (j : JobSlot) : s.FaultFrame (s.dropPosts j) := of_parts rfl rfl rfl rfl

theorem dropRuns (s : State) (j : JobSlot) : s.FaultFrame (s.dropRuns j) := by
  refine foldl (fun t c => ?_) _ s
  dsimp only
  split
  · exact of_parts rfl rfl rfl rfl
  · exact refl t

theorem recordFault (s : State) (j : JobSlot) (mast e kind : Nat) : s.FaultFrame (s.recordFault j mast e kind) := by
  unfold State.recordFault
  refine State.FaultFrame.trans (modJob s j ?_ ?_) (jobEvent _ _ _ _)
  · dsimp only
    split <;> rfl
  · dsimp only
    split <;> exact id

theorem moduleFault (s : State) (j : JobSlot) (kind : Nat) : s.FaultFrame (s.moduleFault j kind) := by
  unfold State.moduleFault
  split
  · exact recordFault s j 0 7 kind
  · exact refl s

/-- Once its slot is marked, the fence of a valid job leaves all these alone. -/
theorem fenceJob_marked {j : JobSlot} (valid : (s.job j).valid = true) (free : (s.job j).fenced = false) (reason : Nat) :
    (s.modJob j fun x => { x with fenced := true, reason := BitVec.ofNat 3 reason }).FaultFrame (s.fenceJob j reason) := by
  rw [fenceJob_of_free valid free]
  exact (((stopMasts _ j).trans (dropPosts _ j)).trans (dropRuns _ j)).trans (jobEvent _ j _ _)

theorem fenceWrite_marked {j : JobSlot} (valid : (s.job j).valid = true) (free : (s.job j).fenced = false) (fromFault : Bool) :
    (s.modJob j fun x => { x with fenced := true, reason := BitVec.ofNat 3 4 }).FaultFrame (s.fenceWrite j fromFault) := by
  rw [State.fenceWrite, valid, free]
  exact (fenceJob_marked valid free 4).trans (sendFenceNotices _ j fromFault)

theorem fenceWrite (s : State) (j : JobSlot) (fromFault : Bool) : s.FaultFrame (s.fenceWrite j fromFault) := by
  by_cases h : (!(s.job j).valid || (s.job j).fenced) = true
  · rw [State.fenceWrite, if_pos h]
    exact refl s
  · obtain ⟨valid, free⟩ : (s.job j).valid = true ∧ (s.job j).fenced = false := by simpa using h
    exact (modJob s j rfl fun _ => rfl).trans (fenceWrite_marked valid free fromFault)

theorem faultSlot (s : State) (j : JobSlot) (kind : Nat) : s.FaultFrame (s.faultSlot j kind) := by
  unfold State.faultSlot
  split
  · exact (moduleFault s j kind).trans (fenceWrite _ j true)
  · exact refl s

theorem faultAllJobs (s : State) (kind : Nat) : s.FaultFrame (s.faultAllJobs kind) := foldl (fun t j => faultSlot t j kind) _ s

end State.FaultFrame

/-- A write of the fence leaves a valid job fenced. -/
theorem fenceWrite_fenced {s : State} {j : JobSlot} (valid : (s.job j).valid = true) (fromFault : Bool) :
    ((s.fenceWrite j fromFault).job j).fenced = true := by
  cases free : (s.job j).fenced with
  | true => exact (State.FaultFrame.fenceWrite s j fromFault).fenced j free
  | false => exact (State.FaultFrame.fenceWrite_marked valid free fromFault).fenced j (by rw [modJob_job_self])

theorem faultSlot_fenced {s : State} {j : JobSlot} (valid : (s.job j).valid = true) (kind : Nat) : ((s.faultSlot j kind).job j).fenced = true := by
  rw [State.faultSlot, if_pos valid]
  exact fenceWrite_fenced (((State.FaultFrame.moduleFault s j kind).valid j).trans valid) true

/-- A fault of every job leaves every valid job fenced. -/
theorem faultAllJobs_fenced {s : State} {j : JobSlot} (valid : (s.job j).valid = true) (kind : Nat) : ((s.faultAllJobs kind).job j).fenced = true := by
  have fences : ((s.faultAllJobs kind).job j).valid = true → ((s.faultAllJobs kind).job j).fenced = true := by
    rw [faultAllJobs_eq]
    refine fold_makes (P := fun t : State => (t.job j).valid = true → (t.job j).fenced = true) (x := j) (fun t i fenced valid => ?keeps) (fun t valid => ?makes)
      (fins 8) s (List.mem_finRange j)
    case keeps =>
      have frame := State.FaultFrame.faultSlot t i kind
      exact frame.fenced j (fenced ((frame.valid j).symm.trans valid))
    case makes => exact faultSlot_fenced (((State.FaultFrame.faultSlot t j kind).valid j).symm.trans valid) kind
  exact fences (((State.FaultFrame.faultAllJobs s kind).valid j).trans valid)

/-! ## The pins and the commands of the hosts -/

theorem raiseBusyBoth_hsig (s : State) (h : HostPort) : (s.raiseBusyBoth.hport h).hsig = .busy := by
  match h with
  | 0 => simp [State.raiseBusyBoth, State.raiseBusy, State.hport, State.modHport, State.modHosts, vget_eq]
  | 1 => simp [State.raiseBusyBoth, State.raiseBusy, State.hport, State.modHport, State.modHosts, vget_eq]

@[simp] theorem raiseBusyBoth_pow (s : State) : s.raiseBusyBoth.pow = s.pow := rfl
@[simp] theorem raiseBusyBoth_boot (s : State) : s.raiseBusyBoth.boot = s.boot := rfl
@[simp] theorem raiseBusyBoth_ram (s : State) : s.raiseBusyBoth.ram = s.ram := rfl
@[simp] theorem raiseBusyBoth_job (s : State) (j : JobSlot) : s.raiseBusyBoth.job j = s.job j := rfl
@[simp] theorem raiseBusyBoth_cmds (s : State) : s.raiseBusyBoth.hosts.cmds = s.hosts.cmds := rfl

/-- Every command that the ports have started has a status. -/
theorem drainCmds_status (s : State) : ∀ c ∈ s.drainCmds.hosts.cmds, c.status ≠ none := by
  intro c hc
  obtain ⟨d, -, rfl⟩ := List.mem_map.mp hc
  exact Option.some_ne_none _

/-! ## Temperature -/

/-- The registers of power after a reading. -/
def Power.reading (p : Power) (t : BitVec 8) : Power :=
  { p with tmax := t, thermal := p.thermal || decide (100 < t.toNat), cool := if t.toNat < 100 then p.cool + 1 else 0 }

/-- The busy drain of a thermal trip begins: the commands of the hosts get a status, and the pins go busy. -/
def State.beginHotDrain (s : State) : State :=
  ((s.drainCmds.modPow fun p => { p with hotDrain := true }).modSvc fun v => { v with drained := false }).raiseBusyBoth

/-- What a thermal trip does. -/
def State.hotTrip (s : State) : State := (s.faultAllJobs 13).beginHotDrain

theorem thermal_of_hot {s : State} (on : s.pow.compOn = true) (first : s.pow.hotDrain = false) {t : BitVec 8} (hot : 110 < t.toNat) :
    s.thermal t = (s.modPow fun p => p.reading t).hotTrip := by
  rw [State.thermal, if_pos ⟨hot, on, by rw [modPow_pow, first]; rfl⟩]
  rfl

theorem thermal_of_bearable {s : State} (first : s.pow.hotDrain = false) {t : BitVec 8} (bearable : t.toNat ≤ 110) :
    s.thermal t = s.modPow fun p => p.reading t := by
  rw [State.thermal, if_neg fun h => absurd h.1 (Nat.not_lt.mpr bearable), State.hotEnd, if_neg (by rw [modPow_pow, first]; simp)]
  rfl

theorem beginHotDrain_pow (s : State) : s.beginHotDrain.pow = { s.pow with hotDrain := true } := by
  rw [State.beginHotDrain, raiseBusyBoth_pow, modSvc_pow, modPow_pow, State.drainCmds, modHosts_pow]

theorem beginHotDrain_ram (s : State) : s.beginHotDrain.ram = s.ram := by
  rw [State.beginHotDrain, raiseBusyBoth_ram, modSvc_ram, modPow_ram, State.drainCmds, modHosts_ram]

theorem beginHotDrain_job (s : State) (j : JobSlot) : s.beginHotDrain.job j = s.job j := by
  rw [State.beginHotDrain, raiseBusyBoth_job, modSvc_job, modPow_job, State.drainCmds, modHosts_job]

theorem beginHotDrain_status (s : State) : ∀ c ∈ s.beginHotDrain.hosts.cmds, c.status ≠ none := by
  rw [State.beginHotDrain, raiseBusyBoth_cmds, modSvc_hosts, modPow_hosts]
  exact drainCmds_status s

theorem hotTrip_pow (s : State) : s.hotTrip.pow = { s.pow with hotDrain := true } := by
  rw [State.hotTrip, beginHotDrain_pow, (State.FaultFrame.faultAllJobs s 13).pow]

theorem hotTrip_ram (s : State) : s.hotTrip.ram = s.ram := by
  rw [State.hotTrip, beginHotDrain_ram, (State.FaultFrame.faultAllJobs s 13).ram]

theorem hotTrip_fenced {s : State} {j : JobSlot} (valid : (s.job j).valid = true) : (s.hotTrip.job j).fenced = true := by
  rw [State.hotTrip, beginHotDrain_job]
  exact faultAllJobs_fenced valid 13

theorem hotTrip_status (s : State) : ∀ c ∈ s.hotTrip.hosts.cmds, c.status ≠ none := beginHotDrain_status _

theorem hotTrip_hsig (s : State) (h : HostPort) : (s.hotTrip.hport h).hsig = .busy := raiseBusyBoth_hsig _ h

/-! ## Input faults -/

theorem inputFault_of_off {s : State} (off : s.pow.compOn = false) : s.inputFault = s.modPow fun p => { p with infault := true } := by
  rw [State.inputFault, if_neg (by simp [off])]

theorem inputFault_of_on {s : State} (on : s.pow.compOn = true) : s.inputFault = s.compOff := by rw [State.inputFault, if_pos on]

theorem iinTrip_of_off {s : State} (off : s.pow.compOn = false) : s.iinTrip = s.modPow fun p => { p with infault := true, inSwitch := false } := by
  rw [State.iinTrip, inputFault_of_off off]
  rfl

/-- Power with the compute domain switched off by an input fault. -/
def Power.faulted (p : Power) : Power :=
  { p with compOn := false, infault := true, tree := .idle, changing := false, govWait := false, snapWait := false }

theorem compOff_eq (s : State) : s.compOff = ((s.faultAllJobs 13).modPow Power.faulted).computeReset := rfl

theorem computeReset_pow (s : State) : s.computeReset.pow = s.pow := rfl
theorem computeReset_boot (s : State) : s.computeReset.boot = s.boot := rfl

theorem compOff_pow (s : State) : s.compOff.pow = s.pow.faulted := by
  rw [compOff_eq, computeReset_pow, modPow_pow, (State.FaultFrame.faultAllJobs s 13).pow]

theorem compOff_boot (s : State) : s.compOff.boot = s.boot := by
  rw [compOff_eq, computeReset_boot, modPow_boot, (State.FaultFrame.faultAllJobs s 13).boot]

theorem compOff_restarted (s : State) : s.compOff.Restarted := by
  rw [compOff_eq]
  exact computeReset_restarted _

/-- With the compute domain off, a fault is only recorded. -/
theorem exec_inputFault_of_off {s : State} (ao : s.pow.aoOn = true) (off : s.pow.compOn = false) :
    ∀ i ∈ [Instr.vinLow, .vinHigh, .iinHigh], exec i s = .next (s.modPow fun p => { p with infault := true }) := by
  intro i hi
  have meaning : exec i s = .next (s.onAo State.inputFault) := by
    simp only [List.mem_cons, List.not_mem_nil, or_false] at hi
    rcases hi with rfl | rfl | rfl <;> rfl
  rw [meaning]
  exact next_onAo ao (inputFault_of_off off)

/-- Every input fault takes the compute domain down, and IIN_TRIP opens the switch as well. -/
theorem exec_inputFault_of_on {s : State} (ao : s.pow.aoOn = true) (on : s.pow.compOn = true) :
    ∀ i ∈ [Instr.vinLow, .vinHigh, .iinHigh, .iinTrip],
      exec i s = .next (s.compOff.modPow fun p => { p with inSwitch := p.inSwitch && decide (i ≠ .iinTrip) }) := by
  intro i hi
  have stays (t : State) : t.modPow (fun p => { p with inSwitch := p.inSwitch && true }) = t := by
    simp only [Bool.and_true]
    rfl
  have opens : s.compOff.modPow (fun p => { p with inSwitch := p.inSwitch && false }) = s.iinTrip := by
    rw [State.iinTrip, inputFault_of_on on]
    simp only [Bool.and_false]
  simp only [List.mem_cons, List.not_mem_nil, or_false] at hi
  rcases hi with rfl | rfl | rfl | rfl
  · exact next_onAo ao ((inputFault_of_on on).trans (stays _).symm)
  · exact next_onAo ao ((inputFault_of_on on).trans (stays _).symm)
  · exact next_onAo ao ((inputFault_of_on on).trans (stays _).symm)
  · exact next_onAo ao opens.symm

/-- No slot holds a job, and no core runs. -/
theorem State.Restarted.still {s : State} (h : s.Restarted) : (∀ j, (s.job j).valid = false) ∧ ∀ m, (s.mast m).core.halted = true := by
  refine ⟨fun j => by rw [h.job j]; rfl, fun m => ?_⟩
  obtain ⟨image, start, hm⟩ := h.mast m
  rw [hm]
  rfl

/-! ## Start-up -/

theorem eachMast_keeps {P : State → Prop} {f : MastId → State → State} {s : State} (hf : ∀ m t, P t → P (f m t)) (h : P s) : P (s.eachMast f) :=
  fold_keeps (fun t m => hf m t) _ h

theorem eachMast_makes {P : State → Prop} {f : MastId → State → State} (k : MastId) (keeps : ∀ m t, P t → P (f m t)) (makes : ∀ t, P (f k t)) (s : State) :
    P (s.eachMast f) :=
  fold_makes (x := k) (fun t m => keeps m t) makes _ s (List.mem_finRange k)

theorem eachMast_modCore_pow (s : State) (f : MastId → Core → Core) : (s.eachMast fun m t => t.modCore m (f m)).pow = s.pow :=
  eachMast_keeps (P := fun t => t.pow = s.pow) (fun m t h => by rw [modCore_pow, h]) rfl

/-- An image loaded into every IMEM stands in each. -/
theorem eachMast_load_imem (s : State) (image : Mem) (k : MastId) :
    ((s.eachMast fun m t => t.modCore m fun c => { c with imem := image }).mast k).core.imem = image := by
  refine eachMast_makes (P := fun t => (t.mast k).core.imem = image) k (fun m t h => ?keeps) (fun t => ?makes) s
  case keeps =>
    by_cases e : k = m
    · subst e
      rw [modCore_mast_self]
    · rw [modCore_mast_ne t _ e, h]
  case makes => rw [modCore_mast_self]

theorem loadStartPcs_pow (s : State) : s.loadStartPcs.pow = s.pow :=
  eachMast_modCore_pow s fun m c => { c with startPc := BitVec.ofNat 17 (4 * (Config.startPc m.val).toNat) }

theorem loadStartPcs_imem (s : State) (k : MastId) : (s.loadStartPcs.mast k).core.imem = (s.mast k).core.imem := by
  unfold State.loadStartPcs
  refine eachMast_keeps (P := fun t => (t.mast k).core.imem = (s.mast k).core.imem) (fun m t h => ?_) rfl
  by_cases e : k = m
  · subst e
    rw [modCore_mast_self, h]
  · rw [modCore_mast_ne t _ e, h]

/-- The node record changes neither power nor a mast. -/
theorem applyRecord_frame (s : State) : s.applyRecord.pow = s.pow ∧ s.applyRecord.masts = s.masts := by
  unfold State.applyRecord
  dsimp only
  refine fold_keeps (P := fun t : State => t.pow = s.pow ∧ t.masts = s.masts) (fun t p h => ?_) (fins 16) ?_
  · split <;> exact h
  · split <;> exact ⟨rfl, rfl⟩

/-- The image that a bank puts into every IMEM (18 R463). -/
def Boot.mastImage (b : Boot) (bank : Bool) : Mem :=
  Mem.put [] 0x1C000 (Mem.bytes b.flash (flashBase bank 2 + 384) (Mem.load b.flash (flashBase bank 2 + 16) 4))

theorem loadMastImage_of_marked {s : State} (good : s.boot.checkBank s.boot.marked 2 = 0) :
    s.loadMastImage = some ((s.modBoot fun b => { b with runMast := headerFacts b.flash (flashBase s.boot.marked 2) }).eachMast fun m t =>
      t.modCore m fun c => { c with imem := s.boot.mastImage s.boot.marked }) := by
  rw [State.loadMastImage, if_pos good]
  rfl

theorem startTail_of_untrained (s : State) : s.startTail false = (s.modBoot fun b => { b with stage := 2 }).recovery 6 := rfl

/-- The module before its mast image is loaded: its stacks trained, its canvas zero. -/
def State.prepared (s : State) : State :=
  let s := s.modBoot fun b => { b with stage := 2 }
  let ds := s.dies.map fun d => { d with hbm := d.hbm.map fun h => { h with trained := true } }
  let s := { s with ram := zeroRam s.ram, dies := ds }
  s.modBoot fun b => { b with stage := 3 }

theorem startTail_of_image {s t : State} (image : s.prepared.loadMastImage = some t) :
    s.startTail true = (t.loadStartPcs.applyRecord).modBoot fun b => { b with stage := 5 } := by
  unfold State.startTail
  unfold State.prepared at image
  dsimp only at image
  simp only [Bool.not_true, Bool.false_eq_true, if_false, image]

/-- With a good image in the marked bank, the start-up reaches stage 5 with the image in every IMEM. -/
theorem startTail_of_marked {s : State} (good : s.boot.checkBank s.boot.marked 2 = 0) :
    (s.startTail true).boot.stage = 5 ∧ (s.startTail true).pow = s.pow ∧
      ∀ m : MastId, ((s.startTail true).mast m).core.imem = s.boot.mastImage s.boot.marked := by
  have good' : s.prepared.boot.checkBank s.prepared.boot.marked 2 = 0 := good
  rw [startTail_of_image (loadMastImage_of_marked good')]
  refine ⟨rfl, ?_, fun m => ?_⟩
  · rw [modBoot_pow, (applyRecord_frame _).1, loadStartPcs_pow, eachMast_modCore_pow _ fun _ c => { c with imem := s.prepared.boot.mastImage s.prepared.boot.marked }]
    rfl
  · rw [modBoot_mast, State.mast, (applyRecord_frame _).2, ← State.mast, loadStartPcs_imem, eachMast_load_imem]
    rfl

/-! ## Precharge -/

section
variable {s : State}

theorem precharged_of_closed_or_failed (h : (s.pow.inSwitch || s.pow.noStart) = true) : s.precharged = s := by rw [State.precharged, if_pos h]

variable (opened : s.pow.inSwitch = false) (starts : s.pow.noStart = false)
include opened starts

theorem precharged_of_not_waiting (stage : s.boot.stage ≠ 1) : s.precharged = s.modPow fun p => { p with inSwitch := true } := by
  rw [State.precharged, if_neg (by simp [opened, starts]), if_neg (by exact stage)]

theorem precharged_of_waiting (stage : s.boot.stage = 1) : s.precharged = (s.modPow fun p => { p with inSwitch := true }).railsUp := by
  rw [State.precharged, if_neg (by simp [opened, starts]), if_pos (by exact stage)]

end

theorem recovery_boot (s : State) (fail : Nat) : (s.recovery fail).boot = { s.boot with stage := 6, fail := BitVec.ofNat 4 fail } := by
  rw [State.recovery, raiseBusyBoth_boot, modPow_boot]
  rfl

theorem recovery_pow (s : State) (fail : Nat) : (s.recovery fail).pow = { s.pow with compOn := false } := by
  rw [State.recovery, raiseBusyBoth_pow, modPow_pow, modBoot_pow]

theorem railsUp_of_bad_rails {s : State} (rails : s.boot.railsOk = false) : s.railsUp = s.recovery 5 := by
  rw [State.railsUp, if_pos (by simp [rails])]

theorem railsUp_of_good_rails {s : State} (rails : s.boot.railsOk = true) :
    s.railsUp = (s.modPow fun p => { p with compOn := true }).startTail s.boot.hbmOk := by
  rw [State.railsUp, if_neg (by simp [rails])]

theorem prechargeFails_of_closed {s : State} (closed : s.pow.inSwitch = true) : s.prechargeFails = s := by rw [State.prechargeFails, if_pos closed]

theorem prechargeFails_of_open {s : State} (opened : s.pow.inSwitch = false) : s.prechargeFails = s.modPow fun p => { p with noStart := true } := by
  rw [State.prechargeFails, if_neg (by simp [opened])]

/-- Settles O57: each command applies its operation to the domain it belongs to, and each operation follows the rules of the control tree, the governor, the input
limits and the start-up. -/
theorem powerFollowsItsRules : Obligations.PowerFollowsItsRules := by
  intro s ao
  refine ⟨fun on => ⟨?snapReq, ?snapBusy, ?token, ?marker, ?apply, ?trimDone, ?governor, ?hot, ?fault⟩, ?reading, ?faultOff, ?standby, fun stage => ?trimReq,
    ?noStart, fun opened starts => ⟨?idleStage, ?badRails, ?badHbm, ?goodImage⟩, ?timeout, ?tooLate⟩
  case snapReq =>
    intro busy tree trim gov
    exact ⟨_, next_on on (snapReq_of_free busy tree trim gov), rfl, rfl, rfl, rfl, rfl⟩
  case snapBusy =>
    intro busy
    exact next_on on (snapReq_of_busy busy)
  case token =>
    intro us u tree due more
    refine ⟨_, next_on on (snapToken_of_due tree due more), rfl, copyCounts_ram s u _, ?_, ?_, ?_⟩
    · rintro m e rfl
      rw [modPow_mast, copyCounts_engine]
      exact ⟨rfl, rfl, rfl⟩
    · intro d held
      rw [modPow_die, copyCounts_die s held]
      exact ⟨rfl, rfl, rfl⟩
    · intro held
      rw [modPow_snap, copyCounts_module s held]
      exact ⟨rfl, rfl⟩
  case marker =>
    intro n i k v wf due sent
    refine ⟨_, next_on on (snapMarker_of_due due sent v), rfl, rfl, ?_⟩
    rw [modSnap_snap, sparse_get_set_same _ _ _ wf]
    exact inflWord_field _ k (inFlight_lt s n v)
  case apply =>
    intro b us u tree
    exact next_on on (trimApply_of_trim tree u)
  case trimDone =>
    intro tree gov snap
    exact next_on on (trimDone_of_last tree gov snap)
  case governor =>
    intro vin iin pin
    refine ⟨fun above => ⟨_, next_onAo ao (govWindow_of_above on vin iin pin above), ?_⟩,
      fun level low fourth => ⟨_, next_onAo ao rfl, ?_⟩,
      fun level few => ⟨_, next_onAo ao (govWindow_of_level on vin iin pin level few), rfl, rfl⟩⟩
    · obtain ⟨masts, tree, govWait, snapWait, pow⟩ := setGov_frame (s.modPow fun p => p.window vin iin pin true 0) s.pow.raised
      rw [pow]
      exact ⟨raised_toNat s.pow, rfl, rfl, rfl, masts⟩
    · obtain ⟨gov, tree, govWait, snapWait, lowered, pow⟩ := govWindow_of_low_pow on vin iin pin level low fourth
      rw [pow]
      exact ⟨lowered, rfl, rfl, rfl, rfl⟩
  case hot =>
    intro t hot first
    refine ⟨_, next_onAo ao (thermal_of_hot on first hot), ?_, ?_, ?_, hotTrip_hsig _, fun j valid => hotTrip_fenced valid,
      hotTrip_status _, hotTrip_ram _⟩
    · rw [hotTrip_pow, modPow_pow]
      rfl
    · have warm : 100 < t.toNat := by omega
      rw [hotTrip_pow, modPow_pow, Power.reading, decide_eq_true warm, Bool.or_true]
    · rw [hotTrip_pow]
  case fault =>
    intro i hi
    refine ⟨_, exec_inputFault_of_on ao on i hi, ?_⟩
    obtain ⟨jobs, cores⟩ := ((compOff_restarted s).modPow fun p => { p with inSwitch := p.inSwitch && decide (i ≠ .iinTrip) }).still
    rw [modPow_pow, compOff_pow, modPow_boot, compOff_boot]
    exact ⟨rfl, rfl, ao, rfl, jobs, cores, rfl⟩
  case reading =>
    intro t bearable first
    exact next_onAo ao (thermal_of_bearable first bearable)
  case faultOff =>
    exact fun off => ⟨exec_inputFault_of_off ao off, next_onAo ao (iinTrip_of_off off)⟩
  case standby =>
    exact ⟨_, next_onAo ao rfl, rfl, rfl, rfl, rfl, rfl, rfl, rfl, rfl⟩
  case trimReq =>
    exact fun v => ⟨fun trim tree => next_serve ao stage (trimReq_of_free trim tree v),
      fun trim => next_serve ao stage (trimReq_of_changing trim v)⟩
  case noStart =>
    exact fun opened failed => next_onAo ao (precharged_of_closed_or_failed (by rw [failed, Bool.or_true]))
  case idleStage =>
    exact fun stage => next_onAo ao (precharged_of_not_waiting opened starts stage)
  case badRails =>
    intro stage rails
    refine ⟨_, next_onAo ao ((precharged_of_waiting opened starts stage).trans (railsUp_of_bad_rails rails)), ?_⟩
    rw [recovery_boot, recovery_pow]
    exact ⟨rfl, rfl, rfl, rfl⟩
  case badHbm =>
    intro stage rails hbm
    refine ⟨_, next_onAo ao ((precharged_of_waiting opened starts stage).trans (railsUp_of_good_rails rails)), ?_⟩
    rw [modPow_boot, hbm, startTail_of_untrained, recovery_boot, recovery_pow]
    exact ⟨rfl, rfl, rfl⟩
  case goodImage =>
    intro stage rails hbm good
    refine ⟨_, next_onAo ao ((precharged_of_waiting opened starts stage).trans (railsUp_of_good_rails rails)), ?_⟩
    rw [modPow_boot, hbm]
    obtain ⟨five, pow, image⟩ := startTail_of_marked (s := (s.modPow fun p => { p with inSwitch := true }).modPow fun p => { p with compOn := true }) good
    rw [pow]
    exact ⟨five, rfl, rfl, image⟩
  case timeout =>
    exact fun opened => next_onAo ao (prechargeFails_of_open opened)
  case tooLate =>
    exact fun closed => next_onAo ao (prechargeFails_of_closed closed)

end Sys2Proof.Machine
end
